-- ==== Sys2Proof/Word.lean ====
section
/-!
DEFINITION. The word types of the Garfen N9 and nothing else.
The widths are those of 00 R2 and 03 R74; every operation on them is Lean's own `BitVec` arithmetic,
so no rule of the spec is decided here.
-/
namespace Sys2Proof

/-- A 32-bit register or instruction word (R35, R74). -/
abbrev Word := BitVec 32

/-- A 64-bit register pair, special register or latch (R51, R67). -/
abbrev DWord := BitVec 64

/-- One byte of memory. -/
abbrev Byte := BitVec 8

/-- A 96-bit lane mask: bit `i` is lane `i` (R74). -/
abbrev LaneMask := BitVec 96

/-- A 128-bit core mask: bit `n` is core `n` (R64, R249). -/
abbrev CoreMask := BitVec 128

end Sys2Proof
end

