-- ==== Sys2Proof/Syntax.lean ====
section
/-!
DEFINITION. The syntax of the machine: the fields of an instruction word (R35, R41-R43), the names of the
registers of the Ringmaster's window (R226, R241, R303, R326, R346, R359-R363), the plain data that some
steps carry, and `Instr`, one constructor per row of the opcode table.
-/
namespace Sys2Proof

/-- The extension word of an instruction (R41): none, a 32-bit immediate (X1, R42), or the fields C, X.s and
X.imm (X2, R43). -/
inductive Ext where
  | none
  | x1 (imm : Word)
  | x2 (c : BitVec 7) (xs : BitVec 6) (imm : BitVec 19)
  deriving DecidableEq, Repr

/-- The fields of an encoded instruction: E, N, D, A and B of the base word (R35) and its extension word. -/
structure Fields where
  e : Bool
  n : Bool
  d : BitVec 7
  a : BitVec 7
  b : BitVec 7
  ext : Ext
  deriving DecidableEq, Repr

/-- A register of the Ringmaster's window, by name; `q` is a queue, `c` a package cluster (die * 16 + cluster),
`d` a die, `k` an index within the unit (R226, R241, R303, R326, R346, R359, R361-R363). -/
inductive Reg where
  | qbase (q : Nat) | qsize (q : Nat) | qtail (q : Nat) | qhead (q : Nat) | qroot (q : Nat) | qctl (q : Nat)
  | rmmsgbase | rmmsgsize | rmmsgtail | rmmsghead | rmiv | rmfresp | rmshoot | ctxbase | ctxsize | prewait
  | sealctl | sealkey (k : Nat) | sealminv
  | clbwin (c : Nat) | clbpair (c : Nat) | clbmiss (c : Nat) | clbsplit (c : Nat) | clxlost (c : Nat)
  | clrstat (c : Nat)
  | l2quota (d : Nat) | dnrefuse (d : Nat) | dnmonovf (d : Nat) | dngrppart (d : Nat) | dnbcrecall (d : Nat)
  | dnecc (d : Nat)
  | bkgrant (d k : Nat) | bkwdog (d : Nat) | bkreset (d : Nat) | bkdupfix (d : Nat) | bkdupfail (d : Nat)
  | bkdirign (d : Nat) | cmtbase (d : Nat) | cmpmispred (d : Nat) | hpthresh (d : Nat) | hptpromo (d : Nat)
  | hptpinskip (d : Nat)
  | fxdevid | fxroot | fxtmo | fxport | fxbar (k : Nat) | fxretry | fxdrop | fxrefuse | fxfail
  | bootstat | attnonce (k : Nat) | attaddr | attctl | attstat
  | errcore (d : Nat) | errmat (d : Nat) | errmsc (d : Nat) | errhbm (d : Nat) | errpois (d : Nat)
  | erruse (d : Nat)
  | pwrlim | pwrnow | thrstat | thrcnt
  deriving DecidableEq, Repr

/-- A host access to device memory (R341): read `n` bytes, or write the bytes given. -/
inductive HostOp where
  | read (n : Nat)
  | write (data : List Byte)
  deriving DecidableEq, Repr

/-- A refusal of R239: the wait hint, and the die of the slice that refuses. -/
structure RefusalHint where
  clocks : Nat
  die : Nat
  deriving DecidableEq, Repr

/-- Where an error is found (R268, R289, R362): for an RDC and a TLB, the die it belongs to. -/
inductive ErrorSite where
  | homeL2 | rdc (die : Nat) | tlb (die : Nat) | monitor (slice : Nat) | core | matrix | memorySide | hbm | directory | stringLine | summary
  | counterLine
  deriving DecidableEq, Repr

/-- The 32 bytes of an atomic request (R349) as its fields; `reserved` holds TVA[63:56] and RVA[59:56]. -/
structure AtomicRequest where
  tva : BitVec 56
  opnd : DWord
  cmpd : DWord
  rva : BitVec 56
  opc : BitVec 4
  reserved : BitVec 12
  deriving DecidableEq, Repr

/-- What a received packet brings to an operation of this device (R348, R350), the transport's word that a packet of this
device reached its receiver, or why a packet is discarded (R355). -/
inductive Packet where
  | readReply (cid id off : Nat) (data : List Byte) (poison : List Bool)
  | writeAck (cid id off len : Nat)
  | atomicAck (cid id : Nat)
  | atomicReply (cid id : Nat) (old : BitVec 64)
  | refusal (cid id : Nat)
  | delivered (seq : Nat)
  | truncated
  | malformed
  | misaddressed (dev : Nat)
  deriving DecidableEq, Repr

/-- A firmware image (R356): the public key that it carries, its code, and its signature. -/
structure FirmwareImage where
  key : List Byte
  body : List Byte
  sig : List Byte
  deriving DecidableEq, Repr

/-- The causes of a cluster reset (R362), in the order of their codes 0x01 to 0x05. -/
inductive ResetCause where
  | hung | registerFile | accumulators | scratchpad | crossbarPort
  deriving DecidableEq, Repr

/-- What happens outside the model's reach during a start (R358): the unit step of the journal (in order) at which this
start fails or is struck by a reset, and the fabric ports that come up. -/
structure BootOutcome where
  strike : Option Nat
  ports : BitVec 18
  deriving DecidableEq, Repr

/-- The instructions and steps of the N9: one constructor per row of the opcode table, in its order;
the steps that the default schedule never takes stand last.
An instruction that has an encoding carries the fields of its base and extension words (R35, R41, R43);
a step that no word names carries what tells which unit acts. -/
inductive Instr where
  /-- R97: Writes a + b, wrapping modulo 2^32, in each active lane. -/
  | iadd (f : Fields)
  /-- R97: Writes a - b in each active lane. -/
  | isub (f : Fields)
  /-- R97: Writes the low 32 bits of a x b. -/
  | imul (f : Fields)
  /-- R97: Writes bits 63:32 of the signed product. -/
  | imulhi (f : Fields)
  /-- R97: Writes bits 63:32 of the unsigned product. -/
  | imulhu (f : Fields)
  /-- R98: Writes the low 32 bits of a x b + c. -/
  | imad (f : Fields)
  /-- R97: Writes the signed minimum of a and b. -/
  | imin (f : Fields)
  /-- R97: Writes the signed maximum of a and b. -/
  | imax (f : Fields)
  /-- R97: Writes the unsigned minimum of a and b. -/
  | iminu (f : Fields)
  /-- R97: Writes the unsigned maximum of a and b. -/
  | imaxu (f : Fields)
  /-- R97: Writes the absolute value of a. -/
  | iabs (f : Fields)
  /-- R97: Writes 0 - a. -/
  | ineg (f : Fields)
  /-- R97: Writes a AND b. -/
  | and (f : Fields)
  /-- R97: Writes a OR b. -/
  | or (f : Fields)
  /-- R97: Writes a XOR b. -/
  | xor (f : Fields)
  /-- R97: Writes a AND NOT b. -/
  | andn (f : Fields)
  /-- R97: Writes a shifted left by b[4:0]. -/
  | shl (f : Fields)
  /-- R97: Writes a shifted right logically by b[4:0]. -/
  | shr (f : Fields)
  /-- R97: Writes a shifted right arithmetically by b[4:0]. -/
  | sar (f : Fields)
  /-- R97: Writes a rotated left by b[4:0]. -/
  | rol (f : Fields)
  /-- R98: Extracts a sign-extended bit field. -/
  | bfxS (f : Fields)
  /-- R98: Extracts a zero-extended bit field. -/
  | bfxZ (f : Fields)
  /-- R98: Inserts a bit field into a base value. -/
  | bfi (f : Fields)
  /-- R97: Writes the number of ones in a. -/
  | popc (f : Fields)
  /-- R97: Writes the leading zero count of a. -/
  | clz (f : Fields)
  /-- R97: Writes the trailing zero count of a. -/
  | ctz (f : Fields)
  /-- R97: Writes a with its bits reversed. -/
  | brev (f : Fields)
  /-- R98: Gathers four bytes from a and b by selector c with fill modes. -/
  | gathb (f : Fields)
  /-- R98: Writes a + (b << shift). -/
  | lea (f : Fields)
  /-- R97: Writes a. -/
  | mov (f : Fields)
  /-- R98: Writes a if c is nonzero, else b. -/
  | sel (f : Fields)
  /-- R99: Adds two 64-bit register pairs. -/
  | iadd64 (f : Fields)
  /-- R99: Subtracts two 64-bit register pairs. -/
  | isub64 (f : Fields)
  /-- R99: Writes the low 64 bits of a x b + c on pairs. -/
  | imad64 (f : Fields)
  /-- R99: Shifts a pair left by b[5:0]. -/
  | shl64 (f : Fields)
  /-- R99: Shifts a pair right logically by b[5:0]. -/
  | shr64 (f : Fields)
  /-- R100: Writes a mask triple of lanes where a equals b. -/
  | icmpEq (f : Fields)
  /-- R100: Writes a mask triple of lanes where a differs from b. -/
  | icmpNe (f : Fields)
  /-- R100: Writes a mask triple of lanes where a < b signed. -/
  | icmpLt (f : Fields)
  /-- R100: Writes a mask triple of lanes where a <= b signed. -/
  | icmpLe (f : Fields)
  /-- R100: Writes a mask triple of lanes where a > b signed. -/
  | icmpGt (f : Fields)
  /-- R100: Writes a mask triple of lanes where a >= b signed. -/
  | icmpGe (f : Fields)
  /-- R100: Writes a mask triple of lanes where a < b unsigned. -/
  | icmpLtu (f : Fields)
  /-- R100: Writes a mask triple of lanes where a <= b unsigned. -/
  | icmpLeu (f : Fields)
  /-- R100: Writes a mask triple of lanes where a > b unsigned. -/
  | icmpGtu (f : Fields)
  /-- R100: Writes a mask triple of lanes where a >= b unsigned. -/
  | icmpGeu (f : Fields)
  /-- R101: Writes RNE32(a + b). -/
  | fadd (f : Fields)
  /-- R101: Writes RNE32(a - b). -/
  | fsub (f : Fields)
  /-- R101: Writes RNE32(a x b). -/
  | fmul (f : Fields)
  /-- R101: Writes RNE32(a x b + c) with one rounding. -/
  | ffma (f : Fields)
  /-- R102: Writes MINNUM(a, b). -/
  | fmin (f : Fields)
  /-- R102: Writes MAXNUM(a, b). -/
  | fmax (f : Fields)
  /-- R102: Writes a one-hot class of a. -/
  | fclass (f : Fields)
  /-- R102: Writes a with the sign of b. -/
  | fcpys (f : Fields)
  /-- R103: Writes a mask triple of lanes where a = b. -/
  | fcmpEq (f : Fields)
  /-- R103: Writes a mask triple of lanes where a differs from b or either is NaN. -/
  | fcmpNe (f : Fields)
  /-- R103: Writes a mask triple of lanes where a < b. -/
  | fcmpLt (f : Fields)
  /-- R103: Writes a mask triple of lanes where a <= b. -/
  | fcmpLe (f : Fields)
  /-- R103: Writes a mask triple of lanes where a > b. -/
  | fcmpGt (f : Fields)
  /-- R103: Writes a mask triple of lanes where a >= b. -/
  | fcmpGe (f : Fields)
  /-- R103: Writes a mask triple of lanes where either operand is NaN. -/
  | fcmpUno (f : Fields)
  /-- R103: Writes a mask triple of lanes where neither operand is NaN. -/
  | fcmpOrd (f : Fields)
  /-- R104: Rounds a to an integral value to nearest even. -/
  | frndRn (f : Fields)
  /-- R104: Rounds a to an integral value toward zero. -/
  | frndRz (f : Fields)
  /-- R104: Rounds a to an integral value toward minus infinity. -/
  | frndRd (f : Fields)
  /-- R104: Rounds a to an integral value toward plus infinity. -/
  | frndRu (f : Fields)
  /-- R105: Adds two packed BF16 element pairs. -/
  | p2addBf (f : Fields)
  /-- R105: Adds two packed FP16 element pairs. -/
  | p2addHf (f : Fields)
  /-- R105: Multiplies packed BF16 elements. -/
  | p2mulBf (f : Fields)
  /-- R105: Multiplies packed FP16 elements. -/
  | p2mulHf (f : Fields)
  /-- R105: Fused multiply-add on packed BF16 elements. -/
  | p2fmaBf (f : Fields)
  /-- R105: Fused multiply-add on packed FP16 elements. -/
  | p2fmaHf (f : Fields)
  /-- R105: MINNUM of packed BF16 elements. -/
  | p2minBf (f : Fields)
  /-- R105: MINNUM of packed FP16 elements. -/
  | p2minHf (f : Fields)
  /-- R105: MAXNUM of packed BF16 elements. -/
  | p2maxBf (f : Fields)
  /-- R105: MAXNUM of packed FP16 elements. -/
  | p2maxHf (f : Fields)
  /-- R106: Writes the correctly rounded reciprocal of a. -/
  | frcp (f : Fields)
  /-- R106: Writes the correctly rounded reciprocal square root of a. -/
  | frsq (f : Fields)
  /-- R106: Writes the correctly rounded square root of a. -/
  | fsqrt (f : Fields)
  /-- R106: Writes the correctly rounded 2^a. -/
  | fex2 (f : Fields)
  /-- R106: Writes the correctly rounded log2 a. -/
  | flg2 (f : Fields)
  /-- R106: Writes the correctly rounded sine of a. -/
  | fsin (f : Fields)
  /-- R106: Writes the correctly rounded cosine of a. -/
  | fcos (f : Fields)
  /-- R106: Writes the correctly rounded tanh of a. -/
  | ftanh (f : Fields)
  /-- R109: Converts one element from SF to TF. -/
  | cvt (f : Fields)
  /-- R110: Converts two values into adjacent packed elements, merging from C. -/
  | cvtpk (f : Fields)
  /-- R111: Converts element P of a packed container. -/
  | cvtunpk (f : Fields)
  /-- R112: Encodes or decodes FP8 with an FP32 scale. -/
  | cvtbs (f : Fields)
  /-- R113: Encodes or decodes each beat as one MX block. -/
  | cvtmx (f : Fields)
  /-- R114: Writes the MX shared scale of each beat. -/
  | sclx (f : Fields)
  /-- R120: Reads a from the lane to the left, lane 0 from the previous troupe's publication. -/
  | nbl (f : Fields)
  /-- R120: Reads a from the lane to the right, lane 95 from the next troupe's publication. -/
  | nbr (f : Fields)
  /-- R116: Each lane reads A from the member lane b[6:0], else the fill. -/
  | lgetAt (f : Fields)
  /-- R116: Each lane reads A from lane i XOR b[6:0]. -/
  | lgetFlip (f : Fields)
  /-- R116: Each lane reads A from lane (i + b) mod 96. -/
  | lgetRot (f : Fields)
  /-- R116: Each lane reads A from lane i plus a signed shift. -/
  | lgetSh (f : Fields)
  /-- R117: Writes the count of true votes to a scalar. -/
  | pollSome (f : Fields)
  /-- R117: Writes 1 if every member votes true. -/
  | pollEvery (f : Fields)
  /-- R117: Writes the vote of each lane to a mask triple. -/
  | pollMap (f : Fields)
  /-- R118: Reduces FP32 a over the troupe by TREE96 into a scalar. -/
  | redf (f : Fields)
  /-- R118: Reduces integer a over the troupe into a scalar. -/
  | redi (f : Fields)
  /-- R119: Writes the inclusive FP32 prefix sum by a fixed tree. -/
  | pfxfAdd (f : Fields)
  /-- R119: Writes the inclusive integer prefix sum. -/
  | pfxiAdd (f : Fields)
  /-- R231: Swaps register values with a partner troupe named by wid. -/
  | xchg (f : Fields)
  /-- R185: Regroups lanes of the company's troupes so active lanes are packed first. -/
  | rgrp (f : Fields)
  /-- R162: Loads from global memory through L1 per lane. -/
  | ldG (f : Fields)
  /-- R162: Stores to global memory, writing through to home. -/
  | stG (f : Fields)
  /-- R162: Loads from scratchpad, waiting while the line is empty. -/
  | ldSp (f : Fields)
  /-- R162: Stores to scratchpad leaving the full/empty bit. -/
  | stSp (f : Fields)
  /-- R146: Loads from scratchpad and sets each line empty. -/
  | ldSpE (f : Fields)
  /-- R146: Stores to scratchpad and sets each line full. -/
  | stSpF (f : Fields)
  /-- R148: Loads through the read-only cache. -/
  | ldro (f : Fields)
  /-- R264: Issues a group reduction load over member cores' scratchpads. -/
  | ldgr (f : Fields)
  /-- R172: Issues an atomic on global memory per lane. -/
  | atom (f : Fields)
  /-- R172: Performs an atomic on scratchpad per lane. -/
  | atomSp (f : Fields)
  /-- R252: Decrements a bounded counter by n, from the local allowance or by asking home. -/
  | bcdec (f : Fields)
  /-- R253: Adds n to the local allowance or to the home reserve. -/
  | bcinc (f : Fields)
  /-- R254: Recalls all allowances and returns the exact count. -/
  | bcread (f : Fields)
  /-- R277: Queries the number of ones up to a position. -/
  | rank1 (f : Fields)
  /-- R277: Queries the number of zeros up to a position. -/
  | rank0 (f : Fields)
  /-- R277: Queries the position of the j-th one. -/
  | sel1 (f : Fields)
  /-- R277: Queries the position of the j-th zero. -/
  | sel0 (f : Fields)
  /-- R277: Queries the matching close bracket. -/
  | fclose (f : Fields)
  /-- R277: Queries the matching open bracket. -/
  | fopen (f : Fields)
  /-- R277: Queries the enclosing open bracket. -/
  | encl (f : Fields)
  /-- R286: Inserts n bits into a succinct string at the memory side. -/
  | bsins (f : Fields)
  /-- R286: Deletes n bits from a succinct string at the memory side. -/
  | bsdel (f : Fields)
  /-- R123: Scalar a + b. -/
  | sadd (f : Fields)
  /-- R123: Scalar a - b. -/
  | ssub (f : Fields)
  /-- R123: Scalar low product. -/
  | smul (f : Fields)
  /-- R123: Scalar high signed product. -/
  | smulhi (f : Fields)
  /-- R123: Scalar a x b + c. -/
  | smad (f : Fields)
  /-- R123: Scalar signed minimum. -/
  | smin (f : Fields)
  /-- R123: Scalar signed maximum. -/
  | smax (f : Fields)
  /-- R123: Scalar AND. -/
  | sand (f : Fields)
  /-- R123: Scalar OR. -/
  | sor (f : Fields)
  /-- R123: Scalar XOR. -/
  | sxor (f : Fields)
  /-- R123: Scalar AND NOT. -/
  | sandn (f : Fields)
  /-- R123: Scalar shift left. -/
  | sshl (f : Fields)
  /-- R123: Scalar logical shift right. -/
  | sshr (f : Fields)
  /-- R123: Scalar arithmetic shift right. -/
  | ssar (f : Fields)
  /-- R123: Scalar zero-extended bit-field extract. -/
  | sbfx (f : Fields)
  /-- R123: Scalar bit-field insert. -/
  | sbfi (f : Fields)
  /-- R123: Scalar population count. -/
  | spopc (f : Fields)
  /-- R123: Index of the least significant one. -/
  | sffs (f : Fields)
  /-- R123: Scalar select on c. -/
  | ssel (f : Fields)
  /-- R123: Scalar move. -/
  | smov (f : Fields)
  /-- R123: Scalar 64-bit pair add. -/
  | sadd64 (f : Fields)
  /-- R123: Scalar a + (b << shift). -/
  | slea (f : Fields)
  /-- R124: Reads one lane's register into a scalar. -/
  | lanerd (f : Fields)
  /-- R124: Writes a scalar into one lane's register. -/
  | lanewr (f : Fields)
  /-- R123: Scalar compare equal. -/
  | scmpEq (f : Fields)
  /-- R123: Scalar compare not equal. -/
  | scmpNe (f : Fields)
  /-- R123: Scalar signed less than. -/
  | scmpLt (f : Fields)
  /-- R123: Scalar signed less or equal. -/
  | scmpLe (f : Fields)
  /-- R123: Scalar signed greater than. -/
  | scmpGt (f : Fields)
  /-- R123: Scalar signed greater or equal. -/
  | scmpGe (f : Fields)
  /-- R123: Scalar unsigned less than. -/
  | scmpLtu (f : Fields)
  /-- R123: Scalar unsigned less or equal. -/
  | scmpLeu (f : Fields)
  /-- R123: Scalar unsigned greater than. -/
  | scmpGtu (f : Fields)
  /-- R123: Scalar unsigned greater or equal. -/
  | scmpGeu (f : Fields)
  /-- R125: Branches the whole troupe to a target. -/
  | bra (f : Fields)
  /-- R125: Branches when s(A) is zero. -/
  | brcZ (f : Fields)
  /-- R125: Branches when s(A) is nonzero. -/
  | brcNz (f : Fields)
  /-- R84: Divides active lanes between taken and not-taken paths and pushes a reconvergence entry. -/
  | brd (f : Fields)
  /-- R127: Branches through a target table by a scalar index. -/
  | brx (f : Fields)
  /-- R128: Branches lanes through a target table by per-lane index, pushing entries per group. -/
  | brxL (f : Fields)
  /-- R129: Writes the return address and branches. -/
  | call (f : Fields)
  /-- R129: Returns to the address in a pair, or from the trap handler. -/
  | ret (f : Fields)
  /-- R168: Parks until each wait count is at or below its limit. -/
  | wait (f : Fields)
  /-- R176: Parks until a timeline counter reaches n, then acquires. -/
  | waittl (f : Fields)
  /-- R178: Increments timeline counter 6 or 7 as a company-scope release. -/
  | tlinc (f : Fields)
  /-- R179: Gives up the issue turn and parks for a yield. -/
  | yield (f : Fields)
  /-- R180: Parks until a timeline or full-line condition, resuming at a continuation. -/
  | yieldc (f : Fields)
  /-- R183: Sets a named barrier's expected count. -/
  | bari (f : Fields)
  /-- R184: Arrives at a named barrier without waiting. -/
  | bara (f : Fields)
  /-- R184: Arrives at a named barrier and parks until it completes. -/
  | barw (f : Fields)
  /-- R184: Waits for the phase of its own arrival to complete, then acquires. -/
  | baro (f : Fields)
  /-- R173: Orders earlier and later accesses at a scope, optionally waiting for stores at home. -/
  | fence (f : Fields)
  /-- R174: Invalidates the core's read-only cache. -/
  | roinv (f : Fields)
  /-- R258: Parks on a memory condition monitored at the home L2 slice. -/
  | waitm (f : Fields)
  /-- R336: Arrives at a grid barrier of an all-resident launch and parks. -/
  | gbar (f : Fields)
  /-- R181: Exits lanes or retires the troupe. -/
  | tail (f : Fields)
  /-- R261: Writes a group descriptor slot of the company. -/
  | setgrp (f : Fields)
  /-- R214: Writes the troupe's gang register. -/
  | gang (f : Fields)
  /-- R206: Issues a matrix multiply-accumulate into an accumulator tile. -/
  | mma (f : Fields)
  /-- R219: Sets an accumulator tile to zero in acceptance order. -/
  | mzero (f : Fields)
  /-- R220: Issues a drain of a tile to memory with quantisation. -/
  | mdrain (f : Fields)
  /-- R201: Drops the record-cache and tile-cache entries of a handle on the core. -/
  | thflush (f : Fields)
  /-- R187: Issues a byte copy on the copy engine. -/
  | cpy (f : Fields)
  /-- R189: Issues a layout-record tile copy through the transform pipe. -/
  | cpyl (f : Fields)
  /-- R309: Issues a load of microprogram entries into bank sequencer stores. -/
  | bkload (f : Fields)
  /-- R311: Issues a bank command over a footprint of rows. -/
  | bkcmd (f : Fields)
  /-- R316: Issues a predicate or top-k scan to the scan engines. -/
  | scanq (f : Fields)
  /-- R319: Issues write-down of dirty lines of a range to the memory-side cache. -/
  | cleanr (f : Fields)
  /-- R319: Issues clean and invalidate of a range above the memory-side cache. -/
  | invr (f : Fields)
  /-- R319: Issues flush of a range to memory. -/
  | flushr (f : Fields)
  /-- R250: Initialises a bounded counter line and optionally spreads allowances. -/
  | bcinit (f : Fields)
  /-- R131: Writes the format register. -/
  | setfmt (f : Fields)
  /-- R131: Reads the format register into a scalar. -/
  | getfmt (f : Fields)
  /-- R132: Reads a special register. -/
  | srd (f : Fields)
  /-- R132: Writes a special register. -/
  | swr (f : Fields)
  /-- R133: Enters the trap handler with a user code. -/
  | trap (f : Fields)
  /-- R133: Enters the trap handler with code 0xFFFF. -/
  | bkpt (f : Fields)
  /-- R73: Has no effect but the latch count. -/
  | nop (f : Fields)
  /-- R72: a base word whose opcode no map cell assigns; one word long. -/
  | unassignedOpcode (w : Word)
  /-- R137: a quarter chooses among its ready troupes. -/
  | actSelect (core quarter : Nat)
  /-- R162: data of a load (of one lane, or of every lane left) returns; for a group load, the member core named is read early (R267). -/
  | loadReturn (uid id : Nat) (lane : Option Nat)
  /-- R162: a store (one lane, or every lane left) is performed. -/
  | storePerform (uid id : Nat) (lane : Option Nat)
  /-- R172, R251: an atomic or counter operation (one lane, or every lane left) is performed. -/
  | atomicPerform (uid id : Nat) (lane : Option Nat)
  /-- R180: a troupe parked by YIELDC resumes at its continuation. -/
  | yieldcResume (uid : Nat)
  /-- R121: the neighbour value for exchange number n arrives. -/
  | edgeValueArrival (uid n : Nat)
  /-- R150: the tracker entry of a retired troupe is released. -/
  | trackerRelease (core uid : Nat)
  /-- R151: a company whose troupes have retired and whose engine work has drained retires. -/
  | companyRetire (cid : Nat)
  /-- R175: the oldest finished operations of a timeline counter complete. -/
  | engineComplete (cid tl : Nat)
  /-- R187: bytes start to start + len - 1 of a copy are copied. -/
  | copyTransfer (cid id start len : Nat)
  /-- R190: destination elements (by linear index) of a CPYL are converted and written. -/
  | transformTransfer (cid id start len : Nat)
  /-- R208: the next band of an accepted MMA is computed and committed. -/
  | mmaExecute (cid id : Nat)
  /-- R217: a parked operation restarts at its committed band. -/
  | operandFetchResume (cid id : Nat)
  /-- R221: up to `rows` further rows of a drain are written. -/
  | mdrainExecute (cid id rows : Nat)
  /-- R219: the tile is set to zero in its place in the acceptance order. -/
  | mzeroExecute (cid id : Nat)
  /-- R228: a .bcast MMA arrives at the bus. -/
  | busOffer (cid id : Nat)
  /-- R228: an offer pending for CLBWIN clocks proceeds alone. -/
  | busWindowExpiry (core : Nat)
  /-- R229: a park dissolves the cluster's pair. -/
  | busPairSplit (cluster : Nat)
  /-- R239: the core sends a refused request again. -/
  | requestResend (uid id : Nat)
  /-- R242: an invalidation reaches a sharer die and is acknowledged. -/
  | rdcInvalidation (die line : Nat)
  /-- R252: home handles the miss request of a lane's BCDEC. -/
  | bcMissRequest (uid id lane : Nat)
  /-- R264: a group load's members are reduced and written. -/
  | groupLoadComplete (uid id : Nat)
  /-- R280: the memory side answers a query (one lane, or every lane left). -/
  | queryPerform (uid id : Nat) (lane : Option Nat)
  /-- R288: the next step of an edit is performed. -/
  | editPerform (uid id : Nat)
  /-- R309: the entries are read, checked and written to the named stores. -/
  | bkloadExecute (cid id : Nat)
  /-- R312: the command at the head of a sequencer's queue runs. -/
  | bankCommandRun (die stack pc : Nat)
  /-- R317: the scan engines produce the result of a SCANQ. -/
  | scanRun (cid id : Nat)
  /-- R319: a maintenance operation acts on one line of its range. -/
  | maintenanceRun (cid id line : Nat)
  /-- R322: the fault unit moves the page of a capacity-tier fault. -/
  | pageMigration (token die : Nat)
  /-- R368: the entry at the head of a queue is checked. -/
  | entryCheck (q : Nat)
  /-- R331: the dependence words of a queue's candidate are read. -/
  | dependencePoll (q : Nat)
  /-- R335: an all-resident launch is placed whole; company Q goes to the Q-th core named. -/
  | allResidentPlace (lid : Nat) (cores : List Nat)
  /-- R141: a core admits the company its cluster distributor offers it. -/
  | companyAdmit (core lid : Nat)
  /-- R156: a company under a pre-emption request is drained and saved. -/
  | preemptCompany (cid : Nat)
  /-- R158: a saved company is restored on a core. -/
  | companyResume (cid core : Nat)
  /-- R332: a launch with nothing outstanding is reported. -/
  | launchComplete (lid : Nat)
  /-- R336: the Ringmaster counts a grid barrier arrival. -/
  | gbarArrival (uid : Nat)
  /-- R327: a held register write takes effect. -/
  | heldWriteApply (r : Reg)
  /-- R130: the current troupe fetched at a page without execute permission. -/
  | instructionFetchFault
  /-- R146: troupes parked on a line that is now full are released. -/
  | emptyLineFill (cid line : Nat)
  /-- R147: a troupe parked 2^24 clocks on an empty line traps. -/
  | emptyTimeout (uid : Nat)
  /-- R217: the fetch for the next band meets a page to repair or migrate and parks the operation. -/
  | operandFetchPark (cid id : Nat)
  /-- R239: a slice refuses a request with a wait hint. -/
  | requestRefusal (uid id : Nat) (hint : RefusalHint)
  /-- R244: home recalls the ownership of a line. -/
  | ownershipRecall (line : Nat)
  /-- R241: a fill of the line of pa with class cls evicts its victim. -/
  | l2Eviction (pa cls : Nat)
  /-- R282: the repair engine repairs a stale block entry. -/
  | backgroundRepair (die region block : Nat)
  /-- R288: an edit of the region is interrupted at a step boundary. -/
  | editInterrupt (die region : Nat)
  /-- R314: the watchdog aborts the command at the head of a sequencer's queue. -/
  | bankWatchdog (die stack pc : Nat)
  /-- R322: a page is moved to a capacity-tier frame. -/
  | pageDemotion (root va frame : Nat)
  /-- R323: the die's tracker takes its next candidate. -/
  | hotPagePromotion (die : Nat)
  /-- R331: the highest-priority eligible head is taken. -/
  | launchStart
  /-- R334: a dry distributor steals unbegun units. -/
  | rangeStealing (cluster : Nat)
  /-- R337: a launch that has waited PREWAIT clocks causes the pre-emption of a victim. -/
  | prewaitExpiry (lid cid : Nat)
  /-- R339: the oldest waiting message is written to the ring. -/
  | messageWrite
  /-- R330: the host writes QTAILq. -/
  | qtailWrite (q : Nat) (v : DWord)
  /-- R332: QCTLq ABORT. -/
  | abort (q : Nat)
  /-- R337: QCTLq PREEMPT. -/
  | preempt (q : Nat)
  /-- R340: the host answers a translation fault. -/
  | rmfrespWrite (v : DWord)
  /-- R340: the host requests a shoot-down. -/
  | rmshootWrite (v : DWord)
  /-- R339: the host consumes messages. -/
  | rmmsgheadWrite (v : DWord)
  /-- R339: the host sets the size of the message ring. -/
  | rmmsgsizeWrite (v : DWord)
  /-- R361: the host requests an attestation report. -/
  | attctlWrite (v : DWord)
  /-- R226: the host writes any other register of the window. -/
  | registerWrite (r : Reg) (v : DWord)
  /-- R341: a host access to device memory is performed. -/
  | hostAccess (pa : Nat) (op : HostOp)
  /-- R235: the Ringmaster resets a cluster. -/
  | clusterReset (cluster : Nat) (cause : ResetCause)
  /-- R298: a faulty strait is retired. -/
  | straitRetirement (edge : Nat)
  /-- R268, R362: a correctable error is corrected and counted. -/
  | correctedError (die : Nat) (site : ErrorSite)
  /-- R268, R289: an uncorrectable error meets the line of pa. -/
  | uncorrectableError (pa : Nat) (site : ErrorSite)
  /-- R363: a 1 ms power average and temperature are measured. -/
  | powerThrottle (watts celsius : Nat) (hot : Bool)
  /-- R348: a peer's copy write arrives. -/
  | remoteWriteArrival (src tag va : Nat) (data : List Byte) (poison : List Bool)
  /-- R350: a peer's atomic request arrives. -/
  | remoteAtomicRequest (src tag : Nat) (req : AtomicRequest)
  /-- R348: a remote operation could not be delivered within FXTMO. -/
  | fabricTimeout (cid id : Nat)
  /-- R353: the root counts a device's arrival. -/
  | fabricBarrierArrival (src k phase n : Nat)
  /-- R353: a release frees the parked troupes. -/
  | fabricBarrierRelease (k phase : Nat)
  /-- R354: an undelivered barrier message is sent again. -/
  | fabricResend (seq : Nat)
  /-- R355: a packet is delivered once, or discarded. -/
  | packetReceive (seq : Nat) (p : Packet)
  /-- R355: a fabric port goes down. -/
  | portDown (port : Nat)
  /-- R358: the package starts from the boot ROM. -/
  | packageReset (o : BootOutcome)
  /-- R347: a peer's read request arrives. -/
  | remoteReadRequest (src tag va len : Nat)
  /-- R346: a fabric port comes up. -/
  | portUp (port : Nat)
  /-- R361: the signed report is visible. -/
  | attestationReportWritten
  /-- R359: new firmware is installed and the boot journal cleared. -/
  | firmwareUpdate (slot : Bool) (image : FirmwareImage)
  /-- R340: a shoot-down completes. -/
  | shootDownDone (token : Nat)
  deriving DecidableEq, Repr

end Sys2Proof
end

