-- ==== Sys2Proof/Decode.lean ====
section
/-!
DEFINITION. Decoding and encoding of instruction words (02 R35, R41-R43, R68, R70, R72), and the byte order of
words (R35). Every word decodes: an opcode that no map cell assigns gives `unassignedOpcode` (R72), and a value
that an instruction's description does not list stays in its fields, where the instruction's own checks trap on
it (R47, R73). Decoding is refused by name only when the bytes run out.
-/
namespace Sys2Proof

/-- Why a decoder refuses its input: the base word or the extension word is not all there. -/
inductive DecodeError where
  | noBaseWord
  | noExtensionWord
  deriving DecidableEq, Repr

/-- The long opcodes of the lane map (R68, cells marked *). -/
def laneLong (op : Nat) : Bool :=
    op == 0x05 || op == 0x14 || op == 0x15 || op == 0x16 || op == 0x1B || op == 0x1C || op == 0x1E ||
    op == 0x22 || op == 0x43 || op == 0x5C || op == 0x5D || op == 0x80 || op == 0x81 || op == 0x82 ||
    op == 0x83 || op == 0x84 || op == 0xA2 || op == 0xA3 || op == 0xA4 || op == 0xA5 || op == 0xA6 ||
    op == 0xA7 || op == 0xA8 || op == 0xA9 || op == 0xAA || op == 0xAD || op == 0xC0 || op == 0xC1 ||
    op == 0xC2 || op == 0xC3 || op == 0xC4 || op == 0xC5 || op == 0xC6 || op == 0xC7 || op == 0xC8 ||
    op == 0xC9 || op == 0xCA || op == 0xCB || op == 0xCC || op == 0xD0 || op == 0xD1 || op == 0xD2 ||
    op == 0xD3 || op == 0xD4 || op == 0xD5 || op == 0xD6 || op == 0xD7 || op == 0xD8

/-- The long opcodes of the uniform map (R70, cells marked *). -/
def uniformLong (op : Nat) : Bool :=
    op == 0x04 || op == 0x0E || op == 0x0F || op == 0x12 || op == 0x15 || op == 0x16 || op == 0x17 ||
    op == 0x40 || op == 0x41 || op == 0x42 || op == 0x43 || op == 0x44 || op == 0x45 || op == 0x46 ||
    op == 0x64 || op == 0x69 || op == 0x6B || op == 0x6E || op == 0x6F || op == 0x80 || op == 0x82 ||
    op == 0xA0 || op == 0xA1 || op == 0xA2 || op == 0xA3 || op == 0xA4 || op == 0xA5 || op == 0xA6 ||
    op == 0xA7 || op == 0xA8 || op == 0xC2 || op == 0xC3

/-- Which extension form follows a base word (R41). A short opcode that carries both 120 and 121 traps, and is
two words long all the same; its second word is taken as X2. -/
inductive ExtForm where
  | none
  | x1
  | x2
  deriving DecidableEq, Repr

/-- The extension form by the source codes used (R41). A short opcode with both 120 and 121, which traps, is read as X2.
[log 135] -/
def extForm (long : Bool) (a b : BitVec 7) : ExtForm :=
  if long then .x2
  else if a == 120 || b == 120 then .x2
  else if a == 121 || b == 121 then .x1
  else .none

/-- The lane-set opcode map (R68). -/
def laneInstr (op : Nat) (f : Fields) : Option Instr :=
  match op with
  | 0x00 => some (.iadd f)
  | 0x01 => some (.isub f)
  | 0x02 => some (.imul f)
  | 0x03 => some (.imulhi f)
  | 0x04 => some (.imulhu f)
  | 0x05 => some (.imad f)
  | 0x06 => some (.imin f)
  | 0x07 => some (.imax f)
  | 0x08 => some (.iminu f)
  | 0x09 => some (.imaxu f)
  | 0x0A => some (.iabs f)
  | 0x0B => some (.ineg f)
  | 0x0C => some (.and f)
  | 0x0D => some (.or f)
  | 0x0E => some (.xor f)
  | 0x0F => some (.andn f)
  | 0x10 => some (.shl f)
  | 0x11 => some (.shr f)
  | 0x12 => some (.sar f)
  | 0x13 => some (.rol f)
  | 0x14 => some (.bfxS f)
  | 0x15 => some (.bfxZ f)
  | 0x16 => some (.bfi f)
  | 0x17 => some (.popc f)
  | 0x18 => some (.clz f)
  | 0x19 => some (.ctz f)
  | 0x1A => some (.brev f)
  | 0x1B => some (.gathb f)
  | 0x1C => some (.lea f)
  | 0x1D => some (.mov f)
  | 0x1E => some (.sel f)
  | 0x20 => some (.iadd64 f)
  | 0x21 => some (.isub64 f)
  | 0x22 => some (.imad64 f)
  | 0x23 => some (.shl64 f)
  | 0x24 => some (.shr64 f)
  | 0x28 => some (.icmpEq f)
  | 0x29 => some (.icmpNe f)
  | 0x2A => some (.icmpLt f)
  | 0x2B => some (.icmpLe f)
  | 0x2C => some (.icmpGt f)
  | 0x2D => some (.icmpGe f)
  | 0x2E => some (.icmpLtu f)
  | 0x2F => some (.icmpLeu f)
  | 0x30 => some (.icmpGtu f)
  | 0x31 => some (.icmpGeu f)
  | 0x40 => some (.fadd f)
  | 0x41 => some (.fsub f)
  | 0x42 => some (.fmul f)
  | 0x43 => some (.ffma f)
  | 0x44 => some (.fmin f)
  | 0x45 => some (.fmax f)
  | 0x46 => some (.fclass f)
  | 0x47 => some (.fcpys f)
  | 0x48 => some (.fcmpEq f)
  | 0x49 => some (.fcmpNe f)
  | 0x4A => some (.fcmpLt f)
  | 0x4B => some (.fcmpLe f)
  | 0x4C => some (.fcmpGt f)
  | 0x4D => some (.fcmpGe f)
  | 0x4E => some (.fcmpUno f)
  | 0x4F => some (.fcmpOrd f)
  | 0x50 => some (.frndRn f)
  | 0x51 => some (.frndRz f)
  | 0x52 => some (.frndRd f)
  | 0x53 => some (.frndRu f)
  | 0x58 => some (.p2addBf f)
  | 0x59 => some (.p2addHf f)
  | 0x5A => some (.p2mulBf f)
  | 0x5B => some (.p2mulHf f)
  | 0x5C => some (.p2fmaBf f)
  | 0x5D => some (.p2fmaHf f)
  | 0x5E => some (.p2minBf f)
  | 0x5F => some (.p2minHf f)
  | 0x60 => some (.p2maxBf f)
  | 0x61 => some (.p2maxHf f)
  | 0x68 => some (.frcp f)
  | 0x69 => some (.frsq f)
  | 0x6A => some (.fsqrt f)
  | 0x6B => some (.fex2 f)
  | 0x6C => some (.flg2 f)
  | 0x6D => some (.fsin f)
  | 0x6E => some (.fcos f)
  | 0x6F => some (.ftanh f)
  | 0x80 => some (.cvt f)
  | 0x81 => some (.cvtpk f)
  | 0x82 => some (.cvtunpk f)
  | 0x83 => some (.cvtbs f)
  | 0x84 => some (.cvtmx f)
  | 0x85 => some (.sclx f)
  | 0xA0 => some (.nbl f)
  | 0xA1 => some (.nbr f)
  | 0xA2 => some (.lgetAt f)
  | 0xA3 => some (.lgetFlip f)
  | 0xA4 => some (.lgetRot f)
  | 0xA5 => some (.lgetSh f)
  | 0xA6 => some (.pollSome f)
  | 0xA7 => some (.pollEvery f)
  | 0xA8 => some (.pollMap f)
  | 0xA9 => some (.redf f)
  | 0xAA => some (.redi f)
  | 0xAB => some (.pfxfAdd f)
  | 0xAC => some (.pfxiAdd f)
  | 0xAD => some (.xchg f)
  | 0xAE => some (.rgrp f)
  | 0xC0 => some (.ldG f)
  | 0xC1 => some (.stG f)
  | 0xC2 => some (.ldSp f)
  | 0xC3 => some (.stSp f)
  | 0xC4 => some (.ldSpE f)
  | 0xC5 => some (.stSpF f)
  | 0xC6 => some (.ldro f)
  | 0xC7 => some (.ldgr f)
  | 0xC8 => some (.atom f)
  | 0xC9 => some (.atomSp f)
  | 0xCA => some (.bcdec f)
  | 0xCB => some (.bcinc f)
  | 0xCC => some (.bcread f)
  | 0xD0 => some (.rank1 f)
  | 0xD1 => some (.rank0 f)
  | 0xD2 => some (.sel1 f)
  | 0xD3 => some (.sel0 f)
  | 0xD4 => some (.fclose f)
  | 0xD5 => some (.fopen f)
  | 0xD6 => some (.encl f)
  | 0xD7 => some (.bsins f)
  | 0xD8 => some (.bsdel f)
  | _ => none

/-- The uniform-set opcode map (R70). -/
def uniformInstr (op : Nat) (f : Fields) : Option Instr :=
  match op with
  | 0x00 => some (.sadd f)
  | 0x01 => some (.ssub f)
  | 0x02 => some (.smul f)
  | 0x03 => some (.smulhi f)
  | 0x04 => some (.smad f)
  | 0x05 => some (.smin f)
  | 0x06 => some (.smax f)
  | 0x07 => some (.sand f)
  | 0x08 => some (.sor f)
  | 0x09 => some (.sxor f)
  | 0x0A => some (.sandn f)
  | 0x0B => some (.sshl f)
  | 0x0C => some (.sshr f)
  | 0x0D => some (.ssar f)
  | 0x0E => some (.sbfx f)
  | 0x0F => some (.sbfi f)
  | 0x10 => some (.spopc f)
  | 0x11 => some (.sffs f)
  | 0x12 => some (.ssel f)
  | 0x13 => some (.smov f)
  | 0x14 => some (.sadd64 f)
  | 0x15 => some (.slea f)
  | 0x16 => some (.lanerd f)
  | 0x17 => some (.lanewr f)
  | 0x20 => some (.scmpEq f)
  | 0x21 => some (.scmpNe f)
  | 0x22 => some (.scmpLt f)
  | 0x23 => some (.scmpLe f)
  | 0x24 => some (.scmpGt f)
  | 0x25 => some (.scmpGe f)
  | 0x26 => some (.scmpLtu f)
  | 0x27 => some (.scmpLeu f)
  | 0x28 => some (.scmpGtu f)
  | 0x29 => some (.scmpGeu f)
  | 0x40 => some (.bra f)
  | 0x41 => some (.brcZ f)
  | 0x42 => some (.brcNz f)
  | 0x43 => some (.brd f)
  | 0x44 => some (.brx f)
  | 0x45 => some (.brxL f)
  | 0x46 => some (.call f)
  | 0x47 => some (.ret f)
  | 0x60 => some (.wait f)
  | 0x61 => some (.waittl f)
  | 0x62 => some (.tlinc f)
  | 0x63 => some (.yield f)
  | 0x64 => some (.yieldc f)
  | 0x65 => some (.bari f)
  | 0x66 => some (.bara f)
  | 0x67 => some (.barw f)
  | 0x68 => some (.baro f)
  | 0x69 => some (.fence f)
  | 0x6A => some (.roinv f)
  | 0x6B => some (.waitm f)
  | 0x6C => some (.gbar f)
  | 0x6D => some (.tail f)
  | 0x6E => some (.setgrp f)
  | 0x6F => some (.gang f)
  | 0x80 => some (.mma f)
  | 0x81 => some (.mzero f)
  | 0x82 => some (.mdrain f)
  | 0x83 => some (.thflush f)
  | 0xA0 => some (.cpy f)
  | 0xA1 => some (.cpyl f)
  | 0xA2 => some (.bkload f)
  | 0xA3 => some (.bkcmd f)
  | 0xA4 => some (.scanq f)
  | 0xA5 => some (.cleanr f)
  | 0xA6 => some (.invr f)
  | 0xA7 => some (.flushr f)
  | 0xA8 => some (.bcinit f)
  | 0xC0 => some (.setfmt f)
  | 0xC1 => some (.getfmt f)
  | 0xC2 => some (.srd f)
  | 0xC3 => some (.swr f)
  | 0xC4 => some (.trap f)
  | 0xC5 => some (.bkpt f)
  | 0xC6 => some (.nop f)
  | _ => none

/-- Set (true: uniform), opcode and fields of an instruction that has an encoding. -/
def Instr.code (i : Instr) : Option (Bool × Nat × Fields) :=
  match i with
  | .iadd f => some (false, 0x00, f)
  | .isub f => some (false, 0x01, f)
  | .imul f => some (false, 0x02, f)
  | .imulhi f => some (false, 0x03, f)
  | .imulhu f => some (false, 0x04, f)
  | .imad f => some (false, 0x05, f)
  | .imin f => some (false, 0x06, f)
  | .imax f => some (false, 0x07, f)
  | .iminu f => some (false, 0x08, f)
  | .imaxu f => some (false, 0x09, f)
  | .iabs f => some (false, 0x0A, f)
  | .ineg f => some (false, 0x0B, f)
  | .and f => some (false, 0x0C, f)
  | .or f => some (false, 0x0D, f)
  | .xor f => some (false, 0x0E, f)
  | .andn f => some (false, 0x0F, f)
  | .shl f => some (false, 0x10, f)
  | .shr f => some (false, 0x11, f)
  | .sar f => some (false, 0x12, f)
  | .rol f => some (false, 0x13, f)
  | .bfxS f => some (false, 0x14, f)
  | .bfxZ f => some (false, 0x15, f)
  | .bfi f => some (false, 0x16, f)
  | .popc f => some (false, 0x17, f)
  | .clz f => some (false, 0x18, f)
  | .ctz f => some (false, 0x19, f)
  | .brev f => some (false, 0x1A, f)
  | .gathb f => some (false, 0x1B, f)
  | .lea f => some (false, 0x1C, f)
  | .mov f => some (false, 0x1D, f)
  | .sel f => some (false, 0x1E, f)
  | .iadd64 f => some (false, 0x20, f)
  | .isub64 f => some (false, 0x21, f)
  | .imad64 f => some (false, 0x22, f)
  | .shl64 f => some (false, 0x23, f)
  | .shr64 f => some (false, 0x24, f)
  | .icmpEq f => some (false, 0x28, f)
  | .icmpNe f => some (false, 0x29, f)
  | .icmpLt f => some (false, 0x2A, f)
  | .icmpLe f => some (false, 0x2B, f)
  | .icmpGt f => some (false, 0x2C, f)
  | .icmpGe f => some (false, 0x2D, f)
  | .icmpLtu f => some (false, 0x2E, f)
  | .icmpLeu f => some (false, 0x2F, f)
  | .icmpGtu f => some (false, 0x30, f)
  | .icmpGeu f => some (false, 0x31, f)
  | .fadd f => some (false, 0x40, f)
  | .fsub f => some (false, 0x41, f)
  | .fmul f => some (false, 0x42, f)
  | .ffma f => some (false, 0x43, f)
  | .fmin f => some (false, 0x44, f)
  | .fmax f => some (false, 0x45, f)
  | .fclass f => some (false, 0x46, f)
  | .fcpys f => some (false, 0x47, f)
  | .fcmpEq f => some (false, 0x48, f)
  | .fcmpNe f => some (false, 0x49, f)
  | .fcmpLt f => some (false, 0x4A, f)
  | .fcmpLe f => some (false, 0x4B, f)
  | .fcmpGt f => some (false, 0x4C, f)
  | .fcmpGe f => some (false, 0x4D, f)
  | .fcmpUno f => some (false, 0x4E, f)
  | .fcmpOrd f => some (false, 0x4F, f)
  | .frndRn f => some (false, 0x50, f)
  | .frndRz f => some (false, 0x51, f)
  | .frndRd f => some (false, 0x52, f)
  | .frndRu f => some (false, 0x53, f)
  | .p2addBf f => some (false, 0x58, f)
  | .p2addHf f => some (false, 0x59, f)
  | .p2mulBf f => some (false, 0x5A, f)
  | .p2mulHf f => some (false, 0x5B, f)
  | .p2fmaBf f => some (false, 0x5C, f)
  | .p2fmaHf f => some (false, 0x5D, f)
  | .p2minBf f => some (false, 0x5E, f)
  | .p2minHf f => some (false, 0x5F, f)
  | .p2maxBf f => some (false, 0x60, f)
  | .p2maxHf f => some (false, 0x61, f)
  | .frcp f => some (false, 0x68, f)
  | .frsq f => some (false, 0x69, f)
  | .fsqrt f => some (false, 0x6A, f)
  | .fex2 f => some (false, 0x6B, f)
  | .flg2 f => some (false, 0x6C, f)
  | .fsin f => some (false, 0x6D, f)
  | .fcos f => some (false, 0x6E, f)
  | .ftanh f => some (false, 0x6F, f)
  | .cvt f => some (false, 0x80, f)
  | .cvtpk f => some (false, 0x81, f)
  | .cvtunpk f => some (false, 0x82, f)
  | .cvtbs f => some (false, 0x83, f)
  | .cvtmx f => some (false, 0x84, f)
  | .sclx f => some (false, 0x85, f)
  | .nbl f => some (false, 0xA0, f)
  | .nbr f => some (false, 0xA1, f)
  | .lgetAt f => some (false, 0xA2, f)
  | .lgetFlip f => some (false, 0xA3, f)
  | .lgetRot f => some (false, 0xA4, f)
  | .lgetSh f => some (false, 0xA5, f)
  | .pollSome f => some (false, 0xA6, f)
  | .pollEvery f => some (false, 0xA7, f)
  | .pollMap f => some (false, 0xA8, f)
  | .redf f => some (false, 0xA9, f)
  | .redi f => some (false, 0xAA, f)
  | .pfxfAdd f => some (false, 0xAB, f)
  | .pfxiAdd f => some (false, 0xAC, f)
  | .xchg f => some (false, 0xAD, f)
  | .rgrp f => some (false, 0xAE, f)
  | .ldG f => some (false, 0xC0, f)
  | .stG f => some (false, 0xC1, f)
  | .ldSp f => some (false, 0xC2, f)
  | .stSp f => some (false, 0xC3, f)
  | .ldSpE f => some (false, 0xC4, f)
  | .stSpF f => some (false, 0xC5, f)
  | .ldro f => some (false, 0xC6, f)
  | .ldgr f => some (false, 0xC7, f)
  | .atom f => some (false, 0xC8, f)
  | .atomSp f => some (false, 0xC9, f)
  | .bcdec f => some (false, 0xCA, f)
  | .bcinc f => some (false, 0xCB, f)
  | .bcread f => some (false, 0xCC, f)
  | .rank1 f => some (false, 0xD0, f)
  | .rank0 f => some (false, 0xD1, f)
  | .sel1 f => some (false, 0xD2, f)
  | .sel0 f => some (false, 0xD3, f)
  | .fclose f => some (false, 0xD4, f)
  | .fopen f => some (false, 0xD5, f)
  | .encl f => some (false, 0xD6, f)
  | .bsins f => some (false, 0xD7, f)
  | .bsdel f => some (false, 0xD8, f)
  | .sadd f => some (true, 0x00, f)
  | .ssub f => some (true, 0x01, f)
  | .smul f => some (true, 0x02, f)
  | .smulhi f => some (true, 0x03, f)
  | .smad f => some (true, 0x04, f)
  | .smin f => some (true, 0x05, f)
  | .smax f => some (true, 0x06, f)
  | .sand f => some (true, 0x07, f)
  | .sor f => some (true, 0x08, f)
  | .sxor f => some (true, 0x09, f)
  | .sandn f => some (true, 0x0A, f)
  | .sshl f => some (true, 0x0B, f)
  | .sshr f => some (true, 0x0C, f)
  | .ssar f => some (true, 0x0D, f)
  | .sbfx f => some (true, 0x0E, f)
  | .sbfi f => some (true, 0x0F, f)
  | .spopc f => some (true, 0x10, f)
  | .sffs f => some (true, 0x11, f)
  | .ssel f => some (true, 0x12, f)
  | .smov f => some (true, 0x13, f)
  | .sadd64 f => some (true, 0x14, f)
  | .slea f => some (true, 0x15, f)
  | .lanerd f => some (true, 0x16, f)
  | .lanewr f => some (true, 0x17, f)
  | .scmpEq f => some (true, 0x20, f)
  | .scmpNe f => some (true, 0x21, f)
  | .scmpLt f => some (true, 0x22, f)
  | .scmpLe f => some (true, 0x23, f)
  | .scmpGt f => some (true, 0x24, f)
  | .scmpGe f => some (true, 0x25, f)
  | .scmpLtu f => some (true, 0x26, f)
  | .scmpLeu f => some (true, 0x27, f)
  | .scmpGtu f => some (true, 0x28, f)
  | .scmpGeu f => some (true, 0x29, f)
  | .bra f => some (true, 0x40, f)
  | .brcZ f => some (true, 0x41, f)
  | .brcNz f => some (true, 0x42, f)
  | .brd f => some (true, 0x43, f)
  | .brx f => some (true, 0x44, f)
  | .brxL f => some (true, 0x45, f)
  | .call f => some (true, 0x46, f)
  | .ret f => some (true, 0x47, f)
  | .wait f => some (true, 0x60, f)
  | .waittl f => some (true, 0x61, f)
  | .tlinc f => some (true, 0x62, f)
  | .yield f => some (true, 0x63, f)
  | .yieldc f => some (true, 0x64, f)
  | .bari f => some (true, 0x65, f)
  | .bara f => some (true, 0x66, f)
  | .barw f => some (true, 0x67, f)
  | .baro f => some (true, 0x68, f)
  | .fence f => some (true, 0x69, f)
  | .roinv f => some (true, 0x6A, f)
  | .waitm f => some (true, 0x6B, f)
  | .gbar f => some (true, 0x6C, f)
  | .tail f => some (true, 0x6D, f)
  | .setgrp f => some (true, 0x6E, f)
  | .gang f => some (true, 0x6F, f)
  | .mma f => some (true, 0x80, f)
  | .mzero f => some (true, 0x81, f)
  | .mdrain f => some (true, 0x82, f)
  | .thflush f => some (true, 0x83, f)
  | .cpy f => some (true, 0xA0, f)
  | .cpyl f => some (true, 0xA1, f)
  | .bkload f => some (true, 0xA2, f)
  | .bkcmd f => some (true, 0xA3, f)
  | .scanq f => some (true, 0xA4, f)
  | .cleanr f => some (true, 0xA5, f)
  | .invr f => some (true, 0xA6, f)
  | .flushr f => some (true, 0xA7, f)
  | .bcinit f => some (true, 0xA8, f)
  | .setfmt f => some (true, 0xC0, f)
  | .getfmt f => some (true, 0xC1, f)
  | .srd f => some (true, 0xC2, f)
  | .swr f => some (true, 0xC3, f)
  | .trap f => some (true, 0xC4, f)
  | .bkpt f => some (true, 0xC5, f)
  | .nop f => some (true, 0xC6, f)
  | .unassignedOpcode _ => none
  | .instructionFetchFault => none
  | .actSelect _ _ => none
  | .loadReturn _ _ _ => none
  | .storePerform _ _ _ => none
  | .atomicPerform _ _ _ => none
  | .emptyLineFill _ _ => none
  | .emptyTimeout _ => none
  | .yieldcResume _ => none
  | .edgeValueArrival _ _ => none
  | .trackerRelease _ _ => none
  | .companyRetire _ => none
  | .engineComplete _ _ => none
  | .copyTransfer _ _ _ _ => none
  | .transformTransfer _ _ _ _ => none
  | .mmaExecute _ _ => none
  | .operandFetchPark _ _ => none
  | .operandFetchResume _ _ => none
  | .mdrainExecute _ _ _ => none
  | .mzeroExecute _ _ => none
  | .busOffer _ _ => none
  | .busWindowExpiry _ => none
  | .busPairSplit _ => none
  | .requestRefusal _ _ _ => none
  | .requestResend _ _ => none
  | .ownershipRecall _ => none
  | .rdcInvalidation _ _ => none
  | .l2Eviction _ _ => none
  | .bcMissRequest _ _ _ => none
  | .groupLoadComplete _ _ => none
  | .queryPerform _ _ _ => none
  | .backgroundRepair _ _ _ => none
  | .editPerform _ _ => none
  | .editInterrupt _ _ => none
  | .bkloadExecute _ _ => none
  | .bankCommandRun _ _ _ => none
  | .bankWatchdog _ _ _ => none
  | .scanRun _ _ => none
  | .maintenanceRun _ _ _ => none
  | .pageMigration _ _ => none
  | .pageDemotion _ _ _ => none
  | .hotPagePromotion _ => none
  | .entryCheck _ => none
  | .dependencePoll _ => none
  | .launchStart => none
  | .allResidentPlace _ _ => none
  | .companyAdmit _ _ => none
  | .rangeStealing _ => none
  | .prewaitExpiry _ _ => none
  | .preemptCompany _ => none
  | .companyResume _ _ => none
  | .launchComplete _ => none
  | .gbarArrival _ => none
  | .messageWrite => none
  | .qtailWrite _ _ => none
  | .abort _ => none
  | .preempt _ => none
  | .rmfrespWrite _ => none
  | .rmshootWrite _ => none
  | .shootDownDone _ => none
  | .rmmsgheadWrite _ => none
  | .rmmsgsizeWrite _ => none
  | .attctlWrite _ => none
  | .heldWriteApply _ => none
  | .registerWrite _ _ => none
  | .hostAccess _ _ => none
  | .clusterReset _ _ => none
  | .straitRetirement _ => none
  | .correctedError _ _ => none
  | .uncorrectableError _ _ => none
  | .powerThrottle _ _ _ => none
  | .remoteWriteArrival _ _ _ _ _ => none
  | .remoteAtomicRequest _ _ _ => none
  | .fabricTimeout _ _ => none
  | .fabricBarrierArrival _ _ _ _ => none
  | .fabricBarrierRelease _ _ => none
  | .fabricResend _ => none
  | .packetReceive _ _ => none
  | .portDown _ => none
  | .packageReset _ => none
  | .remoteReadRequest _ _ _ _ => none
  | .portUp _ => none
  | .attestationReportWritten => none
  | .firmwareUpdate _ _ => none

/-- Base word fields (R35). -/
def wordSet (w : Word) : Bool := w.getLsbD 31
def wordE (w : Word) : Bool := w.getLsbD 30
def wordN (w : Word) : Bool := w.getLsbD 29
def wordOp (w : Word) : BitVec 8 := w.extractLsb' 21 8
def wordD (w : Word) : BitVec 7 := w.extractLsb' 14 7
def wordA (w : Word) : BitVec 7 := w.extractLsb' 7 7
def wordB (w : Word) : BitVec 7 := w.extractLsb' 0 7

/-- The X2 fields of an extension word (R43). -/
def extX2 (x : Word) : Ext := .x2 (x.extractLsb' 25 7) (x.extractLsb' 19 6) (x.extractLsb' 0 19)

/-- Whether the opcode is assigned in its set (R72). -/
def assigned (uniform : Bool) (op : Nat) : Bool :=
  if uniform then (uniformInstr op ⟨false, false, 0, 0, 0, .none⟩).isSome
  else (laneInstr op ⟨false, false, 0, 0, 0, .none⟩).isSome

/-- The extension form of a base word (R41); an unassigned opcode is one word (R72). -/
def wordExtForm (w : Word) : ExtForm :=
  let op := (wordOp w).toNat
  if assigned (wordSet w) op then
    extForm (if wordSet w then uniformLong op else laneLong op) (wordA w) (wordB w)
  else .none

/-- Length in bytes of the instruction whose base word is `w` (R41, R72). -/
def wordLength (w : Word) : Nat := if wordExtForm w = .none then 4 else 8

/-- The instruction of a base word and its extension word (ignored where the form has none). -/
def assemble (w : Word) (x : Ext) : Instr :=
  let f : Fields := ⟨wordE w, wordN w, wordD w, wordA w, wordB w, x⟩
  let i := if wordSet w then uniformInstr (wordOp w).toNat f else laneInstr (wordOp w).toNat f
  i.getD (.unassignedOpcode w)

/-- Decodes the instruction at the head of a list of words and answers the words that follow it. [log 19] -/
def decode (ws : List Word) : Except DecodeError (Instr × List Word) :=
  match ws with
  | [] => .error .noBaseWord
  | w :: rest =>
    match wordExtForm w with
    | .none => .ok (assemble w .none, rest)
    | .x1 =>
      match rest with
      | [] => .error .noExtensionWord
      | x :: rest' => .ok (assemble w (.x1 x), rest')
    | .x2 =>
      match rest with
      | [] => .error .noExtensionWord
      | x :: rest' => .ok (assemble w (extX2 x), rest')

/-! ## Encoding -/

/-- The base word of a set, an opcode and fields (R35). -/
def baseWord (uniform : Bool) (op : Nat) (f : Fields) : Word :=
  BitVec.ofBool uniform ++ BitVec.ofBool f.e ++ BitVec.ofBool f.n ++ BitVec.ofNat 8 op ++ f.d ++ f.a ++ f.b

/-- The extension words of a form (R42, R43). -/
def extWords (x : Ext) : List Word :=
  match x with
  | .none => []
  | .x1 imm => [imm]
  | .x2 c xs imm => [c ++ xs ++ imm]

/-- The words of an instruction; the steps that no word names have none. [log 19] -/
def encode (i : Instr) : List Word :=
  match i with
  | .unassignedOpcode w => [w]
  | i =>
    match i.code with
    | some (u, op, f) => baseWord u op f :: extWords f.ext
    | none => []

/-- The fields of an instruction that has an encoding. -/
def Instr.fields (i : Instr) : Fields :=
  match i.code with
  | some (_, _, f) => f
  | none => ⟨false, false, 0, 0, 0, .none⟩

/-- Length in bytes of an instruction (R41). -/
def Instr.length (i : Instr) : Nat := 4 * (encode i).length

/-! ## Bytes -/

/-- A word from its four bytes, least significant first (R35). -/
def wordOfBytes (b0 b1 b2 b3 : Byte) : Word := b3 ++ b2 ++ b1 ++ b0

/-- The bytes of a word, least significant first. -/
def bytesOfWord (w : Word) : List Byte :=
  [w.extractLsb' 0 8, w.extractLsb' 8 8, w.extractLsb' 16 8, w.extractLsb' 24 8]

/-- Words from bytes; an incomplete last word is dropped. -/
def wordsOfBytes : List Byte → List Word
  | b0 :: b1 :: b2 :: b3 :: rest => wordOfBytes b0 b1 b2 b3 :: wordsOfBytes rest
  | _ => []

/-- Decodes the instruction whose bytes begin the list. -/
def decodeBytes (bs : List Byte) : Except DecodeError (Instr × List Word) := decode (wordsOfBytes bs)

/-- The two words of an instruction given as the opcode table numbers its bits: the base word is the low 32
bits, the extension word the next 32, and bits above `nbits` are 0. -/
def tableWords (nbits w : Nat) : List Word :=
  let v := w % 2 ^ nbits
  [BitVec.ofNat 32 v, BitVec.ofNat 32 (v / 2 ^ 32)]

/-- The same instruction as bytes, in memory order. -/
def tableBytes (nbits w : Nat) : List Byte := (tableWords nbits w).flatMap bytesOfWord

/-- The instruction the decoder reads from a word numbered as the opcode table numbers it. -/
def decodeTableWord (nbits w : Nat) : Option Instr :=
  match decodeBytes (tableBytes nbits w) with
  | .ok (i, _) => some i
  | .error _ => none

end Sys2Proof
end

