-- ==== Sys2Proof/Config.lean ====
section
/-!
DEFINITION. What every N9 fixes (the sizes of 00 R1-R3, 05 R135-R150, 09 R225, 10 R237-R260, 15 R296-R305)
and the free values: constants without a body that stand for a value the spec leaves open. Nothing can be
proved of a free value's number (assumption 6).
-/
namespace Sys2Proof.Config

/-- R2: bytes of a line. -/
def lineBytes : Nat := 192
/-- R74: lanes of a troupe. -/
def lanes : Nat := 96
/-- R225: cores, clusters and dies of the package. -/
def cores : Nat := 128
def clusters : Nat := 64
def dies : Nat := 4
/-- R135: troupe slots of a quarter; a core has four quarters. -/
def quarterSlots : Nat := 12
/-- R75: registers per troupe that the troupes of a core may hold together. -/
def registerBudget : Nat := 4096
/-- R143: the ways of a core store, those that may serve as scratchpad, the bytes of one, and its lines. -/
def storeWays : Nat := 16
def spadWays : Nat := 12
def wayBytes : Nat := 98304
def wayLines : Nat := 512
/-- R141, R149, R150, R249, R260, R271, R323: capacities. -/
def launchSlots : Nat := 8
def recordCacheSize : Nat := 64
def trackerEntries : Nat := 16
def allowancesPerCore : Nat := 64
def monitorsPerSlice : Nat := 64
def regionsPerDie : Nat := 1024
def hotCounters : Nat := 4096
/-- R205, R242, R248: capacities. -/
def tileCacheSize : Nat := 16
def rdcSliceLines : Nat := 16384
/-- R299: whole lines of a memory-side cache slice of 32 MiB. -/
def sideSliceLines : Nat := 174762
def dieTlbEntries : Nat := 524288
/-- R192: bytes of a tile save area. -/
def tileSaveBytes : Nat := 524288
/-- R147: clocks until EMPTY-TIMEOUT. -/
def emptyTimeout : Nat := 2 ^ 24
/-- R331: launches active at once. -/
def activeLaunches : Nat := 64
/-- R326: queues. -/
def queues : Nat := 64
/-- R203: bytes of a staging window. -/
def stagingBytes : Nat := 36864

/-- Free value (R203): a byte the operand fetcher leaves in a staging window. [log 6] -/
opaque freeByte : Nat → Byte
/-- Free value (R203): which of the bytes stored into a staging window an element byte takes; the operand's own where there
is none of that number. -/
opaque windowPick : Nat → Nat
/-- Free value (R167): the old value of poisoned bytes that an atomic computes its new value from. [log 6, 26] -/
opaque lostValue : Nat → Nat
/-- Free value (R128): where BRX.l goes on when no lane is active. [log 6, 16] -/
opaque freeTarget : Nat → DWord
/-- Free value (R237-R241): which of the 1024 sets of a home L2 slice a line belongs to; the spec gives no index function.
[log 7] -/
opaque l2Set : Nat → Fin 1024
/-- Free value (R143, R144): which of the ways of a core store that serve as L1 a line takes. -/
opaque l1Way : Nat → Nat
/-- Free value (R302): whether a sector that was on its way to DRAM when a reset struck holds its new bytes. [log 122] -/
opaque sectorWritten : Nat → Bool
/-- Free value (R325): whether a core mispredicted the number of sectors of a compressed line it fetched. -/
opaque mispredicts : Nat → Bool
/-- Whether a cluster reset finds a request partly injected (R235), by a fresh number. [log 133] -/
opaque partlyInjected : Nat → Bool
/-- Free value (R324): the number of sectors, less 1, of the coded form of a line's bytes. -/
opaque codedSectors : List Byte → BitVec 2
/-- Free value (R324): a byte of the coded form of a line's bytes. -/
opaque codedByte : List Byte → Nat → Byte
/-- Free value (R324): a byte of the line that coded bytes which no home slice wrote stand for. -/
opaque decodedByte : List Byte → Nat → Byte
/-- Free value (R356): the digest of the firmware key that the boot ROM holds. -/
opaque romDigest : List Byte
/-- Free value (R360): a byte of the Ed448 private key that is derived from a device secret. -/
opaque identitySeed : List Byte → Nat → Byte

end Sys2Proof.Config
end

