-- ==== Sys2Proof/Machine/State.lean ====
section
/-!
DEFINITION. The state of the package as plain data: everything the spec gives the machine, the record types it
is made of, its reset value, and the reasons a step can stop. `## State` of INVENTORY.md gives the rule and the
reset value of every field.
-/
namespace Sys2Proof.Machine

/-- A sparse store by address: addresses strictly rising, no entry holding 0, which is what an unlisted address
reads as (R142, R191; memory at power-on: assumption 2). -/
abbrev Cells (w : Nat) := List (Nat × BitVec w)

/-- Physical memory, a scratchpad: bytes by address. -/
abbrev Memory := Cells 8

/-- One value per lane, lane 0 first (R74). -/
abbrev Row := List Word

/-! ## Troupes -/

/-- An entry of the reconvergence stack (R84). -/
structure StackEntry where
  rpc : DWord
  ft : DWord
  full : LaneMask
  nt : LaneMask
  fmt : Word
  phase : Bool
  deriving DecidableEq, Repr

/-- How RET resumes after a trap (R93): the trapping instruction's length, its set, the latch it would have
filled, whether its act ends with it, and whether it was an instruction fetch (R130). -/
structure Resume where
  len : Nat
  laneSet : Bool
  leaves : Bool
  ends : Bool
  fetch : Bool
  deriving DecidableEq, Repr

/-- The latches and position of an act (R48, R51). A latch that holds no value is `none`. -/
structure ActPos where
  laneLatch : List (Option (List DWord))
  uniLatch : List (Option DWord)
  kLane : Nat
  kUni : Nat
  deriving DecidableEq, Repr

/-- What a trap saves (R49, R92). -/
structure SavedAct where
  act : LaneMask
  fmt : Word
  depth : Nat
  pos : ActPos
  serial : Nat
  resume : Resume
  deriving DecidableEq, Repr

/-- Why a troupe is not running (R136). `empty` holds the lanes that wait on an empty line with the offsets they
access (R146, R147); `line` is a wait for one of the troupe's own operations that waits on an empty line; `load` holds
the registers that the first instruction of the act reads while their loads are in flight; `interlock` is a stall
(R40, R74): the instruction at the pc is tried again. [log 13] -/
inductive Park where
  | run
  | yield (others : List Nat)
  | yieldTl (c : Nat) (n : DWord) (cont : DWord)
  | yieldFull (line : Nat) (cont : DWord)
  | barw (b : Nat)
  | gbar (c : Nat) (counted : Bool)
  | monitor (scope : Nat)
  | rgrp
  | fault (tokens : List Nat)
  | empty (waits : List (Nat × Nat))
  | wait (limits : Word)
  | waitTl (c : Nat) (n : DWord)
  | fence (all mem pkg : Bool)
  | baro (b : Nat) (phase : Bool)
  | query (id : Nat)
  | gang
  | interlock
  | load (regs : List Nat)
  | peer (regs latches : List Nat)
  | lead
  | line
  deriving DecidableEq, Repr

/-- What a memory operation in flight does (R162, R170, R251, R263, R277, R286). -/
inductive MemKind where
  | loadG (ns : Bool)
  | ldro (ns : Bool)
  | loadSp
  | storeG
  | storeSp (fill : Bool)
  | atomG
  | atomSp
  | bcDec
  | bcInc
  | bcRead
  | bcInit (members : CoreMask)
  | ldgr (members : CoreMask)
  | query (op : Nat)
  | edit (insert : Bool) (n : DWord)
  deriving DecidableEq, Repr

/-- One lane's part of a memory operation: its address (a virtual address, a scratchpad offset, or a position),
the physical address and leaf entry it was translated to (with the page's size), its data and comparand, and, once
performed, its result. `miss` is the allowance a BCDEC that missed has sent home (R252); `status` is 0, or the trap code
that a lane of a query, of an edit, or of an access in a launch that traps on poison raised (R167, R279, R286). `refused` and
`heldUntil` belong to a request that a slice has refused; `refusals` and `rdcRefusals` count those of the home slice and of
the RDC slice (R239). -/
structure LaneReq where
  lane : Nat
  addr : Nat
  pa : Nat
  entry : DWord
  psize : Nat
  data : BitVec 128
  cmp : DWord
  done : Bool
  result : DWord
  miss : Option Nat
  status : Nat
  taddr : DWord
  refused : Bool
  refusals : Nat
  rdcRefusals : Nat
  heldUntil : Nat
  deriving DecidableEq, Repr

/-- A memory operation in flight. `sub` is the width W of a load or store, the OPC of an atomic or the OP of a
group load; `act` is the act in which it issued (its latch is lost when the act ends); `samples` are the
values a group load has read early, by member core and lane (R265, R267). `released` is the clock of the first release
narrower than package scope that has been performed after it while it was in flight, and the widest scope of such a release:
accesses of that scope which an acquire since then stands before wait for it; `since` is the clock at which the operation
issued, or of the last acquire before it that was performed since (R153). `sync` is an access of a launch that traps on
poison: its instruction stays at issue until it has returned (R167). -/
structure MemOp where
  id : Nat
  kind : MemKind
  sub : Nat
  acquire : Bool
  release : Bool
  scope : Nat
  dest : Option Nat
  latch : Nat
  act : Nat
  raisesLd : Bool
  raisesSt : Bool
  lanes : List LaneReq
  samples : List (Nat × List (Nat × Option Word))
  flags : BitVec 6
  released : Option (Nat × Nat)
  since : Nat
  sync : Bool
  deriving DecidableEq, Repr

/-- An edge value a neighbour read still waits for (R121). -/
structure PendingEdge where
  n : Nat
  left : Bool
  active : Bool
  dest : Option Nat
  latch : Nat
  act : Nat
  deriving DecidableEq, Repr

/-- `parkedAt` is the clock at which the troupe's park began, and `parkResume` what RET would need after the
instruction at its pc (R93, R147). `fences` are the release fences that its later stores and atomics still have to keep:
the first operation number after the fence, and its scope (R173). `roinvAt` is the first operation number after its last
ROINV (R148). -/
structure Troupe where
  uid : Nat
  cid : Nat
  lid : Nat
  wid : DWord
  core : Nat
  quarter : Nat
  slot : Nat
  resident : Bool
  retired : Bool
  v : List Row
  s : List Word
  act : LaneMask
  fmt : Word
  pc : DWord
  pos : ActPos
  actSerial : Nat
  actNext : Nat
  stack : List StackEntry
  exited : LaneMask
  ld : Nat
  st : Nat
  xc : Nat
  ul : Nat
  trap : Bool
  saved : Option SavedAct
  fflags : Word
  srseed : DWord
  srctr : DWord
  tcause : Word
  tpc : DWord
  taddr : DWord
  tmask : LaneMask
  mrp : Word
  gang : Word
  grpsel : Word
  ldstat : Word
  xseq : Nat
  edges : List PendingEdge
  rgrpCount : Nat
  park : Park
  parkedAt : Nat
  parkResume : Resume
  declined : List Nat
  ops : List MemOp
  nextOp : Nat
  fences : List (Nat × Nat)
  roinvAt : Nat
  deriving DecidableEq, Repr

/-! ## Companies -/

structure Barrier where
  expected : Nat
  arrived : Nat
  mask : BitVec 16
  phase : Bool
  deriving DecidableEq, Repr

structure Timeline where
  issued : DWord
  reached : DWord
  deriving DecidableEq, Repr

/-- A publication of NBL, NBR or XCHG (R121): by troupe `wid` under number `n`, the values of lanes 0 and 95. -/
structure Publication where
  wid : Nat
  n : Nat
  lane0 : Word
  lane95 : Word
  deriving DecidableEq, Repr

/-- A layout record's contents (R197). -/
structure Layout where
  base : Nat
  efmt : Nat
  ndim : Nat
  swz : Nat
  cs : Bool
  sform : Nat
  ext : List Nat
  str : List Int
  sbase : Nat
  sstride : Int
  cbase : Nat
  handle : Nat
  deriving DecidableEq, Repr

/-- Where an MMA operand or a drain's destination stands (R196, R207). -/
inductive Operand where
  | sp (off stride : Nat)
  | glob (r : Layout) (rt kt : Nat)
  deriving DecidableEq, Repr

structure MmaArgs where
  tile : Nat
  af : Nat
  bf : Nat
  sm : Nat
  sat : Bool
  a : Operand
  b : Operand
  k : Nat
  lr : Nat
  lat : Nat
  u : Option Layout
  urt : Nat
  ukt : Nat
  stg : Nat
  usesWindow : Bool
  bcast : Bool
  p2 : Word
  p3 : Word
  brec : List Byte
  members : List Nat
  deriving DecidableEq, Repr

structure DrainArgs where
  tile : Nat
  df : Nat
  tf : Nat
  tr : Bool
  sr : Bool
  sat : Bool
  clr : Bool
  dst : Operand
  dstT : Operand
  seed : DWord
  ctr : DWord
  deriving DecidableEq, Repr

structure ScanArgs where
  src : Nat
  n : Nat
  op : Nat
  ef : Nat
  k : Nat
  thr : Word
  m : Nat
  out : Nat
  deriving DecidableEq, Repr

structure BankArgs where
  die : Nat
  stack : Nat
  pcm : DWord
  fr : Nat
  entry : Nat
  nr : Nat
  offmax : Nat
  banks : BitVec 16
  bv : Nat
  f32 : Bool
  dup : Bool
  deriving DecidableEq, Repr

/-- What an engine operation does (R186, R189, R206, R219, R220, R309-R319). A copy's `remote` is the device
and whether it is the destination (R348); `request` marks an atomic request (R349). -/
inductive EngKind where
  | cpy (dsp ssp stg : Bool) (dst src count : Nat) (remote : Option (Bool × Nat)) (request : Bool)
  | cpyl (src dst : Layout) (transpose : Bool) (rm : Nat) (sat : Bool) (seed ctr : DWord)
  | mma (a : MmaArgs)
  | mdrain (a : DrainArgs)
  | mzero (tile : Nat)
  | bkload (va : Nat) (mask : DWord) (first count stack die : Nat)
  | bkcmd (a : BankArgs)
  | scanq (a : ScanArgs)
  | maint (form : Nat) (start len : Nat)
  deriving DecidableEq, Repr

/-- A fetched row of an operand: element codes, the codes of its scales, the elements each scale serves, and whether any byte
was poisoned (R203). -/
structure OpRow where
  codes : List Nat
  scales : List Nat
  block : Nat
  bad : Bool
  deriving DecidableEq, Repr

/-- An engine operation given out and not yet completed (R175). `todo` are the byte, element, row or line ranges
(start, length) still to do; `bus` is the state of a .bcast MMA (0 not offered, 1 offered, 2 alone, 3 paired);
`sent` are ranges asked of or sent to a peer; `badLines` are destination lines that poisoned bytes have reached; `emptied`
are the scratchpad lines that were full until its issue set them empty; `vector` is a bank command's broadcast row (R310), or what was stored into
an MMA's staging window (R203); `held` says that a matrix operation is parked for pre-emption (R216); `delivered` are the
rows of B of the band in hand that its pair's fetch has brought (R229). -/
structure EngOp where
  id : Nat
  tl : Option Nat
  n : DWord
  uid : Nat
  kind : EngKind
  todo : List (Nat × Nat)
  sent : List (Nat × Nat)
  badLines : List Nat
  emptied : List Nat
  rows : Nat
  parked : Option Nat
  held : Bool
  failed : Bool
  done : Bool
  flags : BitVec 6
  bus : Nat
  busClock : Nat
  vector : List Byte
  delivered : List OpRow
  deriving DecidableEq, Repr

/-- A completed operation's fault mark and flags that its issuer has yet to take (R177). -/
structure Mark where
  tl : Nat
  n : DWord
  uid : Nat
  fault : Bool
  flags : BitVec 6
  deriving DecidableEq, Repr

/-- An entry of a gang's rendezvous latch (R215). -/
structure GangEntry where
  uid : Nat
  gang : Word
  words : List Word
  params : List Word
  deriving DecidableEq, Repr

/-- `lastCore` is the core that the company last stood on, and `outSince` the clock at which it was last saved (R83, R337);
`wayAt` are the ways of the core store that serve as its scratchpad (R143). -/
structure Company where
  cid : Nat
  lid : Nat
  q : Nat
  core : Option Nat
  lastCore : Nat
  outSince : Nat
  admitted : Nat
  preempting : Bool
  ways : Nat
  wayAt : List Nat
  spad : Memory
  spadPoison : List Nat
  emptyLines : List Nat
  barriers : List Barrier
  tls : List Timeline
  groups : List CoreMask
  tiles : List (Cells 32)
  ops : List EngOp
  marks : List Mark
  gangs : List GangEntry
  retiredF1 : List Nat
  rgrpMask : List Nat
  deriving DecidableEq, Repr

/-- An exchange in flight (R231, R232): what the issuer sent, where it writes, and how many exchanges with the
same partner it made before. -/
structure Xchg where
  uid : Nat
  lid : Nat
  wid : DWord
  partner : DWord
  k : Nat
  row : Row
  active : LaneMask
  dest : Option Nat
  n : Nat
  latch : Nat
  act : Nat
  done : Bool
  deriving DecidableEq, Repr

/-! ## Cores, clusters, dies -/

/-- The troupe that a quarter runs, and the slots that won its last two arbitrations (R137). -/
structure Quarter where
  running : Option Nat
  last : Nat
  prev : Nat
  deriving DecidableEq, Repr

/-- A line of an L1 and the way of the core store that it stands in (R143). -/
structure L1Line where
  line : Nat
  way : Nat
  data : List Byte
  owned : Bool
  dirty : Bool
  deriving DecidableEq, Repr

structure CacheLine where
  line : Nat
  data : List Byte
  deriving DecidableEq, Repr

structure RecEntry where
  lid : Nat
  handle : Nat
  va : Nat
  data : List Byte
  deriving DecidableEq, Repr

/-- A byte's place at home: its line and offset there, and what its page says of it. For a compressed page `cmp` is
the address of the line's slot 0 and the page size. -/
structure Loc where
  line : Nat
  off : Nat
  host : Bool
  die : Nat
  wt : Bool
  cls : Nat
  cmp : Option (Nat × Nat)
  deriving DecidableEq, Repr

/-- A core's allowance on a counter line (R249). -/
structure Allowance where
  at_ : Loc
  amount : Nat
  deriving DecidableEq, Repr

structure TlbEntry where
  root : Nat
  vbase : Nat
  size : Nat
  entry : DWord
  deriving DecidableEq, Repr

/-- An entry of the retirement tracker (R150) with the retired troupe's operations in flight. -/
structure Tracker where
  uid : Nat
  cid : Nat
  lid : Nat
  deriving DecidableEq, Repr

/-- An entry of the tile cache of an operand fetcher (R205): the tile of a slot's handle and index, and where its data is. -/
structure TileEntry where
  lid : Nat
  handle : Nat
  index : Nat
  va : Nat
  deriving DecidableEq, Repr

/-- A core. `tlb`, `ftlb` and `otlb` are the micro-TLBs of its load-store unit, its instruction fetch and its operand fetcher
(R248). -/
structure Core where
  inService : Bool
  quarters : List Quarter
  l1 : List L1Line
  ro : List CacheLine
  recs : List RecEntry
  tileCache : List TileEntry
  trackers : List Tracker
  slots : List Nat
  allowances : List Allowance
  tlb : List TlbEntry
  ftlb : List TlbEntry
  otlb : List TlbEntry
  deriving DecidableEq, Repr

/-- A cluster's registers (R226); the full count of send allowances in the register of its crossbar port (R235); and its bus
(R227-R229): the operations offered by its even and odd core, as (core, company, operation) in order of arrival, and the
operations (company, operation) that are paired. [log 133] -/
structure Cluster where
  clbwin : Word
  clbpair : DWord
  clbmiss : DWord
  clbsplit : DWord
  clxlost : DWord
  clrstat : Word
  port : Word
  offers : List (Nat × Nat × Nat)
  pairs : List ((Nat × Nat) × (Nat × Nat))
  deriving DecidableEq, Repr

/-- A home L2 line (R240-R242), the most recently used first in `State.l2`; `sharers` has a bit for each die, `cmp` the address
of slot 0 and the page size of a compressed page's line, which is keyed by its slot 0 (R324); `bad` are the offsets of its
poisoned bytes (R167). -/
structure L2Line where
  line : Nat
  data : List Byte
  dirty : Bool
  cls : Nat
  sharers : BitVec 4
  cmp : Option (Nat × Nat)
  bad : List Nat
  deriving DecidableEq, Repr

/-- An RDC invalidation in flight (R242), caused by a store or atomic of troupe `uid`. -/
structure Inval where
  die : Nat
  line : Nat
  uid : Nat
  deriving DecidableEq, Repr

/-- A condition monitor (R257-R260). -/
structure Monitor where
  pa : Nat
  wide : Bool
  cmp : Nat
  v : DWord
  uid : Nat
  deriving DecidableEq, Repr

/-- A region record's contents (R270). -/
structure RegionRec where
  sbase : Nat
  len : Nat
  rkind : Nat
  hdie : Nat
  cap : Nat
  gen : Nat
  dbase : Nat
  deriving DecidableEq, Repr

/-- An edit that holds a region's lock (R287, R288): whose lane it is, and the next of its steps (0 open the journal, 1 image,
2 line, 3 close, 4 take an interrupted edit over). -/
structure EditJob where
  uid : Nat
  op : Nat
  lane : Nat
  phase : Nat
  deriving DecidableEq, Repr

/-- An entry of a region table (R271): its key, the record it was registered from, and the physical frames of
the string and the directory as (virtual page, physical page, size); `waiting` are the troupes whose edits wait for the lock
(R287). -/
structure Region where
  root : Nat
  ra : Nat
  bytes : List Byte
  r : RegionRec
  smap : List (Nat × Nat × Nat)
  dmap : List (Nat × Nat × Nat)
  edit : Option EditJob
  waiting : List Nat
  repairing : Option (Nat × List Byte)
  deriving DecidableEq, Repr

/-- The unit registers of a bank, as element codes (R305). -/
structure BankUnit where
  bank : Nat
  row : List Nat
  mul : List Nat
  add : List Nat
  cmp : List Nat
  acc : List Nat
  mula : List Nat
  adda : List Nat
  cmpa : List Nat
  wbr : Nat
  deriving DecidableEq, Repr

/-- A command under way on a pseudo-channel (R307): its parameters, the banks' registers, cur and the microprogram counter, the
flags raised and the addresses of the lines written. -/
structure BankProgress where
  args : BankArgs
  units : List BankUnit
  cur : Nat
  upc : Nat
  flags : BitVec 6
  written : List Nat
  deriving DecidableEq, Repr

/-- A bank sequencer (R305-R314): its microprogram store, its queue of (company, operation), the command it is running, and the
clock of its last step. -/
structure Sequencer where
  die : Nat
  stack : Nat
  pc : Nat
  store : List Word
  queue : List (Nat × Nat)
  run : Option BankProgress
  clock : Nat
  deriving DecidableEq, Repr

/-- A dirty line of a memory-side cache (R299): its physical line and the bytes that DRAM still holds beneath it; for a line of
a compressed page the page size and its plain bytes, which are still to be coded into a slot (R325). -/
structure SideLine where
  line : Nat
  below : List Byte
  coded : Option (Nat × List Byte)
  deriving DecidableEq, Repr

/-- A die; `tlb` is its last-level TLB (R248), and `dntrunc` counts the packets with a truncation marker that its slices have
discarded (R235). -/
structure Die where
  l2quota : Word
  dnrefuse : DWord
  dnmonovf : DWord
  dngrppart : DWord
  dnbcrecall : DWord
  dnecc : DWord
  dntrunc : DWord
  bkgrant : List DWord
  bkwdog : Word
  bkreset : DWord
  bkdupfix : DWord
  bkdupfail : DWord
  bkdirign : DWord
  cmtbase : DWord
  cmpmispred : DWord
  hpthresh : Word
  hptpromo : DWord
  hptpinskip : DWord
  errcore : DWord
  errmat : DWord
  errmsc : DWord
  errhbm : DWord
  errpois : DWord
  erruse : DWord
  rdc : List CacheLine
  tlb : List TlbEntry
  monitors : List Monitor
  regions : List Region
  hot : List (Nat × Nat × Nat)
  frames : List (Nat × Nat)
  deriving DecidableEq, Repr

/-- The plain bytes of a compressed line, by the physical address of the slot that holds it; `other` is the line's
other slot and `first` its slot 0 (R324, R325). -/
structure CodedLine where
  slot : Nat
  other : Nat
  first : Nat
  data : List Byte
  deriving DecidableEq, Repr

/-! ## Ringmaster, fabric, start-up -/

/-- A launch header's fields (R61); extents are held as sizes. -/
structure Header where
  entry : DWord
  handler : DWord
  widths : List Nat
  exts : List Nat
  bindc : Nat
  bindd : Nat
  regs : Nat
  troupes : Nat
  ways : Nat
  prio : Nat
  resident : Bool
  poison : Bool
  dep0 : Nat
  val0 : DWord
  dep1 : Nat
  val1 : DWord
  seed : DWord
  htab : Nat
  hcount : Nat
  gtab : Nat
  gvalid : BitVec 8
  deriving DecidableEq, Repr

structure QueueRegs where
  qbase : DWord
  qsize : Word
  qtail : Word
  qhead : Word
  qroot : DWord
  qctl : Word
  deriving DecidableEq, Repr

/-- A queue's head that has passed the checks of R368, with its entry's fields. -/
structure Candidate where
  queue : Nat
  index : Nat
  hdrVa : Nat
  hdr : Header
  sig : Nat
  sigval : DWord
  flags : Byte
  eligible : Bool
  deriving DecidableEq, Repr

/-- Companies lo to hi - 1 still held by a cluster's distributor; `begun` says that some company of `lo`'s unit has been admitted
(R333, R334). -/
structure DistRange where
  cluster : Nat
  lo : Nat
  hi : Nat
  begun : Bool
  deriving DecidableEq, Repr

structure GridBarrier where
  arrived : Nat
  phase : Bool
  away : Bool
  deriving DecidableEq, Repr

/-- An active launch (R331, R332). `ending` is the code of a launch being ended (R329). -/
structure Launch where
  lid : Nat
  queue : Nat
  index : Nat
  hdrVa : Nat
  hdr : Header
  root : Nat
  sig : Nat
  sigval : DWord
  flags : Byte
  ending : Option Nat
  tcause : Word
  tpc : DWord
  dist : List DistRange
  placed : Bool
  started : Nat
  waitSince : Nat
  companiesRetired : Nat
  troupesRetired : Nat
  retiredWids : List DWord
  pubs : List Publication
  gbars : List GridBarrier
  statusDone : Bool
  deriving DecidableEq, Repr

/-- A message to the host (R339). -/
structure Message where
  kind : Nat
  queue : Nat
  a32 : Word
  a64 : DWord
  vector : Option Byte
  deriving DecidableEq, Repr

/-- A translation fault that is reported (R340) or, with `migrate`, waits for a migration (R322). -/
structure PendingFault where
  token : Nat
  root : Nat
  queue : Nat
  va : Nat
  migrate : Bool
  starved : Bool
  deriving DecidableEq, Repr

/-- A page that the Ringmaster itself waits for (R332, R368): for the entry at a queue's head (`lid` none) or for the
completion word of a launch. `declined` is the host's answer. -/
structure RmWait where
  queue : Nat
  lid : Option Nat
  token : Nat
  granule : Nat
  declined : Bool
  deriving DecidableEq, Repr

structure Ringmaster where
  queues : List QueueRegs
  rmmsgbase : DWord
  rmmsgsize : Word
  rmmsgtail : Word
  rmmsghead : Word
  rmiv : Word
  ctxbase : DWord
  ctxsize : DWord
  prewait : Word
  sealctl : Word
  sealkey : List DWord
  sealminv : Word
  held : List (Reg × DWord)
  candidates : List Candidate
  launches : List Launch
  lastQueue : Nat
  messages : List Message
  faults : List PendingFault
  waits : List RmWait
  shoots : List (Nat × Nat × Nat)
  vectors : List Byte
  deriving DecidableEq, Repr

/-- What this device has sent into the fabric (R348-R355); `truncated` is what a cluster reset leaves of a packet (R235).
[log 101] -/
inductive FabricOut where
  | write (dev cid id off va : Nat) (data : List Byte) (poison : List Bool)
  | readRequest (dev cid id off va len : Nat)
  | readReply (dev tag va : Nat) (data : List Byte) (poison : List Bool)
  | ack (dev tag : Nat)
  | refuse (dev tag : Nat)
  | atomic (dev cid id : Nat) (req : AtomicRequest)
  | atomicReply (dev tag rva : Nat) (old : DWord)
  | arrival (root k : Nat) (phase : Bool) (n : Nat)
  | release (dev k phase : Nat)
  | truncated (dev : Nat)
  deriving DecidableEq, Repr

/-- A packet of this device that is under way or unanswered: its number, the clock at which it was last sent, and whether it has
reached its receiver. -/
structure FabricSent where
  seq : Nat
  since : Nat
  delivered : Bool
  msg : FabricOut
  deriving DecidableEq, Repr

/-- The fabric's registers (R346) and traffic: what this device has sent, the packets it has received, by their number and by
the device and tag of a peer's access (R355), and the arrivals that it counts as a root (R353). -/
structure Fabric where
  fxdevid : Word
  fxroot : DWord
  fxtmo : Word
  fxport : Word
  fxbar : List DWord
  fxretry : DWord
  fxdrop : DWord
  fxrefuse : DWord
  fxfail : DWord
  out : List FabricSent
  seen : List Nat
  peerSeen : List (Nat × Nat)
  arrivals : List (Nat × Nat × List Nat)
  deriving DecidableEq, Repr

/-- The product forms of R1. -/
inductive Form where
  | die
  | package
  | module
  deriving DecidableEq, Repr

/-- An entry of the boot journal (R358). -/
structure JournalEntry where
  step : Nat
  unit : Nat
  mode : Nat
  state : Nat
  deriving DecidableEq, Repr

/-- What the configuration record fixes (R357): the form, the serial number, the cores, clusters and stacks that may come
into service, and the repair data. The largest power limit follows from the form (R363). -/
structure ConfigRecord where
  form : Form
  serial : DWord
  coreSet : BitVec 128
  clusterSet : BitVec 64
  stackSet : BitVec 12
  repair : List Byte
  deriving DecidableEq, Repr

/-- A copy of the configuration record in flash, signed as R356 says. -/
structure SignedRecord where
  record : ConfigRecord
  key : List Byte
  sig : List Byte
  deriving DecidableEq, Repr

/-- What a start measured at its step 8 (R360). -/
structure Measured where
  image : FirmwareImage
  record : ConfigRecord
  journal : List JournalEntry
  deriving DecidableEq, Repr

/-- Start-up, identity and power (R356-R363): the flash contents (both firmware slots, both copies of the record, the journal
of the last start, the unit steps left out since the last update, the device secret and the vendor certificate), what the
last start took from them (the record in use, whether it derived the identity key, what it measured), and the registers of 20.
`attReq` is the report being written: its address, device number and nonce. -/
structure Boot where
  slotA : FirmwareImage
  slotB : FirmwareImage
  copy1 : SignedRecord
  copy2 : SignedRecord
  journal : List JournalEntry
  leftOut : List (Nat × Nat)
  secret : List Byte
  certificate : List Byte
  record : ConfigRecord
  identity : Bool
  measured : Option Measured
  bootstat : DWord
  attnonce : List DWord
  attaddr : DWord
  attstat : Word
  attReq : Option (Nat × Word × List DWord)
  pwrlim : Word
  pwrnow : Word
  thrstat : Word
  thrcnt : DWord
  deriving DecidableEq, Repr

/-! ## The whole package -/

/-- What the agenda may say moves next: a quarter issues an instruction of its running troupe; any other step of
the machine; time passes; a cache or TLB drops a copy it is free to drop (R5, R242, R248). [log 28, 73] -/
inductive Turn where
  | issue (core quarter : Nat)
  | event (i : Instr)
  | tick (n : Nat)
  | dropL1 (core line : Nat)
  | dropRo (core line : Nat)
  | dropRdc (die line : Nat)
  | dropTlb (core vbase : Nat)
  | dropDieTlb (die vbase : Nat)
  | dropRec (core lid handle : Nat)
  | dropTile (core lid handle index : Nat)
  | dropSide (line : Nat)
  | dropL2 (line : Nat)
  deriving DecidableEq, Repr

/-- The state of the machine. `mem` is memory as the memory-side caches show it, `msc` their dirty lines (R299), and `poison`
the poisoned bytes there (R300); those of a line that the home L2 holds are its own. -/
structure State where
  clock : DWord
  mem : Memory
  msc : List SideLine
  poison : List Nat
  coded : List CodedLine
  l2 : List L2Line
  invals : List Inval
  troupes : List Troupe
  companies : List Company
  xchgs : List Xchg
  cores : List Core
  clusters : List Cluster
  dieUnits : List Die
  sequencers : List Sequencer
  straitsOut : List Nat
  rm : Ringmaster
  fabric : Fabric
  boot : Boot
  hostRead : List Byte
  agenda : List Turn
  cur : Option Nat
  focus : Nat × Nat
  turn : Nat
  freeCtr : Nat
  nextId : Nat
  deriving DecidableEq, Repr

/-- The reasons a step stops with a fault. No instruction of a run raises one: a step executes an instruction
only for a troupe that exists. -/
inductive Fault where
  /-- Raised by every meaning of an instruction word when `State.cur` names no troupe: the call stands outside
  any run. Safe: the model stops and says nothing. -/
  | noTroupe
  deriving DecidableEq, Repr

/-- The reasons for a refusal. -/
inductive Refusal where
  /-- Raised by an arm of `exec` whose instruction has no meaning yet. Safe. -/
  | notModelled (mnemonic : String)
  deriving DecidableEq, Repr

/-! ## Reset -/

def QueueRegs.reset : QueueRegs := ⟨0, 0, 0, 0, 0, 0⟩

/-- An idle quarter. [log 4] -/
def Quarter.reset : Quarter := ⟨none, 11, 11⟩

def Core.reset : Core :=
  { inService := true, quarters := List.replicate 4 Quarter.reset, l1 := [], ro := [], recs := [], tileCache := [],
    trackers := [], slots := [], allowances := [], tlb := [], ftlb := [], otlb := [] }

/-- A cluster after reset (R226). The spec does not give its port's count. -/
def Cluster.reset : Cluster :=
  { clbwin := 0x1000, clbpair := 0, clbmiss := 0, clbsplit := 0, clxlost := 0, clrstat := 0, port := 0x100, offers := [],
    pairs := [] }

/-- A die after reset (R241, R303, R323, R362). [log 71] -/
def Die.reset : Die :=
  { l2quota := 0x00084210, dnrefuse := 0, dnmonovf := 0, dngrppart := 0, dnbcrecall := 0, dnecc := 0, dntrunc := 0,
    bkgrant := List.replicate 16 0, bkwdog := 0x00010000, bkreset := 0, bkdupfix := 0, bkdupfail := 0,
    bkdirign := 0, cmtbase := 0, cmpmispred := 0, hpthresh := 0x40, hptpromo := 0, hptpinskip := 0,
    errcore := 0, errmat := 0, errmsc := 0, errhbm := 0, errpois := 0, erruse := 0,
    rdc := [], tlb := [], monitors := [], regions := [], hot := [], frames := [] }

/-- The Ringmaster after reset (R326). [log 4, 116] -/
def Ringmaster.reset : Ringmaster :=
  { queues := List.replicate 64 QueueRegs.reset, rmmsgbase := 0, rmmsgsize := 0, rmmsgtail := 0, rmmsghead := 0,
    rmiv := 0, ctxbase := 0, ctxsize := 0, prewait := 0x00100000, sealctl := 1, sealkey := List.replicate 4 0,
    sealminv := 0, held := [], candidates := [], launches := [], lastQueue := 63, messages := [], faults := [],
    waits := [], shoots := [], vectors := [] }

/-- The fabric after reset (R346). [log 116] -/
def Fabric.reset : Fabric :=
  { fxdevid := 0x0003FFFF, fxroot := 0, fxtmo := 0x2710, fxport := 0, fxbar := List.replicate 16 0, fxretry := 0,
    fxdrop := 0, fxrefuse := 0, fxfail := 0, out := [], seen := [], peerSeen := [], arrivals := [] }

/-- The record of a package (form N9) with everything in service. [log 3] -/
def ConfigRecord.whole : ConfigRecord :=
  { form := .package, serial := 0, coreSet := -1, clusterSet := -1, stackSet := -1, repair := [] }

/-- Assumption 3: the flash of a package (form N9) whose start ran every step in primary mode, with no fabric
port up yet. BOOTSTAT has all twelve stacks in service and the start complete. [log 3] -/
def Boot.reset : Boot :=
  { slotA := ⟨[], [], []⟩, slotB := ⟨[], [], []⟩, copy1 := ⟨.whole, [], []⟩, copy2 := ⟨.whole, [], []⟩, journal := [],
    leftOut := [], secret := [], certificate := [], record := .whole, identity := true,
    measured := some ⟨⟨[], [], []⟩, .whole, []⟩, bootstat := 0x10000FFF,
    attnonce := List.replicate 4 0, attaddr := 0, attstat := 0, attReq := none, pwrlim := 4800, pwrnow := 0,
    thrstat := 16, thrcnt := 0 }

/-- The package right after reset and a start that completed (R326, R358; assumption 3). [log 2, 115, 116] -/
def State.reset : State :=
  { clock := 0, mem := [], msc := [], poison := [], coded := [], l2 := [], invals := [], troupes := [], companies := [],
    xchgs := [], cores := List.replicate 128 Core.reset, clusters := List.replicate 64 Cluster.reset,
    dieUnits := List.replicate 4 Die.reset, sequencers := [], straitsOut := [], rm := Ringmaster.reset,
    fabric := Fabric.reset, boot := Boot.reset, hostRead := [], agenda := [], cur := none, focus := (0, 0), turn := 0,
    freeCtr := 0, nextId := 1 }

end Sys2Proof.Machine
end

