-- ==== Sys2Proof/Machine/Ops.lean ====
section
/-!
DEFINITION. The named operations over registers, stores and records that every meaning is built from: sparse
stores, looking units up and putting them back, scalar and lane registers, act positions and latches, taking a
trap (R88-R92, R94) and returning from one (R93).
-/
namespace Sys2Proof.Machine

/-! ## Sparse stores -/

/-- What an address of a store reads as: 0 where nothing is listed. [log 2] -/
def cellGet {w : Nat} (m : Cells w) (a : Nat) : BitVec w :=
  match m with
  | [] => 0
  | (k, v) :: rest => if k = a then v else cellGet rest a

/-- Writes one cell, keeping addresses rising and listing no 0. -/
def cellPut {w : Nat} (m : Cells w) (a : Nat) (v : BitVec w) : Cells w :=
  match m with
  | [] => if v = 0 then [] else [(a, v)]
  | (k, u) :: rest =>
    if a < k then (if v = 0 then (k, u) :: rest else (a, v) :: (k, u) :: rest)
    else if a = k then (if v = 0 then rest else (a, v) :: rest)
    else (k, u) :: cellPut rest a v

/-- The canonical form: addresses strictly rising and no entry 0. -/
def cellsWf {w : Nat} (m : Cells w) : Bool :=
  match m with
  | [] => true
  | (k, v) :: rest => v != 0 && (match rest with | [] => true | (k', _) :: _ => k < k') && cellsWf rest

/-- The canonical form of a memory. -/
def Memory.wf (m : Memory) : Bool := cellsWf m

/-- `n` bytes from address `a`. -/
def bytesAt (m : Memory) (a n : Nat) : List Byte := (List.range n).map fun i => cellGet m (a + i)

/-- Writes bytes from address `a` up. -/
def putBytes (m : Memory) (a : Nat) (bs : List Byte) : Memory :=
  match bs with
  | [] => m
  | b :: rest => putBytes (cellPut m a b) (a + 1) rest

/-- The little-endian value of a list of bytes (R58). -/
def leNat (bs : List Byte) : Nat :=
  match bs with
  | [] => 0
  | b :: rest => b.toNat + 256 * leNat rest

/-- `n` bytes of a value, least significant first. -/
def leBytes (n v : Nat) : List Byte := (List.range n).map fun i => BitVec.ofNat 8 (v / 256 ^ i)

/-- Field [hi:lo] of a number. -/
def bitsOf (v hi lo : Nat) : Nat := v / 2 ^ lo % 2 ^ (hi + 1 - lo)

/-- A counter of R226 that sticks at its largest value. -/
def stick (c : DWord) (n : Nat) : DWord :=
  if c.toNat + n < 2 ^ 64 then c + BitVec.ofNat 64 n else BitVec.ofNat 64 (2 ^ 64 - 1)

/-! ## Looking up and putting back -/

/-- Replaces element `i` of a list by its image. -/
def listModify {α : Type} (xs : List α) (i : Nat) (g : α → α) : List α :=
  match xs, i with
  | [], _ => []
  | x :: rest, 0 => g x :: rest
  | x :: rest, i + 1 => x :: listModify rest i g

/-- Puts a value into a sorted list, before those it goes before, and sorts a list; values that stand equal keep their order. -/
def insertSorted {α : Type} (before : α → α → Bool) (x : α) : List α → List α
  | [] => [x]
  | y :: rest => if before y x then y :: insertSorted before x rest else x :: y :: rest

def sortBy {α : Type} (before : α → α → Bool) : List α → List α
  | [] => []
  | x :: rest => insertSorted before x (sortBy before rest)

/-- Puts a value at place `i` of a list; a list that ends before it is filled up with `d`. -/
def putAt {α : Type} (xs : List α) (i : Nat) (v d : α) : List α :=
  match xs, i with
  | [], 0 => [v]
  | [], i + 1 => d :: putAt [] i v d
  | _ :: rest, 0 => v :: rest
  | x :: rest, i + 1 => x :: putAt rest i v d

def State.troupe? (s : State) (uid : Nat) : Option Troupe := s.troupes.find? (·.uid == uid)

/-- Puts a troupe back in the place of the one with its uid. -/
def State.setTroupe (s : State) (t : Troupe) : State :=
  { s with troupes := s.troupes.map fun x => if x.uid == t.uid then t else x }

def State.updTroupe (s : State) (uid : Nat) (g : Troupe → Troupe) : State :=
  { s with troupes := s.troupes.map fun x => if x.uid == uid then g x else x }

def State.dropTroupe (s : State) (uid : Nat) : State :=
  { s with troupes := s.troupes.filter (·.uid != uid) }

def State.company? (s : State) (cid : Nat) : Option Company := s.companies.find? (·.cid == cid)

def State.updCompany (s : State) (cid : Nat) (g : Company → Company) : State :=
  { s with companies := s.companies.map fun x => if x.cid == cid then g x else x }

def State.launch? (s : State) (lid : Nat) : Option Launch := s.rm.launches.find? (·.lid == lid)

def State.updRm (s : State) (g : Ringmaster → Ringmaster) : State := { s with rm := g s.rm }

def State.updLaunch (s : State) (lid : Nat) (g : Launch → Launch) : State :=
  s.updRm fun r => { r with launches := r.launches.map fun x => if x.lid == lid then g x else x }

def State.core (s : State) (c : Nat) : Core := s.cores.getD c Core.reset

def State.updCore (s : State) (c : Nat) (g : Core → Core) : State :=
  { s with cores := listModify s.cores c g }

def State.cluster (s : State) (c : Nat) : Cluster := s.clusters.getD c Cluster.reset

def State.updCluster (s : State) (c : Nat) (g : Cluster → Cluster) : State :=
  { s with clusters := listModify s.clusters c g }

def State.die (s : State) (d : Nat) : Die := s.dieUnits.getD d Die.reset

def State.updDie (s : State) (d : Nat) (g : Die → Die) : State :=
  { s with dieUnits := listModify s.dieUnits d g }

def State.updFabric (s : State) (g : Fabric → Fabric) : State := { s with fabric := g s.fabric }

def State.queue (s : State) (q : Nat) : QueueRegs := s.rm.queues.getD q QueueRegs.reset

def State.updQueue (s : State) (q : Nat) (g : QueueRegs → QueueRegs) : State :=
  s.updRm fun r => { r with queues := listModify r.queues q g }

/-- R225: the die and the package cluster of a core, and its lagoon (die * 2 + lagoon of the die). -/
def dieOf (core : Nat) : Nat := core / 32
def clusterOf (core : Nat) : Nat := core / 2
def lagoonOf (core : Nat) : Nat := core / 16

/-- A number no troupe, company, launch, operation or token has had. -/
def State.fresh (s : State) : Nat × State := (s.nextId, { s with nextId := s.nextId + 1 })

/-- The operation that sent a packet, with the device it goes to: (device, company, operation). -/
def FabricOut.sender? (o : FabricOut) : Option (Nat × Nat × Nat) :=
  match o with
  | .write dev cid id _ _ _ _ => some (dev, cid, id)
  | .readRequest dev cid id _ _ _ => some (dev, cid, id)
  | .atomic dev cid id _ => some (dev, cid, id)
  | _ => none

/-- Sends a packet into the fabric. -/
def State.sendOut (s : State) (o : FabricOut) : State :=
  let (seq, s) := s.fresh
  s.updFabric fun x => { x with out := x.out ++ [{ seq := seq, since := s.clock.toNat, delivered := false, msg := o }] }

/-! ## Work identifiers (R80, R81) -/

/-- FIELD(wid, 1) under the launch's first width: the troupe's number in its company. -/
def Header.f1 (h : Header) (wid : DWord) : Nat := wid.toNat % 2 ^ (h.widths.headD 0)

/-- The fields of a wid, lowest first (R80). -/
def widFields (widths : List Nat) (wid : Nat) : List Nat :=
  match widths with
  | [] => []
  | w :: rest => wid % 2 ^ w :: widFields rest (wid / 2 ^ w)

/-- A wid from its fields. -/
def widOf (widths fields : List Nat) : Nat :=
  match widths, fields with
  | w :: ws, f :: fs => f + 2 ^ w * widOf ws fs
  | _, _ => 0

/-- Whether the launch issues this wid (R80): every field below its extent, no bit above the fields. -/
def Header.issues (h : Header) (wid : DWord) : Bool :=
  (widFields h.widths wid.toNat).zip h.exts |>.all (fun (f, e) => f < e)
    |> (· && wid.toNat / 2 ^ h.widths.sum == 0)

/-! ## Scalar and lane registers (R74) -/

def rowGet (r : Row) (i : Nat) : Word := r.getD i 0

/-- A row from a function of the lane. -/
def rowOf (g : Nat → Word) : Row := (List.range Config.lanes).map g

def zeroRow : Row := List.replicate Config.lanes 0

/-- Lane register `r`; a register beyond the launch's reads as 0 and is never named (R38). -/
def Troupe.vrow (t : Troupe) (r : Nat) : Row := t.v.getD r zeroRow

/-- The three words of a mask. -/
def maskWord (m : LaneMask) (j : Nat) : Word := m.extractLsb' (32 * j) 32

def maskOfWords (a b c : Word) : LaneMask := c ++ b ++ a

/-- The mask whose bit i is `g i`. -/
def maskOf (g : Nat → Bool) : LaneMask := BitVec.ofNat 96 ((List.range Config.lanes).foldr (fun i n => 2 * n + (if g i then 1 else 0)) 0)

/-- Scalar register k: s61 to s63 are act0 to act2. -/
def Troupe.sreg (t : Troupe) (k : Nat) : Word :=
  if k < 61 then t.s.getD k 0 else maskWord t.act (k - 61)

/-- A scalar pair, low word first. -/
def Troupe.spair (t : Troupe) (k : Nat) : DWord := t.sreg (k + 1) ++ t.sreg k

/-- Replaces one word of a mask. -/
def maskSetWord (m : LaneMask) (j : Nat) (w : Word) : LaneMask :=
  maskOfWords (if j = 0 then w else maskWord m 0) (if j = 1 then w else maskWord m 1)
    (if j = 2 then w else maskWord m 2)

/-- Writes scalar k; a write to an act register stores 0 for every exited lane (R87). -/
def Troupe.setS (t : Troupe) (k : Nat) (w : Word) : Troupe :=
  if k < 61 then { t with s := putAt t.s k w 0 }
  else { t with act := maskSetWord t.act (k - 61) w &&& ~~~t.exited }

def Troupe.setSPair (t : Troupe) (k : Nat) (w : DWord) : Troupe :=
  (t.setS k (w.extractLsb' 0 32)).setS (k + 1) (w.extractLsb' 32 32)

def Troupe.setTriple (t : Troupe) (k : Nat) (m : LaneMask) : Troupe :=
  ((t.setS k (maskWord m 0)).setS (k + 1) (maskWord m 1)).setS (k + 2) (maskWord m 2)

/-- The mask in a scalar triple. -/
def Troupe.triple (t : Troupe) (k : Nat) : LaneMask := maskOfWords (t.sreg k) (t.sreg (k + 1)) (t.sreg (k + 2))

/-- Whether lane i is active. -/
def Troupe.active (t : Troupe) (i : Nat) : Bool := t.act.getLsbD i

/-- Writes a lane register in the lanes of a mask; the others keep their value (R78). -/
def Troupe.setV (t : Troupe) (r : Nat) (m : LaneMask) (g : Nat → Word) : Troupe :=
  { t with v := t.v.set r (rowOf fun i => if m.getLsbD i then g i else rowGet (t.vrow r) i) }

/-! ## Acts and latches (R48, R51) -/

/-- What an instruction leaves in its latch (R51). -/
inductive LatchVal where
  | none
  | lane (g : List DWord)
  | uni (w : DWord)
  deriving DecidableEq, Repr

def ActPos.fresh : ActPos :=
  { laneLatch := List.replicate 4 none, uniLatch := List.replicate 4 none, kLane := 0, kUni := 0 }

/-- Counts one instruction of a set and leaves its latch. -/
def ActPos.advance (p : ActPos) (uniform : Bool) (l : LatchVal) : ActPos :=
  if uniform then
    { p with kUni := p.kUni + 1,
             uniLatch := putAt p.uniLatch (p.kUni % 4) (match l with | .uni w => some w | _ => none) none }
  else
    { p with kLane := p.kLane + 1,
             laneLatch := putAt p.laneLatch (p.kLane % 4) (match l with | .lane g => some g | _ => none) none }

/-- Puts one lane of a lane latch that holds a value. -/
def ActPos.setLane (p : ActPos) (k i : Nat) (w : DWord) : ActPos :=
  { p with laneLatch := listModify p.laneLatch k fun g => g.map fun xs => xs.set i w }

/-- A value that arrives for a latch of act `act`: of the running act, or of the act a trap saved (R49). -/
def Troupe.latchLane (t : Troupe) (act k i : Nat) (w : DWord) : Troupe :=
  if t.actSerial = act then { t with pos := t.pos.setLane k i w }
  else match t.saved with
    | some v => if v.serial = act then { t with saved := some { v with pos := v.pos.setLane k i w } } else t
    | none => t

/-- Writes one lane of a lane register. -/
def Troupe.setVLane (t : Troupe) (r i : Nat) (w : Word) : Troupe :=
  { t with v := listModify t.v r fun row => putAt row i w 0 }

/-- Instructions of the act so far. -/
def ActPos.count (p : ActPos) : Nat := p.kLane + p.kUni

/-- Starts a new act: no latches, position 0. -/
def Troupe.newAct (t : Troupe) : Troupe :=
  { t with pos := ActPos.fresh, actSerial := t.actNext, actNext := t.actNext + 1 }

/-- The latch values of a lane result: the result in the active lanes, 0 in the others. -/
def laneLatchOf (m : LaneMask) (g : Nat → DWord) : LatchVal :=
  .lane ((List.range Config.lanes).map fun i => if m.getLsbD i then g i else 0)

/-- The quarter of a troupe arbitrates again: it runs nothing (R137). -/
def State.releaseQuarter (s : State) (t : Troupe) : State :=
  s.updCore t.core fun c =>
    { c with quarters := listModify c.quarters t.quarter fun q =>
        if q.running == some t.uid then { q with running := none } else q }

/-- The same for a troupe that turns out not to be ready (R136): the arbitration that chose it did not take place. -/
def State.unchoose (s : State) (t : Troupe) : State :=
  s.updCore t.core fun c =>
    { c with quarters := listModify c.quarters t.quarter fun q =>
        if q.running == some t.uid then { q with running := none, last := q.prev } else q }

/-! ## Traps (R88-R94) -/

/-- Trap codes (R90). -/
def cIllegalOpcode : Nat := 0x1
def cIllegalOperand : Nat := 0x2
def cIllegalLatch : Nat := 0x3
def cStackOverflow : Nat := 0x4
def cBadTarget : Nat := 0x5
def cMisaligned : Nat := 0x6
def cPermission : Nat := 0x7
def cSpadRange : Nat := 0x8
def cGangMismatch : Nat := 0x9
def cSealReject : Nat := 0xA
def cRecordInvalid : Nat := 0xB
def cRegionRange : Nat := 0xC
def cUnbalanced : Nat := 0xD
def cEmptyTimeout : Nat := 0xE
def cEngineFault : Nat := 0xF
def cPoisonConsumed : Nat := 0x10

/-- Marks a launch as ended with a status code (R332); the first code stands. -/
def State.endLaunch (s : State) (lid code : Nat) (tcause : Word) (tpc : DWord) : State :=
  s.updLaunch lid fun l =>
    if l.ending.isSome || l.statusDone then l
    else { l with ending := some code, tcause := tcause, tpc := tpc }

/-- Takes a trap in troupe `t` of state `s` (R92): the cause registers are set, the act and its masks are saved,
and the handler starts in a new act. A trap in the handler is a double trap, which ends the launch (R94). -/
def State.takeTrap (s : State) (t : Troupe) (tcause : Word) (taddr : DWord) (mask : LaneMask) (r : Resume) :
    State :=
  if t.trap then (s.endLaunch t.lid 5 tcause t.pc).releaseQuarter t
  else
    let handler := match s.launch? t.lid with
      | some l => l.hdr.handler
      | none => 0
    let t' : Troupe :=
      { t with tcause := tcause, tpc := t.pc, taddr := taddr, tmask := mask, trap := true,
               saved := some { act := t.act, fmt := t.fmt, depth := t.stack.length, pos := t.pos,
                               serial := t.actSerial, resume := r },
               pc := handler, park := .run, declined := [] }
    (s.setTroupe t'.newAct).releaseQuarter t

/-- RET while the trap state is 1 (R93). [log 17] -/
def Troupe.returnFromTrap (t : Troupe) : Troupe :=
  match t.saved with
  | none => { t with trap := false }
  | some v =>
    let r := v.resume
    let back : Troupe :=
      { t with stack := t.stack.drop (t.stack.length - v.depth), act := v.act &&& ~~~t.exited, fmt := v.fmt,
               trap := false, saved := none }
    if r.fetch then { back with pc := t.tpc + 4 }.newAct
    else
      let latch : LatchVal :=
        if r.leaves then (if r.laneSet then .lane (List.replicate Config.lanes 0) else .uni 0) else .none
      let back := { back with pc := t.tpc + BitVec.ofNat 64 r.len }
      if r.ends then back.newAct
      else { back with pos := v.pos.advance (!r.laneSet) latch, actSerial := v.serial }

/-- The trap of several lanes (R91): the lowest code, the lanes that raised it, the address of the first. Each
lane is given with its code and address. -/
def lowestTrap (raised : List (Nat × Nat × DWord)) : Option (Nat × DWord × LaneMask) :=
  match raised with
  | [] => none
  | (_, c0, _) :: rest =>
    let code := rest.foldl (fun c (_, c', _) => min c c') c0
    let those := raised.filter fun (_, c, _) => c == code
    let addr := match those with
      | (_, _, a) :: _ => a
      | [] => 0
    some (code, addr, maskOf fun i => those.any fun (l, _, _) => l == i)

end Sys2Proof.Machine
end

