-- ==== Sys2Proof/Machine/Memory.lean ====
section
/-!
DEFINITION. The memory system below the load-store units: the address map (R296), home L2 slices, ownership, RDC and
L1 (R145, R237-R245), compressed lines (R324, R325), what a write does at a registered succinct region (R273, R281),
page tables and translation (R246-R248, R321), page faults (R340).
-/
namespace Sys2Proof.Machine

/-! ## The address map (R296, R297) -/

/-- The kinds of memory. -/
inductive WKind where
  | hbm
  | lpddr
  | host
  deriving DecidableEq, Repr

/-- Whether the product form has a die: N9D has die 0 alone (R1). -/
def State.dieIn (s : State) (d : Nat) : Bool := s.boot.record.form != .die || d == 0

/-- The stacks of a die in service (R359). -/
def State.stacksOf (s : State) (d : Nat) : List Nat :=
  [0, 1, 2].filter fun st => s.boot.bootstat.getLsbD (3 * d + st)

/-- Bytes of a die's HBM window. -/
def State.hbmSize (s : State) (d : Nat) : Nat :=
  if s.boot.record.form = .die ∧ d ≠ 0 then 0
  else match (s.stacksOf d).length with
    | 3 => 192 * (2 ^ 30 - 64)
    | 2 => 192 * 715827840
    | _ => 0

/-- In the recovery state the Ringmaster takes no launch (R359); nor does it before a start is complete. [log 111] -/
def State.recovery (s : State) : Bool := s.boot.bootstat.getLsbD 27 || !s.boot.bootstat.getLsbD 28

/-- The window of a physical address and its home die. -/
def State.window? (s : State) (pa : Nat) : Option (WKind × Nat) :=
  if pa < 2 ^ 40 then
    if pa % 2 ^ 38 < s.hbmSize (pa / 2 ^ 38) then some (.hbm, pa / 2 ^ 38) else none
  else if pa < 2 ^ 41 then
    let d := (pa - 2 ^ 40) / 2 ^ 38
    if pa % 2 ^ 38 < 2 ^ 38 - 64 ∧ s.boot.bootstat.getLsbD (12 + d) then some (.lpddr, d) else none
  else if 2 ^ 51 ≤ pa ∧ pa < 2 ^ 52 then some (.host, 0)
  else none

/-- HOME(pa) (R296); 0 outside every window. -/
def State.homeDie (s : State) (pa : Nat) : Nat :=
  match s.window? pa with
  | some (_, d) => d
  | none => 0

def l2Slice (line : Nat) : Nat := (line ^^^ (line >>> 5) ^^^ (line >>> 10)) % 32
def rdcSlice (line : Nat) : Nat := (line ^^^ (line >>> 4) ^^^ (line >>> 8)) % 16

/-- ROWADDR (R297). -/
def State.rowAddr (s : State) (d st pc row bank : Nat) : Nat :=
  match s.stacksOf d with
  | [a, b] =>
    let k := if st = a then 0 else if st = b then 1 else 0
    d * 2 ^ 38 + 192 * (128 * (16 * row + bank) + 64 * k + pc)
  | _ => d * 2 ^ 38 + 192 * (192 * (16 * row + bank) + 64 * st + pc)

/-! ## Where an access goes -/

/-- Page entry bits (R247). -/
def entryV (e : DWord) : Bool := e.getLsbD 0
def entryL (e : DWord) : Bool := e.getLsbD 1
def entryR (e : DWord) : Bool := e.getLsbD 2
def entryW (e : DWord) : Bool := e.getLsbD 3
def entryX (e : DWord) : Bool := e.getLsbD 4
def entryCls (e : DWord) : Nat := bitsOf e.toNat 6 5
def entryWT (e : DWord) : Bool := e.getLsbD 7
def entryCMP (e : DWord) : Bool := e.getLsbD 8
def entryPIN (e : DWord) : Bool := e.getLsbD 9
def entryCAP (e : DWord) : Bool := e.getLsbD 10
def entryFrame (e : DWord) : Nat := bitsOf e.toNat 51 16 * 65536

/-- The number that the line of a compressed page with this slot 0 goes under: slot 0 need not stand at a multiple of 192
(R324), so these numbers are apart from those of physical lines. -/
def compressedKey (slot0 : Nat) : Nat := 2 ^ 60 + slot0

/-- The physical address at which a line starts, slot 0 of a compressed page's line, and the number L that the slice functions
take of it (R237). -/
def lineStart (line : Nat) : Nat := if line < 2 ^ 60 then 192 * line else line - 2 ^ 60
def lineNo (line : Nat) : Nat := lineStart line / 192

/-- The place of physical address `pa` of a page with this entry and size. -/
def State.loc (s : State) (pa : Nat) (e : DWord) (psize : Nat) : Loc :=
  let host := match s.window? pa with | some (.host, _) => true | _ => false
  if entryCMP e then
    let frame := entryFrame e
    let j := (pa - frame) / 192
    let slot0 := frame + 192 * j
    { line := compressedKey slot0, off := (pa - frame) % 192, host := host, die := s.homeDie slot0, wt := entryWT e,
      cls := entryCls e, cmp := some (slot0, psize) }
  else
    { line := pa / 192, off := pa % 192, host := host, die := s.homeDie pa, wt := entryWT e, cls := entryCls e,
      cmp := none }

/-- The place of a physical address used without a page entry: page tables, queues, registers. -/
def State.rawLoc (s : State) (pa : Nat) : Loc := s.loc pa 0 65536

/-- The number a byte's poison is kept under. -/
def Loc.byte (l : Loc) : Nat := 192 * l.line + l.off

/-! ## Memory-side views -/

/-- The newest copy of a line that some L1 owns, if any (R245). -/
def State.ownedCopy (s : State) (line : Nat) : Option L1Line :=
  s.cores.findSome? fun c => c.l1.find? fun x => x.line == line && x.owned

def State.l2Get (s : State) (line : Nat) : Option L2Line := s.l2.find? (·.line == line)

/-- A byte as the coherence order has it now, of an uncompressed page: owned copy, home L2, or below (R245). -/
def State.peek (s : State) (pa : Nat) : Byte :=
  match s.ownedCopy (pa / 192) with
  | some x => x.data.getD (pa % 192) 0
  | none => match s.l2Get (pa / 192) with
    | some x => x.data.getD (pa % 192) 0
    | none => cellGet s.mem pa

def State.peekNat (s : State) (pa n : Nat) : Nat := leNat ((List.range n).map fun i => s.peek (pa + i))

/-- The same for `n` bytes of a line from a place. -/
def State.look (s : State) (l : Loc) (n : Nat) (below : Nat → Option (Nat × Nat) → List Byte) : List Byte :=
  match s.ownedCopy l.line with
  | some x => (x.data.drop l.off).take n
  | none => match s.l2Get l.line with
    | some x => (x.data.drop l.off).take n
    | none => if l.host || l.cmp.isNone then bytesAt s.mem l.byte n else ((below l.line l.cmp).drop l.off).take n

/-- The metadata nibble of a compressed line (R324): its byte's address and its shift. -/
def State.metaAt (s : State) (slot0 : Nat) : Nat × Nat :=
  let d := slot0 / 2 ^ 38
  let l := slot0 % 2 ^ 38 / 192
  ((s.die d).cmtbase.toNat + l / 2, 4 * (l % 2))

/-- The metadata of a compressed line (R324). [log 32] -/
def State.metaGet (s : State) (slot0 : Nat) : Nat :=
  let (a, sh) := s.metaAt slot0
  (s.peek a).toNat / 2 ^ sh % 16

/-- The plain bytes of a compressed line as the memory-side cache has them (R299, R324). [log 32] -/
def State.plainLine (s : State) (slot0 psize : Nat) : List Byte :=
  match (s.msc.find? (·.line == compressedKey slot0)).bind (·.coded) with
  | some (_, data) => data
  | none =>
  let m := s.metaGet slot0
  if m / 8 = 1 then List.replicate 192 0
  else
    let slot := if m / 4 % 2 = 1 then slot0 + psize else slot0
    match s.coded.find? (·.slot == slot) with
    | some c => c.data
    | none =>
      let raw := bytesAt s.mem slot (48 * (m % 4 + 1))
      (List.range 192).map fun i => Config.decodedByte raw i

/-- A whole line at or below the memory-side cache. -/
def State.lineBelow (s : State) (line : Nat) (cmp : Option (Nat × Nat)) : List Byte :=
  match cmp with
  | none => bytesAt s.mem (192 * line) 192
  | some (slot0, psize) => s.plainLine slot0 psize

/-! ## Registered regions (R271-R275, R281) -/

def RegionRec.nb (r : RegionRec) : Nat := (r.cap + 1535) / 1536
def RegionRec.ns (r : RegionRec) : Nat := (r.nb + 63) / 64
/-- DSIZE (R273). -/
def RegionRec.dsize (r : RegionRec) : Nat := (384 + 384 * r.ns + 8 * r.nb + 191) / 192 * 192
def RegionRec.ssize (r : RegionRec) : Nat := 192 * r.nb

/-- Virtual to physical through a list of (virtual page, physical page, size). -/
def pagePhys (m : List (Nat × Nat × Nat)) (va : Nat) : Nat :=
  match m.find? fun (v, _, sz) => v ≤ va && va < v + sz with
  | some (v, p, _) => p + (va - v)
  | none => 0

/-- Physical to virtual. -/
def pageVirt? (m : List (Nat × Nat × Nat)) (pa : Nat) : Option Nat :=
  (m.find? fun (_, p, sz) => p ≤ pa && pa < p + sz).map fun (v, p, _) => v + (pa - p)

/-- The physical byte ranges of an area. -/
def areaRanges (pages : List (Nat × Nat × Nat)) (va n : Nat) : List (Nat × Nat) :=
  pages.filterMap fun (v, p, sz) =>
    let lo := max v va
    let hi := min (v + sz) (va + n)
    if lo < hi then some (p + (lo - v), hi - lo) else none

/-- The block of a registered region that holds a physical byte of its string. -/
def Region.blockOf? (g : Region) (pa : Nat) : Option Nat :=
  match pageVirt? g.smap pa with
  | some va => if g.r.sbase ≤ va ∧ va < g.r.sbase + g.r.ssize then some ((va - g.r.sbase) / 192) else none
  | none => none

/-- Whether a physical byte lies in a registered directory. -/
def Region.inDirectory (g : Region) (pa : Nat) : Bool :=
  match pageVirt? g.dmap pa with
  | some va => g.r.dbase ≤ va && va < g.r.dbase + g.r.dsize
  | none => false

def State.directoryByte (s : State) (die pa : Nat) : Bool := (s.die die).regions.any (·.inDirectory pa)

/-- Bytes reach the memory-side cache (R299): each of their lines is dirty there from then on, over the bytes that DRAM
holds. [log 29] -/
def State.sideDirty (s : State) (pa n : Nat) : State :=
  (List.range ((pa + n + 191) / 192 - pa / 192)).foldl (fun s i =>
    let line := pa / 192 + i
    if s.msc.any (·.line == line) then s
    else { s with msc := { line := line, below := bytesAt s.mem (192 * line) 192, coded := none } :: s.msc }) s

/-- Bytes go to DRAM itself: they show, and a dirty line of the memory-side cache holds them beneath too. -/
def State.dramPut (s : State) (pa : Nat) (bs : List Byte) : State :=
  { s with
    mem := putBytes s.mem pa bs
    msc := s.msc.map fun x =>
      { x with below := x.below.zipIdx.map fun (b, i) =>
          let a := 192 * x.line + i
          if pa ≤ a && a < pa + bs.length then bs.getD (a - pa) b else b } }

/-- A reset takes the memory-side caches' dirty lines (R299): DRAM's bytes show again, but for the sectors of a line that was
being written back (R302). [log 109, 122] -/
def State.loseSide (s : State) : State :=
  let s := s.msc.foldl (fun s x =>
    let old := x.below.zipIdx.filter fun (_, i) => !Config.sectorWritten (s.freeCtr + i / 48)
    { s with
      mem := old.foldl (fun m (b, i) => cellPut m (192 * x.line + i) b) s.mem
      freeCtr := s.freeCtr + 4 }) s
  { s with msc := [] }

/-- A write of the memory side itself: below the home L2, and into a clean copy the slice may hold, so that a load
of a directory returns its bytes (R273); remote-data copies of its lines are dropped. -/
def State.sidePut (s : State) (pa : Nat) (bs : List Byte) : State :=
  let s := s.sideDirty pa bs.length
  { s with
    mem := putBytes s.mem pa bs
    dieUnits := s.dieUnits.map fun d =>
      { d with rdc := d.rdc.filter fun x => !(pa / 192 ≤ x.line && x.line ≤ (pa + bs.length - 1) / 192) }
    l2 := s.l2.map fun x =>
      { x with data := x.data.zipIdx.map fun (b, i) =>
          let a := 192 * x.line + i
          if x.cmp.isNone && pa ≤ a && a < pa + bs.length then bs.getD (a - pa) b else b } }

def Region.dirPa (g : Region) (off : Nat) : Nat := pagePhys g.dmap (g.r.dbase + off)

/-- A field of a region's directory, and its replacement. -/
def State.dirGet (s : State) (g : Region) (off n : Nat) : Nat :=
  leNat ((List.range n).map fun i => cellGet s.mem (g.dirPa (off + i)))

def State.dirPut (s : State) (g : Region) (off n v : Nat) : State :=
  (leBytes n v).zipIdx.foldl (fun s (b, i) => s.sidePut (g.dirPa (off + i)) [b]) s

def RegionRec.blockOff (r : RegionRec) (b : Nat) : Nat := 384 + 384 * r.ns + 8 * b
def RegionRec.superOff (_ : RegionRec) (k : Nat) : Nat := 384 + 384 * k

/-- Marks a block stale (R281): its entry, its superblock's, and SWM. A repair of it that is under way is discarded (R282).
[log 123] -/
def State.markBlock (s : State) (g : Region) (b : Nat) : State :=
  let r := g.r
  let s := s.updDie r.hdie fun d =>
    { d with regions := d.regions.map fun g' =>
        if g'.ra == g.ra && g'.root == g.root && g'.repairing.any (·.1 == b) then { g' with repairing := none } else g' }
  let e := s.dirGet g (r.blockOff b + 5) 1
  let s := s.dirPut g (r.blockOff b + 5) 1 (e % 128 + 128)
  let u := s.dirGet g (r.superOff (b / 64) + 7) 1
  let s := s.dirPut g (r.superOff (b / 64) + 7) 1 (u % 128 + 128)
  let swm := s.dirGet g 0x14 4
  s.dirPut g 0x14 4 (min swm (b / 64 + 1))

/-- The blocks of a registered region that some of `n` physical bytes belong to. -/
def Region.blocksAt (g : Region) (pa n : Nat) : List Nat := ((List.range n).filterMap fun i => g.blockOf? (pa + i)).eraseDups

/-- R281, R282: a write of `n` bytes reaches the memory side of `die`. -/
def State.markWrite (s : State) (die pa n : Nat) : State :=
  (s.die die).regions.foldl (fun s g => (g.blocksAt pa n).foldl (fun s b => s.markBlock g b) s) s

/-- The banks of a mask, with the replicas of a .dup command (R310). -/
def banksOf (m : BitVec 16) (dup : Bool) : List Nat :=
  ((List.range 16).filter m.getLsbD).flatMap fun b => if dup then [b, b + 5, b + 10] else [b]

/-- Whether a physical byte lies in the footprint of the command that a sequencer runs (R310, R312). -/
def State.inFootprint (s : State) (q : Sequencer) (b : Nat) : Bool :=
  match q.run with
  | none => false
  | some r =>
    let a := r.args
    let n := (b - q.die * 2 ^ 38) / 192 / (64 * (s.stacksOf q.die).length)
    q.die * 2 ^ 38 ≤ b && a.fr ≤ n / 16 && n / 16 ≤ a.fr + a.nr - 1 + a.offmax && (banksOf a.banks a.dup).contains (n % 16)
      && s.rowAddr q.die q.stack q.pc (n / 16) (n % 16) ≤ b && b < s.rowAddr q.die q.stack q.pc (n / 16) (n % 16) + 192

/-- Whether accesses to `n` physical bytes wait at the memory side of a die: in a string that an edit holds locked (R287), or
in the footprint of a bank command under way (R312). [log 63] -/
def State.bytesHeld (s : State) (die a n : Nat) : Bool :=
  ((s.die die).regions.any fun g => g.edit.isSome && (List.range n).any fun i => (g.blockOf? (a + i)).isSome)
    || s.sequencers.any fun q => q.run.isSome && (List.range n).any fun i => s.inFootprint q (a + i)

/-- The physical bytes that `n` bytes of a line may stand in: a compressed page's line has two slots (R324). -/
def physSpans (line off n : Nat) (cmp : Option (Nat × Nat)) : List (Nat × Nat) :=
  match cmp with
  | none => [(192 * line + off, n)]
  | some (slot0, psize) => [(slot0, 192), (slot0 + psize, 192)]

/-! ## Writing a line down (R240, R299, R325) -/

def allZero (bs : List Byte) : Bool := bs.all (· == 0)

/-- Copy-on-write of a compressed line (R325). [log 32] -/
def State.codedPut (s : State) (slot0 psize : Nat) (data : List Byte) : State :=
  let m := s.metaGet slot0
  let toOne := m / 4 % 2 = 0
  let slot := if toOne then slot0 + psize else slot0
  let other := if toOne then slot0 else slot0 + psize
  let ns := (Config.codedSectors data).toNat
  let nib := (if allZero data then 8 else 0) + (if toOne then 4 else 0) + (if allZero data then 0 else ns)
  let (ma, sh) := s.metaAt slot0
  let old := (s.peek ma).toNat
  let newByte := BitVec.ofNat 8 (old - old / 2 ^ sh % 16 * 2 ^ sh + nib * 2 ^ sh)
  let s := if allZero data then s
    else s.dramPut slot ((List.range (48 * (ns + 1))).map fun i => Config.codedByte data i)
  let s := { s with coded := { slot := slot, other := other, first := slot0, data := data }
                      :: s.coded.filter (·.slot != slot)
                    poison := s.poison.filter fun b => !(slot ≤ b && b < slot + 192) }
  (s.sidePut ma [newByte]).dramPut ma [newByte]

/-- The physical bytes that a dirty line of a memory-side cache may be written to. -/
def SideLine.spans (x : SideLine) : List (Nat × Nat) :=
  physSpans x.line 0 192 (x.coded.map fun (psize, _) => (lineStart x.line, psize))

/-- Dirty lines of a memory-side cache that `keep` does not name are written to memory (R302, R312, R319, R325). [log 29] -/
def State.sideClean (s : State) (keep : SideLine → Bool) : State :=
  (s.msc.filter fun x => !keep x).foldl (fun s x =>
    match x.coded with
    | some (psize, data) => s.codedPut (lineStart x.line) psize data
    | none => s) { s with msc := s.msc.filter keep }

/-- A slice of 32 MiB that is full of dirty lines writes the one down that has been dirty longest (R299). [log 29] -/
def State.sideRoom (s : State) (line : Nat) : State :=
  if s.msc.length < Config.sideSliceLines then s
  else
    let mine := s.msc.filter fun x => l2Slice (lineNo x.line) == l2Slice (lineNo line)
    match mine.getLast? with
    | some x => if mine.length < Config.sideSliceLines then s else s.sideClean (·.line != x.line)
    | none => s

/-- What `n` bytes of a line at or below the memory-side cache are poisoned: those at these offsets of the line (R167). -/
def State.poisonBelow (s : State) (l : Loc) (n : Nat) (bad : List Nat) : State :=
  { s with poison := (s.poison.filter fun b => !(l.byte ≤ b && b < l.byte + n))
      ++ (bad.filter fun i => l.off ≤ i && i < l.off + n).map (192 * l.line + ·) }

/-- Writes bytes of a line to the memory side (R240, R299); writes to a registered directory are ignored (R273). -/
def State.putBelow (s : State) (l : Loc) (bs whole : List Byte) : State :=
  let s := s.sideRoom l.line
  match l.cmp with
  | some (_, psize) =>
    { s with msc := { line := l.line, below := [], coded := some (psize, whole) } :: s.msc.filter (·.line != l.line) }
  | none =>
    let pa := l.byte
    let s := (s.markWrite l.die pa bs.length).sideDirty pa bs.length
    { s with mem := bs.zipIdx.foldl (fun m (b, i) =>
        if s.directoryByte l.die (pa + i) then m else cellPut m (pa + i) b) s.mem }

def State.l2Put (s : State) (x : L2Line) : State :=
  { s with l2 := if s.l2.any (·.line == x.line) then s.l2.map fun y => if y.line == x.line then x else y
      else x :: s.l2 }

/-- The home die of an L2 line. -/
def State.lineDie (s : State) (x : L2Line) : Nat :=
  match x.cmp with
  | some (slot0, _) => s.homeDie slot0
  | none => s.homeDie (192 * x.line)

/-- The place of a home L2 line. -/
def State.lineLoc (s : State) (x : L2Line) : Loc :=
  { line := x.line, off := 0, host := false, die := s.lineDie x, wt := false, cls := x.cls, cmp := x.cmp }

/-- Writes a dirty home L2 line to the memory-side cache; it stays, clean. -/
def State.writeDown (s : State) (line : Nat) : State :=
  match s.l2Get line with
  | some x =>
    if x.dirty then
      let l := s.lineLoc x
      ((s.l2Put { x with dirty := false }).putBelow l x.data x.data).poisonBelow l 192 x.bad
    else s
  | none => s

/-! ## Home L2, ownership, RDC -/

/-- Home recalls a line's ownership (R244): the owner writes it back if dirty and releases it. -/
def State.recall (s : State) (line : Nat) : State :=
  match s.ownedCopy line with
  | none => s
  | some x =>
    let s := { s with cores := s.cores.map fun c =>
      { c with l1 := c.l1.map fun y => if y.line == line && y.owned then { y with owned := false, dirty := false } else y } }
    if x.dirty then
      match s.l2Get line with
      | some y => s.l2Put { y with data := x.data, dirty := true }
      | none => s.l2Put { line := line, data := x.data, dirty := true, cls := 0, sharers := 0, cmp := none, bad := [] }
    else s

/-- The invalidations of a line that are on their way to a die arrive there (R242). -/
def State.settleInval (s : State) (die line : Nat) : State :=
  if s.invals.any fun x => x.die == die && x.line == line then
    { s.updDie die (fun d => { d with rdc := d.rdc.filter (·.line != line) }) with
      invals := s.invals.filter fun x => !(x.die == die && x.line == line) }
  else s

/-- A die's RDC drops a line. [log 28] -/
def State.dropRdc (s : State) (die line : Nat) : State :=
  s.updDie die fun d => { d with rdc := d.rdc.filter (·.line != line) }

/-- Evicts a home L2 line (R240, R242, R245): its ownership is recalled, its remote copies go first, and a dirty line is
written down. -/
def State.evictLine (s : State) (line : Nat) : State :=
  let s := s.recall line
  match s.l2Get line with
  | none => s
  | some x =>
    let ds := (List.range 4).filter fun d => x.sharers.getLsbD d
    let s := (ds.foldl (fun s d => s.settleInval d line) s).writeDown line
    let s := ds.foldl (fun s d => s.dropRdc d line) s
    { s with l2 := s.l2.filter fun y => y.line != line }

/-- The quota of a class on a die (R241). -/
def State.l2Quota (s : State) (die cls : Nat) : Nat := bitsOf (s.die die).l2quota.toNat (5 * cls + 4) (5 * cls)

/-- The home slice and the set of a line (R237, R240). [log 7] -/
def slotOf (line : Nat) : Nat × Fin 1024 := (l2Slice (lineNo line), Config.l2Set (lineNo line))

/-- The line that a fill of a place evicts (R241): the least recently used one of its class when that holds its quota of
the set, or of the whole set when the sixteen ways are full. The set matters only once so many lines are held. [log 7] -/
def State.l2Victim? (s : State) (l : Loc) : Option Nat :=
  let quota := s.l2Quota l.die l.cls
  let mine := s.l2.filter fun x => s.lineDie x == l.die
  if mine.length < min 16 quota then none
  else
    let set_ := mine.filter fun x => slotOf x.line == slotOf l.line
    let ours := set_.filter (·.cls == l.cls)
    if ours.length ≥ quota then ours.getLast?.map (·.line)
    else if set_.length ≥ 16 then set_.getLast?.map (·.line)
    else none

/-- Whether the memory side holds back the eviction of a line: it is dirty, and its bytes are held there. -/
def State.evictHeld (s : State) (line : Nat) : Bool :=
  match s.l2Get line with
  | none => false
  | some x => (x.dirty || (s.ownedCopy line).any (·.dirty))
      && (physSpans line 0 192 x.cmp).any fun (a, m) => s.bytesHeld (s.lineDie x) a m

/-- Whether accesses to `n` bytes at a place wait at the memory side: their own bytes are held there, or those of the dirty line
that their line would evict from its home L2 slice are. -/
def State.sideHeld (s : State) (l : Loc) (n : Nat) : Bool :=
  ((physSpans l.line l.off n l.cmp).any fun (a, m) => s.bytesHeld l.die a m)
    || ((s.sequencers.any (·.run.isSome) || (s.die l.die).regions.any (·.edit.isSome)) && !l.host && (s.l2Get l.line).isNone
        && (s.l2Victim? l).any s.evictHeld)

/-- The poisoned offsets of a line at or below the memory-side cache. -/
def State.badBelow (s : State) (line : Nat) : List Nat :=
  (s.poison.filter fun b => b / 192 == line).map (· % 192)

/-- A core's prediction of a compressed line's sectors may fail, which its die counts (R325). [log 122] -/
def State.predict (s : State) (l : Loc) : State :=
  match l.cmp with
  | none => s
  | some _ =>
    let wrong := Config.mispredicts s.freeCtr
    { s.updDie l.die (fun d => { d with cmpmispred := if wrong then stick d.cmpmispred 1 else d.cmpmispred }) with
      freeCtr := s.freeCtr + 1 }

/-- Brings the line of a place into its home L2 slice (R240, R241), as its most recently used one. [log 73] -/
def State.fill (s : State) (l : Loc) : State :=
  match s.l2Get l.line with
  | some x => { s with l2 := x :: s.l2.filter fun y => y.line != l.line }
  | none =>
    let s := match s.l2Victim? l with
      | some v => s.evictLine v
      | none => s
    (s.predict l).l2Put { line := l.line, data := s.lineBelow l.line l.cmp, dirty := false, cls := l.cls, sharers := 0,
                          cmp := l.cmp, bad := s.badBelow l.line }

/-- Reads at the home slice, or at the link for host memory (R296, R341). -/
def State.homeRead (s : State) (l : Loc) (n : Nat) : State × List Byte :=
  if l.host then (s, bytesAt s.mem l.byte n)
  else
    let s := (s.recall l.line).fill l
    match s.l2Get l.line with
    | some x => (s, (x.data.drop l.off).take n)
    | none => (s, [])

/-- Invalidations to every sharer of a line but the writer's die (R242), caused by troupe `uid`. [log 112] -/
def State.invalidateSharers (s : State) (line writerDie uid : Nat) : State :=
  match s.l2Get line with
  | some x =>
    let ds := (List.range 4).filter fun d => x.sharers.getLsbD d && d != writerDie
    { s.l2Put { x with sharers := 0 } with
      invals := s.invals ++ ds.map fun d => { die := d, line := line, uid := uid } }
  | none => s

def listSet {α : Type} (xs : List α) (at_ : Nat) (ys : List α) : List α :=
  xs.take at_ ++ ys ++ xs.drop (at_ + ys.length)

/-- A registered directory takes no byte of a write (R273): the bytes that stay. -/
def State.keepDirectory (s : State) (l : Loc) (bs : List Byte) (old : List Byte) : List Byte :=
  bs.zipIdx.map fun (b, i) =>
    if l.cmp.isNone && s.directoryByte l.die (l.byte + i) then old.getD i b else b

/-! ## Monitors (R257-R260) -/

def signedLt (w a b : Nat) : Bool :=
  let f (x : Nat) : Int := if x < 2 ^ (w - 1) then x else (x : Int) - 2 ^ w
  f a < f b

/-- MEM CMP v (R257). -/
def monitorHolds (cmp : Nat) (wide : Bool) (m v : Nat) : Bool :=
  let w := if wide then 64 else 32
  match cmp with
  | 0 => m == v
  | 1 => m != v
  | 2 => signedLt w m v
  | 3 => !signedLt w m v
  | 4 => m < v
  | _ => m ≥ v

/-- Invalidates a core's L1, the owned lines apart (R145). -/
def State.acquireL1 (s : State) (core : Nat) : State :=
  s.updCore core fun c => { c with l1 := c.l1.filter (·.owned) }

/-- An acquire at a scope (1 troupe to 6 system): from company scope on it invalidates L1 (R145). -/
def State.acquireAt (s : State) (core scope : Nat) : State := if scope ≥ 2 then s.acquireL1 core else s

/-- Lets a troupe that is parked for a monitor continue (R258, R259). -/
def State.wakeMonitor (s : State) (uid : Nat) : State :=
  match s.troupe? uid with
  | some t =>
    match t.park with
    | .monitor scope =>
      let s := s.updTroupe uid fun t => { t with park := .run }
      if t.resident then s.acquireAt t.core scope else s
    | _ => s
  | none => s

/-- Copies of a line that a core reads through and that may be older than what its troupe has read at home go (R153). -/
def State.dropOlder (s : State) (core line : Nat) : State :=
  ((s.settleInval (dieOf core) line).dropRdc (dieOf core) line).updCore core fun c =>
    { c with l1 := c.l1.filter fun x => x.line != line || x.owned }

/-- A write performed at home evaluates the monitors on its bytes (R258). -/
def State.evalMonitors (s : State) (l : Loc) (n : Nat) : State :=
  let hit := (s.die l.die).monitors.filter fun m =>
    let w := if m.wide then 8 else 4
    m.pa < l.byte + n && l.byte < m.pa + w
      && (match s.l2Get (m.pa / 192) with
          | some x => monitorHolds m.cmp m.wide (leNat ((x.data.drop (m.pa % 192)).take w)) m.v.toNat
          | none => false)
  let s := s.updDie l.die fun d => { d with monitors := d.monitors.filter fun m => !hit.contains m }
  hit.foldl (fun s m =>
    let s := s.wakeMonitor m.uid
    match s.troupe? m.uid with
    | some t => s.dropOlder t.core l.line
    | none => s) s

/-! ## Counter lines (R249) -/

/-- The counter line some core holds an allowance on that covers part of this home byte range. -/
def State.allowanceLine? (s : State) (byte n : Nat) : Option Loc :=
  s.cores.findSome? fun c =>
    (c.allowances.find? fun a => a.at_.byte < byte + n && byte < a.at_.byte + 192).map (·.at_)

def State.allowanceOf (s : State) (core : Nat) (l : Loc) : Option Nat :=
  ((s.core core).allowances.find? (·.at_.byte == l.byte)).map (·.amount)

def State.dropAllowance (s : State) (core : Nat) (l : Loc) : State :=
  s.updCore core fun c => { c with allowances := c.allowances.filter (·.at_.byte != l.byte) }

/-- Replaces bytes of a line in the home L2 and nothing else; below too on a write-through page (R240). -/
def State.linePut (s : State) (l : Loc) (bs : List Byte) : State :=
  let s := s.fill l
  match s.l2Get l.line with
  | some x =>
    let bs := s.keepDirectory l bs ((x.data.drop l.off).take bs.length)
    let data := listSet x.data l.off bs
    let kept (i : Nat) : Bool := l.cmp.isNone && s.directoryByte l.die (192 * l.line + i)
    let bad := x.bad.filter fun i => !(l.off ≤ i && i < l.off + bs.length) || kept i
    if l.wt then ((s.l2Put { x with data := data, bad := bad }).putBelow l bs data).poisonBelow l bs.length bad
    else s.l2Put { x with data := data, dirty := true, bad := bad }
  | none => s

/-- The place of byte `i` of the line that starts at a place. -/
def Loc.plus (l : Loc) (i : Nat) : Loc :=
  let k := (l.off + i) / 192
  { l with
    line := if l.cmp.isSome then l.line + 192 * k else l.line + k
    off := (l.off + i) % 192
    cmp := l.cmp.map fun (slot0, size) => (slot0 + 192 * k, size) }

/-- A field of a counter line at home. -/
def State.ctrGet (s : State) (l : Loc) (off n : Nat) : Nat :=
  leNat ((List.range n).map fun i =>
    let p := l.plus (off + i)
    match s.l2Get p.line with
    | some x => x.data.getD p.off 0
    | none => (s.lineBelow p.line p.cmp).getD p.off 0)

def State.ctrPut (s : State) (l : Loc) (off n v : Nat) : State :=
  (leBytes n v).zipIdx.foldl (fun s (b, i) => s.linePut (l.plus (off + i)) [b]) s

/-- The first set bit of HOLD at or after CUR, wrapping (R252). -/
def nextHolder (hold cur : Nat) : Option Nat :=
  ((List.range 128).map fun i => (cur + i) % 128).find? fun k => hold.testBit k

/-- Recalls one holder's whole allowance into RESERVE (R252). [log 139] -/
def State.recallHolder (s : State) (l : Loc) (h : Nat) : State :=
  let amount := (s.allowanceOf h l).getD 0
  let s := s.dropAllowance h l
  let s := s.ctrPut l 0x00 8 ((s.ctrGet l 0x00 8 + amount) % 2 ^ 64)
  let s := s.ctrPut l 0x10 16 (s.ctrGet l 0x10 16 - 2 ^ h)
  let s := s.ctrPut l 0x21 1 ((h + 1) % 128)
  s.updDie l.die fun d => { d with dnbcrecall := stick d.dnbcrecall 1 }

/-- Recalls holders in CUR order while `more` of RESERVE says so, at most `fuel` of them. -/
def State.recallWhile (s : State) (l : Loc) (more : Nat → Bool) : Nat → State
  | 0 => s
  | fuel + 1 =>
    if more (s.ctrGet l 0x00 8) then
      match nextHolder (s.ctrGet l 0x10 16) (s.ctrGet l 0x21 1) with
      | some h => (s.recallHolder l h).recallWhile l more fuel
      | none => s
    else s

/-- A store or atomic to an initialised counter line first recalls every allowance (R249). -/
def State.recallAllowances (s : State) (l : Loc) (n : Nat) : State :=
  match s.allowanceLine? l.byte n with
  | some a => s.recallWhile a (fun _ => true) 128
  | none => s

/-- A write performed at home (R240, R242, R249, R258, R273): by the agents of die `writerDie`, for troupe `uid`. [log 112] -/
def State.homeWrite (s : State) (l : Loc) (bs : List Byte) (writerDie uid : Nat) : State :=
  if l.host then { s.poisonBelow l bs.length [] with mem := putBytes s.mem l.byte bs }
  else
    let s := (s.recall l.line).fill l
    let s := s.recallAllowances l bs.length
    let ignored := l.cmp.isNone && (List.range bs.length).any fun i => s.directoryByte l.die (l.byte + i)
    let s := if ignored then s.updDie l.die fun d => { d with bkdirign := stick d.bkdirign 1 } else s
    let s := s.linePut l bs
    let s := s.invalidateSharers l.line writerDie uid
    s.evalMonitors l bs.length

/-- A lane of a core received poisoned data as zero (R362). [log 35] -/
def State.useLost (s : State) (core : Nat) : State :=
  s.updDie (dieOf core) fun d => { d with erruse := stick d.erruse 1 }

/-- Whether any of `n` bytes of a line is poisoned at home (R167). -/
def State.isPoisoned (s : State) (l : Loc) (n : Nat) : Bool :=
  match s.l2Get l.line with
  | some x => x.bad.any fun i => l.off ≤ i && i < l.off + n
  | none => s.poison.any fun b => l.byte ≤ b && b < l.byte + n

/-- Bytes of a line at home are replaced whole: they are poisoned no more (R167). -/
def State.unpoison (s : State) (l : Loc) (n : Nat) : State :=
  match s.l2Get l.line with
  | some x => s.l2Put { x with bad := x.bad.filter fun i => !(l.off ≤ i && i < l.off + n) }
  | none => s.poisonBelow l n []

/-! ## The path of a core -/

/-- A line into an RDC, whose slice of 3 MiB drops the line it has held longest when it is full (R237, R242). -/
def keepRdc (x : CacheLine) (rdc : List CacheLine) : List CacheLine :=
  if rdc.length < Config.rdcSliceLines then x :: rdc
  else
    let slice := rdc.filter fun y => rdcSlice (lineNo y.line) == rdcSlice (lineNo x.line)
    match slice.getLast? with
    | some y => if slice.length < Config.rdcSliceLines then x :: rdc else x :: rdc.filter (·.line != y.line)
    | none => x :: rdc

/-- A whole line for the cores of `die`, through its RDC when the line is homed elsewhere (R237, R242). A poisoned
line is not kept. [log 30] -/
def State.dieRead (s : State) (die : Nat) (l : Loc) : State × List Byte :=
  let l0 := { l with off := 0 }
  if l.host || l.die == die then s.homeRead l0 192
  else
    match (s.die die).rdc.find? (·.line == l.line) with
    | some x => (s, x.data)
    | none =>
      let (s, bs) := s.homeRead l0 192
      if s.isPoisoned l0 192 then (s, bs)
      else
        let s := match s.l2Get l.line with
          | some x => s.l2Put { x with sharers := x.sharers ||| BitVec.ofNat 4 (2 ^ die) }
          | none => s
        (s.updDie die fun d => { d with rdc := keepRdc { line := l.line, data := bs } d.rdc }, bs)

/-- The same for every invalidation on its way to a die, and to all of them: what the cores of the die read from then on is
no older than home (R155). -/
def State.settleDie (s : State) (die : Nat) : State :=
  (s.invals.filter (·.die == die)).foldl (fun s x => s.settleInval x.die x.line) s

/-- Every invalidation on its way arrives. [log 112] -/
def State.settleAll (s : State) : State := s.invals.foldl (fun s x => s.settleInval x.die x.line) s

/-- The read-only cache of a core drops a line. -/
def State.dropRo (s : State) (core line : Nat) : State :=
  s.updCore core fun c => { c with ro := c.ro.filter (·.line != line) }

/-- The ways of a core that serve as the scratchpads of its companies (R143). -/
def State.spadWays (s : State) (core : Nat) : List Nat := (s.companies.filter (·.core == some core)).flatMap (·.wayAt)

/-- The way that a line takes in a core's L1: one of those that serve as L1 (R143). -/
def State.l1WayOf (s : State) (core line : Nat) : Nat :=
  let free := (List.range Config.storeWays).filter fun w => !(s.spadWays core).contains w
  free.getD (Config.l1Way line % free.length) 15

/-- A load of a core: L1, then RDC or home (R145, R162, R164). A poisoned byte makes the load poisoned (R167). [log 33] -/
def State.coreRead (s : State) (core : Nat) (l : Loc) (n : Nat) (ns : Bool) : State × List Byte × Bool :=
  match (s.core core).l1.find? (·.line == l.line) with
  | some x => (s, (x.data.drop l.off).take n, x.owned && s.isPoisoned l n)
  | none =>
    let (s, bs) := s.dieRead (dieOf core) l
    let bad := s.isPoisoned l n
    let s := if ns || s.isPoisoned { l with off := 0 } 192 then s
      else s.updCore core fun c =>
        { c with l1 := { line := l.line, way := s.l1WayOf core l.line, data := bs, owned := false, dirty := false } :: c.l1 }
    (s, (bs.drop l.off).take n, bad)

/-- A core's L1 drops a line. [log 28] -/
def State.dropL1 (s : State) (core line : Nat) : State :=
  s.updCore core fun c => { c with l1 := c.l1.filter (·.line != line) }

/-- A store of a core is performed: in its owned copy, or at home, with its L1 copy updated (R145, R162). -/
def State.coreWrite (s : State) (core : Nat) (l : Loc) (bs : List Byte) (uid : Nat) : State :=
  let put (x : L1Line) : L1Line := { x with data := listSet x.data l.off bs }
  match (s.core core).l1.find? fun x => x.line == l.line && x.owned with
  | some _ =>
    let s := s.unpoison l bs.length
    s.updCore core fun c => { c with l1 := c.l1.map fun x => if x.line == l.line then { put x with dirty := true } else x }
  | none =>
    let s := if l.die == dieOf core then s else s.dropRdc (dieOf core) l.line
    let s := s.homeWrite l bs (dieOf core) uid
    let written := match s.l2Get l.line with
      | some x => if l.host then bs else (x.data.drop l.off).take bs.length
      | none => bs
    s.updCore core fun c => { c with l1 := c.l1.map fun x =>
      if x.line == l.line then { x with data := listSet x.data l.off written } else x }

/-- Whether a virtual address at a place lies on an initialised counter line: the byte STATE of its 192 bytes is 0x01
(R249), in an owned copy where there is one (R244). -/
def State.counterLine (s : State) (l : Loc) (va : Nat) : Bool :=
  let start := l.byte - va % 192
  let p := ({ l with line := start / 192, off := start % 192 } : Loc).plus 0x20
  (s.allowanceLine? l.byte 1).isSome || s.look p 1 s.lineBelow == [1]

/-- Whether an atomic runs at the home slice (R244). [log 27] -/
def State.atomicAtHome (s : State) (core : Nat) (l : Loc) (va : Nat) : Bool :=
  l.host || l.wt || l.cmp.isSome || l.die != dieOf core
    || ((s.die l.die).monitors.any fun m => m.pa / 192 == l.line)
    || s.counterLine l va

/-- Takes a line in exclusive ownership (R244). [log 27] -/
def State.takeOwnership (s : State) (core : Nat) (l : Loc) (uid : Nat) : State :=
  match (s.core core).l1.find? fun x => x.line == l.line && x.owned with
  | some _ => s
  | none =>
    let (s, bs) := s.homeRead { l with off := 0 } 192
    let s := s.invalidateSharers l.line (dieOf core) uid
    s.updCore core fun c =>
      { c with l1 := { line := l.line, way := s.l1WayOf core l.line, data := bs, owned := true, dirty := false }
          :: c.l1.filter (·.line != l.line) }

/-- One atomic access of a core to `n` bytes: answers the old value and writes the new one (R172, R244). The old value
of poisoned bytes is a free value for the new one, and the answer says that they were poisoned (R167). [log 27] -/
def State.coreAtomic (s : State) (core : Nat) (l : Loc) (va n : Nat) (uid : Nat) (new : Nat → Nat) :
    State × Nat × Bool :=
  let bad := s.isPoisoned l n
  let lost := Config.lostValue s.freeCtr % 256 ^ n
  let s := if bad then { s with freeCtr := s.freeCtr + 1 } else s
  if s.atomicAtHome core l va then
    let s := if l.die == dieOf core then s else s.dropRdc (dieOf core) l.line
    let s := (s.recall l.line).recallAllowances l n
    let (s, bs) := s.homeRead l n
    let old := if bad then lost else leNat bs
    let s := s.homeWrite l (leBytes n (new old)) (dieOf core) uid
    (s.dropL1 core l.line, old, bad)
  else
    let s := s.takeOwnership core l uid
    let old := match (s.core core).l1.find? (·.line == l.line) with
      | some x => if bad then lost else leNat ((x.data.drop l.off).take n)
      | none => 0
    (s.coreWrite core l (leBytes n (new old)) uid, old, bad)

/-- Writes a core's owned line back to home and releases its ownership (R144, R156, R173, R245). -/
def State.releaseOwned (s : State) (core : Nat) : State :=
  ((s.core core).l1.filter (·.owned)).foldl (fun s x => s.recall x.line) s

/-! ## Translation (R246-R248, R321) -/

/-- What an access needs of a page (R247); `rw` is what a counter line needs, which must be homed on the package
(R249). -/
inductive Perm where
  | r
  | w
  | x
  | rw
  deriving DecidableEq, Repr

/-- Whether an entry permits an access (R161, R247). [log 25] -/
def Perm.ok (p : Perm) (e : DWord) : Bool :=
  match p with
  | .r => entryR e
  | .w => entryW e
  | .x => entryX e
  | .rw => entryR e && entryW e

/-- What a walk finds: a leaf and its page size, or an entry that is not valid or needs repair (R246). -/
inductive Walk where
  | leaf (e : DWord) (psize : Nat)
  | absent
  deriving DecidableEq, Repr

/-- R246, R247, R321: whether a valid leaf entry of this page size needs repair. [log 31] -/
def State.needsRepair (s : State) (e : DWord) (psize : Nat) : Bool :=
  let v := e.toNat
  let hbm := match s.window? (entryFrame e) with | some (.hbm, _) => true | _ => false
  bitsOf v 63 52 != 0 || bitsOf v 15 11 != 0
    || entryFrame e % (if entryCMP e then 2 * psize else psize) != 0
    || (hbm && entryCAP e) || (!hbm && entryCMP e)

/-- The levels of a table: shift and width of the index, and the size of a leaf (none: never a leaf). -/
def walkLevels : List (Nat × Nat × Option Nat) :=
  [(39, 17, none), (30, 9, some (2 ^ 30)), (21, 9, some (2 ^ 21)), (16, 5, some (2 ^ 16))]

/-- Walks the levels that are left from a table (R246). [log 31] -/
def State.walkFrom (s : State) (va table : Nat) : List (Nat × Nat × Option Nat) → Walk
  | [] => .absent
  | (sh, w, leaf) :: rest =>
    let e := BitVec.ofNat 64 (s.peekNat (table + 8 * (va / 2 ^ sh % 2 ^ w)) 8)
    if !entryV e then .absent
    else if entryL e then
      match leaf with
      | some psize => if s.needsRepair e psize then .absent else .leaf e psize
      | none => .absent
    else
      let next := bitsOf e.toNat 51 8 * 256
      let size := match rest with
        | (_, w', _) :: _ => 8 * 2 ^ w'
        | [] => 1
      if bitsOf e.toNat 63 52 != 0 || bitsOf e.toNat 7 2 != 0 || next % size != 0 then .absent
      else s.walkFrom va next rest

def State.walk (s : State) (root va : Nat) : Walk := s.walkFrom va root walkLevels

/-- The outcome of a translation: the physical address with its leaf; a fault to report; a page to migrate; no
permission. -/
inductive Tr where
  | ok (pa : Nat) (e : DWord) (psize : Nat)
  | report
  | migrate
  | denied
  deriving DecidableEq, Repr

/-- What a leaf gives an access (R248, R321, R296), in the order of R248. [log 141] -/
def State.judge (s : State) (va : Nat) (p : Perm) (e : DWord) (psize : Nat) : Tr :=
  if !p.ok e then .denied
  else match s.window? (entryFrame e) with
    | none => .denied
    | some (k, _) =>
      let pa := entryFrame e + va % psize
      if (s.window? pa).isNone then .denied
      else if entryCAP e && !entryPIN e then .migrate
      else if p = .rw && k = .host then .denied
      else .ok pa e psize

/-- Translates through the page table alone. -/
def State.translateRoot (s : State) (root va : Nat) (p : Perm) : Tr :=
  match s.walk root va with
  | .absent => .report
  | .leaf e psize => s.judge va p e psize

/-- The entry of a TLB that holds an address. -/
def tlbFind (root va : Nat) (xs : List TlbEntry) : Option TlbEntry :=
  xs.find? fun x => x.root == root && x.vbase ≤ va && va < x.vbase + x.size

/-- The units of a core that have a micro-TLB (R248). -/
inductive TlbUnit where
  | lsu
  | fetch
  | operand
  deriving DecidableEq, Repr

def Core.microTlb (c : Core) : TlbUnit → List TlbEntry
  | .lsu => c.tlb
  | .fetch => c.ftlb
  | .operand => c.otlb

def Core.addTlb (c : Core) (x : TlbEntry) : TlbUnit → Core
  | .lsu => { c with tlb := x :: c.tlb }
  | .fetch => { c with ftlb := x :: c.ftlb }
  | .operand => { c with otlb := x :: c.otlb }

/-- The leaf in use at an address for a die's agents: that of its last-level TLB, or what a walk finds (R246, R248). -/
def State.dieLeaf (s : State) (die root va : Nat) : Walk :=
  match tlbFind root va (s.die die).tlb with
  | some x => .leaf x.entry x.size
  | none => s.walk root va

/-- A die's last-level TLB holds an entry (R248). -/
def State.keepDieTlb (s : State) (die : Nat) (x : TlbEntry) : State :=
  if (s.die die).tlb.contains x then s
  else s.updDie die fun d => { d with tlb := (x :: d.tlb).take Config.dieTlbEntries }

/-- Translates for a die's agents other than its cores (R248). -/
def State.translateDie (s : State) (die root va : Nat) (p : Perm) : State × Tr :=
  match s.dieLeaf die root va with
  | .absent => (s, .report)
  | .leaf e psize =>
    match s.judge va p e psize with
    | .ok pa e' sz => (s.keepDieTlb die { root := root, vbase := va - va % psize, size := psize, entry := e }, .ok pa e' sz)
    | r => (s, r)

/-- Translates for a unit of a core: through its micro-TLB, then its die's last-level TLB, then the page table (R248). An
entry that serves an access is kept. A page that is migrating is not used. [log 113] -/
def State.translate (s : State) (unit : TlbUnit) (core root va : Nat) (p : Perm) : State × Tr :=
  match tlbFind root va ((s.core core).microTlb unit) with
  | some x => (s, s.judge va p x.entry x.size)
  | none =>
    match s.dieLeaf (dieOf core) root va with
    | .absent => (s, .report)
    | .leaf e psize =>
      match s.judge va p e psize with
      | .ok pa e' sz =>
        let x : TlbEntry := { root := root, vbase := va - va % psize, size := psize, entry := e }
        ((s.keepDieTlb (dieOf core) x).updCore core fun c => c.addTlb x unit, .ok pa e' sz)
      | r => (s, r)

/-- A core's micro-TLBs drop the entries that `gone` names. -/
def Core.dropTlb (c : Core) (gone : TlbEntry → Bool) : Core :=
  let keep (xs : List TlbEntry) : List TlbEntry := xs.filter fun x => !gone x
  { c with tlb := keep c.tlb, ftlb := keep c.ftlb, otlb := keep c.otlb }

/-- Every TLB of the package drops the entries that `gone` names (R248). -/
def State.dropTlbs (s : State) (gone : TlbEntry → Bool) : State :=
  { s with
    cores := s.cores.map fun c => c.dropTlb gone
    dieUnits := s.dieUnits.map fun d => { d with tlb := d.tlb.filter fun x => !gone x } }

/-- The TLBs of one die drop the entries that `gone` names (R268). -/
def State.dropDieTlbs (s : State) (die : Nat) (gone : TlbEntry → Bool) : State :=
  let s : State := { s with cores := s.cores.zipIdx.map fun (c, i) => if dieOf i == die then c.dropTlb gone else c }
  s.updDie die fun d => { d with tlb := d.tlb.filter fun x => !gone x }

/-- The hot-page tracker counts an access served in place (R321, R323). -/
def State.countHot (s : State) (root va pa : Nat) (e : DWord) (psize : Nat) : State :=
  match s.window? pa with
  | some (.hbm, _) => s
  | none => s
  | some (_, d) =>
    if entryPIN e || entryCAP e || (s.die d).hpthresh.toNat % 65536 = 0 then s
    else
      let vb := va - va % psize
      s.updDie d fun x =>
        if x.hot.any fun (r, v, _) => r == root && v == vb then
          { x with hot := x.hot.map fun (r, v, n) => if r == root && v == vb then (r, v, n + 1) else (r, v, n) }
        else if x.hot.length < Config.hotCounters then { x with hot := (root, vb, 1) :: x.hot }
        else
          let least := x.hot.foldl (fun m (_, _, n) => min m n) (2 ^ 64)
          match x.hot.find? fun (_, _, n) => n == least with
          | some y => { x with hot := (root, vb, 1) :: x.hot.erase y }
          | none => x

/-! ## Page faults (R340) -/

/-- The granule that an answer covers: the smallest page. [log 23] -/
def faultGranule (va : Nat) : Nat := va / 65536

def State.say (s : State) (m : Message) : State := s.updRm fun r => { r with messages := r.messages ++ [m] }

/-- The token an access parks on: that of a pending fault of the same page, or a new one, reported to the host
driver as message kind 2 unless the page only has to migrate (R339, R340). -/
def State.faultToken (s : State) (root queue va : Nat) (migrate : Bool) : State × Nat :=
  match s.rm.faults.find? fun f => f.root == root && faultGranule f.va == faultGranule va && f.migrate == migrate with
  | some f => (s, f.token)
  | none =>
    let (token, s) := s.fresh
    let s := s.updRm fun r =>
      { r with faults := r.faults ++ [{ token := token, root := root, queue := queue, va := va, migrate := migrate,
                                         starved := false }] }
    (if migrate then s
     else s.say { kind := 2, queue := queue, a32 := BitVec.ofNat 32 token, a64 := BitVec.ofNat 64 va,
                  vector := none }, token)

/-- The page table root and queue of a launch. -/
def State.rootOf (s : State) (lid : Nat) : Nat := match s.launch? lid with | some l => l.root | none => 0
def State.queueOf (s : State) (lid : Nat) : Nat := match s.launch? lid with | some l => l.queue | none => 0

end Sys2Proof.Machine
end

