-- ==== Sys2Proof/Machine/Company.lean ====
section
/-!
DEFINITION. What a company and its troupes start with (R74, R142), and the operations over a company's scratchpad,
timelines, barriers and marks that its troupes' instructions and its engines share (R142-R146, R175-R178).
-/
namespace Sys2Proof.Machine

/-! ## Starting -/

/-- A troupe as it starts (R74, R67). -/
def newTroupe (uid cid lid core quarter slot : Nat) (wid : DWord) (hdr : Header) (hdrVa : Nat) : Troupe :=
  { uid := uid, cid := cid, lid := lid, wid := wid, core := core, quarter := quarter, slot := slot, resident := true, retired := false,
    v := List.replicate hdr.regs zeroRow,
    s := BitVec.ofNat 32 hdrVa :: BitVec.ofNat 32 (hdrVa / 2 ^ 32) :: List.replicate 59 0,
    act := -1, fmt := 0x00001133, pc := hdr.entry, pos := ActPos.fresh, actSerial := 0, actNext := 1, stack := [],
    exited := 0, ld := 0, st := 0, xc := 0, ul := 0, trap := false, saved := none, fflags := 0, srseed := hdr.seed,
    srctr := 0, tcause := 0, tpc := 0, taddr := 0, tmask := 0, mrp := 0, gang := 0, grpsel := 0, ldstat := 0,
    xseq := 0, edges := [], rgrpCount := 0, park := .run, parkedAt := 0,
    parkResume := { len := 4, laneSet := false, leaves := false, ends := true, fetch := false }, declined := [], ops := [], nextOp := 0, fences := [], roinvAt := 0 }

/-- A company as admission sets it up (R142). -/
def newCompany (cid lid q core admitted : Nat) (hdr : Header) (groups : List CoreMask) : Company :=
  { cid := cid, lid := lid, q := q, core := some core, lastCore := core, outSince := 0, admitted := admitted, preempting := false, ways := hdr.ways,
    wayAt := List.range hdr.ways,
    spad := [], spadPoison := [], emptyLines := [], barriers := List.replicate 16 ⟨0, 0, 0, false⟩,
    tls := List.replicate 8 ⟨0, 0⟩, groups := groups, tiles := List.replicate 8 [], ops := [], marks := [],
    gangs := [], retiredF1 := [], rgrpMask := [] }

/-- An active launch (R331). -/
def newLaunch (lid queue index hdrVa root : Nat) (hdr : Header) (sig : Nat) (sigval : DWord) (flags : Byte) :
    Launch :=
  { lid := lid, queue := queue, index := index, hdrVa := hdrVa, hdr := hdr, root := root, sig := sig,
    sigval := sigval, flags := flags, ending := none, tcause := 0, tpc := 0, dist := [], placed := false, started := 0,
    waitSince := 0, companiesRetired := 0, troupesRetired := 0, retiredWids := [], pubs := [],
    gbars := List.replicate 16 ⟨0, false, false⟩, statusDone := false }

/-! ## Scratchpad (R143, R146) -/

def Company.size (c : Company) : Nat := c.ways * Config.wayBytes

def Company.read (c : Company) (o n : Nat) : List Byte := bytesAt c.spad o n

/-- Keeps with an MMA in flight what is stored into its staging window (R203). [log 49] -/
def EngOp.storeWindow (x : EngOp) (o : Nat) (bs : List Byte) : EngOp :=
  match x.kind with
  | .mma a =>
    if a.usesWindow && !x.done then
      { x with vector := x.vector ++ ((bs.zipIdx o).filter fun (_, i) => a.stg ≤ i && i < a.stg + Config.stagingBytes).map (·.1) }
    else x
  | _ => x

/-- A scratchpad write; the bytes it writes are no longer poisoned. -/
def Company.write (c : Company) (o : Nat) (bs : List Byte) : Company :=
  { c with spad := putBytes c.spad o bs, spadPoison := c.spadPoison.filter (fun a => !(o ≤ a && a < o + bs.length)),
           ops := c.ops.map fun x => x.storeWindow o bs }

def Company.setEmpty (c : Company) (line : Nat) : Company :=
  { c with emptyLines := if c.emptyLines.contains line then c.emptyLines else line :: c.emptyLines }

def Company.setFull (c : Company) (line : Nat) : Company :=
  { c with emptyLines := c.emptyLines.filter (· != line) }

def Company.isPoisoned (c : Company) (o n : Nat) : Bool := c.spadPoison.any fun a => o ≤ a && a < o + n

/-! ## Timelines (R175-R177) -/

def Company.setTl (c : Company) (k : Nat) (x : Timeline) : Company := { c with tls := putAt c.tls k x ⟨0, 0⟩ }

/-- An increment that stays at 2^64 - 1 (R175). -/
def satInc (n : DWord) : DWord := if n.toNat + 1 < 2 ^ 64 then n + 1 else n

/-- Gives out the next number of a counter. -/
def Company.nextNumber (c : Company) (k : Nat) : DWord × Company :=
  let x := c.tls.getD k ⟨0, 0⟩
  let n := satInc x.issued
  (n, c.setTl k { x with issued := n })

/-- The lowest fault mark of a troupe that a wait for number n covers (R177). -/
def Company.markedBy (c : Company) (tl : Nat) (n : DWord) (uid : Nat) : Option DWord :=
  (c.marks.filter fun m => m.tl == tl && m.uid == uid && m.fault && m.n.toNat ≤ n.toNat).foldl
    (fun best m => match best with
      | some b => if m.n.toNat < b.toNat then some m.n else best
      | none => some m.n) none

/-- Clears one mark: its operation's flags stay pending. -/
def Company.clearMark (c : Company) (tl : Nat) (n : DWord) (uid : Nat) : Company :=
  { c with marks := c.marks.map fun m => if m.tl == tl && m.n == n && m.uid == uid then { m with fault := false } else m }

/-- The flags that a completed wait for number n hands over, and the company without them (R177). -/
def Company.takeFlags (c : Company) (tl : Nat) (n : DWord) (uid : Nat) : BitVec 6 × Company :=
  let mine (m : Mark) : Bool := m.tl == tl && m.uid == uid && m.n.toNat ≤ n.toNat
  ((c.marks.filter mine).foldl (fun f m => f ||| m.flags) 0, { c with marks := c.marks.filter fun m => !mine m })

/-- The troupes an operation belongs to: its issuer, or every member of a gang (R195, R215). -/
def EngOp.owners (o : EngOp) : List Nat :=
  match o.kind with
  | .mma a => if a.members.isEmpty then [o.uid] else a.members
  | _ => [o.uid]

def Troupe.orFlags (t : Troupe) (f : BitVec 6) : Troupe := { t with fflags := t.fflags ||| f.setWidth 32 }

end Sys2Proof.Machine
end

