-- ==== Sys2Proof/Machine/Float.lean ====
section
/-!
DEFINITION. Number formats, rounding and conversion (01 R7-R24, R31-R34): exact dyadic values, the five rounding
modes, the conversion rules of every target, block scales and the reduction trees. A value is computed exactly
and rounded once; the flags come from comparing the two (R13).
-/
namespace Sys2Proof.Machine

/-- Sticky flags, bits of fflags (R12). -/
abbrev Flags := BitVec 6

def flagNV : Flags := 1
def flagDZ : Flags := 2
def flagOF : Flags := 4
def flagUF : Flags := 8
def flagNX : Flags := 16
def flagSAT : Flags := 32

/-- How a format treats its top exponent (R9). -/
inductive TopExp where
  | ieee
  | e4m3
  | finite
  deriving DecidableEq, Repr

/-- A floating format (R8): widths of exponent and fraction, bias. -/
structure FloatFmt where
  ebits : Nat
  mbits : Nat
  bias : Nat
  top : TopExp
  deriving DecidableEq, Repr

def fp32 : FloatFmt := ⟨8, 23, 127, .ieee⟩
def bf16 : FloatFmt := ⟨8, 7, 127, .ieee⟩
def fp16 : FloatFmt := ⟨5, 10, 15, .ieee⟩
def e4m3 : FloatFmt := ⟨4, 3, 7, .e4m3⟩
def e5m2 : FloatFmt := ⟨5, 2, 15, .ieee⟩
def e2m3 : FloatFmt := ⟨2, 3, 1, .finite⟩
def e3m2 : FloatFmt := ⟨3, 2, 3, .finite⟩
def e2m1 : FloatFmt := ⟨2, 1, 1, .finite⟩

/-- Format codes of fmt (R76). -/
def cFP32 : Nat := 0
def cBF16 : Nat := 1
def cFP16 : Nat := 2
def cE4M3 : Nat := 3
def cE5M2 : Nat := 4
def cE2M3 : Nat := 5
def cE3M2 : Nat := 6
def cE2M1 : Nat := 7
def cMXI8 : Nat := 8
def cINT8 : Nat := 9
def cINT32 : Nat := 10
def cINT64 : Nat := 11

/-- The floating format of a format code, if it names one (R76). -/
def floatFmt? (c : Nat) : Option FloatFmt :=
  match c with
  | 0 => some fp32
  | 1 => some bf16
  | 2 => some fp16
  | 3 => some e4m3
  | 4 => some e5m2
  | 5 => some e2m3
  | 6 => some e3m2
  | 7 => some e2m1
  | _ => none

/-- An exact value: NaN (signalling or quiet), an infinity, or (-1)^neg * m * 2^e; a zero keeps its sign. -/
inductive Val where
  | nan (signalling : Bool)
  | inf (neg : Bool)
  | fin (neg : Bool) (m : Nat) (e : Int)
  deriving DecidableEq, Repr

def FloatFmt.width (F : FloatFmt) : Nat := 1 + F.ebits + F.mbits

/-- Exponent of the smallest normal value (R9). -/
def FloatFmt.emin (F : FloatFmt) : Int := 1 - (F.bias : Int)

/-- The largest finite value as (m, e) (R9). -/
def FloatFmt.largest (F : FloatFmt) : Nat × Int :=
  match F.top with
  | .ieee => (2 ^ (F.mbits + 1) - 1, (2 ^ F.ebits - 2 : Nat) - (F.bias : Int) - F.mbits)
  | .e4m3 => (2 ^ (F.mbits + 1) - 2, (2 ^ F.ebits - 1 : Nat) - (F.bias : Int) - F.mbits)
  | .finite => (2 ^ (F.mbits + 1) - 1, (2 ^ F.ebits - 1 : Nat) - (F.bias : Int) - F.mbits)

/-- The code of the largest finite magnitude, sign bit clear. -/
def FloatFmt.largestCode (F : FloatFmt) : Nat :=
  match F.top with
  | .ieee => (2 ^ F.ebits - 2) * 2 ^ F.mbits + (2 ^ F.mbits - 1)
  | .e4m3 => 2 ^ (F.ebits + F.mbits) - 2
  | .finite => 2 ^ (F.ebits + F.mbits) - 1

def FloatFmt.signBit (F : FloatFmt) (neg : Bool) : Nat :=
  if neg then 2 ^ (F.ebits + F.mbits) else 0

/-- The code of an infinity of an IEEE-style format. -/
def FloatFmt.infCode (F : FloatFmt) (neg : Bool) : Nat :=
  F.signBit neg + (2 ^ F.ebits - 1) * 2 ^ F.mbits

/-- R11: the canonical NaN, in the formats that have one (0 in the others: R20's +0). -/
def FloatFmt.nanCode (F : FloatFmt) : Nat :=
  match F.top with
  | .ieee => (2 ^ F.ebits - 1) * 2 ^ F.mbits + 2 ^ (F.mbits - 1)
  | .e4m3 => 2 ^ (F.ebits + F.mbits) - 1
  | .finite => 0

/-- The value of a code (R8). Bits above the format's width are ignored (R108). -/
def FloatFmt.decode (F : FloatFmt) (code : Nat) : Val :=
  let frac := code % 2 ^ F.mbits
  let ex := code / 2 ^ F.mbits % 2 ^ F.ebits
  let neg := code / 2 ^ (F.ebits + F.mbits) % 2 == 1
  let top := 2 ^ F.ebits - 1
  let finite : Val :=
    if ex = 0 then .fin neg frac (F.emin - F.mbits)
    else .fin neg (2 ^ F.mbits + frac) ((ex : Int) - F.bias - F.mbits)
  match F.top with
  | .ieee =>
    if ex = top then
      if frac = 0 then .inf neg else .nan (frac < 2 ^ (F.mbits - 1))
    else finite
  | .e4m3 => if ex = top ∧ frac = 2 ^ F.mbits - 1 then .nan false else finite
  | .finite => finite

/-- Signed two's complement value of the low `w` bits of `n`. -/
def signedOf (w n : Nat) : Int :=
  let k := n % 2 ^ w
  if k < 2 ^ (w - 1) then k else (k : Int) - 2 ^ w

/-- Two's complement code of an integer in `w` bits. -/
def codeOf (w : Nat) (i : Int) : Nat := (i % (2 ^ w : Nat)).toNat

/-- An integer as an exact value; zero is +0. -/
def Val.ofInt (i : Int) (e : Int := 0) : Val := .fin (i < 0) i.natAbs e

/-- The exact value of an element of any format code, INT8 and INT32 as integers, MX INT8 as N * 2^-6 (R8). -/
def decodeElem (c : Nat) (code : Nat) : Val :=
  match floatFmt? c with
  | some F => F.decode code
  | none =>
    if c = cMXI8 then Val.ofInt (signedOf 8 code) (-6)
    else if c = cINT8 then Val.ofInt (signedOf 8 code)
    else Val.ofInt (signedOf 32 code)

/-! ## Rounding -/

/-- Rounding modes (R14), as RM of R107. -/
inductive Mode where
  | rn
  | rz
  | rd
  | ru
  | sr
  deriving DecidableEq, Repr

def Mode.ofCode (c : Nat) : Mode :=
  match c with
  | 0 => .rn
  | 1 => .rz
  | 2 => .rd
  | 3 => .ru
  | _ => .sr

/-- Rounds the magnitude m * 2^e (plus something below one unit of m when `sticky`) to a multiple of 2^q (R14;
R16 for .sr with the random value `r`). Answers the multiple and whether it is inexact. -/
def roundQuantum (mode : Mode) (r : Nat) (neg : Bool) (m : Nat) (e : Int) (sticky : Bool) (q : Int) :
    Nat × Bool :=
  if q ≤ e then (m * 2 ^ (e - q).toNat, sticky)
  else
    let sh := (q - e).toNat
    let k := m / 2 ^ sh
    let rem := m % 2 ^ sh
    let half := 2 ^ (sh - 1)
    let inexact := rem != 0 || sticky
    let up : Bool :=
      match mode with
      | .rn => rem > half || (rem == half && (sticky || k % 2 == 1))
      | .rz => false
      | .rd => neg && inexact
      | .ru => !neg && inexact
      | .sr => rem * 2 ^ 32 / 2 ^ sh + r ≥ 2 ^ 32
    (if up then k + 1 else k, inexact)

/-- m * 2^e ≤ m' * 2^e' on magnitudes. -/
def magLe (m : Nat) (e : Int) (m' : Nat) (e' : Int) : Bool :=
  if e ≤ e' then m ≤ m' * 2 ^ (e' - e).toNat else m * 2 ^ (e - e').toNat ≤ m'

/-- The code of the finite magnitude k * 2^q, a multiple of the format's quantum there and not above its
largest. -/
def FloatFmt.encodeMag (F : FloatFmt) (k : Nat) (q : Int) : Nat :=
  if k = 0 then 0
  else
    let lg := k.log2
    let ex : Int := lg + q
    if ex < F.emin then k * 2 ^ (q - (F.emin - F.mbits)).toNat
    else
      let sig := if lg ≥ F.mbits then k / 2 ^ (lg - F.mbits) else k * 2 ^ (F.mbits - lg)
      (ex + F.bias).toNat * 2 ^ F.mbits + (sig - 2 ^ F.mbits)

/-- A rounded result: its code and the flags it raises. -/
structure Rounded where
  code : Nat
  flags : Flags
  deriving DecidableEq, Repr

/-- What a finite result that overflows becomes (R20, "Overflow" columns and the note on directed modes). -/
def FloatFmt.overflow (F : FloatFmt) (mode : Mode) (sat neg : Bool) : Rounded :=
  let big := F.signBit neg + F.largestCode
  let beyond := match F.top with
    | .ieee => F.infCode neg
    | _ => F.nanCode
  if sat || F.top == .finite then ⟨big, flagSAT ||| flagNX⟩
  else
    let toInf : Bool := match mode with
      | .rn => true
      | .sr => true
      | .rz => false
      | .rd => neg
      | .ru => !neg
    ⟨if toInf then beyond else big, flagOF ||| flagNX⟩

/-- Rounds the exact value (-1)^neg * m * 2^e (plus a sticky part) once into `F` (R13, R16, R20). -/
def FloatFmt.roundFin (F : FloatFmt) (mode : Mode) (r : Nat) (sat neg : Bool) (m : Nat) (e : Int)
    (sticky : Bool := false) : Rounded :=
  if m = 0 ∧ sticky = false then ⟨F.signBit neg, 0⟩
  else
    let ex : Int := (m.log2 : Int) + e
    let q : Int := max ex F.emin - F.mbits
    let (k, inexact) := roundQuantum mode r neg m e sticky q
    let (ml, el) := F.largest
    if magLe k q ml el then
      let (k', _) := roundQuantum mode r neg m e sticky (ex - F.mbits)
      let tiny := !(magLe 1 F.emin k' (ex - F.mbits))
      let fl : Flags := if inexact then (if tiny then flagUF ||| flagNX else flagNX) else 0
      ⟨F.signBit neg + F.encodeMag k q, fl⟩
    else F.overflow mode sat neg

/-- Rounds an exact value of any class into `F`: R19 and R20, the NaN rules of R19 included. -/
def FloatFmt.round (F : FloatFmt) (mode : Mode) (r : Nat) (sat : Bool) (v : Val) : Rounded :=
  match v with
  | .nan s =>
    match F.top with
    | .finite => ⟨0, flagNV⟩
    | _ => ⟨F.nanCode, if s then flagNV else 0⟩
  | .inf neg =>
    if sat || F.top == .finite then ⟨F.signBit neg + F.largestCode, flagSAT⟩
    else match F.top with
      | .ieee => ⟨F.infCode neg, 0⟩
      | _ => ⟨F.nanCode, flagNV⟩
  | .fin neg m e => F.roundFin mode r sat neg m e

/-- R21: a floating or integer exact value into a `w`-bit integer. `isInt` says the source is an integer format,
which narrows by wrapping or, with .sat, by clamping. [log 41] -/
def roundInt (w : Nat) (mode : Mode) (r : Nat) (sat isInt : Bool) (v : Val) : Rounded :=
  let hi : Int := 2 ^ (w - 1) - 1
  let lo : Int := -2 ^ (w - 1)
  match v with
  | .nan _ => ⟨0, flagNV⟩
  | .inf neg => ⟨codeOf w (if neg then lo else hi), flagNV⟩
  | .fin neg m e =>
    let (k, inexact) := roundQuantum mode r neg m e false 0
    let i : Int := if neg then -(k : Int) else k
    if isInt then
      if sat && (i > hi || i < lo) then ⟨codeOf w (if i < 0 then lo else hi), flagSAT ||| flagNX⟩ else ⟨codeOf w i, 0⟩
    else if i > hi then ⟨codeOf w hi, flagNV⟩
    else if i < lo then ⟨codeOf w lo, flagNV⟩
    else ⟨codeOf w i, if inexact then flagNX else 0⟩

/-- R34 ROUND(x, F, m) for a format code; INT8 and INT32 follow R21. [log 41] -/
def roundTo (c : Nat) (mode : Mode) (r : Nat) (sat srcInt : Bool) (v : Val) : Rounded :=
  match floatFmt? c with
  | some F => F.round mode r sat v
  | none => roundInt (if c = cINT32 then 32 else 8) mode r sat srcInt v

/-- R34 RNE32. -/
def rne32 (v : Val) : Rounded := fp32.round .rn 0 false v

def isIntCode (c : Nat) : Bool := c == cINT8 || c == cINT32

/-- Where an element's code lies in a register: a floating code is zero-extended, INT8 sign-extended (R108). -/
def widenCode (c code : Nat) : Word :=
  if c = cINT8 then BitVec.ofInt 32 (signedOf 8 code) else BitVec.ofNat 32 code

/-! ## Exact arithmetic -/

/-- The integer n with v = n * 2^lo for a finite value, given lo ≤ its exponent. -/
def scaledInt (neg : Bool) (m : Nat) (e lo : Int) : Int :=
  let k : Int := m * 2 ^ (e - lo).toNat
  if neg then -k else k

def Val.neg : Val → Val
  | .nan s => .nan s
  | .inf n => .inf !n
  | .fin n m e => .fin (!n) m e

def Val.isNaN : Val → Bool
  | .nan _ => true
  | _ => false

def Val.isSig : Val → Bool
  | .nan s => s
  | _ => false

def Val.isZero : Val → Bool
  | .fin _ 0 _ => true
  | _ => false

def Val.isInf : Val → Bool
  | .inf _ => true
  | _ => false

def Val.isNeg : Val → Bool
  | .nan _ => false
  | .inf n => n
  | .fin n _ _ => n

def Val.abs : Val → Val
  | .nan s => .nan s
  | .inf _ => .inf false
  | .fin _ m e => .fin false m e

/-- An exact sum or product and whether forming it is invalid (R26, R101). A NaN result is quiet: the signal of
an input is in the second part. -/
structure Exact where
  v : Val
  nv : Bool
  deriving DecidableEq, Repr

/-- a + b exactly (R101): an exact zero is +0 unless both are -0. -/
def Val.add (a b : Val) : Exact :=
  let sig := a.isSig || b.isSig
  match a, b with
  | .nan _, _ => ⟨.nan false, sig⟩
  | _, .nan _ => ⟨.nan false, sig⟩
  | .inf x, .inf y => if x = y then ⟨.inf x, false⟩ else ⟨.nan false, true⟩
  | .inf x, _ => ⟨.inf x, false⟩
  | _, .inf y => ⟨.inf y, false⟩
  | .fin x m e, .fin y n f =>
    let lo := min e f
    let i := scaledInt x m e lo + scaledInt y n f lo
    if i = 0 then ⟨.fin (x && y) 0 lo, false⟩ else ⟨.fin (i < 0) i.natAbs lo, false⟩

/-- a * b exactly (R101). -/
def Val.mul (a b : Val) : Exact :=
  let sig := a.isSig || b.isSig
  match a, b with
  | .nan _, _ => ⟨.nan false, sig⟩
  | _, .nan _ => ⟨.nan false, sig⟩
  | .inf x, .inf y => ⟨.inf (x != y), false⟩
  | .inf x, .fin y n _ => if n = 0 then ⟨.nan false, true⟩ else ⟨.inf (x != y), false⟩
  | .fin x m _, .inf y => if m = 0 then ⟨.nan false, true⟩ else ⟨.inf (x != y), false⟩
  | .fin x m e, .fin y n f => ⟨.fin (x != y) (m * n) (e + f), false⟩

def nvFlag (b : Bool) : Flags := if b then flagNV else 0

/-- One floating operation of `F` rounded with .rn (R15, R101, R105). -/
def FloatFmt.finish (F : FloatFmt) (x : Exact) : Rounded :=
  let r := F.round .rn 0 false x.v
  ⟨r.code, r.flags ||| nvFlag x.nv⟩

def FloatFmt.add (F : FloatFmt) (a b : Nat) : Rounded := F.finish ((F.decode a).add (F.decode b))
def FloatFmt.sub (F : FloatFmt) (a b : Nat) : Rounded := F.finish ((F.decode a).add (F.decode b).neg)
def FloatFmt.mul (F : FloatFmt) (a b : Nat) : Rounded := F.finish ((F.decode a).mul (F.decode b))

/-- a * b + c with one rounding; 0 * inf raises NV even when c is a NaN (R101). -/
def FloatFmt.fma (F : FloatFmt) (a b c : Nat) : Rounded :=
  let p := (F.decode a).mul (F.decode b)
  let s := p.v.add (F.decode c)
  F.finish ⟨s.v, p.nv || s.nv⟩

/-- The order of two values that are not NaN, -0 below +0 when `signed` (R33): a < b. -/
def Val.lt (signed : Bool) (a b : Val) : Bool :=
  match a, b with
  | .nan _, _ => false
  | _, .nan _ => false
  | .inf x, .inf y => x && !y
  | .inf x, _ => x
  | _, .inf y => !y
  | .fin x m e, .fin y n f =>
    let lo := min e f
    let i := scaledInt x m e lo
    let j := scaledInt y n f lo
    i < j || (signed && m == 0 && n == 0 && x && !y)

/-- a = b numerically (R103): -0 equals +0, a NaN equals nothing. -/
def Val.eq (a b : Val) : Bool :=
  !a.isNaN && !b.isNaN && !(a.lt false b) && !(b.lt false a)

/-- R33 MINNUM and MAXNUM on codes of `F`. -/
def FloatFmt.minmax (F : FloatFmt) (isMax : Bool) (a b : Nat) : Rounded :=
  let x := F.decode a
  let y := F.decode b
  let fl := nvFlag (x.isSig || y.isSig)
  if x.isNaN && y.isNaN then ⟨F.nanCode, fl⟩
  else if x.isNaN then ⟨b, fl⟩
  else if y.isNaN then ⟨a, fl⟩
  else
    let pickB := if isMax then x.lt true y else y.lt true x
    ⟨if pickB then b else a, fl⟩

/-! ## Stochastic rounding (R17) -/

def mix64 (z : DWord) : DWord :=
  let z := (z ^^^ (z >>> 30)) * 0xBF58476D1CE4E5B9#64
  let z := (z ^^^ (z >>> 27)) * 0x94D049BB133111EB#64
  z ^^^ (z >>> 31)

/-- SRR(gid, e): the 32-bit random value. -/
def srr (seed ctr gid : DWord) (e : Nat) : Nat :=
  (mix64 (mix64 (seed ^^^ gid) + 0x9E3779B97F4A7C15#64 * (ctr * 4 + BitVec.ofNat 64 (e + 1)))).toNat % 2 ^ 32

/-! ## Block scales (R22-R24) -/

/-- The largest of a list of magnitudes: infinity above every finite value; NaNs are passed over. -/
def maxAbs (xs : List Val) : Val :=
  xs.foldl (fun a x => if x.isNaN then a else if a.lt false x.abs then x.abs else a) (.fin false 0 0)

/-- R9: emax of an MX element format. -/
def emaxOf (c : Nat) : Int :=
  match c with
  | 3 => 8
  | 4 => 15
  | 5 => 2
  | 6 => 4
  | 7 => 2
  | _ => 0

def clampInt (i lo hi : Int) : Int := if i < lo then lo else if i > hi then hi else i

/-- The scale byte of a block whose NaNs have been replaced (R22), never 0xFF. -/
def mxScaleOf (c : Nat) (xs : List Val) : Nat :=
  match maxAbs xs with
  | .inf _ => (clampInt 127 (-127) 127 + 127).toNat
  | .nan _ => 0
  | .fin _ m e =>
    if m = 0 then 0 else (clampInt ((m.log2 : Int) + e - emaxOf c) (-127) 127 + 127).toNat

/-- R22 MXSCALE. -/
def mxScale (c : Nat) (xs : List Val) : Nat :=
  if xs.any Val.isNaN then 0xFF else mxScaleOf c xs

/-- x * 2^k. -/
def Val.scale (v : Val) (k : Int) : Val :=
  match v with
  | .fin n m e => .fin n m (e + k)
  | w => w

/-- The element of R22 for value x under scale exponent X (the byte less 127): always saturating, and a NaN
raises nothing of its own because the block raises NV once. -/
def mxElem (c : Nat) (mode : Mode) (r : Nat) (X : Int) (x : Val) : Rounded :=
  match x with
  | .nan _ =>
    match floatFmt? c with
    | some F => ⟨F.nanCode, 0⟩
    | none => ⟨0, 0⟩
  | .inf neg =>
    match floatFmt? c with
    | some F => ⟨F.signBit neg + F.largestCode, flagSAT⟩
    | none => ⟨codeOf 8 (if neg then -128 else 127), flagSAT⟩
  | .fin neg m e =>
    match floatFmt? c with
    | some F => F.roundFin mode r true neg m (e - X)
    | none =>
      let (k, inexact) := roundQuantum mode r neg m (e + 6 - X) false 0
      let i : Int := if neg then -(k : Int) else k
      if i > 127 then ⟨127, flagSAT ||| flagNX⟩
      else if i < -128 then ⟨codeOf 8 (-128), flagSAT ||| flagNX⟩
      else ⟨codeOf 8 i, if inexact then flagNX else 0⟩

/-- A whole block of R22: its scale byte, its element codes, its flags. `r` gives each element's random value. -/
def mxBlock (c : Nat) (mode : Mode) (r : Nat → Nat) (xs : List Val) : Nat × List Nat × Flags :=
  let sc := mxScale c xs
  let X : Int := (mxScaleOf c xs : Int) - 127
  let es := xs.zipIdx.map fun (x, i) => mxElem c mode (r i) X x
  (sc, es.map (·.code), es.foldl (fun f y => f ||| y.flags) (nvFlag (sc == 0xFF)))

/-- R23: the exact value of an MX element under its scale byte; a scale of 0xFF makes it a quiet NaN. [log 43] -/
def mxDecode (c scale code : Nat) : Val :=
  if scale = 0xFF then .nan false else (decodeElem c code).scale ((scale : Int) - 127)

/-- x / s rounded into FP8 (R24 Encode), s a positive finite value: the quotient is exact to 200 bits with a
sticky part. -/
def fp8Encode (c : Nat) (mode : Mode) (r : Nat) (sat : Bool) (x s : Val) : Rounded :=
  match floatFmt? c with
  | none => ⟨0, 0⟩
  | some F =>
    match s with
    | .fin false (ms + 1) es =>
      match x with
      | .fin neg m e =>
        let num := m * 2 ^ 200
        F.roundFin mode r sat neg (num / (ms + 1)) (e - es - 200) (num % (ms + 1) != 0)
      | y => F.round mode r sat y
    | _ => ⟨F.nanCode, flagNV⟩

/-- R24 FP8SCALE of a block: the scale as an FP32 code. -/
def fp8Scale (c : Nat) (xs : List Val) : Nat :=
  let k : Int := if c = cE4M3 then 8 else 15
  if xs.any Val.isNaN then fp32.nanCode
  else match maxAbs xs with
    | .fin _ 0 _ => 127 * 2 ^ 23
    | .fin _ m e => (clampInt ((m.log2 : Int) + e - k) (-126) 127 + 127).toNat * 2 ^ 23
    | _ => 254 * 2 ^ 23

/-! ## Reductions (R31-R33, R119) -/

/-- One level of TREE32: element i becomes OP(x[i], x[i + w]) at every multiple of 2w. -/
def treeLevel {α : Type} (op : α → α → α) : List α → List α
  | x :: y :: rest => op x y :: treeLevel op rest
  | [x] => [x]
  | [] => []

/-- The fixed binary tree over a list whose length is a power of two (R32, R264): `k` levels. -/
def treeFold {α : Type} (op : α → α → α) : Nat → List α → List α
  | 0, xs => xs
  | k + 1, xs => treeFold op k (treeLevel op xs)

/-- R32 TREE96 over 96 elements (`z` is answered only for a list of another length). -/
def tree96 {α : Type} (op : α → α → α) (z : α) (xs : List α) : α :=
  let t (j : Nat) := (treeFold op 5 ((xs.drop (32 * j)).take 32)).headD z
  op (op (t 0) (t 1)) (t 2)

/-- A value with the flags raised in forming it. -/
structure Flagged where
  w : Word
  flags : Flags
  deriving DecidableEq, Repr

def flaggedAdd (a b : Flagged) : Flagged :=
  let r := fp32.add a.w.toNat b.w.toNat
  ⟨BitVec.ofNat 32 r.code, a.flags ||| b.flags ||| r.flags⟩

def flaggedMinMax (isMax : Bool) (a b : Flagged) : Flagged :=
  let r := fp32.minmax isMax a.w.toNat b.w.toNat
  ⟨BitVec.ofNat 32 r.code, a.flags ||| b.flags ||| r.flags⟩

/-- R119 KS32: the inclusive prefix of 32 elements; `ws` are the distances 1, 2, 4, 8, 16. -/
def ks32 {α : Type} (op : α → α → α) : List Nat → List α → List α
  | [], y => y
  | w :: ws, y =>
    ks32 op ws (y.zipIdx.map fun (v, i) => if i < w then v else match y[i - w]? with
      | some u => op u v
      | none => v)

/-- R31: the identity of FP add, min and max as FP32 codes. -/
def fpIdentity (op : Nat) : Word :=
  match op with
  | 0 => 0x80000000
  | 1 => 0x7F800000
  | _ => 0xFF800000

/-- R31: identities of the integer operations in the order of R118. -/
def intIdentity (op : Nat) : Word :=
  match op with
  | 1 => 0x7FFFFFFF
  | 2 => 0x80000000
  | 3 => 0xFFFFFFFF
  | 5 => 0xFFFFFFFF
  | _ => 0

def sminW (a b : Word) : Word := if a.slt b then a else b
def smaxW (a b : Word) : Word := if a.slt b then b else a
def uminW (a b : Word) : Word := if a.ult b then a else b
def umaxW (a b : Word) : Word := if a.ult b then b else a

/-- The integer operations of REDI in the order of R118. -/
def intOp (op : Nat) (a b : Word) : Word :=
  match op with
  | 0 => a + b
  | 1 => sminW a b
  | 2 => smaxW a b
  | 3 => uminW a b
  | 4 => umaxW a b
  | 5 => a &&& b
  | _ => a ||| b

/-- The formats with 8 bits and an exponent. -/
def isFp8 (c : Nat) : Bool := c == cE4M3 || c == cE5M2

end Sys2Proof.Machine
end

