-- ==== Sys2Proof/Machine/Operands.lean ====
section
/-!
DEFINITION. Operand forms and issue: what each source and destination code means (R36-R39), the decode checks in
their order (R47), the interlocks of R40, how an instruction's result reaches registers and latches (R51, R78), and
how an instruction ends: by completing, by a control transfer, by a trap, by parking (R48, R136).
-/
namespace Sys2Proof.Machine

/-! ## Fields of an instruction -/

def Fields.c (f : Fields) : Nat := match f.ext with | .x2 c _ _ => c.toNat | _ => 123
def Fields.xs (f : Fields) : Nat := match f.ext with | .x2 _ xs _ => xs.toNat | _ => 0
def Fields.imm (f : Fields) : BitVec 19 := match f.ext with | .x2 _ _ imm => imm | _ => 0

/-- The value of an im source: X1 unchanged, X.imm sign-extended (R42, R43). -/
def Fields.im (f : Fields) : Word :=
  match f.ext with
  | .none => 0
  | .x1 imm => imm
  | .x2 _ _ imm => imm.signExtend 32

/-- Bits [hi:lo] of X.imm. -/
def Fields.x (f : Fields) (hi lo : Nat) : Nat := bitsOf (Fields.imm f).toNat hi lo

/-- Length in bytes (R41). -/
def Fields.len (f : Fields) : Nat := match f.ext with | .none => 4 | _ => 8

/-- How a source code is used: not at all, as a 32-bit value, a pair, a quad, a mask triple, or as a field. -/
inductive Use where
  | no
  | w32
  | w64
  | quad
  | triple
  | field
  deriving DecidableEq, Repr

/-- Destination kinds (R38); a quad is the destination of a .b128 load (R160). -/
inductive Dst where
  | lane
  | lanePair
  | laneQuad
  | scalar
  | scalarPair
  | triple
  | none
  | field
  deriving DecidableEq, Repr

/-- What an instruction's description says of its fields (R44): whether its opcode is long, its sources, whether X.s and X.imm are fields of
its own, which bits of X.imm it uses then, whether the description makes X.s or X.imm 0 whatever its sources are (R57, R118,
R230, R263, R309), whether a modifier has an unlisted value (R73), whether B may be
neither im nor sx (R160), whether it is act-closing (R50), a lane register named outside A, B, C, D (with whether it is
written and not read), and
whether a field breaks R46, or X.s or A a limit of its own (R43, R57, R115, R230). [log 11] -/
structure Shape where
  dst : Dst
  long : Bool := false
  a : Use := .no
  b : Use := .no
  c : Use := .no
  ownXs : Bool := false
  ownImm : Bool := false
  immMask : BitVec 19 := 0
  zeroXs : Bool := false
  zeroImm : Bool := false
  badModifier : Bool := false
  plainB : Bool := false
  closing : Bool := false
  laneReg : Option Nat := Option.none
  laneRegRead : Bool := true
  badField : Bool := false
  deriving DecidableEq, Repr

/-- The source codes with their uses. -/
def Shape.uses (sh : Shape) (f : Fields) : List (Use × Nat) :=
  [(sh.a, f.a.toNat), (sh.b, f.b.toNat), (sh.c, Fields.c f)]

def Use.isSource : Use → Bool
  | .no => false
  | .field => false
  | _ => true

/-- Whether a used source carries the code. [log 10] -/
def Shape.carries (sh : Shape) (f : Fields) (code : Nat) : Bool :=
  (sh.uses f).any fun (u, k) => u.isSource && k == code

/-! ## Decode checks (R47) -/

/-- R36: a source code of the lane set. -/
def laneCodeOk (n xs : Nat) (u : Use) (k : Nat) : Bool :=
  match u with
  | .no => k == 123
  | .w32 => k ≥ 120 || k < n
  | .w64 => if k < 120 then k % 2 == 0 && k + 1 < n else k != 120 || xs % 2 == 0
  | .quad => k == 123 || (k < 120 && k % 4 == 0 && k + 3 < n)
  | .triple => false
  | .field => true

/-- R37: a source code of the uniform set; R46: the triple of BRD. -/
def uniformCodeOk (u : Use) (k : Nat) : Bool :=
  let special := k == 121 || k ≥ 123
  match u with
  | .no => k == 123
  | .w32 => k < 64 || special
  | .w64 => (k < 64 && k % 2 == 0) || special
  | .quad => false
  | .triple => k ≤ 61
  | .field => true

/-- R38: the limit on D. -/
def Dst.ok (dst : Dst) (n d : Nat) : Bool :=
  match dst with
  | .lane => d < n && d ≤ 119
  | .lanePair => d % 2 == 0 && d + 1 < n
  | .laneQuad => d % 4 == 0 && d + 3 < n
  | .scalar => d ≤ 63
  | .scalarPair => d % 2 == 0 && d ≤ 62
  | .triple => d ≤ 61
  | .none => d == 0
  | .field => true

/-- R39: the kinds that N = 1 is permitted for. -/
def Dst.discards (dst : Dst) : Bool :=
  match dst with
  | .lane | .lanePair | .scalar | .scalarPair | .triple => true
  | .laneQuad | .none | .field => false

/-- R51: whether the kind leaves a value in the latch. [log 34] -/
def Dst.leaves (dst : Dst) : Bool :=
  match dst with
  | .none | .field => false
  | _ => true

/-- R47 step 1, ILLEGAL-OPCODE: an act-closing instruction with E = 0 (R50), a modifier value that is not listed
(R73), an unused bit of X.s or X.imm that is not 0 (R44). In a short opcode X.imm is never used; an X.s or X.imm that
the description makes 0 is unused whatever the sources are. [log 10] -/
def badOpcode (uniform : Bool) (sh : Shape) (f : Fields) : Bool :=
  let isX2 := match f.ext with | .x2 _ _ _ => true | _ => false
  let usedXs := !sh.zeroXs && (sh.ownXs || (!uniform && sh.carries f 120))
  let usedImm : BitVec 19 :=
    if sh.zeroImm then 0 else if sh.ownImm then sh.immMask else if sh.long && sh.carries f 121 then -1 else 0
  (sh.closing && !f.e) || sh.badModifier
    || (isX2 && ((Fields.xs f != 0 && !usedXs) || (Fields.imm f &&& ~~~usedImm) != 0))

/-- R47 step 2, ILLEGAL-OPERAND: R36 to R39, R41, R44 and R46. [log 11] -/
def badOperand (uniform : Bool) (sh : Shape) (n : Nat) (f : Fields) : Bool :=
  let both := !sh.long && (f.a == 120 || f.b == 120) && (f.a == 121 || f.b == 121)
  let codes := (sh.uses f).all fun (u, k) =>
    if uniform then uniformCodeOk u k else laneCodeOk n (Fields.xs f) u k
  let conflict := (sh.ownXs && sh.carries f 120) || (sh.ownImm && sh.carries f 121)
  let wideB := sh.plainB && (f.b == 120 || f.b == 121)
  let dst := if f.n then f.d == 0 && sh.dst.discards else sh.dst.ok n f.d.toNat
  both || !codes || conflict || wideB || !dst || sh.badField || sh.laneReg.any (n ≤ ·)

/-- R47 step 3, ILLEGAL-LATCH: a source latch that holds no value (R52). -/
def badLatch (uniform : Bool) (sh : Shape) (p : ActPos) (f : Fields) : Bool :=
  (sh.uses f).any fun (u, k) =>
    u.isSource && k ≥ 124
      && (if uniform then (p.uniLatch.getD (k - 124) none).isNone
          else (p.laneLatch.getD (k - 124) none).isNone)

/-- The first of the decode traps (R47). -/
def decodeTrap (uniform : Bool) (sh : Shape) (f : Fields) (t : Troupe) : Option Nat :=
  if badOpcode uniform sh f then some cIllegalOpcode
  else if badOperand uniform sh t.v.length f then some cIllegalOperand
  else if badLatch uniform sh t.pos f then some cIllegalLatch
  else none

/-! ## Reading sources -/

/-- A lane of a lane-pipe latch. -/
def ActPos.lane (p : ActPos) (k i : Nat) : DWord :=
  match p.laneLatch.getD k none with
  | some g => g.getD i 0
  | none => 0

def ActPos.uni (p : ActPos) (k : Nat) : DWord := (p.uniLatch.getD k none).getD 0

/-- A 32-bit source of the lane set in lane i (R36). -/
def Troupe.lane32 (t : Troupe) (f : Fields) (k i : Nat) : Word :=
  if k < 120 then rowGet (t.vrow k) i
  else if k = 120 then t.sreg (Fields.xs f)
  else if k = 121 then Fields.im f
  else if k = 122 then BitVec.ofNat 32 i
  else if k = 123 then 0
  else (t.pos.lane (k - 124) i).setWidth 32

/-- A 64-bit source of the lane set in lane i (R36). -/
def Troupe.lane64 (t : Troupe) (f : Fields) (k i : Nat) : DWord :=
  if k < 120 then rowGet (t.vrow (k + 1)) i ++ rowGet (t.vrow k) i
  else if k = 120 then t.spair (Fields.xs f)
  else if k = 121 then (Fields.im f).signExtend 64
  else if k = 122 then BitVec.ofNat 64 i
  else if k = 123 then 0
  else t.pos.lane (k - 124) i

def Troupe.a32 (t : Troupe) (f : Fields) (i : Nat) : Word := t.lane32 f f.a.toNat i
def Troupe.b32 (t : Troupe) (f : Fields) (i : Nat) : Word := t.lane32 f f.b.toNat i
def Troupe.c32 (t : Troupe) (f : Fields) (i : Nat) : Word := t.lane32 f (Fields.c f) i
def Troupe.a64 (t : Troupe) (f : Fields) (i : Nat) : DWord := t.lane64 f f.a.toNat i
def Troupe.b64 (t : Troupe) (f : Fields) (i : Nat) : DWord := t.lane64 f f.b.toNat i
def Troupe.c64 (t : Troupe) (f : Fields) (i : Nat) : DWord := t.lane64 f (Fields.c f) i

/-- A 32-bit source of the uniform set (R37). -/
def Troupe.uni32 (t : Troupe) (f : Fields) (k : Nat) : Word :=
  if k < 64 then t.sreg k
  else if k = 121 then Fields.im f
  else if k = 123 then 0
  else (t.pos.uni (k - 124)).setWidth 32

/-- A 64-bit source of the uniform set (R37, R122). -/
def Troupe.uni64 (t : Troupe) (f : Fields) (k : Nat) : DWord :=
  if k < 64 then t.spair k
  else if k = 121 then (Fields.im f).signExtend 64
  else if k = 123 then 0
  else t.pos.uni (k - 124)

def Troupe.ua (t : Troupe) (f : Fields) : Word := t.uni32 f f.a.toNat
def Troupe.ub (t : Troupe) (f : Fields) : Word := t.uni32 f f.b.toNat
def Troupe.uc (t : Troupe) (f : Fields) : Word := t.uni32 f (Fields.c f)
def Troupe.ua64 (t : Troupe) (f : Fields) : DWord := t.uni64 f f.a.toNat
def Troupe.ub64 (t : Troupe) (f : Fields) : DWord := t.uni64 f f.b.toNat

/-! ## Interlocks (R40) -/

/-- Lane registers that a memory operation has yet to write. -/
def MemOp.width (o : MemOp) : Nat :=
  match o.kind with
  | .loadG _ | .ldro _ | .loadSp => if o.sub = 5 then 2 else if o.sub = 6 then 4 else 1
  | .atomG | .atomSp => if o.sub ≥ 13 then 2 else 1
  | _ => 1

def MemOp.isGroup (o : MemOp) : Bool :=
  match o.kind with
  | .ldgr _ => true
  | _ => false

def regRange (r n : Nat) : List Nat := (List.range n).map (r + ·)

/-- The company that answers for member core `c` of a group load (R265). -/
def State.memberOf (s : State) (lid c : Nat) : Option Company :=
  (s.companies.filter fun k => k.lid == lid && k.core == some c).foldl
    (fun best k => match best with
      | some b => if k.admitted < b.admitted then some k else best
      | none => some k) none

/-- The value that a group load has read early of member core `c` for a lane (R267). -/
def MemOp.sample? (o : MemOp) (c lane : Nat) : Option (Option Word) :=
  match o.samples.find? (·.1 == c) with
  | some (_, vs) => (vs.find? (·.1 == lane)).map (·.2)
  | none => none

def MemOp.sampled (o : MemOp) (c lane : Nat) : Bool := (o.sample? c lane).isSome

/-- Whether an operation waits on an empty line: a group load on a member's (R265, R136), a scratchpad load on one
that was emptied after it issued. -/
def State.groupWaits (s : State) (lid cid : Nat) (o : MemOp) : Bool :=
  match o.kind with
  | .ldgr members =>
    (List.range Config.cores).any fun c => members.getLsbD c &&
      match s.memberOf lid c with
      | some k => o.lanes.any fun l => !o.sampled c l.lane && k.emptyLines.contains (l.addr / 192)
      | none => false
  | .loadSp =>
    match s.company? cid with
    | some k => o.lanes.any fun l => !l.done && k.emptyLines.contains (l.addr / 192)
    | none => false
  | _ => false

/-- Lane registers and latches (of the current act) with a value in flight: with `peer`, those that another troupe or
unit must supply (edge values, exchanges, group loads on an empty line); else those of loads and atomics (R136). An access that its
own instruction waits for at issue (R167) is none of them. -/
def State.busyRegs (s : State) (t : Troupe) (peer : Bool) : List Nat :=
  ((t.ops.filter fun o => !o.sync && s.groupWaits t.lid t.cid o == peer).flatMap fun o => match o.dest with
    | some d => regRange d o.width
    | none => [])
  ++ (if peer then t.edges.filterMap (·.dest)
        ++ (s.xchgs.filter (fun x => x.uid == t.uid && !x.done)).filterMap (·.dest)
      else [])

/-- Whether an operation has a value for its latch (R51): loads, and atomics whether N is 0 or 1. -/
def MemOp.fillsLatch (o : MemOp) : Bool :=
  match o.kind with
  | .atomG | .atomSp | .bcDec => true
  | _ => o.raisesLd

def State.busyLatches (s : State) (t : Troupe) (peer : Bool) : List Nat :=
  ((t.ops.filter fun o => !o.sync && o.act == t.actSerial && o.fillsLatch && s.groupWaits t.lid t.cid o == peer).map (·.latch))
  ++ (if peer then ((t.edges.filter (·.act == t.actSerial)).map (·.latch))
        ++ ((s.xchgs.filter fun x => x.uid == t.uid && !x.done && x.act == t.actSerial).map (·.latch))
      else [])

def Use.count : Use → Nat
  | .w64 => 2
  | .quad => 4
  | _ => 1

/-- The lane registers an instruction reads. -/
def Shape.reads (uniform : Bool) (sh : Shape) (f : Fields) : List Nat :=
  (if uniform then []
   else (sh.uses f).flatMap fun (u, k) => if u.isSource && k < 120 then regRange k u.count else [])
  ++ if sh.laneRegRead then sh.laneReg.toList else []

/-- The lane registers an instruction reads or writes. -/
def Shape.regs (uniform : Bool) (sh : Shape) (f : Fields) : List Nat :=
  let dst := if f.n then []
    else match sh.dst with
      | .lane => [f.d.toNat]
      | .lanePair => regRange f.d.toNat 2
      | .laneQuad => regRange f.d.toNat 4
      | _ => []
  sh.reads uniform f ++ dst ++ sh.laneReg.toList

/-- The lane latches an instruction reads. -/
def Shape.latches (uniform : Bool) (sh : Shape) (f : Fields) : List Nat :=
  if uniform then []
  else (sh.uses f).filterMap fun (u, k) => if u.isSource && k ≥ 124 then some (k - 124) else none

/-- Whether any of these registers or latches has a value in flight of that kind. -/
def State.inFlight (s : State) (t : Troupe) (peer : Bool) (regs latches : List Nat) : Bool :=
  regs.any (fun r => (s.busyRegs t peer).contains r) || latches.any (fun k => (s.busyLatches t peer).contains k)

/-- The park of an instruction that must wait for a value in flight (R40, R136): a stall, but that a troupe is not ready
while the first instruction of its next act reads a register whose load is in flight. [log 12, 118] -/
def State.interlock? (s : State) (t : Troupe) (uniform : Bool) (sh : Shape) (f : Fields) : Option Park :=
  let regs := sh.regs uniform f
  let latches := sh.latches uniform f
  if s.inFlight t false regs latches then
    let reads := sh.reads uniform f
    if t.pos.count = 0 && s.inFlight t false reads [] then some (.load reads) else some .interlock
  else if s.inFlight t true regs latches then some (.peer regs latches)
  else none

/-! ## How an instruction ends -/

/-- The outcomes of an instruction's own effect. In each, the state holds everything but the troupe itself. [log 13] -/
inductive Out where
  /-- It completes and leaves this in its latch. -/
  | done (s : State) (t : Troupe) (l : LatchVal)
  /-- It completes with a control transfer: a new act begins at the pc (R48). -/
  | jump (s : State) (t : Troupe) (pc : DWord)
  /-- It traps (R88): tcause, taddr, tmask. -/
  | trap (s : State) (tcause : Word) (taddr : DWord) (mask : LaneMask)
  /-- The same with what it leaves in the troupe: an operation of its own that is over. -/
  | trapped (s : State) (t : Troupe) (tcause : Word) (taddr : DWord) (mask : LaneMask)
  /-- It waits: the troupe stays at its pc, in its act, and the instruction is tried again (R48, R136). -/
  | stay (s : State) (t : Troupe) (p : Park)
  /-- It completes, and the troupe parks before the instruction at the pc, in a new act (R136). -/
  | leave (s : State) (t : Troupe) (p : Park) (pc : DWord)
  /-- The troupe has retired. -/
  | gone (s : State)
  deriving DecidableEq, Repr

/-- A trap of the list of R90 raised by a uniform instruction, or at decode (R91). -/
def Out.code (s : State) (c : Nat) (taddr : DWord := 0) : Out := .trap s (BitVec.ofNat 32 c) taddr 0

/-- A trap that every active lane of a lane instruction raises, with taddr 0 (R91). [log 117] -/
def Out.lanes (s : State) (t : Troupe) (c : Nat) : Out := .trap s (BitVec.ofNat 32 c) 0 t.act

/-- The wait of an instruction that is no park of R136: a stall, which keeps the quarter; but where the troupe itself
has an operation that waits for another one to fill a scratchpad line, it parks until none has, so that the one it
waits for can run (R137, R139). [log 118] -/
def State.stall (s : State) (t : Troupe) : Park :=
  if t.ops.any (s.groupWaits t.lid t.cid) then .line else .interlock

/-- Whether the act ends with this instruction (R48): E = 1, or it is the 24th. -/
def endsAct (p : ActPos) (f : Fields) : Bool := f.e || p.count + 1 ≥ 24

/-- What RET needs to resume after this instruction (R93). -/
def resumeOf (uniform : Bool) (sh : Shape) (f : Fields) (t : Troupe) : Resume :=
  { len := Fields.len f, laneSet := !uniform, leaves := sh.dst.leaves, ends := endsAct t.pos f, fetch := false }

/-- Whether a value of number `n` of act `act`, in flight for latch `k`, is older than an instruction of `t` that leaves
its own result in that latch (R51). -/
def Troupe.replaces (t : Troupe) (next n act k : Nat) : Bool :=
  n < next && act == t.actSerial && k == t.pos.kLane % 4

/-- A lane instruction of `t0` owns its latch from its issue (R51): a value still in flight for that latch goes to its
register alone. [log 12] -/
def Troupe.claimLatch (t t0 : Troupe) (uniform : Bool) : Troupe :=
  if uniform then t
  else { t with
    ops := t.ops.map fun o => if t0.replaces t0.nextOp o.id o.act o.latch then { o with latch := 4 } else o,
    edges := t.edges.map fun e => if t0.replaces t0.xseq e.n e.act e.latch then { e with latch := 4 } else e }

/-- The same for the troupe's exchanges. [log 12] -/
def State.claimLatch (s : State) (t0 : Troupe) (uniform : Bool) : State :=
  if uniform then s
  else { s with xchgs := s.xchgs.map fun (x : Xchg) =>
    if x.uid == t0.uid && t0.replaces t0.xseq x.n x.act x.latch then { x with latch := 4 } else x }

/-- Puts an instruction's outcome into the state: `t` is the troupe as it was before. [log 118] -/
def finishInstr (t : Troupe) (uniform : Bool) (sh : Shape) (f : Fields) (o : Out) : State :=
  match o with
  | .done s1 t1 l =>
    let s1 := s1.claimLatch t uniform
    let t2 := { t1.claimLatch t uniform with
      pc := t.pc + BitVec.ofNat 64 (Fields.len f), pos := t.pos.advance uniform l, park := .run, declined := [] }
    if endsAct t.pos f then (s1.setTroupe t2.newAct).releaseQuarter t else s1.setTroupe t2
  | .jump s1 t1 pc =>
    (s1.setTroupe { t1 with pc := pc, park := .run, declined := [] }.newAct).releaseQuarter t
  | .trap s1 tcause taddr mask =>
    (s1.claimLatch t uniform).takeTrap (t.claimLatch t uniform) tcause taddr mask (resumeOf uniform sh f t)
  | .trapped s1 t1 tcause taddr mask =>
    (s1.claimLatch t uniform).takeTrap (t1.claimLatch t uniform) tcause taddr mask (resumeOf uniform sh f t)
  | .stay s1 t1 p =>
    let s2 := s1.setTroupe
      { t1 with park := p, parkedAt := s1.clock.toNat, parkResume := resumeOf uniform sh f t }
    match p with
    | .interlock => s2
    | .load _ => s2.unchoose t
    | _ => s2.releaseQuarter t
  | .leave s1 t1 p pc =>
    (s1.setTroupe { t1 with pc := pc, park := p, declined := [] }.newAct).releaseQuarter t
  | .gone s1 => s1.releaseQuarter t

/-- The troupe whose instruction is executed. [log 114] -/
def State.current (s : State) : Option Troupe :=
  match s.cur with
  | some uid => s.troupe? uid
  | none => none

/-- Issues an instruction of the current troupe: the decode checks in their order (R47), the interlocks (R40), and
then its own effect. [log 13, 114] -/
def issue (uniform : Bool) (sh : Shape) (f : Fields) (s : State) (body : Troupe → Out) :
    Host.Outcome State Fault Refusal :=
  match s.current with
  | none => .fault .noTroupe
  | some t =>
    .next (finishInstr t uniform sh f
      (match decodeTrap uniform sh f t with
       | some c => Out.code s c
       | none =>
         match s.interlock? t uniform sh f with
         | some p => .stay s t p
         | none => body t))

/-! ## Results -/

/-- Writes a lane register in the active lanes, and the latch (R51, R78). -/
def Troupe.putLane (t : Troupe) (f : Fields) (g : Nat → Word) : Troupe :=
  if f.n then t else t.setV f.d.toNat t.act g

def laneOut (s : State) (t : Troupe) (f : Fields) (g : Nat → Word) : Out :=
  .done s (t.putLane f g) (laneLatchOf t.act fun i => (g i).setWidth 64)

/-- Writes a lane pair. -/
def lanePairOut (s : State) (t : Troupe) (f : Fields) (g : Nat → DWord) : Out :=
  let t' := if f.n then t
    else (t.setV f.d.toNat t.act fun i => (g i).extractLsb' 0 32).setV (f.d.toNat + 1) t.act
      fun i => (g i).extractLsb' 32 32
  .done s t' (laneLatchOf t.act g)

/-- A mask triple of a lane instruction: its bits for the active lanes (R100), and the latch of R51. -/
def laneTripleOut (s : State) (t : Troupe) (f : Fields) (g : Nat → Bool) : Out :=
  let m := maskOf fun i => t.active i && g i
  .done s (if f.n then t else t.setTriple f.d.toNat m)
    (.lane ((List.range Config.lanes).map fun i => if m.getLsbD i then 1 else 0))

/-- A scalar result of a lane instruction: the latch holds it in every lane (R51). -/
def laneScalarOut (s : State) (t : Troupe) (f : Fields) (w : Word) : Out :=
  .done s (if f.n then t else t.setS f.d.toNat w) (.lane (List.replicate Config.lanes (w.setWidth 64)))

/-- A scalar result of a uniform instruction. -/
def scalarOut (s : State) (t : Troupe) (f : Fields) (w : Word) : Out :=
  .done s (if f.n then t else t.setS f.d.toNat w) (.uni (w.setWidth 64))

/-- A scalar pair result of a uniform instruction. -/
def pairOut (s : State) (t : Troupe) (f : Fields) (w : DWord) : Out :=
  .done s (if f.n then t else t.setSPair f.d.toNat w) (.uni w)

end Sys2Proof.Machine
end

