-- ==== Sys2Proof/Machine/Flags.lean ====
section
/-!
DEFINITION. The sticky flags (R12, R13): a lane instruction raises the flags of its active lanes together.
-/
namespace Sys2Proof.Machine

/-- ORs flags into fflags. -/
def Troupe.raise (t : Troupe) (fl : Flags) : Troupe := { t with fflags := t.fflags ||| fl.setWidth 32 }

/-- The flags of the active lanes together (R13). -/
def activeFlags (t : Troupe) (g : Nat → Flags) : Flags :=
  (List.range Config.lanes).foldl (fun fl i => if t.active i then fl ||| g i else fl) 0

/-- A lane result with flags: `g` gives each lane's code and flags. -/
def fpOut (s : State) (t : Troupe) (f : Fields) (g : Nat → Rounded) : Out :=
  laneOut s (t.raise (activeFlags t fun i => (g i).flags)) f fun i => BitVec.ofNat 32 (g i).code

end Sys2Proof.Machine
end

