-- ==== Sys2Proof/Machine/Access.lean ====
section
/-!
DEFINITION. Memory accesses of a troupe: the checks of a lane instruction (R161, R340), operations in flight and the
order they keep (R153, R163, R166), and the synchronous reads of uniform instructions.
-/
namespace Sys2Proof.Machine

/-- R57: the global address of a lane, of base, offset and displacement. -/
def globalAddr (base : DWord) (off : Word) (disp : Int) : Nat :=
  ((((base.toNat + off.toNat : Nat) : Int) + disp) % (2 ^ 56 : Nat)).toNat

/-- R57: the scratchpad offset of a lane. -/
def spadAddr (off : Word) (disp : Int) : Nat := (((off.toNat : Int) + disp) % (2 ^ 21 : Nat)).toNat

/-- Signed value of the low `w` bits of X.imm. -/
def Fields.disp (f : Fields) (w : Nat) : Int := signedOf w (Fields.imm f).toNat

def Troupe.lanes (t : Troupe) : List Nat := (List.range Config.lanes).filter t.active

/-- Translates one access of a troupe; a page whose fault the host declined gives no permission (R340). -/
def State.translateFor (s : State) (t : Troupe) (va : Nat) (p : Perm) : State × Tr :=
  match s.translate .lsu t.core (s.rootOf t.lid) va p with
  | (s, .report) => (s, if t.declined.contains (faultGranule va) then .denied else .report)
  | r => r

/-- What the lanes of an instruction come to: requests to perform, a trap, or faults to wait for. -/
inductive Lanes where
  | go (reqs : List LaneReq)
  | trap (code : Nat) (taddr : DWord) (mask : LaneMask)
  | wait (tokens : List Nat)
  deriving DecidableEq, Repr

/-- An access of a lane that is served in place counts towards its page's promotion (R321, R323). -/
def State.countReq (s : State) (t : Troupe) (r : LaneReq) : State := s.countHot (s.rootOf t.lid) r.addr r.pa r.entry r.psize

def newReq (lane addr pa : Nat) (e : DWord) (psize : Nat) : LaneReq :=
  { lane := lane, addr := addr, pa := pa, entry := e, psize := psize, data := 0, cmp := 0, done := false,
    result := 0, miss := none, status := 0, taddr := 0, refused := false, refusals := 0, rdcRefusals := 0, heldUntil := 0 }

/-- Adds a lane's fault to the tokens waited for. -/
def State.parkLane (s : State) (t : Troupe) (va : Nat) (migrate : Bool) (tokens : List Nat) : State × List Nat :=
  let (s, k) := s.faultToken (s.rootOf t.lid) (s.queueOf t.lid) va migrate
  (s, if tokens.contains k then tokens else tokens ++ [k])

/-- The global checks of R161 for every active lane: MISALIGNED; then faults, which park until each is answered
(R340); then PERMISSION. [log 18] -/
def State.globalLanes (s : State) (t : Troupe) (align : Nat) (p : Perm) (addr : Nat → Nat) : State × Lanes :=
  let bad := t.lanes.filter fun i => addr i % align != 0
  match bad with
  | i :: _ => (s, .trap cMisaligned (BitVec.ofNat 64 (addr i)) (maskOf fun k => bad.contains k))
  | [] =>
    let (s, rs) := t.lanes.foldl (fun (s, rs) i =>
      let (s, r) := s.translateFor t (addr i) p
      (s, rs ++ [(i, r)])) ((s, []) : State × List (Nat × Tr))
    let (s, tokens) := rs.foldl (fun (s, ks) (i, r) =>
      match r with
      | .report => s.parkLane t (addr i) false ks
      | .migrate => s.parkLane t (addr i) true ks
      | _ => (s, ks)) (s, [])
    if !tokens.isEmpty then (s, .wait tokens)
    else
      let denied := rs.filterMap fun (i, r) => if r = .denied then some i else none
      match denied with
      | i :: _ => (s, .trap cPermission (BitVec.ofNat 64 (addr i)) (maskOf fun k => denied.contains k))
      | [] =>
        (s, .go (rs.filterMap fun (i, r) => match r with
          | .ok pa e psize => some (newReq i (addr i) pa e psize)
          | _ => none))

/-- The scratchpad checks of R161: MISALIGNED, then SPAD-RANGE (R143). [log 18] -/
def State.spadLanes (s : State) (t : Troupe) (align size : Nat) (addr : Nat → Nat) : Lanes :=
  let limit := match s.company? t.cid with | some c => c.size | none => 0
  let bad := t.lanes.filter fun i => addr i % align != 0
  match bad with
  | i :: _ => .trap cMisaligned (BitVec.ofNat 64 (addr i)) (maskOf fun k => bad.contains k)
  | [] =>
    let out := t.lanes.filter fun i => addr i + size > limit
    match out with
    | i :: _ => .trap cSpadRange (BitVec.ofNat 64 (addr i)) (maskOf fun k => out.contains k)
    | [] => .go (t.lanes.map fun i => newReq i (addr i) 0 0 0)

/-! ## Order of operations in flight -/

def MemOp.isSpad (o : MemOp) : Bool :=
  match o.kind with
  | .loadSp | .storeSp _ | .atomSp => true
  | _ => false

def MemOp.isLoad (o : MemOp) : Bool :=
  match o.kind with
  | .loadG _ | .loadSp => true
  | _ => false

def MemOp.isStore (o : MemOp) : Bool :=
  match o.kind with
  | .storeG | .storeSp _ => true
  | _ => false

def MemOp.isLdro (o : MemOp) : Bool :=
  match o.kind with
  | .ldro _ => true
  | _ => false

/-- Kinds whose accesses carry addresses of their own: loads, LDRO, stores, atomics, counter operations. A group load, a
query and an edit keep their orders elsewhere. -/
def MemOp.isOrdered (o : MemOp) : Bool :=
  match o.kind with
  | .ldgr _ | .query _ | .edit _ _ => false
  | _ => true

/-- Whether an operation writes: a store, an atomic, a counter operation. -/
def MemOp.writes (o : MemOp) : Bool := o.isOrdered && !o.isLoad && !o.isLdro

/-- Bytes of one lane's access. -/
def widthBytes (w : Nat) : Nat :=
  match w with
  | 0 => 4
  | 1 | 2 => 1
  | 3 | 4 => 2
  | 5 => 8
  | _ => 16

def MemOp.size (o : MemOp) : Nat :=
  match o.kind with
  | .loadG _ | .ldro _ | .loadSp | .storeG | .storeSp _ => widthBytes o.sub
  | .atomG | .atomSp => if o.sub ≥ 13 then 8 else 4
  | .ldgr _ => if o.sub = 3 then 2 else 4
  | .query _ | .edit _ _ => 0
  | _ => 192

/-- Where a lane's access lies in its space. -/
def MemOp.at_ (o : MemOp) (r : LaneReq) : Nat := if o.isSpad then r.addr else r.pa

def overlaps (a n b m : Nat) : Bool := a < b + m && b < a + n

/-- Whether `n` bytes at offset `a` of its company's scratchpad meet bytes that a group load of troupe `t` has still to read
there (R153, R265). -/
def State.groupMeets (s : State) (t : Troupe) (e : MemOp) (a n : Nat) : Bool :=
  match e.kind with
  | .ldgr members =>
    match (s.company? t.cid).bind (·.core) with
    | some c => members.getLsbD c && (s.memberOf t.lid c).any (·.cid == t.cid)
        && e.lanes.any fun x => !e.sampled c x.lane && overlaps a n x.addr e.size
    | none => false
  | _ => false

/-- Whether a lane's access meets bytes of an undone lane of another operation. -/
def MemOp.meets (o : MemOp) (r : LaneReq) (e : MemOp) : Bool :=
  o.isSpad == e.isSpad && e.isOrdered && e.lanes.any fun x => !x.done && overlaps (o.at_ r) o.size (e.at_ x) e.size

/-- Whether lane `r` of operation `o` keeps behind the earlier operation `e` of its troupe where their bytes meet (R153,
R166): but a load takes the data of its troupe's own earlier plain stores; LDRO keeps behind the stores before its
troupe's last ROINV only (R148), and lets no later store pass it. [log 20] -/
def Troupe.keepsBehind (t : Troupe) (o e : MemOp) : Bool :=
  if o.isLdro then e.writes && e.id < t.roinvAt
  else if e.isLdro then o.writes
  else o.isOrdered && !(o.isLoad && e.isStore)

/-- Whether every byte of a lane's load is covered by earlier plain stores of its troupe still in flight. -/
def Troupe.covers (t : Troupe) (o : MemOp) (a : Nat) : Bool :=
  t.ops.any fun e => e.id < o.id && e.isStore && e.isSpad == o.isSpad
    && e.lanes.any fun x => !x.done && e.at_ x ≤ a && a < e.at_ x + e.size

/-- Whether a lane's access sends a request to a slice: not where it is served by the core's own L1 (R145), by the
read-only cache, or by the troupe's own stores in flight (R166). -/
def State.sendsRequest (s : State) (t : Troupe) (o : MemOp) (r : LaneReq) : Bool :=
  let line := (s.loc r.pa r.entry r.psize).line
  let hit := (s.core t.core).l1.any fun x => x.line == line && (o.isLoad || x.owned)
  !o.isSpad && o.isOrdered && !(o.isLdro && (s.core t.core).ro.any (·.line == line)) && !(hit && !o.isLdro)
    && !(o.isLoad && (List.range o.size).all fun i => t.covers o (o.at_ r + i))

/-- Whether a lane's request has been refused and is not yet performed (R239). -/
def LaneReq.sentBefore (r : LaneReq) : Bool := !r.done && r.refusals + r.rdcRefusals != 0

/-- R238: a core sends the requests of a troupe to one line in program order, and holds every later request of its troupes
to a line behind one that a slice has refused. -/
def State.lineBefore (s : State) (t : Troupe) (o : MemOp) (r : LaneReq) : Bool :=
  s.sendsRequest t o r &&
    let line := (s.loc r.pa r.entry r.psize).line
    let on (e : MemOp) (x : LaneReq) : Bool := !e.isSpad && e.isOrdered && (s.loc x.pa x.entry x.psize).line == line
    t.ops.any (fun e => e.id < o.id && e.lanes.any fun x => !x.done && on e x)
      || (!r.sentBefore && s.troupes.any fun u => u.core == t.core && u.ops.any fun e => e.lanes.any fun x => x.sentBefore && on e x)

/-- Whether troupe `t` lies within a scope (1 troupe to 6 system) of troupe `u` (R152, R153). -/
def Troupe.within (u t : Troupe) (scope : Nat) : Bool :=
  match scope with
  | 0 | 1 => u.uid == t.uid
  | 2 => u.cid == t.cid
  | 3 => u.cid == t.cid || clusterOf u.core == clusterOf t.core
  | 4 => u.cid == t.cid || dieOf u.core == dieOf t.core
  | _ => true

/-- Whether an access in flight of troupe `u` keeps those of troupe `t` waiting that stand after an acquire made at clock
`since` or later: a release of a scope that takes `t` in has been performed after it by then (R153). -/
def MemOp.orders (e : MemOp) (u t : Troupe) (since : Nat) : Bool :=
  u.uid != t.uid && e.released.any fun (at_, scope) => at_ ≤ since && u.within t scope

/-- Whether lane `r` of operation `o` waits for an access of another troupe that a performed release has left in flight
(R153). -/
def State.mateHolds (s : State) (t : Troupe) (o : MemOp) (r : LaneReq) : Bool :=
  s.troupes.any fun u => (!o.isSpad || u.cid == t.cid) && u.ops.any fun e =>
    e.orders u t o.since && ((!(o.isLoad && !e.writes) && o.meets r e) || (o.isSpad && o.writes && s.groupMeets u e r.addr o.size))

/-- Whether the accesses before operation number `n` of a troupe let a release at this scope be performed, one that stands
after what an acquire made by clock `since` has ordered (R153, R173, R243). At troupe scope nothing is asked. At the scopes
from company to die none of them is an acquire or waits on an empty line; those in flight stay in order for that scope
(`State.performRelease`). From package scope on all of them are performed, with what other troupes' releases have ordered
before them, and no invalidation is outstanding. [log 21] -/
def State.releaseOk (s : State) (t : Troupe) (n scope since : Nat) : Bool :=
  scope < 2 || (t.ops.all (fun e => n ≤ e.id || (!e.acquire && !s.groupWaits t.lid t.cid e))
    && (scope < 5 || (t.ops.all (fun e => n ≤ e.id)
      && s.troupes.all (fun u => u.ops.all fun e => !e.orders u t since) && s.invals.isEmpty)))

/-- The releases an operation carries: its own, and those of the fences before a store or atomic (R173). [log 119] -/
def Troupe.releasesOf (t : Troupe) (o : MemOp) : List (Nat × Nat) :=
  (if o.release then [(o.id, o.scope)] else []) ++ (if o.writes then t.fences.filter (·.1 ≤ o.id) else [])

/-- A release at a scope narrower than package has been performed after an access in flight: the first one's clock, and the
widest scope (R153). -/
def MemOp.release_ (e : MemOp) (clock scope : Nat) : MemOp :=
  { e with released := match e.released with
    | some (at_, k) => some (at_, max k scope)
    | none => some (clock, scope) }

/-- The same for every access of a troupe before operation number `n`. -/
def Troupe.markReleased (t : Troupe) (n clock scope : Nat) : Troupe :=
  { t with ops := t.ops.map fun e => if e.id < n then e.release_ clock scope else e }

/-- Whether lane `r` of operation `o` of troupe `t` may be performed now, but for the other lanes of `o` (R153, R163, R166,
R173, R238, R239): not refused; not on a string under edit (R287); after every earlier acquire; a release after what it
orders; after earlier accesses to the same bytes and earlier requests to the same line. [log 20] -/
def State.laneFree (s : State) (t : Troupe) (o : MemOp) (r : LaneReq) : Bool :=
  let earlier := t.ops.filter (·.id < o.id)
  !r.refused && !r.done && (o.isSpad || !s.sideHeld (s.loc r.pa r.entry r.psize) o.size)
    && earlier.all (fun e => !e.acquire)
    && (t.releasesOf o).all (fun (n, scope) => s.releaseOk t n scope o.since)
    && earlier.all (fun e => !(t.keepsBehind o e && o.meets r e) && !(o.isSpad && s.groupMeets t e r.addr o.size))
    && !s.lineBefore t o r && !s.mateHolds t o r

/-- The same, after the lower lanes on the same bytes of a store or atomic (R153). -/
def State.laneEnabled (s : State) (t : Troupe) (o : MemOp) (r : LaneReq) : Bool :=
  s.laneFree t o r
    && (o.isLoad || o.lanes.all fun x => x.done || r.lane ≤ x.lane || !overlaps (o.at_ r) o.size (o.at_ x) o.size)

/-- The bytes a load of a troupe returns where memory holds `bs`: the newest of its own earlier plain stores still in
flight goes before memory (R166). [log 20] -/
def Troupe.forward (t : Troupe) (o : MemOp) (r : LaneReq) (bs : List Byte) : List Byte :=
  bs.zipIdx.map fun (b, i) =>
    let a := o.at_ r + i
    t.ops.foldl (fun b e =>
      if e.id < o.id && e.isStore && e.isSpad == o.isSpad then
        e.lanes.foldl (fun b x =>
          if !x.done && e.at_ x ≤ a && a < e.at_ x + e.size then x.data.extractLsb' (8 * (a - e.at_ x)) 8 else b) b
      else b) b

/-- Whether a troupe has an operation in flight on these physical bytes, or an acquire in flight, or another troupe one that
a release has ordered: a synchronous read waits for all of them. -/
def State.blocksRead (s : State) (t : Troupe) (pa n : Nat) : Bool :=
  let on (e : MemOp) : Bool := !e.isSpad && e.isOrdered && !e.isLdro
    && e.lanes.any fun x => !x.done && overlaps pa n (e.at_ x) e.size
  t.ops.any (fun e => e.acquire || on e)
    || s.troupes.any fun u => u.ops.any fun e => e.orders u t s.clock.toNat && on e

/-- Puts a new operation at the end of the troupe's. -/
def Troupe.addOp (t : Troupe) (o : MemOp) : Troupe :=
  { t with ops := t.ops ++ [o], nextOp := t.nextOp + 1, ld := if o.raisesLd then t.ld + 1 else t.ld,
           st := if o.raisesSt then t.st + 1 else t.st }

/-- What the releases that an operation carries leave behind when one of its lanes is performed: below package scope the
accesses still in flight before them, of the troupe and of those whose releases it may have acquired, stay in order for the
scope of the release (R153). -/
def State.performRelease (s : State) (t : Troupe) (o : MemOp) : State :=
  (t.releasesOf o).foldl (fun s (n, scope) =>
    if scope < 2 || 5 ≤ scope then s
    else { s with troupes := s.troupes.map fun u =>
      if u.uid == t.uid then u.markReleased n s.clock.toNat scope
      else { u with ops := u.ops.map fun e => if e.orders u t o.since then e.release_ s.clock.toNat scope else e } }) s

/-- An acquire of a troupe is performed: its later accesses stand after what it has read from on (R153). -/
def Troupe.acquired (t : Troupe) (o : MemOp) (clock : Nat) : Troupe :=
  if o.acquire then { t with ops := t.ops.map fun e => if o.id < e.id then { e with since := clock } else e } else t

/-- An operation leaves its troupe, and its counts fall. -/
def Troupe.dropOp (t : Troupe) (o : MemOp) : Troupe :=
  { t with ops := t.ops.filter (·.id != o.id), ld := if o.raisesLd then t.ld - 1 else t.ld,
           st := if o.raisesSt then t.st - 1 else t.st }

/-- Puts an operation back; one whose lanes are all done leaves, but one whose instruction waits for it (R167). -/
def Troupe.putOp (t : Troupe) (o : MemOp) : Troupe :=
  if o.lanes.all (·.done) && !o.sync then t.dropOp o
  else { t with ops := t.ops.map fun x => if x.id == o.id then o else x }

def Troupe.op? (t : Troupe) (id : Nat) : Option MemOp := t.ops.find? (·.id == id)

def MemOp.setLane (o : MemOp) (r : LaneReq) : MemOp :=
  { o with lanes := o.lanes.map fun x => if x.lane == r.lane then r else x }

/-- Writes a lane's `n` result registers of an operation from D on (R162). -/
def Troupe.writeResult (t : Troupe) (o : MemOp) (lane n : Nat) (v : Nat) : Troupe :=
  match o.dest with
  | some d => (List.range n).foldl (fun (t : Troupe) j => t.setVLane (d + j) lane (BitVec.ofNat 32 (v / 2 ^ (32 * j)))) t
  | none => t

/-- The same, and the latch (R51). -/
def Troupe.deliver (t : Troupe) (o : MemOp) (lane n : Nat) (v : Nat) : Troupe :=
  let t := t.writeResult o lane n v
  if n ≤ 2 then t.latchLane o.act o.latch lane (BitVec.ofNat 64 (v % 2 ^ (32 * n)))
  else t.latchLane o.act o.latch lane (BitVec.ofNat 64 v)

/-- Whether the troupe's launch traps on poisoned data (R61, R90, R167). [log 24] -/
def State.poisonTraps (s : State) (t : Troupe) : Bool :=
  match s.launch? t.lid with
  | some l => l.hdr.poison
  | none => false

/-- A line of a company's scratchpad turns full: the troupes parked on it go on once every line they wait for is full
(R146). -/
def State.wakeLine (s : State) (cid line : Nat) : State :=
  match s.company? cid with
  | none => s
  | some c =>
    { s with troupes := s.troupes.map fun t =>
      match t.park with
      | .empty waits =>
        if t.cid == cid && waits.any (fun (_, o) => o / 192 == line)
            && waits.all (fun (_, o) => !c.emptyLines.contains (o / 192)) then { t with park := .run }
        else t
      | _ => t }

/-- Sets a line full and releases the troupes that wait for it alone. -/
def State.fillLine (s : State) (cid line : Nat) : State := (s.updCompany cid (·.setFull line)).wakeLine cid line

/-! ## Waiting on empty lines (R146, R147, R265) -/

/-- The member cores of a group load. -/
def MemOp.memberCores (o : MemOp) : List Nat :=
  match o.kind with
  | .ldgr members => (List.range Config.cores).filter members.getLsbD
  | _ => []

/-- The lanes of an operation in flight that wait on an empty line, with their offsets (R146, R265). -/
def State.opWaits (s : State) (t : Troupe) (o : MemOp) : List (Nat × Nat) :=
  let empty (k : Company) (r : LaneReq) : Bool := k.emptyLines.contains (r.addr / 192)
  let waiting (r : LaneReq) : Bool :=
    match o.kind with
    | .ldgr _ => o.memberCores.any fun c => !o.sampled c r.lane && (s.memberOf t.lid c).any fun k => empty k r
    | .loadSp => !r.done && (s.company? t.cid).any fun k => empty k r
    | _ => false
  (o.lanes.filter waiting).map fun r => (r.lane, r.addr)

/-- Whether the park of a troupe waits for an operation of its own. [log 120] -/
def Troupe.awaits (t : Troupe) (o : MemOp) : Bool :=
  match t.park with
  | .peer regs latches =>
    (match o.dest with | some d => (regRange d o.width).any regs.contains | none => false)
      || (o.act == t.actSerial && latches.contains o.latch)
  | .line | .fence _ _ _ => true
  | .wait limits => t.ld > bitsOf limits.toNat 5 0
  | _ => false

/-- The wait on an empty line that a troupe is parked on: the lanes with their offsets, and the troupe without the
operation that waits; it has no effect then (R88, R147, R265). [log 120] -/
def State.lineWait (s : State) (t : Troupe) : List (Nat × Nat) × Troupe :=
  match t.park with
  | .empty waits =>
    (waits.filter fun (_, o) => (s.company? t.cid).any fun c => c.emptyLines.contains (o / 192), t)
  | _ =>
    match t.ops.find? fun o => t.awaits o && !(s.opWaits t o).isEmpty with
    | some o => (s.opWaits t o, t.dropOp o)
    | none => ([], t)

/-- The clocks that troupes have been parked on an empty line start to count where a change of the state has made one of them
wait that did not before (R147). -/
def State.restartWaits (s before : State) : State :=
  { s with troupes := s.troupes.map fun t =>
    if (before.lineWait t).1.isEmpty && !(s.lineWait t).1.isEmpty then { t with parkedAt := s.clock.toNat } else t }

/-- Lines of a company's scratchpad turn empty (R146). -/
def State.emptyTheLines (s : State) (cid : Nat) (lines : List Nat) : State :=
  (s.updCompany cid fun c => lines.foldl (fun c l => c.setEmpty l) c).restartWaits s

/-! ## Synchronous reads of uniform instructions -/

/-- A read of global memory at issue: its bytes; a value to wait for; a trap. -/
inductive Fetched where
  | got (s : State) (bs : List Byte)
  | wait (s : State) (p : Park)
  | trap (code : Nat) (va : Nat)
  deriving DecidableEq, Repr

/-- Reads `n` bytes at `va`, within one line, as an ordinary load of the troupe (R127, R367). -/
def State.readNow (s : State) (t : Troupe) (va n : Nat) : Fetched :=
  match s.translateFor t va .r with
  | (s, .ok pa e psize) =>
    if s.blocksRead t pa n || s.sideHeld (s.loc pa e psize) n then .wait s (s.stall t)
    else
      let (s, bs, bad) := (s.countHot (s.rootOf t.lid) va pa e psize).coreRead t.core (s.loc pa e psize) n false
      if bad then (if s.poisonTraps t then .trap cPoisonConsumed va else .got s (List.replicate n 0)) else .got s bs
  | (_, .denied) => .trap cPermission va
  | (s, r) =>
    let (s, k) := s.faultToken (s.rootOf t.lid) (s.queueOf t.lid) va (r == .migrate)
    .wait s (.fault [k])

/-- Reads a list of words, one after the other. -/
def State.readWords (s : State) (t : Troupe) (va : Nat) : Nat → List Nat → (State → List Nat → Fetched) → Fetched
  | 0, ws, k => k s ws
  | n + 1, ws, k =>
    match s.readNow t va 4 with
    | .got s bs => s.readWords t ((va + 4) % 2 ^ 56) n (ws ++ [leNat bs]) k
    | r => r

end Sys2Proof.Machine
end

