-- ==== Sys2Proof/Machine/Shake.lean ====
section
/-!
DEFINITION. SHAKE256, by which records are sealed (07 R202) and firmware is accepted and measured (20 R356, R360). The
permutation is worked out from the rules of FIPS 202, which those rules name, and holds no table.
-/
namespace Sys2Proof.Machine

/-- One step of the feedback register whose bits make the round constants. -/
def shakeFeed (r : Nat) : Nat := if r < 128 then 2 * r else (2 * r - 256) ^^^ 0x71

/-- The feedback register after one round, and that round's constant: bit 2^j - 1 is the register's bit 1 after j + 1
steps. -/
def shakeConstant (r : Nat) : Nat × Nat :=
  (List.range 7).foldl (fun (r, c) j =>
    let r := shakeFeed r
    (r, if r.testBit 1 then c + 2 ^ (2 ^ j - 1) else c)) (r, 0)

/-- Adds to every lane the parities of the column before it and, rotated by 1, of the column after it. Lane (x, y) stands
at x + 5 y. -/
def shakeSpread (a : List DWord) : List DWord :=
  let parity (x : Nat) : DWord := (List.range 5).foldl (fun p y => p ^^^ a.getD (x % 5 + 5 * y) 0) 0
  let mix := (List.range 5).map fun x => parity (x + 4) ^^^ (parity (x + 1)).rotateLeft 1
  (List.range 25).map fun i => a.getD i 0 ^^^ mix.getD (i % 5) 0

/-- Carries each lane but the first along the walk (x, y) to (y, 2 x + 3 y) that begins at (1, 0): the k-th step rotates by
the k-th triangular number. -/
def shakeWalk (a : List DWord) : List DWord :=
  ((List.range 24).foldl (fun (x, y, moved, a) k =>
    let i := y + 5 * ((2 * x + 3 * y) % 5)
    (y, (2 * x + 3 * y) % 5, a.getD i 0, a.set i (moved.rotateLeft ((k + 1) * (k + 2) / 2 % 64))))
    (1, 0, a.getD 1 0, a)).2.2.2

/-- One row of five lanes, each changed by the two after it. -/
def shakeRow : List DWord → List DWord
  | [a, b, c, d, e] =>
    let f (u v w : DWord) : DWord := u ^^^ (w &&& ~~~v)
    [f a b c, f b c d, f c d e, f d e a, f e a b]
  | row => row

/-- One round: the feedback register, whose constant the first lane takes, and the lanes. -/
def shakeRound (p : Nat × List DWord) : Nat × List DWord :=
  let w := shakeWalk (shakeSpread p.2)
  let rows := (List.range 5).flatMap fun y => shakeRow ((w.drop (5 * y)).take 5)
  ((shakeConstant p.1).1, rows.set 0 (rows.getD 0 0 ^^^ BitVec.ofNat 64 (shakeConstant p.1).2))

/-- The permutation's 24 rounds. -/
def shakeRounds (a : List DWord) : List DWord := ((List.range 24).foldl (fun p _ => shakeRound p) (1, a)).2

/-- Takes in `n` blocks of 136 bytes. -/
def shakeIn (a : List DWord) (bs : List Byte) : Nat → List DWord
  | 0 => a
  | n + 1 =>
    let words := (List.range 17).map fun i => BitVec.ofNat 64 (leNat ((bs.drop (8 * i)).take 8))
    let a := (List.range 25).map fun i => a.getD i 0 ^^^ words.getD i 0
    shakeIn (shakeRounds a) (bs.drop 136) n

/-- Gives out `n` blocks of 136 bytes. -/
def shakeOut (a : List DWord) : Nat → List Byte
  | 0 => []
  | n + 1 => (a.take 17).flatMap (fun v => leBytes 8 v.toNat) ++ shakeOut (shakeRounds a) n

/-- The first `n` bytes of SHAKE256 of some bytes. -/
def shake256 (n : Nat) (bs : List Byte) : List Byte :=
  let blocks := bs.length / 136 + 1
  let gap := 136 * blocks - bs.length
  let tail : List Byte := if gap = 1 then [0x9F] else 0x1F :: List.replicate (gap - 2) 0 ++ [0x80]
  (shakeOut (shakeIn (List.replicate 25 0) (bs ++ tail) blocks) ((n + 135) / 136)).take n

end Sys2Proof.Machine
end

