-- ==== Sys2Proof/Machine/Records.lean ====
section
/-!
DEFINITION. Handles, the record cache and sealed records (02 R63, R367; 05 R149; 07 R200-R202), layout records and
their addresses (07 R197-R199).
-/
namespace Sys2Proof.Machine

/-! ## Handles and the record cache -/

/-- Reads `n` times 8 bytes from `va`, as ordinary loads. -/
def State.readRange (s : State) (t : Troupe) (va : Nat) (got : List Byte) : Nat → Fetched
  | 0 => .got s got
  | n + 1 =>
    match s.readNow t va 8 with
    | .got s bs => s.readRange t ((va + 8) % 2 ^ 56) (got ++ bs) n
    | r => r

/-- A record's address and bytes by its handle; a wait; or the trap of R63 and R367. -/
inductive RecordRead where
  | got (s : State) (va : Nat) (bytes : List Byte)
  | wait (s : State) (p : Park)
  | trap (code taddr : Nat)
  deriving DecidableEq, Repr

def Launch.entryVa (l : Launch) (handle : Nat) : Nat := (l.hdr.htab + 8 * handle) % 2 ^ 56

/-- Reads a record through the record cache of the troupe's core (R149, R63, R367). -/
def State.record (s : State) (t : Troupe) (handle : Nat) : RecordRead :=
  match s.launch? t.lid with
  | none => .trap cRecordInvalid 0
  | some l =>
    let ev := l.entryVa handle
    if handle ≥ l.hdr.hcount then .trap cRecordInvalid ev
    else
      match (s.core t.core).recs.find? fun r => r.lid == t.lid && r.handle == handle with
      | some r =>
        .got (s.updCore t.core fun c => { c with recs := r :: c.recs.filter (· != r) }) r.va r.data
      | none =>
        match s.readRange t ev [] 1 with
        | .wait s p => .wait s p
        | .trap c _ => .trap c ev
        | .got s eb =>
          let e := leNat eb
          let va := e % 2 ^ 56
          if e / 2 ^ 63 != 1 || bitsOf e 62 56 != 0 || va % 192 != 0 then .trap cRecordInvalid ev
          else
            match s.readRange t va [] 24 with
            | .wait s p => .wait s p
            | .trap c _ => .trap c va
            | .got s bs =>
              let s := s.updCore t.core fun c =>
                { c with recs := ({ lid := t.lid, handle := handle, va := va, data := bs } :: c.recs).take
                                    Config.recordCacheSize }
              .got s va bs

/-- Reads several records, in order. -/
inductive RecordsRead where
  | got (s : State) (rs : List (Nat × List Byte))
  | wait (s : State) (p : Park)
  | trap (code taddr : Nat)
  deriving DecidableEq, Repr

/-- Reads the records of handles, or says what stops it (R63, R201). [log 57] -/
def State.records (s : State) (t : Troupe) (got : List (Nat × List Byte)) : List Nat → RecordsRead
  | [] => .got s got
  | h :: rest =>
    match s.record t h with
    | .got s va bs => s.records t (got ++ [(va, bs)]) rest
    | .wait s p => .wait s p
    | .trap c a => .trap c a

/-- R202: whether a record passes its check; outside sealed mode every record does. -/
def State.sealOk (s : State) (bs : List Byte) : Bool :=
  if !s.rm.sealctl.getLsbD 0 then true
  else
    let key := s.rm.sealkey.flatMap fun k => leBytes 8 k.toNat
    leNat ((bs.drop 0xA8).take 4) ≥ s.rm.sealminv.toNat
      && shake256 16 (key ++ bs.take 0xB0) == (bs.drop 0xB0).take 16

/-- The first record that fails its seal. [log 57] -/
def State.firstUnsealed (s : State) (rs : List (Nat × List Byte)) : Option Nat :=
  (rs.find? fun (_, bs) => !s.sealOk bs).map (·.1)

/-! ## Layout records (R197) -/

def recNat (bs : List Byte) (off n : Nat) : Nat := leNat ((bs.drop off).take n)

def zeroRange (bs : List Byte) (lo hi : Nat) : Bool := ((bs.drop lo).take (hi - lo)).all (· == 0)

/-- A layout record's contents, if they keep R197, with the handle it was read by. -/
def parseLayout (handle : Nat) (bs : List Byte) : Option Layout :=
  let base := recNat bs 0x00 8
  let efmt := recNat bs 0x08 1
  let ndim := recNat bs 0x09 1
  let fl := recNat bs 0x0A 1
  let sform := recNat bs 0x0B 1
  let ext := (List.range 5).map fun i => recNat bs (0x10 + 4 * i) 4
  let str := (List.range 4).map fun i => signedOf 64 (recNat bs (0x28 + 8 * i) 8)
  let sbase := recNat bs 0x48 8
  let cbase := recNat bs 0x58 8
  let cs := fl / 4 % 2 == 1
  let swz := fl % 4
  let ok := recNat bs 0x0F 1 == 1 && decide (base < 2 ^ 56) && decide (efmt ≤ 10) && decide (1 ≤ ndim)
    && decide (ndim ≤ 5) && decide (fl < 8) && decide (swz ≤ 1) && decide (sform ≤ 3) && decide (sbase < 2 ^ 56)
    && zeroRange bs 0x0C 0x0F && zeroRange bs 0x24 0x28 && zeroRange bs 0x60 0xA8 && zeroRange bs 0xAC 0xB0
    && (ext.zipIdx.all fun (e, i) => if i < ndim then e != 0 else e == 0)
    && (str.zipIdx.all fun (x, i) => i + 1 < ndim || x == 0)
    && (if cs then cbase % 8 == 0 else cbase == 0)
    && !(swz == 1 && (cs || base % 192 != 0 || (str.getD 0 0) % 192 != 0))
  if ok then
    some { base := base, efmt := efmt, ndim := ndim, swz := swz, cs := cs, sform := sform,
           ext := ext.zipIdx.map fun (e, i) => if i < ndim then e else 1, str := str, sbase := sbase,
           sstride := signedOf 64 (recNat bs 0x50 8), cbase := cbase, handle := handle }
  else none

/-! ## Addresses (R198, R199) -/

/-- Bytes of a row of n elements packed (R196). -/
def packedBytes (efmt n : Nat) : Nat :=
  if efmt = cFP32 ∨ efmt = cINT32 then 4 * n
  else if efmt = cBF16 ∨ efmt = cFP16 then 2 * n
  else if efmt = cE2M1 then (n + 1) / 2
  else n

/-- Byte offset of element k in its row. -/
def elemOff (efmt k : Nat) : Nat :=
  if efmt = cFP32 ∨ efmt = cINT32 then 4 * k
  else if efmt = cBF16 ∨ efmt = cFP16 then 2 * k
  else if efmt = cE2M1 then k / 2
  else k

/-- Bytes that hold one element. -/
def elemBytes (efmt : Nat) : Nat :=
  if efmt = cFP32 ∨ efmt = cINT32 then 4 else if efmt = cBF16 ∨ efmt = cFP16 then 2 else 1

/-- An element's code from its bytes; a nibble of E2M1, the low 6 bits of FP6. -/
def elemCode (efmt k : Nat) (bs : List Byte) : Nat :=
  let v := leNat bs
  if efmt = cE2M1 then v / 16 ^ (k % 2) % 16
  else if efmt = cE2M3 ∨ efmt = cE3M2 then v % 64
  else v

def Layout.rows (r : Layout) : Nat := (r.ext.drop 1).foldl (· * ·) 1

def Layout.inside (r : Layout) (q k : Nat) : Bool := k < r.ext.getD 0 1 && q < r.rows

/-- Indices 1 to 4 of row q. -/
def rowIndices (exts : List Nat) (q : Nat) : List Nat :=
  match exts with
  | [] => []
  | e :: rest => q % e :: rowIndices rest (q / e)

/-- Address of the bytes of element (q, k). [log 132] -/
def Layout.elemVa (r : Layout) (q k : Nat) : Nat :=
  let idx := rowIndices (r.ext.drop 1) q
  let row : Int := (idx.zip r.str).foldl (fun a (i, st) => a + (i : Int) * st) (r.base : Int)
  let o := elemOff r.efmt k
  let o := if r.swz = 1 then o / 192 * 192 + (((o % 192) / 16 + idx.getD 0 0) % 12) * 16 + o % 16 else o
  ((row + (o : Int)) % (2 ^ 56 : Nat)).toNat

/-- Address of the scale of element (q, k) (R199). [log 132] -/
def Layout.scaleVa (r : Layout) (q k : Nat) : Nat :=
  let a : Int := match r.sform with
    | 1 => (r.sbase : Int) + (q : Int) * r.sstride + 4 * ((k / 128 : Nat) : Int)
    | 2 => (r.sbase : Int) + ((q / 128 : Nat) : Int) * r.sstride + 4 * ((k / 128 : Nat) : Int)
    | _ => (r.sbase : Int) + (q : Int) * r.sstride + ((k / 32 : Nat) : Int)
  (a % (2 ^ 56 : Nat)).toNat

end Sys2Proof.Machine
end

