-- ==== Sys2Proof/Machine/Control.lean ====
section
/-!
DEFINITION. Control flow and traps (02 R45, R46, R72, R73; 03 R84-R87, R93; 04 R125-R130, R133, R134).
-/
namespace Sys2Proof.Machine

/-- R45: the target in X.imm, a signed count of words from the base word. -/
def branchTarget (t : Troupe) (f : Fields) : DWord := t.pc + (Fields.imm f).signExtend 64 <<< 2

/-- A branch: long, act-closing, its target in X.imm. -/
def branchShape (dst : Dst) (a : Use) : Shape :=
  { dst := dst, long := true, a := a, ownImm := true, immMask := 0x7FFFF, closing := true }

/-- BRA (R125). -/
def execBra (f : Fields) (s : State) : Host.Outcome State Fault Refusal :=
  issue true (branchShape .none .no) f s fun t => .jump s t (branchTarget t f)

/-- A branch on a scalar (R125); it ends its act either way (R50). -/
def branchIf (f : Fields) (s : State) (cond : Word → Bool) : Host.Outcome State Fault Refusal :=
  issue true (branchShape .none .w32) f s fun t =>
    .jump s t (if cond (t.ua f) then branchTarget t f else t.pc + 8)

/-- BRC.z (R125). -/
def execBrcZ (f : Fields) (s : State) : Host.Outcome State Fault Refusal := branchIf f s fun a => a == 0
/-- BRC.nz (R125). -/
def execBrcNz (f : Fields) (s : State) : Host.Outcome State Fault Refusal := branchIf f s fun a => a != 0

/-- The reconvergence distance of BRD (R46). -/
def brdDistance (f : Fields) : Nat := 128 * f.d.toNat + Fields.c f

/-- BRD (R46, R84, R126). -/
def execBrd (f : Fields) (s : State) : Host.Outcome State Fault Refusal :=
  let sh : Shape :=
    { dst := .field, long := true, a := .triple, c := .field, ownImm := true, immMask := 0x7FFFF, closing := true,
      badField := brdDistance f < 2 }
  issue true sh f s fun t =>
    if t.stack.length = 24 then Out.code s cStackOverflow
    else
      let m := t.triple f.a.toNat
      let taken := m &&& t.act
      let nt := t.act &&& ~~~m
      let ft := t.pc + 8
      if taken = 0 then .jump s t ft
      else if nt = 0 then .jump s t (branchTarget t f)
      else
        let e : StackEntry :=
          { rpc := t.pc + BitVec.ofNat 64 (4 * brdDistance f), ft := ft, full := t.act, nt := nt, fmt := t.fmt,
            phase := false }
        .jump s { t with stack := e :: t.stack, act := taken } (branchTarget t f)

/-- What bytes read at issue lead to (R127): a page fault parks; PERMISSION and poison trap with no effect. -/
def Fetched.then_ (r : Fetched) (s : State) (t : Troupe) (k : State → Nat → Out) : Out :=
  match r with
  | .got s' bs => k s' (leNat bs)
  | .wait s' p => .stay s' t p
  | .trap c va => Out.code s c (BitVec.ofNat 64 va)

/-- Address of a word of a target table. [log 127] -/
def tableWord (table k : Nat) : Nat := (table + 4 * k) % 2 ^ 56

/-- The target that a table word gives: counted in words from the table's address (R66). -/
def tableTarget (table w : Nat) : DWord :=
  BitVec.ofNat 64 table + (BitVec.ofNat 32 w).signExtend 64 <<< 2

/-- BRX (R127). [log 127] -/
def execBrx (f : Fields) (s : State) : Host.Outcome State Fault Refusal :=
  let sh : Shape :=
    { dst := .none, long := true, a := .w32, ownXs := true, ownImm := true, immMask := 0x7FFFF, closing := true,
      badField := Fields.xs f % 2 = 1 }
  issue true sh f s fun t =>
    let table := globalAddr (t.spair (Fields.xs f)) 0 (Fields.disp f 19)
    let trap (c : Nat) : Out := Out.code s c (BitVec.ofNat 64 table)
    if table % 4 != 0 then trap cMisaligned
    else
      (s.readNow t table 4).then_ s t fun s1 n =>
        let i := (t.ua f).toNat
        if i ≥ n then trap cBadTarget
        else (s1.readNow t (tableWord table (i + 2)) 4).then_ s t fun s2 w => .jump s2 t (tableTarget table w)

/-- Reads the words of a table at these indices, one after the other. -/
def State.readTable (s0 s : State) (t : Troupe) (table : Nat) (got : List Nat) (k : State → List Nat → Out) :
    List Nat → Out
  | [] => k s got
  | i :: rest =>
    (s.readNow t (tableWord table i) 4).then_ s0 t fun s1 w => s0.readTable s1 t table (got ++ [w]) k rest

/-- Puts a number into a rising list without repeats. -/
def insertNew (n : Nat) (xs : List Nat) : List Nat :=
  match xs with
  | [] => [n]
  | x :: rest => if n < x then n :: x :: rest else if n = x then x :: rest else x :: insertNew n rest

/-- BRX.l (R128): the groups of lanes with equal index run in increasing index and join at word 1 of the table.
With no active lane there is no group, and the pc is a free value. [log 16, 127, 128] -/
def execBrxL (f : Fields) (s : State) : Host.Outcome State Fault Refusal :=
  let r := Fields.x f 6 0
  let sh : Shape :=
    { dst := .none, long := true, ownXs := true, ownImm := true, immMask := 0x7F, closing := true,
      badField := Fields.xs f % 2 = 1, laneReg := some r }
  issue true sh f s fun t =>
    let table := globalAddr (t.spair (Fields.xs f)) 0 0
    let index (i : Nat) : Nat := (rowGet (t.vrow r) i).toNat
    if table % 4 != 0 then Out.code s cMisaligned (BitVec.ofNat 64 table)
    else
      (s.readNow t table 4).then_ s t fun s1 n =>
        let bad := maskOf fun i => t.active i && index i ≥ n
        if bad != 0 then .trap s (BitVec.ofNat 32 cBadTarget) (BitVec.ofNat 64 table) bad
        else
          let groups := t.lanes.foldl (fun xs i => insertNew (index i) xs) []
          if t.stack.length + groups.length > 25 then Out.code s cStackOverflow
          else
            s.readTable s1 t table [] (fun s2 ws =>
              let join := tableTarget table (ws.getD 0 0)
              let parts := groups.zip ((ws.drop 1).map (tableTarget table))
              match parts with
              | [] => .jump { s2 with freeCtr := s2.freeCtr + 1 } t (Config.freeTarget s2.freeCtr)
              | (g1, t1) :: rest =>
                let lanes (g : Nat) : LaneMask := maskOf fun i => t.active i && index i == g
                let entries := rest.map fun (g, tk) =>
                  ({ rpc := join, ft := tk, full := t.act, nt := lanes g, fmt := t.fmt, phase := false } : StackEntry)
                .jump s2 { t with stack := entries ++ t.stack, act := lanes g1 } t1) (1 :: groups.map (· + 2))

/-- CALL (R129). -/
def execCall (f : Fields) (s : State) : Host.Outcome State Fault Refusal :=
  issue true (branchShape .scalarPair .no) f s fun t =>
    .jump s (if f.n then t else t.setSPair f.d.toNat (t.pc + 8)) (branchTarget t f)

/-- RET (R93, R129): a return address in the trap state 0; a return from the trap in the trap state 1. [log 17] -/
def execRet (f : Fields) (s : State) : Host.Outcome State Fault Refusal :=
  issue true { dst := .none, a := .w64, closing := true } f s fun t =>
    if t.trap then .gone (s.setTroupe t.returnFromTrap)
    else
      let a := t.ua64 f
      if a.toNat % 4 != 0 then Out.code s cMisaligned a else .jump s t a

/-- TRAP (R133): a user trap with the code a[15:0]. -/
def execTrap (f : Fields) (s : State) : Host.Outcome State Fault Refusal :=
  issue true { dst := .none, a := .w32, closing := true } f s fun t =>
    .trap s (0x80000000 ||| (t.ua f &&& 0xFFFF)) 0 0

/-- BKPT (R133): as TRAP with the code 0xFFFF. -/
def execBkpt (f : Fields) (s : State) : Host.Outcome State Fault Refusal :=
  issue true { dst := .none, closing := true } f s fun _ => .trap s 0x8000FFFF 0 0

/-- NOP (R73, R134). -/
def execNop (f : Fields) (s : State) : Host.Outcome State Fault Refusal :=
  issue true { dst := .none } f s fun t => .done s t .none

/-- A word whose opcode no map assigns (R72): ILLEGAL-OPCODE. It is one word long, of the set its bit 31 names. -/
def execUnassignedOpcode (w : Word) (s : State) : Host.Outcome State Fault Refusal :=
  match s.current with
  | none => .fault .noTroupe
  | some t =>
    .next (s.takeTrap t (BitVec.ofNat 32 cIllegalOpcode) 0 0
      { len := 4, laneSet := !w.msb, leaves := false, ends := w.getLsbD 30 || t.pos.count + 1 ≥ 24, fetch := false })

/-- An access that its instruction waits for goes on by itself, and is forgotten where it has returned: the instruction is not at
issue any more. -/
def Troupe.leaveSync (t : Troupe) : Troupe :=
  let t := (t.ops.filter fun o => o.sync && o.lanes.all (·.done)).foldl Troupe.dropOp t
  { t with ops := t.ops.map fun o => { o with sync := false } }

/-- A fetch without execute permission (R130, R161): PERMISSION with tpc and taddr the pc; the act ends. [log 129] -/
def execInstructionFetchFault (s : State) : Host.Outcome State Fault Refusal :=
  match s.current with
  | none => .fault .noTroupe
  | some t =>
    .next (s.takeTrap t.leaveSync (BitVec.ofNat 32 cPermission) t.pc 0
      { len := 4, laneSet := false, leaves := false, ends := true, fetch := true })

end Sys2Proof.Machine
end

