-- ==== Sys2Proof/Machine/Neighbour.lean ====
section
/-!
DEFINITION. Neighbours and publications (04 R121, 09 R234), and the exchanges in flight (09 R231, R232): what the
neighbour reads, XCHG, retirement and resumption share.
-/
namespace Sys2Proof.Machine

/-- The wid of the neighbour before or after a troupe, across a linked company edge too (R120, R234). -/
def State.neighbourWid? (s : State) (t : Troupe) (before : Bool) : Option Nat :=
  match s.launch? t.lid with
  | none => none
  | some l =>
    let h := l.hdr
    match widFields h.widths t.wid.toNat with
    | [] => none
    | f1 :: rest =>
      if before then
        if f1 > 0 then some (widOf h.widths ((f1 - 1) :: rest))
        else match rest with
          | f2 :: up => if h.bindc ≠ 0 ∧ f2 % 2 = 1 then some (widOf h.widths ((h.troupes - 1) :: (f2 - 1) :: up)) else none
          | [] => none
      else
        if f1 + 1 < h.troupes then some (widOf h.widths ((f1 + 1) :: rest))
        else match rest with
          | f2 :: up =>
            if h.bindc ≠ 0 ∧ f2 % 2 = 0 ∧ f2 + 1 < h.exts.getD 1 0 then some (widOf h.widths (0 :: (f2 + 1) :: up))
            else none
          | [] => none

def State.troupeByWid? (s : State) (lid wid : Nat) : Option Troupe :=
  s.troupes.find? fun t => t.lid == lid && t.wid.toNat == wid && !t.retired

def State.widRetired (s : State) (lid wid : Nat) : Bool :=
  match s.launch? lid with
  | some l => l.retiredWids.any (·.toNat == wid)
  | none => true

/-- R121: a troupe may not lead a neighbour that has not retired by more than 63 publications. -/
def State.leadOk (s : State) (t : Troupe) : Bool :=
  [true, false].all fun before =>
    match s.neighbourWid? t before with
    | none => true
    | some w =>
      s.widRetired t.lid w
        || t.xseq + 1 ≤ (match s.troupeByWid? t.lid w with | some o => o.xseq | none => 0) + 63

/-- Whether a troupe of the launch has read this publication's number from its neighbour and the value has yet to arrive. -/
def State.awaitsPub (s : State) (lid : Nat) (p : Publication) : Bool :=
  s.troupes.any fun u => u.lid == lid && u.edges.any fun e => e.n == p.n && s.neighbourWid? u e.left == some p.wid

/-- Publishes the edge values of a row under the troupe's next number (R121). Of a troupe's publications the last 64 are
kept, because no neighbour is further behind, and those that a neighbour's read still awaits. -/
def State.publish (s : State) (t : Troupe) (lane0 lane95 : Word) : State :=
  s.updLaunch t.lid fun l =>
    { l with pubs := { wid := t.wid.toNat, n := t.xseq, lane0 := lane0, lane95 := lane95 }
        :: l.pubs.filter fun p => !(p.wid == t.wid.toNat && p.n + 63 ≤ t.xseq && !s.awaitsPub t.lid p) }

def State.publication? (s : State) (lid wid n : Nat) : Option Publication :=
  match s.launch? lid with
  | some l => l.pubs.find? fun p => p.wid == wid && p.n == n
  | none => none

/-! ## Exchanges (R231, R232) -/

/-- Gives an exchange its values: the partner's where both were active, the troupe's own elsewhere; xc falls. [log 45] -/
def State.endXchg (s : State) (x : Xchg) (partner : Option Xchg) : State :=
  let value (i : Nat) : Word :=
    match partner with
    | some y => if y.active.getLsbD i then rowGet y.row i else rowGet x.row i
    | none => rowGet x.row i
  let put (t : Troupe) : Troupe :=
    let t := match x.dest with
      | some d => t.setV d x.active value
      | none => t
    let t := (List.range Config.lanes).foldl
      (fun t i => if x.active.getLsbD i then t.latchLane x.act x.latch i ((value i).setWidth 64) else t) t
    { t with xc := t.xc - 1 }
  let s := s.updTroupe x.uid put
  let s := { s with xchgs := s.xchgs.map fun (y : Xchg) =>
    if y.uid == x.uid && y.partner == x.partner && y.k == x.k then { y with done := true } else y }
  match partner, s.troupe? x.uid with
  | none, some t => s.updCluster (clusterOf t.core) fun c => { c with clxlost := stick c.clxlost 1 }
  | _, _ => s

/-- The exchange that matches one. -/
def State.matching? (s : State) (x : Xchg) : Option Xchg :=
  s.xchgs.find? fun y => y.lid == x.lid && y.wid == x.partner && y.partner == x.wid && y.k == x.k && !y.done
    && y.uid != x.uid

/-- Whether a troupe's company is resident, and on which core; a retired troupe counts where it ran. -/
def State.residentCore? (s : State) (uid : Nat) : Option Nat :=
  match s.troupe? uid with
  | some t => if t.resident || t.retired then some t.core else none
  | none => none

/-- Resolves an exchange if it can be now: matched, with the lagoon test when both companies are resident (R232); or
without a partner, when that one has retired. -/
def State.resolveXchg (s : State) (x : Xchg) : State :=
  match s.matching? x with
  | some y =>
    match s.residentCore? x.uid, s.residentCore? y.uid with
    | some a, some b =>
      if lagoonOf a = lagoonOf b then (s.endXchg x (some y)).endXchg y (some x)
      else (s.endXchg x none).endXchg y none
    | _, _ => s
  | none => if s.widRetired x.lid x.partner.toNat then s.endXchg x none else s

/-- Resolves every exchange that can be. -/
def State.resolveXchgs (s : State) : State :=
  s.xchgs.foldl (fun s x =>
    match s.xchgs.find? fun y => y.uid == x.uid && y.partner == x.partner && y.k == x.k && !y.done with
    | some y => s.resolveXchg y
    | none => s) s

end Sys2Proof.Machine
end

