-- ==== Sys2Proof/Machine/Arbiter.lean ====
section
/-!
DEFINITION. Which troupes are ready (R136) and how a quarter chooses among them (ACT_SELECT, R137).
-/
namespace Sys2Proof.Machine

/-- Whether an operation only stores (R173). -/
def MemOp.storesOnly (o : MemOp) : Bool :=
  match o.kind with
  | .storeG | .storeSp _ | .edit _ _ => true
  | _ => false

def EngKind.isMaint : EngKind → Bool
  | .maint _ _ _ => true
  | _ => false

/-- The condition a fence waits for (R173, R243): every earlier access, or every earlier load and atomic; at package
scope or wider also what other troupes' releases have ordered before it, and every invalidation; with .mem the troupe's
maintenance operations. [log 21] -/
def State.fenceDone (s : State) (t : Troupe) (all mem pkg : Bool) : Bool :=
  t.ops.all (fun o => !all && o.storesOnly)
    && !(pkg && (!s.invals.isEmpty
          || s.troupes.any fun u => u.ops.any fun e => e.orders u t s.clock.toNat))
    && !(mem && match s.company? t.cid with
        | some c => c.ops.any fun o => o.uid == t.uid && o.kind.isMaint
        | none => false)

def Company.tl (c : Company) (k : Nat) : Timeline := c.tls.getD k ⟨0, 0⟩

def Company.emptyAt (c : Company) (line : Nat) : Bool := c.emptyLines.contains line

/-- R168: each count at or below its limit. -/
def Troupe.withinLimits (t : Troupe) (w : Word) : Bool :=
  t.ld ≤ bitsOf w.toNat 5 0 && t.st ≤ bitsOf w.toNat 13 8 && t.xc ≤ bitsOf w.toNat 21 16
    && t.ul ≤ bitsOf w.toNat 29 24

/-! ## Reconvergence (R85) -/

/-- The loop of R85, at most twice per stack entry. -/
def reconverge (t : Troupe) : Nat → Troupe
  | 0 => t
  | fuel + 1 =>
    match t.stack with
    | [] => t
    | top :: rest =>
      if t.pc == top.rpc then
        if !top.phase then
          reconverge ({ t with stack := { top with phase := true } :: rest, act := top.nt &&& ~~~t.exited,
                               fmt := top.fmt, pc := top.ft }.newAct) fuel
        else
          reconverge { t with stack := rest, act := top.full &&& ~~~t.exited, fmt := top.fmt } fuel
      else t

/-! ## Fetch -/

/-- One word at a virtual address, through the die's slices (R237): the word, or why it cannot be fetched. [log 30] -/
def State.fetchWord (s : State) (t : Troupe) (va : Nat) : State × Except Tr Word :=
  match s.translate .fetch t.core (s.rootOf t.lid) va .x with
  | (s, .ok pa e psize) =>
    let l := s.loc pa e psize
    let (s, bs) := (s.countHot (s.rootOf t.lid) va pa e psize).dieRead (dieOf t.core) l
    (s, .ok (BitVec.ofNat 32 (leNat ((bs.drop l.off).take 4))))
  | (s, r) => (s, .error r)

/-- The instruction at a troupe's pc, as a fetch would find it now. -/
def State.instrAt? (s : State) (t : Troupe) : Option Instr :=
  let pc := t.pc.toNat % 2 ^ 56
  let words := match (s.fetchWord t pc).2 with
    | .error _ => []
    | .ok w =>
      if wordLength w = 4 then [w]
      else match (s.fetchWord t ((pc + 4) % 2 ^ 56)).2 with
        | .ok x => [w, x]
        | .error _ => []
  match decode words with
  | .ok (i, _) => some i
  | .error _ => none

def lsW (f : Fields) : Nat := Fields.x f 14 12

/-- The use of a store's data source (R160). -/
def storeUse (w : Nat) : Use := if w = 5 then .w64 else if w = 6 then .quad else .w32

def atOpc (f : Fields) : Nat := Fields.x f 13 10

/-- How an instruction of the lane set uses the lane registers that A, B and C name (R36, R99, R160, R171, R286). -/
def Instr.laneUses (i : Instr) : List Use :=
  match i with
  | .iadd64 _ | .isub64 _ | .imad64 _ => [.w64, .w64, .w64]
  | .shl64 _ | .shr64 _ => [.w64, .w32, .w32]
  | .stG f | .stSp f | .stSpF f => [.w32, storeUse (lsW f), .w32]
  | .atom f | .atomSp f => if atOpc f ≥ 13 then [.w32, .w64, .w64] else [.w32, .w32, .w32]
  | .bsins _ => [.w32, .w64, .w32]
  | _ => [.w32, .w32, .w32]

/-- The lane registers that an instruction reads (R36, R124, R128). -/
def Instr.laneReads (i : Instr) : List Nat :=
  match i with
  | .brxL f | .lanerd f => [Fields.x f 6 0]
  | _ =>
    match i.code with
    | some (false, _, f) =>
      ((Instr.laneUses i).zip [f.a.toNat, f.b.toNat, Fields.c f]).flatMap fun (u, k) => if k < 120 then regRange k u.count else []
    | _ => []

/-- Whether a troupe that stands before an act has back every load that the act's first instruction reads (R136). -/
def State.loadsBack (s : State) (t : Troupe) : Bool :=
  t.ops.isEmpty ||
    let t' := reconverge t 64
    t'.pos.count != 0 || !(s.inFlight t false (((s.instrAt? t').map Instr.laneReads).getD []) [])

/-- Whether a troupe's park is over (R136); a yield is judged by `State.parkOver`. -/
def State.unparked (s : State) (t : Troupe) : Bool :=
  match t.park with
  | .run => true
  | .interlock => true
  | .yield _ | .yieldTl _ _ _ | .yieldFull _ _ | .barw _ | .gbar _ _ | .monitor _ | .rgrp | .query _ => false
  | .fault tokens => tokens.all fun k => !(s.rm.faults.any (·.token == k))
  | .empty waits =>
    match s.company? t.cid with
    | some c => waits.all fun (_, o) => !c.emptyAt (o / 192)
    | none => false
  | .wait limits => t.withinLimits limits
  | .waitTl c n =>
    match s.company? t.cid with
    | some k => n.toNat ≤ (k.tl c).reached.toNat
    | none => false
  | .fence all mem pkg => s.fenceDone t all mem pkg
  | .baro b phase =>
    match s.company? t.cid with
    | some c => (c.barriers.getD b ⟨0, 0, 0, false⟩).phase != phase
    | none => false
  | .gang =>
    match s.company? t.cid with
    | some c => !(c.gangs.any (·.uid == t.uid))
    | none => false
  | .load regs => !s.inFlight t false regs []
  | .peer regs latches => !s.inFlight t true regs latches
  | .lead => s.leadOk t
  | .line => t.ops.all fun o => !s.groupWaits t.lid t.cid o

/-- Whether the troupe's company and launch let it run: resident, not being pre-empted, every company of an
all-resident launch admitted (R335), its launch not being ended (R332). -/
def State.runnable (s : State) (t : Troupe) : Bool :=
  t.resident
    && (match s.company? t.cid with
        | some c => !c.preempting && c.core.isSome
        | none => false)
    && (match s.launch? t.lid with
        | some l => l.ending.isNone && (!l.hdr.resident || l.placed)
        | none => false)

/-- The same with yields (R179): a yield is over when none of the troupes that it still waits for is ready. A yield waits for
troupes of its quarter that yielded before it or not at all, so that no chain of them is longer than the quarter's slots. -/
def State.parkOver (s : State) : Nat → Troupe → Bool
  | 0, _ => false
  | n + 1, t =>
    match t.park with
    | .yield others => s.troupes.all fun o => !(others.contains o.uid && s.runnable o && s.loadsBack o && s.parkOver n o)
    | _ => s.unparked t

/-- Whether a troupe is ready (R136). -/
def State.ready (s : State) (t : Troupe) : Bool :=
  s.runnable t && s.loadsBack t && s.parkOver (Config.quarterSlots + 1) t

/-- A yield no longer waits for a troupe that has stopped being ready (R179). -/
def State.settleYields (s : State) : State :=
  { s with troupes := s.troupes.map fun t => match t.park with
    | .yield others => { t with park := .yield (others.filter fun u => (s.troupe? u).any s.ready) }
    | _ => t }

def State.priority (s : State) (t : Troupe) : Nat :=
  match s.launch? t.lid with
  | some l => l.hdr.prio
  | none => 0

/-- The ready troupes of a quarter. -/
def State.readyIn (s : State) (core quarter : Nat) : List Troupe :=
  s.troupes.filter fun t => t.core == core && t.quarter == quarter && s.ready t

/-- R137: the highest priority present, then round-robin by slot after the slot that won last. -/
def State.chooseIn (s : State) (core quarter last : Nat) : Option Troupe :=
  let ts := s.readyIn core quarter
  let top := ts.foldl (fun p t => max p (s.priority t)) 0
  let best := ts.filter fun t => s.priority t == top
  (List.range Config.quarterSlots).findSome? fun i =>
    best.find? (·.slot == (last + 1 + i) % Config.quarterSlots)

/-- ACT_SELECT (R137): an idle quarter takes its next troupe, which goes on at its pc in the act it holds. -/
def execActSelect (core quarter : Nat) (s : State) : Host.Outcome State Fault Refusal :=
  let q := (s.core core).quarters.getD quarter Quarter.reset
  match q.running with
  | some _ => .next s
  | none =>
    match s.chooseIn core quarter q.last with
    | none => .next s
    | some t =>
      let s := s.updCore core fun c =>
        { c with quarters := c.quarters.set quarter { running := some t.uid, last := t.slot, prev := q.last } }
      let away (o : Troupe) : Troupe :=
        match o.park with
        | .yield others => { o with park := .yield (others.filter (· != t.uid)) }
        | _ => o
      .next { s with troupes := s.troupes.map fun o => if o.uid == t.uid then { o with park := .run } else away o }

end Sys2Proof.Machine
end

