-- ==== Sys2Proof/Machine/Gang.lean ====
section
/-!
DEFINITION. Gangs (07 R214, R215): the entries of a company's rendezvous latch, and the traps its members take.
-/
namespace Sys2Proof.Machine

/-- The member mask of an entry's gang register. -/
def GangEntry.mask (g : GangEntry) : Nat := g.gang.toNat % 2 ^ 16

/-- The fields of the MMA that an entry waits at. -/
def GangEntry.fields (g : GangEntry) : Fields :=
  match decode g.words with
  | .ok (i, _) => i.fields
  | .error _ => ⟨false, false, 0, 0, 0, .none⟩

def Company.gangEntry? (c : Company) (uid : Nat) : Option GangEntry := c.gangs.find? (·.uid == uid)

/-- What RET needs to resume a troupe after the MMA it waited at (R93). -/
def gangResume (t : Troupe) (f : Fields) : Resume :=
  { len := Fields.len f, laneSet := false, leaves := true, ends := endsAct t.pos f, fetch := false }

/-- Waiting members trap, each at its own MMA, and leave the latch (R215). [log 46] -/
def State.gangTrap (s : State) (cid : Nat) (uids : List Nat) (code : Nat) (taddr : DWord) : State :=
  uids.foldl (fun s u =>
    match (s.company? cid).bind (·.gangEntry? u), s.troupe? u with
    | some g, some t =>
      (s.updCompany cid fun c => { c with gangs := c.gangs.filter (·.uid != u) }).takeTrap t (BitVec.ofNat 32 code) taddr
        0 (gangResume t g.fields)
    | _, _ => s) s

end Sys2Proof.Machine
end

