-- ==== Sys2Proof/Machine/Retire.lean ====
section
/-!
DEFINITION. Retirement of troupes and companies (03 R87; 05 R144, R150, R151), and the two rendezvous that a
retirement can complete: RGRP (06 R185) and the grid barriers (16 R336, 19 R353).
-/
namespace Sys2Proof.Machine

/-! ## Grid barriers -/

/-- The troupes of a launch (R336). -/
def Header.troupeCount (h : Header) : Nat := h.exts.foldl (· * ·) 1

/-- The fabric barrier that counter k of a queue's launches is bound to (R353): its root and its N. -/
def State.fabricBarrier? (s : State) (queue k : Nat) : Option (Nat × Nat) :=
  let r := s.fabric.fxbar.getD k 0
  if r.getLsbD 63 && bitsOf r.toNat 62 57 == queue then some (bitsOf r.toNat 56 39, bitsOf r.toNat 38 21) else none

/-- Releases every troupe parked on counter k of a launch: each acquires at package scope (R336). -/
def State.gbarRelease (s : State) (lid k : Nat) : State :=
  let s := s.updLaunch lid fun l =>
    { l with gbars := listModify l.gbars k fun g => { arrived := 0, phase := !g.phase, away := false } }
  s.troupes.foldl (fun s t =>
    match t.park with
    | .gbar c true =>
      if t.lid == lid && c == k then
        let s := s.updTroupe t.uid fun t => { t with park := .run }
        if t.resident then s.acquireL1 t.core else s
      else s
    | _ => s) s

/-- The completion test of counter k (R336); a counter bound to a fabric barrier sends its arrival to the root
instead (R353). [log 100, 101] -/
def State.gbarTest (s : State) (lid k : Nat) : State :=
  match s.launch? lid with
  | none => s
  | some l =>
    let g := l.gbars.getD k ⟨0, false, false⟩
    if g.arrived = 0 || g.away || g.arrived + l.troupesRetired != l.hdr.troupeCount then s
    else
      match s.fabricBarrier? l.queue k with
      | none => s.gbarRelease lid k
      | some (root, n) =>
        let s := s.updLaunch lid fun l => { l with gbars := listModify l.gbars k fun g => { g with away := true } }
        s.sendOut (.arrival root k g.phase n)

/-! ## RGRP -/

/-- A lane on the move (R185): its registers, and whether it is active or exited. -/
structure MovingLane where
  regs : List Word
  active : Bool
  exited : Bool
  deriving DecidableEq, Repr

def Troupe.movingLane (t : Troupe) (i : Nat) : MovingLane :=
  { regs := t.v.map fun r => rowGet r i, active := t.active i && !t.exited.getLsbD i, exited := t.exited.getLsbD i }

/-- A troupe with 96 lanes moved into it. -/
def Troupe.receive (t : Troupe) (ms : List MovingLane) : Troupe :=
  let lane (i : Nat) : MovingLane := ms.getD i ⟨[], false, false⟩
  { t with
    v := (List.range t.v.length).map fun r => rowOf fun i => (lane i).regs.getD r 0
    exited := maskOf fun i => (lane i).exited
    act := maskOf fun i => (lane i).active
    park := .run
    rgrpCount := t.rgrpCount + 1 }

/-- The participants of a company's RGRP in increasing FIELD(wid, 1). -/
def State.regroupTroupes (s : State) (cid : Nat) : List Troupe :=
  let ts := s.troupes.filter fun t => t.cid == cid && !t.retired
  let f1 (t : Troupe) : Nat := match s.launch? t.lid with | some l => l.hdr.f1 t.wid | none => 0
  (List.range 16).flatMap fun k => ts.filter fun t => f1 t == k

/-- Completes the RGRP of a company when every troupe that has not retired has issued it (R185). [log 102] -/
def State.regroupTest (s : State) (cid : Nat) : State :=
  let ts := s.regroupTroupes cid
  if ts.isEmpty || !ts.all (fun t => t.park == .rgrp) then s
  else
    let lanes := ts.flatMap fun t => (List.range Config.lanes).map t.movingLane
    let seq := (lanes.filter fun m => m.active) ++ (lanes.filter fun m => !m.active && !m.exited)
      ++ lanes.filter fun m => m.exited
    let s := ts.zipIdx.foldl (fun s (t, j) => s.setTroupe (t.receive ((seq.drop (96 * j)).take 96))) s
    s.updCompany cid fun c => { c with rgrpMask := [] }

/-! ## Launch slots -/

/-- Frees a launch's slot on a core when its last company there has retired and its tracker entries have drained
(R141); its record cache entries go with it (R149). -/
def State.freeSlot (s : State) (core lid : Nat) : State :=
  if s.companies.any (fun c => c.lid == lid && c.core == some core)
      || (s.core core).trackers.any (·.lid == lid) then s
  else s.updCore core fun c =>
    { c with slots := c.slots.filter (· != lid), recs := c.recs.filter (·.lid != lid),
             tileCache := c.tileCache.filter (·.lid != lid) }

/-! ## Retirement of a troupe -/

/-- Operations that still complete after TAIL (R181): stores, atomics, counter operations and edits. -/
def MemOp.outlives (o : MemOp) : Bool :=
  match o.kind with
  | .loadG _ | .ldro _ | .loadSp | .ldgr _ | .query _ => false
  | _ => true

/-- Whether a troupe has outstanding stores, atomics or engine operations (R150). -/
def State.outstanding (s : State) (t : Troupe) : Bool :=
  t.ops.any MemOp.outlives
    || (match s.company? t.cid with
        | some c => c.ops.any fun o => !o.done && o.owners.contains t.uid
        | none => false)

/-- Whether the troupe can retire now: a tracker entry is free if it needs one (R150). -/
def State.canRetire (s : State) (t : Troupe) : Bool :=
  !s.outstanding t || (s.core t.core).trackers.length < Config.trackerEntries

/-- Retires a troupe (R87, R150): its registers and slot are freed; its outstanding stores, atomics and engine
operations go on under a tracker entry; what others wait for from it is resolved. [log 46, 96] -/
def State.retire (s : State) (t : Troupe) : State :=
  let needs := s.outstanding t
  let f1 := match s.launch? t.lid with | some l => l.hdr.f1 t.wid | none => 0
  let gone : Troupe :=
    { t with retired := true, resident := false, v := [], s := [], stack := [], edges := [], park := .run,
             ops := t.ops.filterMap fun o =>
               if o.outlives && !o.lanes.all (·.done) then some { o with sync := false } else none }
  let s := (s.setTroupe gone).releaseQuarter t
  let s : State := { s with
    dieUnits := s.dieUnits.map fun d => { d with monitors := d.monitors.filter fun m => m.uid != t.uid } }
  let s := s.updLaunch t.lid fun l =>
    { l with retiredWids := t.wid :: l.retiredWids, troupesRetired := l.troupesRetired + 1 }
  let s := s.updCompany t.cid fun c =>
    { c with retiredF1 := f1 :: c.retiredF1, marks := c.marks.filter (·.uid != t.uid),
             gangs := c.gangs.filter (·.uid != t.uid) }
  let s : State := match s.company? t.cid with
    | some c => s.gangTrap t.cid ((c.gangs.filter fun (g : GangEntry) => g.mask.testBit f1).map GangEntry.uid) cGangMismatch 0
    | none => s
  let s := if needs then
      s.updCore t.core fun c => { c with trackers := c.trackers ++ [{ uid := t.uid, cid := t.cid, lid := t.lid }] }
    else s
  let s := (s.resolveXchgs).regroupTest t.cid
  (List.range 16).foldl (fun s k => s.gbarTest t.lid k) s

/-! ## Retirement of a company -/

/-- Whether an engine operation reads or writes its company's scratchpad or tiles. -/
def EngKind.usesStore (k : EngKind) : Bool :=
  match k with
  | .cpy dsp ssp stg _ _ _ _ _ => dsp || ssp || stg
  | .mma _ => true
  | .mdrain _ => true
  | .mzero _ => true
  | _ => false

/-- Whether every troupe of a company has retired. -/
def State.allRetired (s : State) (c : Company) : Bool :=
  match s.launch? c.lid with
  | some l => c.retiredF1.length == l.hdr.troupes
  | none => true

/-- COMPANY_RETIRE (R151, R144): once its last troupe has retired and no engine operation uses its scratchpad, the
ways return to L1. The company's remaining engine operations go on. -/
def execCompanyRetire (cid : Nat) (s : State) : Host.Outcome State Fault Refusal :=
  match s.company? cid with
  | none => .next s
  | some c =>
    match c.core with
    | none => .next s
    | some core =>
      if !s.allRetired c || c.ops.any (fun o => !o.done && o.kind.usesStore) then .next s
      else
        let s := s.updCompany cid fun c =>
          { c with core := none, spad := [], spadPoison := [], emptyLines := [], ways := 0, wayAt := [], tiles := [] }
        let s := s.updLaunch c.lid fun l => { l with companiesRetired := l.companiesRetired + 1 }
        .next (s.freeSlot core c.lid)

/-- TRACKER_RELEASE (R150): an entry is released when its troupe's stores, atomics and engine operations have
completed. -/
def execTrackerRelease (core uid : Nat) (s : State) : Host.Outcome State Fault Refusal :=
  match (s.core core).trackers.find? (·.uid == uid) with
  | none => .next s
  | some k =>
    let busy := match s.troupe? uid with
      | some t => s.outstanding t
      | none => false
    if busy then .next s
    else
      let s := s.updCore core fun c => { c with trackers := c.trackers.filter (·.uid != uid) }
      .next (s.freeSlot core k.lid)

end Sys2Proof.Machine
end

