-- ==== Sys2Proof/Machine/Sync.lean ====
section
/-!
DEFINITION. Waits, fences, timelines, yields, TAIL, named barriers, RGRP and GBAR (06 R168-R185, 16 R336).
-/
namespace Sys2Proof.Machine

/-! ## Waits and fences -/

/-- WAIT (R168). -/
def execWait (f : Fields) (s : State) : Host.Outcome State Fault Refusal :=
  issue true { dst := .none, a := .w32 } f s fun t =>
    let a := t.ua f
    if a &&& 0xC0C0C0C0 != 0 then Out.code s cIllegalOperand
    else if t.withinLimits a then .done s t .none
    else .stay s t (.wait a)

/-- The end of a wait on a timeline (R176, R177, R180): the troupe's lowest covered fault mark, or the flags of the
operations covered and an acquire. -/
def State.endTimelineWait (s : State) (t : Troupe) (c : Nat) (n : DWord) : State × Troupe × Option DWord :=
  match s.company? t.cid with
  | none => (s, t, none)
  | some k =>
    match k.markedBy c n t.uid with
    | some m => (s.updCompany t.cid fun k => k.clearMark c m t.uid, t, some m)
    | none =>
      let (fl, k') := k.takeFlags c n t.uid
      ((s.updCompany t.cid fun _ => k').acquireL1 t.core, t.orFlags fl, none)

/-- WAITTL (R176, R177). -/
def execWaittl (f : Fields) (s : State) : Host.Outcome State Fault Refusal :=
  issue true { dst := .none, a := .w64, b := .w32 } f s fun t =>
    let c := (t.ub f).toNat
    let n := t.ua64 f
    if c > 7 then Out.code s cIllegalOperand
    else
      let reached := match s.company? t.cid with
        | some k => (k.tl c).reached
        | none => 0
      if reached.toNat < n.toNat then .stay s t (.waitTl c n)
      else
        match s.endTimelineWait t c n with
        | (s', _, some m) => Out.code s' cEngineFault m
        | (s', t', none) => .done s' t' .none

/-- What an instruction that is itself a release waits for: every earlier access of the troupe, and at package scope the
invalidations (R153, R243). [log 21] -/
def releaseWait (s : State) (t : Troupe) (pkg : Bool) : Option Park :=
  if s.fenceDone t true false pkg then none else some (s.stall t)

/-- A release at company scope by an instruction of a troupe: it waits, or the troupe goes on, and what is still in flight
stays in order for the company (R153). -/
def companyRelease (s : State) (t : Troupe) (go : Troupe → Out) : Out :=
  if s.releaseOk t t.nextOp 2 s.clock.toNat then go (t.markReleased t.nextOp s.clock.toNat 2) else .stay s t (s.stall t)

/-- TLINC (R178): a release at company scope. -/
def execTlinc (f : Fields) (s : State) : Host.Outcome State Fault Refusal :=
  issue true { dst := .none, a := .w32 } f s fun t =>
    let c := (t.ua f).toNat
    if c != 6 && c != 7 then Out.code s cIllegalOperand
    else
      companyRelease s t fun t =>
        .done (s.updCompany t.cid fun k =>
          let x := k.tl c
          k.setTl c { issued := satInc x.issued, reached := satInc x.reached }) t .none

/-- A release fence goes on the troupe's list, from which those leave that hold back nothing any more (R173). [log 119] -/
def State.addFence (s : State) (t : Troupe) (scope : Nat) : Troupe :=
  { t with fences := (t.nextOp, scope)
      :: t.fences.filter fun (n, k) => !(t.ops.all (fun e => n ≤ e.id) && s.releaseOk t n k s.clock.toNat) }

/-- FENCE (R173, R145, R243): .acq waits for the earlier loads and atomics; .rel from package scope on, and .mem, for every
earlier access; at a narrower scope .rel lets the troupe go on, and its later stores and atomics keep the order. [log 119] -/
def execFence (f : Fields) (s : State) : Host.Outcome State Fault Refusal :=
  let mem := Fields.x f 5 5 == 1
  let sc := Fields.x f 4 2
  let ord := Fields.x f 1 0
  issue true { dst := .none, long := true, ownImm := true, immMask := 0x3F,
               badModifier := sc == 0 || sc == 7 || ord == 0 || (mem && (ord == 1 || decide (sc < 4))) } f s fun t =>
    let acq := ord % 2 == 1
    let pkg := decide (ord ≥ 2) && decide (sc ≥ 5)
    if (acq || mem || pkg) && !s.fenceDone t (mem || pkg) mem pkg then .stay s t (.fence (mem || pkg) mem pkg)
    else
      let s := if pkg || mem then s.releaseOwned t.core else s
      let s := if acq then s.acquireAt t.core sc else s
      .done s (if decide (ord ≥ 2) && decide (2 ≤ sc) && !pkg then s.addFence t sc else t) .none

/-- ROINV (R148, R174). -/
def execRoinv (f : Fields) (s : State) : Host.Outcome State Fault Refusal :=
  issue true { dst := .none } f s fun t =>
    .done (s.updCore t.core fun c => { c with ro := [] }) { t with roinvAt := t.nextOp } .none

/-! ## Yields -/

/-- YIELD (R179): waits for the troupes of its quarter that are ready now. -/
def execYield (f : Fields) (s : State) : Host.Outcome State Fault Refusal :=
  issue true { dst := .none, closing := true } f s fun t =>
    let others := ((s.readyIn t.core t.quarter).map (·.uid)).filter (· != t.uid)
    .leave s t (.yield others) (t.pc + 4)

/-- YIELDC (R180): the troupe stays at the YIELDC until the scheduler resumes it at the continuation. [log 103] -/
def execYieldc (f : Fields) (s : State) : Host.Outcome State Fault Refusal :=
  let c := Fields.c f
  issue true { dst := .none, long := true, a := if c < 8 then .w64 else .w32, c := .field, ownImm := true,
               immMask := 0x7FFFF, closing := true, badModifier := c > 8 } f s fun t =>
    if c < 8 then .leave s t (.yieldTl c (t.ua64 f) (branchTarget t f)) t.pc
    else
      let o := (t.ua f).toNat
      let size := match s.company? t.cid with
        | some k => k.size
        | none => 0
      if o ≥ size then Out.code s cSpadRange (BitVec.ofNat 64 o)
      else .leave s t (.yieldFull (o / 192) (branchTarget t f)) t.pc

/-- YIELDC_RESUME (R180): the scheduler resumes a troupe whose condition holds; a covered fault mark traps with tpc
at the YIELDC. [log 103] -/
def execYieldcResume (uid : Nat) (s : State) : Host.Outcome State Fault Refusal :=
  match s.troupe? uid with
  | none => .next s
  | some t =>
    if !s.runnable t then .next s
    else match t.park, s.company? t.cid with
      | .yieldTl c n cont, some k =>
        if (k.tl c).reached.toNat < n.toNat then .next s
        else
          match s.endTimelineWait t c n with
          | (s', _, some m) =>
            .next (s'.takeTrap t (BitVec.ofNat 32 cEngineFault) m 0
              { len := 8, laneSet := false, leaves := false, ends := true, fetch := false })
          | (s', t', none) => .next (s'.setTroupe { t' with pc := cont, park := .run })
      | .yieldFull line cont, some k =>
        if k.emptyAt line then .next s else .next (s.setTroupe { t with pc := cont, park := .run })
      | _, _ => .next s

/-! ## TAIL -/

/-- TAIL (R87, R93, R150, R181). -/
def execTail (f : Fields) (s : State) : Host.Outcome State Fault Refusal :=
  issue true { dst := .none, closing := true } f s fun t =>
    let t' := { t with exited := t.exited ||| t.act, act := t.act &&& ~~~t.act }
    match t.stack with
    | top :: _ =>
      if t.trap || t.exited == -1 || t'.exited == -1 then
        if s.canRetire t then .gone (s.retire t) else .stay s t .interlock
      else .jump s t' top.rpc
    | [] => if s.canRetire t then .gone (s.retire t) else .stay s t .interlock

/-! ## Named barriers (R182-R184) -/

def State.troupesOf (s : State) (lid : Nat) : Nat :=
  match s.launch? lid with
  | some l => l.hdr.troupes
  | none => 0

def State.f1Of (s : State) (t : Troupe) : Nat :=
  match s.launch? t.lid with
  | some l => l.hdr.f1 t.wid
  | none => 0

def State.barrier (s : State) (cid b : Nat) : Barrier :=
  match s.company? cid with
  | some c => c.barriers.getD b ⟨0, 0, 0, false⟩
  | none => ⟨0, 0, 0, false⟩

def State.setBarrier (s : State) (cid b : Nat) (x : Barrier) : State :=
  s.updCompany cid fun c => { c with barriers := putAt c.barriers b x ⟨0, 0, 0, false⟩ }

/-- BARI (R182, R183). -/
def execBari (f : Fields) (s : State) : Host.Outcome State Fault Refusal :=
  issue true { dst := .none, a := .w32 } f s fun t =>
    let a := (t.ua f).toNat
    let cnt := bitsOf a 8 4
    let b := a % 16
    let x := s.barrier t.cid b
    if a ≥ 512 || cnt = 0 || cnt > s.troupesOf t.lid then Out.code s cIllegalOperand
    else if x.arrived = 0 then .done (s.setBarrier t.cid b { x with expected := cnt }) t .none
    else if x.expected = cnt then .done s t .none
    else Out.code s cIllegalOperand

/-- Releases the troupes parked at a completed barrier, by BARW or BARO: each acquires at company scope. -/
def State.barrierWake (s : State) (cid core b : Nat) : State :=
  { (s.acquireL1 core) with troupes := s.troupes.map fun t =>
      match t.park with
      | .barw k => if t.cid == cid && k == b then { t with park := .run } else t
      | .baro k _ => if t.cid == cid && k == b then { t with park := .run } else t
      | _ => t }

/-- ARRIVE (R184). -/
def barrierArrive (f : Fields) (s : State) (t : Troupe) (wait : Bool) : Out :=
  let a := (t.ua f).toNat
  let b := a
  let x := s.barrier t.cid b
  let me := s.f1Of t
  if a ≥ 16 || x.expected = 0 || x.mask.getLsbD me then Out.code s cIllegalOperand
  else companyRelease s t fun t =>
    if x.arrived + 1 = x.expected then
      let s := s.setBarrier t.cid b { x with arrived := 0, mask := 0, phase := !x.phase }
      .done (s.barrierWake t.cid t.core b) t .none
    else
      let s := s.setBarrier t.cid b { x with arrived := x.arrived + 1, mask := x.mask ||| BitVec.ofNat 16 (2 ^ me) }
      if wait then .leave s t (.barw b) (t.pc + BitVec.ofNat 64 (Fields.len f)) else .done s t .none

/-- BARA (R184). -/
def execBara (f : Fields) (s : State) : Host.Outcome State Fault Refusal :=
  issue true { dst := .none, a := .w32 } f s fun t => barrierArrive f s t false

/-- BARW (R184). -/
def execBarw (f : Fields) (s : State) : Host.Outcome State Fault Refusal :=
  issue true { dst := .none, a := .w32, closing := true } f s fun t => barrierArrive f s t true

/-- BARO (R184). -/
def execBaro (f : Fields) (s : State) : Host.Outcome State Fault Refusal :=
  issue true { dst := .none, a := .w32 } f s fun t =>
    let a := (t.ua f).toNat
    let x := s.barrier t.cid a
    if a ≥ 16 then Out.code s cIllegalOperand
    else if x.mask.getLsbD (s.f1Of t) then .stay s t (.baro a x.phase)
    else .done (s.acquireL1 t.core) t .none

/-! ## RGRP and GBAR -/

/-- RGRP (R185). [log 117] -/
def execRgrp (f : Fields) (s : State) : Host.Outcome State Fault Refusal :=
  issue false { dst := .none, closing := true } f s fun t =>
    if !t.stack.isEmpty then Out.lanes s t cIllegalOperand
    else if t.ld != 0 || t.xc != 0 || t.ul != 0 then .stay s t (if t.xc != 0 then .wait 0x00003F00 else s.stall t)
    else
      let s := s.updCompany t.cid fun c => { c with rgrpMask := s.f1Of t :: c.rgrpMask }
      let parked : Troupe := { t with pc := t.pc + 4, park := .rgrp, declined := [] }
      .gone ((s.setTroupe parked.newAct).regroupTest t.cid)

/-- GBAR (R336): a release at package scope, then the arrival goes to the Ringmaster and the troupe parks. -/
def execGbar (f : Fields) (s : State) : Host.Outcome State Fault Refusal :=
  issue true { dst := .none, a := .w32, closing := true } f s fun t =>
    let a := (t.ua f).toNat
    let resident := match s.launch? t.lid with
      | some l => l.hdr.resident
      | none => false
    if a ≥ 16 || !resident then Out.code s cIllegalOperand
    else match releaseWait s t true with
      | some p => .stay s t p
      | none => .leave (s.releaseOwned t.core) t (.gbar a false) (t.pc + BitVec.ofNat 64 (Fields.len f))

/-- GBAR_ARRIVAL (R336): the Ringmaster counts a parked troupe's arrival. -/
def execGbarArrival (uid : Nat) (s : State) : Host.Outcome State Fault Refusal :=
  match s.troupe? uid with
  | none => .next s
  | some t =>
    match t.park with
    | .gbar c false =>
      let s := s.setTroupe { t with park := .gbar c true }
      let s := s.updLaunch t.lid fun l =>
        { l with gbars := listModify l.gbars c fun g => { g with arrived := g.arrived + 1 } }
      .next (s.gbarTest t.lid c)
    | _ => .next s

end Sys2Proof.Machine
end

