-- ==== Sys2Proof/Machine/Engine.lean ====
section
/-!
DEFINITION. What every engine shares (06 R175, R177; 07 R204): giving out a numbered operation, its accesses to global
memory, how it waits for a page or fails, and its completion (ENGINE_COMPLETE).
-/
namespace Sys2Proof.Machine

/-! ## Operations -/

/-- An operation as it is given out. -/
def newEngOp (id : Nat) (tl : Option Nat) (n : DWord) (uid : Nat) (kind : EngKind) (todo : List (Nat × Nat)) : EngOp :=
  { id := id, tl := tl, n := n, uid := uid, kind := kind, todo := todo, sent := [], badLines := [],
    emptied := [], rows := 0, parked := none, held := false, failed := false, done := false, flags := 0, bus := 0, busClock := 0, vector := [],
    delivered := [] }

def Company.op? (c : Company) (id : Nat) : Option EngOp := c.ops.find? (·.id == id)

def State.engOp? (s : State) (cid id : Nat) : Option EngOp := (s.company? cid).bind (·.op? id)

def Company.setOp (c : Company) (o : EngOp) : Company :=
  { c with ops := c.ops.map fun x => if x.id == o.id then o else x }

def State.setOp (s : State) (cid : Nat) (o : EngOp) : State := s.updCompany cid fun c => c.setOp o

/-- Gives out an operation numbered on a timeline (R175), which sets scratchpad lines empty (R146): the number, and the
state. [log 47] -/
def State.giveOp (s : State) (cid tl uid : Nat) (kind : EngKind) (todo : List (Nat × Nat)) (lines : List Nat) :
    DWord × State :=
  let (id, s) := s.fresh
  match s.company? cid with
  | none => (0, s)
  | some c =>
    let (n, c) := c.nextNumber tl
    let o := { newEngOp id (some tl) n uid kind todo with emptied := lines.filter fun l => !c.emptyLines.contains l }
    (n, (s.updCompany cid fun _ => { c with ops := c.ops ++ [o] }).emptyTheLines cid lines)

/-! ## Matrix operations in their order (R193) -/

def EngKind.isMatrix (k : EngKind) : Bool :=
  match k with
  | .mma _ | .mdrain _ | .mzero _ => true
  | _ => false

def EngKind.isMma (k : EngKind) : Bool :=
  match k with
  | .mma _ => true
  | _ => false

/-- The matrix operation that a company's engine works on: the oldest accepted one that is not done. -/
def Company.matrixHead? (c : Company) : Option EngOp := c.ops.find? fun o => o.kind.isMatrix && !o.done

/-- Whether an operation is the one its engine works on, with its company on a core. -/
def State.atHead (s : State) (cid id : Nat) : Bool :=
  match s.company? cid with
  | some c => c.core.isSome && !c.preempting && c.matrixHead?.any (·.id == id)
  | none => false

/-- mrp of the troupes whose latest MMA this is (R216). -/
def State.putMrp (s : State) (cid : Nat) (o : EngOp) : State :=
  match s.company? cid with
  | none => s
  | some c =>
    let latest (u : Nat) : Option Nat :=
      ((c.ops.filter fun x => x.kind.isMma && x.owners.contains u).getLast?).map (·.id)
    o.owners.foldl (fun s u =>
      if latest u == some o.id then
        s.updTroupe u fun t =>
          { t with mrp := BitVec.ofNat 32 (o.rows + (if o.parked.isSome || o.held then 2 ^ 8 else 0) + (if o.failed then 2 ^ 9 else 0)) }
      else s) s

/-- An MMA as it stands from now on, with mrp following (R216). -/
def State.holdMma (s : State) (cid : Nat) (o : EngOp) : State := (s.setOp cid o).putMrp cid o

/-- Ends an engine instruction's issue: a release of the troupe's earlier accesses at system scope, then the number goes
to D (R187, R210); the core's owned lines go home (R245). `go` starts the operation. -/
def engineIssue (f : Fields) (s : State) (t : Troupe) (go : State → DWord × State) (upd : Troupe → Troupe) : Out :=
  match releaseWait s t true with
  | some p => .stay s t p
  | none =>
    let (n, s') := go (s.releaseOwned t.core)
    pairOut s' (upd t) f n

/-- Whether an operation is waiting: for a fault's answer or a held page (R177, R204, R217). -/
def EngOp.waiting (s : State) (o : EngOp) : Bool :=
  match o.parked with
  | some k => s.rm.faults.any (·.token == k)
  | none => false

/-- An operation completes, with a fault mark if it failed (R177). -/
def EngOp.finish (o : EngOp) (failed : Bool) : EngOp :=
  { o with done := true, failed := o.failed || failed, todo := [], sent := [], parked := none, held := false }

/-! ## Accesses of an engine to global memory -/

/-- Where an engine's access goes: the place, a fault to wait for, no permission, or a string under edit to wait for. -/
inductive EngAcc where
  | ok (s : State) (l : Loc)
  | park (s : State) (token : Nat)
  | denied
  | busy
  deriving DecidableEq, Repr

/-- The state of an engine for one of its operations. `core` is none while its company is out, and `home` the core it stands
on or last stood on; `fetcher` says that it is the operand fetcher, and `early` are the lines that later operations of the
company have set empty. [log 47] -/
structure EngCtx where
  cid : Nat
  lid : Nat
  uid : Nat
  core : Option Nat
  home : Nat
  fetcher : Bool
  early : List Nat
  root : Nat
  queue : Nat
  deriving DecidableEq, Repr

def State.engCtx? (s : State) (cid : Nat) (o : EngOp) : Option EngCtx :=
  match s.company? cid with
  | some c =>
    some { cid := cid, lid := c.lid, uid := o.uid, core := c.core, home := c.core.getD c.lastCore,
           fetcher := (match o.kind with | .mma _ => true | _ => false),
           early := ((c.ops.dropWhile (·.id != o.id)).drop 1).flatMap (·.emptied),
           root := s.rootOf c.lid, queue := s.queueOf c.lid }
  | none => none

/-- Translates for an engine: the operand fetcher through its micro-TLB, the others through their die's last-level TLB
(R248). [log 113] -/
def State.translateEng (s : State) (x : EngCtx) (va : Nat) (p : Perm) : State × Tr :=
  if x.fetcher then s.translate .operand x.home x.root va p else s.translateDie (dieOf x.home) x.root va p

/-- Where an engine's access to `n` bytes at a virtual address goes (R187, R204). [log 113] -/
def State.engPlace (s : State) (x : EngCtx) (va n : Nat) (p : Perm) : EngAcc :=
  match s.translateEng x va p with
  | (s, .ok pa e psize) =>
    let l := s.loc pa e psize
    if s.sideHeld l n then .busy else .ok (s.countHot x.root va pa e psize) l
  | (_, .denied) => .denied
  | (s, r) =>
    let (s, k) := s.faultToken x.root x.queue va (r == .migrate)
    .park s k

/-- Bytes at a place for an engine, at home; poisoned bytes arrive as zeros (R187, R204). [log 51] -/
def State.engRead (s : State) (l : Loc) (n : Nat) : State × List Byte × Bool :=
  let bad := s.isPoisoned l n
  let (s, bs) := s.homeRead l n
  (s, bs.zipIdx.map fun (b, i) => if bad && s.isPoisoned { l with off := l.off + i } 1 then 0 else b, bad)

/-- A write of an engine of a core (none: its company is out), at home. -/
def State.engWrite (s : State) (core : Option Nat) (l : Loc) (bs : List Byte) (uid : Nat) : State :=
  let die := match core with
    | some c => dieOf c
    | none => 4
  let s := if l.die == die then s else s.dropRdc die l.line
  s.homeWrite l bs die uid

/-- Marks a whole line at home as poisoned, and counts it where no byte of it was (R362); a registered directory takes none
(R273). -/
def State.poisonLine (s : State) (l : Loc) : State :=
  let fresh := !s.isPoisoned { l with off := 0 } 192
  let kept (i : Nat) : Bool := l.cmp.isNone && s.directoryByte l.die (192 * l.line + i)
  let all := (List.range 192).filter fun i => !kept i
  let below (s : State) : State := s.poisonBelow { l with off := 0 } 192 (all ++ (s.badBelow l.line).filter kept)
  let s := match s.l2Get l.line with
    | some x =>
      let s := s.l2Put { x with bad := all ++ x.bad.filter kept, dirty := x.dirty || !l.wt }
      if l.wt then below s else s
    | none => below s
  if fresh then s.updDie l.die fun d => { d with errpois := stick d.errpois 1 } else s

/-- Marks a scratchpad line as poisoned. -/
def Company.poisonLine (c : Company) (line : Nat) : Company :=
  { c with spadPoison := c.spadPoison
      ++ ((List.range 192).map fun i => 192 * line + i).filter fun a => !c.spadPoison.contains a }

/-! ## Ranges -/

/-- The part of a list of ranges that starts at `start` and is at most `len` long: its length, and the ranges left. -/
def takeRange (todo : List (Nat × Nat)) (start len : Nat) : Nat × List (Nat × Nat) :=
  match todo with
  | [] => (0, [])
  | (a, n) :: rest =>
    if a ≤ start && start < a + n then
      let k := min len (a + n - start)
      (k, (if start = a then [] else [(a, start - a)])
        ++ (if start + k = a + n then [] else [(start + k, a + n - start - k)]) ++ rest)
    else
      let (k, rest') := takeRange rest start len
      (k, (a, n) :: rest')

/-- Whether any range meets [a, a + n). -/
def rangesMeet (todo : List (Nat × Nat)) (a n : Nat) : Bool := todo.any fun (b, m) => overlaps a n b m

/-! ## Completion -/

/-- The numbers of a timeline's operations that have not completed; edits are operations of their troupes. -/
def State.pendingNumbers (s : State) (c : Company) (tl : Nat) : List Nat :=
  (c.ops.filter fun o => o.tl == some tl && !o.done).map (·.n.toNat)
    ++ (if tl = 4 then (s.troupes.filter (·.cid == c.cid)).flatMap fun t => t.ops.filterMap fun o =>
          match o.kind with
          | .edit _ n => some n.toNat
          | _ => none
        else [])

/-- Completes what a timeline can (R175, R177): reached rises past every operation that has completed in order, whose writes
have by then reached every die (R176); their fault marks and flags wait for their issuers. -/
def State.completeTl (s : State) (cid tl : Nat) : State :=
  match s.company? cid with
  | none => s
  | some c =>
    let x := c.tl tl
    let pending := s.pendingNumbers c tl
    let reached := match pending with
      | [] => x.issued.toNat
      | n :: rest => rest.foldl min n - 1
    let reached := max reached x.reached.toNat
    let passed (o : EngOp) : Bool := o.done && o.tl == some tl && o.n.toNat ≤ reached
    let marks := (c.ops.filter passed).flatMap fun o => o.owners.filterMap fun uid =>
      let retired := match s.troupe? uid with
        | some t => t.retired
        | none => true
      if retired || (!o.failed && o.flags == 0) then none
      else some ({ tl := tl, n := o.n, uid := uid, fault := o.failed, flags := o.flags } : Mark)
    if tl ≥ 6 then s
    else
      s.settleAll.updCompany cid fun c =>
        { (c.setTl tl { x with reached := BitVec.ofNat 64 reached }) with
          ops := c.ops.filter (fun o => !passed o), marks := c.marks ++ marks }

/-- ENGINE_COMPLETE (R175, R177). -/
def execEngineComplete (cid tl : Nat) (s : State) : Host.Outcome State Fault Refusal := .next (s.completeTl cid tl)

end Sys2Proof.Machine
end

