-- ==== Sys2Proof/Machine/Placement.lean ====
section
/-!
DEFINITION. The room of a core and what a company needs of it (05 R135, R141), the context pool (R157, R337), and how
the distributor tree divides a launch (16 R333, R335; 03 R81, R83).
-/
namespace Sys2Proof.Machine

/-! ## Units (R333) -/

/-- Companies of a launch (R81). -/
def Header.companyCount (h : Header) : Nat := (h.exts.drop 1).foldl (· * ·) 1

/-- Companies that agree in fields k + 1 to nf; 1 when k is 0. -/
def Header.unitOf (h : Header) (k : Nat) : Nat := if k = 0 then 1 else ((h.exts.drop 1).take (k - 1)).foldl (· * ·) 1

/-- Companies of a unit kept whole for the cluster, and for the die. -/
def Header.unitC (h : Header) : Nat := h.unitOf h.bindc
def Header.unitD (h : Header) : Nat := if h.bindd = 0 then h.unitC else h.unitOf h.bindd

/-- The values of fields 2 to nf of company `q`, by their extents (R333). -/
def radixDigits (q : Nat) : List Nat → List Nat
  | [] => []
  | e :: rest => q % e :: radixDigits (q / e) rest

/-- The wid of troupe `f` of company `q`. -/
def Header.wid (h : Header) (q f : Nat) : DWord :=
  BitVec.ofNat 64 (widOf h.widths (f :: radixDigits q (h.exts.drop 1)))

/-! ## The context pool -/

/-- Whether a company has been pre-empted and not resumed. -/
def State.isOut (s : State) (c : Company) : Bool := c.core.isNone && !s.allRetired c

/-- The size of a company's context record (R157). -/
def Header.recordSize (h : Header) : Nat :=
  (8192 + h.troupes * (384 * h.regs + 4096) + h.ways * 98368 + 191) / 192 * 192

/-- Bytes of the context pool in use: a tile save area for each company that has not retired, and a record for each that
is out or is being taken out. [log 91] -/
def State.poolUsed (s : State) : Nat :=
  s.companies.foldl (fun n c =>
    if s.allRetired c && c.core.isNone then n
    else n + Config.tileSaveBytes + (if c.core.isSome && !c.preempting then 0 else match s.launch? c.lid with
      | some l => l.hdr.recordSize
      | none => 0)) 0

/-- Free bytes of the context pool (R157). [log 91] -/
def State.poolFree (s : State) : Nat := s.rm.ctxsize.toNat - s.poolUsed

/-! ## Room on a core (R141) -/

/-- Whether a core, and a cluster, is there and in service. Form N9D has die 0 alone (R1). -/
def State.coreIn (s : State) (core : Nat) : Bool := (s.core core).inService && s.dieIn (dieOf core)
def State.clusterIn (s : State) (k : Nat) : Bool := s.coreIn (2 * k) || s.coreIn (2 * k + 1)

/-- What is free on a core: registers, slots by quarter, scratchpad ways. -/
structure Room where
  regs : Nat
  slots : List (List Nat)
  ways : Nat
  deriving DecidableEq, Repr

def Room.empty : Room :=
  { regs := Config.registerBudget, slots := List.replicate 4 (List.range Config.quarterSlots), ways := 12 }

def State.room (s : State) (core : Nat) : Room :=
  let ts := s.troupes.filter fun t => t.resident && t.core == core
  { regs := Config.registerBudget - ts.foldl (fun n t => n + t.v.length) 0
    slots := (List.range 4).map fun q =>
      (List.range Config.quarterSlots).filter fun k => ts.all fun t => !(t.quarter == q && t.slot == k)
    ways := 12 - (s.companies.filter fun c => c.core == some core).foldl (fun n c => n + c.ways) 0 }

def Room.freeSlots (r : Room) : Nat := r.slots.foldl (fun n x => n + x.length) 0

/-- The first three checks of R141. -/
def Room.fits (r : Room) (h : Header) : Bool :=
  h.troupes * h.regs ≤ r.regs && h.troupes ≤ r.freeSlots && h.ways ≤ r.ways

/-- Companies of a launch that a core with this room admits. -/
def Room.holds (r : Room) (h : Header) : Nat :=
  min (r.regs / (h.troupes * h.regs)) (min (r.freeSlots / h.troupes) (if h.ways = 0 then 48 else r.ways / h.ways))

/-- The checks of R141 for a company of launch `lid`; `pool` is what it still takes from the context pool. -/
def State.fits (s : State) (core lid : Nat) (h : Header) (pool : Nat) : Bool :=
  s.coreIn core && (s.room core).fits h
    && ((s.core core).slots.contains lid || (s.core core).slots.length < Config.launchSlots)
    && pool ≤ s.poolFree

/-- Places a company's troupes of these numbers (R135): troupe f in quarter (q0 + f) mod 4 or the next with a free slot; its
lowest free slot. -/
def placeTroupes (q0 : Nat) (slots : List (List Nat)) : List Nat → List (Nat × Nat)
  | [] => []
  | f :: rest =>
    match ((List.range 4).map fun k => (q0 + f + k) % 4).find? fun q => !(slots.getD q []).isEmpty with
    | none => []
    | some q =>
      (q, (slots.getD q []).headD 0) :: placeTroupes q0 (listModify slots q (List.drop 1)) rest

/-- The quarter with the most free slots, the lowest-numbered on a tie. -/
def Room.firstQuarter (r : Room) : Nat :=
  (List.range 4).foldl (fun b q => if (r.slots.getD q []).length > (r.slots.getD b []).length then q else b) 0

def Room.place (r : Room) (fs : List Nat) : List (Nat × Nat) := placeTroupes r.firstQuarter r.slots fs

/-! ## Whether a launch can be placed whole (R335) -/


/-- Whether a placement of all companies exists when core c can take `cap c` of them and the pool has `pool` bytes. -/
def canPlace (h : Header) (cap : Nat → Nat) (pool : Nat) : Bool :=
  let inCluster (k : Nat) : Nat := (cap (2 * k) + cap (2 * k + 1)) / h.unitC
  let inDie (d : Nat) : Nat := (List.range 16).foldl (fun n k => n + inCluster (16 * d + k)) 0 / (h.unitD / h.unitC)
  let units := (List.range 4).foldl (fun n d => n + inDie d) 0
  h.companyCount / h.unitD ≤ units && h.companyCount * Config.tileSaveBytes ≤ pool

/-- On an empty package, with the whole pool. -/
def State.placeable (s : State) (h : Header) : Bool :=
  canPlace h (fun c => if s.coreIn c then Room.empty.holds h else 0) s.rm.ctxsize.toNat

/-- Companies of a launch that a core can take now. -/
def State.capacity (s : State) (core lid : Nat) (h : Header) : Nat :=
  if s.coreIn core && ((s.core core).slots.contains lid || (s.core core).slots.length < Config.launchSlots) then
    (s.room core).holds h
  else 0

/-! ## The distributor tree (R333) -/

/-- Splits n things into `parts` contiguous ranges whose sizes differ by at most 1, the larger ones first. -/
def splitEven (n parts : Nat) : List (Nat × Nat) :=
  (List.range parts).map fun j =>
    let start (j : Nat) : Nat := j * (n / parts) + min j (n % parts)
    (start j, start (j + 1))

/-- The companies that each cluster's distributor receives. -/
def State.distribute (s : State) (h : Header) : List DistRange :=
  let dies := (List.range 4).filter fun d => (List.range 16).any fun k => s.clusterIn (16 * d + k)
  let ranges := splitEven (h.companyCount / h.unitD) dies.length
  (dies.zip ranges).flatMap fun (d, lo, hi) =>
    let ks := ((List.range 16).map (16 * d + ·)).filter s.clusterIn
    let units := (hi - lo) * h.unitD / h.unitC
    (ks.zip (splitEven units ks.length)).filterMap fun (k, a, b) =>
      if a < b then
        some { cluster := k, lo := lo * h.unitD + a * h.unitC, hi := lo * h.unitD + b * h.unitC, begun := false }
      else none

end Sys2Proof.Machine
end

