-- ==== Sys2Proof/Machine/Queues.lean ====
section
/-!
DEFINITION. The Ringmaster's queues (16 R326-R331, R368; 02 R61; 03 R83): the entry at a queue's head, the checks of its
header, dependences, and the choice of the launch to start.
-/
namespace Sys2Proof.Machine

/-! ## The Ringmaster's own accesses -/

/-- The pieces of [pa, pa + n) that lie in one line. -/
def linePieces (pa n : Nat) : Nat → List (Nat × Nat)
  | 0 => []
  | fuel + 1 =>
    if n = 0 then []
    else
      let k := min n (192 - pa % 192)
      (pa, k) :: linePieces (pa + k) (n - k) fuel

/-- Bytes at a physical address, read at home; poisoned bytes arrive as zeros. -/
def State.physRead (s : State) (pa n : Nat) : State × List Byte :=
  (linePieces pa n (n / 192 + 2)).foldl (fun (s, bs) (a, k) =>
    let (s, b, _) := s.engRead (s.rawLoc a) k
    (s, bs ++ b)) (s, [])

/-- A place used by its physical address: a write to it reaches the memory side at once, as a host write to a succinct string must
(R281, R291). [log 98] -/
def State.physLoc (s : State) (pa : Nat) : Loc := { s.rawLoc pa with wt := true }

/-- Writes bytes at a physical address, at home, after every earlier write has reached every die (R331, R341). [log 98] -/
def State.physWrite (s : State) (pa : Nat) (bs : List Byte) : State :=
  (linePieces pa bs.length (bs.length / 192 + 2)).foldl (fun s (a, k) =>
    s.homeWrite (s.physLoc a) ((bs.drop (a - pa)).take k) 4 0) s.settleAll

/-- Whether [pa, pa + n) lies in a window. [log 80] -/
def State.present (s : State) (pa n : Nat) : Bool := (s.window? pa).isSome && (s.window? (pa + n - 1)).isSome

/-- Where an access of the Ringmaster through a queue's page table goes. -/
inductive RmAcc where
  | ok (s : State) (l : Loc)
  | wait (s : State)
  | denied
  deriving DecidableEq, Repr

/-- Translates for the Ringmaster: a page to migrate or to map is waited for; a declined page gives no permission
(R332, R368). [log 85] -/
def State.rmPlace (s : State) (queue : Nat) (lid : Option Nat) (root va : Nat) (p : Perm) : RmAcc :=
  match s.translateRoot root va p with
  | .ok pa e psize =>
    let l := s.loc pa e psize
    if s.sideHeld l 8 then .wait s else .ok (s.countHot root va pa e psize) l
  | .denied => .denied
  | r =>
    let mine := s.rm.waits.filter fun w => w.queue == queue && w.lid == lid && w.granule == faultGranule va
    if r = .report && mine.any (·.declined) then .denied
    else
      let (s, k) := s.faultToken root queue va (r == .migrate)
      let w : RmWait := { queue := queue, lid := lid, token := k, granule := faultGranule va, declined := false }
      .wait (if s.rm.waits.contains w then s else s.updRm fun m => { m with waits := m.waits ++ [w] })

/-- Drops what the Ringmaster waited for on behalf of a queue's head or a launch. -/
def State.dropWaits (s : State) (queue : Nat) (lid : Option Nat) : State :=
  s.updRm fun r => { r with waits := r.waits.filter fun w => !(w.queue == queue && w.lid == lid) }

/-- A value of the Ringmaster's reads, a wait, or no permission. -/
inductive RmRead where
  | got (s : State) (bs : List Byte)
  | wait (s : State)
  | denied
  deriving DecidableEq, Repr

/-- Reads `n` times 8 bytes from an 8-aligned virtual address. -/
def State.rmRead (s : State) (queue : Nat) (lid : Option Nat) (root va : Nat) (got : List Byte) : Nat → RmRead
  | 0 => .got s got
  | n + 1 =>
    match s.rmPlace queue lid root va .r with
    | .ok s l =>
      let (s, bs, _) := s.engRead l 8
      s.rmRead queue lid root ((va + 8) % 2 ^ 56) (got ++ bs) n
    | .wait s => .wait s
    | .denied => .denied

/-! ## The launch header (R61, R83) -/

def field (bs : List Byte) (off n : Nat) : Nat := leNat ((bs.drop off).take n)

def allZeroIn (bs : List Byte) (a b : Nat) : Bool := ((bs.drop a).take (b - a)).all (· == 0)

/-- A header's fields, when it keeps R61 and R83. -/
def parseHeader (bs : List Byte) : Option Header :=
  let nf := field bs 0x16 1
  let w (i : Nat) : Nat := field bs (0x10 + i) 1
  let ext (i : Nat) : Nat := field bs (0x18 + 8 * i) 8
  let ws := (List.range 6).map w
  let widths := ws.take nf
  let bindc := field bs 0x48 1
  let bindd := field bs 0x49 1
  let bindOk (k : Nat) : Bool := k = 0 || (2 ≤ k && k ≤ nf)
  let entry := field bs 0x00 8
  let handler := field bs 0x08 8
  let flags := field bs 0x4E 1
  let ok := 1 ≤ nf && nf ≤ 6 && widths.all (fun x => 1 ≤ x && x ≤ 64) && (ws.drop nf).all (· == 0)
    && w 0 ≤ 4 && widths.sum ≤ 64
    && (List.range 6).all (fun i => if i < nf then decide (ext i < 2 ^ w i) else ext i == 0)
    && entry != 0 && entry % 4 == 0 && handler != 0 && handler % 4 == 0
    && bindOk bindc && bindOk bindd && (bindc == 0 || bindd == 0 || bindc ≤ bindd)
    && 1 ≤ field bs 0x4A 1 && field bs 0x4A 1 ≤ 15
    && 1 ≤ field bs 0x4B 1 && field bs 0x4B 1 ≤ 16 && field bs 0x4B 1 == ext 0 + 1
    && field bs 0x4C 1 ≤ 12 && field bs 0x4D 1 ≤ 3 && flags < 4
    && field bs 0x50 8 % 8 == 0 && field bs 0x60 8 % 8 == 0 && field bs 0x78 8 % 8 == 0
    && field bs 0x80 4 ≤ 2 ^ 20 && field bs 0x88 8 % 16 == 0
    && allZeroIn bs 0x17 0x18 && allZeroIn bs 0x4F 0x50 && allZeroIn bs 0x84 0x88 && allZeroIn bs 0x91 0xC0
  if ok then
    some { entry := BitVec.ofNat 64 entry, handler := BitVec.ofNat 64 handler, widths := widths,
           exts := (List.range nf).map fun i => ext i + 1, bindc := bindc, bindd := bindd,
           regs := 8 * field bs 0x4A 1, troupes := field bs 0x4B 1, ways := field bs 0x4C 1, prio := field bs 0x4D 1,
           resident := flags.testBit 0, poison := flags.testBit 1,
           dep0 := field bs 0x50 8, val0 := BitVec.ofNat 64 (field bs 0x58 8),
           dep1 := field bs 0x60 8, val1 := BitVec.ofNat 64 (field bs 0x68 8),
           seed := BitVec.ofNat 64 (field bs 0x70 8), htab := field bs 0x78 8, hcount := field bs 0x80 4,
           gtab := field bs 0x88 8, gvalid := BitVec.ofNat 8 (field bs 0x90 1) }
  else none

/-! ## Queue entries (R328, R329, R368) -/

/-- The physical address of entry `i` of a queue. -/
def State.entryPa (s : State) (q i : Nat) : Nat :=
  (s.queue q).qbase.toNat + 64 * (i % 2 ^ (s.queue q).qsize.toNat)

/-- Writes an entry's status. -/
def State.writeStatus (s : State) (q i code : Nat) : State := s.physWrite (s.entryPa q i + 0x18) (leBytes 2 code)

/-- A queue's registers under a held write (R327). -/
def heldQueue? (r : Reg) : Option Nat :=
  match r with
  | .qbase q | .qsize q | .qroot q => some q
  | _ => none

/-- Whether a held write keeps a queue from starting a launch (R327). -/
def State.queueHeld (s : State) (q : Nat) : Bool := s.rm.held.any fun (r, _) => heldQueue? r == some q

/-- Whether a queue may be considered: enabled, not empty, no write held for it (R326, R327, R359). [log 80, 82] -/
def State.queueOpen (s : State) (q : Nat) : Bool :=
  let r := s.queue q
  q < Config.queues && !s.recovery && r.qctl.getLsbD 0 && r.qsize != 0 && r.qhead != r.qtail
    && !s.queueHeld q
    && s.present (s.entryPa q r.qhead.toNat) 64

/-- Refuses the entry at a queue's head and passes it. -/
def State.refuseEntry (s : State) (q code : Nat) : State :=
  let s := (s.writeStatus q (s.queue q).qhead.toNat code).dropWaits q none
  s.updQueue q fun r => { r with qhead := r.qhead + 1 }

/-- Checks of R368 on words of 8 bytes: each needs a permission. -/
inductive WordsOk where
  | ok (s : State)
  | wait (s : State)
  | denied
  deriving DecidableEq, Repr

def State.checkWords (s : State) (q root : Nat) : List (Nat × Perm) → WordsOk
  | [] => .ok s
  | (va, p) :: rest =>
    if va = 0 then s.checkWords q root rest
    else match s.rmPlace q none root va p with
      | .ok s _ => s.checkWords q root rest
      | .wait s => .wait s
      | .denied => .denied

/-- ENTRY_CHECK (R368): the entry at a queue's head is refused with the first code that applies, waits for a page, or
becomes its queue's candidate. -/
def execEntryCheck (q : Nat) (s : State) : Host.Outcome State Fault Refusal :=
  if !s.queueOpen q || s.rm.candidates.any (·.queue == q) then .next s
  else
    let i := (s.queue q).qhead.toNat
    let root := (s.queue q).qroot.toNat
    let (s, ent) := s.physRead (s.entryPa q i) 64
    let hdrVa := field ent 0 8
    let sig := field ent 8 8
    let flags := field ent 0x1A 1
    if !allZeroIn ent 0x1B 0x1C || !allZeroIn ent 0x28 0x40 || flags ≥ 4 || hdrVa % 192 != 0 || sig % 8 != 0 then
      .next (s.refuseEntry q 3)
    else
      match s.rmRead q none root hdrVa [] 24 with
      | .wait s => .next s
      | .denied => .next (s.refuseEntry q 8)
      | .got s bs =>
        match parseHeader bs with
        | none => .next (s.refuseEntry q 3)
        | some h =>
          match s.checkWords q root [(h.dep0, .r), (h.dep1, .r), (sig, .r), (sig, .w)] with
          | .wait s => .next s
          | .denied => .next (s.refuseEntry q 8)
          | .ok s =>
            if h.resident && !s.placeable h then .next (s.refuseEntry q 4)
            else
              let c : Candidate :=
                { queue := q, index := i, hdrVa := hdrVa, hdr := h, sig := sig, sigval := BitVec.ofNat 64 (field ent 16 8),
                  flags := BitVec.ofNat 8 flags, eligible := h.dep0 = 0 && h.dep1 = 0 }
              .next ((s.dropWaits q none).updRm fun r => { r with candidates := r.candidates ++ [c] })

/-! ## Choosing a launch (R331) -/

/-- Whether a dependence word has reached its value; it is not met while its page is away. -/
def State.depMet (s : State) (q root va : Nat) (v : DWord) : State × Bool :=
  if va = 0 then (s, true)
  else match s.rmRead q none root va [] 1 with
    | .got s bs => (s, v.toNat ≤ leNat bs)
    | .wait s => (s, false)
    | .denied => (s, false)

/-- Reads the dependences of a queue's candidate: it is eligible when both words have reached their values. -/
def State.pollQueue (s : State) (q : Nat) : State :=
  match s.rm.candidates.find? (·.queue == q) with
  | none => s
  | some c =>
    let root := (s.queue q).qroot.toNat
    let (s, a) := s.depMet q root c.hdr.dep0 c.hdr.val0
    let (s, b) := s.depMet q root c.hdr.dep1 c.hdr.val1
    s.updRm fun r => { r with candidates := r.candidates.map fun x =>
      if x.queue == q then { x with eligible := a && b } else x }

/-- DEPENDENCE_POLL (R331): the dependences of a queue's candidate are read. [log 83] -/
def execDependencePoll (q : Nat) (s : State) : Host.Outcome State Fault Refusal := .next (s.pollQueue q)

/-- Reads the dependences of every candidate (R331). -/
def State.pollAll (s : State) : State := (s.rm.candidates.map (·.queue)).foldl State.pollQueue s

/-- Whether a held write keeps every launch from starting (R327, R346). -/
def State.startsHeld (s : State) : Bool := s.rm.held.any fun (r, _) => (heldQueue? r).isNone

/-- The eligible head that is taken next: the highest priority, then round-robin after the queue taken last. [log 82] -/
def State.nextLaunch? (s : State) : Option Candidate :=
  let cs := s.rm.candidates.filter fun c => c.eligible && (s.queue c.queue).qctl.getLsbD 0 && !s.queueHeld c.queue
  let top := cs.foldl (fun p c => max p c.hdr.prio) 0
  (List.range Config.queues).findSome? fun k =>
    cs.find? fun c => c.hdr.prio == top && c.queue == (s.rm.lastQueue + 1 + k) % Config.queues

/-- LAUNCH_START (R331): the head taken gets status 0x0001 and its companies go to the distributors (R333); the
read-only caches hold nothing older than the launch (R148). [log 86] -/
def execLaunchStart (s : State) : Host.Outcome State Fault Refusal :=
  if s.recovery || s.startsHeld || s.rm.launches.length ≥ Config.activeLaunches then .next s
  else
    match s.nextLaunch? with
    | none => .next s
    | some c =>
      let (lid, s) := s.fresh
      let s := (s.writeStatus c.queue c.index 1).dropWaits c.queue none
      let s := s.updQueue c.queue fun r => { r with qhead := r.qhead + 1 }
      let l := newLaunch lid c.queue c.index c.hdrVa (s.queue c.queue).qroot.toNat c.hdr c.sig c.sigval c.flags
      let l := { l with dist := if c.hdr.resident then [] else s.distribute c.hdr, waitSince := s.clock.toNat }
      let s := s.updRm fun r =>
        { r with launches := r.launches ++ [l], lastQueue := c.queue,
                 candidates := r.candidates.filter (·.queue != c.queue) }
      .next ({ s with cores := s.cores.map fun k => { k with ro := [], l1 := k.l1.filter (·.owned) } } : State).settleAll

end Sys2Proof.Machine
end

