-- ==== Sys2Proof/Machine/Admission.lean ====
section
/-!
DEFINITION. Admission of companies (05 R135, R141-R144; 03 R74, R80, R81), all-resident placement (16 R335), the offers
and steals of the distributors (R333, R334), and the return of a saved company to a core (05 R158).
-/
namespace Sys2Proof.Machine

/-! ## Setting a company up -/

/-- The ways that a company of `n` ways receives on a core: the lowest that may serve as scratchpad and belong to no company
(R143). -/
def State.freeWays (s : State) (core n : Nat) : List Nat :=
  ((List.range Config.spadWays).filter fun w => !(s.spadWays core).contains w).take n

/-- Converts ways of a core to scratchpad (R144): the owned lines that stand in them are written back, and every line in
them is dropped. [log 86] -/
def State.convertWays (s : State) (core : Nat) (ways : List Nat) : State :=
  (((s.core core).l1.filter fun x => x.owned && ways.contains x.way).foldl (fun s x => s.recall x.line) s).updCore core fun c =>
    { c with l1 := c.l1.filter fun x => !ways.contains x.way }

/-- The group descriptor slots that gvalid names (R142): a wait, or the eight slots. A slot whose table the launch may
not read holds a free value (assumption 6). -/
def State.readGroups (s : State) (l : Launch) (got : List CoreMask) : Nat → Option (State × List CoreMask) × State
  | 0 => (some (s, got), s)
  | n + 1 =>
    let k := 7 - n
    if !l.hdr.gvalid.getLsbD k then s.readGroups l (got ++ [0]) n
    else
      match s.rmRead l.queue (some l.lid) l.root ((l.hdr.gtab + 16 * k) % 2 ^ 56) [] 2 with
      | .got s bs => s.readGroups l (got ++ [BitVec.ofNat 128 (leNat bs)]) n
      | .wait s => (none, s)
      | .denied =>
        ({ s with freeCtr := s.freeCtr + 1 } : State).readGroups l (got ++ [BitVec.ofNat 128 (Config.lostValue s.freeCtr)]) n

/-- Takes a launch slot of a core. -/
def State.takeSlot (s : State) (core lid : Nat) : State :=
  s.updCore core fun c => { c with slots := if c.slots.contains lid then c.slots else c.slots ++ [lid] }

/-- Admits company `q` of a launch to a core (R142). -/
def State.takeIn (s : State) (l : Launch) (q core : Nat) (groups : List CoreMask) : State :=
  let spots := (s.room core).place (List.range l.hdr.troupes)
  let (cid, s) := s.fresh
  let (order, s) := s.fresh
  let ways := s.freeWays core l.hdr.ways
  let s := (s.convertWays core ways).takeSlot core l.lid
  let base := s.nextId
  let ts := spots.zipIdx.map fun ((quarter, slot), f) =>
    newTroupe (base + f) cid l.lid core quarter slot (l.hdr.wid q f) l.hdr l.hdrVa
  let s := { s with nextId := base + spots.length, troupes := s.troupes ++ ts,
                    companies := s.companies ++ [{ newCompany cid l.lid q core order l.hdr groups with wayAt := ways }] }
  s.updLaunch l.lid fun x => { x with started := x.started + 1 }

/-! ## Offers of the distributors -/

/-- Whether a launch takes part in distribution. -/
def Launch.live (l : Launch) : Bool := l.ending.isNone && !l.statusDone

/-- Whether an all-resident launch is waiting to be placed. -/
def Launch.waiting (l : Launch) : Bool := l.live && l.hdr.resident && !l.placed

/-- The next company that a cluster's distributor offers of a launch: the lowest number it holds. -/
def Launch.offer? (l : Launch) (cluster : Nat) : Option Nat :=
  (l.dist.filter (·.cluster == cluster)).foldl (fun b r => match b with
    | some q => some (min q r.lo)
    | none => some r.lo) none

/-- The launches, those offered first standing first (R333). [log 87] -/
def State.offerOrder (s : State) : List Launch :=
  (List.range 4).flatMap fun k => s.rm.launches.filter fun l => l.hdr.prio == 3 - k

/-- Whether R335 holds back new companies of this priority. -/
def State.heldBack (s : State) (prio : Nat) : Bool := s.rm.launches.any fun l => l.waiting && prio ≤ l.hdr.prio

/-- Whether a launch's next company at a cluster may be admitted to a core now. -/
def State.mayAdmit (s : State) (l : Launch) (core : Nat) : Bool :=
  l.live && !l.hdr.resident && (l.offer? (clusterOf core)).isSome && !s.heldBack l.hdr.prio
    && !(s.companies.any fun c => c.lid == l.lid && s.isOut c)
    && s.fits core l.lid l.hdr Config.tileSaveBytes

/-- Removes a company from a cluster's ranges; what follows has begun where it is of the same unit of `unit` companies. -/
def takeCompany (unit : Nat) (dist : List DistRange) (cluster q : Nat) : List DistRange :=
  dist.filterMap fun r =>
    if r.cluster == cluster && r.lo == q then
      if r.lo + 1 < r.hi then some { r with lo := r.lo + 1, begun := (r.lo + 1) % unit != 0 } else none
    else some r

/-! ## Stealing (R334) -/

/-- What is left of a range without [a, b). -/
def cutRange (lo hi a b : Nat) : List (Nat × Nat) :=
  if b ≤ lo || hi ≤ a || b ≤ a then (if lo < hi then [(lo, hi)] else [])
  else (if lo < a then [(lo, a)] else []) ++ (if b < hi then [(b, hi)] else [])

/-- The die units of which a company has been admitted, where a launch has them (R334). [log 88] -/
def State.begunUnits (s : State) (l : Launch) : List Nat :=
  if l.hdr.bindd = 0 then []
  else ((s.companies.filter (·.lid == l.lid)).map fun c => c.q / l.hdr.unitD).eraseDups

/-- The parts of a range in which whole units of `unit` companies have not begun, lowest first. -/
def DistRange.free (r : DistRange) (unit unitD : Nat) (begun : List Nat) : List (Nat × Nat) :=
  let own := if r.begun then cutRange r.lo r.hi (r.lo / unit * unit) (r.lo / unit * unit + unit) else [(r.lo, r.hi)]
  let parts := begun.foldl (fun ps d => ps.flatMap fun (a, b) => cutRange a b (d * unitD) (d * unitD + unitD)) own
  parts.filterMap fun (a, b) =>
    let a' := (a + unit - 1) / unit * unit
    let b' := b / unit * unit
    if a' < b' then some (a', b') else none

/-- The remaining count of a cluster: its units that have not begun. -/
def Launch.remaining (l : Launch) (begun : List Nat) (cluster unit : Nat) : Nat :=
  (l.dist.filter (·.cluster == cluster)).foldl (fun n r =>
    (r.free unit l.hdr.unitD begun).foldl (fun n (a, b) => n + (b - a) / unit) n) 0

/-- The upper `n` units of some parts, which stand highest first. -/
def upperUnits (unit : Nat) : List (Nat × Nat) → Nat → List (Nat × Nat)
  | [], _ => []
  | (a, b) :: rest, n =>
    let m := min n ((b - a) / unit)
    if m = 0 then [] else (b - m * unit, b) :: upperUnits unit rest (n - m)

/-- The upper `n` units of a cluster that have not begun, lowest first. -/
def Launch.takeUpper (l : Launch) (begun : List Nat) (cluster unit n : Nat) : List (Nat × Nat) :=
  let parts := (l.dist.filter (·.cluster == cluster)).flatMap fun r => r.free unit l.hdr.unitD begun
  (upperUnits unit (sortBy (fun x y => y.1 < x.1) parts) n).reverse

/-- The ranges without the parts taken from a cluster. -/
def Launch.without (l : Launch) (cluster : Nat) (taken : List (Nat × Nat)) : List DistRange :=
  l.dist.flatMap fun r =>
    if r.cluster != cluster then [r]
    else (taken.foldl (fun ps (a, b) => ps.flatMap fun (lo, hi) => cutRange lo hi a b) [(r.lo, r.hi)]).map fun (lo, hi) =>
      { r with lo := lo, hi := hi, begun := r.begun && lo == r.lo }

/-- The first `n` units of some parts, and what follows them. -/
def splitUnits (unit : Nat) : List (Nat × Nat) → Nat → List (Nat × Nat) × List (Nat × Nat)
  | [], _ => ([], [])
  | (a, b) :: rest, n =>
    if n = 0 then ([], (a, b) :: rest)
    else
      let m := min n ((b - a) / unit)
      let (got, left) := splitUnits unit rest (n - m)
      ((a, a + m * unit) :: got, if a + m * unit < b then (a + m * unit, b) :: left else left)

/-- Gives parts to clusters, as many units to each as `counts` says. -/
def dealUnits (unit : Nat) : List (Nat × Nat) → List (Nat × Nat) → List DistRange
  | [], _ => []
  | (k, n) :: rest, parts =>
    let (got, left) := splitUnits unit parts n
    got.map (fun (a, b) => { cluster := k, lo := a, hi := b, begun := false }) ++ dealUnits unit rest left

/-- The cluster among `ks` with the largest remaining count, the lowest-numbered on a tie, and its count. -/
def Launch.richest (l : Launch) (begun : List Nat) (ks : List Nat) (unit : Nat) : Nat × Nat :=
  ks.foldl (fun (b, n) k => if l.remaining begun k unit > n then (k, l.remaining begun k unit) else (b, n)) (0, 0)

/-- A launch's ranges after a dry distributor has stolen, if it finds anything to steal: a cluster's from a sibling of its
die; or, when every cluster of the die is dry and none can steal, the die's from a cluster of another die, split over its
clusters as R333 splits a die's range. [log 88] -/
def State.stealFor (s : State) (l : Launch) (cluster : Nat) : Option (List DistRange) :=
  let dry (k : Nat) : Bool := l.dist.all (·.cluster != k)
  let begun := s.begunUnits l
  let mine := (List.range 16).map (cluster / 16 * 16 + ·)
  let others := (List.range Config.clusters).filter fun k => k / 16 != cluster / 16
  if !dry cluster || !s.clusterIn cluster || !l.live then none
  else
    let (k, r) := l.richest begun mine l.hdr.unitC
    if r / 2 > 0 then
      let taken := l.takeUpper begun k l.hdr.unitC (r / 2)
      some (l.without k taken ++ taken.map fun (a, b) => { cluster := cluster, lo := a, hi := b, begun := false })
    else if mine.all dry then
      let (k, r) := l.richest begun others l.hdr.unitD
      if r / 2 > 0 then
        let taken := l.takeUpper begun k l.hdr.unitD (r / 2)
        let ks := mine.filter s.clusterIn
        let sizes := (splitEven (r / 2 * l.hdr.unitD / l.hdr.unitC) ks.length).map fun (a, b) => b - a
        some (l.without k taken ++ dealUnits l.hdr.unitC (ks.zip sizes) taken)
      else none
    else none

/-- RANGE_STEALING (R334): a distributor that has run dry of a launch's companies steals the upper half of the units
that have not begun; the launches are tried in the order in which they are offered. [log 88] -/
def execRangeStealing (cluster : Nat) (s : State) : Host.Outcome State Fault Refusal :=
  match s.offerOrder.findSome? fun l => (s.stealFor l cluster).map fun d => (l.lid, d) with
  | none => .next s
  | some (lid, d) => .next (s.updLaunch lid fun l => { l with dist := d })

/-! ## Returning a saved company to a core (R158) -/

/-- The number of a troupe in its company. -/
def State.troupeField (s : State) (t : Troupe) : Nat := match s.launch? t.lid with | some l => l.hdr.f1 t.wid | none => 0

/-- Restores a saved company on a core: its troupes are placed again (R135) and acquire at package scope, so that neither
L1, nor the read-only cache, nor the die's RDC serves them anything older than what they have observed; a condition
monitor's troupe continues (R259); waits on empty lines start to count anew (R147); exchanges that were issued
meanwhile are matched (R232), and an MMA that was parked for the pre-emption is so no longer (R216). [log 86, 93] -/
def State.resumeOn (s : State) (c : Company) (core : Nat) (h : Header) : State :=
  let back := s.troupes.filter fun t => t.cid == c.cid && !t.retired
  let spots := (s.room core).place (back.map s.troupeField)
  let before := s
  let ways := s.freeWays core h.ways
  let s := ((s.convertWays core ways).acquireL1 core).settleDie (dieOf core)
  let s := (s.updCore core fun k => { k with ro := [] }).takeSlot core c.lid
  let s := back.zipIdx.foldl (fun s (t, j) =>
    let (quarter, slot) := spots.getD j (0, 0)
    s.setTroupe { t with core := core, quarter := quarter, slot := slot, resident := true, parkedAt := s.clock.toNat }) s
  let (order, s) := s.fresh
  let s := s.updCompany c.cid fun c =>
    { c with core := some core, lastCore := core, ways := h.ways, wayAt := ways, admitted := order, preempting := false }
  let s := ((s.company? c.cid).bind Company.matrixHead?).elim s fun o =>
    if o.held then s.holdMma c.cid { o with held := false } else s
  (s.restartWaits before).resolveXchgs

/-- The room a saved company needs: its troupes that have not retired, its ways, a slot. -/
def State.fitsSaved (s : State) (c : Company) (core : Nat) (h : Header) : Bool :=
  let n := (s.troupes.filter fun t => t.cid == c.cid && !t.retired).length
  s.fits core c.lid { h with troupes := n } 0

/-- Whether a saved company may return to a core under its launch's bindings (R83): on the cluster, and the die, of every
company of its unit that is resident or retired, or is still to be admitted. [log 93] -/
def State.keepsBinding (s : State) (l : Launch) (c : Company) (core : Nat) : Bool :=
  let h := l.hdr
  let same (unit q : Nat) : Bool := q / unit == c.q / unit
  s.companies.all (fun x => x.lid != l.lid || x.cid == c.cid || s.isOut x
    || ((h.bindc = 0 || !same h.unitC x.q || clusterOf x.lastCore == clusterOf core)
        && (h.bindd = 0 || !same h.unitD x.q || dieOf x.lastCore == dieOf core)))
  && l.dist.all fun r =>
    let meets (unit : Nat) : Bool := r.lo / unit ≤ c.q / unit && c.q / unit ≤ (r.hi - 1) / unit
    (h.bindc = 0 || !meets h.unitC || r.cluster == clusterOf core)
      && (h.bindd = 0 || !meets h.unitD || r.cluster / 16 == core / 32)

/-- Whether a saved company may return to a core now. While an all-resident launch waits, none of equal or lower priority
returns (R335). -/
def State.mayResume (s : State) (l : Launch) (c : Company) (core : Nat) : Bool :=
  s.isOut c && l.live && !l.hdr.resident && !s.heldBack l.hdr.prio && s.keepsBinding l c core && s.fitsSaved c core l.hdr

/-- Whether a launch has a company that may come to a core now: a saved one, or the next that the cluster's distributor
offers. -/
def State.wantsCore (s : State) (l : Launch) (core : Nat) : Bool :=
  s.mayAdmit l core || s.companies.any fun c => c.lid == l.lid && s.mayResume l c core

/-- Whether a launch that is offered first has a company for the core (R333). [log 87] -/
def State.outranked (s : State) (lid core : Nat) : Bool :=
  (s.offerOrder.takeWhile fun x => x.lid != lid).any fun x => s.wantsCore x core

/-- COMPANY_ADMIT (R141, R142, R333): the company that a cluster's distributor offers of a launch is admitted to `core`,
when no launch that is offered first fits there and, for an odd core, the even one refuses it. [log 87] -/
def execCompanyAdmit (core lid : Nat) (s : State) : Host.Outcome State Fault Refusal :=
  match s.launch? lid with
  | none => .next s
  | some l =>
    if !s.mayAdmit l core || s.outranked lid core || (core % 2 = 1 && s.mayAdmit l (core - 1)) then
      .next s
    else
      match l.offer? (clusterOf core) with
      | none => .next s
      | some q =>
        match s.readGroups l [] 8 with
        | (none, s) => .next s
        | (some (s, groups), _) =>
          let s := s.updLaunch lid fun x => { x with dist := takeCompany l.hdr.unitC x.dist (clusterOf core) q }
          .next (s.takeIn l q core groups)

/-! ## All-resident launches (R335) -/

/-- Whether companies numbered in order keep their launch's bindings on these cores (R83). [log 89] -/
def bound (h : Header) (cores : List Nat) : Bool :=
  cores.zipIdx.all fun (c, q) => cores.zipIdx.all fun (d, r) =>
    (h.bindc == 0 || q / h.unitC != r / h.unitC || clusterOf c == clusterOf d)
      && (h.bindd == 0 || q / h.unitD != r / h.unitD || dieOf c == dieOf d)

/-- Admits the companies of an all-resident launch one by one; none when one does not fit. [log 89] -/
def State.admitAll (s : State) (l : Launch) (groups : List CoreMask) : List (Nat × Nat) → Option State
  | [] => some s
  | (core, q) :: rest =>
    if s.fits core l.lid l.hdr Config.tileSaveBytes then (s.takeIn l q core groups).admitAll l groups rest else none

/-- Resumes the saved companies of an all-resident launch; none when one does not fit. -/
def State.resumeAll (s : State) (l : Launch) (cores : List Nat) : List Company → Option State
  | [] => some s
  | c :: rest =>
    match cores[c.q]? with
    | none => none
    | some core =>
      if s.fitsSaved c core l.hdr && s.keepsBinding l c core then (s.resumeOn c core l.hdr).resumeAll l cores rest else none

/-- ALL_RESIDENT_PLACE (R335, R337): the launch is placed, or resumed, whole, company Q on the Q-th core named; a launch
of higher priority that waits, or one of equal priority that started earlier, comes first. [log 89] -/
def execAllResidentPlace (lid : Nat) (cores : List Nat) (s : State) : Host.Outcome State Fault Refusal :=
  match s.launch? lid with
  | none => .next s
  | some l =>
    let first := s.rm.launches.any fun x => x.waiting && (x.hdr.prio > l.hdr.prio || (x.hdr.prio == l.hdr.prio && x.lid < l.lid))
    if !l.waiting || first || cores.length != l.hdr.companyCount then .next s
    else
      let place (s : State) : State := s.updLaunch lid fun x => { x with placed := true }
      if l.started = 0 then
        match s.readGroups l [] 8 with
        | (none, s) => .next s
        | (some (s, groups), _) =>
          if !bound l.hdr cores then .next s
          else match s.admitAll l groups cores.zipIdx with
            | some s => .next (place s)
            | none => .next s
      else
        if s.companies.any fun c => c.lid == lid && c.core.isSome && !s.allRetired c then .next s
        else match s.resumeAll l cores (s.companies.filter fun c => c.lid == lid && s.isOut c) with
          | some s => .next (place s)
          | none => .next s

end Sys2Proof.Machine
end

