-- ==== Sys2Proof/Machine/GroupLoad.lean ====
section
/-!
DEFINITION. Group descriptors and group loads (10 R261-R267).
-/
namespace Sys2Proof.Machine

/-- SETGRP (R261). -/
def execSetgrp (f : Fields) (s : State) : Host.Outcome State Fault Refusal :=
  let x := Fields.xs f
  issue true { dst := .none, long := true, ownXs := true, ownImm := true, immMask := 0x7,
               badField := x % 4 != 0 || x > 60 } f s fun t =>
    let m : CoreMask := t.sreg (x + 3) ++ t.sreg (x + 2) ++ t.sreg (x + 1) ++ t.sreg x
    .done (s.updCompany t.cid fun c => { c with groups := putAt c.groups (Fields.x f 2 0) m 0 }) t .none

/-- LDGR (R263): checks its offsets against the issuing company's scratchpad and goes into flight. -/
def execLdgr (f : Fields) (s : State) : Host.Outcome State Fault Refusal :=
  let op := Fields.x f 18 15
  issue false { dst := .lane, long := true, a := .w32, ownImm := true, immMask := 0x7FFFF, zeroXs := true,
                badModifier := op > 8 } f s fun t =>
    if t.ld ≥ 63 then .stay s t (s.stall t)
    else
      let size := if op = 3 then 2 else 4
      match s.spadLanes t size size fun i => spadAddr (t.a32 f i) (Fields.disp f 12) with
      | .trap c a m => .trap s (BitVec.ofNat 32 c) a m
      | .wait ks => .stay s t (.fault ks)
      | .go reqs =>
        let g := (Fields.x f 14 12 + bitsOf t.grpsel.toNat 2 0) % 8
        let members := match s.company? t.cid with
          | some c => c.groups.getD g 0
          | none => 0
        let o : MemOp :=
          { id := t.nextOp, kind := .ldgr members, sub := op, acquire := false, release := false, scope := 0,
            dest := if f.n then none else some f.d.toNat, latch := t.pos.kLane % 4, act := t.actSerial,
            raisesLd := true, raisesSt := false, lanes := reqs, samples := [], flags := 0, released := none,
            since := s.clock.toNat, sync := false }
        .done s (t.addOp o) (laneLatchOf t.act fun _ => 0)

/-- The value of member core `c` for a lane of a group load (R265, R266): none where the member contributes the identity
for a fault. [log 39] -/
def State.memberValue (s : State) (lid : Nat) (o : MemOp) (c : Nat) (r : LaneReq) : Option Word :=
  match s.memberOf lid c with
  | none => none
  | some k =>
    if r.addr + o.size > k.size || k.isPoisoned (192 * (r.addr / 192)) 192 then none
    else
      let v := leNat (k.read r.addr o.size)
      some (BitVec.ofNat 32 (if o.sub = 3 then v * 65536 else v))

/-- Whether a member's line lets that value be read now (R265). -/
def State.memberFull (s : State) (lid : Nat) (c : Nat) (r : LaneReq) : Bool :=
  match s.memberOf lid c with
  | none => true
  | some k => !k.emptyLines.contains (r.addr / 192)

/-- A value of a group load may be read only after what stands before it (R153, R163): the troupe's earlier acquires; its
earlier group loads of the same bytes; its earlier accesses to them when its own company is that member; and stores of the
member's troupes that a release has ordered before it. -/
def State.memberAllowed (s : State) (t : Troupe) (o : MemOp) (c : Nat) (r : LaneReq) : Bool :=
  let meets (e : MemOp) : Bool := e.isSpad && e.lanes.any fun x => !x.done && overlaps r.addr o.size x.addr e.size
  let reads (e : MemOp) : Bool := e.memberCores.contains c && e.lanes.any fun x => !e.sampled c x.lane && overlaps r.addr o.size x.addr e.size
  (t.ops.filter (·.id < o.id)).all (fun e => !e.acquire && !reads e)
    && (s.memberOf t.lid c).all fun k =>
        (k.cid != t.cid || (t.ops.filter (·.id < o.id)).all fun e => !meets e)
          && s.troupes.all fun u => u.cid != k.cid || u.ops.all fun e => !(e.orders u t o.since && e.writes && meets e)

/-- The lanes whose value of a member is still to be read. -/
def MemOp.lanesLeft (o : MemOp) (c : Nat) : List LaneReq := o.lanes.filter fun r => !o.sampled c r.lane

/-- Keeps values read of a member. -/
def MemOp.addSamples (o : MemOp) (c : Nat) (vs : List (Nat × Option Word)) : MemOp :=
  { o with samples := if o.samples.any (·.1 == c) then
      o.samples.map fun (k, ws) => if k == c then (k, ws ++ vs) else (k, ws)
    else o.samples ++ [(c, vs)] }

/-- Reads one member early, for one lane or for all that are left (R265, R267). [log 39] -/
def State.readMember (s : State) (uid id c : Nat) (lane : Option Nat) : State :=
  match s.troupe? uid with
  | none => s
  | some t =>
    match t.op? id with
    | none => s
    | some o =>
      if !t.resident then s else
      let rs := (o.lanesLeft c).filter fun r => (lane.all (· == r.lane)) && s.memberFull t.lid c r && s.memberAllowed t o c r
      if o.memberCores.contains c && !rs.isEmpty then
        let o' := o.addSamples c (rs.map fun r => (r.lane, s.memberValue t.lid o c r))
        s.setTroupe { t with ops := t.ops.map fun x => if x.id == id then o' else x }
      else s

/-- COMBINE of R264. -/
def groupCombine (op : Nat) (a b : Flagged) : Flagged :=
  match op with
  | 0 | 3 => flaggedAdd a b
  | 1 => flaggedMinMax false a b
  | 2 => flaggedMinMax true a b
  | 4 => ⟨a.w + b.w, 0⟩
  | 5 => ⟨sminW a.w b.w, 0⟩
  | 6 => ⟨smaxW a.w b.w, 0⟩
  | 7 => ⟨a.w &&& b.w, 0⟩
  | _ => ⟨a.w ||| b.w, 0⟩

/-- IDENTITY(OP) of R31. -/
def groupIdentity (op : Nat) : Word :=
  match op with
  | 0 | 3 => fpIdentity 0
  | 1 => fpIdentity 1
  | 2 => fpIdentity 2
  | 5 => intIdentity 1
  | 6 => intIdentity 2
  | 7 => intIdentity 5
  | _ => 0

/-- One lane's reduction over the 128 cores (R264). -/
def groupReduce (o : MemOp) (lane : Nat) : Flagged :=
  let leaf (c : Nat) : Flagged :=
    match o.sample? c lane with
    | some v => ⟨v.getD (groupIdentity o.sub), 0⟩
    | none => ⟨groupIdentity o.sub, 0⟩
  let r := (treeFold (groupCombine o.sub) 7 ((List.range Config.cores).map leaf)).headD ⟨0, 0⟩
  if o.sub = 3 then
    let q := bf16.round .rn 0 false (fp32.decode r.w.toNat)
    ⟨BitVec.ofNat 32 q.code, r.flags ||| q.flags⟩
  else r

/-- Whether every value that a group load has still to read can be read now, and it is the troupe's oldest group load
(R262, R265). One that waits is withdrawn while its company is out (R156). -/
def State.groupReady (s : State) (t : Troupe) (o : MemOp) : Bool :=
  t.resident && o.isGroup && !(t.ops.any fun x => x.isGroup && x.id < o.id)
    && o.memberCores.all fun c => (o.lanesLeft c).all fun r => s.memberFull t.lid c r && s.memberAllowed t o c r

/-- The group load with every value read. -/
def State.allSampled (s : State) (t : Troupe) (o : MemOp) : MemOp :=
  o.memberCores.foldl (fun (o : MemOp) c =>
    o.addSamples c ((o.lanesLeft c).map fun r => (r.lane, s.memberValue t.lid o c r))) o

/-- Members that contributed the identity for a fault (R262, R266). -/
def MemOp.faultCount (o : MemOp) : Nat := (o.samples.filter fun (_, vs) => vs.any fun (_, v) => v.isNone).length

/-- GROUP_LOAD_COMPLETE (R264, R262, R266): the values not yet read are read, and every lane is written; in issue
order among the troupe's group loads, and only when no member line is empty. -/
def execGroupLoadComplete (uid id : Nat) (s : State) : Host.Outcome State Fault Refusal :=
  match s.troupe? uid with
  | none => .next s
  | some t =>
    match t.op? id with
    | none => .next s
    | some o =>
      if !s.groupReady t o then .next s
      else
        let o := s.allSampled t o
        let faults := o.faultCount
        let t1 := o.lanes.foldl (fun (t : Troupe) r =>
          let v := groupReduce o r.lane
          (t.deliver o r.lane 1 v.w.toNat).raise v.flags) t
        let t2 := { t1 with ldstat := BitVec.ofNat 32 (256 * faults + (if faults > 0 then 1 else 0)) }
        let done := { o with lanes := o.lanes.map fun r => { r with done := true } }
        .next ((s.setTroupe (t2.putOp done)).updDie (dieOf t.core) fun d =>
          { d with dngrppart := stick d.dngrppart faults })

end Sys2Proof.Machine
end

