-- ==== Sys2Proof/Machine/LoadStore.lean ====
section
/-!
DEFINITION. Loads and stores (06 R159-R167), the full and empty lines of the scratchpad (05 R146, R147), the
read-only cache (05 R148), and the steps that perform accesses in flight (R162, R239).
-/
namespace Sys2Proof.Machine

/-! ## Fields (R159) -/

def lsNs (f : Fields) : Bool := Fields.x f 18 18 == 1
def lsOs (f : Fields) : Nat := Fields.x f 17 15

/-- The destination kind of a load of width W (R160). -/
def loadDst (w : Nat) : Dst := if w = 5 then .lanePair else if w = 6 then .laneQuad else .lane

/-- The shape of a load (R57, R159, R160). -/
def loadShape (f : Fields) (global nsOk osOk : Bool) : Shape :=
  { dst := loadDst (lsW f), long := true, a := .w32, ownXs := global, zeroXs := !global, ownImm := true, immMask := 0x7FFFF,
    badModifier := lsOs f == 7 || lsW f == 7 || (lsNs f && !nsOk) || (lsOs f != 0 && !osOk),
    badField := global && Fields.xs f % 2 = 1 }

/-- The shape of a store: B may be neither im nor sx. -/
def storeShape (f : Fields) (global : Bool) : Shape :=
  { dst := .none, long := true, a := .w32, b := storeUse (lsW f), ownXs := global, zeroXs := !global, ownImm := true,
    immMask := 0x7FFFF, plainB := true,
    badModifier := lsOs f == 7 || lsW f == 7 || lsNs f || lsW f == 2 || lsW f == 4,
    badField := global && Fields.xs f % 2 = 1 }

/-- The data of a store in lane i (R160): a quad is four registers, or zr. -/
def storeData (t : Troupe) (f : Fields) (w i : Nat) : BitVec 128 :=
  let b := f.b.toNat
  if w = 6 then
    if b < 120 then
      rowGet (t.vrow (b + 3)) i ++ rowGet (t.vrow (b + 2)) i ++ rowGet (t.vrow (b + 1)) i ++ rowGet (t.vrow b) i
    else 0
  else if w = 5 then (t.b64 f i).setWidth 128
  else (t.b32 f i).setWidth 128

/-- A load's value from its bytes, extended (R160), as lane registers' bits. -/
def extendLoad (w : Nat) (bs : List Byte) : Nat :=
  let v := leNat bs
  match w with
  | 2 => (BitVec.ofInt 32 (signedOf 8 v)).toNat
  | 4 => (BitVec.ofInt 32 (signedOf 16 v)).toNat
  | _ => v

/-- The operation of a load or store. -/
def accessOp (s : State) (t : Troupe) (f : Fields) (kind : MemKind) (load : Bool) (reqs : List LaneReq) : MemOp :=
  { id := t.nextOp, kind := kind, sub := lsW f, acquire := load && lsOs f != 0, release := !load && lsOs f != 0,
    scope := lsOs f, dest := if load && !f.n then some f.d.toNat else none, latch := t.pos.kLane % 4,
    act := t.actSerial, raisesLd := load, raisesSt := !load, lanes := reqs, samples := [], flags := 0,
    released := none, since := s.clock.toNat, sync := load && s.poisonTraps t }

/-! ## Performing one lane -/

/-- A lane of a load: the state, the value, whether poison made it 0 (R162, R164, R166, R167, R148). Poison in memory does
not matter where the troupe's own stores in flight cover it. LDRO and its fill go through the die's RDC (R237), whose copy
an invalidation on its way drops first, so that the value was in memory after the last ROINV. -/
def State.loadLane (s : State) (t : Troupe) (o : MemOp) (r : LaneReq) : State × Nat × Bool :=
  let n := o.size
  let s := if o.acquire then s.acquireAt t.core o.scope else s
  let finish (s : State) (bs : List Byte) (bad : Nat → Bool) : State × Nat × Bool :=
    if (List.range n).any fun i => bad i && !t.covers o (o.at_ r + i) then (s.useLost t.core, 0, true)
    else (s, extendLoad o.sub (t.forward o r bs), false)
  match o.kind with
  | .loadSp =>
    match s.company? t.cid with
    | some c => finish s (c.read r.addr n) fun i => c.isPoisoned (r.addr + i) 1
    | none => (s, 0, false)
  | .ldro ns =>
    let l := s.loc r.pa r.entry r.psize
    match (s.core t.core).ro.find? (·.line == l.line) with
    | some x => (s, extendLoad o.sub ((x.data.drop l.off).take n), false)
    | none =>
      let s := (s.countReq t r).settleInval (dieOf t.core) l.line
      let (s, bs) := s.dieRead (dieOf t.core) l
      if s.isPoisoned l n then (s.useLost t.core, 0, true)
      else
        let keep := !ns && !s.isPoisoned { l with off := 0 } 192
        let s := if keep then
            s.updCore t.core fun c => { c with ro := { line := l.line, data := bs } :: c.ro }
          else s
        (s, extendLoad o.sub ((bs.drop l.off).take n), false)
  | k =>
    let ns := match k with | .loadG ns => ns | _ => false
    let l := s.loc r.pa r.entry r.psize
    let (s, bs, bad) := (s.countReq t r).coreRead t.core l n ns
    finish s bs fun i => bad && s.isPoisoned (l.plus i) 1

/-- Registers a load's lane writes. -/
def MemOp.regs (o : MemOp) : Nat := if o.sub = 5 then 2 else if o.sub = 6 then 4 else 1

/-- A load's lane is performed: its data is written, and the operation is put back (R162). Where the instruction waits for
it, the data, or that the lane met poison, is kept until all have returned (R167). -/
def State.performLoad (s : State) (t : Troupe) (o : MemOp) (r : LaneReq) : State :=
  let (s', v, bad) := s.loadLane t o r
  if o.sync && bad then
    s.updTroupe t.uid fun t => t.putOp (o.setLane { r with done := true, status := cPoisonConsumed })
  else
    s'.updTroupe t.uid fun t =>
      let t := if o.sync then t else t.deliver o r.lane o.regs v
      (t.acquired o s'.clock.toNat).putOp (o.setLane { r with done := true, data := if o.sync then BitVec.ofNat 128 v else r.data })

/-- Lanes of a store are performed: a release they carry, and the operation put back (R153, R162). -/
def State.storesDone (s : State) (t : Troupe) (o : MemOp) (rs : List LaneReq) : State :=
  (s.performRelease t o).updTroupe t.uid fun t =>
    t.putOp (rs.foldl (fun (o : MemOp) x => o.setLane { x with done := true }) o)

/-- A release at package scope or wider writes the owned lines of its core back (R245). -/
def State.releaseBy (s : State) (t : Troupe) (o : MemOp) : State :=
  if o.release && o.scope ≥ 5 then s.releaseOwned t.core else s

/-- ST.sp.f writes every lane it has on a line, in lane order, and sets the line full as one step (R146). -/
def State.performFill (s : State) (t : Troupe) (o : MemOp) (r : LaneReq) : State :=
  let rs := o.lanes.filter fun x => !x.done && x.addr / 192 == r.addr / 192
  if rs.all (s.laneFree t o) then
    let s := (s.releaseBy t o).updCompany t.cid fun c => rs.foldl (fun c x => c.write x.addr (leBytes o.size x.data.toNat)) c
    (s.fillLine t.cid (r.addr / 192)).storesDone t o rs
  else s

/-- After a write that a release has passed: the cores in its scope hold no older copy of the line (R153). -/
def State.dropStale (s : State) (t : Troupe) (o : MemOp) (line : Nat) : State :=
  match o.released with
  | none => s
  | some (_, scope) =>
    (s.troupes.filter fun u => t.within u scope).foldl (fun s u =>
      (s.dropRo u.core line).updCore u.core fun c => { c with l1 := c.l1.filter fun x => x.line != line || x.owned }) s

/-- A store's lane is performed (R162, R163, R245). A release writes back the core's owned lines from package scope on; a
store that its troupe's ROINV or a release has passed drops the read-only copies of its line, and one that a release has
passed the L1 copies, in the cores of the troupes that wait for it (R148, R153). -/
def State.performStore (s : State) (t : Troupe) (o : MemOp) (r : LaneReq) : State :=
  match o.kind with
  | .storeSp true => s.performFill t o r
  | .storeSp false =>
    ((s.releaseBy t o).updCompany t.cid fun c => c.write r.addr (leBytes o.size r.data.toNat)).storesDone t o [r]
  | _ =>
    let s := (s.releaseBy t o).countHot (s.rootOf t.lid) r.addr r.pa r.entry r.psize
    let l := s.loc r.pa r.entry r.psize
    let s := s.coreWrite t.core l (leBytes o.size r.data.toNat) t.uid
    let s := if o.id < t.roinvAt then s.dropRo t.core l.line else s
    (s.dropStale t o l.line).storesDone t o [r]

/-- Performs one lane of an operation if it is enabled; `run` is what its kind does. -/
def State.performLane (s : State) (uid id lane : Nat) (run : State → Troupe → MemOp → LaneReq → State) : State :=
  match s.troupe? uid with
  | none => s
  | some t =>
    match t.op? id with
    | none => s
    | some o =>
      match o.lanes.find? (·.lane == lane) with
      | none => s
      | some r => if s.laneEnabled t o r then run s t o r else s

/-- Performs one lane, or every lane left in order. -/
def State.performLanes (s : State) (uid id : Nat) (lane : Option Nat)
    (run : State → Troupe → MemOp → LaneReq → State) : State :=
  match lane with
  | some i => s.performLane uid id i run
  | none => (List.range Config.lanes).foldl (fun s i => s.performLane uid id i run) s

/-! ## Issue -/

/-- The latch of an instruction whose lanes returned these values (R51): `n` registers of each. -/
def resultLatch (t : Troupe) (n : Nat) (vs : List (Nat × Nat)) : LatchVal :=
  laneLatchOf t.act fun i => match vs.find? (·.1 == i) with
    | some (_, v) => BitVec.ofNat 64 (if n ≤ 2 then v % 2 ^ (32 * n) else v)
    | none => 0

/-- Delivers the values of all lanes of a load or atomic whose instruction completes with them. -/
def deliverAll (s : State) (t : Troupe) (o : MemOp) (vs : List (Nat × Nat)) : Out :=
  .done s (vs.foldl (fun (t : Troupe) (i, v) => t.writeResult o i o.width v) t) (resultLatch t o.width vs)

/-- The trap of the lanes that met poison (R91, R167). -/
def poisonOut (s : State) (t : Troupe) (r : LaneReq) (bad : List LaneReq) : Out :=
  .trapped s t (BitVec.ofNat 32 cPoisonConsumed) (BitVec.ofNat 64 r.addr) (maskOf fun i => bad.any (·.lane == i))

/-- In a launch that traps on poison, a load, LDRO or returning atomic of its own is in flight while the instruction stays at
issue (R167). Once every lane has returned, the lanes that met poison trap, or the instruction completes. [log 24] -/
def awaitAccess (s : State) (t : Troupe) (body : Out) : Out :=
  match t.ops.find? (·.sync) with
  | none => body
  | some o =>
    if !o.lanes.all (·.done) then .stay s t (s.stall t)
    else
      match o.lanes.filter (·.status != 0) with
      | r :: rest => poisonOut s (t.dropOp o) r (r :: rest)
      | [] => deliverAll s (t.dropOp o) o (o.lanes.map fun r => (r.lane, r.data.toNat))

/-- Sends an operation on its way: the instruction completes (R162), or stays at issue until it has returned (R167). -/
def sendOp (s : State) (t : Troupe) (o : MemOp) (l : LatchVal) : Out :=
  if o.sync then .stay s (t.addOp o) (s.stall t) else .done s (t.addOp o) l

/-- Sends a load or store on its way (R162). -/
def launchAccess (s : State) (t : Troupe) (o : MemOp) : Out :=
  let l := if o.raisesLd then laneLatchOf t.act fun _ => 0 else .none
  if o.lanes.isEmpty then .done s t l else sendOp s t o l

/-- A wait count at its limit holds the instruction at issue (R74). -/
def countFull (s : State) (t : Troupe) (load store : Bool) : Option Park :=
  if (load && t.ld ≥ 63) || (store && t.st ≥ 63) then some (s.stall t) else none

/-- A global load or store: address, checks, translation (R57, R161, R162). -/
def globalAccess (f : Fields) (s : State) (t : Troupe) (kind : MemKind) (load : Bool) : Out :=
  awaitAccess s t <| match countFull s t load (!load) with
  | some p => .stay s t p
  | none =>
    let size := widthBytes (lsW f)
    let addr (i : Nat) : Nat := globalAddr (t.spair (Fields.xs f)) (t.a32 f i) (Fields.disp f 12)
    match s.globalLanes t size (if load then .r else .w) addr with
    | (s', .trap c a m) => .trap s' (BitVec.ofNat 32 c) a m
    | (s', .wait ks) => .stay s' t (.fault ks)
    | (s', .go reqs) =>
      let reqs := if load then reqs else reqs.map fun r => { r with data := storeData t f (lsW f) r.lane }
      launchAccess s' t (accessOp s' t f kind load reqs)

/-- The lanes whose line is empty, with their offsets. -/
def State.emptyWaits (s : State) (t : Troupe) (reqs : List LaneReq) : List (Nat × Nat) :=
  match s.company? t.cid with
  | some c => reqs.filterMap fun r => if c.emptyLines.contains (r.addr / 192) then some (r.lane, r.addr) else none
  | none => []

/-- A scratchpad load or store: the checks, and a load's wait for full lines (R146, R161, R162). [log 22] -/
def spadAccess (f : Fields) (s : State) (t : Troupe) (kind : MemKind) (load : Bool)
    (go : MemOp → Out) : Out :=
  awaitAccess s t <| match countFull s t load (!load) with
  | some p => .stay s t p
  | none =>
    let size := widthBytes (lsW f)
    match s.spadLanes t size size fun i => spadAddr (t.a32 f i) (Fields.disp f 12) with
    | .trap c a m => .trap s (BitVec.ofNat 32 c) a m
    | .wait ks => .stay s t (.fault ks)
    | .go reqs =>
      let waits := if load then s.emptyWaits t reqs else []
      if !waits.isEmpty then .stay s t (.empty waits)
      else
        let reqs := if load then reqs else reqs.map fun r => { r with data := storeData t f (lsW f) r.lane }
        go (accessOp s t f kind load reqs)

/-- LD.g (R162). -/
def execLdG (f : Fields) (s : State) : Host.Outcome State Fault Refusal :=
  issue false (loadShape f true true true) f s fun t => globalAccess f s t (.loadG (lsNs f)) true
/-- ST.g (R162). -/
def execStG (f : Fields) (s : State) : Host.Outcome State Fault Refusal :=
  issue false (storeShape f true) f s fun t => globalAccess f s t .storeG false
/-- LD.sp (R162). [log 22] -/
def execLdSp (f : Fields) (s : State) : Host.Outcome State Fault Refusal :=
  issue false (loadShape f false false true) f s fun t => spadAccess f s t .loadSp true (launchAccess s t)
/-- ST.sp (R162). -/
def execStSp (f : Fields) (s : State) : Host.Outcome State Fault Refusal :=
  issue false (storeShape f false) f s fun t => spadAccess f s t (.storeSp false) false (launchAccess s t)
/-- Whether an access of a troupe to these scratchpad lines must keep behind another one: an acquire or an access to them
that the troupe issued before, or one that a release has ordered (R153). -/
def State.linesBusy (s : State) (t : Troupe) (lines : List Nat) : Bool :=
  let on (u : Troupe) (e : MemOp) : Bool := (e.isSpad && e.lanes.any fun x => !x.done && lines.contains (x.addr / 192))
    || lines.any fun l => s.groupMeets u e (192 * l) 192
  t.ops.any (fun e => e.acquire || on t e)
    || s.troupes.any fun u => u.cid == t.cid && u.ops.any fun e => e.orders u t s.clock.toNat && on u e

/-- LD.sp.e once its lines are full and no access to them stands before it: every lane reads, and its lines turn empty. In a
launch that traps on poison a poisoned lane traps (R167). [log 24] -/
def takeLines (s : State) (t : Troupe) (o : MemOp) : Out :=
  let (s', vs) := o.lanes.foldl (fun (acc : State × List (LaneReq × Nat × Bool)) r =>
    let (s, v, bad) := acc.1.loadLane { t with ops := [] } o r
    (s, acc.2 ++ [(r, v, bad)])) (s, [])
  match (vs.filter fun (_, _, bad) => bad && s.poisonTraps t).map (·.1) with
  | r :: rest => poisonOut s t r (r :: rest)
  | [] => deliverAll (s'.emptyTheLines t.cid (o.lanes.map (·.addr / 192))) t o (vs.map fun (r, v, _) => (r.lane, v))

/-- LD.sp.e (R146, R162): reads its lines and sets them empty as one step, once the troupe's earlier accesses to
those lines are performed. [log 22] -/
def execLdSpE (f : Fields) (s : State) : Host.Outcome State Fault Refusal :=
  issue false (loadShape f false false true) f s fun t => spadAccess f s t .loadSp true fun o =>
    if s.linesBusy t (o.lanes.map (·.addr / 192)) then .stay s t (s.stall t) else takeLines s t o
/-- ST.sp.f (R162): writes, then sets each addressed line full. -/
def execStSpF (f : Fields) (s : State) : Host.Outcome State Fault Refusal :=
  issue false (storeShape f false) f s fun t => spadAccess f s t (.storeSp true) false (launchAccess s t)
/-- LDRO (R148, R162). -/
def execLdro (f : Fields) (s : State) : Host.Outcome State Fault Refusal :=
  issue false (loadShape f true true false) f s fun t => globalAccess f s t (.ldro (lsNs f)) true

/-! ## Steps -/

def MemOp.isPlainLoad (o : MemOp) : Bool :=
  match o.kind with
  | .loadG _ | .ldro _ | .loadSp => true
  | _ => false

/-- LOAD_RETURN (R162): data of a load's lane returns; for a group load, a member is read (R265, R267): k names member core
k mod 128, for every lane where k is below 128 and else for lane k / 128 - 1. A scratchpad load waits while its line is
empty (R146). [log 39] -/
def execLoadReturn (uid id : Nat) (lane : Option Nat) (s : State) : Host.Outcome State Fault Refusal :=
  match (s.troupe? uid).bind (·.op? id), lane with
  | none, _ => .next s
  | some o, _ =>
    if o.isPlainLoad then
      .next (s.performLanes uid id lane fun s t o r =>
        let empty : Bool := match o.kind with
          | .loadSp => (s.company? t.cid).any fun c => c.emptyLines.contains (r.addr / 192)
          | _ => false
        if empty then s else s.performLoad t o r)
    else
      match lane with
      | some k => .next (s.readMember uid id (k % 128) (if k < 128 then none else some (k / 128 - 1)))
      | none => .next s

/-- STORE_PERFORM (R162): a store's lane is performed. -/
def execStorePerform (uid id : Nat) (lane : Option Nat) (s : State) : Host.Outcome State Fault Refusal :=
  match (s.troupe? uid).bind (·.op? id) with
  | none => .next s
  | some o => if o.isStore then .next (s.performLanes uid id lane State.performStore) else .next s

/-- EMPTY_LINE_FILL (R146): the troupes parked on the line go on once every line they wait for is full; each
LD.sp.e among them then competes for the line. -/
def execEmptyLineFill (cid line : Nat) (s : State) : Host.Outcome State Fault Refusal :=
  match s.company? cid with
  | none => .next s
  | some c => if c.emptyLines.contains line then .next s else .next (s.wakeLine cid line)

/-- EMPTY_TIMEOUT (R147): a troupe that has been parked on an empty line for 2^24 clocks together traps; the trapping lanes are
those whose line is still empty, and taddr is the offset of the line of the lowest (R90). [log 120] -/
def execEmptyTimeout (uid : Nat) (s : State) : Host.Outcome State Fault Refusal :=
  match s.troupe? uid with
  | none => .next s
  | some t =>
    match s.lineWait t with
    | ([], _) => .next s
    | ((l, o) :: rest, t') =>
      if s.runnable t && s.clock.toNat - t.parkedAt ≥ Config.emptyTimeout then
        .next (s.takeTrap t' (BitVec.ofNat 32 cEmptyTimeout) (BitVec.ofNat 64 (192 * (o / 192)))
          (maskOf fun i => ((l, o) :: rest).any fun (k, _) => k == i) t.parkResume)
      else .next s

/-- Whether a request that can be sent now reaches a slice of die `die`: the home slice, unless the requester's RDC serves a
load; or the RDC slice of the requester's own die for a line homed elsewhere (R237, R242). -/
def State.reaches (s : State) (t : Troupe) (o : MemOp) (r : LaneReq) (die : Nat) : Bool :=
  let l := s.loc r.pa r.entry r.psize
  let own := dieOf t.core
  let served := l.die != own && (o.isLoad || o.isLdro) && (s.die own).rdc.any (·.line == l.line)
  s.laneEnabled t o r && s.sendsRequest t o r && !l.host && ((die == l.die && !served) || (die == own && l.die != own))

/-- Whether a slice of die `die` may refuse a request (R239): one that misses there or meets a line in flight for another
request, and that it has not refused 8 times. [log 121] -/
def State.refusable (s : State) (t : Troupe) (o : MemOp) (r : LaneReq) (die : Nat) : Bool :=
  let l := s.loc r.pa r.entry r.psize
  let missing := if die == l.die then (s.l2Get l.line).isNone else (s.die die).rdc.all (·.line != l.line)
  s.reaches t o r die && (if die == l.die then r.refusals else r.rdcRefusals) < 8
    && (missing || s.troupes.any fun u => u.ops.any fun e =>
          !e.isSpad && e.isOrdered && !(u.uid == t.uid && e.id == o.id)
            && e.lanes.any fun x => !x.done && (s.loc x.pa x.entry x.psize).line == l.line)

/-- A request after its refusal by a slice of die `hint.die`, its line's home or not. -/
def LaneReq.refuse (r : LaneReq) (home : Bool) (until_ : Nat) : LaneReq :=
  { r with refused := true, heldUntil := until_, refusals := if home then r.refusals + 1 else r.refusals,
           rdcRefusals := if home then r.rdcRefusals else r.rdcRefusals + 1 }

/-- REQUEST_REFUSAL (R239): a slice of the line's home die, or of the requester's own (its RDC slice), refuses the first
request of an operation that it may refuse, with a hint of 1 to 1024 clocks. [log 121] -/
def execRequestRefusal (uid id : Nat) (hint : RefusalHint) (s : State) : Host.Outcome State Fault Refusal :=
  match s.troupe? uid with
  | none => .next s
  | some t =>
    match t.op? id with
    | none => .next s
    | some o =>
      match o.lanes.find? fun r => s.refusable t o r hint.die with
      | none => .next s
      | some r =>
        if hint.clocks = 0 || hint.clocks > 1024 then .next s
        else
          let o' := o.setLane (r.refuse (hint.die == (s.loc r.pa r.entry r.psize).die) (s.clock.toNat + hint.clocks))
          .next ((s.setTroupe { t with ops := t.ops.map fun x => if x.id == id then o' else x }).updDie hint.die fun d =>
            { d with dnrefuse := stick d.dnrefuse 1 })

/-- REQUEST_RESEND (R239): after the hinted time the core sends the requests again. [log 121] -/
def execRequestResend (uid id : Nat) (s : State) : Host.Outcome State Fault Refusal :=
  match s.troupe? uid with
  | none => .next s
  | some t =>
    .next (s.setTroupe { t with ops := t.ops.map fun x =>
      if x.id == id then { x with lanes := x.lanes.map fun r =>
        if r.refused && s.clock.toNat ≥ r.heldUntil then { r with refused := false } else r }
      else x })

end Sys2Proof.Machine
end

