-- ==== Sys2Proof/Machine/Atomics.lean ====
section
/-!
DEFINITION. Atomics on global memory and on the scratchpad (06 R170-R172).
-/
namespace Sys2Proof.Machine

/-! ## Fields (R170) -/

def atSc (f : Fields) : Nat := Fields.x f 18 16
def atOrd (f : Fields) : Nat := Fields.x f 15 14

/-- The shape of an atomic: the .cas forms use C, the 64-bit forms pairs (R170, R171). -/
def atomicShape (f : Fields) (global : Bool) : Shape :=
  let opc := atOpc f
  let wide := opc ≥ 13
  let u : Use := if wide then .w64 else .w32
  { dst := if wide then .lanePair else .lane, long := true, a := .w32, b := u,
    c := if opc == 9 || opc == 15 then u else .no, ownXs := global, zeroXs := !global, ownImm := true, immMask := 0x7FFFF,
    badModifier := atSc f == 7 || ((atSc f == 0) != (atOrd f == 0)),
    badField := global && Fields.xs f % 2 = 1 }

/-! ## Operations -/

/-- NEW(old, b, c) of R171 but for the floating forms. -/
def atomicInt (opc : Nat) (old b c : Nat) : Nat :=
  let o := BitVec.ofNat 32 old
  let x := BitVec.ofNat 32 b
  match opc with
  | 0 => (old + b) % 2 ^ 32
  | 1 => (sminW o x).toNat
  | 2 => (smaxW o x).toNat
  | 3 => min old b
  | 4 => max old b
  | 5 => (o &&& x).toNat
  | 6 => (o ||| x).toNat
  | 7 => (o ^^^ x).toNat
  | 9 => if old = c then b else old
  | 13 => (old + b) % 2 ^ 64
  | 15 => if old = c then b else old
  | _ => b

/-- The new value and the flags of one access (R171, R172); for .fadd `b` is the combined sum. -/
def atomicNew (opc old b c : Nat) : Nat × BitVec 6 :=
  let two (r : Flagged) : Nat × BitVec 6 := (r.w.toNat, r.flags)
  match opc with
  | 10 => two (flaggedAdd ⟨BitVec.ofNat 32 old, 0⟩ ⟨BitVec.ofNat 32 b, 0⟩)
  | 11 => two (flaggedMinMax false ⟨BitVec.ofNat 32 old, 0⟩ ⟨BitVec.ofNat 32 b, 0⟩)
  | 12 => two (flaggedMinMax true ⟨BitVec.ofNat 32 old, 0⟩ ⟨BitVec.ofNat 32 b, 0⟩)
  | _ => (atomicInt opc old b c, 0)

/-- The combining sum of the lanes of one .fadd access, with its flags (R172). -/
def faddSum (rs : List LaneReq) : Flagged :=
  tree96 flaggedAdd ⟨0, 0⟩ ((List.range Config.lanes).map fun i =>
    match rs.find? (·.lane == i) with
    | some r => ⟨r.data.setWidth 32, 0⟩
    | none => ⟨0x80000000, 0⟩)

/-- The lanes that one access serves: every lane of a .fadd at that location, else the lane alone. -/
def MemOp.partners (o : MemOp) (r : LaneReq) : List LaneReq :=
  if o.sub = 10 then o.lanes.filter fun x => !x.done && o.at_ x == o.at_ r else [r]

/-- Whether a lane of an atomic meets poisoned bytes (R167). -/
def State.lanePoisoned (s : State) (t : Troupe) (o : MemOp) (r : LaneReq) : Bool :=
  match o.kind with
  | .atomSp => (s.company? t.cid).any fun c => c.isPoisoned r.addr o.size
  | _ => s.isPoisoned (s.loc r.pa r.entry r.psize) o.size

/-- The old value of one access of an atomic, whether it was poisoned, and the state with the new value written (R170, R172);
a poisoned old value is a free one (R167). -/
def State.accessAtomic (s : State) (t : Troupe) (o : MemOp) (r : LaneReq) (new : Nat → Nat) : State × Nat × Bool :=
  match o.kind with
  | .atomSp =>
    match s.company? t.cid with
    | some c =>
      let bad := c.isPoisoned r.addr o.size
      let old := if bad then Config.lostValue s.freeCtr % 256 ^ o.size else leNat (c.read r.addr o.size)
      let s := if bad then { s with freeCtr := s.freeCtr + 1 } else s
      (s.updCompany t.cid fun c => c.write r.addr (leBytes o.size (new old)), old, bad)
    | none => (s, 0, false)
  | _ => (s.countReq t r).coreAtomic t.core (s.loc r.pa r.entry r.psize) r.addr o.size t.uid new

/-- One access of an atomic: its lanes receive the old value, or 0 where it is poisoned (R167, R170, R172). Where the
instruction waits for it, the old value, or that the lanes met poison and it was not performed, is kept (R167). [log 26] -/
def State.performAtomic (s : State) (t : Troupe) (o : MemOp) (r : LaneReq) : State :=
  let rs := o.partners r
  if o.sync && s.lanePoisoned t o r then
    s.updTroupe t.uid fun t =>
      t.putOp (rs.foldl (fun (o : MemOp) x => o.setLane { x with done := true, status := cPoisonConsumed }) o)
  else
    let sum := faddSum rs
    let b := if o.sub = 10 then sum.w.toNat else r.data.toNat
    let s := s.releaseBy t o
    let (s, old, bad) := s.accessAtomic t o r fun old => (atomicNew o.sub old b r.cmp.toNat).1
    let fl := (atomicNew o.sub old b r.cmp.toNat).2 ||| (if o.sub = 10 then sum.flags else 0)
    let got := if bad then 0 else old
    let s := if bad then s.updDie (dieOf t.core) fun d => { d with erruse := stick d.erruse rs.length } else s
    let s := if o.acquire then s.acquireAt t.core o.scope else s
    let s := if o.isSpad then s else s.dropStale t o (s.loc r.pa r.entry r.psize).line
    (s.performRelease t o).updTroupe t.uid fun t =>
      let t := if o.sync then t else rs.foldl (fun (t : Troupe) x => t.deliver o x.lane o.width got) t
      ((t.orFlags fl).acquired o s.clock.toNat).putOp (rs.foldl (fun (o : MemOp) x =>
        o.setLane { x with done := true, data := if o.sync then BitVec.ofNat 128 got else x.data }) o)

/-- An atomic's issue, once its lanes have passed their checks. In a launch that traps on poison, one that meets it has no
effect, and one that returns its old value stays at issue until it has (R88, R167). [log 25] -/
def atomicIssue (s : State) (t : Troupe) (f : Fields) (kind : MemKind) (reqs : List LaneReq) : Out :=
  let opc := atOpc f
  let wide := opc ≥ 13
  let reqs := reqs.map fun r =>
    { r with data := if wide then (t.b64 f r.lane).setWidth 128 else (t.b32 f r.lane).setWidth 128,
             cmp := if wide then t.c64 f r.lane else (t.c32 f r.lane).setWidth 64 }
  let o : MemOp :=
    { id := t.nextOp, kind := kind, sub := opc, acquire := atOrd f % 2 == 1, release := atOrd f ≥ 2, scope := atSc f,
      dest := if f.n then none else some f.d.toNat, latch := t.pos.kLane % 4, act := t.actSerial, raisesLd := !f.n,
      raisesSt := true, lanes := reqs, samples := [], flags := 0, released := none, since := s.clock.toNat,
      sync := !f.n && s.poisonTraps t }
  if reqs.isEmpty then .done s t (laneLatchOf t.act fun _ => 0)
  else
    match reqs.filter fun r => s.poisonTraps t && s.lanePoisoned t o r with
    | r :: rest => poisonOut s t r (r :: rest)
    | [] => sendOp s t o (laneLatchOf t.act fun _ => 0)

/-- ATOM (R170-R172). [log 34] -/
def execAtom (f : Fields) (s : State) : Host.Outcome State Fault Refusal :=
  issue false (atomicShape f true) f s fun t =>
    awaitAccess s t <| match countFull s t (!f.n) true with
    | some p => .stay s t p
    | none =>
      let addr (i : Nat) : Nat := globalAddr (t.spair (Fields.xs f)) (t.a32 f i) (Fields.disp f 10)
      match s.globalLanes t (if atOpc f ≥ 13 then 8 else 4) .w addr with
      | (s', .trap c a m) => .trap s' (BitVec.ofNat 32 c) a m
      | (s', .wait ks) => .stay s' t (.fault ks)
      | (s', .go reqs) => atomicIssue s' t f .atomG reqs

/-- ATOM.sp (R170-R172). -/
def execAtomSp (f : Fields) (s : State) : Host.Outcome State Fault Refusal :=
  issue false (atomicShape f false) f s fun t =>
    awaitAccess s t <| match countFull s t (!f.n) true with
    | some p => .stay s t p
    | none =>
      let n := if atOpc f ≥ 13 then 8 else 4
      match s.spadLanes t n n fun i => spadAddr (t.a32 f i) (Fields.disp f 10) with
      | .trap c a m => .trap s (BitVec.ofNat 32 c) a m
      | .wait ks => .stay s t (.fault ks)
      | .go reqs => atomicIssue s t f .atomSp reqs

end Sys2Proof.Machine
end

