-- ==== Sys2Proof/Machine/MatrixMath.lean ====
section
/-!
DEFINITION. The arithmetic of the matrix engine: exact group sums (01 R26), the accumulation rules (R25, R27-R30), the
latent stage's sums and quantisation (07 R211, R212) and the quantising of a drained row (R221).
-/
namespace Sys2Proof.Machine

/-! ## Exact sums of products -/

/-- The exact sum of x[k] * y[k] (R26), and whether it raises NV. -/
def sumProducts (xs ys : List Val) : Exact :=
  let ps := xs.zip ys
  let invalid (p : Val × Val) : Bool := (p.1.isZero && p.2.isInf) || (p.1.isInf && p.2.isZero)
  let sig := ps.any fun p => p.1.isSig || p.2.isSig
  let nan := ps.any fun p => p.1.isNaN || p.2.isNaN
  let bad := ps.any invalid
  let infs (neg : Bool) : Bool := ps.any fun p =>
    !p.1.isNaN && !p.2.isNaN && !invalid p && (p.1.isInf || p.2.isInf) && (p.1.isNeg != p.2.isNeg) == neg
  let pos := infs false
  let neg := infs true
  if nan || bad || (pos && neg) then ⟨.nan false, sig || bad || (pos && neg)⟩
  else if pos then ⟨.inf false, false⟩
  else if neg then ⟨.inf true, false⟩
  else
    let fin := ps.filterMap fun p => match p with
      | (.fin x m e, .fin y n f) => some (x != y, m * n, e + f)
      | _ => none
    let lo : Int := fin.foldl (fun a (_, _, e) => min a e) 0
    let i : Int := fin.foldl (fun a (n, m, e) => a + scaledInt n m e lo) 0
    if i = 0 then ⟨.fin (fin.all fun (n, _, _) => n) 0 0, false⟩ else ⟨.fin (i < 0) i.natAbs lo, false⟩

/-- Groups of `k` elements. -/
def groupsOf {α : Type} (k : Nat) (xs : List α) : Nat → List (List α)
  | 0 => []
  | n + 1 => xs.take k :: groupsOf k (xs.drop k) n

/-! ## Accumulation -/

/-- The rules of R194. -/
inductive MmaRule where
  | groups
  | synthesised
  | int8
  | fp8
  | mx
  deriving DecidableEq, Repr

def isMxFmt (c : Nat) : Bool := 3 ≤ c && c ≤ 8

/-- The rule that SM, AF and BF choose (R194); reserved codes and INT64 choose none. -/
def mmaRule? (sm af bf : Nat) : Option MmaRule :=
  if sm = 0 then
    if af == bf && (af == cBF16 || af == cFP16) then some .groups
    else if af == bf && af == cFP32 then some .synthesised
    else if af == bf && af == cINT8 then some .int8
    else if isFp8 af && isFp8 bf then some .fp8
    else none
  else if sm = 1 && isFp8 af && isFp8 bf then some .fp8
  else if sm = 2 && isMxFmt af && isMxFmt bf then some .mx
  else none

/-- What Kc is a multiple of. -/
def MmaRule.multiple (r : MmaRule) : Nat :=
  match r with
  | .int8 | .fp8 => 128
  | _ => 32

def MmaRule.latent (r : MmaRule) : Bool :=
  match r with
  | .synthesised | .int8 => false
  | _ => true

/-- acc = RNE32(acc + p), with the flags so far. -/
def accAdd (acc p : Rounded) : Rounded :=
  let r := fp32.add acc.code p.code
  ⟨r.code, acc.flags ||| p.flags ||| r.flags⟩

/-- R27 over groups. -/
def accGroups (acc : Rounded) (gs : List (List Val × List Val)) : Rounded :=
  gs.foldl (fun r (x, y) => accAdd r (fp32.finish (sumProducts x y))) acc

/-- One K-block of R25. -/
def accFp8 (acc : Rounded) (x y : List Val) (sa sb : Nat) : Rounded :=
  let p := fp32.finish (sumProducts x y)
  let s := fp32.mul sa sb
  let t := fp32.mul p.code s.code
  accAdd acc ⟨t.code, p.flags ||| s.flags ||| t.flags⟩

/-- One block of R28. [log 43] -/
def accMx (acc : Rounded) (x y : List Val) (xa xb : Nat) : Rounded :=
  if xa = 0xFF || xb = 0xFF then accAdd acc ⟨fp32.nanCode, 0⟩
  else
    let e := sumProducts x y
    accAdd acc (fp32.finish ⟨e.v.scale ((xa : Int) + xb - 254), e.nv⟩)

/-- An exact value that is an integer. -/
def Val.toInt (v : Val) : Int :=
  match v with
  | .fin n m e => scaledInt n m e 0
  | _ => 0

/-- One block of R29. -/
def accInt8 (acc : Rounded) (x y : List Val) : Rounded :=
  let i := signedOf 32 acc.code + (sumProducts x y).v.toInt
  let c := clampInt i (-(2 ^ 31 : Int)) (2 ^ 31 - 1)
  ⟨codeOf 32 c, acc.flags ||| (if c = i then 0 else flagSAT ||| flagNX)⟩

/-- The parts hi and lo of R30. -/
def splitFp32 (x : Val) : Val × Val :=
  match x with
  | .fin n m e =>
    let mode : Mode := if magLe 511 119 m e then .rz else .rn
    let hi := bf16.decode (bf16.round mode 0 false (.fin n m e)).code
    let rest := ((Val.fin n m e).add hi.neg).v
    (hi, bf16.decode (bf16.round .rn 0 false rest).code)
  | v => (v, .fin false 0 0)

/-- A row as the engine receives it: values and scale codes. -/
structure EngRow where
  vals : List Val
  scales : List Nat
  deriving DecidableEq, Repr

/-- R208 ACCUM of one element. -/
def accum (r : MmaRule) (kc : Nat) (acc : Nat) (a b : EngRow) : Rounded :=
  let acc : Rounded := ⟨acc, 0⟩
  let n := kc / r.multiple
  let gs := (groupsOf r.multiple a.vals n).zip (groupsOf r.multiple b.vals n)
  match r with
  | .groups => accGroups acc gs
  | .synthesised =>
    let part (x : Val) : Val × Val := splitFp32 x
    let hi (xs : List Val) : List Val := xs.map fun x => (part x).1
    let lo (xs : List Val) : List Val := xs.map fun x => (part x).2
    let acc := accGroups acc (gs.map fun (x, y) => (hi x, hi y))
    let acc := accGroups acc (gs.map fun (x, y) => (hi x, lo y))
    accGroups acc (gs.map fun (x, y) => (lo x, hi y))
  | .int8 => gs.foldl (fun acc (x, y) => accInt8 acc x y) acc
  | .fp8 => gs.zipIdx.foldl (fun acc ((x, y), g) =>
      accFp8 acc x y (a.scales.getD g 0x3F800000) (b.scales.getD g 0x3F800000)) acc
  | .mx => gs.zipIdx.foldl (fun acc ((x, y), g) => accMx acc x y (a.scales.getD g 0x7F) (b.scales.getD g 0x7F)) acc

/-! ## The latent stage (R211, R212) -/

/-- R211 LATSUM. -/
def latSum (xs ys : List Val) : Rounded :=
  let n := xs.length / 32
  accGroups ⟨2 ^ 31, 0⟩ ((groupsOf 32 xs n).zip (groupsOf 32 ys n))

/-- A value that has been formed, with flags; the result of a list with the flags of all. -/
def allFlags (rs : List Rounded) : Flags := rs.foldl (fun f r => f ||| r.flags) 0

/-- R212: the rows of the stage's output rounded into F, with the scales that SM asks for; `shared` (.lat.x) gives one
scale to each 128 × 128 block. -/
def quantRows (F sm : Nat) (sat shared : Bool) (rows : List (List Val)) : List EngRow × Flags :=
  let one (row : List Val) : EngRow × Flags :=
    if sm = 0 then
      let rs := row.map fun v => roundTo F .rn 0 sat false v
      (⟨rs.map fun r => decodeElem F r.code, []⟩, allFlags rs)
    else if sm = 2 then
      let bs := (groupsOf 32 row (row.length / 32)).map fun b => mxBlock F .rn (fun _ => 0) b
      (⟨bs.flatMap fun (_, cs, _) => cs.map fun c => decodeElem F c, bs.map fun (sc, _, _) => sc⟩,
       bs.foldl (fun f (_, _, g) => f ||| g) 0)
    else
      let n := row.length / 128
      let block (g : Nat) : List Val :=
        if shared then rows.flatMap fun r => (r.drop (128 * g)).take 128 else (row.drop (128 * g)).take 128
      let bs := (groupsOf 128 row n).zipIdx.map fun (b, g) =>
        let sc := fp8Scale F (block g)
        (sc, b.map fun v => fp8Encode F .rn 0 sat v (fp32.decode sc))
      (⟨bs.flatMap fun (_, rs) => rs.map fun r => decodeElem F r.code, bs.map (·.1)⟩,
       bs.foldl (fun f (_, rs) => f ||| allFlags rs) 0)
  let out := rows.map one
  (out.map (·.1), out.foldl (fun f r => f ||| r.2) 0)

/-! ## Drained rows (R221) -/

/-- The codes, the scale bytes and the flags of a row of 128 tile words; `r` gives each element's random value. [log 55] -/
def drainRow (F : Nat) (mode : Mode) (sat : Bool) (r : Nat → Nat) (words : List Word) : List Nat × List Byte × Flags :=
  let vals := words.map fun w => fp32.decode w.toNat
  if F = cINT32 then (words.map (·.toNat), [], 0)
  else if isFp8 F then
    let sc := fp8Scale F vals
    let rs := vals.zipIdx.map fun (v, i) => fp8Encode F mode (r i) sat v (fp32.decode sc)
    (rs.map (·.code), (List.range 4).map fun i => BitVec.ofNat 8 (sc / 256 ^ i), allFlags rs)
  else if isMxFmt F then
    let bs := (groupsOf 32 vals 4).zipIdx.map fun (b, g) => mxBlock F mode (fun i => r (32 * g + i)) b
    (bs.flatMap fun (_, cs, _) => cs, bs.map fun (sc, _, _) => BitVec.ofNat 8 sc,
     bs.foldl (fun f (_, _, g) => f ||| g) 0)
  else
    let rs := vals.zipIdx.map fun (v, i) => roundTo F mode (r i) sat false v
    (rs.map (·.code), [], allFlags rs)

end Sys2Proof.Machine
end

