-- ==== Sys2Proof/Machine/Regions.lean ====
section
/-!
DEFINITION. Succinct regions (11 R269-R276, R281-R283): region records, registration, the string and its directory,
stale marking and repair.
-/
namespace Sys2Proof.Machine

/-! ## Region records (R270) -/

/-- A region record's contents, if they keep R270. -/
def parseRegion (bs : List Byte) : Option RegionRec :=
  let r : RegionRec :=
    { sbase := recNat bs 0x00 8, len := recNat bs 0x08 4, rkind := recNat bs 0x0C 1, hdie := recNat bs 0x0D 1,
      cap := recNat bs 0x10 4, gen := recNat bs 0x14 4, dbase := recNat bs 0x18 8 }
  let ok := r.sbase % 192 == 0 && decide (r.sbase < 2 ^ 56) && r.dbase % 192 == 0 && decide (r.dbase < 2 ^ 56)
    && decide (r.len ≤ r.cap) && decide (1 ≤ r.cap) && decide (r.rkind ≤ 1) && decide (r.hdie ≤ 3)
    && recNat bs 0x0E 1 == 0 && recNat bs 0x0F 1 == 2 && zeroRange bs 0x20 0xA8 && zeroRange bs 0xAC 0xB0
  if ok then some r else none

/-! ## The region table (R271) -/

def State.region? (s : State) (die root ra : Nat) : Option Region :=
  (s.die die).regions.find? fun g => g.root == root && g.ra == ra

/-- Replaces a region of the table; the one used last stands first. -/
def State.putRegion (s : State) (die : Nat) (g : Region) : State :=
  s.updDie die fun d =>
    { d with regions := g :: d.regions.filter fun x => !(x.root == g.root && x.ra == g.ra) }

def State.updRegion (s : State) (die root ra : Nat) (h : Region → Region) : State :=
  s.updDie die fun d =>
    { d with regions := d.regions.map fun g => if g.root == root && g.ra == ra then h g else g }

/-- What the walk over an area's pages finds. -/
inductive AreaPages where
  | ok (s : State) (pages : List (Nat × Nat × Nat))
  | wait (s : State) (p : Park)
  | bad
  deriving DecidableEq, Repr

/-- The pages of [va, stop): each valid, readable, writable, write-through, not compressed and homed on `die` (R271). -/
def State.areaPages (s : State) (t : Troupe) (die va stop : Nat) (got : List (Nat × Nat × Nat)) : Nat → AreaPages
  | 0 => .ok s got
  | n + 1 =>
    if va ≥ stop then .ok s got
    else
      let root := s.rootOf t.lid
      let fault (migrate : Bool) : AreaPages :=
        let (s, k) := s.faultToken root (s.queueOf t.lid) va migrate
        .wait s (.fault [k])
      match s.walk root va with
      | .absent => if t.declined.contains (faultGranule va) then .bad else fault false
      | .leaf e psize =>
        match s.judge va .rw e psize with
        | .denied => .bad
        | .report => .bad
        | .migrate => if entryWT e && !entryCMP e then fault true else .bad
        | .ok pa _ _ =>
          if !entryWT e || entryCMP e || s.homeDie pa != die then .bad
          else
            let base := va - va % psize
            s.areaPages t die (base + psize) stop (got ++ [(base, entryFrame e, psize)]) n

def Region.ranges (g : Region) : List (Nat × Nat) :=
  areaRanges g.smap g.r.sbase g.r.ssize ++ areaRanges g.dmap g.r.dbase g.r.dsize

def anyMeet (xs ys : List (Nat × Nat)) : Bool :=
  xs.any fun (a, n) => ys.any fun (b, m) => a < b + m && b < a + n

/-! ## The summary line (R276) -/

def oRADDR : Nat := 0x00
def oRGEN : Nat := 0x08
def oSTATE : Nat := 0x0C
def oLEN : Nat := 0x10
def oSWM : Nat := 0x14
def oONES : Nat := 0x18
def oEXC : Nat := 0x20
def oMINE : Nat := 0x24
def oJOP : Nat := 0x28
def oJN : Nat := 0x29
def oJPH : Nat := 0x2A
def oJPOS : Nat := 0x2C
def oJBITS : Nat := 0x30
def oJTL : Nat := 0x38
def oJLINE : Nat := 0x40

/-- Whether a byte of the summary line is poisoned: STATE is then taken as 0x02 with an empty journal (R289). -/
def State.summaryLost (s : State) (g : Region) : Bool :=
  (List.range 192).any fun i => s.poison.contains (g.dirPa i)

def State.regionState (s : State) (g : Region) : Nat := if s.summaryLost g then 2 else s.dirGet g oSTATE 1

/-- Marks every block from `b` up stale. -/
def State.markFrom (s : State) (g : Region) (b : Nat) : State :=
  (List.range (g.r.nb - b)).foldl (fun s i => s.markBlock g (b + i)) s

/-- Whether a launch is being ended (R329). -/
def State.launchEnding (s : State) (lid : Nat) : Bool := (s.launch? lid).any (·.ending.isSome)

/-- The edit that holds a region is interrupted (R288): STATE and the journal stay as they are, every block from p's line
upward is stale, and the issuing operation, if its troupe still exists, completes with a fault mark. [log 60, 109] -/
def State.stopEdit (s : State) (g : Region) : State :=
  match g.edit with
  | none => s
  | some job =>
    let s := if s.regionState g = 2 then s.markFrom g (s.dirGet g oJPOS 4 / 1536) else s
    let s := s.updRegion g.r.hdie g.root g.ra fun g => { g with edit := none }
    match s.troupe? job.uid with
    | none => s
    | some t =>
      match t.op? job.op with
      | none => s
      | some o =>
        let s := s.setTroupe (t.putOp { o with lanes := o.lanes.map fun r => { r with done := true } })
        let s := match o.kind with
          | .edit _ n =>
            if t.retired then s
            else s.updCompany t.cid fun c =>
              { c with marks := c.marks ++ [({ tl := 4, n := n, uid := t.uid, fault := true, flags := 0 } : Mark)] }
          | _ => s
        s.completeTl t.cid 4

/-- Starts a directory or keeps it, and marks everything stale (R272). -/
def State.startDirectory (s : State) (g : Region) : State :=
  let kept := s.regionState g != 0 && s.dirGet g oRADDR 8 == g.ra && s.dirGet g oRGEN 4 == g.r.gen
  let s := if kept then s
    else
      let s := { s with poison := s.poison.filter fun b => !((List.range 192).any fun i => g.dirPa i == b) }
      let s := s.dirPut g 0 192 0
      let s := (s.dirPut g oRADDR 8 g.ra).dirPut g oRGEN 4 g.r.gen
      (s.dirPut g oLEN 4 g.r.len).dirPut g oSTATE 1 1
  (s.markFrom g 0).dirPut g oSWM 4 0

/-- What using a region record comes to: the region; a wait; or a trap code with its address. -/
inductive RegionUse where
  | ok (s : State) (g : Region)
  | wait (s : State) (p : Park)
  | trap (s : State) (code : Nat) (taddr : Nat)
  deriving DecidableEq, Repr

/-- Whether an operation in flight names a region. -/
def State.regionInUse (s : State) (g : Region) : Bool :=
  s.troupes.any fun t => s.rootOf t.lid == g.root && t.ops.any fun o =>
    match o.kind with
    | .query _ | .edit _ _ => o.lanes.any fun r => r.pa == g.ra
    | _ => false

/-- Registers the record at `ra` (R271, R272). The seal is judged after the checks of registration (R279). [log 140] -/
def State.register (s : State) (t : Troupe) (ra entryVa : Nat) (bytes : List Byte) : RegionUse :=
  match parseRegion bytes with
  | none => .trap s cRecordInvalid entryVa
  | some r =>
    let root := s.rootOf t.lid
    match s.areaPages t r.hdie r.sbase (r.sbase + r.ssize) [] (r.ssize / 65536 + 2) with
    | .wait s p => .wait s p
    | .bad => .trap s cRecordInvalid entryVa
    | .ok s smap =>
      match s.areaPages t r.hdie r.dbase (r.dbase + r.dsize) [] (r.dsize / 65536 + 2) with
      | .wait s p => .wait s p
      | .bad => .trap s cRecordInvalid entryVa
      | .ok s dmap =>
        let g : Region := { root := root, ra := ra, bytes := bytes, r := r, smap := smap, dmap := dmap, edit := none,
                            waiting := [], repairing := none }
        let others := (s.die r.hdie).regions.filter fun x => !(x.root == root && x.ra == ra)
        if anyMeet (areaRanges smap r.sbase r.ssize) (areaRanges dmap r.dbase r.dsize)
            || others.any (fun x => anyMeet g.ranges x.ranges) then .trap s cRecordInvalid entryVa
        else if !s.sealOk bytes then .trap s cSealReject ra
        else
          let free := others.filter fun x => x.edit.isSome || s.regionInUse x
          if others.length ≥ Config.regionsPerDie && free.length = others.length then .wait s .interlock
          else
            let s := if others.length ≥ Config.regionsPerDie then
                match others.reverse.find? fun x => !(x.edit.isSome || s.regionInUse x) with
                | some v => s.updDie r.hdie fun d => { d with regions := d.regions.filter (· != v) }
                | none => s
              else s
            .ok ((s.startDirectory g).putRegion r.hdie g) g

/-- The region of a record as a query or edit uses it (R271): registered first where it is not, and again, once no edit
holds its lock, where the record's bytes have changed. -/
def State.useRegion (s : State) (t : Troupe) (ra entryVa : Nat) (bytes : List Byte) : RegionUse :=
  let die := recNat bytes 0x0D 1
  match s.region? die (s.rootOf t.lid) ra with
  | some g =>
    if g.bytes == bytes then
      if s.sealOk bytes then .ok (s.putRegion die g) g else .trap s cSealReject ra
    else if g.edit.isSome then .wait s .interlock
    else s.register t ra entryVa bytes
  | none => s.register t ra entryVa bytes

/-- The region that a handle names (steps 2 and 3 of R279). -/
def State.handleRegion (s : State) (t : Troupe) (h : Nat) : RegionUse :=
  match s.record t h with
  | .wait s p => .wait s p
  | .trap c a => .trap s c a
  | .got s va bytes =>
    let ev := match s.launch? t.lid with
      | some l => l.entryVa h
      | none => 0
    s.useRegion t va ev bytes

/-! ## The string -/

def Region.strPa (g : Region) (i : Nat) : Nat := pagePhys g.smap (g.r.sbase + i)

/-- The 192 bytes of string line `b`, as the memory-side cache has them (R300). -/
def State.strLine (s : State) (g : Region) (b : Nat) : List Byte :=
  (List.range 192).map fun i => cellGet s.mem (g.strPa (192 * b + i))

/-- Whether the footprint of the command on a sequencer meets a string. -/
def State.meetsString (s : State) (q : Sequencer) (g : Region) : Bool :=
  q.run.isSome && (List.range g.r.ssize).any fun i => s.inFootprint q (g.strPa i)

/-- Whether a bank command under way holds bytes of a string (R312): queries, edits and repairs of it wait for its end. -/
def State.stringHeld (s : State) (g : Region) : Bool := s.sequencers.any fun q => s.meetsString q g

/-- Bit `i` of a string (R269), as the memory-side cache has it (R300). -/
def State.strBit (s : State) (g : Region) (i : Nat) : Bool :=
  (cellGet s.mem (g.strPa (i / 8))).toNat.testBit (i % 8)

def bitOfBytes (bs : List Byte) (j : Nat) : Bool := (bs.getD (j / 8) 0).toNat.testBit (j % 8)

/-- The lowest string line up to line `last` that holds a poisoned byte. -/
def State.poisonedLine? (s : State) (g : Region) (last : Nat) : Option Nat :=
  if s.poison.isEmpty then none
  else (List.range (last + 1)).find? fun b => (List.range 192).any fun i => s.poison.contains (g.strPa (192 * b + i))

/-- Writes a line down and drops its home L2 copy and its RDC copies (R287). -/
def State.flushLine (s : State) (line : Nat) : State :=
  let s := (s.recall line).writeDown line
  { s with l2 := s.l2.filter (·.line != line)
           dieUnits := s.dieUnits.map fun d => { d with rdc := d.rdc.filter (·.line != line) }
           invals := s.invals.filter (·.line != line) }

/-- Replaces string line `b` as an edit does (R287): the copies in the home L2 and the RDCs go, the block is marked, and
the line is poisoned or not. -/
def State.putStrLine (s : State) (die : Nat) (g : Region) (b : Nat) (bs : List Byte) (bad : Bool) : State :=
  let pas := (List.range 192).map fun i => g.strPa (192 * b + i)
  let lines := (pas.map (· / 192)).eraseDups
  let fresh := !pas.any s.poison.contains
  let s := lines.foldl State.flushLine s
  let s := lines.foldl (fun s line => s.sideDirty (192 * line) 192) (s.markBlock g b)
  let s := { s with mem := (pas.zip bs).foldl (fun m (a, v) => cellPut m a v) s.mem,
                    poison := s.poison.filter fun x => !pas.contains x }
  if !bad then s
  else
    let s : State := { s with poison := s.poison ++ pas }
    if fresh then s.updDie die fun d => { d with errpois := stick d.errpois 1 } else s

/-! ## Counting (R273-R276) -/

/-- Ones, excess, smallest and largest excess of `n` positions. -/
structure Excess where
  pop : Nat
  exc : Int
  lo : Int
  hi : Int
  deriving DecidableEq, Repr

/-- Counts positions j up to j + n - 1. -/
def countBits (bit : Nat → Bool) (j : Nat) (x : Excess) (first : Bool) : Nat → Excess
  | 0 => x
  | n + 1 =>
    let b := bit j
    let e := x.exc + (if b then 1 else -1)
    countBits bit (j + 1)
      { pop := x.pop + (if b then 1 else 0), exc := e, lo := if first then e else min x.lo e,
        hi := if first then e else max x.hi e } false n

def countRange (bit : Nat → Bool) (j n : Nat) : Excess := countBits bit j ⟨0, 0, 0, 0⟩ true n

/-- Counted positions of a block. -/
def blockCount (len b : Nat) : Nat := min 1536 (len - 1536 * b)

/-- A block entry with STALE = 0 (R274). -/
def blockEntry (x : Excess) (brackets : Bool) : Nat :=
  if brackets then x.pop + 2 ^ 11 * codeOf 12 x.exc + 2 ^ 23 * codeOf 12 x.lo + 2 ^ 35 * codeOf 12 x.hi else x.pop

def State.blockWord (s : State) (g : Region) (b : Nat) : Nat := s.dirGet g (g.r.blockOff b) 8
def State.blockStale (s : State) (g : Region) (b : Nat) : Bool := (s.blockWord g b).testBit 47
def State.superStale (s : State) (g : Region) (k : Nat) : Bool := (s.dirGet g (g.r.superOff k) 8).testBit 63

/-- Blocks of a superblock. -/
def RegionRec.blocksOf (r : RegionRec) (k : Nat) : List Nat := (List.range 64).map (64 * k + ·) |>.filter (· < r.nb)

/-- Ones of a superblock whose blocks are clean. -/
def State.superOnes (s : State) (g : Region) (k : Nat) : Nat :=
  (g.r.blocksOf k).foldl (fun n b => n + s.blockWord g b % 2 ^ 11) 0

/-- Smallest and largest excess of each counted block of a superblock, from the superblock's start, by the block's
index in it. -/
def State.superSpans (s : State) (g : Region) (k len : Nat) : Int × List (Nat × Int × Int) :=
  (g.r.blocksOf k).foldl (fun (e, xs) b =>
    let w := s.blockWord g b
    if blockCount len b = 0 then (e, xs)
    else (e + signedOf 12 (bitsOf w 22 11),
      xs ++ [(b % 64, e + signedOf 12 (bitsOf w 34 23), e + signedOf 12 (bitsOf w 46 35))])) (0, [])

/-- The 40 bits of a node: over blocks lo to lo + n - 1 of the superblock (R275). -/
def nodeOf (xs : List (Nat × Int × Int)) (lo n : Nat) : Nat :=
  match xs.filter fun (i, _, _) => lo ≤ i && i < lo + n with
  | [] => 0
  | (_, a, z) :: rest =>
    let a := rest.foldl (fun m (_, x, _) => min m x) a
    let z := rest.foldl (fun m (_, _, x) => max m x) z
    codeOf 20 a + 2 ^ 20 * codeOf 20 z

/-- Recomputes SEXC and the nodes of a superblock whose blocks are clean, and clears its STALE and its reserved bytes (R275,
R282). -/
def State.cleanSuper (s : State) (g : Region) (k : Nat) : State :=
  if (g.r.blocksOf k).any (s.blockStale g) then s
  else
    let len := s.dirGet g oLEN 4
    let (e, xs) := if g.r.rkind = 1 then s.superSpans g k len else (0, [])
    let off := g.r.superOff k
    let s := ((s.dirPut g (off + 8) 4 (codeOf 32 e)).dirPut g (off + 0x0C) 4 0).dirPut g (off + 0x14B) 0x35 0
    let s := (List.range 63).foldl (fun s i =>
      let m := i + 1
      let w := 64 / 2 ^ m.log2
      s.dirPut g (off + 0x10 + 5 * i) 5 (nodeOf xs ((m - 2 ^ m.log2) * w) w)) s
    s.dirPut g off 8 (s.dirGet g off 8 % 2 ^ 40)

/-- Writes ONES, EXC and MINE (R276). -/
def State.putTotals (s : State) (g : Region) : State :=
  let len := s.dirGet g oLEN 4
  let x := countRange (s.strBit g) 0 len
  let s := s.dirPut g oONES 8 x.pop
  (s.dirPut g oEXC 4 (codeOf 32 x.exc)).dirPut g oMINE 4 (codeOf 32 x.lo)

/-- Sets CUM of superblock `k` from the one before it (R282), which is clean. [log 123] -/
def State.putCum (s : State) (g : Region) (k : Nat) : State :=
  let off := g.r.superOff k
  let cum := if k = 0 then 0 else s.dirGet g (g.r.superOff (k - 1)) 8 % 2 ^ 40 + s.superOnes g (k - 1)
  s.dirPut g off 8 (cum % 2 ^ 40 + 2 ^ 63 * (s.dirGet g off 8 / 2 ^ 63))

/-- Raises SWM from k to k + 1 once superblock k is clean, setting CUM(k + 1) (R282); as CUM(k) too may be wrong at SWM = k
(R276), it is set first, when superblock k - 1 is clean. At the last, the totals are written. [log 123] -/
def State.raiseSwm (s : State) (g : Region) : Nat → State
  | 0 => s
  | n + 1 =>
    let k := s.dirGet g oSWM 4
    if k ≥ g.r.ns then s.putTotals g
    else if s.superStale g k || (k > 0 && s.superStale g (k - 1)) then s
    else
      let s := s.putCum g k
      let s := if k + 1 < g.r.ns then s.putCum g (k + 1) else s
      (s.dirPut g oSWM 4 (k + 1)).raiseSwm g n

/-- Repairs a block entry from the line that was read for it (R282). -/
def State.repairBlock (s : State) (g : Region) (b : Nat) (line : List Byte) : State :=
  let x := countRange (bitOfBytes line) 0 (blockCount (s.dirGet g oLEN 4) b)
  let s := s.dirPut g (g.r.blockOff b) 8 (blockEntry x (g.r.rkind == 1))
  (s.cleanSuper g (b / 64)).raiseSwm g (g.r.ns + 1)

/-- Repairs the stale blocks up to block `last` (R283). [log 61] -/
def State.repairInline (s : State) (g : Region) (last : Nat) : State :=
  (List.range (last + 1)).foldl (fun s b =>
    if b < g.r.nb && s.blockStale g b then s.repairBlock g b (s.strLine g b) else s) s

/-- BACKGROUND_REPAIR (R282, R283): reads the line of a stale block of the die's `region`-th region, or finishes the
repair whose line was read and not written since. -/
def execBackgroundRepair (die region block : Nat) (s : State) : Host.Outcome State Fault Refusal :=
  match (s.die die).regions[region]? with
  | none => .next s
  | some g =>
    if g.edit.isSome || s.regionState g != 1 || block ≥ g.r.nb then .next s
    else
      match g.repairing with
      | some (b, line) =>
        if b = block && !s.stringHeld g then
          .next ((s.repairBlock g b line).updRegion die g.root g.ra fun g => { g with repairing := none })
        else .next s
      | none =>
        if s.blockStale g block && !s.stringHeld g then
          .next (s.updRegion die g.root g.ra fun g => { g with repairing := some (block, s.strLine g block) })
        else .next s

end Sys2Proof.Machine
end

