-- ==== Sys2Proof/Machine/Copy.lean ====
section
/-!
DEFINITION. The copy engine (06 R186-R188; 19 R348, R349 for what a remote copy sends).
-/
namespace Sys2Proof.Machine

/-! ## Issue -/

def cpyStg (f : Fields) : Bool := Fields.x f 6 6 == 1
def cpyRs (f : Fields) : Bool := Fields.x f 5 5 == 1
def cpyRd (f : Fields) : Bool := Fields.x f 4 4 == 1
def cpySs (f : Fields) : Nat := Fields.x f 3 2
def cpyDs (f : Fields) : Nat := Fields.x f 1 0

/-- The form of CPY (R186). [log 14] -/
def cpyShape (f : Fields) : Shape :=
  let ss := cpySs f
  let ds := cpyDs f
  { dst := .scalarPair, long := true, a := if ds == 0 then .w64 else .w32, b := if ss == 0 then .w64 else .w32,
    c := .w32, ownXs := cpyRs f || cpyRd f, ownImm := true, immMask := 0x7F,
    badModifier := decide (ss > 1) || decide (ds > 1) || (cpyStg f && ds == 0) || (cpyRs f && cpyRd f)
      || (cpyRs f && ss == 1) || (cpyRd f && ds == 1) }

/-- The address to which an atomic request is written (R349). -/
def atomicRequestVa : Nat := 2 ^ 56 - 32

/-- The first byte of a scratchpad range outside the company's size (R187). -/
def rangeOutside (size off n : Nat) : Option Nat := if n > 0 && off + n > size then some (max off size) else none

/-- The scratchpad lines of a range. -/
def linesOf (off n : Nat) : List Nat :=
  if n = 0 then [] else (List.range ((off + n - 1) / 192 + 1 - off / 192)).map (off / 192 + ·)

/-- CPY (R186, R187, R349). [log 14, 15] -/
def execCpy (f : Fields) (s : State) : Host.Outcome State Fault Refusal :=
  let remoteBit := cpyRs f || cpyRd f
  issue true (cpyShape f) f s fun t =>
    let dsp := cpyDs f == 1
    let ssp := cpySs f == 1
    let dst := if dsp then (t.ua f).toNat else (t.ua64 f).toNat % 2 ^ 56
    let src := if ssp then (t.ub f).toNat else (t.ub64 f).toNat % 2 ^ 56
    let n := (t.uc f).toNat
    let dev := (t.sreg (Fields.xs f)).toNat
    let size := match s.company? t.cid with
      | some c => c.size
      | none => 0
    let remote : Option (Bool × Nat) :=
      if remoteBit && dev != (s.fabric.fxdevid &&& 0x3FFFF).toNat then some (cpyRd f, dev) else none
    let toTop := match remote with
      | some (true, _) => n > 0 && dst + n > atomicRequestVa
      | _ => false
    let request := toTop && dst == atomicRequestVa && n == 32
    if remoteBit && dev ≥ 2 ^ 18 then Out.code s cIllegalOperand
    else if toTop && !request then Out.code s cIllegalOperand
    else
      match (if dsp then rangeOutside size dst n else none), (if ssp then rangeOutside size src n else none) with
      | some o, _ => Out.code s cSpadRange (BitVec.ofNat 64 o)
      | none, some o => Out.code s cSpadRange (BitVec.ofNat 64 o)
      | none, none =>
        engineIssue f s t (fun s =>
          let kind : EngKind := .cpy dsp ssp (cpyStg f) dst src n remote request
          s.giveOp t.cid 0 t.uid kind (if n = 0 then [] else [(0, n)]) (if cpyStg f then linesOf dst n else []))
          fun t => t

/-! ## Transfers -/

/-- What moving one byte came to. -/
inductive Moved where
  | ok (s : State)
  | park (s : State) (token : Nat)
  | fail (s : State)
  | busy (s : State)
  deriving DecidableEq, Repr

/-- A source byte, with whether it was poisoned; or what stops the read. -/
inductive SrcByte where
  | got (s : State) (b : Byte) (bad : Bool)
  | stop (m : Moved)
  deriving DecidableEq, Repr

/-- Reads a byte of a source: scratchpad or global memory. The operand fetcher waits on an empty line (R146), but
for one that was full until a later operation was given out: it may have read that line before (R210). [log 47] -/
def State.srcByte (s : State) (x : EngCtx) (sp : Bool) (a : Nat) : SrcByte :=
  if sp then
    match s.company? x.cid with
    | some c =>
      if x.fetcher && c.emptyLines.contains (a / 192) && !x.early.contains (a / 192) then .stop (.busy s) else
      let bad := c.spadPoison.contains a
      .got s (if bad then 0 else cellGet c.spad a) bad
    | none => .got s 0 false
  else
    match s.engPlace x (a % 2 ^ 56) 1 .r with
    | .ok s l =>
      let (s, bs, bad) := s.engRead l 1
      .got s (bs.headD 0) bad
    | .park s token => .stop (.park s token)
    | .denied => .stop (.fail s)
    | .busy => .stop (.busy s)

/-- Reads `n` source bytes from `a` up, each with whether it was poisoned. -/
def State.srcMarked (s : State) (x : EngCtx) (sp : Bool) (a : Nat) (got : List (Byte × Bool)) :
    Nat → Except Moved (State × List (Byte × Bool))
  | 0 => .ok (s, got)
  | n + 1 =>
    match s.srcByte x sp a with
    | .got s b bad => s.srcMarked x sp (a + 1) (got ++ [(b, bad)]) n
    | .stop m => .error m

/-- Reads `n` source bytes from `a` up, and whether any was poisoned. -/
def State.srcBytes (s : State) (x : EngCtx) (sp : Bool) (a n : Nat) : Except Moved (State × List Byte × Bool) :=
  match s.srcMarked x sp a [] n with
  | .ok (s, bs) => .ok (s, bs.map (·.1), bs.any (·.2))
  | .error m => .error m

/-- Marks a scratchpad line of a company as poisoned, and counts it where it was not (R187). [log 26] -/
def State.poisonSpad (s : State) (x : EngCtx) (line : Nat) : State :=
  let fresh := (s.company? x.cid).any fun c => !c.isPoisoned (192 * line) 192
  let s := s.updCompany x.cid fun c => c.poisonLine line
  if fresh then s.updDie (dieOf x.home) fun d => { d with errpois := stick d.errpois 1 } else s

/-- Writes a byte to a destination; a poisoned byte marks its line, and the mark stays for the operation (R187). -/
def State.dstByte (s : State) (x : EngCtx) (id : Nat) (sp : Bool) (a : Nat) (b : Byte) (bad : Bool) : Moved :=
  let mark (s : State) (key : Nat) : State × Bool :=
    match s.engOp? x.cid id with
    | some o =>
      if o.badLines.contains key then (s, true)
      else if bad then (s.setOp x.cid { o with badLines := key :: o.badLines }, true)
      else (s, false)
    | none => (s, bad)
  if sp then
    let (s, marked) := mark s (a / 192)
    let s := s.updCompany x.cid fun c => c.write a [b]
    .ok (if marked then s.poisonSpad x (a / 192) else s)
  else
    match s.engPlace x (a % 2 ^ 56) 1 .w with
    | .ok s l =>
      let (s, marked) := mark s l.line
      let s := s.engWrite x.core l [b] x.uid
      .ok (if marked then s.poisonLine l else s)
    | .park s token => .park s token
    | .denied => .fail s
    | .busy => .busy s

/-- Does `n` items from `j` up: how many were done, and what stopped the rest. -/
def moveLoop (step : State → Nat → Moved) (s : State) (j done : Nat) : Nat → Nat × Moved
  | 0 => (done, .ok s)
  | n + 1 =>
    match step s j with
    | .ok s => moveLoop step s (j + 1) (done + 1) n
    | r => (done, r)

/-- Puts back an operation after part of a range was moved: the range left, a park, a failure, or completion. -/
def afterMove (cid id : Nat) (start : Nat) (r : Nat × Moved) : State :=
  let put (s : State) (g : EngOp → EngOp) : State :=
    match s.engOp? cid id with
    | some o =>
      let o := { o with todo := (takeRange o.todo start r.1).2, parked := none }
      s.setOp cid (g o)
    | none => s
  let ends (o : EngOp) : EngOp := if o.todo.isEmpty && o.sent.isEmpty then o.finish false else o
  match r.2 with
  | .ok s => put s ends
  | .busy s => put s fun o => o
  | .park s token => put s fun o => { o with parked := some token }
  | .fail s => put s fun o => o.finish true

/-- Sets full each scratchpad line of a staging copy whose last byte has arrived in this part (R146, R187); `left` are the
ranges that have not arrived. -/
def State.stagingFull (s : State) (cid dst start len : Nat) (left : List (Nat × Nat)) : State :=
  (linesOf (dst + start) len).foldl (fun s l =>
    let lo := 192 * l - dst
    let n := 192 * l + 192 - dst - lo
    if rangesMeet left lo n then s else s.fillLine cid l) s

/-- The fields of the 32 bytes of an atomic request (R349). -/
def parseRequest (data : List Byte) : AtomicRequest :=
  let v (lo : Nat) : Nat := leNat ((data.drop lo).take 8)
  { tva := BitVec.ofNat 56 (v 0), opnd := BitVec.ofNat 64 (v 8), cmpd := BitVec.ofNat 64 (v 16),
    rva := BitVec.ofNat 56 (v 24), opc := BitVec.ofNat 4 (v 24 / 2 ^ 60),
    reserved := BitVec.ofNat 12 (v 0 / 2 ^ 56 + 256 * (v 24 / 2 ^ 56 % 16)) }

/-- What a remote copy asks of or sends to the other device for one part (R348); an atomic request goes whole, once
(R349). -/
def State.sendPart (s : State) (x : EngCtx) (o : EngOp) (ssp : Bool) (dst src dev : Nat) (toRemote request : Bool)
    (start len : Nat) : State :=
  let start := if request then 0 else start
  let (k, left) := takeRange o.todo start (if request then 32 else len)
  let sentNow (s : State) (out : FabricOut) : State :=
    (s.sendOut out).setOp x.cid { o with todo := left, sent := (start, k) :: o.sent, parked := none }
  if k = 0 then s
  else if !toRemote then sentNow s (.readRequest dev x.cid o.id start ((src + start) % 2 ^ 56) k)
  else
    match s.srcMarked x ssp (src + start) [] k with
    | .ok (s, bs) =>
      let data := bs.map (·.1)
      if request then sentNow s (.atomic dev x.cid o.id (parseRequest data))
      else sentNow s (.write dev x.cid o.id start ((dst + start) % 2 ^ 56) data (bs.map (·.2)))
    | .error r => afterMove x.cid o.id start (0, r)

/-- COPY_TRANSFER (R187, R348): copies, sends or asks for the part of an operation's bytes that starts at `start`. -/
def execCopyTransfer (cid id start len : Nat) (s : State) : Host.Outcome State Fault Refusal :=
  match s.engOp? cid id with
  | none => .next s
  | some o =>
    match o.kind, s.engCtx? cid o with
    | .cpy dsp ssp stg dst src count remote request, some x =>
      if o.done || EngOp.waiting s o || (o.kind.usesStore && x.core.isNone) then .next s
      else if count = 0 then .next (s.setOp cid (o.finish false))
      else
        match remote with
        | some (toRemote, dev) => .next (s.sendPart x o ssp dst src dev toRemote request start len)
        | none =>
          let k := (takeRange o.todo start len).1
          if k = 0 then .next s
          else
            let step (s : State) (j : Nat) : Moved :=
              match s.srcByte x ssp (src + j) with
              | .got s b bad => s.dstByte x id dsp (dst + j) b bad
              | .stop m => m
            let r := moveLoop step s start 0 k
            let s := afterMove cid id start r
            .next (if stg then s.stagingFull cid dst start r.1 ((takeRange o.todo start r.1).2 ++ o.sent) else s)
    | _, _ => .next s

end Sys2Proof.Machine
end

