-- ==== Sys2Proof/Machine/Transform.lean ====
section
/-!
DEFINITION. The transform pipe (06 R189, R190), and the reading and writing of elements through layout records that it
shares with the operand fetcher and the drain (07 R198, R199, R205).
-/
namespace Sys2Proof.Machine

/-! ## Elements through a record -/

/-- What an element access answers, or what stops it. -/
abbrev EngResult (α : Type) := Except Moved (State × α)

/-- The operand fetcher's tile cache keeps a tile as the most recently used one of its 16 (R205). [log 50] -/
def State.keepTile (s : State) (x : EngCtx) (r : Layout) (n va : Nat) : State :=
  if !x.fetcher then s
  else
    let y : TileEntry := { lid := x.lid, handle := r.handle, index := n, va := va }
    s.updCore x.home fun c =>
      { c with tileCache := (y :: c.tileCache.filter fun z => !(z.lid == y.lid && z.handle == y.handle && z.index == n)).take
                              Config.tileCacheSize }

/-- The data address of the earlier tile `k` that a REF entry names (R205): as the tile cache has it, or through its own
entry. [log 50] -/
def State.tileNamed (s : State) (x : EngCtx) (r : Layout) (k : Nat) : EngResult Nat :=
  let held := if x.fetcher then
      (s.core x.home).tileCache.find? fun z => z.lid == x.lid && z.handle == r.handle && z.index == k
    else none
  match held with
  | some z => .ok (s.keepTile x r k z.va, z.va)
  | none =>
    match s.srcBytes x false (r.cbase + 8 * k) 8 with
    | .error m => .error m
    | .ok (s, bs, _) =>
      let e := leNat bs
      if bitsOf e 62 56 != 0 || e / 2 ^ 63 != 0 then .error (.fail s) else .ok (s.keepTile x r k (e % 2 ^ 56), e % 2 ^ 56)

/-- A tile index entry (R205): the address of tile `n`'s data; a bad entry fails the operation. [log 50, 138] -/
def State.tileData (s : State) (x : EngCtx) (r : Layout) (n : Nat) : EngResult Nat :=
  match s.srcBytes x false (r.cbase + 8 * n) 8 with
  | .error m => .error m
  | .ok (s, bs, _) =>
    let e := leNat bs
    if bitsOf e 62 56 != 0 then .error (.fail s)
    else if e / 2 ^ 63 = 0 then .ok (s.keepTile x r n (e % 2 ^ 56), e % 2 ^ 56)
    else
      let k := e % 2 ^ 32
      if bitsOf e 55 32 != 0 || k ≥ n then .error (.fail s) else s.tileNamed x r k

/-- Where the bytes of element (q, k) stand. [log 132] -/
def State.elemPlace (s : State) (x : EngCtx) (r : Layout) (q k : Nat) : EngResult Nat :=
  if r.cs then
    let m := (r.ext.getD 0 1 + 127) / 128
    match s.tileData x r (q / 128 * m + k / 128) with
    | .error e => .error e
    | .ok (s, a) => .ok (s, (a + q % 128 * packedBytes r.efmt 128 + elemOff r.efmt (k % 128)) % 2 ^ 56)
  else .ok (s, r.elemVa q k)

/-- The code of element (q, k), with whether its bytes were poisoned; an element outside the tensor reads as +0 (R198). -/
def State.readElem (s : State) (x : EngCtx) (r : Layout) (q k : Nat) : EngResult (Nat × Bool) :=
  if !r.inside q k then .ok (s, 0, false)
  else
    match s.elemPlace x r q k with
    | .error e => .error e
    | .ok (s, a) =>
      match s.srcBytes x false a (elemBytes r.efmt) with
      | .error e => .error e
      | .ok (s, bs, bad) => .ok (s, elemCode r.efmt k bs, bad)

/-- The scale of element (q, k) as its code: FP32 for sform 1 and 2, E8M0 for sform 3; 1.0 outside the tensor (R198). -/
def State.readScale (s : State) (x : EngCtx) (r : Layout) (q k : Nat) : EngResult (Nat × Bool) :=
  if r.sform = 0 then .ok (s, 0, false)
  else if !r.inside q k then .ok (s, if r.sform = 3 then 0x7F else 0x3F800000, false)
  else
    match s.srcBytes x false (r.scaleVa q k) (if r.sform = 3 then 1 else 4) with
    | .error e => .error e
    | .ok (s, bs, bad) => .ok (s, leNat bs, bad)

/-- Writes bytes one after the other to global memory. -/
def State.dstBytes (s : State) (x : EngCtx) (id : Nat) (sp : Bool) (a : Nat) (bad : Bool) : List Byte → Moved
  | [] => .ok s
  | b :: rest =>
    match s.dstByte x id sp a b bad with
    | .ok s => s.dstBytes x id sp (a + 1) bad rest
    | m => m

/-- Writes an element's code to global memory; E2M1 replaces its nibble. -/
def State.writeElem (s : State) (x : EngCtx) (id : Nat) (efmt a k code : Nat) (bad : Bool) : Moved :=
  if efmt = cE2M1 then
    match s.engPlace x (a % 2 ^ 56) 1 .w with
    | .ok s l =>
      let (s, bs, _) := s.engRead l 1
      let old := (bs.headD 0).toNat
      let sh := 16 ^ (k % 2)
      s.dstByte x id false a (BitVec.ofNat 8 (old - old / sh % 16 * sh + code % 16 * sh)) bad
    | .park s token => .park s token
    | .denied => .fail s
    | .busy => .busy s
  else s.dstBytes x id false a bad (leBytes (elemBytes efmt) code)

/-! ## CPYL -/

/-- Whether a record's elements are MX elements with E8M0 scales. -/
def Layout.isMx (r : Layout) : Bool := 3 ≤ r.efmt && r.efmt ≤ 8 && r.sform == 3

/-- Formats CPYL takes (R189). [log 137] -/
def Layout.cpylOk (r : Layout) : Bool :=
  r.efmt == cFP32 || r.efmt == cBF16 || r.efmt == cFP16 || r.efmt == cE4M3 || r.efmt == cE5M2 || r.efmt == cINT8
    || r.efmt == cINT32 || r.isMx

/-- Extents with dimensions 0 and 1 swapped. -/
def swapExt (ext : List Nat) : List Nat :=
  match ext with
  | a :: b :: rest => b :: a :: rest
  | e => e

/-- Step 3 of R189. -/
def cpylShapesOk (src dst : Layout) (transpose : Bool) : Bool :=
  dst.ext == (if transpose then swapExt src.ext else src.ext) && src.cpylOk && dst.cpylOk
    && !(dst.isMx && dst.ext.getD 0 1 % 32 != 0)

/-- CPYL (R189, R190). [log 15] -/
def execCpyl (f : Fields) (s : State) : Host.Outcome State Fault Refusal :=
  let tr := Fields.x f 1 0
  let rm := Fields.x f 4 2
  issue true { dst := .scalarPair, long := true, a := .w32, b := .w32, ownImm := true, immMask := 0x3F,
               badModifier := decide (tr > 1) || decide (rm > 4) } f s fun t =>
    let ha := (t.ua f).toNat
    let hb := (t.ub f).toNat
    if ha ≥ 2 ^ 20 || hb ≥ 2 ^ 20 then Out.code s cIllegalOperand
    else
      match s.records t [] [ha, hb] with
      | .wait s p => .stay s t p
      | .trap c a => Out.code s c (BitVec.ofNat 64 a)
      | .got s rs =>
        match s.firstUnsealed rs with
        | some va => Out.code s cSealReject (BitVec.ofNat 64 va)
        | none =>
          match rs.zip [ha, hb] |>.map (fun ((_, bs), h) => parseLayout h bs) with
          | [some src, some dst] =>
            if !cpylShapesOk src dst (tr == 1) then Out.code s cIllegalOperand
            else
              let total := dst.ext.foldl (· * ·) 1
              engineIssue f s t
                (fun s => s.giveOp t.cid 0 t.uid
                  (.cpyl src dst (tr == 1) rm (Fields.x f 5 5 == 1) t.srseed t.srctr) [(0, total)] [])
                fun t => if rm = 4 then { t with srctr := t.srctr + 1 } else t
          | _ => Out.code s cIllegalOperand

/-- The row of a record that has these indices above dimension 0. -/
def rowOfIndices (exts idx : List Nat) : Nat :=
  match exts, idx with
  | e :: es, i :: is => i + e * rowOfIndices es is
  | _, _ => 0

/-- The source element of destination element (q, k), as (row, column). -/
def cpylSource (src dst : Layout) (transpose : Bool) (q k : Nat) : Nat × Nat :=
  if !transpose then (q, k)
  else
    let idx := rowIndices (dst.ext.drop 1) q
    (rowOfIndices (src.ext.drop 1) (k :: idx.drop 1), idx.headD 0)

/-- The exact value of a source element, its flags, and whether it was poisoned (R190, R23). -/
def State.cpylValue (s : State) (x : EngCtx) (src : Layout) (q k : Nat) : EngResult (Val × Flags × Bool) :=
  match s.readElem x src q k with
  | .error e => .error e
  | .ok (s, code, bad) =>
    if src.isMx then
      match s.readScale x src q k with
      | .error e => .error e
      | .ok (s, sc, bad') =>
        let r := rne32 (mxDecode src.efmt sc code)
        .ok (s, fp32.decode r.code, r.flags, bad || bad')
    else .ok (s, decodeElem src.efmt code, 0, bad)

/-- ORs flags into an operation. -/
def State.opFlags (s : State) (cid id : Nat) (fl : Flags) : State :=
  match s.engOp? cid id with
  | some o => s.setOp cid { o with flags := o.flags ||| fl }
  | none => s

/-- Converts destination element `j` of a destination that is not MX. [log 130] -/
def State.cpylOne (s : State) (x : EngCtx) (id : Nat) (src dst : Layout) (tr : Bool) (rm : Nat) (sat : Bool)
    (seed ctr : DWord) (j : Nat) : Moved :=
  let e0 := dst.ext.getD 0 1
  let q := j / e0
  let k := j % e0
  let (q', k') := cpylSource src dst tr q k
  match s.cpylValue x src q' k' with
  | .error m => m
  | .ok (s, v, fl, bad) =>
    let r := roundTo dst.efmt (Mode.ofCode rm) (srr seed ctr (BitVec.ofNat 64 j) 0) sat (isIntCode src.efmt) v
    match s.writeElem x id dst.efmt (dst.elemVa q k) k r.code bad with
    | .ok s => .ok (s.opFlags x.cid id (fl ||| r.flags))
    | m => m

/-- The values of a block of 32 destination elements. -/
def State.cpylValues (s : State) (x : EngCtx) (src dst : Layout) (tr : Bool) (j : Nat) (vs : List Val) (fl : Flags)
    (bad : Bool) : Nat → EngResult (List Val × Flags × Bool)
  | 0 => .ok (s, vs, fl, bad)
  | n + 1 =>
    let e0 := dst.ext.getD 0 1
    let (q', k') := cpylSource src dst tr (j / e0) (j % e0)
    match s.cpylValue x src q' k' with
    | .error m => .error m
    | .ok (s, v, fl', bad') => s.cpylValues x src dst tr (j + 1) (vs ++ [v]) (fl ||| fl') (bad || bad') n

/-- Writes the codes of a block. -/
def State.cpylCodes (s : State) (x : EngCtx) (id : Nat) (dst : Layout) (q k : Nat) (bad : Bool) : List Nat → Moved
  | [] => .ok s
  | c :: rest =>
    match s.writeElem x id dst.efmt (dst.elemVa q k) k c bad with
    | .ok s => s.cpylCodes x id dst q (k + 1) bad rest
    | m => m

/-- Converts one block of 32 elements of an MX destination (R22). [log 130] -/
def State.cpylBlock (s : State) (x : EngCtx) (id : Nat) (src dst : Layout) (tr : Bool) (rm : Nat) (seed ctr : DWord)
    (b : Nat) : Moved :=
  let j := 32 * b
  let e0 := dst.ext.getD 0 1
  match s.cpylValues x src dst tr j [] 0 false 32 with
  | .error m => m
  | .ok (s, vs, fl, bad) =>
    let (sc, codes, fl') := mxBlock dst.efmt (Mode.ofCode rm) (fun i => srr seed ctr (BitVec.ofNat 64 (j + i)) 0) vs
    match s.cpylCodes x id dst (j / e0) (j % e0) bad codes with
    | .ok s =>
      match s.dstBytes x id false (dst.scaleVa (j / e0) (j % e0)) bad [BitVec.ofNat 8 sc] with
      | .ok s => .ok (s.opFlags x.cid id (fl ||| fl'))
      | m => m
    | m => m

/-- TRANSFORM_TRANSFER (R190): converts the part of a CPYL's destination elements that starts at `start`; an MX
destination goes by blocks of 32. -/
def execTransformTransfer (cid id start len : Nat) (s : State) : Host.Outcome State Fault Refusal :=
  match s.engOp? cid id with
  | none => .next s
  | some o =>
    match o.kind, s.engCtx? cid o with
    | .cpyl src dst tr rm sat seed ctr, some x =>
      if o.done || EngOp.waiting s o then .next s
      else if dst.isMx then
        let b := start / 32
        let k := (takeRange o.todo (32 * b) (32 * ((len + 31) / 32))).1 / 32
        let r := moveLoop (fun s j => s.cpylBlock x id src dst tr rm seed ctr j) s b 0 k
        .next (afterMove cid id (32 * b) (32 * r.1, r.2))
      else
        let k := (takeRange o.todo start len).1
        let r := moveLoop (fun s j => s.cpylOne x id src dst tr rm sat seed ctr j) s start 0 k
        .next (afterMove cid id start r)
    | _, _ => .next s

end Sys2Proof.Machine
end

