-- ==== Sys2Proof/Machine/Bank.lean ====
section
/-!
DEFINITION. Compute in the banks (15 R304-R315): grants, microprogram entries, BKLOAD, BKCMD, a command's run on a
pseudo-channel, the watchdog.
-/
namespace Sys2Proof.Machine

/-! ## Sequencers -/

/-- A pseudo-channel's sequencer as the start leaves it (R305). [log 5] -/
def newSequencer (die stack pc : Nat) : Sequencer :=
  { die := die, stack := stack, pc := pc, store := List.replicate 256 0, queue := [], run := none, clock := 0 }

def Sequencer.is (q : Sequencer) (die stack pc : Nat) : Bool := q.die == die && q.stack == stack && q.pc == pc

def State.sequencer (s : State) (die stack pc : Nat) : Sequencer :=
  (s.sequencers.find? (·.is die stack pc)).getD (newSequencer die stack pc)

/-- Puts a sequencer; one that holds only halts and no work is not listed. -/
def State.putSequencer (s : State) (q : Sequencer) : State :=
  let rest := s.sequencers.filter fun x => !x.is q.die q.stack q.pc
  { s with sequencers := if q == newSequencer q.die q.stack q.pc then rest else rest ++ [q] }

/-- Puts an operation at the end of the queue of every named sequencer; the watchdog counts for one that is idle. -/
def State.enqueueBank (s : State) (die stack : Nat) (pcs : List Nat) (o : Nat × Nat) : State :=
  pcs.foldl (fun s pc =>
    let q := s.sequencer die stack pc
    s.putSequencer { q with queue := q.queue ++ [o], clock := if q.queue.isEmpty then s.clock.toNat else q.clock }) s

/-- Operations that `gone` names leave a queue: where the first of it goes, so does its run, and the watchdog counts anew for the
next (R314). -/
def Sequencer.without (q : Sequencer) (now : Nat) (gone : Nat × Nat → Bool) : Sequencer :=
  let left := q.queue.filter fun o => !gone o
  if q.queue.head?.any gone then { q with queue := left, run := none, clock := if left.isEmpty then 0 else now }
  else { q with queue := left }

/-- Takes an operation off a sequencer's queue. -/
def State.dequeueBank (s : State) (die stack pc : Nat) (o : Nat × Nat) : State :=
  s.putSequencer ((s.sequencer die stack pc).without s.clock.toNat (· == o))

/-- The pseudo-channels of a mask. -/
def channelsOf (m : DWord) : List Nat := (List.range 64).filter m.getLsbD

/-! ## Grants (R304) -/

/-- The row ranges that a queue may use on a pseudo-channel. -/
def State.grants (s : State) (queue die stack pc : Nat) : List (Nat × Nat) :=
  (s.die die).bkgrant.filterMap fun g =>
    let v := g.toNat
    if bitsOf v 63 63 = 1 && bitsOf v 62 57 = queue && bitsOf v 56 55 = stack && stack ≠ 3 && bitsOf v 54 49 ≤ pc
        && pc ≤ bitsOf v 48 43 then some (bitsOf v 42 24, bitsOf v 23 5)
    else none

/-- Whether rows lo to hi all lie in some range. -/
def rowsCovered (rs : List (Nat × Nat)) (lo hi : Nat) : Nat → Bool
  | 0 => decide (lo > hi)
  | n + 1 =>
    if lo > hi then true
    else match rs.find? fun (a, b) => a ≤ lo && lo ≤ b with
      | some (_, b) => rowsCovered rs (b + 1) hi n
      | none => false

/-! ## Entries (R305, R306) -/

/-- A move of an entry. -/
structure BankMove where
  dst : Nat
  src : Nat
  imm : Nat
  deriving DecidableEq, Repr

def bankMove (v : Nat) : BankMove := ⟨bitsOf v 15 12, bitsOf v 11 8, bitsOf v 7 0⟩

/-- Slots 0 and 1. -/
def bankSlots (e : Word) : List BankMove := [bankMove (e.toNat % 2 ^ 16), bankMove (e.toNat / 2 ^ 16)]

def BankMove.ok (m : BankMove) : Bool :=
  m.dst ≤ 0xB && m.src ≤ 7 && (m.src == 0 || m.imm == 0)
    && (if m.dst = 0 then m.src == 0 && m.imm == 0
        else if m.dst = 1 || m.dst = 7 then m.src == 0
        else if m.dst = 0xB then m.src == 0 && m.imm != 0
        else m.src != 0)

def bankEntryOk (e : Word) : Bool :=
  match bankSlots e with
  | [a, b] => a.ok && b.ok && !(a.dst == b.dst && a.dst != 0)
  | _ => false

/-! ## BKLOAD (R309) -/

/-- BKLOAD (R309). -/
def execBkload (f : Fields) (s : State) : Host.Outcome State Fault Refusal :=
  issue true { dst := .scalarPair, long := true, a := .w64, b := .w32, ownXs := true, zeroImm := true,
               badField := Fields.xs f % 2 != 0 } f s fun t =>
    let mask := t.ua64 f
    let w := (t.ub f).toNat
    let first := bitsOf w 7 0
    let count := bitsOf w 16 8
    let stack := bitsOf w 18 17
    let die := bitsOf w 20 19
    let va := (t.spair (Fields.xs f)).toNat % 2 ^ 56
    let pcs := channelsOf mask
    if w ≥ 2 ^ 21 || count = 0 || first + count > 256 || stack = 3 || pcs.isEmpty || !(s.stacksOf die).contains stack then
      Out.code s cIllegalOperand
    else if va % 4 != 0 then Out.code s cMisaligned (BitVec.ofNat 64 va)
    else if pcs.any fun pc => (s.grants (s.queueOf t.lid) die stack pc).isEmpty then Out.code s cPermission
    else
      engineIssue f s t (fun s =>
        let id := s.nextId
        let (n, s) := s.giveOp t.cid 5 t.uid (.bkload va mask first count stack die) [] []
        (n, s.enqueueBank die stack pcs (t.cid, id))) fun t => t

/-- Ends a bank operation on some pseudo-channels: it leaves their queues, and completes when none is left. -/
def State.endBank (s : State) (cid : Nat) (o : EngOp) (die stack : Nat) (pcs : List Nat) (failed : Bool) : State :=
  let s := pcs.foldl (fun s pc => s.dequeueBank die stack pc (cid, o.id)) s
  let left := o.todo.filter fun (pc, _) => !pcs.contains pc
  let o := { o with todo := left, failed := o.failed || failed }
  s.setOp cid (if left.isEmpty then o.finish false else o)

/-- BKLOAD_EXECUTE (R309): at the head of every named queue, the entries are read and checked, and written to every named
store. [log 65] -/
def execBkloadExecute (cid id : Nat) (s : State) : Host.Outcome State Fault Refusal :=
  match s.engOp? cid id with
  | none => .next s
  | some o =>
    match o.kind, s.engCtx? cid o with
    | .bkload va mask first count stack die, some x =>
      let pcs := channelsOf mask
      if o.done || EngOp.waiting s o || !(pcs.all fun pc => (s.sequencer die stack pc).queue.head? == some (cid, id)) then
        .next s
      else
        match s.srcBytes x false va (4 * count) with
        | .error (.park s token) => .next (s.setOp cid { o with parked := some token })
        | .error (.fail s) => .next (s.endBank cid o die stack pcs true)
        | .error (.busy s) => .next s
        | .error (.ok s) => .next s
        | .ok (s, bs, _) =>
          let es := (List.range count).map fun i => BitVec.ofNat 32 (leNat ((bs.drop (4 * i)).take 4))
          if !es.all bankEntryOk then .next (s.endBank cid o die stack pcs true)
          else
            let s := pcs.foldl (fun s pc =>
              let q := s.sequencer die stack pc
              s.putSequencer { q with store := listSet q.store first es }) s
            .next (s.endBank cid o die stack pcs false)
    | _, _ => .next s

/-! ## BKCMD (R310, R311) -/

def bkcmdF32 (f : Fields) : Bool := Fields.x f 1 1 == 1
def bkcmdDup (f : Fields) : Bool := Fields.x f 0 0 == 1

/-- BKCMD (R310, R311). -/
def execBkcmd (f : Fields) (s : State) : Host.Outcome State Fault Refusal :=
  issue true { dst := .scalarPair, long := true, ownXs := true, ownImm := true, immMask := 0x3,
               badField := Fields.xs f % 8 != 0 || decide (Fields.xs f > 56) } f s fun t =>
    let p (i : Nat) : Nat := (t.sreg (Fields.xs f + i)).toNat
    let pcm : DWord := BitVec.ofNat 64 (p 0 + 2 ^ 32 * p 1)
    let dup := bkcmdDup f
    let a : BankArgs :=
      { die := bitsOf (p 2) 22 21, stack := bitsOf (p 2) 20 19, pcm := pcm, fr := bitsOf (p 2) 18 0,
        entry := bitsOf (p 2) 30 23, nr := bitsOf (p 3) 19 0, offmax := bitsOf (p 3) 27 20,
        banks := BitVec.ofNat 16 (p 4), bv := p 6 + 2 ^ 32 * p 7, f32 := bkcmdF32 f, dup := dup }
    let last := a.fr + a.nr - 1 + a.offmax
    let pcs := channelsOf pcm
    if pcs.isEmpty || a.fr > 349525 || a.stack = 3 || p 2 ≥ 2 ^ 31 || a.nr = 0 || a.nr > 524288 || p 3 ≥ 2 ^ 28
        || a.banks = 0 || (dup && a.banks.toNat ≥ 32) || p 4 ≥ 2 ^ 16 || p 5 ≠ 0 || a.bv ≥ 2 ^ 56 || last > 349525
        || (last = 349525 && (banksOf a.banks dup).any (· > 4)) || !(s.stacksOf a.die).contains a.stack then
      Out.code s cIllegalOperand
    else if a.bv % 192 != 0 then Out.code s cMisaligned (BitVec.ofNat 64 a.bv)
    else if pcs.any fun pc => !rowsCovered (s.grants (s.queueOf t.lid) a.die a.stack pc) a.fr last 17 then
      Out.code s cPermission
    else
      engineIssue f s t (fun s =>
        let id := s.nextId
        let (n, s) := s.giveOp t.cid 2 t.uid (.bkcmd a) (pcs.map fun pc => (pc, 1)) []
        (n, s.enqueueBank a.die a.stack pcs (t.cid, id))) fun t => t

/-! ## Running a command (R305-R308, R312, R313) -/

/-- A pseudo-channel running a command, with the state it runs in. -/
structure BankRun where
  s : State
  units : List BankUnit
  cur : Nat
  upc : Nat
  flags : Flags
  written : List Nat
  deriving DecidableEq, Repr

def BankArgs.elems (a : BankArgs) : Nat := if a.f32 then 48 else 96
def BankArgs.fmt (a : BankArgs) : FloatFmt := if a.f32 then fp32 else bf16

/-- A line as element codes. -/
def BankArgs.unpack (a : BankArgs) (bs : List Byte) : List Nat :=
  let w := if a.f32 then 4 else 2
  (List.range a.elems).map fun i => leNat ((bs.drop (w * i)).take w)

def BankArgs.pack (a : BankArgs) (v : List Nat) : List Byte := v.flatMap fun c => leBytes (if a.f32 then 4 else 2) c

/-- A byte as DRAM itself holds it, under a dirty line of the memory-side cache (R299). -/
def State.dramByte (s : State) (a : Nat) : Byte :=
  match s.msc.find? (·.line == a / 192) with
  | some x => x.below.getD (a % 192) 0
  | none => cellGet s.mem a

/-- The line a bank reads: the stored sectors as they lie in DRAM, poisoned bytes as zeros. -/
def State.bankRead (s : State) (pa : Nat) : List Byte :=
  (List.range 192).map fun i => if s.poison.contains (pa + i) then 0 else s.dramByte (pa + i)

/-- The indices of the entries of a table of `w` index bits that are not zero. -/
def State.tableIndices (s : State) (table w : Nat) : List Nat :=
  let inside (a : Nat) : Bool := table ≤ a && a < table + 8 * 2 ^ w
  let lineBytes (line : Nat) : List Nat := (List.range 192).map (192 * line + ·)
  let listed := s.mem.map (·.1) ++ s.l2.flatMap (fun x => lineBytes x.line)
    ++ s.cores.flatMap fun c => (c.l1.filter (·.owned)).flatMap fun x => lineBytes x.line
  ((listed.filter inside).map fun a => (a - table) / 8).eraseDups

/-- The frames of the valid leaves with CMP = 1 below a table, with their page sizes (R246, R324). -/
def State.codedFrames (s : State) (table : Nat) : List (Nat × Nat × Option Nat) → List (Nat × Nat)
  | [] => []
  | (_, w, leaf) :: rest =>
    (s.tableIndices table w).flatMap fun i =>
      let e := BitVec.ofNat 64 (s.peekNat (table + 8 * i) 8)
      if !entryV e then []
      else if entryL e then
        match leaf with
        | some size => if entryCMP e && !s.needsRepair e size then [(entryFrame e, size)] else []
        | none => []
      else s.codedFrames (bitsOf e.toNat 51 8 * 256) rest

/-- The page tables in use: of the queues, of the launches and of the fabric. -/
def State.roots (s : State) : List Nat :=
  (s.rm.queues.map (·.qroot.toNat) ++ s.rm.launches.map (·.root) ++ [s.fabric.fxroot.toNat]).eraseDups

/-- The slots of compressed frames that some of 192 bytes lie in, by what the page tables map and by what has been coded: each
slot's address with that of its line's slot 0, and the page size (R324). -/
def State.codedSlots (s : State) (pa : Nat) : List (Nat × Nat × Nat) :=
  let frames := s.roots.flatMap fun root => s.codedFrames root walkLevels
  let mapped := (List.range 192).flatMap fun i => (frames.filter fun (f, size) => f ≤ pa + i && pa + i < f + 2 * size).map
    fun (f, size) =>
      let at_ := (pa + i - f) % size / 192 * 192
      (f + (pa + i - f) / size * size + at_, f + at_, size)
  let known := s.coded.flatMap fun c =>
    let size := max c.slot c.other - c.first
    ([c.slot, c.other].filter fun a => a < pa + 192 && pa < a + 192).map fun a => (a, c.first, size)
  (mapped ++ known).eraseDups

/-- A slot of a compressed frame now stands as DRAM has it, poisoned bytes too: four sectors of plain bytes, in that slot (R312).
[log 66] -/
def State.slotWritten (s : State) (slot first size : Nat) : State :=
  let (ma, sh) := s.metaAt first
  let old := (s.peek ma).toNat
  let nib := (if slot = first then 0 else 4) + 3
  let other := if slot = first then first + size else first
  let byte : List Byte := [BitVec.ofNat 8 (old - old / 2 ^ sh % 16 * 2 ^ sh + nib * 2 ^ sh)]
  let data := (List.range 192).map fun i => s.dramByte (slot + i)
  { (s.sidePut ma byte).dramPut ma byte with
    coded := { slot := slot, other := other, first := first, data := data } :: s.coded.filter (·.slot != slot)
    poison := (s.poison.filter fun b => b / 192 != compressedKey first)
      ++ ((List.range 192).filter fun i => s.poison.contains (slot + i)).map (192 * compressedKey first + ·) }

/-- A bank writes a line below every cache (R312): a registered directory takes no byte of it (R273), and what it covers of a
compressed frame stands in the slots written, with four sectors. [log 66] -/
def State.bankWrite (s : State) (die pa : Nat) (bs : List Byte) : State :=
  let kept (i : Nat) : Bool := s.directoryByte die (pa + i)
  let s := if (List.range 192).any kept then
      bs.zipIdx.foldl (fun s (b, i) => if kept i then s else s.dramPut (pa + i) [b])
        (s.updDie die fun d => { d with bkdirign := stick d.bkdirign 1 })
    else s.dramPut pa bs
  let s : State := { s with poison := s.poison.filter fun b => !(pa ≤ b && b < pa + 192) || kept (b - pa) }
  (s.codedSlots pa).foldl (fun s (slot, first, size) => s.slotWritten slot first size) s

/-- A row line of a bank is poisoned (R313), and counted where no byte of it was (R362); a registered directory takes none
(R273). -/
def State.bankPoison (s : State) (die pa : Nat) : State :=
  let bytes := (List.range 192).map (pa + ·)
  let fresh := !bytes.any s.poison.contains
  let s := if bytes.any (s.directoryByte die) then s.updDie die fun d => { d with bkdirign := stick d.bkdirign 1 } else s
  let s : State := { s with poison := s.poison ++ bytes.filter fun b => !s.poison.contains b && !s.directoryByte die b }
  let s := (s.codedSlots pa).foldl (fun s (slot, first, size) => s.slotWritten slot first size) s
  if fresh then s.updDie die fun d => { d with errpois := stick d.errpois 1 } else s

/-- A source's vector. -/
def BankUnit.source (u : BankUnit) (zero bcast : List Nat) (src : Nat) : List Nat :=
  match src with
  | 1 => u.row
  | 2 => bcast
  | 3 => u.mul
  | 4 => u.add
  | 5 => u.acc
  | 6 => u.cmp
  | _ => zero

def zipFlags (op : Nat → Nat → Rounded) (xs ys : List Nat) : List Nat × Flags :=
  let rs := (xs.zip ys).map fun (x, y) => op x y
  (rs.map (·.code), allFlags rs)

/-- Votes on the values of a bank and its replicas (R313): the value, and whether the third copy settled it; none when
there is no majority. -/
def majority (vs : List (List Nat)) : Option (List Nat × Bool) :=
  match vs with
  | [x] => some (x, false)
  | [x, y, z] => if x == y then some (x, false) else if z == x || z == y then some (z, true) else none
  | _ => none

/-- The units of a command in groups: one bank, or a bank and its replicas. -/
def BankArgs.groups (a : BankArgs) : List (List Nat) :=
  ((List.range 16).filter a.banks.getLsbD).map fun b => if a.dup then [b, b + 5, b + 10] else [b]

/-- The value that goes with a bank in a list. -/
def valueOf (vs : List (Nat × List Nat)) (b : Nat) : List Nat :=
  match vs.find? (·.1 == b) with
  | some (_, v) => v
  | none => []

/-- WBT of every group of banks (R305, R313). -/
def BankRun.writeBack (r : BankRun) (a : BankArgs) (pc cur : Nat) (vs : List (Nat × List Nat)) : BankRun :=
  (a.groups).foldl (fun r g =>
    let rows := g.map fun b => (r.units.find? (·.bank == b)).map fun u => u.wbr
    let pa (k : Nat) : Nat := r.s.rowAddr a.die a.stack pc (a.fr + cur + ((rows.getD k none).getD 0)) (g.getD k 0)
    let pas := (List.range g.length).map pa
    match majority (g.map (valueOf vs)) with
    | some (v, fixed) =>
      let s := pas.foldl (fun s p => s.bankWrite a.die p (a.pack v)) r.s
      { r with s := if fixed then s.updDie a.die fun d => { d with bkdupfix := stick d.bkdupfix 1 } else s,
               written := r.written ++ pas }
    | none =>
      let s := pas.foldl (fun s p => s.bankPoison a.die p) r.s
      { r with s := s.updDie a.die fun d => { d with bkdupfail := stick d.bkdupfail 1 }, written := r.written ++ pas }) r

/-- One move in every bank, with the values its source had before the entry. [log 64] -/
def BankRun.move (r : BankRun) (a : BankArgs) (pc cur : Nat) (m : BankMove) (vs : List (Nat × List Nat)) : BankRun :=
  let F := a.fmt
  let each (g : BankUnit → BankUnit) : BankRun := { r with units := r.units.map g }
  let trigger (g : BankUnit → List Nat × Flags) (put : BankUnit → List Nat → BankUnit) : BankRun :=
    let out := r.units.map fun u => (u, g u)
    { r with units := out.map fun (u, v, _) => put u v, flags := out.foldl (fun f (_, _, x) => f ||| x) r.flags }
  let v (u : BankUnit) : List Nat := valueOf vs u.bank
  match m.dst with
  | 0x1 => each fun u =>
      { u with row := a.unpack (r.s.bankRead (r.s.rowAddr a.die a.stack pc (a.fr + cur + m.imm) u.bank)) }
  | 0x2 => each fun u => { u with mula := v u }
  | 0x3 => trigger (fun u => zipFlags F.mul u.mula (v u)) fun u x => { u with mul := x }
  | 0x4 => each fun u => { u with adda := v u }
  | 0x5 => trigger (fun u => zipFlags F.add u.adda (v u)) fun u x => { u with add := x }
  | 0x6 => each fun u => { u with acc := v u }
  | 0x7 => each fun u => { u with wbr := m.imm }
  | 0x8 => r.writeBack a pc cur vs
  | 0x9 => each fun u => { u with cmpa := v u }
  | 0xA => trigger (fun u => zipFlags (F.minmax true) u.cmpa (v u)) fun u x => { u with cmp := x }
  | 0xB => { r with cur := cur + m.imm }
  | _ => r

/-- Votes on the three ACC values of each group (R313); no majority answers none. -/
def BankRun.voteAcc (r : BankRun) (a : BankArgs) : Option BankRun :=
  if !a.dup then some r
  else
    let accOf (b : Nat) : List Nat := match r.units.find? (·.bank == b) with
      | some u => u.acc
      | none => []
    let votes := a.groups.map fun g => (g, majority (g.map accOf))
    if votes.any fun (_, v) => v.isNone then none
    else some { r with units := r.units.map fun u =>
      match votes.find? fun (g, _) => g.contains u.bank with
      | some (_, some (v, _)) => { u with acc := v }
      | _ => u }

/-- How a command stands after an entry (R307): it goes on, ends, or fails. -/
inductive BankStep where
  | goes (r : BankRun)
  | ended (r : BankRun) (failed : Bool)
  deriving DecidableEq, Repr

/-- R307: performs the entry at the microprogram counter. [log 66] -/
def BankRun.entry (r : BankRun) (a : BankArgs) (pc : Nat) (store : List Word) (bcast : List Nat) : BankStep :=
  let e := store.getD r.upc 0
  if e = 0 then .ended r false
  else
    let slots := bankSlots e
    if slots.any fun m => (m.dst == 1 || m.dst == 7) && decide (m.imm > a.offmax) then .ended r true
    else
      let cur := r.cur
      let zero := List.replicate a.elems 0
      let vals := slots.map fun m => (m, r.units.map fun u => (u.bank, u.source zero bcast m.src))
      let r := vals.foldl (fun (r : BankRun) (m, vs) => r.move a pc cur m vs) r
      if slots.any (·.dst == 0xB) then
        match r.voteAcc a with
        | none => .ended r true
        | some r => if r.cur < a.nr then .goes { r with upc := a.entry } else .ended r false
      else if r.upc + 1 = 256 then .ended r true
      else .goes { r with upc := r.upc + 1 }

/-- What stands in a unit's registers when a command starts. [log 64] -/
def bankUnit (n b : Nat) : BankUnit :=
  let z := List.replicate n 0
  { bank := b, row := z, mul := z, add := z, cmp := z, acc := z, mula := z, adda := z, cmpa := z, wbr := 0 }

/-- A command starts on a pseudo-channel (R307, R312): the memory-side cache writes back the dirty lines of its footprint.
[log 63] -/
def State.startBank (s : State) (die stack pc : Nat) (a : BankArgs) : State :=
  let q := s.sequencer die stack pc
  let q := { q with
    run := some { args := a, units := (banksOf a.banks a.dup).map (bankUnit a.elems), cur := 0, upc := a.entry, flags := 0,
                  written := [] }
    clock := s.clock.toNat }
  (s.putSequencer q).sideClean fun x => !(x.spans.any fun (a, n) => (List.range n).any fun i => s.inFootprint q (a + i))

/-- A command ends on a pseudo-channel (step 5 of R312): the memory-side cache drops the lines it wrote, their succinct blocks are
marked, and it leaves the queue. -/
def State.finishBank (s : State) (cid : Nat) (o : EngOp) (die stack pc : Nat) (p : BankProgress) (failed : Bool) : State :=
  let s := p.written.eraseDups.foldl (fun s pa => s.markWrite die pa 192) s
  s.endBank cid { o with flags := o.flags ||| p.flags } die stack [pc] failed

/-- The next entry of the command under way on a pseudo-channel (R307). [log 63] -/
def State.stepBank (s : State) (cid : Nat) (o : EngOp) (die stack pc : Nat) (p : BankProgress) : State :=
  let a := p.args
  let bcast := if a.bv = 0 then List.replicate a.elems 0 else a.unpack o.vector
  let q := s.sequencer die stack pc
  let progress (r : BankRun) : BankProgress :=
    { args := a, units := r.units, cur := r.cur, upc := r.upc, flags := r.flags, written := r.written }
  match BankRun.entry ⟨s, p.units, p.cur, p.upc, p.flags, p.written⟩ a pc q.store bcast with
  | .goes r => r.s.putSequencer { q with run := some (progress r), clock := s.clock.toNat }
  | .ended r failed => r.s.finishBank cid o die stack pc (progress r) failed

/-- Whether an edit holds a string that some line of a pseudo-channel's footprint is part of: the command waits (R287). -/
def State.bankWaits (s : State) (die stack pc : Nat) (a : BankArgs) : Bool :=
  let q := { s.sequencer die stack pc with
    run := some { args := a, units := [], cur := 0, upc := 0, flags := 0, written := [] } }
  (s.die die).regions.any fun g => g.edit.isSome && s.meetsString q g

/-- BANK_COMMAND_RUN (R307, R312): the command at the head of a sequencer's queue starts, or performs its next entry; the first of
its pseudo-channels reads the broadcast vector. -/
def execBankCommandRun (die stack pc : Nat) (s : State) : Host.Outcome State Fault Refusal :=
  match (s.sequencer die stack pc).queue with
  | [] => .next s
  | (cid, id) :: _ =>
    match s.engOp? cid id with
    | none => .next s
    | some o =>
      match o.kind, s.engCtx? cid o with
      | .bkcmd a, some x =>
        match (s.sequencer die stack pc).run with
        | some p => .next (s.stepBank cid o die stack pc p)
        | none =>
          if EngOp.waiting s o || s.bankWaits die stack pc a then .next s
          else if a.bv = 0 || !o.vector.isEmpty then .next (s.startBank die stack pc a)
          else
            match s.srcBytes x false a.bv 192 with
            | .error (.park s token) => .next (s.setOp cid { o with parked := some token })
            | .error (.fail s) => .next (s.endBank cid o a.die a.stack (o.todo.map (·.1)) true)
            | .error (.busy s) => .next s
            | .error (.ok s) => .next s
            | .ok (s, bs, _) =>
              .next ((s.setOp cid { o with vector := bs, parked := none }).startBank die stack pc a)
      | _, _ => .next s

/-- BANK_WATCHDOG (R314): resets a sequencer whose command has made no step for BKWDOG microseconds. [log 67] -/
def execBankWatchdog (die stack pc : Nat) (s : State) : Host.Outcome State Fault Refusal :=
  let q := s.sequencer die stack pc
  match q.queue with
  | [] => .next s
  | (cid, id) :: _ =>
    match s.engOp? cid id with
    | none => .next s
    | some o =>
      match o.kind with
      | .bkcmd a =>
        let us := (s.die die).bkwdog.toNat % 2 ^ 24
        if us = 0 || s.clock.toNat - q.clock < 1750 * us then .next s
        else
          let s := s.updDie die fun d => { d with bkreset := stick d.bkreset 1 }
          let idle : BankProgress := { args := a, units := [], cur := 0, upc := 0, flags := 0, written := [] }
          .next (s.finishBank cid o die stack pc (q.run.getD idle) true)
      | _ => .next s

end Sys2Proof.Machine
end

