-- ==== Sys2Proof/Machine/Ed448.lean ====
section
/-!
DEFINITION. Ed448 and Ed448ph of RFC 8032, by which firmware, records and attestation reports are signed (20 R356, R357, R360,
R361): the field, the curve, keys, signatures.
-/
namespace Sys2Proof.Machine

/-! ## The field and the curve -/

/-- The prime of the field. -/
def edPrime : Nat := 2 ^ 448 - 2 ^ 224 - 1

/-- The order of the base point. -/
def edOrder : Nat := 2 ^ 446 - 13818066809895115352007386748515426880336692474882178609894547503885

/-- The curve's constant, -39081. -/
def edD : Nat := edPrime - 39081

/-- a^e in the field, by the lowest `n` bits of e. -/
def edPow (a e n : Nat) : Nat :=
  ((List.range n).reverse).foldl (fun r i => if e.testBit i then r * r % edPrime * a % edPrime else r * r % edPrime) 1

def edNeg (a : Nat) : Nat := (edPrime - a % edPrime) % edPrime
def edInv (a : Nat) : Nat := edPow a (edPrime - 2) 448

/-- A point (x / z, y / z) of the curve. -/
structure EdPoint where
  x : Nat
  y : Nat
  z : Nat
  deriving DecidableEq, Repr

def edZero : EdPoint := ⟨0, 1, 1⟩

/-- The base point. -/
def edBase : EdPoint :=
  { x := 224580040295924300187604334099896036246789641632564134246125461686950415467406032909029192869357953282578032075146446173674602635247710
    y := 298819210078481492676017930443930673437544040154080242095928241372331506189835876003536878655418784733982303233503462500531545062832660
    z := 1 }

/-- Whether a point lies on the curve x^2 + y^2 = 1 - 39081 x^2 y^2. -/
def EdPoint.onCurve (p : EdPoint) : Bool :=
  let xx := p.x * p.x % edPrime
  let yy := p.y * p.y % edPrime
  let zz := p.z * p.z % edPrime
  (xx + yy) * zz % edPrime == (zz * zz + edD * xx % edPrime * yy) % edPrime

/-- The sum of two points; the formulas hold for every pair. -/
def EdPoint.add (p q : EdPoint) : EdPoint :=
  let a := p.z * q.z % edPrime
  let b := a * a % edPrime
  let c := p.x * q.x % edPrime
  let d := p.y * q.y % edPrime
  let e := edD * c % edPrime * d % edPrime
  let f := (b + edNeg e) % edPrime
  let g := (b + e) % edPrime
  let h := (p.x + p.y) * (q.x + q.y) % edPrime
  { x := a * f % edPrime * ((h + edNeg c + edNeg d) % edPrime) % edPrime
    y := a * g % edPrime * ((d + edNeg c) % edPrime) % edPrime
    z := f * g % edPrime }

/-- [n]p for n below 2^456. -/
def EdPoint.times (p : EdPoint) (n : Nat) : EdPoint :=
  ((List.range 456).reverse).foldl (fun r i => if n.testBit i then (r.add r).add p else r.add r) edZero

/-- Whether two points are the same. -/
def EdPoint.same (p q : EdPoint) : Bool :=
  p.x * q.z % edPrime == q.x * p.z % edPrime && p.y * q.z % edPrime == q.y * p.z % edPrime

/-! ## Encodings -/

/-- The 57 bytes of a point: y, and the parity of x in the highest bit. -/
def EdPoint.bytes (p : EdPoint) : List Byte :=
  let z := edInv p.z
  leBytes 57 (p.y * z % edPrime + 2 ^ 455 * (p.x * z % edPrime % 2))

/-- The point of 57 bytes, if they encode one. -/
def edPoint? (bs : List Byte) : Option EdPoint :=
  let v := leNat bs
  let y := v % 2 ^ 455
  let yy := y * y % edPrime
  let u := (yy + edNeg 1) % edPrime
  let w := (edD * yy + edNeg 1) % edPrime
  let u3w := u * u % edPrime * u % edPrime * w % edPrime
  let x := u3w * edPow (u3w * (u * u % edPrime) % edPrime * (w * w % edPrime) % edPrime) ((edPrime - 3) / 4) 448 % edPrime
  let odd := v / 2 ^ 455
  if bs.length != 57 || y ≥ edPrime || w * (x * x % edPrime) % edPrime != u || (x == 0 && odd == 1) then none
  else some ⟨if x % 2 = odd then x else edNeg x, y, 1⟩

/-! ## Keys and signatures -/

/-- "SigEd448", the prehash flag and the empty context. -/
def edDomain (prehash : Bool) : List Byte :=
  [0x53, 0x69, 0x67, 0x45, 0x64, 0x34, 0x34, 0x38, if prehash then 1 else 0, 0]

/-- The hash of a private key: its scalar, and the prefix that its signatures take. -/
def edSecret (key : List Byte) : Nat × List Byte :=
  let h := shake256 114 key
  let v := leNat (h.take 57) % 2 ^ 447
  (v - v % 4 + 2 ^ 447, h.drop 57)

/-- The public key of a private key. -/
def ed448Public (key : List Byte) : List Byte := (edBase.times (edSecret key).1).bytes

def edHash (prehash : Bool) (bs : List Byte) : Nat := leNat (shake256 114 (edDomain prehash ++ bs))

/-- The 114 bytes of a private key's signature of a message. -/
def ed448Sign (key message : List Byte) : List Byte :=
  let (s, pre) := edSecret key
  let r := edHash false (pre ++ message) % edOrder
  let R := (edBase.times r).bytes
  let k := edHash false (R ++ ed448Public key ++ message) % edOrder
  R ++ leBytes 57 ((r + k * s) % edOrder)

/-- Whether a signature of a message verifies under a public key, with SHAKE256 as the prehash where `prehash` says so; the check
is that of RFC 8032 with the cofactor 4. [log 134] -/
def ed448Verifies (prehash : Bool) (key message sig : List Byte) : Bool :=
  let m := if prehash then shake256 64 message else message
  let R := sig.take 57
  let S := leNat (sig.drop 57)
  match edPoint? key, edPoint? R with
  | some a, some r =>
    let k := edHash prehash (R ++ key ++ m) % edOrder
    sig.length == 114 && decide (S < edOrder)
      && ((edBase.times S).times 4).same (((a.times k).add r).times 4)
  | _, _ => false

end Sys2Proof.Machine
end

