-- ==== Sys2Proof/Machine/BootSteps.lean ====
section
/-!
DEFINITION. Start-up: verified start and the boot journal (20 R356-R359), measurements and the attestation report (R360,
R361).
-/
namespace Sys2Proof.Machine

/-! ## The steps of a start (R358) -/

/-- The dies of a form (R1). -/
def formDies (form : Form) : List Nat :=
  match form with
  | .die => [0]
  | _ => [0, 1, 2, 3]

/-- The unit steps that follow a record's verification, in order, as (step, unit): stack s of die d is unit 3 d + s. -/
def bootSteps (r : ConfigRecord) : List (Nat × Nat) :=
  let dies := formDies r.form
  let st := dies.flatMap fun d => ([0, 1, 2].filter fun k => r.stackSet.getLsbD (3 * d + k)).map fun k => (3, 3 * d + k)
  let lp := match r.form with
    | .module => dies.map fun d => (4, d)
    | _ => []
  st ++ lp ++ [(5, 0), (6, 0), (7, 0), (8, 0)]

/-- The mode that the journal calls for: 0 primary, 1 alternate, 2 fallback; what was left out since the last update stays
out. The fabric ports have no alternate mode. [log 108] -/
def Boot.modeOf (b : Boot) (step unit : Nat) : Nat :=
  if b.leftOut.contains (step, unit) then 2
  else
    match (b.journal.filter fun e => e.step == step && e.unit == unit).getLast? with
    | none => 0
    | some e =>
      if e.mode = 2 then 2
      else if e.state = 2 then 0
      else if e.mode = 0 && step != 7 then 1
      else 2

/-- A start under way: the new journal, the record in use, what came up, and whether it has stopped. -/
structure Start where
  journal : List JournalEntry
  record : ConfigRecord
  stackSet : BitVec 12
  lpddr : BitVec 4
  moved : BitVec 8
  skipped : Bool
  slotB : Bool
  copy2 : Bool
  measured : Option Measured
  recovery : Bool
  stopped : Bool
  deriving DecidableEq, Repr

def Boot.start (b : Boot) : Start :=
  { journal := [], record := b.record, stackSet := 0, lpddr := 0, moved := 0, skipped := false, slotB := false,
    copy2 := false, measured := none, recovery := false, stopped := false }

/-! ## What flash holds, and its verification (R356, R357) -/

/-- The bytes of a record; the spec gives no layout. [log 3] -/
def ConfigRecord.bytes (r : ConfigRecord) : List Byte :=
  let form := match r.form with
    | .die => 0
    | .package => 1
    | .module => 2
  leBytes 1 form ++ leBytes 8 r.serial.toNat ++ leBytes 16 r.coreSet.toNat ++ leBytes 8 r.clusterSet.toNat
    ++ leBytes 2 r.stackSet.toNat ++ r.repair

/-- The two conditions of R356: the key hashes to the boot ROM's digest, and the signature of 114 bytes verifies under it as
Ed448ph. -/
def signedByMaker (key message sig : List Byte) : Bool :=
  sig.length == 114 && shake256 Config.romDigest.length key == Config.romDigest && ed448Verifies true key message sig

def imageAccepted (i : FirmwareImage) : Bool := signedByMaker i.key i.body i.sig

def SignedRecord.verifies (c : SignedRecord) : Bool := signedByMaker c.key c.record.bytes c.sig

/-- Whether a step that is verification finds what it needs in this mode (R356, R357). -/
def Boot.verifies (b : Boot) (step mode : Nat) : Bool :=
  match step, mode with
  | 1, 0 => imageAccepted b.slotA
  | 1, _ => imageAccepted b.slotB
  | 2, 0 => b.copy1.verifies
  | 2, _ => b.copy2.verifies
  | _, _ => true

/-! ## Running the steps -/

/-- What a step leaves when it is done in a mode; step 8 measures the image that runs, the record in use and the journal so
far (R360). [log 110] -/
def Start.done (f : Boot) (b : Start) (step unit mode : Nat) : Start :=
  match step with
  | 1 => { b with slotB := mode == 1 }
  | 2 => { b with copy2 := mode == 1, record := if mode = 1 then f.copy2.record else f.copy1.record }
  | 3 => { b with stackSet := b.stackSet ||| BitVec.ofNat 12 (2 ^ unit) }
  | 4 => { b with lpddr := b.lpddr ||| BitVec.ofNat 4 (2 ^ unit) }
  | 8 => { b with measured := some ⟨if b.slotB then f.slotB else f.slotA, b.record, b.journal⟩ }
  | _ => b

/-- What a step's fallback leaves: a stack, a window or the fabric left out; else the recovery state. -/
def Start.fallback (b : Start) (step : Nat) : Start :=
  match step with
  | 3 => b
  | 4 => b
  | 7 => { b with skipped := true }
  | _ => { b with recovery := true }

/-- Whether two stacks of one die are out (R358). -/
def Start.twoOut (b : Start) : Bool :=
  (formDies b.record.form).any fun d => ([0, 1, 2].filter fun k => !b.stackSet.getLsbD (3 * d + k)).length ≥ 2

/-- Runs one unit step, the `i`-th of the start: "begun" before it, "done" after it; a step that fails outright, or is
struck by a reset, is left "begun". After step 3, two stacks of a die that are out end the start. [log 108] -/
def Start.step (f : Boot) (strike : Option Nat) (b : Start) (step unit i : Nat) : Start :=
  if b.stopped || b.recovery then b
  else if step > 3 && b.twoOut then { b with recovery := true }
  else
    let mode := f.modeOf step unit
    let b : Start := if mode = 0 then b else { b with moved := b.moved ||| BitVec.ofNat 8 (2 ^ (step - 1)) }
    if mode = 2 then { b.fallback step with journal := b.journal ++ [⟨step, unit, 2, 2⟩] }
    else
      let b : Start := { b with journal := b.journal ++ [⟨step, unit, mode, 1⟩] }
      if strike = some i || !f.verifies step mode then { b with stopped := true }
      else
        let b := b.done f step unit mode
        { b with journal := b.journal ++ [⟨step, unit, mode, 2⟩] }

/-- A whole start from what flash holds; the steps after the second follow the record in use. [log 108] -/
def Boot.run (f : Boot) (strike : Option Nat) : Start :=
  let run (b : Start) (steps : List (Nat × Nat)) (from_ : Nat) : Start :=
    (steps.zipIdx from_).foldl (fun b ((step, unit), i) => b.step f strike step unit i) b
  let b := run f.start [(1, 0), (2, 0)] 0
  run b (bootSteps b.record) 2

/-- BOOTSTAT (R359). -/
def Start.stat (b : Start) : DWord :=
  if b.stopped then 0
  else
    BitVec.ofNat 64 (b.stackSet.toNat + 2 ^ 12 * b.lpddr.toNat + 2 ^ 16 * b.moved.toNat + (if b.skipped then 2 ^ 24 else 0)
      + (if b.slotB then 2 ^ 25 else 0) + (if b.copy2 then 2 ^ 26 else 0)
      + (if b.recovery then 2 ^ 27 else 0) + (if b.recovery then 0 else 2 ^ 28))

/-- The largest power limit of a form's record (R363). -/
def formLimit (f : Form) : Word :=
  match f with
  | .die => 1200
  | .package => 4800
  | .module => 5400

/-- Whether a record lets a core into service (R1, R357). -/
def ConfigRecord.lets (r : ConfigRecord) (core : Nat) : Bool :=
  (formDies r.form).contains (dieOf core) && r.coreSet.getLsbD core && r.clusterSet.getLsbD (core / 2)

/-- PACKAGE_RESET (R356-R360): edits stop (R288), everything on the package is reset, the steps of a start run by the journal,
and what they bring up is in service. What stands in memory below the caches stays (R272, R302), and so does the flash;
what only a home L2 slice held is gone. [log 109] -/
def execPackageReset (o : BootOutcome) (s : State) : Host.Outcome State Fault Refusal :=
  let f := s.boot
  let b := f.run o.strike
  let r := State.reset
  let m := ((s.dieUnits.flatMap (·.regions)).foldl State.stopEdit s).loseSide
  .next { r with
    mem := m.mem
    poison := m.poison
    coded := m.coded
    cores := (List.range Config.cores).map fun c => { Core.reset with inService := b.record.lets c }
    fabric := { r.fabric with fxport := if b.stopped || b.recovery || b.skipped then 0 else o.ports.setWidth 32 }
    boot := { r.boot with
      slotA := f.slotA, slotB := f.slotB, copy1 := f.copy1, copy2 := f.copy2, journal := b.journal,
      leftOut := (f.leftOut ++ (b.journal.filter (·.mode == 2)).map fun e => (e.step, e.unit)).eraseDups,
      secret := f.secret, certificate := f.certificate, record := b.record,
      identity := b.measured.isSome, measured := b.measured,
      bootstat := b.stat, pwrlim := formLimit b.record.form }
    hostRead := s.hostRead, agenda := s.agenda, freeCtr := m.freeCtr, nextId := s.nextId }

/-- FIRMWARE_UPDATE (R359): an image goes to a slot (A, or B with `slot`), and the journal is cleared. -/
def execFirmwareUpdate (slot : Bool) (image : FirmwareImage) (s : State) : Host.Outcome State Fault Refusal :=
  let b := s.boot
  .next { s with boot := { b with
    journal := [], leftOut := [], slotA := if slot then b.slotA else image, slotB := if slot then image else b.slotB } }

/-! ## Attestation (R360, R361) -/

def JournalEntry.bytes (e : JournalEntry) : List Byte := [e.step, e.unit, e.mode, e.state].map (BitVec.ofNat 8)

/-- The three measurements of R360, 64 bytes each; the spec gives no layout of what is measured. [log 110] -/
def Measured.bytes (m : Measured) : List Byte :=
  shake256 64 (m.image.key ++ m.image.body ++ m.image.sig) ++ shake256 64 m.record.bytes
    ++ shake256 64 (m.journal.flatMap JournalEntry.bytes)

/-- The device identity key: the private key that is derived from the device secret, and its public half (R360). -/
def Boot.identityKey (b : Boot) : List Byte := (List.range 57).map (Config.identitySeed b.secret)
def Boot.identityPublic (b : Boot) : List Byte := ed448Public b.identityKey

/-- The 384 bytes of a report. [log 110] -/
def Boot.report (b : Boot) (dev : Word) (nonce : List DWord) : List Byte :=
  let taken := match b.measured with
    | some m => m.bytes
    | none => List.replicate 192 0
  let head := leBytes 4 1 ++ leBytes 4 dev.toNat ++ leBytes 8 b.bootstat.toNat ++ taken
    ++ (List.range 4).flatMap (fun k => leBytes 8 (nonce.getD k 0).toNat) ++ List.replicate 16 0
  head ++ ed448Sign b.identityKey head ++ List.replicate 14 0

/-- ATTESTATION_REPORT_WRITTEN (R361): the report is visible to the host, and ATTSTAT reads 2. -/
def execAttestationReportWritten (s : State) : Host.Outcome State Fault Refusal :=
  match s.boot.attReq with
  | none => .next s
  | some (pa, dev, nonce) =>
    let s := s.physWrite pa (s.boot.report dev nonce)
    .next { s with boot := { s.boot with attstat := 2, attReq := none } }

end Sys2Proof.Machine
end

