-- ==== Sys2Proof/Machine/Completion.lean ====
section
/-!
DEFINITION. The end of a launch (05 R151, 16 R332) and messages to the host (R339).
-/
namespace Sys2Proof.Machine

/-! ## Messages -/

/-- Raises an interrupt vector of the host. -/
def State.raiseVector (s : State) (v : Byte) : State := s.updRm fun r => { r with vectors := r.vectors ++ [v] }

/-- Whether messages are disabled (R339). -/
def State.messagesOff (s : State) : Bool := s.rm.rmmsgsize == 0

/-- Drops completion messages while messages are disabled; their interrupts are raised (R339). -/
def State.dropCompletions (s : State) : State :=
  if !s.messagesOff then s
  else
    let gone := s.rm.messages.filter (·.kind == 1)
    let s := s.updRm fun r => { r with messages := r.messages.filter (·.kind != 1) }
    gone.foldl (fun s m => match m.vector with
      | some v => s.raiseVector v
      | none => s) s

/-- The 16 bytes of a message. -/
def Message.bytes (m : Message) : List Byte :=
  leBytes 1 m.kind ++ leBytes 1 m.queue ++ leBytes 2 0 ++ leBytes 4 m.a32.toNat ++ leBytes 8 m.a64.toNat

/-- MESSAGE_WRITE (R339): the oldest message goes to the ring when it has room; its vector is raised once it is
visible. [log 80] -/
def execMessageWrite (s : State) : Host.Outcome State Fault Refusal :=
  let n := 2 ^ s.rm.rmmsgsize.toNat
  let pa := s.rm.rmmsgbase.toNat + 16 * (s.rm.rmmsgtail.toNat % n)
  match s.rm.messages with
  | [] => .next s
  | m :: rest =>
    if s.messagesOff || (s.rm.rmmsgtail - s.rm.rmmsghead).toNat ≥ n || !s.present pa 16 then .next s
    else
      let s := s.physWrite pa m.bytes
      let s := s.updRm fun r => { r with rmmsgtail := r.rmmsgtail + 1, messages := rest }
      if m.kind = 1 then
        match m.vector with
        | some v => .next (s.raiseVector v)
        | none => .next s
      else .next (s.raiseVector (s.rm.rmiv.setWidth 8))

/-! ## Ending a launch (R332) -/

/-- Retires what an ended launch still has: every troupe that can retire, then its companies. A company that is out
does not come back: its work on its scratchpad and tiles is given up. [log 95] -/
def State.windUp (s : State) (lid : Nat) : State :=
  let s := s.updLaunch lid fun l => { l with dist := [] }
  let s : State := { s with companies := s.companies.map fun c =>
    if c.lid == lid then
      { c with preempting := false, ops := if c.core.isSome then c.ops else c.ops.filter fun o => !o.kind.usesStore }
    else c }
  let s := s.troupes.foldl (fun s t =>
    match s.troupe? t.uid with
    | some t => if t.lid == lid && !t.retired && s.canRetire t then s.retire t else s
    | none => s) s
  s.companies.foldl (fun s c =>
    if c.lid == lid then
      match execCompanyRetire c.cid s with
      | .next s => s
      | _ => s
    else s) s

/-- Whether a launch has nothing outstanding (R151): its companies and their tracker entries are gone, and every
invalidation that its stores caused is acknowledged (R243). -/
def State.drainedLaunch (s : State) (l : Launch) : Bool :=
  let ts := s.troupes.filter (·.lid == l.lid)
  l.dist.isEmpty && ts.all (·.retired)
    && s.companies.all (fun c => c.lid != l.lid || c.core.isNone)
    && s.cores.all (fun k => k.trackers.all (·.lid != l.lid))
    && s.invals.all (fun i => ts.all (·.uid != i.uid))
    && (l.ending.isSome || l.companiesRetired == l.hdr.companyCount)

/-- Step 1 of R332: the status, and for a double trap its cause and pc (R328). -/
def State.reportStatus (s : State) (l : Launch) : State :=
  let pa := s.entryPa l.queue l.index
  let s := if l.ending = some 5 then
      (s.physWrite (pa + 0x1C) (leBytes 4 l.tcause.toNat)).physWrite (pa + 0x20) (leBytes 8 l.tpc.toNat)
    else s
  (s.writeStatus l.queue l.index (l.ending.getD 2)).updLaunch l.lid fun x => { x with statusDone := true }

/-- Steps 3 and 4 of R332, after which nothing of the launch is left. [log 96] -/
def State.announce (s : State) (l : Launch) : State :=
  let iv : Byte := (s.queue l.queue).qctl.extractLsb' 8 8
  let vector := if l.flags.getLsbD 1 then some iv else none
  let s := if l.flags.getLsbD 0 then
      (s.say { kind := 1, queue := l.queue, a32 := BitVec.ofNat 32 (l.ending.getD 2 + 65536 * (l.index % 65536)),
               a64 := BitVec.ofNat 64 l.hdrVa, vector := vector }).dropCompletions
    else match vector with
      | some v => s.raiseVector v
      | none => s
  let s := (s.updRm fun r => { r with launches := r.launches.filter (·.lid != l.lid) }).dropWaits l.queue (some l.lid)
  let s : State := { s with
    troupes := s.troupes.filter (·.lid != l.lid)
    companies := s.companies.filter (·.lid != l.lid)
    xchgs := s.xchgs.filter (·.lid != l.lid) }
  (List.range Config.cores).foldl (fun s c => s.freeSlot c l.lid) s

/-- LAUNCH_COMPLETE (R151, R332): a launch with nothing outstanding is reported; an ended one first has its companies
retired. Step 2 waits for a page of the completion word, is dropped without permission, and is followed by a new read of
every dependence (R331). [log 97] -/
def execLaunchComplete (lid : Nat) (s : State) : Host.Outcome State Fault Refusal :=
  match s.launch? lid with
  | none => .next s
  | some l =>
    let s := if l.ending.isSome && !l.statusDone then s.windUp lid else s
    match s.launch? lid with
    | none => .next s
    | some l =>
      if !l.statusDone && !s.drainedLaunch l then .next s
      else
        let s := if l.statusDone then s else s.reportStatus l
        if l.ending.isSome || l.sig = 0 then .next (s.announce l)
        else
          match s.rmPlace l.queue (some lid) l.root l.sig .w with
          | .ok s p => .next (((s.settleAll.homeWrite p (leBytes 8 l.sigval.toNat) 4 0).pollAll).announce l)
          | .wait s => .next s
          | .denied => .next (s.announce l)

end Sys2Proof.Machine
end

