-- ==== Sys2Proof/Machine/ClusterReset.lean ====
section
/-!
DEFINITION. Cluster reset (09 R235, R236; 20 R362).
-/
namespace Sys2Proof.Machine

def MemOp.isEdit (o : MemOp) : Bool :=
  match o.kind with
  | .edit _ _ => true
  | _ => false

/-- Gives up every engine operation of a company: the bank queues and the bus forget them too, what a bank command has written
counts as ended (R281), and what they have in the fabric goes on as packets with a truncation marker (step 3 of R235). -/
def State.dropEngines (s : State) (cid : Nat) : State :=
  let s := (s.sequencers.filter fun q => q.queue.head?.any (·.1 == cid)).foldl (fun s q => match q.run with
    | some p => p.written.eraseDups.foldl (fun s pa => s.markWrite q.die pa 192) s
    | none => s) s
  let s : State := { s with
    sequencers := (s.sequencers.map fun q => q.without s.clock.toNat (·.1 == cid)).filter fun q =>
      q != newSequencer q.die q.stack q.pc
    fabric := { s.fabric with out := s.fabric.out.map fun o => match o.msg.sender? with
      | some (dev, c, _) => if c == cid then { o with msg := .truncated dev } else o
      | none => o }
    clusters := s.clusters.map fun k =>
      { k with offers := k.offers.filter (fun (_, c, _) => c != cid),
               pairs := k.pairs.filter fun (a, b) => a.1 != cid && b.1 != cid } }
  s.updCompany cid fun c => { c with ops := [] }

/-- The requests of a troupe that are not answered yet, by the die each goes to. -/
def State.unanswered (s : State) (t : Troupe) : List Nat :=
  t.ops.flatMap fun o => if o.isSpad || o.isEdit then []
    else (o.lanes.filter fun r => !r.done).map fun r => (s.loc r.pa r.entry r.psize).die

/-- The send allowances that the crossbar port of a cluster has left: the full count of its register, less one for each request
of its cores that is not answered yet (R235). [log 133] -/
def State.sendAllowances (s : State) (cluster : Nat) : Nat :=
  let mine (u : Nat) : Bool := (List.range 2).any fun i => (s.core (2 * cluster + i)).trackers.any (·.uid == u)
  (s.cluster cluster).port.toNat
    - ((s.troupes.filter fun t => (t.resident && clusterOf t.core == cluster) || mine t.uid).flatMap s.unanswered).length

/-- What a core's troupes have in flight is given up, and with it the send allowances of those requests (step 2 of
R235): each lane's access is performed whole or not at all. A request that was partly injected reaches its receiver with a
truncation marker, and is discarded and counted there (step 3). An edit stands at the memory side, and stops there (R288). -/
def State.dropAccesses (s : State) (uid : Nat) : State :=
  match s.troupe? uid with
  | none => s
  | some t =>
    let s := (List.range Config.dies).foldl (fun s d => (s.die d).regions.foldl (fun s g =>
      if g.edit.any (·.uid == uid) then s.stopEdit g else s) s) s
    let s := (s.unanswered t).foldl (fun s d =>
      let part := Config.partlyInjected s.freeCtr
      { s.updDie d (fun x => if part then { x with dntrunc := stick x.dntrunc 1 } else x) with freeCtr := s.freeCtr + 1 }) s
    s.updTroupe uid fun t => { t with ops := [] }

/-- The lines that a core owns are poisoned at home and counted (step 4 of R235). -/
def State.poisonOwned (s : State) (core : Nat) : State :=
  let lines := ((s.core core).l1.filter (·.owned)).map (·.line)
  let s := s.updCore core fun c => { c with l1 := [] }
  lines.foldl (fun s line => s.poisonLine (s.rawLoc (192 * line))) s

/-- The counter unit's allowances return to their lines. [log 77] -/
def State.returnAllowances (s : State) (core : Nat) : State :=
  ((s.core core).allowances.map (·.at_)).foldl (fun s l => s.recallHolder l core) s

/-- Clears one core of a reset cluster. [log 77] -/
def State.resetCore (s : State) (core : Nat) : State :=
  let here := s.companies.filter fun c => c.core == some core
  let tracked := (s.core core).trackers
  let lids := (here.map (·.lid) ++ tracked.map (·.lid)).eraseDups
  let s := lids.foldl (fun s l => s.endLaunch l 6 0 0) s
  let s := (here.map (·.cid) ++ tracked.map (·.cid)).eraseDups.foldl (fun s c => s.dropEngines c) s
  let uids := ((s.troupes.filter fun t => t.resident && t.core == core).map (·.uid)) ++ tracked.map (·.uid)
  let s := uids.foldl (fun s u => s.dropAccesses u) s
  let s := s.updCore core fun c => { c with trackers := [] }
  let s := uids.foldl (fun s u =>
    match s.troupe? u with
    | some t => if t.retired then s else s.retire t
    | none => s) s
  let s := here.foldl (fun s c => match execCompanyRetire c.cid s with
    | .next s => s
    | _ => s) s
  let s := (s.poisonOwned core).returnAllowances core
  let s := s.updCore core fun c =>
    { c with quarters := List.replicate 4 Quarter.reset, ro := [], recs := [], tileCache := [], tlb := [], ftlb := [],
             otlb := [] }
  lids.foldl (fun s l => s.freeSlot core l) s

/-- The code of a cause in CLRSTAT (R362). -/
def causeCode (c : ResetCause) : Nat :=
  match c with
  | .hung => 1
  | .registerFile => 2
  | .accumulators => 3
  | .scratchpad => 4
  | .crossbarPort => 5

/-- CLUSTER_RESET (R235): both cores are cleared, their launches end with status 0x0006, and the cluster returns to
service empty. CLRSTAT counts and keeps the cause. [log 76, 77, 78] -/
def execClusterReset (cluster : Nat) (cause : ResetCause) (s : State) : Host.Outcome State Fault Refusal :=
  if cluster ≥ Config.clusters then .next s
  else
    let s := (s.resetCore (2 * cluster)).resetCore (2 * cluster + 1)
    .next (s.updCluster cluster fun c =>
      { c with offers := [], pairs := [],
               clrstat := BitVec.ofNat 32 (min 65535 (c.clrstat.toNat % 65536 + 1) + 65536 * causeCode cause) })

end Sys2Proof.Machine
end

