-- ==== Sys2Proof/Machine/Convert.lean ====
section
/-!
DEFINITION. Conversions (04 R107-R114) under the rules of 01 R16-R24.
-/
namespace Sys2Proof.Machine

/-! ## Controls (R107) -/

def cvP (f : Fields) : Nat := Fields.x f 14 12
def cvSat (f : Fields) : Bool := Fields.x f 11 11 == 1
def cvRm (f : Fields) : Nat := Fields.x f 10 8
def cvSf (f : Fields) : Nat := Fields.x f 7 4
def cvTf (f : Fields) : Nat := Fields.x f 3 0

def fmtAF (w : Word) : Nat := bitsOf w.toNat 3 0
def fmtBF (w : Word) : Nat := bitsOf w.toNat 7 4
def fmtCF (w : Word) : Nat := bitsOf w.toNat 11 8
def fmtSM (w : Word) : Nat := bitsOf w.toNat 13 12
def fmtSAT (w : Word) : Bool := w.getLsbD 14

/-- The target format: TF, or fmt.CF for TF = 0xF. -/
def cvTarget (f : Fields) (t : Troupe) : Nat := if cvTf f = 15 then fmtCF t.fmt else cvTf f

/-- Whether the conversion behaves as with .sat. -/
def cvSaturates (f : Fields) (t : Troupe) : Bool := cvSat f || (cvTf f == 15 && fmtSAT t.fmt)

/-- srctr advances by 1 after an instruction with .sr (R18). -/
def cvAdvance (f : Fields) (t : Troupe) : Troupe := if cvRm f = 4 then { t with srctr := t.srctr + 1 } else t

/-- R17: gid of a lane. -/
def laneGid (t : Troupe) (i : Nat) : DWord := t.wid * 96 + BitVec.ofNat 64 i

def laneRandom (t : Troupe) (i e : Nat) : Nat := srr t.srseed t.srctr (laneGid t i) e

/-- The shape of a conversion: `bad` says that SF, TF or P is not listed. -/
def cvShape (f : Fields) (b c : Use) (bad : Bool) : Shape :=
  { dst := .lane, long := true, a := .w32, b := b, c := c, ownImm := true, immMask := 0x7FFF,
    badModifier := cvRm f > 4 || bad }

/-- Issues a conversion: a target in fmt.CF that the instruction does not accept (with this P) traps
ILLEGAL-OPERAND. [log 117] -/
def convert (f : Fields) (s : State) (sh : Shape) (accepts : Troupe → Nat → Bool) (body : Troupe → Nat → Nat → Rounded) :
    Host.Outcome State Fault Refusal :=
  issue false sh f s fun t =>
    let tf := cvTarget f t
    if accepts t tf then
      fpOut s (cvAdvance f t) f fun i => body t tf i
    else Out.lanes s t cIllegalOperand

/-! ## Element places (R108) -/

/-- Bits of an element's place in a packed container. -/
def slotBits (c : Nat) : Nat := if c = cBF16 ∨ c = cFP16 then 16 else if c = cE2M1 then 4 else 8

/-- The code of element p of a packed container. -/
def elemAt (c p : Nat) (w : Word) : Nat := w.toNat / 2 ^ (slotBits c * p) % 2 ^ slotBits c

/-- A container with element p replaced. -/
def elemPut (c p : Nat) (w code : Nat) : Nat :=
  let b := slotBits c
  w - w / 2 ^ (b * p) % 2 ^ b * 2 ^ (b * p) + code % 2 ^ b * 2 ^ (b * p)

/-- The element codes of CVT (R109): the floating formats, INT8 and INT32. -/
def cvtFormat (c : Nat) : Bool := c ≤ 7 || c == cINT8 || c == cINT32

/-- CVT (R109). -/
def execCvt (f : Fields) (s : State) : Host.Outcome State Fault Refusal :=
  let sf := cvSf f
  let bad := !cvtFormat sf || cvP f != 0 || (cvTf f != 15 && (!cvtFormat (cvTf f) || cvTf f == sf))
  convert f s (cvShape f .no .no bad) (fun _ tf => cvtFormat tf && tf != sf) fun t tf i =>
    let r := roundTo tf (Mode.ofCode (cvRm f)) (laneRandom t i 0) (cvSaturates f t) (isIntCode sf)
      (decodeElem sf (t.a32 f i).toNat)
    ⟨(widenCode tf r.code).toNat, r.flags⟩

/-- The largest P + 1 that CVTPK allows for a target; 0 for a target it does not list (R110). -/
def packPositions (tf : Nat) : Nat :=
  if tf = cBF16 ∨ tf = cFP16 then 1
  else if tf = cE2M1 then 4
  else if tf = cE4M3 ∨ tf = cE5M2 ∨ tf = cE2M3 ∨ tf = cE3M2 ∨ tf = cINT8 then 2
  else 0

/-- CVTPK (R110). C is the merge source, and must be zr for a 16-bit target. [log 136] -/
def execCvtpk (f : Fields) (s : State) : Host.Outcome State Fault Refusal :=
  let sf := cvSf f
  let p := cvP f
  let sfOk := sf == cFP32 || sf == cBF16 || sf == cFP16 || sf == cINT32
  let bad := !sfOk || (if cvTf f = 15 then decide (p > 3) else decide (p ≥ packPositions (cvTf f)))
  let cUse : Use := if cvTf f = cBF16 ∨ cvTf f = cFP16 then .no else .w32
  convert f s (cvShape f .w32 cUse bad)
    (fun _ tf => decide (p < packPositions tf) && (slotBits tf != 16 || Fields.c f == 123)) fun t tf i =>
    let one (w : Word) (e : Nat) : Rounded :=
      roundTo tf (Mode.ofCode (cvRm f)) (laneRandom t i e) (cvSaturates f t) (isIntCode sf) (decodeElem sf w.toNat)
    let ea := one (t.a32 f i) 0
    let eb := one (t.b32 f i) 1
    let c := (t.c32 f i).toNat
    ⟨elemPut tf (2 * p + 1) (elemPut tf (2 * p) c ea.code) eb.code, ea.flags ||| eb.flags⟩

/-- Elements per word of a source of CVTUNPK; 0 for a source it does not list (R111). -/
def unpackPositions (sf : Nat) : Nat :=
  if sf = cBF16 ∨ sf = cFP16 then 2
  else if sf = cE2M1 then 8
  else if sf = cE4M3 ∨ sf = cE5M2 ∨ sf = cE2M3 ∨ sf = cE3M2 ∨ sf = cINT8 then 4
  else 0

/-- CVTUNPK (R111). Source and target may name one format: nothing in R111 says that they differ. -/
def execCvtunpk (f : Fields) (s : State) : Host.Outcome State Fault Refusal :=
  let sf := cvSf f
  let p := cvP f
  let tfOk (tf : Nat) : Bool := tf == cFP32 || tf == cBF16 || tf == cFP16 || tf == cINT32
  let bad := decide (p ≥ unpackPositions sf) || (cvTf f != 15 && !tfOk (cvTf f))
  convert f s (cvShape f .no .no bad) (fun _ tf => tfOk tf) fun t tf i =>
    let r := roundTo tf (Mode.ofCode (cvRm f)) (laneRandom t i 0) (cvSaturates f t) (isIntCode sf)
      (decodeElem sf (elemAt sf p (t.a32 f i)))
    ⟨(widenCode tf r.code).toNat, r.flags⟩


/-- CVTBS (R112, R24): P 0 encodes, P 1 decodes. -/
def execCvtbs (f : Fields) (s : State) : Host.Outcome State Fault Refusal :=
  let sf := cvSf f
  let enc := cvP f == 0
  let tfOk (tf : Nat) : Bool := if enc then isFp8 tf else tf == cFP32
  let bad := decide (cvP f > 1) || !(if enc then sf == cFP32 else isFp8 sf)
    || (cvTf f != 15 && !tfOk (cvTf f)) || (!enc && cvRm f != 0)
  convert f s (cvShape f .w32 .no bad) (fun _ tf => tfOk tf) fun t tf i =>
    let a := (t.a32 f i).toNat
    let sc := fp32.decode (t.b32 f i).toNat
    if enc then
      fp8Encode tf (Mode.ofCode (cvRm f)) (laneRandom t i 0) (cvSaturates f t) (fp32.decode a) sc
    else fp32.finish ((decodeElem sf (a % 256)).mul sc)

def isMxElem (c : Nat) : Bool := 3 ≤ c && c ≤ 8

/-- The FP32 values of a beat as MXSCALE takes them: +0 for an inactive lane (R113). -/
def beatValues (t : Troupe) (f : Fields) (j : Nat) : List Val :=
  (List.range 32).map fun k =>
    if t.active (32 * j + k) then fp32.decode (t.a32 f (32 * j + k)).toNat else .fin false 0 0

/-- CVTMX (R113, R22, R23): P 0 encodes a block per beat, P 1 decodes. -/
def execCvtmx (f : Fields) (s : State) : Host.Outcome State Fault Refusal :=
  let sf := cvSf f
  let enc := cvP f == 0
  let tfOk (tf : Nat) : Bool := if enc then isMxElem tf else tf == cFP32
  let bad := decide (cvP f > 1) || !(if enc then sf == cFP32 else isMxElem sf)
    || (cvTf f != 15 && !tfOk (cvTf f)) || (!enc && cvRm f != 0)
  issue false (cvShape f .no .no bad) f s fun t =>
    let tf := cvTarget f t
    if !tfOk tf then Out.lanes s t cIllegalOperand
    else if enc then
      let blocks := (List.range 3).map fun j =>
        mxBlock tf (Mode.ofCode (cvRm f)) (fun k => laneRandom t (32 * j + k) 0) (beatValues t f j)
      let block (j : Nat) : Nat × List Nat × Flags := blocks.getD j (0, [], 0)
      let fl := (block 0).2.2 ||| (block 1).2.2 ||| (block 2).2.2
      laneOut s ((cvAdvance f t).raise fl) f fun i =>
        let (sc, codes, _) := block (i / 32)
        BitVec.ofNat 32 (codes.getD (i % 32) 0 + 256 * sc)
    else
      fpOut s t f fun i =>
        let a := (t.a32 f i).toNat
        fp32.round .rn 0 false (mxDecode sf (a / 256 % 256) (a % 256))

/-- SCLX (R114): MXSCALE of the lane's beat under fmt.CF, with NV once for a block whose scale is 0xFF. -/
def execSclx (f : Fields) (s : State) : Host.Outcome State Fault Refusal :=
  issue false { dst := .lane, a := .w32 } f s fun t =>
    let cf := fmtCF t.fmt
    if !isMxElem cf then Out.lanes s t cIllegalOperand
    else
      let scales := (List.range 3).map fun j => mxScale cf (beatValues t f j)
      laneOut s (t.raise (nvFlag (scales.contains 0xFF))) f fun i => BitVec.ofNat 32 (scales.getD (i / 32) 0)

end Sys2Proof.Machine
end

