-- ==== Sys2Proof/Machine/LaneInt.lean ====
section
/-!
DEFINITION. Lane integer instructions (04 R96-R100).
-/
namespace Sys2Proof.Machine

/-! ## Shapes -/

/-- A short lane instruction of one source, with its effect on each active lane. -/
def laneUnary (f : Fields) (s : State) (op : Word → Word) : Host.Outcome State Fault Refusal :=
  issue false { dst := .lane, a := .w32 } f s fun t => laneOut s t f fun i => op (t.a32 f i)

/-- A short lane instruction of two sources. -/
def laneBinary (f : Fields) (s : State) (op : Word → Word → Word) : Host.Outcome State Fault Refusal :=
  issue false { dst := .lane, a := .w32, b := .w32 } f s fun t => laneOut s t f fun i => op (t.a32 f i) (t.b32 f i)

/-- A long lane instruction of three sources. -/
def laneTernary (f : Fields) (s : State) (op : Word → Word → Word → Word) : Host.Outcome State Fault Refusal :=
  issue false { dst := .lane, long := true, a := .w32, b := .w32, c := .w32 } f s fun t =>
    laneOut s t f fun i => op (t.a32 f i) (t.b32 f i) (t.c32 f i)

/-- A comparison into a mask triple (R100). -/
def laneCompare (f : Fields) (s : State) (cond : Word → Word → Bool) : Host.Outcome State Fault Refusal :=
  issue false { dst := .triple, a := .w32, b := .w32 } f s fun t =>
    laneTripleOut s t f fun i => cond (t.a32 f i) (t.b32 f i)

/-! ## Operations (R97, R98); the uniform set uses the same (R123) -/

def opMulhi (a b : Word) : Word := ((a.signExtend 64 * b.signExtend 64 : DWord) >>> 32).setWidth 32
def opMulhu (a b : Word) : Word := ((a.setWidth 64 * b.setWidth 64 : DWord) >>> 32).setWidth 32
def opShl (a b : Word) : Word := a <<< (b.toNat % 32)
def opShr (a b : Word) : Word := a >>> (b.toNat % 32)
def opSar (a b : Word) : Word := a.sshiftRight (b.toNat % 32)
def opRol (a b : Word) : Word := a.rotateLeft (b.toNat % 32)
def opAbs (a : Word) : Word := if a.msb then 0 - a else a

/-- Number of ones. -/
def popNat (n : Nat) (k : Nat) : Nat := (List.range k).foldl (fun c i => c + n / 2 ^ i % 2) 0

def opPopc (a : Word) : Word := BitVec.ofNat 32 (popNat a.toNat 32)

/-- Leading zeros; 32 for 0. -/
def opClz (a : Word) : Word := BitVec.ofNat 32 (if a = 0 then 32 else 31 - a.toNat.log2)

/-- Trailing zeros; 32 for 0. -/
def opCtz (a : Word) : Word :=
  BitVec.ofNat 32 (((List.range 32).find? fun i => a.getLsbD i).getD 32)

def opBrev (a : Word) : Word :=
  BitVec.ofNat 32 ((List.range 32).foldl (fun n i => 2 * n + (if a.getLsbD i then 1 else 0)) 0)

/-- BFX (R98): the field and its length. -/
def opBfx (signed : Bool) (a b c : Word) : Word :=
  let pos := b.toNat % 32
  let len := min (c.toNat % 64) 32
  if len = 0 then 0
  else
    let g := a.toNat / 2 ^ pos % 2 ^ len
    if signed && g ≥ 2 ^ (len - 1) then BitVec.ofInt 32 ((g : Int) - 2 ^ len) else BitVec.ofNat 32 g

/-- BFI (R98). -/
def opBfi (len : Nat) (a b c : Word) : Word :=
  let pos := c.toNat % 32
  let m : Word := BitVec.ofNat 32 ((2 ^ len - 1) * 2 ^ pos)
  (b &&& ~~~m) ||| (BitVec.ofNat 32 (a.toNat * 2 ^ pos) &&& m)

/-- GATHB (R98). -/
def opGathb (a b c : Word) : Word :=
  let q := b.toNat * 2 ^ 32 + a.toNat
  let byte (i : Nat) : Nat :=
    let n := bitsOf c.toNat (3 * i + 2) (3 * i)
    let y := q / 2 ^ (8 * n) % 256
    match bitsOf c.toNat (2 * i + 13) (2 * i + 12) with
    | 0 => y
    | 1 => 0
    | 2 => 0xFF
    | _ => if y ≥ 128 then 0xFF else 0
  BitVec.ofNat 32 (byte 0 + byte 1 * 2 ^ 8 + byte 2 * 2 ^ 16 + byte 3 * 2 ^ 24)

def opSel (a b c : Word) : Word := if c != 0 then a else b

/-- The comparisons of R100 by their place in the opcode map. -/
def condition (k : Nat) (a b : Word) : Bool :=
  match k with
  | 0 => a == b
  | 1 => a != b
  | 2 => a.slt b
  | 3 => a.sle b
  | 4 => b.slt a
  | 5 => b.sle a
  | 6 => a.ult b
  | 7 => a.ule b
  | 8 => b.ult a
  | _ => b.ule a

/-! ## Meanings -/

/-- IADD (R97). -/
def execIadd (f : Fields) (s : State) : Host.Outcome State Fault Refusal := laneBinary f s fun a b => a + b
/-- ISUB (R97). -/
def execIsub (f : Fields) (s : State) : Host.Outcome State Fault Refusal := laneBinary f s fun a b => a - b
/-- IMUL (R97). -/
def execImul (f : Fields) (s : State) : Host.Outcome State Fault Refusal := laneBinary f s fun a b => a * b
/-- IMULHI (R97). -/
def execImulhi (f : Fields) (s : State) : Host.Outcome State Fault Refusal := laneBinary f s opMulhi
/-- IMULHU (R97). -/
def execImulhu (f : Fields) (s : State) : Host.Outcome State Fault Refusal := laneBinary f s opMulhu
/-- IMAD (R98). -/
def execImad (f : Fields) (s : State) : Host.Outcome State Fault Refusal := laneTernary f s fun a b c => a * b + c
/-- IMIN (R97). -/
def execImin (f : Fields) (s : State) : Host.Outcome State Fault Refusal := laneBinary f s sminW
/-- IMAX (R97). -/
def execImax (f : Fields) (s : State) : Host.Outcome State Fault Refusal := laneBinary f s smaxW
/-- IMINU (R97). -/
def execIminu (f : Fields) (s : State) : Host.Outcome State Fault Refusal := laneBinary f s uminW
/-- IMAXU (R97). -/
def execImaxu (f : Fields) (s : State) : Host.Outcome State Fault Refusal := laneBinary f s umaxW
/-- IABS (R97). -/
def execIabs (f : Fields) (s : State) : Host.Outcome State Fault Refusal := laneUnary f s opAbs
/-- INEG (R97). -/
def execIneg (f : Fields) (s : State) : Host.Outcome State Fault Refusal := laneUnary f s fun a => 0 - a
/-- AND (R97). -/
def execAnd (f : Fields) (s : State) : Host.Outcome State Fault Refusal := laneBinary f s fun a b => a &&& b
/-- OR (R97). -/
def execOr (f : Fields) (s : State) : Host.Outcome State Fault Refusal := laneBinary f s fun a b => a ||| b
/-- XOR (R97). -/
def execXor (f : Fields) (s : State) : Host.Outcome State Fault Refusal := laneBinary f s fun a b => a ^^^ b
/-- ANDN (R97). -/
def execAndn (f : Fields) (s : State) : Host.Outcome State Fault Refusal := laneBinary f s fun a b => a &&& ~~~b
/-- SHL (R97). -/
def execShl (f : Fields) (s : State) : Host.Outcome State Fault Refusal := laneBinary f s opShl
/-- SHR (R97). -/
def execShr (f : Fields) (s : State) : Host.Outcome State Fault Refusal := laneBinary f s opShr
/-- SAR (R97). -/
def execSar (f : Fields) (s : State) : Host.Outcome State Fault Refusal := laneBinary f s opSar
/-- ROL (R97). -/
def execRol (f : Fields) (s : State) : Host.Outcome State Fault Refusal := laneBinary f s opRol
/-- BFX.s (R98). -/
def execBfxS (f : Fields) (s : State) : Host.Outcome State Fault Refusal := laneTernary f s (opBfx true)
/-- BFX.z (R98). -/
def execBfxZ (f : Fields) (s : State) : Host.Outcome State Fault Refusal := laneTernary f s (opBfx false)
/-- BFI (R98): a length of 33 to 63 traps ILLEGAL-OPCODE. -/
def execBfi (f : Fields) (s : State) : Host.Outcome State Fault Refusal :=
  let len := Fields.x f 5 0
  issue false { dst := .lane, long := true, a := .w32, b := .w32, c := .w32, ownImm := true, immMask := 0x3F,
                badModifier := len > 32 } f s fun t =>
    laneOut s t f fun i => opBfi len (t.a32 f i) (t.b32 f i) (t.c32 f i)
/-- POPC (R97). -/
def execPopc (f : Fields) (s : State) : Host.Outcome State Fault Refusal := laneUnary f s opPopc
/-- CLZ (R97). -/
def execClz (f : Fields) (s : State) : Host.Outcome State Fault Refusal := laneUnary f s opClz
/-- CTZ (R97). -/
def execCtz (f : Fields) (s : State) : Host.Outcome State Fault Refusal := laneUnary f s opCtz
/-- BREV (R97). -/
def execBrev (f : Fields) (s : State) : Host.Outcome State Fault Refusal := laneUnary f s opBrev
/-- GATHB (R98). -/
def execGathb (f : Fields) (s : State) : Host.Outcome State Fault Refusal := laneTernary f s opGathb
/-- LEA (R98). -/
def execLea (f : Fields) (s : State) : Host.Outcome State Fault Refusal :=
  issue false { dst := .lane, long := true, a := .w32, b := .w32, ownImm := true, immMask := 0x7 } f s fun t =>
    laneOut s t f fun i => t.a32 f i + t.b32 f i <<< Fields.x f 2 0
/-- MOV (R97). -/
def execMov (f : Fields) (s : State) : Host.Outcome State Fault Refusal := laneUnary f s fun a => a
/-- SEL (R98). -/
def execSel (f : Fields) (s : State) : Host.Outcome State Fault Refusal := laneTernary f s opSel

/-- IADD64 (R99). -/
def execIadd64 (f : Fields) (s : State) : Host.Outcome State Fault Refusal :=
  issue false { dst := .lanePair, a := .w64, b := .w64 } f s fun t =>
    lanePairOut s t f fun i => t.a64 f i + t.b64 f i
/-- ISUB64 (R99). -/
def execIsub64 (f : Fields) (s : State) : Host.Outcome State Fault Refusal :=
  issue false { dst := .lanePair, a := .w64, b := .w64 } f s fun t =>
    lanePairOut s t f fun i => t.a64 f i - t.b64 f i
/-- IMAD64 (R99). -/
def execImad64 (f : Fields) (s : State) : Host.Outcome State Fault Refusal :=
  issue false { dst := .lanePair, long := true, a := .w64, b := .w64, c := .w64 } f s fun t =>
    lanePairOut s t f fun i => t.a64 f i * t.b64 f i + t.c64 f i
/-- SHL64 (R99). -/
def execShl64 (f : Fields) (s : State) : Host.Outcome State Fault Refusal :=
  issue false { dst := .lanePair, a := .w64, b := .w32 } f s fun t =>
    lanePairOut s t f fun i => t.a64 f i <<< ((t.b32 f i).toNat % 64)
/-- SHR64 (R99). -/
def execShr64 (f : Fields) (s : State) : Host.Outcome State Fault Refusal :=
  issue false { dst := .lanePair, a := .w64, b := .w32 } f s fun t =>
    lanePairOut s t f fun i => t.a64 f i >>> ((t.b32 f i).toNat % 64)

/-- ICMP.eq (R100). -/
def execIcmpEq (f : Fields) (s : State) : Host.Outcome State Fault Refusal := laneCompare f s (condition 0)
/-- ICMP.ne (R100). -/
def execIcmpNe (f : Fields) (s : State) : Host.Outcome State Fault Refusal := laneCompare f s (condition 1)
/-- ICMP.lt (R100). -/
def execIcmpLt (f : Fields) (s : State) : Host.Outcome State Fault Refusal := laneCompare f s (condition 2)
/-- ICMP.le (R100). -/
def execIcmpLe (f : Fields) (s : State) : Host.Outcome State Fault Refusal := laneCompare f s (condition 3)
/-- ICMP.gt (R100). -/
def execIcmpGt (f : Fields) (s : State) : Host.Outcome State Fault Refusal := laneCompare f s (condition 4)
/-- ICMP.ge (R100). -/
def execIcmpGe (f : Fields) (s : State) : Host.Outcome State Fault Refusal := laneCompare f s (condition 5)
/-- ICMP.ltu (R100). -/
def execIcmpLtu (f : Fields) (s : State) : Host.Outcome State Fault Refusal := laneCompare f s (condition 6)
/-- ICMP.leu (R100). -/
def execIcmpLeu (f : Fields) (s : State) : Host.Outcome State Fault Refusal := laneCompare f s (condition 7)
/-- ICMP.gtu (R100). -/
def execIcmpGtu (f : Fields) (s : State) : Host.Outcome State Fault Refusal := laneCompare f s (condition 8)
/-- ICMP.geu (R100). -/
def execIcmpGeu (f : Fields) (s : State) : Host.Outcome State Fault Refusal := laneCompare f s (condition 9)

end Sys2Proof.Machine
end

