-- ==== Sys2Proof/Machine/Counters.lean ====
section
/-!
DEFINITION. Bounded counters (10 R249-R256): BCINIT, BCDEC, BCINC, BCREAD, and what home does for them.
-/
namespace Sys2Proof.Machine

/-! ## The line at home (R249) -/

/-- Brings a counter line to home: ownership is recalled, and the line is in the slice. Its 192 bytes may lie on two
lines of physical memory. -/
def State.ctrTouch (s : State) (l : Loc) : State :=
  let s := (s.recall l.line).fill l
  let h := l.plus 191
  (s.recall h.line).fill h

/-- Whether any byte of a counter line is poisoned at home (R167, R249). -/
def State.ctrPoisoned (s : State) (l : Loc) : Bool :=
  s.isPoisoned l (192 - l.off) || (l.off != 0 && s.isPoisoned { l.plus 191 with off := 0 } l.off)

/-- What a change of the line at home means to others (R242, R258): copies elsewhere go, monitors are evaluated. [log 37] -/
def State.ctrChanged (s : State) (l : Loc) (core uid : Nat) : State :=
  let lines := if (l.plus 191).line = l.line then [l.line] else [l.line, (l.plus 191).line]
  let s := lines.foldl (fun s k =>
    let s := if l.die == dieOf core then s else s.dropRdc (dieOf core) k
    (s.invalidateSharers k (dieOf core) uid).dropL1 core k) s
  s.evalMonitors l 192

/-- Whether the line is initialised. -/
def State.ctrReady (s : State) (l : Loc) : Bool := s.ctrGet l 0x20 1 == 1

/-- Whether the line passes step 3 of R249 at home. -/
def State.ctrLegal (s : State) (l : Loc) : Bool :=
  s.ctrReady l && (List.range 158).all fun i => s.ctrGet l (0x22 + i) 1 == 0

def State.ctrAdd (s : State) (l : Loc) (n : Nat) : State := s.ctrPut l 0x00 8 ((s.ctrGet l 0x00 8 + n) % 2 ^ 64)

def State.ctrHold (s : State) (l : Loc) (k : Nat) (held : Bool) : State :=
  let h := s.ctrGet l 0x10 16
  if h.testBit k == held then s else s.ctrPut l 0x10 16 (if held then h + 2 ^ k else h - 2 ^ k)

/-- Gives a core an allowance, the most recently used; a 65th returns the least recently used to its home first. -/
def State.setAllowance (s : State) (core : Nat) (l : Loc) (amount : Nat) : State :=
  let others := (s.core core).allowances.filter (·.at_.byte != l.byte)
  let s := if others.length < Config.allowancesPerCore then s
    else match others.getLast? with
      | some a => ((s.ctrTouch a.at_).ctrAdd a.at_ a.amount).ctrHold a.at_ core false |>.dropAllowance core a.at_
      | none => s
  s.updCore core fun c =>
    { c with allowances := { at_ := l, amount := amount } :: c.allowances.filter (·.at_.byte != l.byte) }

/-! ## Operations -/

/-- What home does with a BCDEC request of n by core k (R252), which returns the core's allowance. [log 36] -/
def State.bcMiss (s : State) (l : Loc) (k n uid : Nat) : State × Nat :=
  let s := s.ctrTouch l
  if s.ctrPoisoned l then ((s.dropAllowance k l).useLost k, 0)
  else if !s.ctrReady l then (s.dropAllowance k l, 0)
  else
    let a := (s.allowanceOf k l).getD 0
    let s := ((s.dropAllowance k l).ctrAdd l a).ctrHold l k false
    let s := s.recallWhile l (fun r => r < n) 128
    let r := s.ctrGet l 0x00 8
    if r < n then (s.ctrChanged l k uid, 0)
    else
      let h := popNat (s.ctrGet l 0x10 16) 128
      let g := min (min r (max n (r / (h + 1)))) (n + 0xFFFFFFFF)
      let s := (s.ctrPut l 0x00 8 (r - g)).ctrHold l k true
      ((s.setAllowance k l (g - n)).ctrChanged l k uid, 1)

/-- BCINC of n by core k (R253). -/
def State.bcAdd (s : State) (l : Loc) (k n uid : Nat) : State :=
  match s.allowanceOf k l with
  | some a =>
    let a' := min (a + n) 0xFFFFFFFF
    let s := s.setAllowance k l a'
    if a + n = a' then s else ((s.ctrTouch l).ctrAdd l (a + n - a')).ctrChanged l k uid
  | none =>
    let s := s.ctrTouch l
    if s.ctrPoisoned l || !s.ctrReady l then s else (s.ctrAdd l n).ctrChanged l k uid

/-- BCREAD by core k (R254). -/
def State.bcExact (s : State) (l : Loc) (k uid : Nat) : State × Nat :=
  let s := s.ctrTouch l
  if s.ctrPoisoned l then (s.useLost k, 0)
  else if !s.ctrReady l then (s, 0)
  else
    let s := s.recallWhile l (fun _ => true) 128
    let r := s.ctrGet l 0x00 8
    let s := (s.ctrPut l 0x10 16 0).ctrPut l 0x08 8 r
    (s.ctrChanged l k uid, min r 0xFFFFFFFF)

/-- BCINIT at home, as one step (R250). -/
def State.bcStart (s : State) (l : Loc) (k uid a q : Nat) (members : CoreMask) : State :=
  let s := s.ctrTouch l
  let ms := (List.range Config.cores).filter fun c => members.getLsbD c
  let s := (List.range Config.cores).foldl (fun s c => s.dropAllowance c l) s
  let s := (s.ctrPut l 0x00 8 a).ctrPut l 0x08 8 ((a + q * ms.length) % 2 ^ 64)
  let s := ((s.ctrPut l 0x10 16 members.toNat).ctrPut l 0x20 1 1).ctrPut l 0x21 159 0
  (ms.foldl (fun s c => s.setAllowance c l q) s).ctrChanged l k uid

/-! ## Performing -/

/-- Whether the core has a miss request outstanding on the line (R256). -/
def State.missOutstanding (s : State) (core : Nat) (l : Loc) : Bool :=
  s.troupes.any fun t => t.core == core && t.ops.any fun o => o.lanes.any fun r =>
    !r.done && r.miss.isSome && (s.loc r.pa r.entry r.psize).byte == l.byte

/-- Whether a counter operation has a result (R251). -/
def MemOp.leavesValue (o : MemOp) : Bool :=
  match o.kind with
  | .bcDec | .bcRead => true
  | _ => false

/-- Ends a lane of a counter operation with its result, which is kept where the instruction waits for it (R167). -/
def State.bcDone (s : State) (uid id : Nat) (lane : Nat) (result : Nat) : State :=
  s.updTroupe uid fun t =>
    match t.op? id with
    | none => t
    | some o =>
      match o.lanes.find? (·.lane == lane) with
      | none => t
      | some r =>
        (if o.leavesValue && !o.sync then t.deliver o lane 1 result else t).putOp
          (o.setLane { r with done := true, data := if o.sync then BitVec.ofNat 128 result else r.data })

/-- Ends a lane of a counter operation that meets a poisoned line at home, where its instruction waits for it (R167). -/
def State.bcPoisoned (s : State) (uid : Nat) (o : MemOp) (r : LaneReq) : State :=
  s.updTroupe uid fun t => t.putOp (o.setLane { r with done := true, status := cPoisonConsumed })

/-- Whether that happens to a lane now. -/
def State.bcTraps (s : State) (o : MemOp) (l : Loc) : Bool := o.sync && s.ctrPoisoned l

/-- One lane of a counter operation (R252-R254): a BCDEC that misses sends its request home. -/
def State.performCounter (s : State) (t : Troupe) (o : MemOp) (r : LaneReq) : State :=
  let l := s.loc r.pa r.entry r.psize
  let n := r.data.toNat
  let k := t.core
  if r.miss.isSome || s.missOutstanding k l then s
  else
    match o.kind with
    | .bcDec =>
      if n = 0 then s.bcDone t.uid o.id r.lane 1
      else
        match s.allowanceOf k l with
        | some a =>
          if a ≥ n then (s.setAllowance k l (a - n)).bcDone t.uid o.id r.lane 1
          else s.updTroupe t.uid fun t => t.putOp (o.setLane { r with miss := some a })
        | none => s.updTroupe t.uid fun t => t.putOp (o.setLane { r with miss := some 0 })
    | .bcInc =>
      let s := if (s.allowanceOf k l).isSome then s else s.countReq t r
      (s.bcAdd l k n t.uid).bcDone t.uid o.id r.lane 0
    | .bcRead =>
      if s.bcTraps o l then s.bcPoisoned t.uid o r
      else
        let (s, v) := (s.countReq t r).bcExact l k t.uid
        ((s.dropOlder k l.line).dropOlder k (l.plus 191).line).bcDone t.uid o.id r.lane v
    | .bcInit members =>
      ((s.countReq t r).bcStart l k t.uid n r.cmp.toNat members).bcDone t.uid o.id r.lane 0
    | _ => s

def MemOp.isCounter (o : MemOp) : Bool :=
  match o.kind with
  | .bcDec | .bcInc | .bcRead | .bcInit _ => true
  | _ => false

/-- ATOMIC_PERFORM (R172): one access of an atomic, or one lane of a counter operation (R251); or all that are left, in
lane order. -/
def execAtomicPerform (uid id : Nat) (lane : Option Nat) (s : State) : Host.Outcome State Fault Refusal :=
  match (s.troupe? uid).bind (·.op? id) with
  | none => .next s
  | some o =>
    match o.kind with
    | .atomG | .atomSp => .next (s.performLanes uid id lane State.performAtomic)
    | _ => if o.isCounter then .next (s.performLanes uid id lane State.performCounter) else .next s

/-- BC_MISS_REQUEST (R252): home handles the request of a lane that missed. [log 36] -/
def execBcMissRequest (uid id lane : Nat) (s : State) : Host.Outcome State Fault Refusal :=
  match s.troupe? uid with
  | none => .next s
  | some t =>
    match (t.op? id).bind fun o => (o.lanes.find? fun r => r.lane == lane && r.miss.isSome && !r.done).map fun r => (o, r) with
    | none => .next s
    | some (o, r) =>
      let l := s.loc r.pa r.entry r.psize
      if s.bcTraps o l then .next (s.bcPoisoned uid o r)
      else
        let (s, v) := (s.countReq t r).bcMiss l t.core r.data.toNat uid
        .next (s.bcDone uid id lane v)

/-! ## Issue -/

/-- What the lanes of a counter operation come to (R249): each lane raises its first code, and the lowest traps (R91);
a page fault parks first. -/
def State.counterLanes (s : State) (t : Troupe) (lanes : List Nat) (check3 : Bool) (addr : Nat → Nat) :
    State × Lanes :=
  let (s, rs) := lanes.foldl (fun (s, rs) i =>
    if addr i % 192 != 0 then (s, rs ++ [(i, Option.none)])
    else
      let (s, r) := s.translateFor t (addr i) .rw
      (s, rs ++ [(i, some r)])) ((s, []) : State × List (Nat × Option Tr))
  let (s, tokens) := rs.foldl (fun (s, ks) (i, r) =>
    match r with
    | some .report => s.parkLane t (addr i) false ks
    | some .migrate => s.parkLane t (addr i) true ks
    | _ => (s, ks)) (s, [])
  if !tokens.isEmpty then (s, .wait tokens)
  else
    let raised := rs.filterMap fun (i, r) =>
      let a := BitVec.ofNat 64 (addr i)
      match r with
      | Option.none => some (i, cMisaligned, a)
      | some .denied => some (i, cPermission, a)
      | some (.ok pa e psize) =>
        let l := s.loc pa e psize
        if check3 && s.ctrPoisoned l then (if s.poisonTraps t then some (i, cPoisonConsumed, a) else none)
        else if check3 && (s.allowanceOf t.core l).isNone && !(s.ctrTouch l).ctrLegal l then some (i, cIllegalOperand, 0)
        else none
      | some _ => none
    match lowestTrap raised with
    | some (c, a, m) => (s, .trap c a m)
    | none =>
      (s, .go (rs.filterMap fun (i, r) => match r with
        | some (.ok pa e psize) => some (newReq i (addr i) pa e psize)
        | _ => none))

def counterShape (f : Fields) (dst : Dst) (b : Use) : Shape :=
  { dst := dst, long := true, a := .w32, b := b, ownXs := true, ownImm := true, immMask := 0x7FFFF,
    badField := Fields.xs f % 2 = 1 }

/-- Issues a counter operation of the lane set (R249, R251). -/
def counterIssue (f : Fields) (s : State) (t : Troupe) (kind : MemKind) (ld st : Bool) : Out :=
  awaitAccess s t <| match countFull s t ld st with
  | some p => .stay s t p
  | none =>
    let addr (i : Nat) : Nat := globalAddr (t.spair (Fields.xs f)) (t.a32 f i) (Fields.disp f 19)
    match s.counterLanes t t.lanes true addr with
    | (s', .trap c a m) => .trap s' (BitVec.ofNat 32 c) a m
    | (s', .wait ks) => .stay s' t (.fault ks)
    | (s', .go reqs) =>
      let reqs := reqs.map fun r => { r with data := (t.b32 f r.lane).setWidth 128 }
      let leaves := match kind with | .bcInc => false | _ => true
      let o : MemOp :=
        { id := t.nextOp, kind := kind, sub := 0, acquire := false, release := false, scope := 0,
          dest := if f.n || !leaves then none else some f.d.toNat, latch := t.pos.kLane % 4, act := t.actSerial,
          raisesLd := ld, raisesSt := st, lanes := reqs, samples := [], flags := 0, released := none,
          since := s'.clock.toNat, sync := ld && s'.poisonTraps t }
      let latch := if leaves then laneLatchOf t.act fun _ => 0 else .none
      if reqs.isEmpty then .done s' t latch else sendOp s' t o latch

/-- BCDEC (R251, R252). -/
def execBcdec (f : Fields) (s : State) : Host.Outcome State Fault Refusal :=
  issue false (counterShape f .lane .w32) f s fun t => counterIssue f s t .bcDec (!f.n) true
/-- BCINC (R251, R253). -/
def execBcinc (f : Fields) (s : State) : Host.Outcome State Fault Refusal :=
  issue false (counterShape f .none .w32) f s fun t => counterIssue f s t .bcInc false true
/-- BCREAD (R251, R254). -/
def execBcread (f : Fields) (s : State) : Host.Outcome State Fault Refusal :=
  issue false (counterShape f .lane .no) f s fun t => counterIssue f s t .bcRead true false

/-- BCINIT (R250). -/
def execBcinit (f : Fields) (s : State) : Host.Outcome State Fault Refusal :=
  let g := Fields.x f 18 18 == 1
  let gs := Fields.x f 17 15
  issue true { dst := .none, long := true, a := .w32, b := if g then .w32 else .no, ownXs := true, ownImm := true,
               immMask := 0x7FFFF, badModifier := !g && gs != 0, badField := Fields.xs f % 2 = 1 } f s fun t =>
    match countFull s t false true with
    | some p => .stay s t p
    | none =>
      let addr := globalAddr (t.spair (Fields.xs f)) 0 (Fields.disp f 15)
      match s.counterLanes t [0] false fun _ => addr with
      | (s', .trap c a _) => Out.code s' c a
      | (s', .wait ks) => .stay s' t (.fault ks)
      | (s', .go reqs) =>
        let members : CoreMask := if g then
            (match s'.company? t.cid with
             | some k => k.groups.getD gs 0
             | none => 0)
          else 0
        let reqs := reqs.map fun r =>
          { r with data := (t.ua f).setWidth 128, cmp := if g then (t.ub f).setWidth 64 else 0 }
        .done s' (t.addOp
          { id := t.nextOp, kind := .bcInit members, sub := 0, acquire := false, release := false, scope := 0,
            dest := none, latch := 0, act := t.actSerial, raisesLd := false, raisesSt := true, lanes := reqs,
            samples := [], flags := 0, released := none, since := s'.clock.toNat, sync := false }) .none

end Sys2Proof.Machine
end

