-- ==== Sys2Proof/Machine/CrossLane.lean ====
section
/-!
DEFINITION. Cross-lane instructions (04 R115-R121) and XCHG (09 R230-R233).
-/
namespace Sys2Proof.Machine

/-! ## LGET and POLL -/

/-- The shape of LGET: all three sources, X.s the member mask, X.imm free for an im source (R115, R116). -/
def lgetShape (f : Fields) : Shape :=
  { dst := .lane, long := true, a := .w32, b := .w32, c := .w32, ownXs := true, badField := Fields.xs f > 61 }

/-- LGET (R116): `from_` gives the source lane of a lane from its b, if it lies in 0 to 95. -/
def lget (f : Fields) (s : State) (from_ : Nat → Nat → Option Nat) : Host.Outcome State Fault Refusal :=
  issue false (lgetShape f) f s fun t =>
    let members := t.triple (Fields.xs f)
    laneOut s t f fun i =>
      match from_ i ((t.b32 f i).toNat % 128) with
      | some j => if members.getLsbD j then t.a32 f j else t.c32 f i
      | none => t.c32 f i

def inRow (j : Nat) : Option Nat := if j < Config.lanes then some j else none

/-- LGET.at (R116). -/
def execLgetAt (f : Fields) (s : State) : Host.Outcome State Fault Refusal := lget f s fun _ b => inRow b
/-- LGET.flip (R116). -/
def execLgetFlip (f : Fields) (s : State) : Host.Outcome State Fault Refusal := lget f s fun i b => inRow (i ^^^ b)
/-- LGET.rot (R116). -/
def execLgetRot (f : Fields) (s : State) : Host.Outcome State Fault Refusal := lget f s fun i b => inRow ((i + b) % 96)
/-- LGET.sh (R116): b[6:0] is a signed count. -/
def execLgetSh (f : Fields) (s : State) : Host.Outcome State Fault Refusal :=
  lget f s fun i b =>
    if b < 64 then inRow (i + b) else if 128 - b ≤ i then inRow (i - (128 - b)) else none

/-- Votes of R117. -/
def vote (t : Troupe) (f : Fields) (j : Nat) : Bool :=
  (t.triple (Fields.xs f)).getLsbD j && t.active j && !t.exited.getLsbD j && t.a32 f j != 0

def pollShape (dst : Dst) (f : Fields) : Shape :=
  { dst := dst, long := true, a := .w32, ownXs := true, badField := Fields.xs f > 61 }

/-- POLL.some (R117). -/
def execPollSome (f : Fields) (s : State) : Host.Outcome State Fault Refusal :=
  issue false (pollShape .scalar f) f s fun t =>
    laneScalarOut s t f (BitVec.ofNat 32 ((List.range Config.lanes).filter (vote t f)).length)
/-- POLL.every (R117). -/
def execPollEvery (f : Fields) (s : State) : Host.Outcome State Fault Refusal :=
  issue false (pollShape .scalar f) f s fun t =>
    let members := t.triple (Fields.xs f)
    let all := (List.range Config.lanes).all fun j => !members.getLsbD j || vote t f j
    laneScalarOut s t f (if all then 1 else 0)
/-- POLL.map (R117). -/
def execPollMap (f : Fields) (s : State) : Host.Outcome State Fault Refusal :=
  issue false (pollShape .triple f) f s fun t => laneTripleOut s t f (vote t f)

/-! ## Reductions and prefixes -/

/-- REDF (R118). -/
def execRedf (f : Fields) (s : State) : Host.Outcome State Fault Refusal :=
  let op := Fields.x f 2 0
  issue false { dst := .scalar, long := true, a := .w32, ownImm := true, immMask := 0x7, zeroXs := true,
                badModifier := op > 2 } f s fun t =>
    let xs : List Flagged := (List.range Config.lanes).map fun i =>
      if t.active i then ⟨t.a32 f i, 0⟩ else ⟨fpIdentity op, 0⟩
    let r := tree96 (match op with | 0 => flaggedAdd | 1 => flaggedMinMax false | _ => flaggedMinMax true) ⟨0, 0⟩ xs
    laneScalarOut s (t.raise r.flags) f r.w

/-- REDI (R118). -/
def execRedi (f : Fields) (s : State) : Host.Outcome State Fault Refusal :=
  let op := Fields.x f 2 0
  issue false { dst := .scalar, long := true, a := .w32, ownImm := true, immMask := 0x7, zeroXs := true,
                badModifier := op > 6 } f s fun t =>
    let xs := (List.range Config.lanes).map fun i => if t.active i then t.a32 f i else intIdentity op
    laneScalarOut s t f (tree96 (intOp op) 0 xs)

/-- The inclusive prefix of R119 over 96 elements. [log 42] -/
def prefix96 {α : Type} (op : α → α → α) (z : α) (xs : List α) : List α :=
  let q (j : Nat) := ks32 op [1, 2, 4, 8, 16] ((xs.drop (32 * j)).take 32)
  let t0 := (q 0).getD 31 z
  let t01 := op t0 ((q 1).getD 31 z)
  q 0 ++ (q 1).map (op t0) ++ (q 2).map (op t01)

/-- PFXF.add (R119): each active lane raises the flags of the adds that form its sum (R13). [log 42] -/
def execPfxfAdd (f : Fields) (s : State) : Host.Outcome State Fault Refusal :=
  issue false { dst := .lane, a := .w32 } f s fun t =>
    let xs : List Flagged := (List.range Config.lanes).map fun i =>
      if t.active i then ⟨t.a32 f i, 0⟩ else ⟨fpIdentity 0, 0⟩
    let ys := prefix96 flaggedAdd ⟨0, 0⟩ xs
    fpOut s t f fun i => ⟨(ys.getD i ⟨0, 0⟩).w.toNat, (ys.getD i ⟨0, 0⟩).flags⟩

/-- PFXI.add (R119). -/
def execPfxiAdd (f : Fields) (s : State) : Host.Outcome State Fault Refusal :=
  issue false { dst := .lane, a := .w32 } f s fun t =>
    let ys := prefix96 (· + ·) 0 ((List.range Config.lanes).map fun i => if t.active i then t.a32 f i else 0)
    laneOut s t f fun i => ys.getD i 0

/-! ## Neighbour reads (R120, R121, R234) -/

/-- NBL and NBR: the edge lane waits for the neighbour's publication of the same number; a company edge that is not
linked reads 0 at once. -/
def neighbourRead (f : Fields) (s : State) (left : Bool) : Host.Outcome State Fault Refusal :=
  issue false { dst := .lane, a := .w32 } f s fun t =>
    if !s.leadOk t then .stay s t .lead
    else
      let edge := if left then 0 else 95
      let value (i : Nat) : Word :=
        if i = edge then 0 else if left then t.a32 f (i - 1) else t.a32 f (i + 1)
      let s' := s.publish t (t.a32 f 0) (t.a32 f 95)
      match s.neighbourWid? t left with
      | none => laneOut s' { t with xseq := t.xseq + 1 } f value
      | some _ =>
        if t.xc ≥ 63 then .stay s t (.wait 0x3F3E3F3F)
        else
          let e : PendingEdge :=
            { n := t.xseq, left := left, active := t.active edge, dest := if f.n then none else some f.d.toNat,
              latch := t.pos.kLane % 4, act := t.actSerial }
          let rest := t.act &&& ~~~BitVec.ofNat 96 (2 ^ edge)
          let t' := { t with xseq := t.xseq + 1, xc := t.xc + 1, edges := t.edges ++ [e] }
          .done s' (if f.n then t' else t'.setV f.d.toNat rest value)
            (laneLatchOf t.act fun i => (value i).setWidth 64)

/-- NBL (R120). -/
def execNbl (f : Fields) (s : State) : Host.Outcome State Fault Refusal := neighbourRead f s true
/-- NBR (R120). -/
def execNbr (f : Fields) (s : State) : Host.Outcome State Fault Refusal := neighbourRead f s false

/-- The value a pending edge read can take now: the publication of its number, or 0 from a neighbour that retired
without it (R121, R234). -/
def State.edgeValue? (s : State) (t : Troupe) (e : PendingEdge) : Option Word :=
  match s.neighbourWid? t e.left with
  | none => some 0
  | some w =>
    match s.publication? t.lid w e.n with
    | some p => some (if e.left then p.lane95 else p.lane0)
    | none => if s.widRetired t.lid w then some 0 else none

/-- EDGE_VALUE_ARRIVAL (R121): the edge value of exchange number n arrives at a resident troupe, and xc falls. -/
def execEdgeValueArrival (uid n : Nat) (s : State) : Host.Outcome State Fault Refusal :=
  match s.troupe? uid with
  | none => .next s
  | some t =>
    match t.edges.find? (·.n == n) with
    | none => .next s
    | some e =>
      match if t.resident then s.edgeValue? t e else none with
      | none => .next s
      | some w =>
        let i := if e.left then 0 else 95
        let t1 := if e.active then
            (match e.dest with | some d => t.setVLane d i w | none => t).latchLane e.act e.latch i (w.setWidth 64)
          else t
        .next (s.setTroupe { t1 with edges := t.edges.filter (·.n != n), xc := t.xc - 1 })

/-! ## XCHG -/

/-- XCHG (R230-R232). A wid that names no other troupe of the launch makes every active lane raise ILLEGAL-OPERAND;
with no active lane there is then nothing to exchange. [log 44] -/
def xchgIssue (f : Fields) (s : State) : Host.Outcome State Fault Refusal :=
  issue false { dst := .lane, long := true, a := .w32, ownXs := true, zeroImm := true,
                badField := Fields.xs f % 2 = 1 || (120 ≤ f.a && f.a ≤ 123) } f s fun t =>
    let pw := t.spair (Fields.xs f)
    let issued := match s.launch? t.lid with
      | some l => l.hdr.issues pw
      | none => false
    if (pw == t.wid || !issued) && t.act != 0 then .trap s (BitVec.ofNat 32 cIllegalOperand) 0 t.act
    else if !s.leadOk t then .stay s t .lead
    else
      let s1 := s.publish t (t.a32 f 0) (t.a32 f 95)
      if pw == t.wid || !issued then .done s1 { t with xseq := t.xseq + 1 } (laneLatchOf t.act fun _ => 0)
      else if t.xc ≥ 63 then .stay s t (.wait 0x3F3E3F3F)
      else
        let k := (s.xchgs.filter fun x => x.uid == t.uid && x.partner == pw).length
        let x : Xchg :=
          { uid := t.uid, lid := t.lid, wid := t.wid, partner := pw, k := k, row := rowOf fun i => t.a32 f i,
            active := t.act &&& ~~~t.exited, dest := if f.n then none else some f.d.toNat,
            n := t.xseq, latch := t.pos.kLane % 4, act := t.actSerial, done := false }
        .done { s1 with xchgs := s1.xchgs ++ [x] } { t with xseq := t.xseq + 1, xc := t.xc + 1 }
          (laneLatchOf t.act fun _ => 0)

/-- XCHG: issues, and is matched when it is the second of the two (R232). [log 44] -/
def execXchg (f : Fields) (s : State) : Host.Outcome State Fault Refusal :=
  match xchgIssue f s with
  | .next t => .next t.resolveXchgs
  | o => o

end Sys2Proof.Machine
end

