-- ==== Sys2Proof/Machine/DieEvents.lean ====
section
/-!
DEFINITION. What the home slices do of themselves (10 R241, R242, R244), errors in the die and their outcomes (10 R268,
11 R289, 20 R362), the retirement of a strait (15 R298) and throttling (20 R363).
-/
namespace Sys2Proof.Machine

/-! ## Home slices -/

/-- OWNERSHIP_RECALL (R244, R245). -/
def execOwnershipRecall (line : Nat) (s : State) : Host.Outcome State Fault Refusal := .next (s.recall line)

/-- RDC_INVALIDATION (R242): an invalidation in flight reaches its die, which drops its copy and acknowledges. -/
def execRdcInvalidation (die line : Nat) (s : State) : Host.Outcome State Fault Refusal :=
  match s.invals.find? fun i => i.die == die && i.line == line with
  | none => .next s
  | some i => .next { s.dropRdc die line with invals := s.invals.erase i }

/-- L2_EVICTION (R241): a line of a page of class `cls` is brought in at `pa`, and takes its victim's way. Which lines a
slice brings in of itself the spec does not say. [log 73] -/
def execL2Eviction (pa cls : Nat) (s : State) : Host.Outcome State Fault Refusal :=
  let l := { s.rawLoc pa with cls := cls }
  if l.host || (s.l2Get l.line).isSome then .next s
  else
    match s.l2Victim? l with
    | some v => .next (s.evictLine v)
    | none => .next s

/-! ## Errors -/

def State.countEcc (s : State) (die : Nat) : State := s.updDie die fun d => { d with dnecc := stick d.dnecc 1 }

/-- CORRECTED_ERROR (R268, R289, R362): counted; the monitor table of a slice also wakes its troupes (R259). [log 74] -/
def execCorrectedError (die : Nat) (site : ErrorSite) (s : State) : Host.Outcome State Fault Refusal :=
  match site with
  | .homeL2 | .rdc _ | .tlb _ | .counterLine | .directory | .summary => .next (s.countEcc die)
  | .monitor slice =>
    let s := s.countEcc die
    let mine (m : Monitor) : Bool := l2Slice (lineNo (m.pa / 192)) == slice
    let ms := (s.die die).monitors.filter mine
    .next (ms.foldl (fun s m => s.wakeMonitor m.uid)
      (s.updDie die fun d => { d with monitors := d.monitors.filter fun m => !mine m }))
  | .core => .next (s.updDie die fun d => { d with errcore := stick d.errcore 1 })
  | .matrix => .next (s.updDie die fun d => { d with errmat := stick d.errmat 1 })
  | .memorySide | .stringLine => .next (s.updDie die fun d => { d with errmsc := stick d.errmsc 1 })
  | .hbm => .next (s.updDie die fun d => { d with errhbm := stick d.errhbm 1 })

/-- The registered region, and the offset in its directory, of a physical byte. -/
def State.directoryAt? (s : State) (pa : Nat) : Option (Nat × Region × Nat) :=
  let die := s.homeDie pa
  (s.die die).regions.findSome? fun g =>
    match pageVirt? g.dmap pa with
    | some va => if g.r.dbase ≤ va ∧ va < g.r.dbase + g.r.dsize then some (die, g, va - g.r.dbase) else none
    | none => none

/-- A directory line is lost (R289): what stood in it is a free value, and every entry it held is marked stale,
with SWM at or below a superblock it held. The summary line is poisoned, so that STATE is taken as 0x02, and so is the journal
image line, which no repair rebuilds. [log 75] -/
def State.loseDirectory (s : State) (g : Region) (off : Nat) : State :=
  let base := off / 192 * 192
  let bytes := (List.range 192).map fun i => g.dirPa (base + i)
  if base < 384 then
    let fresh := !bytes.any s.poison.contains
    let s : State := { s with poison := s.poison ++ bytes.filter fun b => !s.poison.contains b }
    if fresh then s.updDie g.r.hdie fun d => { d with errpois := stick d.errpois 1 } else s
  else
  let s := (List.range 192).foldl (fun s i =>
    s.sidePut (g.dirPa (base + i)) [BitVec.ofNat 8 (Config.lostValue (s.freeCtr + i))]) s
  let s := { s with freeCtr := s.freeCtr + 192 }
  let meets (a n : Nat) : Bool := a < base + 192 && base < a + n
  let s := (List.range g.r.nb).foldl (fun s b =>
    if meets (g.r.blockOff b) 8 || meets (g.r.superOff (b / 64)) 384 then s.markBlock g b else s) s
  match (List.range g.r.ns).find? fun k => meets (g.r.superOff k) 384 with
  | some k => s.dirPut g oSWM 4 (min (s.dirGet g oSWM 4) k)
  | none => s

/-- A counter line's home fields are lost (R268): its allowances are discarded, and it is poisoned. [log 76] -/
def State.loseCounter (s : State) (l : Loc) : State :=
  let s : State := { s with cores := s.cores.map fun c =>
    { c with allowances := c.allowances.filter (·.at_.byte != l.byte) } }
  (s.poisonLine l).poisonLine (l.plus 191)

/-- Whether a line holds a physical address: its own, or slot 0 of a compressed page's line. -/
def lineHolds (pa line : Nat) : Bool := lineStart line ≤ pa && pa < lineStart line + 192

/-- A whole line at or below the memory-side cache is poisoned, the bytes of a directory apart, and counted where no byte of it
was (R362). -/
def State.poisonAt (s : State) (l : Loc) : State :=
  let l := { l with off := 0 }
  let fresh := (s.badBelow l.line).isEmpty
  let all := (List.range 192).filter fun i => l.cmp.isSome || !s.directoryByte l.die (192 * l.line + i)
  let s := s.poisonBelow l 192 ((s.badBelow l.line) ++ all)
  if fresh && !all.isEmpty then s.updDie l.die fun d => { d with errpois := stick d.errpois 1 } else s

/-- The compressed line that a physical address belongs to at the memory side: dirty there, or in the slot that holds it
(R299, R324). -/
def State.codedLineAt? (s : State) (pa : Nat) : Option Nat :=
  match s.msc.find? fun x => x.coded.isSome && lineHolds pa x.line with
  | some x => some x.line
  | none =>
    (s.coded.find? fun c => c.slot ≤ pa && pa < c.slot + 192 && !(s.msc.any (·.line == compressedKey c.first))
      && (s.metaGet c.first / 4 % 2 == 1) == (c.slot != c.first)).map fun c => compressedKey c.first

/-- The data of a line at the memory side is lost (R289): the directory lines it holds a part of, and its other bytes, which are
poisoned. [log 75] -/
def State.sideLost (s : State) (pa : Nat) : State :=
  let l := s.rawLoc pa
  let s := (((List.range 192).filterMap fun i => s.directoryAt? (192 * l.line + i)).map fun (_, g, off) => (g, off / 192)).eraseDups.foldl
    (fun s (g, k) => s.loseDirectory g (192 * k)) s
  let s := s.poisonAt l
  match s.codedLineAt? pa with
  | some line => s.poisonAt { l with line := line, cmp := some (lineStart line, 0) }
  | none => s

/-- UNCORRECTABLE_ERROR (R268, R289, R362) at the line of `pa`. Errors in the cores lead to CLUSTER_RESET. [log 75, 76] -/
def execUncorrectableError (pa : Nat) (site : ErrorSite) (s : State) : Host.Outcome State Fault Refusal :=
  match site with
  | .homeL2 =>
    match s.l2.find? fun x => lineHolds pa x.line with
    | none => .next s
    | some x =>
      let l := s.lineLoc x
      if !x.dirty then
        .next ((s.l2Put { x with data := s.lineBelow x.line x.cmp, bad := s.badBelow x.line }).countEcc l.die)
      else
        match s.allowanceLine? l.byte 192 with
        | some a => .next (s.loseCounter a)
        | none => .next (s.poisonLine l)
  | .rdc die =>
    if (s.die die).rdc.any fun x => lineHolds pa x.line then
      .next ((s.updDie die fun d => { d with rdc := d.rdc.filter fun x => !lineHolds pa x.line }).countEcc die)
    else .next s
  | .tlb die =>
    .next ((s.dropDieTlbs die fun x => entryFrame x.entry ≤ pa && pa < entryFrame x.entry + x.size).countEcc die)
  | .counterLine =>
    match s.allowanceLine? pa 1 with
    | none => .next (s.poisonLine (s.rawLoc pa))
    | some a => .next (s.loseCounter a)
  | .directory | .summary => if (s.directoryAt? pa).isSome then .next (s.sideLost pa) else .next s
  | .memorySide | .stringLine => .next (s.sideLost pa)
  | .hbm => if s.msc.any fun x => lineHolds pa x.line then .next s else .next (s.sideLost pa)
  | .monitor _ | .core | .matrix => .next s

/-- STRAIT_RETIREMENT (R298): the strait's traffic takes the other path. -/
def execStraitRetirement (edge : Nat) (s : State) : Host.Outcome State Fault Refusal :=
  if edge < 4 && !s.straitsOut.contains edge then .next { s with straitsOut := s.straitsOut ++ [edge] } else .next s

/-! ## Power (R363) -/

/-- POWER_THROTTLE: one millisecond's measurement. Above PWRLIM, or with a junction above its limit, the clock falls by
a sixteenth; below both it rises again. [log 79] -/
def execPowerThrottle (watts celsius : Nat) (hot : Bool) (s : State) : Host.Outcome State Fault Refusal :=
  let b := s.boot
  let lim := b.pwrlim.toNat % 65536
  let clk := b.thrstat.toNat % 32
  let hotWatts := decide (watts > lim)
  let clk' := if hotWatts || hot then max 1 (clk - 1) else if watts < lim then min 16 (clk + 1) else clk
  let flags := if hotWatts || hot then (if hotWatts then 256 else 0) + (if hot then 512 else 0)
    else if clk' = 16 then 0 else bitsOf b.thrstat.toNat 9 8 * 256
  .next { s with boot := { b with
    pwrnow := BitVec.ofNat 32 (celsius % 65536 * 65536 + watts % 65536)
    thrstat := BitVec.ofNat 32 (clk' + flags)
    thrcnt := if clk' < 16 then stick b.thrcnt 1 else b.thrcnt } }

end Sys2Proof.Machine
end

