-- ==== Sys2Proof/Machine/FabricOps.lean ====
section
/-!
DEFINITION. The fabric (19 R346-R355): accesses of peers to this device, the answers that its own operations receive,
barriers across devices, and ports.
-/
namespace Sys2Proof.Machine

/-! ## Peers' accesses (R347) -/

/-- Whether the ports carry Voxgon traffic (R346). [log 104] -/
def State.fabricOpen (s : State) : Bool := s.fabric.fxdevid.toNat ≤ 199999 && s.fabric.fxport != 0

/-- Where a peer's access of one page goes: none when it is refused. -/
def State.peerPlace (s : State) (va : Nat) (write : Bool) : Option (Nat × DWord × Nat) :=
  if s.fabric.fxroot = 0 then none
  else
    match s.walk s.fabric.fxroot.toNat va with
    | .absent => none
    | .leaf e psize =>
      let pa := entryFrame e + va % psize
      let allowed := if write then entryW e && entryPIN e else entryR e && !(entryCAP e && !entryPIN e)
      if allowed && (s.window? pa).isSome && (s.window? (entryFrame e)).isSome then some (pa, e, psize) else none

/-- The pieces of [va, va + n) that lie in one line of 192 bytes of their page. [log 106] -/
def State.peerPieces (s : State) (va n : Nat) (write : Bool) : Nat → Option (List (Nat × Loc × Nat))
  | 0 => some []
  | fuel + 1 =>
    if n = 0 then some []
    else
      match s.peerPlace va write with
      | none => none
      | some (pa, e, psize) =>
        let l := s.loc pa e psize
        let k := min n (min (192 - l.off) (psize - va % psize))
        (s.peerPieces ((va + k) % 2 ^ 56) (n - k) write fuel).map fun rest => (va, l, k) :: rest

/-- The hot-page counter of a page served in place for a peer counts its access (R321, R347). -/
def State.countPeer (s : State) (va : Nat) (write : Bool) : State :=
  match s.peerPlace va write with
  | some (pa, e, psize) => s.countHot s.fabric.fxroot.toNat va pa e psize
  | none => s

/-- Whether a peer's access may be taken: the ports carry it, and it has not been delivered before (R355). -/
def State.takesPeer (s : State) (src tag : Nat) : Bool := s.fabricOpen && !s.fabric.peerSeen.contains (src, tag)

/-- A peer's access is taken, once, and answered. -/
def State.answerPeer (s : State) (src tag : Nat) (o : FabricOut) : State :=
  (s.updFabric fun x => { x with peerSeen := (src, tag) :: x.peerSeen }).sendOut o

/-- This device refuses a peer's access. -/
def State.refusePeer (s : State) (src tag : Nat) : State :=
  (s.updFabric fun x => { x with fxrefuse := stick x.fxrefuse 1 }).answerPeer src tag (.refuse src tag)

/-- Performs a write from outside the package on its pieces; poisoned bytes arrive as zeros in lines marked poisoned. Every
die has seen it before it is answered (R348, R352). -/
def State.peerWrite (s : State) (ps : List (Nat × Loc × Nat)) (bs : List (Byte × Bool)) : State :=
  (ps.foldl (fun (s, bs) (va, l, k) =>
    let part := bs.take k
    let s := (s.countPeer va true).homeWrite l (part.map fun (b, bad) => if bad then 0 else b) 4 0
    (if part.any (·.2) then s.poisonLine l else s, bs.drop k)) (s, bs)).1.settleAll

/-- REMOTE_WRITE_ARRIVAL (R347, R348): a write of a peer is performed at the home slice of each line, or refused. [log 106] -/
def execRemoteWriteArrival (src tag va : Nat) (data : List Byte) (poison : List Bool) (s : State) :
    Host.Outcome State Fault Refusal :=
  if !s.takesPeer src tag then .next s
  else
    match s.peerPieces (va % 2 ^ 56) data.length true (data.length + 1) with
    | none => .next (s.refusePeer src tag)
    | some ps =>
      if ps.any fun (_, l, k) => s.sideHeld l k then .next s
      else .next ((s.peerWrite ps (data.zipIdx.map fun (b, i) => (b, poison.getD i false))).answerPeer src tag (.ack src tag))

/-- REMOTE_READ_REQUEST (R347, R348): a read of a peer is answered, or refused. -/
def execRemoteReadRequest (src tag va len : Nat) (s : State) : Host.Outcome State Fault Refusal :=
  if !s.takesPeer src tag then .next s
  else
    match s.peerPieces (va % 2 ^ 56) len false (len + 1) with
    | none => .next (s.refusePeer src tag)
    | some ps =>
      if ps.any fun (_, l, k) => s.sideHeld l k then .next s
      else
        let (s, bs, bad) := ps.foldl (fun (s, bs, bad) (va, l, k) =>
          let marks := (List.range k).map fun i => s.isPoisoned (l.plus i) 1
          let (s, b, _) := (s.countPeer va false).engRead l k
          (s, bs ++ b, bad ++ marks)) (s, [], [])
        .next (s.answerPeer src tag (.readReply src tag va bs bad))

/-- Whether a request of R349 is well formed: no reserved bit, and its addresses aligned. [log 105] -/
def requestOk (r : AtomicRequest) : Bool :=
  let opc := r.opc.toNat
  let n := if opc ≥ 13 then 8 else 4
  r.reserved == 0 && r.tva.toNat % n == 0 && r.rva.toNat % 8 == 0 && (opc == 9 || opc == 15 || r.cmpd == 0)

/-- REMOTE_ATOMIC_REQUEST (R350): one atomic access at home, after every earlier remote write has reached every die; its old
value is sent to RVA, or it is acknowledged when RVA is 0. [log 105] -/
def execRemoteAtomicRequest (src tag : Nat) (req : AtomicRequest) (s : State) : Host.Outcome State Fault Refusal :=
  if !s.takesPeer src tag then .next s
  else
    let opc := req.opc.toNat
    let n := if opc ≥ 13 then 8 else 4
    match s.peerPlace req.tva.toNat true with
    | none => .next (s.refusePeer src tag)
    | some (pa, e, psize) =>
      if !requestOk req then .next (s.refusePeer src tag)
      else
        let l := s.loc pa e psize
        if s.sideHeld l n then .next s
        else
          let s := (s.countPeer req.tva.toNat true).settleAll
          let bad := s.isPoisoned l n
          let lost := Config.lostValue s.freeCtr % 256 ^ n
          let s := if bad then { s with freeCtr := s.freeCtr + 1 } else s
          let (s, bs) := ((s.recall l.line).recallAllowances l n).homeRead l n
          let old := if bad then lost else leNat bs
          let (new, _) := atomicNew opc old (req.opnd.toNat % 256 ^ n) (req.cmpd.toNat % 256 ^ n)
          let s := (s.homeWrite l (leBytes n new) 4 0).settleAll
          if req.rva = 0 then .next (s.answerPeer src tag (.ack src tag))
          else .next (s.answerPeer src tag (.atomicReply src tag req.rva.toNat (if bad then 0 else BitVec.ofNat 64 old)))

/-! ## Answers to this device's operations (R348, R350, R355) -/

/-- Whether a packet belongs to an operation of this device. -/
def FabricOut.ofOp (o : FabricOut) (cid id : Nat) : Bool :=
  match o.sender? with
  | some (_, c, i) => c == cid && i == id
  | none => false

/-- Whether a packet carries or asks for the part of its operation that starts at `off`. -/
def FabricOut.startsAt (o : FabricOut) (off : Nat) : Bool :=
  match o with
  | .write _ _ _ a _ _ _ => a == off
  | .readRequest _ _ _ a _ _ => a == off
  | .atomic _ _ _ _ => true
  | _ => false

/-- Packets that are no longer under way leave. -/
def State.unsend (s : State) (gone : FabricOut → Bool) : State :=
  s.updFabric fun x => { x with out := x.out.filter fun o => !gone o.msg }

/-- An operation fails in the fabric: it completes with a fault mark, and FXFAIL rises. -/
def State.failRemote (s : State) (cid : Nat) (o : EngOp) : State :=
  ((s.unsend fun m => m.ofOp cid o.id).setOp cid (o.finish true)).updFabric fun x => { x with fxfail := stick x.fxfail 1 }

/-- A range sent is answered; the operation completes when nothing is left. -/
def EngOp.answered (o : EngOp) (off len : Nat) : EngOp :=
  let o := { o with sent := o.sent.erase (off, len), parked := none }
  if o.sent.isEmpty && o.todo.isEmpty then o.finish false else o

def State.answerPart (s : State) (cid : Nat) (o : EngOp) (off len : Nat) : State :=
  (s.unsend fun m => m.ofOp cid o.id && m.startsAt off).setOp cid (o.answered off len)

/-- The atomic request that an operation has sent. -/
def State.sentRequest? (s : State) (cid id : Nat) : Option AtomicRequest :=
  s.fabric.out.findSome? fun o => match o.msg with
    | .atomic _ c i req => if c == cid && i == id then some req else none
    | _ => none

/-- The bytes of a read's reply go to their destination; none when they must wait for a page or an edit. -/
def State.takeReply (s : State) (cid : Nat) (o : EngOp) (off : Nat) (data : List Byte) (poison : List Bool) :
    Option State × State :=
  match o.kind, s.engCtx? cid o with
  | .cpy dsp _ stg dst _ _ (some (false, _)) _, some x =>
    if o.done || !o.sent.contains (off, data.length) then (some s, s)
    else
      let put (s : State) (j : Nat) : Moved :=
        let bad := poison.getD j false
        s.dstByte x o.id dsp (dst + off + j) (if bad then 0 else data.getD j 0) bad
      let onOp (s : State) (g : EngOp → State) : State :=
        match s.engOp? cid o.id with
        | some o => g o
        | none => s
      match moveLoop put s 0 0 data.length with
      | (_, .ok s) =>
        let s := onOp s fun o => s.answerPart cid o off data.length
        let left := o.todo ++ o.sent.erase (off, data.length)
        (some (if stg then s.stagingFull cid dst off data.length left else s), s)
      | (_, .park s token) => (none, onOp s fun o => s.setOp cid { o with parked := some token })
      | (_, .busy s) => (none, s)
      | (_, .fail s) => (some (onOp s fun o => (s.unsend fun m => m.ofOp cid o.id).setOp cid (o.finish true)), s)
  | _, _ => (some s, s)

/-- The reply of a remote atomic is written to RVA in this device's fabric address space, and ends the operation; or it is
refused, and the operation fails (R350). None while an edit holds its line. [log 107] -/
def State.takeAtomicReply (s : State) (cid : Nat) (o : EngOp) (rva : Nat) (old : DWord) : Option State × State :=
  match s.peerPieces rva 8 true 9 with
  | none => (some ((s.updFabric fun x => { x with fxrefuse := stick x.fxrefuse 1 }).failRemote cid o), s)
  | some ps =>
    if ps.any fun (_, l, k) => s.sideHeld l k then (none, s)
    else (some ((s.peerWrite ps ((leBytes 8 old.toNat).map fun b => (b, false))).answerPart cid o 0 32), s)

/-- Packets have reached their receivers: those that no answer follows leave. -/
def State.markDelivered (s : State) (mine : FabricSent → Bool) : State :=
  let keep (o : FabricSent) : Option FabricSent :=
    if !mine o then some o
    else match o.msg with
      | .write .. | .readRequest .. | .atomic .. => some { o with delivered := true }
      | _ => none
  s.updFabric fun x => { x with out := x.out.filterMap keep }

/-- What an arriving packet brings; none when it must wait, and is taken later. [log 107] -/
def State.takePacket (s : State) (p : Packet) : Option State × State :=
  let drop : State := s.updFabric fun x => { x with fxdrop := stick x.fxdrop 1 }
  match p with
  | .truncated | .malformed => (some drop, s)
  | .misaddressed dev => (some (if dev = s.fabric.fxdevid.toNat then s else drop), s)
  | .delivered seq =>
    (some (s.markDelivered fun o => o.seq == seq), s)
  | .writeAck cid id off len =>
    match s.engOp? cid id with
    | some o => (some (if o.done || !o.sent.contains (off, len) then s else s.answerPart cid o off len), s)
    | none => (some s, s)
  | .atomicAck cid id =>
    match s.engOp? cid id, s.sentRequest? cid id with
    | some o, some req => (some (if o.done || req.rva != 0 then s else s.answerPart cid o 0 32), s)
    | _, _ => (some s, s)
  | .atomicReply cid id old =>
    match s.engOp? cid id, s.sentRequest? cid id with
    | some o, some req =>
      if o.done || req.rva = 0 then (some s, s)
      else (s.markDelivered fun m => m.msg.ofOp cid id && m.msg.startsAt 0).takeAtomicReply cid o req.rva.toNat old
    | _, _ => (some s, s)
  | .refusal cid id =>
    match s.engOp? cid id with
    | some o => (some (if o.done || o.sent.isEmpty then s else s.failRemote cid o), s)
    | none => (some s, s)
  | .readReply cid id off data poison =>
    match s.engOp? cid id with
    | some o => (s.markDelivered fun m => m.msg.ofOp cid id && m.msg.startsAt off).takeReply cid o off data poison
    | none => (some s, s)

/-- PACKET_RECEIVE (R355): a packet, named by its sequence number, is delivered at most once. [log 107] -/
def execPacketReceive (seq : Nat) (p : Packet) (s : State) : Host.Outcome State Fault Refusal :=
  if !s.fabricOpen || s.fabric.seen.contains seq then .next s
  else
    match s.takePacket p with
    | (some s, _) => .next (s.updFabric fun x => { x with seen := seq :: x.seen })
    | (none, s) => .next s

/-- Whether a packet has been under way, and not delivered, for FXTMO microseconds, 0 counting as 1 (R346, R348, R354).
[log 67] -/
def State.overdue (s : State) (o : FabricSent) : Bool :=
  !o.delivered && decide (1750 * max 1 (s.fabric.fxtmo.toNat % 2 ^ 24) ≤ s.clock.toNat - o.since)

/-- Whether a packet of an operation could not be delivered within FXTMO (R348); one that an answer has come for is delivered.
[log 67] -/
def State.expired (s : State) (cid id : Nat) : Bool := s.fabric.out.any fun o => o.msg.ofOp cid id && s.overdue o

/-- FABRIC_TIMEOUT (R348): what an operation has sent could not be delivered within FXTMO. -/
def execFabricTimeout (cid id : Nat) (s : State) : Host.Outcome State Fault Refusal :=
  match s.engOp? cid id with
  | some o => if o.done || o.sent.isEmpty || !s.expired cid id then .next s else .next (s.failRemote cid o)
  | none => .next s

/-! ## Barriers across devices (R353, R354) -/

/-- The phase of a counter as messages carry it. -/
def phaseBit (ph : Bool) : Nat := if ph then 1 else 0

/-- A message of this device to itself about counter k in a phase: an arrival at its own root, with its N, or its own root's
release. -/
def FabricOut.toSelf (o : FabricOut) (own k phase : Nat) (arrival : Option Nat) : Bool :=
  match o with
  | .arrival root k' ph n => arrival == some n && root == own && k' == k && phaseBit ph == phase
  | .release d k' ph => arrival.isNone && d == own && k' == k && ph == phase
  | _ => false

/-- Whether such a message waits. -/
def State.waitsHere (s : State) (k phase : Nat) (arrival : Option Nat) : Bool :=
  s.fabric.out.any fun o => o.msg.toSelf s.fabric.fxdevid.toNat k phase arrival

/-- FABRIC_BARRIER_ARRIVAL (R353): the root counts a device's arrival; at the N-th it releases every device that
arrived. An arrival that FXBARk does not bind is discarded and counted. One from this device itself is one that it has
sent. -/
def execFabricBarrierArrival (src k phase n : Nat) (s : State) : Host.Outcome State Fault Refusal :=
  let own := s.fabric.fxdevid.toNat
  if k ≥ 16 || !(if src = own then s.waitsHere k phase (some n) else s.fabricOpen) then .next s
  else
    let r := s.fabric.fxbar.getD k 0
    let s : State := if src = own then
        s.unsend fun m => m.toSelf own k phase (some n)
      else s
    if !r.getLsbD 63 || bitsOf r.toNat 38 21 != n || bitsOf r.toNat 56 39 != own then
      .next (s.updFabric fun x => { x with fxdrop := stick x.fxdrop 1 })
    else
      let here := match s.fabric.arrivals.find? fun (k', ph, _) => k' == k && ph == phase with
        | some (_, _, ds) => ds
        | none => []
      let here := if here.contains src then here else here ++ [src]
      let others := s.fabric.arrivals.filter fun (k', ph, _) => !(k' == k && ph == phase)
      if here.length < n then .next (s.updFabric fun x => { x with arrivals := others ++ [(k, phase, here)] })
      else
        .next (here.foldl (fun s d => s.sendOut (.release d k phase)) (s.updFabric fun x => { x with arrivals := others }))

/-- FABRIC_BARRIER_RELEASE (R353): the root's release reaches this device, which releases its parked troupes. Where this
device is the root, it is a release that it has sent. [log 101] -/
def execFabricBarrierRelease (k phase : Nat) (s : State) : Host.Outcome State Fault Refusal :=
  let own := s.fabric.fxdevid.toNat
  let root := bitsOf (s.fabric.fxbar.getD k 0).toNat 56 39
  if !(if root = own then s.waitsHere k phase none else s.fabricOpen) then .next s
  else
    let s := s.unsend fun m => m.toSelf own k phase none
    .next (s.rm.launches.foldl (fun s l =>
      let g := l.gbars.getD k ⟨0, false, false⟩
      if g.away && phaseBit g.phase == phase && (s.fabricBarrier? l.queue k).isSome then s.gbarRelease l.lid k
      else s) s)

/-- Whether a packet carries an arrival or a release. -/
def FabricOut.isBarrier (o : FabricOut) : Bool :=
  match o with
  | .arrival .. | .release .. => true
  | _ => false

/-- Barrier messages to other devices that could not be delivered within FXTMO (R354). -/
def State.overdueBarriers (s : State) : List FabricSent :=
  s.fabric.out.filter fun o => o.msg.isBarrier && s.overdue o && !(match o.msg with
    | .arrival root _ _ _ => root == s.fabric.fxdevid.toNat
    | .release d _ _ => d == s.fabric.fxdevid.toNat
    | _ => false)

/-- FABRIC_RESEND (R354, R355): a packet of this device that has not been delivered is sent again: a barrier message that could
not be delivered within FXTMO, whose time then counts anew, or any packet after a failed frame check. -/
def execFabricResend (seq : Nat) (s : State) : Host.Outcome State Fault Refusal :=
  match s.fabric.out.find? fun o => o.seq == seq && !o.delivered with
  | none => .next s
  | some m =>
    let again := m.msg.isBarrier && s.overdue m
    .next (s.updFabric fun x =>
      { x with fxretry := stick x.fxretry 1
               out := x.out.map fun o => if again && o.seq == seq then { o with since := s.clock.toNat } else o })

/-! ## Ports (R346, R355) -/

/-- PORT_DOWN (R355). -/
def execPortDown (port : Nat) (s : State) : Host.Outcome State Fault Refusal :=
  if port ≥ 18 then .next s
  else .next (s.updFabric fun x => { x with fxport := x.fxport &&& ~~~(BitVec.ofNat 32 (2 ^ port)) })

/-- PORT_UP (R346); no port comes up when the fabric was skipped at start (R358). -/
def execPortUp (port : Nat) (s : State) : Host.Outcome State Fault Refusal :=
  if port ≥ 18 || s.recovery || s.boot.bootstat.getLsbD 24 then .next s
  else .next (s.updFabric fun x => { x with fxport := x.fxport ||| BitVec.ofNat 32 (2 ^ port) })

end Sys2Proof.Machine
end

