-- ==== Sys2Proof/Machine/Matrix.lean ====
section
/-!
DEFINITION. The matrix engine (07 R191-R222) and the broadcast bus (09 R227-R229).
-/
namespace Sys2Proof.Machine

/-! ## GANG, THFLUSH, MZERO -/

def countOnes (n : Nat) : Nat → Nat
  | 0 => 0
  | k + 1 => (if n.testBit k then 1 else 0) + countOnes n k

/-- GANG (R214). -/
def execGang (f : Fields) (s : State) : Host.Outcome State Fault Refusal :=
  issue true { dst := .none, long := true, a := .w32, ownImm := true, immMask := 0x7 } f s fun t =>
    let m := (t.ua f).toNat
    let g := Fields.x f 2 0
    match s.launch? t.lid with
    | none => .done s t .none
    | some l =>
      let ones := countOnes m 16
      let ok := if m = 0 then g == 0
        else decide (m < 2 ^ l.hdr.troupes) && decide (m < 2 ^ 16) && decide (2 ≤ ones) && decide (ones ≤ 6)
          && m.testBit (l.hdr.f1 t.wid)
      if !ok then Out.code s cIllegalOperand
      else
        .done s { t with gang := if m = 0 then 0 else BitVec.ofNat 32 (2 ^ 31 + g * 2 ^ 16 + m) } .none

/-- THFLUSH (R201, R149). -/
def execThflush (f : Fields) (s : State) : Host.Outcome State Fault Refusal :=
  issue true { dst := .none, a := .w32 } f s fun t =>
    let h := (t.ua f).toNat
    if h ≥ 2 ^ 20 then Out.code s cIllegalOperand
    else
      match s.launch? t.lid with
      | none => .done s t .none
      | some l =>
        if h ≥ l.hdr.hcount then Out.code s cRecordInvalid (BitVec.ofNat 64 (l.entryVa h))
        else
          match releaseWait s t false with
          | some p => .stay s t p
          | none =>
            .done (s.updCore t.core fun c =>
              { c with recs := c.recs.filter (fun r => !(r.lid == t.lid && r.handle == h)),
                       tileCache := c.tileCache.filter fun x => !(x.lid == t.lid && x.handle == h) }) t .none

/-- MZERO (R219). -/
def execMzero (f : Fields) (s : State) : Host.Outcome State Fault Refusal :=
  issue true { dst := .none, a := .w32 } f s fun t =>
    let k := (t.ua f).toNat
    if k ≥ 8 then Out.code s cIllegalOperand
    else
      let (id, s) := s.fresh
      .done (s.updCompany t.cid fun c => { c with ops := c.ops ++ [newEngOp id none 0 t.uid (.mzero k) []] }) t .none

/-! ## MMA: parameters and checks -/

def mmaTile (f : Fields) : Nat := Fields.x f 2 0
def mmaAsp (f : Fields) : Bool := Fields.x f 3 3 == 1
def mmaBsp (f : Fields) : Bool := Fields.x f 4 4 == 1
def mmaLat (f : Fields) : Nat := Fields.x f 6 5
def mmaBc (f : Fields) : Bool := Fields.x f 7 7 == 1

def mmaShape (f : Fields) : Shape :=
  { dst := .scalarPair, long := true, ownXs := true, ownImm := true, immMask := 0xFF, badModifier := mmaLat f == 3,
    badField := Fields.xs f % 8 != 0 || decide (Fields.xs f > 48) }

/-- A parameter register (R207). -/
def Troupe.param (t : Troupe) (f : Fields) (i : Nat) : Nat := (t.sreg (Fields.xs f + i)).toNat

/-- Whether an operand's two parameters keep their fields: a handle and coordinates, or an offset and a stride. -/
def operandFieldsOk (sp : Bool) (src crd : Nat) : Bool :=
  if sp then decide (src < 2 ^ 21) && decide (crd < 2 ^ 21) else decide (src < 2 ^ 20)

/-- R207 and the window rule of R203 (step 2 of R209). -/
def mmaParamsOk (asp bsp : Bool) (lat : Nat) (p : Nat → Nat) : Bool :=
  let k := p 4 % 2 ^ 17
  let lr := bitsOf (p 4) 26 17
  operandFieldsOk asp (p 0) (p 1) && operandFieldsOk bsp (p 2) (p 3) && decide (32 ≤ k) && decide (k ≤ 65536)
    && p 4 / 2 ^ 27 == 0 && decide (p 5 < 2 ^ 21) && p 5 % 192 == 0 && decide (p 6 < 2 ^ 20)
    && (if lat = 0 then lr == 0 && p 6 == 0 && p 7 == 0
        else decide (32 ≤ lr) && decide (lr ≤ 512) && lr % 32 == 0)
    && (!(asp && bsp && lat == 0) || p 5 == 0)

/-- Step 3 of R209 (R194). -/
def mmaModeOk (bsp bc : Bool) (lat sm : Nat) (rule : Option MmaRule) (k lr : Nat) : Bool :=
  match rule with
  | none => false
  | some r =>
    (lat == 0 || r.latent) && (if lat = 2 then lr else k) % r.multiple == 0 && !(lat == 2 && k % 32 != 0)
      && !(lat == 1 && sm == 1 && bsp && lr % 128 != 0) && !(bc && (bsp || lat != 0))

/-- Bytes of a scratchpad operand's scale array (R196): `sk` 0 none, 1 FP32 per row, 2 FP32 for all rows, 3 E8M0. [log 52] -/
def scaleBytes (sk n : Nat) : Nat :=
  match sk with
  | 1 => 512 * ((n + 127) / 128)
  | 2 => 4 * ((n + 127) / 128)
  | 3 => 128 * ((n + 31) / 32)
  | _ => 0

/-- The byte ranges of a scratchpad operand of 128 rows of n elements. [log 52] -/
def operandSpans (off stride fmt n sk : Nat) : List (Nat × Nat) :=
  ((List.range 128).map fun i => (off + i * stride, packedBytes fmt n))
    ++ (if scaleBytes sk n = 0 then [] else [(off + 128 * stride, scaleBytes sk n)])

/-- The first offset of some ranges that lies outside a scratchpad. -/
def spansOutside (size : Nat) (spans : List (Nat × Nat)) : Option Nat :=
  (spans.filterMap fun (o, n) => rangeOutside size o n).foldl (fun m o => match m with
    | some x => some (min x o)
    | none => some o) none

/-- Kinds of scratchpad scale arrays for A and B (R196). -/
def scaleKindA (sm : Nat) : Nat := if sm = 1 then 1 else if sm = 2 then 3 else 0
def scaleKindB (sm : Nat) : Nat := if sm = 1 then 2 else if sm = 2 then 3 else 0

/-- The sform a record needs for its side (R199). [log 53] -/
def sformA (sm : Nat) : Nat := if sm = 1 then 1 else if sm = 2 then 3 else 0
/-- The scale form that a B record must have. -/
def sformB (sm : Nat) : Nat := if sm = 1 then 2 else if sm = 2 then 3 else 0

/-- What the checks of R209 from step 5 on come to: the operation's arguments, with the record bytes of B; a wait; a
trap. -/
inductive MmaChecked where
  | ok (s : State) (a : MmaArgs)
  | wait (s : State) (p : Park)
  | trap (code : Nat) (taddr : Nat)
  deriving DecidableEq, Repr

/-- R211: whether U's record fits. [log 53] -/
def upProjectionOk (u : Layout) (urt ukt lr k : Nat) : Bool :=
  (u.efmt == cFP32 || u.efmt == cBF16 || u.efmt == cFP16) && u.sform == 0
    && decide (128 * urt + lr ≤ u.rows) && decide (128 * ukt + k ≤ u.ext.getD 0 1)

/-- An operand from its parameters and the records read, of which it takes the first if it is global. -/
def takeOperand (sp : Bool) (src crd : Nat) (rs : List (Option Layout)) : Option (Operand × List (Option Layout)) :=
  if sp then some (.sp src crd, rs)
  else match rs with
    | some r :: rest => some (.glob r (crd % 2 ^ 20) (crd / 2 ^ 20), rest)
    | _ => none

/-- Whether an operand named by a record has the format and scale form of its role (R199). -/
def Operand.roleOk (o : Operand) (fmt sform : Nat) : Bool :=
  match o with
  | .sp _ _ => true
  | .glob r _ _ => r.efmt == fmt && r.sform == sform

/-- Steps 5 to 10 of R209. [log 15, 131] -/
def State.mmaChecks (s : State) (t : Troupe) (f : Fields) : MmaChecked :=
  let p (i : Nat) : Nat := t.param f i
  let asp := mmaAsp f
  let bsp := mmaBsp f
  let lat := mmaLat f
  let sm := bitsOf t.fmt.toNat 13 12
  let af := bitsOf t.fmt.toNat 3 0
  let bf := bitsOf t.fmt.toNat 7 4
  let k := p 4 % 2 ^ 17
  let lr := bitsOf (p 4) 26 17
  let urt := p 7 / 2 ^ 12
  let ukt := p 7 % 2 ^ 12
  let handles := (if asp then [] else [p 0]) ++ (if bsp then [] else [p 2]) ++ (if lat = 0 then [] else [p 6])
  match s.records t [] handles with
  | .wait s q => .wait s q
  | .trap c a => .trap c a
  | .got s rs =>
    match s.firstUnsealed rs with
    | some va => .trap cSealReject va
    | none =>
      let ls := (rs.zip handles).map fun ((_, bs), h) => parseLayout h bs
      let bBytes := if bsp then [] else (rs.drop (if asp then 0 else 1)).headD (0, []) |>.2
      match takeOperand asp (p 0) (p 1) ls with
      | none => .trap cIllegalOperand 0
      | some (a, ls) =>
        match takeOperand bsp (p 2) (p 3) ls with
        | none => .trap cIllegalOperand 0
        | some (b, ls) =>
          let u := ls.headD none
          let uOk := lat == 0 || (match u with | some u => upProjectionOk u urt ukt lr k | none => false)
          if !a.roleOk af (sformA sm) || !(lat == 1 || b.roleOk bf (sformB sm)) || !uOk then .trap cIllegalOperand 0
          else
            let nb := if lat = 0 then k else lr
            let sps := (if asp then [(p 0, p 1, af, k, scaleKindA sm)] else [])
              ++ (if bsp then [(p 2, p 3, bf, nb, scaleKindB sm)] else [])
            let uses := !(asp && bsp && lat == 0)
            let size := match s.company? t.cid with
              | some c => c.size
              | none => 0
            let spans := sps.flatMap fun (o, st, fm, n, sk) => operandSpans o st fm n sk
            match (sps.flatMap fun (o, st, _) => [o, st]).find? (· % 16 != 0) with
            | some x => .trap cMisaligned x
            | none =>
              match (sps.findSome? fun (o, st, fm, n, sk) => spansOutside size (operandSpans o st fm n sk)),
                    (if uses then rangeOutside size (p 5) Config.stagingBytes else none) with
              | some o, _ => .trap cSpadRange o
              | none, some o => .trap cSpadRange o
              | none, none =>
                if uses && spans.any (fun (o, n) => overlaps o n (p 5) Config.stagingBytes) then .trap cIllegalOperand 0
                else
                  .ok s { tile := mmaTile f, af := af, bf := bf, sm := sm, sat := t.fmt.getLsbD 14, a := a, b := b,
                          k := k, lr := lr, lat := lat, u := u, urt := urt, ukt := ukt, stg := p 5,
                          usesWindow := uses, bcast := mmaBc f, p2 := BitVec.ofNat 32 (p 2),
                          p3 := BitVec.ofNat 32 (p 3), brec := bBytes, members := [] }

/-- Accepts an MMA (R208): its number on tl1, and the lines of its window empty (R203). -/
def State.startMma (s : State) (cid uid : Nat) (a : MmaArgs) : DWord × State :=
  s.giveOp cid 1 uid (.mma a) [] (if a.usesWindow then linesOf a.stg Config.stagingBytes else [])

/-- The troupes of a company that a mask names, and whether one of them has retired. -/
def State.gangMembers (s : State) (cid mask : Nat) : List Nat × Bool :=
  match s.company? cid with
  | none => ([], true)
  | some c =>
    let ts := s.troupes.filter fun t => t.cid == cid && !t.retired && (match s.launch? c.lid with
      | some l => mask.testBit (l.hdr.f1 t.wid)
      | none => false)
    (ts.map (·.uid), c.retiredF1.any mask.testBit)

/-- The MMA of a gang member whose own checks have passed enters the rendezvous latch (R215). [log 46, 131] -/
def gangMma (s : State) (t : Troupe) (f : Fields) : Out :=
  let mine : GangEntry :=
    { uid := t.uid, gang := t.gang, words := encode (.mma f), params := (List.range 8).map fun i =>
        BitVec.ofNat 32 (t.param f i) }
  let gangs := match s.company? t.cid with
    | some c => c.gangs ++ [mine]
    | none => [mine]
  let entry? (u : Nat) : Option GangEntry := gangs.find? (·.uid == u)
  let entered := (s.updCompany t.cid fun c => { c with gangs := gangs })
  let others (us : List Nat) : List Nat := us.filter (· != t.uid)
  let leave (s : State) : State := s.updCompany t.cid fun c => { c with gangs := c.gangs.filter (·.uid != t.uid) }
  if (s.gangMembers t.cid mine.mask).2 then
    Out.code (s.gangTrap t.cid (others (s.gangMembers t.cid mine.mask).1) cGangMismatch 0) cGangMismatch
  else
    match gangs.find? fun g =>
      let us := (s.gangMembers t.cid g.mask).1
      us.contains t.uid && us.all fun u => (entry? u).isSome with
    | none => .stay entered t .gang
    | some g =>
      let us := (s.gangMembers t.cid g.mask).1
      let same := us.all fun u => (entry? u).any fun e =>
        e.gang == mine.gang && e.words == mine.words && e.params == mine.params
      if !same then Out.code (leave (entered.gangTrap t.cid (others us) cGangMismatch 0)) cGangMismatch
      else
        match s.mmaChecks t f with
        | .wait s p => .stay s t p
        | .trap c a =>
          Out.code (leave (s.gangTrap t.cid (others us) c (BitVec.ofNat 64 a))) c (BitVec.ofNat 64 a)
        | .ok s a =>
          let (n, s) := s.startMma t.cid t.uid { a with members := us }
          let s := (others us).foldl (fun s u =>
            match s.troupe? u with
            | some o =>
              finishInstr o true (mmaShape f) f (pairOut (s.updCompany t.cid fun c =>
                { c with gangs := c.gangs.filter (·.uid != u) }) { o with mrp := 0 } f n)
            | none => s) s
          pairOut s { t with mrp := 0 } f n

/-- MMA (R206-R210, R213, R215). -/
def execMma (f : Fields) (s : State) : Host.Outcome State Fault Refusal :=
  issue true (mmaShape f) f s fun t =>
    let p (i : Nat) : Nat := t.param f i
    let sm := bitsOf t.fmt.toNat 13 12
    let rule := mmaRule? sm (bitsOf t.fmt.toNat 3 0) (bitsOf t.fmt.toNat 7 4)
    if !mmaParamsOk (mmaAsp f) (mmaBsp f) (mmaLat f) p then Out.code s cIllegalOperand
    else if !mmaModeOk (mmaBsp f) (mmaBc f) (mmaLat f) sm rule (p 4 % 2 ^ 17) (bitsOf (p 4) 26 17) then
      Out.code s cIllegalOperand
    else if t.gang.getLsbD 31 then
      match releaseWait s t true with
      | some q => .stay s t q
      | none => gangMma s t f
    else
      match s.mmaChecks t f with
      | .wait s q => .stay s t q
      | .trap c a => Out.code s c (BitVec.ofNat 64 a)
      | .ok s a => engineIssue f s t (fun s => s.startMma t.cid t.uid a) fun t => { t with mrp := 0 }

/-! ## Operand fetch (R196-R199, R203-R205) -/

/-- Does `n` fetches from `j` up. -/
def fetchMany {α : Type} (step : State → Nat → EngResult α) (s : State) (j : Nat) (got : List α) :
    Nat → Except Moved (State × List α)
  | 0 => .ok (s, got.reverse)
  | n + 1 =>
    match step s j with
    | .ok (s, x) => fetchMany step s (j + 1) (x :: got) n
    | .error m => .error m

def Operand.fmt (o : Operand) (f : Nat) : Nat :=
  match o with
  | .sp _ _ => f
  | .glob r _ _ => r.efmt

/-- The code of element k of a row where bytes `bs` were stored into the staging window: each byte is the operand's or a
stored one (R203). [log 49] -/
def mixedCode (bs : List Byte) (f k n code : Nat) : Nat :=
  let w := elemBytes f
  if w = 1 then match bs[Config.windowPick n]? with
    | some b => elemCode f k [b]
    | none => code
  else leNat ((leBytes w code).zipIdx.map fun (b, i) => bs.getD (Config.windowPick (n + i)) b)

/-- A row of global element codes as the engine reads it from the staging window of the MMA at its company's head. [log 49] -/
def State.fromWindow (s : State) (cid f : Nat) (codes : List Nat) : State × List Nat :=
  match ((s.company? cid).bind Company.matrixHead?).map (·.vector) with
  | some (b :: bs) =>
    ({ s with freeCtr := s.freeCtr + 4 * codes.length },
     codes.zipIdx.map fun (c, k) => mixedCode (b :: bs) f k (s.freeCtr + 4 * k) c)
  | _ => (s, codes)

/-- Row i of an operand of rows of n elements; `f` and `sk` are a scratchpad operand's format and scale array. [log 52] -/
def State.operandRow (s : State) (x : EngCtx) (o : Operand) (f n sk i : Nat) : Except Moved (State × OpRow) := do
  match o with
  | .sp off stride =>
    let (s, bs, bad) ← s.srcBytes x true (off + i * stride) (packedBytes f n)
    let codes := (List.range n).map fun k => elemCode f k ((bs.drop (elemOff f k)).take (elemBytes f))
    let nb := if sk = 3 then (n + 31) / 32 else if sk = 0 then 0 else (n + 127) / 128
    let w := if sk = 3 then 1 else 4
    let at_ := off + 128 * stride + (if sk = 2 then 0 else w * nb * i)
    let (s, sc, bad') ← s.srcBytes x true at_ (w * nb)
    return (s, { codes := codes, scales := (List.range nb).map fun b => leNat ((sc.drop (w * b)).take w),
                 block := if sk = 3 then 32 else 128, bad := bad || bad' })
  | .glob r rt kt =>
    let q := 128 * rt + i
    let (s, es) ← fetchMany (fun s k => s.readElem x r q (128 * kt + k)) s 0 [] n
    let blk := if r.sform = 3 then 32 else 128
    let nb := if r.sform = 0 then 0 else (n + blk - 1) / blk
    let (s, sc) ← fetchMany (fun s b => s.readScale x r q (128 * kt + blk * b)) s 0 [] nb
    let (s, codes) := s.fromWindow x.cid r.efmt (es.map (·.1))
    return (s, { codes := codes, scales := sc.map (·.1), block := blk,
                 bad := es.any (·.2) || sc.any (·.2) })

/-- A row as the engine takes it. -/
def OpRow.engRow (r : OpRow) (f : Nat) : EngRow := ⟨r.codes.map fun c => decodeElem f c, r.scales⟩

/-- A row as the latent stage decodes it, with its flags (R211, R23, R24). [log 53] -/
def OpRow.stageRow (r : OpRow) (f : Nat) : List Val × Flags :=
  if r.scales.isEmpty then (r.codes.map fun c => decodeElem f c, 0)
  else
    let rs := r.codes.zipIdx.map fun (c, k) =>
      let sc := r.scales.getD (k / r.block) 0
      if r.block = 32 then rne32 (mxDecode f sc c) else fp32.finish ((decodeElem f c).mul (fp32.decode sc))
    (rs.map fun y => fp32.decode y.code, allFlags rs)

/-- The rows that feed one side of the engine, with flags and whether poisoned bytes were read. -/
structure Side where
  rows : List EngRow
  flags : Flags
  bad : Bool
  deriving DecidableEq, Repr

def State.upProjection (s : State) (x : EngCtx) (a : MmaArgs) :
    Except Moved (State × List (List Val) × Bool) := do
  match a.u with
  | none => return (s, [], false)
  | some u =>
    let (s, rs) ← fetchMany (fun s l => s.operandRow x (.glob u a.urt a.ukt) u.efmt a.k 0 l) s 0 [] a.lr
    return (s, rs.map fun r => r.codes.map fun c => decodeElem u.efmt c, rs.any (·.bad))

/-- Rows of sums of every pair of rows. -/
def latSums (xs ys : List (List Val)) : List (List Val) × Flags :=
  let rs := xs.map fun x => ys.map fun y => latSum x y
  (rs.map fun r => r.map fun y => fp32.decode y.code, rs.foldl (fun f r => f ||| allFlags r) 0)

/-- The columns of a matrix of n columns. -/
def columnsOf (n : Nat) (rows : List (List Val)) : List (List Val) :=
  (List.range n).map fun k => rows.map fun r => r.getD k (.fin false 0 0)

/-- The effective A operand: 128 rows. [log 124] -/
def State.sideA (s : State) (x : EngCtx) (a : MmaArgs) : Except Moved (State × Side) := do
  let (s, rs) ← fetchMany (fun s i => s.operandRow x a.a a.af a.k (scaleKindA a.sm) i) s 0 [] 128
  let bad := rs.any (·.bad)
  if a.lat = 2 then
    let (s, us, bad') ← s.upProjection x a
    let st := rs.map fun r => r.stageRow (a.a.fmt a.af)
    let (sums, fl) := latSums (st.map (·.1)) us
    let (rows, fl') := quantRows a.af a.sm a.sat false sums
    return (s, { rows := rows, flags := st.foldl (fun f r => f ||| r.2) (fl ||| fl'), bad := bad || bad' })
  else
    return (s, { rows := rs.map fun r => r.engRow a.af, flags := 0, bad := bad })

/-- The 16 rows of B of a band (R208), when no latent stage feeds B. -/
def State.bandRows (s : State) (x : EngCtx) (a : MmaArgs) (band : Nat) : Except Moved (State × List OpRow) :=
  fetchMany (fun s i => s.operandRow x a.b a.bf (if a.lat = 0 then a.k else a.lr) (scaleKindB a.sm) i) s (16 * band) [] 16

/-- The 16 rows of the effective B operand that a band takes; `got` are rows that the other engine of a pair has fetched
for both (R229). [log 124] -/
def State.sideB (s : State) (x : EngCtx) (a : MmaArgs) (band : Nat) (got : List OpRow) : Except Moved (State × Side) := do
  let n := if a.lat = 0 then a.k else a.lr
  if a.lat = 1 then
    let (s, rs) ← fetchMany (fun s i => s.operandRow x a.b a.bf n (scaleKindB a.sm) i) s 0 [] 128
    let (s, us, bad) ← s.upProjection x a
    let st := rs.map fun r => r.stageRow (a.b.fmt a.bf)
    let (sums, fl) := latSums (st.map (·.1)) (columnsOf a.k us)
    let (rows, fl') := quantRows a.bf a.sm a.sat true sums
    return (s, { rows := (rows.drop (16 * band)).take 16, flags := st.foldl (fun f r => f ||| r.2) (fl ||| fl'),
                 bad := bad || rs.any (·.bad) })
  else
    let (s, rs) ← (if got.isEmpty then s.bandRows x a band else .ok (s, got))
    return (s, { rows := rs.map fun r => r.engRow a.bf, flags := 0, bad := rs.any (·.bad) })

/-! ## Bands (R208, R217) -/

/-- What working on a band comes to: it can commit, with the new words of its columns; or it stops, `shared` when in
the fetch of B. -/
inductive Band where
  | ready (s : State) (words : List (Nat × Word)) (flags : Flags) (bad : Bool)
  | stop (shared : Bool) (m : Moved)
  deriving DecidableEq, Repr

/-- Works out a band: its operands are read at one moment, anew for each band. [log 124] -/
def State.band (s : State) (x : EngCtx) (a : MmaArgs) (tile : Cells 32) (band : Nat) (got : List OpRow) : Band :=
  match s.sideA x a with
  | .error m => .stop false m
  | .ok (s, A) =>
    match s.sideB x a band got with
    | .error m => .stop true m
    | .ok (s, B) =>
      match mmaRule? a.sm a.af a.bf with
      | none => .stop false (.fail s)
      | some rule =>
        let kc := if a.lat = 2 then a.lr else a.k
        let out := A.rows.zipIdx.flatMap fun (ra, i) => B.rows.zipIdx.map fun (rb, j) =>
          let at_ := 128 * i + 16 * band + j
          (at_, accum rule kc (cellGet tile at_).toNat ra rb)
        .ready s (out.map fun (k, r) => (k, BitVec.ofNat 32 r.code))
          (out.foldl (fun f (_, r) => f ||| r.flags) (A.flags ||| B.flags)) (A.bad || B.bad)

/-- The partner of an operation of a pair on the bus, as (company, operation). -/
def State.partner? (s : State) (cid id : Nat) : Option (Nat × Nat) :=
  s.clusters.findSome? fun k => k.pairs.findSome? fun (p, q) =>
    if p == (cid, id) then some q else if q == (cid, id) then some p else none

/-- Removes the pair of an operation; from the band in hand on, each fetches its own B (R229). [log 125] -/
def State.unpair (s : State) (cid id : Nat) : State :=
  let alone (s : State) (k : Nat × Nat) : State :=
    match s.engOp? k.1 k.2 with
    | some o => s.setOp k.1 { o with bus := 2, delivered := [] }
    | none => s
  match s.partner? cid id with
  | none => s
  | some q =>
    let s := alone (alone s q) (cid, id)
    { s with clusters := s.clusters.map fun k =>
        { k with pairs := k.pairs.filter fun (a, b) => !(a == (cid, id) || b == (cid, id)) } }

/-- Whether an operation may work on its next band: it is at the head of its company's engine, its fetches are not
parked, the bus has let it go, and its partner on the bus keeps up (R229). [log 56] -/
def State.bandEnabled (s : State) (cid : Nat) (o : EngOp) (a : MmaArgs) : Bool :=
  s.atHead cid o.id && o.parked.isNone && !o.done
    && (!a.bcast || o.bus == 2 || (o.bus == 3 && match s.partner? cid o.id with
        | none => true
        | some (c, i) => match s.engOp? c i with
            | some p => p.done || (s.atHead c i && p.parked.isNone && decide (o.rows ≤ p.rows))
            | none => true))

/-- Staged data arrives in lines of an MMA's window (R146, R203): they hold bytes that the fetcher staged, and turn full.
[log 48] -/
def State.stage (s : State) (cid : Nat) (a : MmaArgs) (lines : List Nat) : State :=
  if a.usesWindow then
    lines.foldl (fun s l =>
      let n := s.freeCtr
      let s := { s with freeCtr := n + 192 }
      (s.updCompany cid fun c => c.write (192 * l) ((List.range 192).map fun i => Config.freeByte (n + i))).fillLine cid l) s
  else s

/-- The lines of a window that a band's data takes: an eighth of the ring. [log 48] -/
def bandLines (a : MmaArgs) (band : Nat) : List Nat := (List.range 24).map fun i => a.stg / 192 + 24 * band + i

/-- Completes an MMA (R203, R177): every line of its window is full, and the window holds bytes it staged. An operation that
fails leaves its pair at once. [log 48, 125] -/
def State.finishMma (s : State) (cid : Nat) (o : EngOp) (a : MmaArgs) (failed : Bool) : State :=
  let o := o.finish failed
  let s := (s.setOp cid o).putMrp cid o
  let s : State := match s.partner? cid o.id with
    | some (c, i) => if failed || (s.engOp? c i).all (·.done) then s.unpair cid o.id else s
    | none => s
  s.stage cid a (linesOf a.stg Config.stagingBytes)

/-- Commits a band as one step. [log 35, 51] -/
def State.commitBand (s : State) (cid : Nat) (o : EngOp) (a : MmaArgs) (words : List (Nat × Word)) (flags : Flags)
    (bad : Bool) : State :=
  let s := s.updCompany cid fun c =>
    { c with tiles := listModify c.tiles a.tile fun m => words.foldl (fun m (k, w) => cellPut m k w) m }
  let s := if bad then
      match (s.company? cid).bind (·.core) with
      | some core => s.useLost core
      | none => s
    else s
  let s := s.stage cid a (bandLines a (o.rows / 16))
  let o := { o with rows := o.rows + 16, flags := o.flags ||| flags, held := false, delivered := [] }
  if o.rows ≥ 128 then s.finishMma cid o a false else (s.setOp cid o).putMrp cid o

/-- Parks an operation on a page (R217); a fetch of B parks the whole pair (R229). -/
def State.parkMma (s : State) (cid : Nat) (o : EngOp) (shared : Bool) (token : Nat) : State :=
  let park (s : State) (cid : Nat) (o : EngOp) : State :=
    let o := { o with parked := some token, held := false, delivered := [] }
    (s.setOp cid o).putMrp cid o
  let s := park s cid o
  if shared then
    match s.partner? cid o.id with
    | some (c, i) => match s.engOp? c i with
        | some p => if p.done then s else park s c p
        | none => s
    | none => s
  else s

/-- The rows of B that a pair's fetch has brought for a band go to both engines, when they are at the same band: neither fetches
them again (R229). [log 56] -/
def State.deliverBand (s : State) (x : EngCtx) (o : EngOp) (a : MmaArgs) : Except Moved (State × List OpRow) :=
  match s.partner? x.cid o.id with
  | none => .ok (s, [])
  | some (c, i) =>
    match s.engOp? c i with
    | none => .ok (s, [])
    | some p =>
      if o.bus != 3 || p.done || p.rows != o.rows then .ok (s, [])
      else
        match s.bandRows x a (o.rows / 16) with
        | .error m => .error m
        | .ok (s, rs) => .ok ((s.setOp c { p with delivered := rs }).setOp x.cid { o with delivered := rs }, rs)

/-- Works on the next band of an MMA. `only` keeps to the case that it parks. -/
def State.workBand (s : State) (cid id : Nat) (only : Bool) : State :=
  match s.company? cid, s.engOp? cid id with
  | some c, some o =>
    match o.kind, s.engCtx? cid o with
    | .mma a, some x =>
      if !s.bandEnabled cid o a then s
      else
        match (if o.delivered.isEmpty then s.deliverBand x o a else .ok (s, o.delivered)) with
        | .error (.park s' token) => s'.parkMma cid o true token
        | .error (.fail s') => if only then s else s'.finishMma cid o a true
        | .error _ => s
        | .ok (s1, got) =>
        match s1.band x a (c.tiles.getD a.tile []) (o.rows / 16) got with
        | .stop shared (.park s' token) => s'.parkMma cid o shared token
        | .stop _ (.fail s') => if only then s else s'.finishMma cid o a true
        | .stop _ (.busy s') => if only then s else s'
        | .stop _ (.ok s') => s'
        | .ready s' words fl bad => if only then s else s'.commitBand cid o a words fl bad
    | _, _ => s
  | _, _ => s

/-- MMA_EXECUTE (R208): the next band of an accepted MMA. -/
def execMmaExecute (cid id : Nat) (s : State) : Host.Outcome State Fault Refusal :=
  .next (s.workBand cid id false)

/-- OPERAND_FETCH_PARK (R204, R217): a fetch for the next band meets a page to repair or migrate. -/
def execOperandFetchPark (cid id : Nat) (s : State) : Host.Outcome State Fault Refusal :=
  .next (s.workBand cid id true)

/-- Whether an operation is still part of a pair. -/
def State.isPaired (s : State) (cid id : Nat) : Bool := (s.partner? cid id).isSome

/-- OPERAND_FETCH_RESUME (R217): once the page is repaired, the operation restarts at its committed band. -/
def execOperandFetchResume (cid id : Nat) (s : State) : Host.Outcome State Fault Refusal :=
  match s.engOp? cid id with
  | none => .next s
  | some o =>
    if !o.kind.isMma || o.parked.isNone || EngOp.waiting s o || s.isPaired cid id then .next s
    else
      let o := { o with parked := none }
      .next ((s.setOp cid o).putMrp cid o)

/-- MZERO_EXECUTE (R219). -/
def execMzeroExecute (cid id : Nat) (s : State) : Host.Outcome State Fault Refusal :=
  match s.engOp? cid id with
  | none => .next s
  | some o =>
    match o.kind with
    | .mzero k =>
      if !s.atHead cid id then .next s
      else
        .next (s.updCompany cid fun c =>
          { c with tiles := c.tiles.set k [], ops := c.ops.filter (·.id != id) })
    | _ => .next s

/-! ## MDRAIN (R220-R222) -/

def mdTf (f : Fields) : Nat := Fields.x f 15 12
def mdClr (f : Fields) : Bool := Fields.x f 11 11 == 1
def mdSat (f : Fields) : Bool := Fields.x f 10 10 == 1
def mdSr (f : Fields) : Bool := Fields.x f 9 9 == 1
def mdDf (f : Fields) : Nat := Fields.x f 8 5
def mdTr (f : Fields) : Bool := Fields.x f 4 4 == 1
def mdDsp (f : Fields) : Bool := Fields.x f 3 3 == 1
def mdTile (f : Fields) : Nat := Fields.x f 2 0

def drainFmtOk (c : Nat) : Bool := c ≤ 8 || c == cINT32

def mdrainShape (f : Fields) : Shape :=
  let int32 := mdDf f == cINT32 || (mdTr f && mdTf f == cINT32)
  { dst := .scalarPair, long := true, ownXs := true, ownImm := true, immMask := 0xFFFF,
    badModifier := !drainFmtOk (mdDf f) || !drainFmtOk (mdTf f) || (!mdTr f && mdTf f != 0)
      || (int32 && (mdSr f || mdSat f)),
    badField := Fields.xs f % 4 != 0 || decide (Fields.xs f > 56) }

/-- Kind of a drain's scale array: FP32 per row, E8M0, or none. -/
def drainScaleKind (c : Nat) : Nat := if isFp8 c then 1 else if isMxFmt c then 3 else 0

/-- The byte ranges of a scratchpad copy's row w. -/
def drainRowSpans (o : Operand) (fmt w : Nat) : List (Nat × Nat) :=
  match o with
  | .sp off stride =>
    (off + w * stride, packedBytes fmt 128)
      :: (if drainScaleKind fmt = 0 then [] else [(off + 128 * stride + 4 * w, 4)])
  | .glob _ _ _ => []

/-- The (destination, format, row) of every row still to write when `done` have been written. -/
def DrainArgs.rowsFrom (a : DrainArgs) (done : Nat) : List (Operand × Nat × Nat) :=
  ((List.range (if a.tr then 256 else 128)).drop done).map fun w =>
    if w < 128 then (a.dst, a.df, w) else (a.dstT, a.tf, w - 128)

/-- The scratchpad lines of those rows. -/
def DrainArgs.linesFrom (a : DrainArgs) (done : Nat) : List Nat :=
  ((a.rowsFrom done).flatMap fun (o, fm, w) => (drainRowSpans o fm w).flatMap fun (k, n) => linesOf k n).eraseDups

/-- MDRAIN (R220-R222). -/
def execMdrain (f : Fields) (s : State) : Host.Outcome State Fault Refusal :=
  let dsp := mdDsp f
  let tr := mdTr f
  issue true (mdrainShape f) f s fun t =>
    let q (i : Nat) : Nat := t.param f i
    if !operandFieldsOk dsp (q 0) (q 1) || !(if tr then operandFieldsOk dsp (q 2) (q 3) else q 2 == 0 && q 3 == 0) then
      Out.code s cIllegalOperand
    else
      let handles := if dsp then [] else q 0 :: (if tr then [q 2] else [])
      match s.records t [] handles with
      | .wait s p => .stay s t p
      | .trap c a => Out.code s c (BitVec.ofNat 64 a)
      | .got s rs =>
        match s.firstUnsealed rs with
        | some va => Out.code s cSealReject (BitVec.ofNat 64 va)
        | none =>
          let ls := (rs.zip handles).map fun ((_, bs), h) => parseLayout h bs
          match takeOperand dsp (q 0) (q 1) ls with
          | none => Out.code s cIllegalOperand
          | some (d, ls) =>
            match if tr then takeOperand dsp (q 2) (q 3) ls else some (.sp 0 0, []) with
            | none => Out.code s cIllegalOperand
            | some (dT, _) =>
              if !d.roleOk (mdDf f) (drainScaleKind (mdDf f))
                  || (tr && !dT.roleOk (mdTf f) (drainScaleKind (mdTf f))) then Out.code s cIllegalOperand
              else
                let sps := if !dsp then [] else (q 0, q 1, mdDf f) :: (if tr then [(q 2, q 3, mdTf f)] else [])
                let size := match s.company? t.cid with
                  | some c => c.size
                  | none => 0
                match (sps.flatMap fun (o, st, _) => [o, st]).find? (· % 16 != 0) with
                | some x => Out.code s cMisaligned (BitVec.ofNat 64 x)
                | none =>
                  match sps.findSome? fun (o, st, fm) => spansOutside size (operandSpans o st fm 128 (drainScaleKind fm)) with
                  | some o => Out.code s cSpadRange (BitVec.ofNat 64 o)
                  | none =>
                    let a : DrainArgs :=
                      { tile := mdTile f, df := mdDf f, tf := mdTf f, tr := tr, sr := mdSr f, sat := mdSat f,
                        clr := mdClr f, dst := d, dstT := dT, seed := t.srseed, ctr := t.srctr }
                    engineIssue f s t (fun s => s.giveOp t.cid 1 t.uid (.mdrain a) [] (a.linesFrom 0))
                      fun t => if a.sr then { t with srctr := t.srctr + 1 } else t

/-- Writes the elements of a drained row to a record from element `k` up. [log 130] -/
def State.drainElems (s : State) (x : EngCtx) (id : Nat) (r : Layout) (q k : Nat) : List Nat → Moved
  | [] => .ok s
  | c :: rest =>
    if !r.inside q k then .ok s
    else match s.writeElem x id r.efmt (r.elemVa q k) k c false with
      | .ok s => s.drainElems x id r q (k + 1) rest
      | m => m

/-- Writes the scales of a drained row from element `k` up, each for `blk` elements of `w` bytes. -/
def State.drainScales (s : State) (x : EngCtx) (id : Nat) (r : Layout) (q k blk w : Nat) (sc : List Byte) : Nat → Moved
  | 0 => .ok s
  | n + 1 =>
    if sc.isEmpty || !r.inside q k then .ok s
    else match s.dstBytes x id false (r.scaleVa q k) false (sc.take w) with
      | .ok s => s.drainScales x id r q (k + blk) blk w (sc.drop w) n
      | m => m

/-- The bytes of a packed row. -/
def packRow (fmt : Nat) (codes : List Nat) : List Byte :=
  if fmt = cE2M1 then
    (groupsOf 2 codes ((codes.length + 1) / 2)).map fun g => BitVec.ofNat 8 (g.getD 0 0 % 16 + 16 * (g.getD 1 0 % 16))
  else codes.flatMap fun c => leBytes (elemBytes fmt) c

/-- Writes row `j` of a drain: a straight row, or from 128 on a transposed one. [log 55] -/
def State.drainOne (s : State) (x : EngCtx) (id : Nat) (a : DrainArgs) (tile : Cells 32) (j : Nat) : Moved :=
  let tr := decide (j ≥ 128)
  let w := j % 128
  let fmt := if tr then a.tf else a.df
  let index (c : Nat) : Nat := if tr then 128 * c + w else 128 * w + c
  let words := (List.range 128).map fun c => cellGet tile (index c)
  let mode : Mode := if a.sr then .sr else .rn
  let (codes, sc, fl) := drainRow fmt mode a.sat
    (fun c => srr a.seed a.ctr (BitVec.ofNat 64 (index c)) (if tr then 1 else 0)) words
  let r := match if tr then a.dstT else a.dst with
    | .sp off stride =>
      match s.dstBytes x id true (off + w * stride) false (packRow fmt codes) with
      | .ok s => s.dstBytes x id true (off + 128 * stride + 4 * w) false sc
      | m => m
    | .glob l rt kt =>
      match s.drainElems x id l (128 * rt + w) (128 * kt) codes with
      | .ok s =>
        if isFp8 fmt then s.drainScales x id l (128 * rt + w) (128 * kt) 128 4 sc 1
        else s.drainScales x id l (128 * rt + w) (128 * kt) 32 1 sc 4
      | m => m
  match r with
  | .ok s => .ok (s.opFlags x.cid id fl)
  | m => m

/-- After some rows of a drain: its lines whose last byte is written are full, and it goes on, parks, or completes;
with .clr the tile is then zero. [log 54] -/
def afterDrain (cid id : Nat) (a : DrainArgs) (r : Nat × Moved) : State :=
  let put (s : State) (g : EngOp → EngOp) : State :=
    match s.engOp? cid id with
    | none => s
    | some o =>
      let o := g { o with rows := o.rows + r.1, parked := none }
      let left := a.linesFrom o.rows
      let s := ((a.linesFrom (o.rows - r.1)).filter fun l => !left.contains l).foldl (fun s l => s.fillLine cid l)
        (s.setOp cid o)
      if o.done && a.clr then s.updCompany cid fun c => { c with tiles := c.tiles.set a.tile [] } else s
  match r.2 with
  | .ok s => put s fun o => if o.rows ≥ (if a.tr then 256 else 128) then o.finish false else o
  | .busy s => put s fun o => o
  | .park s token => put s fun o => { o with parked := some token }
  | .fail s => put s fun o => o.finish true

/-- MDRAIN_EXECUTE (R221, R222): up to `rows` further rows of a drain. [log 55] -/
def execMdrainExecute (cid id rows : Nat) (s : State) : Host.Outcome State Fault Refusal :=
  match s.company? cid, s.engOp? cid id with
  | some c, some o =>
    match o.kind, s.engCtx? cid o with
    | .mdrain a, some x =>
      if !s.atHead cid id || o.done || EngOp.waiting s o then .next s
      else
        let total := if a.tr then 256 else 128
        let tile := c.tiles.getD a.tile []
        .next (afterDrain cid id a
          (moveLoop (fun s j => s.drainOne x id a tile j) s o.rows 0 (min rows (total - o.rows))))
    | _, _ => .next s
  | _, _ => .next s

/-! ## The broadcast bus (R227-R229) -/

/-- Whether two offers match (R227). -/
def State.offersMatch (s : State) (p q : Nat × Nat) : Bool :=
  match s.company? p.1, s.company? q.1, s.engOp? p.1 p.2, s.engOp? q.1 q.2 with
  | some c, some d, some o, some u =>
    match o.kind, u.kind with
    | .mma a, .mma b =>
      c.lid == d.lid && a.p2 == b.p2 && a.p3 == b.p3 && a.k == b.k && a.bf == b.bf && a.sm == b.sm && a.brec == b.brec
    | _, _ => false
  | _, _, _, _ => false

/-- Sets an offer's state on the bus. -/
def State.setBus (s : State) (p : Nat × Nat) (v : Nat) : State :=
  match s.engOp? p.1 p.2 with
  | some o => s.setOp p.1 { o with bus := v }
  | none => s

/-- An offer leaves the bus and proceeds alone. -/
def State.offerAlone (s : State) (k : Nat) (p : Nat × Nat × Nat) : State :=
  (s.updCluster k fun c => { c with offers := c.offers.filter (· != p), clbmiss := stick c.clbmiss 1 }).setBus p.2 2

/-- The pending offer of a core: its oldest. -/
def State.pendingOffer? (s : State) (core : Nat) : Option (Nat × Nat × Nat) :=
  (s.cluster (clusterOf core)).offers.find? (·.1 == core)

/-- Whether a pending offer's window is over (R228). -/
def State.offerOver (s : State) (k : Nat) (p : Nat × Nat × Nat) : Bool :=
  let window := (s.cluster k).clbwin.toNat % 2 ^ 20
  window != 0 && (s.engOp? p.2.1 p.2.2).any fun o => s.clock.toNat - o.busClock ≥ window

/-- Resolves a cluster's pending offers (R228), at most `fuel` times: those whose window is over go alone first. -/
def State.resolveBus (s : State) (k : Nat) : Nat → State
  | 0 => s
  | fuel + 1 =>
    match s.pendingOffer? (2 * k), s.pendingOffer? (2 * k + 1) with
    | some p, some q =>
      if s.offerOver k p then (s.offerAlone k p).resolveBus k fuel
      else if s.offerOver k q then (s.offerAlone k q).resolveBus k fuel
      else if s.offersMatch p.2 q.2 then
        let s := s.updCluster k fun c =>
          { c with offers := c.offers.filter (fun o => o != p && o != q), pairs := c.pairs ++ [(p.2, q.2)],
                   clbpair := stick c.clbpair 2 }
        ((s.setBus p.2 3).setBus q.2 3).resolveBus k fuel
      else
        let first := match (s.cluster k).offers.find? fun o => o == p || o == q with
          | some o => o
          | none => p
        (s.offerAlone k first).resolveBus k fuel
    | _, _ => s

/-- Whether an operation's offer is next in the order in which its core's engine sends offers. -/
def State.offerNext (s : State) (core id : Nat) : Bool :=
  s.companies.all fun c => c.core != some core || c.ops.all fun o =>
    match o.kind with
    | .mma a => !a.bcast || o.done || o.bus != 0 || id ≤ o.id
    | _ => true

/-- BUS_OFFER (R227, R228). -/
def execBusOffer (cid id : Nat) (s : State) : Host.Outcome State Fault Refusal :=
  match s.company? cid, s.engOp? cid id with
  | some c, some o =>
    match o.kind, c.core with
    | .mma a, some core =>
      if !a.bcast || o.bus != 0 || o.done || !s.offerNext core id then .next s
      else
        let k := clusterOf core
        let s := s.setOp cid { o with bus := 1, busClock := s.clock.toNat }
        let s := s.updCluster k fun c => { c with offers := c.offers ++ [(core, cid, id)] }
        let s := s.resolveBus k (s.cluster k).offers.length
        let still := (s.cluster k).offers.contains (core, cid, id)
        .next (if still && (s.cluster k).clbwin.toNat % 2 ^ 20 = 0 then s.offerAlone k (core, cid, id) else s)
    | _, _ => .next s
  | _, _ => .next s

/-- BUS_WINDOW_EXPIRY (R228). -/
def execBusWindowExpiry (core : Nat) (s : State) : Host.Outcome State Fault Refusal :=
  let k := clusterOf core
  match s.pendingOffer? core with
  | none => .next s
  | some p =>
    match s.engOp? p.2.1 p.2.2 with
    | none => .next s
    | some o =>
      if s.clock.toNat - o.busClock < (s.cluster k).clbwin.toNat % 2 ^ 20 then .next s
      else
        let s := s.offerAlone k p
        .next (s.resolveBus k (s.cluster k).offers.length)

/-- BUS_PAIR_SPLIT (R229): a pair with an operation that is parked for a fault, or whose company is pre-empted, dissolves.
[log 125] -/
def execBusPairSplit (cluster : Nat) (s : State) : Host.Outcome State Fault Refusal :=
  let stopped (p : Nat × Nat) : Bool :=
    match s.engOp? p.1 p.2 with
    | some o => !o.done && (o.parked.isSome || o.held || (s.company? p.1).any fun c => c.core.isNone || c.preempting)
    | none => false
  match (s.cluster cluster).pairs.find? fun (p, q) => stopped p || stopped q with
  | none => .next s
  | some (p, _) =>
    .next ((s.unpair p.1 p.2).updCluster cluster fun c => { c with clbsplit := stick c.clbsplit 1 })

end Sys2Proof.Machine
end

