-- ==== Sys2Proof/Machine/Preempt.lean ====
section
/-!
DEFINITION. Pre-emption (05 R156-R158, 16 R337): who is pre-empted and when, draining and saving a company, and its
return. The context record stands in memory of the Ringmaster that no software reads (R157): what it holds stays in the
company's and its troupes' own fields while the company has no core.
-/
namespace Sys2Proof.Machine

/-! ## Victims (R337) -/

/-- Whether a company can be chosen: on a core, with troupes left, of a launch that goes on. -/
def State.victim (s : State) (c : Company) : Bool :=
  c.core.isSome && !c.preempting && !s.allRetired c && (s.launch? c.lid).any (·.live)

/-- Requests the pre-emption of companies as far as the pool holds their records. [log 91] -/
def State.request (s : State) (cs : List Company) : State :=
  cs.foldl (fun s c =>
    match s.launch? c.lid with
    | some l =>
      if l.hdr.recordSize ≤ s.poolFree then s.updCompany c.cid fun c => { c with preempting := true } else s
    | none => s) s

/-- The companies that go out with a victim: itself, or the whole of an all-resident launch. -/
def State.withVictim (s : State) (c : Company) (l : Launch) : List Company :=
  if l.hdr.resident then s.companies.filter fun x => x.lid == c.lid && s.victim x else [c]

/-- Whether the pool holds the records of a victim and of what goes out with it (R337). [log 90] -/
def State.poolHolds (s : State) (c : Company) : Bool :=
  (s.launch? c.lid).any fun l => (s.withVictim c l).length * l.hdr.recordSize ≤ s.poolFree

/-- Pre-empts a victim, whole where its launch is all-resident, if the pool holds what it needs. -/
def State.takeOut (s : State) (c : Company) : State :=
  match s.launch? c.lid with
  | none => s
  | some l =>
    if s.poolHolds c then
      let s := s.request (s.withVictim c l)
      if l.hdr.resident then s.updLaunch l.lid fun x => { x with placed := false } else s
    else s

/-- The cores that companies of a launch which have waited PREWAIT clocks for lack of room could come to (R337): a saved one,
where no core takes it; else the next of a cluster's distributor, where neither core of the cluster takes it. A company waits
from the start of its launch, or from when it was saved. [log 90] -/
def State.starvedCores (s : State) (l : Launch) : List Nat :=
  let saved := s.companies.filter fun c => c.lid == l.lid && s.isOut c
  let long (since : Nat) : Bool := s.clock.toNat - since ≥ s.rm.prewait.toNat
  let cores := List.range Config.cores
  if !saved.isEmpty then
    (saved.filter fun c => long c.outSince && !cores.any fun k => s.keepsBinding l c k && s.fitsSaved c k l.hdr).flatMap
      fun c => cores.filter (s.keepsBinding l c)
  else if long l.waitSince then
    cores.filter fun k => (l.offer? (clusterOf k)).isSome
      && !([2 * clusterOf k, 2 * clusterOf k + 1].any fun j => s.fits j l.lid l.hdr Config.tileSaveBytes)
  else []

/-- Whether a launch waits for room that pre-emption may make: an all-resident one until it can be placed (the tile save
areas of one that was pre-empted are still reserved); any other when a company of it, a saved one first, has waited
PREWAIT clocks and no core takes it. -/
def State.needsRoom (s : State) (l : Launch) : Bool :=
  if l.waiting then
    !canPlace l.hdr (fun c => s.capacity c l.lid l.hdr) (if l.started = 0 then s.poolFree else s.rm.ctxsize.toNat)
  else l.live && !l.hdr.resident && s.rm.prewait != 0 && !s.heldBack l.hdr.prio && !(s.starvedCores l).isEmpty

/-- The victim that R337 names for a launch: the lowest priority, then the most recently admitted, of those whose records the
pool holds. [log 90] -/
def State.victimFor (s : State) (l : Launch) : Option Company :=
  let prio (c : Company) : Nat := match s.launch? c.lid with
    | some x => x.hdr.prio
    | none => 0
  let near (c : Company) : Bool := l.hdr.resident || c.core.any (s.starvedCores l).contains
  (s.companies.filter fun c => s.victim c && c.lid != l.lid && near c && s.poolHolds c
      && (if l.hdr.resident then prio c ≤ l.hdr.prio else prio c < l.hdr.prio)).foldl
    (fun b c => match b with
      | some x => if prio c < prio x || (prio c == prio x && x.admitted < c.admitted) then some c else b
      | none => some c) none

/-- PREWAIT_EXPIRY (R337): a launch that needs room takes its next victim, when no company is already going out. -/
def execPrewaitExpiry (lid cid : Nat) (s : State) : Host.Outcome State Fault Refusal :=
  match s.launch? lid with
  | none => .next s
  | some l =>
    if !s.needsRoom l || s.companies.any (fun c => c.preempting && c.core.isSome) then .next s
    else
      match s.victimFor l with
      | none => .next s
      | some c => if c.cid == cid then .next (s.takeOut c) else .next s

/-- Companies in the order in which victims are taken (R337): the lowest priority first, and within a priority the most
recently admitted. -/
def State.victimOrder (s : State) : List Company :=
  let prio (c : Company) : Nat := match s.launch? c.lid with | some l => l.hdr.prio | none => 0
  sortBy (fun a b => prio a < prio b || (prio a == prio b && b.admitted < a.admitted)) s.companies

/-- PREEMPT (R326, R337): the host pre-empts the running launches of a queue. -/
def execPreempt (q : Nat) (s : State) : Host.Outcome State Fault Refusal :=
  if s.recovery then .next s
  else
    .next (s.victimOrder.foldl (fun s c =>
      match s.company? c.cid with
      | some c => if s.queueOf c.lid == q && s.victim c then s.takeOut c else s
      | none => s) s)

/-! ## Saving a company (R156) -/

/-- Whether an operation in flight lets its company be saved: edits go on while it is out, lanes that wait on an
empty line are withdrawn, and an access that its instruction waits for may have returned (R167). [log 92] -/
def State.withdrawn (s : State) (t : Troupe) (o : MemOp) : Bool :=
  match o.kind with
  | .edit _ _ => true
  | _ => s.groupWaits t.lid t.cid o || (o.sync && o.lanes.all (·.done))

/-- Steps 1 to 3 of R156. -/
def State.drained (s : State) (c : Company) : Bool :=
  let ts := s.troupes.filter (·.cid == c.cid)
  ts.all (fun t => t.ops.all (s.withdrawn t)) && s.invals.isEmpty
    && s.cores.all (fun k => k.quarters.all fun q => ts.all fun t => q.running != some t.uid)
    && c.ops.all fun o => match o.kind with
      | .cpy _ _ _ _ _ _ _ _ => !o.kind.usesStore || o.done || (EngOp.waiting s o && o.sent.isEmpty)
      | _ => true

/-- Takes a company's operations off its cluster's bus: an offer is sent again later, a pair dissolves (R229). [log 94] -/
def State.offBus (s : State) (c : Company) (core : Nat) : State :=
  let k := clusterOf core
  let s := c.ops.foldl (fun s o =>
    match s.partner? c.cid o.id with
    | some _ =>
      let s := s.unpair c.cid o.id
      if o.done then s else s.updCluster k fun x => { x with clbsplit := stick x.clbsplit 1 }
    | none => s) s
  let s := s.updCluster k fun x => { x with offers := x.offers.filter fun (_, i, _) => i != c.cid }
  s.updCompany c.cid fun c => { c with ops := c.ops.map fun o => if o.bus = 1 then { o with bus := 0 } else o }

/-- A troupe as its record holds it: a condition monitor is given up (R259), and a group load is withdrawn with what it has
read (R156). [log 92] -/
def Troupe.saved_ (t : Troupe) : Troupe :=
  { t with resident := false,
           ops := t.ops.map fun o => if o.isGroup then { o with samples := [] } else o,
           park := match t.park with
             | .monitor _ => .run
             | p => p }

/-- PREEMPT_COMPANY (R156): a drained company under request is saved and leaves its core; the MMA that its engine is working on
parks (R216). [log 92] -/
def execPreemptCompany (cid : Nat) (s : State) : Host.Outcome State Fault Refusal :=
  match s.company? cid with
  | none => .next s
  | some c =>
    match c.core with
    | none => .next s
    | some core =>
      if !c.preempting || s.allRetired c || !s.drained c then .next s
      else
        let s := (s.releaseOwned core).offBus c core
        let mine (uid : Nat) : Bool := s.troupes.any fun t => t.uid == uid && t.cid == cid
        let s : State := { s with
          troupes := s.troupes.map fun t => if t.cid == cid && !t.retired then t.saved_ else t
          dieUnits := s.dieUnits.map fun d => { d with monitors := d.monitors.filter fun m => !mine m.uid } }
        let s := ((s.company? cid).bind Company.matrixHead?).elim s fun o =>
          if o.kind.isMma then s.holdMma cid { o with held := true } else s
        .next ((s.updCompany cid fun c => { c with core := none, wayAt := [], outSince := s.clock.toNat, preempting := false }).freeSlot core c.lid)

/-- COMPANY_RESUME (R83, R158, R333, R337): a saved company returns on a core that has room for it and that its launch's
bindings allow, when no launch that is offered first has a company for that core; an all-resident launch only whole
(ALL_RESIDENT_PLACE). [log 93] -/
def execCompanyResume (cid core : Nat) (s : State) : Host.Outcome State Fault Refusal :=
  match s.company? cid with
  | none => .next s
  | some c =>
    match s.launch? c.lid with
    | none => .next s
    | some l =>
      if !s.mayResume l c core || s.outranked l.lid core then .next s
      else .next (s.resumeOn c core l.hdr)

end Sys2Proof.Machine
end

