-- ==== Sys2Proof/Machine/HostRegs.lean ====
section
/-!
DEFINITION. What the host does through the register window and the link (16 R326, R327, R330, R332, R337, R339-R341;
09 R226; 10 R241; 15 R303, R304; 19 R346; 20 R359, R361-R363).
-/
namespace Sys2Proof.Machine

/-! ## Queues -/

/-- QTAIL_WRITE (R330): ignored when it would place more than 2^QSIZE entries ahead, and in the recovery state. [log 84] -/
def execQtailWrite (q : Nat) (v : DWord) (s : State) : Host.Outcome State Fault Refusal :=
  let tail := v.setWidth 32
  let r := s.queue q
  if s.recovery || 2 ^ r.qsize.toNat < (tail - r.qhead).toNat then .next s
  else .next (s.updQueue q fun r => { r with qtail := tail })

/-- ABORT (R332): ends the running launches of a queue; one that has reached its status is left. -/
def execAbort (q : Nat) (s : State) : Host.Outcome State Fault Refusal :=
  if s.recovery then .next s
  else
    .next ((s.rm.launches.filter (·.queue == q)).foldl (fun s l => s.endLaunch l.lid 7 0 0) s)

/-! ## Answers to translation faults (R340) -/

/-- An engine operation whose page the host declined fails (R177). -/
def State.failParked (s : State) (cid : Nat) (o : EngOp) : State :=
  let o := { o with parked := none }
  match o.kind with
  | .mma a => s.finishMma cid o a true
  | .mdrain a => afterDrain cid o.id a (0, .fail (s.setOp cid o))
  | .bkload _ mask _ _ stack die => s.endBank cid o die stack (channelsOf mask) true
  | .bkcmd a => s.endBank cid o a.die a.stack (o.todo.map (·.1)) true
  | _ => s.setOp cid (o.finish true)

/-- Declines a fault: its page is not there for the troupes, the engine operations and the Ringmaster's own accesses that
waited for it. [log 23, 85] -/
def State.decline (s : State) (f : PendingFault) : State :=
  let s : State := { s with troupes := s.troupes.map fun t =>
    match t.park with
    | .fault ks => if ks.contains f.token then { t with declined := faultGranule f.va :: t.declined } else t
    | _ => t }
  let s := s.updRm fun r =>
    { r with waits := r.waits.map fun w => if w.token == f.token then { w with declined := true } else w }
  s.companies.foldl (fun s c => c.ops.foldl (fun s o =>
    if o.parked == some f.token then s.failParked c.cid o else s) s) s

/-- RMFRESP_WRITE (R340): bits 31:0 name the fault, bit 32 accepts it. Every access parked on it is then replayed, or
declined. A token that names no reported fault is ignored. -/
def execRmfrespWrite (v : DWord) (s : State) : Host.Outcome State Fault Refusal :=
  if s.recovery then .next s
  else
    match s.rm.faults.find? fun f => !f.migrate && f.token % 2 ^ 32 == v.toNat % 2 ^ 32 with
    | none => .next s
    | some f =>
      let s := s.updRm fun r => { r with faults := r.faults.filter (· != f) }
      if v.getLsbD 32 then .next (s.updRm fun r => { r with waits := r.waits.filter (·.token != f.token) })
      else .next (s.decline f)

/-! ## Shoot-downs (R248, R340) -/

/-- RMSHOOT_WRITE: requests a shoot-down for a queue. [log 99] -/
def execRmshootWrite (v : DWord) (s : State) : Host.Outcome State Fault Refusal :=
  if s.recovery then .next s
  else
    let q := bitsOf v.toNat 5 0
    .next (s.updRm fun r =>
      { r with shoots := r.shoots ++ [(q, bitsOf v.toNat 31 16, (s.queue q).qroot.toNat)] })

/-- SHOOT_DOWN_DONE: no TLB of the package holds an entry of the queue's table; a message of kind 5 follows. [log 99] -/
def execShootDownDone (token : Nat) (s : State) : Host.Outcome State Fault Refusal :=
  match s.rm.shoots.find? fun (_, k, _) => k == token with
  | none => .next s
  | some (q, k, root) =>
    let s := s.updRm fun r => { r with shoots := r.shoots.erase (q, k, root) }
    let s := s.dropTlbs fun x => x.root == root
    .next (s.say { kind := 5, queue := q, a32 := BitVec.ofNat 32 token, a64 := 0, vector := none })

/-! ## Messages (R339) -/

/-- RMMSGHEAD_WRITE. -/
def execRmmsgheadWrite (v : DWord) (s : State) : Host.Outcome State Fault Refusal :=
  if s.recovery then .next s else .next (s.updRm fun r => { r with rmmsghead := v.setWidth 32 })

/-- The stored value of RMMSGSIZE. -/
def msgSize (v : DWord) : Nat :=
  let n := v.toNat % 32
  if n = 0 then 0 else max 4 (min 20 n)

/-- RMMSGSIZE_WRITE: nonzero releases the messages held; 0 drops completions. -/
def execRmmsgsizeWrite (v : DWord) (s : State) : Host.Outcome State Fault Refusal :=
  if s.recovery then .next s
  else .next (s.updRm fun r => { r with rmmsgsize := BitVec.ofNat 32 (msgSize v) }).dropCompletions

/-! ## Attestation (R361) -/

/-- ATTCTL_WRITE: bit 0 requests a report, unless one is being written; an address that is misaligned or in no window
is refused. -/
def execAttctlWrite (v : DWord) (s : State) : Host.Outcome State Fault Refusal :=
  if s.recovery || !v.getLsbD 0 || s.boot.attstat = 1 then .next s
  else
    let a := s.boot.attaddr.toNat
    if a % 192 != 0 || !s.present a 384 then .next { s with boot := { s.boot with attstat := 3 } }
    else .next { s with boot := { s.boot with attstat := 1, attReq := some (a, s.fabric.fxdevid, s.boot.attnonce) } }

/-! ## Plain registers -/

/-- A counter's write (R226): 0 clears it, any other value leaves it. -/
def writeCounter (old v : DWord) : DWord := if v = 0 then 0 else old

/-- L2QUOTA's write (R241): a field of 0 or above 16 is stored as 16. -/
def quotaValue (v : DWord) : Word :=
  let f (k : Nat) : Nat :=
    let x := bitsOf v.toNat (5 * k + 4) (5 * k)
    (if x = 0 || x > 16 then 16 else x) * 2 ^ (5 * k)
  BitVec.ofNat 32 (f 0 + f 1 + f 2 + f 3)

/-- PWRLIM's write (R363). -/
def powerValue (f : Form) (v : DWord) : Word :=
  let lim := (formLimit f).toNat
  BitVec.ofNat 32 (max (lim / 4) (min lim (v.toNat % 65536)))

/-- Writes a register of a queue (R326, R327). [log 81] -/
def State.setQueueReg (s : State) (q : Nat) (g : QueueRegs → QueueRegs) : State :=
  (s.updQueue q g).updRm fun r => { r with candidates := r.candidates.filter (·.queue != q) }

/-- Sets a register that R327 and R346 may hold. -/
def State.setHeldReg (s : State) (r : Reg) (v : DWord) : State :=
  match r with
  | .qbase q => s.setQueueReg q fun x => { x with qbase := v }
  | .qsize q => s.setQueueReg q fun x => { x with qsize := BitVec.ofNat 32 (min 16 (v.toNat % 32)) }
  | .qroot q => s.setQueueReg q fun x => { x with qroot := v }
  | .sealctl => s.updRm fun x => { x with sealctl := BitVec.ofNat 32 (v.toNat % 2) }
  | .sealkey k => s.updRm fun x => { x with sealkey := x.sealkey.set k v }
  | .sealminv => s.updRm fun x => { x with sealminv := v.setWidth 32 }
  | .fxdevid => s.updFabric fun x => { x with fxdevid := BitVec.ofNat 32 (v.toNat % 2 ^ 18) }
  | .fxroot => s.updFabric fun x => { x with fxroot := v }
  | _ => s

/-- Whether a write to the register must wait for launches to end. -/
def State.mustHold (s : State) (r : Reg) : Bool :=
  match heldQueue? r with
  | some q => s.rm.launches.any (·.queue == q)
  | none => !s.rm.launches.isEmpty

/-- A write to a register of R327 or R346: held or done; either way it replaces an earlier held one. -/
def State.writeHeld (s : State) (r : Reg) (v : DWord) : State :=
  let s := s.updRm fun x => { x with held := x.held.filter (·.1 != r) }
  if s.mustHold r then s.updRm fun x => { x with held := x.held ++ [(r, v)] } else s.setHeldReg r v

/-- HELD_WRITE_APPLY (R327). -/
def execHeldWriteApply (r : Reg) (s : State) : Host.Outcome State Fault Refusal :=
  match s.rm.held.find? fun (g, _) => g == r with
  | none => .next s
  | some (_, v) =>
    if s.mustHold r then .next s
    else .next ((s.updRm fun x => { x with held := x.held.filter (·.1 != r) }).setHeldReg r v)

/-- QCTL's write: EN and IV are stored; ABORT and PREEMPT act and read 0. -/
def State.writeQctl (s : State) (q : Nat) (v : DWord) : State :=
  let s := s.updQueue q fun x => { x with qctl := v.setWidth 32 &&& 0xFF01 }
  let run (o : Host.Outcome State Fault Refusal) (s : State) : State := match o with
    | .next s => s
    | _ => s
  let s := if v.getLsbD 1 then run (execAbort q s) s else s
  if v.getLsbD 2 then run (execPreempt q s) s else s

/-- Whether a register belongs to a cluster or a die that is not in service (R1, R357). [log 126] -/
def State.absent (s : State) (r : Reg) : Bool :=
  match r with
  | .clbwin c | .clbpair c | .clbmiss c | .clbsplit c | .clxlost c | .clrstat c => !s.clusterIn c
  | .l2quota d | .dnrefuse d | .dnmonovf d | .dngrppart d | .dnbcrecall d | .dnecc d | .bkgrant d _ | .bkwdog d | .bkreset d
  | .bkdupfix d | .bkdupfail d | .bkdirign d | .cmtbase d | .cmpmispred d | .hpthresh d | .hptpromo d | .hptpinskip d
  | .errcore d | .errmat d | .errmsc d | .errhbm d | .errpois d | .erruse d => !s.dieIn d
  | _ => false

/-- REGISTER_WRITE: a write of the host to a register of the window; read-only registers take none, and neither do those of
an absent unit. In the recovery state no register is written (R359). [log 126] -/
def execRegisterWrite (r : Reg) (v : DWord) (s : State) : Host.Outcome State Fault Refusal :=
  if s.recovery || s.absent r then .next s
  else
    let cl (c : Nat) (g : Cluster → Cluster) : Host.Outcome State Fault Refusal := .next (s.updCluster c g)
    let di (d : Nat) (g : Die → Die) : Host.Outcome State Fault Refusal := .next (s.updDie d g)
    let fx (g : Fabric → Fabric) : Host.Outcome State Fault Refusal := .next (s.updFabric g)
    let bo (g : Boot → Boot) : Host.Outcome State Fault Refusal := .next { s with boot := g s.boot }
    match r with
    | .qbase _ | .qsize _ | .qroot _ | .sealctl | .sealkey _ | .sealminv | .fxdevid | .fxroot => .next (s.writeHeld r v)
    | .qtail q => execQtailWrite q v s
    | .qhead _ | .rmmsgtail | .clrstat _ | .fxport | .bootstat | .attstat | .pwrnow | .thrstat => .next s
    | .qctl q => .next (s.writeQctl q v)
    | .rmmsgbase => .next (s.updRm fun x => { x with rmmsgbase := v })
    | .rmmsgsize => execRmmsgsizeWrite v s
    | .rmmsghead => execRmmsgheadWrite v s
    | .rmiv => .next (s.updRm fun x => { x with rmiv := BitVec.ofNat 32 (v.toNat % 256) })
    | .rmfresp => execRmfrespWrite v s
    | .rmshoot => execRmshootWrite v s
    | .ctxbase => .next (s.updRm fun x => { x with ctxbase := v })
    | .ctxsize => .next (s.updRm fun x => { x with ctxsize := v })
    | .prewait => .next (s.updRm fun x => { x with prewait := v.setWidth 32 })
    | .clbwin c => cl c fun x => { x with clbwin := BitVec.ofNat 32 (v.toNat % 2 ^ 20) }
    | .clbpair c => cl c fun x => { x with clbpair := writeCounter x.clbpair v }
    | .clbmiss c => cl c fun x => { x with clbmiss := writeCounter x.clbmiss v }
    | .clbsplit c => cl c fun x => { x with clbsplit := writeCounter x.clbsplit v }
    | .clxlost c => cl c fun x => { x with clxlost := writeCounter x.clxlost v }
    | .l2quota d => di d fun x => { x with l2quota := quotaValue v }
    | .dnrefuse d => di d fun x => { x with dnrefuse := writeCounter x.dnrefuse v }
    | .dnmonovf d => di d fun x => { x with dnmonovf := writeCounter x.dnmonovf v }
    | .dngrppart d => di d fun x => { x with dngrppart := writeCounter x.dngrppart v }
    | .dnbcrecall d => di d fun x => { x with dnbcrecall := writeCounter x.dnbcrecall v }
    | .dnecc d => di d fun x => { x with dnecc := writeCounter x.dnecc v }
    | .bkgrant d k => di d fun x => { x with bkgrant := x.bkgrant.set k (BitVec.ofNat 64 (v.toNat / 32 * 32)) }
    | .bkwdog d => di d fun x => { x with bkwdog := BitVec.ofNat 32 (v.toNat % 2 ^ 24) }
    | .bkreset d => di d fun x => { x with bkreset := writeCounter x.bkreset v }
    | .bkdupfix d => di d fun x => { x with bkdupfix := writeCounter x.bkdupfix v }
    | .bkdupfail d => di d fun x => { x with bkdupfail := writeCounter x.bkdupfail v }
    | .bkdirign d => di d fun x => { x with bkdirign := writeCounter x.bkdirign v }
    | .cmtbase d => di d fun x => { x with cmtbase := v }
    | .cmpmispred d => di d fun x => { x with cmpmispred := writeCounter x.cmpmispred v }
    | .hpthresh d => di d fun x => { x with hpthresh := BitVec.ofNat 32 (v.toNat % 65536) }
    | .hptpromo d => di d fun x => { x with hptpromo := writeCounter x.hptpromo v }
    | .hptpinskip d => di d fun x => { x with hptpinskip := writeCounter x.hptpinskip v }
    | .fxtmo => fx fun x => { x with fxtmo := BitVec.ofNat 32 (v.toNat % 2 ^ 24) }
    | .fxbar k => fx fun x => { x with fxbar := x.fxbar.set k (BitVec.ofNat 64 (v.toNat / 2 ^ 21 * 2 ^ 21)) }
    | .fxretry => fx fun x => { x with fxretry := writeCounter x.fxretry v }
    | .fxdrop => fx fun x => { x with fxdrop := writeCounter x.fxdrop v }
    | .fxrefuse => fx fun x => { x with fxrefuse := writeCounter x.fxrefuse v }
    | .fxfail => fx fun x => { x with fxfail := writeCounter x.fxfail v }
    | .attnonce k => bo fun x => { x with attnonce := x.attnonce.set k v }
    | .attaddr => bo fun x => { x with attaddr := BitVec.ofNat 64 (v.toNat % 2 ^ 52) }
    | .attctl => execAttctlWrite v s
    | .errcore d => di d fun x => { x with errcore := writeCounter x.errcore v }
    | .errmat d => di d fun x => { x with errmat := writeCounter x.errmat v }
    | .errmsc d => di d fun x => { x with errmsc := writeCounter x.errmsc v }
    | .errhbm d => di d fun x => { x with errhbm := writeCounter x.errhbm v }
    | .errpois d => di d fun x => { x with errpois := writeCounter x.errpois v }
    | .erruse d => di d fun x => { x with erruse := writeCounter x.erruse v }
    | .pwrlim => bo fun x => { x with pwrlim := powerValue x.record.form v }
    | .thrcnt => bo fun x => { x with thrcnt := writeCounter x.thrcnt v }

/-- What a register of the window holds for a read (R326): write-only registers, and ABORT and PREEMPT, read 0. -/
def State.regValue (s : State) (r : Reg) : DWord :=
  let q (n : Nat) (g : QueueRegs → DWord) : DWord := g (s.queue n)
  let w (x : Word) : DWord := x.setWidth 64
  match r with
  | .qbase n => q n (·.qbase)
  | .qsize n => q n fun x => w x.qsize
  | .qtail n => q n fun x => w x.qtail
  | .qhead n => q n fun x => w x.qhead
  | .qroot n => q n (·.qroot)
  | .qctl n => q n fun x => w x.qctl
  | .rmmsgbase => s.rm.rmmsgbase
  | .rmmsgsize => w s.rm.rmmsgsize
  | .rmmsgtail => w s.rm.rmmsgtail
  | .rmmsghead => w s.rm.rmmsghead
  | .rmiv => w s.rm.rmiv
  | .rmfresp | .rmshoot | .sealkey _ | .attnonce _ | .attctl => 0
  | .ctxbase => s.rm.ctxbase
  | .ctxsize => s.rm.ctxsize
  | .prewait => w s.rm.prewait
  | .sealctl => w s.rm.sealctl
  | .sealminv => w s.rm.sealminv
  | .clbwin c => w (s.cluster c).clbwin
  | .clbpair c => (s.cluster c).clbpair
  | .clbmiss c => (s.cluster c).clbmiss
  | .clbsplit c => (s.cluster c).clbsplit
  | .clxlost c => (s.cluster c).clxlost
  | .clrstat c => w (s.cluster c).clrstat
  | .l2quota d => w (s.die d).l2quota
  | .dnrefuse d => (s.die d).dnrefuse
  | .dnmonovf d => (s.die d).dnmonovf
  | .dngrppart d => (s.die d).dngrppart
  | .dnbcrecall d => (s.die d).dnbcrecall
  | .dnecc d => (s.die d).dnecc
  | .bkgrant d k => (s.die d).bkgrant.getD k 0
  | .bkwdog d => w (s.die d).bkwdog
  | .bkreset d => (s.die d).bkreset
  | .bkdupfix d => (s.die d).bkdupfix
  | .bkdupfail d => (s.die d).bkdupfail
  | .bkdirign d => (s.die d).bkdirign
  | .cmtbase d => (s.die d).cmtbase
  | .cmpmispred d => (s.die d).cmpmispred
  | .hpthresh d => w (s.die d).hpthresh
  | .hptpromo d => (s.die d).hptpromo
  | .hptpinskip d => (s.die d).hptpinskip
  | .fxdevid => w s.fabric.fxdevid
  | .fxroot => s.fabric.fxroot
  | .fxtmo => w s.fabric.fxtmo
  | .fxport => w s.fabric.fxport
  | .fxbar k => s.fabric.fxbar.getD k 0
  | .fxretry => s.fabric.fxretry
  | .fxdrop => s.fabric.fxdrop
  | .fxrefuse => s.fabric.fxrefuse
  | .fxfail => s.fabric.fxfail
  | .bootstat => s.boot.bootstat
  | .attaddr => s.boot.attaddr
  | .attstat => w s.boot.attstat
  | .errcore d => (s.die d).errcore
  | .errmat d => (s.die d).errmat
  | .errmsc d => (s.die d).errmsc
  | .errhbm d => (s.die d).errhbm
  | .errpois d => (s.die d).errpois
  | .erruse d => (s.die d).erruse
  | .pwrlim => w s.boot.pwrlim
  | .pwrnow => w s.boot.pwrnow
  | .thrstat => w s.boot.thrstat
  | .thrcnt => s.boot.thrcnt

/-- What a read of a register of the window returns: those of an absent unit read 0, and in the recovery state only BOOTSTAT
answers (R359). [log 111, 126] -/
def State.readReg (s : State) (r : Reg) : DWord :=
  if s.absent r || (s.recovery && r != .bootstat) then 0 else s.regValue r

/-! ## Memory over the link (R341) -/

/-- Whether some bytes at a physical address lie in a string under edit: the access waits (R287). -/
def State.physHeld (s : State) (pa n : Nat) : Bool :=
  (linePieces pa n (n / 192 + 2)).any fun (a, k) => s.sideHeld (s.rawLoc a) k

/-- HOST_ACCESS: performed at the home slice of each line; the data of a read are the bytes that it returns. An access
outside every window does nothing, and in the recovery state memory does not answer (R359). [log 111] -/
def execHostAccess (pa : Nat) (op : HostOp) (s : State) : Host.Outcome State Fault Refusal :=
  let n := match op with
    | .read n => n
    | .write data => data.length
  if s.recovery || n = 0 || !s.present pa n || s.physHeld pa n then .next s
  else
    match op with
    | .read n =>
      let (s, bs) := s.physRead pa n
      .next { s with hostRead := bs }
    | .write data => .next (s.physWrite pa data)

end Sys2Proof.Machine
end

