-- ==== Sys2Proof/Machine/Special.lean ====
section
/-!
DEFINITION. The special functions (04 R106), each the exact value rounded once to FP32 with .rn. The reciprocal
and the roots are exact up to a sticky part. The transcendental functions are computed in fixed point with 320
fraction bits and rounded from there: no result of an FP32 argument that is not one of the fixed results lies so
close to a rounding boundary that the difference could show (assumption 9).
-/
namespace Sys2Proof.Machine

/-- FRND (R104): rounding to an integral value; the sign of a zero result is the operand's, and no NX. -/
def frnd (mode : Mode) (a : Nat) : Rounded :=
  match fp32.decode a with
  | .nan s => ⟨fp32.nanCode, nvFlag s⟩
  | .inf n => ⟨fp32.infCode n, 0⟩
  | .fin n m e =>
    let (k, _) := roundQuantum mode 0 n m e false 0
    let r := fp32.roundFin .rn 0 false n k 0
    ⟨r.code, 0⟩

/-- FCLASS (R102): the one-hot class. -/
def fclass (a : Nat) : Nat :=
  match fp32.decode a with
  | .nan s => if s then 2 ^ 8 else 2 ^ 9
  | .inf n => if n then 2 ^ 0 else 2 ^ 7
  | .fin n m _ =>
    if m = 0 then (if n then 2 ^ 3 else 2 ^ 4)
    else if m < 2 ^ 23 then (if n then 2 ^ 2 else 2 ^ 5)
    else (if n then 2 ^ 1 else 2 ^ 6)

/-- FCPYS (R102): a with the sign of b; a NaN becomes canonical. -/
def fcpys (a b : Word) : Word :=
  if (fp32.decode a.toNat).isNaN then BitVec.ofNat 32 fp32.nanCode
  else (a &&& 0x7FFFFFFF) ||| (b &&& 0x80000000)

/-- FCMP conditions in opcode order eq, ne, lt, le, gt, ge, uno, ord (R103), with the flags raised. -/
def fcmp (cond : Nat) (a b : Nat) : Bool × Flags :=
  let x := fp32.decode a
  let y := fp32.decode b
  let un := x.isNaN || y.isNaN
  let sig := nvFlag (x.isSig || y.isSig)
  let quiet := nvFlag un
  match cond with
  | 0 => (x.eq y, sig)
  | 1 => (!x.eq y, sig)
  | 2 => (x.lt false y, quiet)
  | 3 => (!un && !(y.lt false x), quiet)
  | 4 => (y.lt false x, quiet)
  | 5 => (!un && !(x.lt false y), quiet)
  | 6 => (un, sig)
  | _ => (!un, sig)

/-! ## Fixed-point parts -/

/-- Fraction bits of the fixed-point values. -/
def fixBits : Nat := 320

/-- floor(pi * 2^600). -/
def piFix : Nat :=
  0x3243f6a8885a308d313198a2e03707344a4093822299f31d0082efa98ec4e6c89452821e638d01377be5466cf34e90c6cc0ac29b7c97c50dd3f84d5b5b54709179216d5d98979fb1bd1310b

/-- floor(ln 2 * 2^400). -/
def ln2Fix : Nat :=
  0xb17217f7d1cf79abc9e3b39803f2f6af40f343267298b62d8a0d175b8baafa2be7b876206debac98559552fb4afa1b10ed2e

/-- Product of fixed-point values, rounded down. -/
def fixMul (a b : Int) : Int := (a * b) / (2 ^ fixBits : Nat)

/-- Taylor sum: t + t*x/(i*j) + ... where the divisors are `i`, `i + step`, ...; `sq` is the factor between terms
before division. `two` says whether a term is divided by two consecutive numbers (sine, cosine). -/
def taylor (sq : Int) (two : Bool) : Nat → Nat → Int → Int
  | 0, _, _ => 0
  | fuel + 1, i, t =>
    let d : Int := if two then i * (i + 1) else i
    t + taylor sq two fuel (if two then i + 2 else i + 1) (fixMul t sq / d)

/-- e^x for a fixed-point x in [0, 1). -/
def expFix (x : Int) : Int := taylor x false 90 1 (2 ^ fixBits : Nat)

/-- Odd series sum of z^(2k+1)/(2k+1): atanh. -/
def atanhFix (z2 : Int) : Nat → Nat → Int → Int
  | 0, _, _ => 0
  | fuel + 1, i, t => t / i + atanhFix z2 fuel (i + 2) (fixMul t z2)

/-- log2 u for u = m / 2^lg with 1 ≤ u < 2, in fixed point. -/
def log2Fix (m lg : Nat) : Int :=
  let z : Int := ((m - 2 ^ lg) * 2 ^ fixBits / (m + 2 ^ lg) : Nat)
  let ln := 2 * atanhFix (fixMul z z) 110 1 z
  ln * (2 ^ 400 : Nat) / ln2Fix

/-- floor(sqrt n), bit by bit from bit `k - 1` down. -/
def isqrtAux (n : Nat) : Nat → Nat → Nat
  | 0, acc => acc
  | k + 1, acc =>
    let c := acc + 2 ^ k
    isqrtAux n k (if c * c ≤ n then c else acc)

def isqrt (n : Nat) : Nat := isqrtAux n (n.log2 / 2 + 1) 0

/-- The FP32 rounding of a fixed-point value that stands for an irrational one. -/
def roundFix (i : Int) : Rounded := fp32.roundFin .rn 0 false (i < 0) i.natAbs (-fixBits) true

/-- Only OF with its NX survives of the flags of a rounding (R106). -/
def specialFlags (r : Rounded) : Rounded :=
  if r.flags &&& flagOF = 0 then ⟨r.code, 0⟩ else ⟨r.code, flagOF ||| flagNX⟩

def one32 (neg : Bool) : Nat := fp32.signBit neg + 127 * 2 ^ 23

/-- FRCP (R106). -/
def frcp (a : Nat) : Rounded :=
  match fp32.decode a with
  | .nan s => ⟨fp32.nanCode, nvFlag s⟩
  | .inf n => ⟨fp32.signBit n, 0⟩
  | .fin n 0 _ => ⟨fp32.infCode n, flagDZ⟩
  | .fin n m e =>
    let num := 2 ^ 128
    specialFlags (fp32.roundFin .rn 0 false n (num / m) (-128 - e) (num % m != 0))

/-- FRSQ (R106): the exponent is made even, then floor(sqrt(2^256 / m)). -/
def frsq (a : Nat) : Rounded :=
  match fp32.decode a with
  | .nan s => ⟨fp32.nanCode, nvFlag s⟩
  | .inf n => if n then ⟨fp32.nanCode, flagNV⟩ else ⟨0, 0⟩
  | .fin n 0 _ => ⟨fp32.infCode n, flagDZ⟩
  | .fin true _ _ => ⟨fp32.nanCode, flagNV⟩
  | .fin false m e =>
    let (m, e) := if e % 2 = 0 then (m, e) else (2 * m, e - 1)
    let q := 2 ^ 256 / m
    let r := isqrt q
    specialFlags (fp32.roundFin .rn 0 false false r (-128 - e / 2) (r * r != q || 2 ^ 256 % m != 0))

/-- FSQRT (R106). -/
def fsqrt (a : Nat) : Rounded :=
  match fp32.decode a with
  | .nan s => ⟨fp32.nanCode, nvFlag s⟩
  | .inf n => if n then ⟨fp32.nanCode, flagNV⟩ else ⟨fp32.infCode false, 0⟩
  | .fin n 0 _ => ⟨fp32.signBit n, 0⟩
  | .fin true _ _ => ⟨fp32.nanCode, flagNV⟩
  | .fin false m e =>
    let (m, e) := if e % 2 = 0 then (m, e) else (2 * m, e - 1)
    let q := m * 2 ^ 128
    let r := isqrt q
    specialFlags (fp32.roundFin .rn 0 false false r (e / 2 - 64) (r * r != q))

/-- FEX2 (R106). An argument beyond ±1024 has the result of ±1024. [log 9] -/
def fex2 (a : Nat) : Rounded :=
  match fp32.decode a with
  | .nan s => ⟨fp32.nanCode, nvFlag s⟩
  | .inf n => if n then ⟨0, 0⟩ else ⟨fp32.infCode false, 0⟩
  | .fin n m e =>
    let x : Int := if magLe m e 1024 0 then
        (if e ≥ -(fixBits : Int) then scaledInt n m e (-fixBits) else 0)
      else (if n then -1024 else 1024) * (2 ^ fixBits : Nat)
    let k := x / (2 ^ fixBits : Nat)
    let f := x % (2 ^ fixBits : Nat)
    if f = 0 then specialFlags (fp32.roundFin .rn 0 false false 1 k)
    else
      let y := expFix (f * ln2Fix / (2 ^ 400 : Nat))
      specialFlags (fp32.roundFin .rn 0 false false y.natAbs (k - fixBits) true)

/-- FLG2 (R106). [log 9] -/
def flg2 (a : Nat) : Rounded :=
  match fp32.decode a with
  | .nan s => ⟨fp32.nanCode, nvFlag s⟩
  | .inf n => if n then ⟨fp32.nanCode, flagNV⟩ else ⟨fp32.infCode false, 0⟩
  | .fin _ 0 _ => ⟨fp32.infCode true, flagDZ⟩
  | .fin true _ _ => ⟨fp32.nanCode, flagNV⟩
  | .fin false m e =>
    let lg := m.log2
    let k : Int := e + lg
    if m = 2 ^ lg then specialFlags (fp32.roundFin .rn 0 false (k < 0) k.natAbs 0)
    else specialFlags (roundFix (k * (2 ^ fixBits : Nat) + log2Fix m lg))

/-- |x| reduced by quarter turns: the quadrant and the remainder in fixed point, in [-pi/4, pi/4]. -/
def reduceQuarter (m : Nat) (e : Int) : Int × Int :=
  let x : Int := if e ≥ -600 then m * 2 ^ (e + 600).toNat else 0
  let half : Int := piFix / 2
  let k := (x + half / 2) / half
  (k, (x - k * half) / (2 ^ (600 - fixBits) : Nat))

def sinFix (r : Int) : Int := taylor (-fixMul r r) true 60 2 r
def cosFix (r : Int) : Int := taylor (-fixMul r r) true 60 1 (2 ^ fixBits : Nat)

/-- sin and cos of a reduced argument by quadrant. -/
def sinQuadrant (k r : Int) : Int :=
  match (k % 4).toNat with
  | 0 => sinFix r
  | 1 => cosFix r
  | 2 => -sinFix r
  | _ => -cosFix r

/-- FSIN (R106). Below 2^-30 the result is the argument: sin x differs from x by less than a quarter of its
last place. [log 9] -/
def fsin (a : Nat) : Rounded :=
  match fp32.decode a with
  | .nan s => ⟨fp32.nanCode, nvFlag s⟩
  | .inf _ => ⟨fp32.nanCode, flagNV⟩
  | .fin n m e =>
    if magLe m e 1 (-30) then ⟨a % 2 ^ 32, 0⟩
    else
      let (k, r) := reduceQuarter m e
      let y := sinQuadrant k r
      specialFlags (roundFix (if n then -y else y))

/-- FCOS (R106). -/
def fcos (a : Nat) : Rounded :=
  match fp32.decode a with
  | .nan s => ⟨fp32.nanCode, nvFlag s⟩
  | .inf _ => ⟨fp32.nanCode, flagNV⟩
  | .fin _ m e =>
    if magLe m e 1 (-30) then ⟨one32 false, 0⟩
    else
      let (k, r) := reduceQuarter m e
      specialFlags (roundFix (sinQuadrant (k + 1) r))

/-- FTANH (R106): (e^2x - 1) / (e^2x + 1); beyond 32 the result rounds to 1, below 2^-30 to the argument. -/
def ftanh (a : Nat) : Rounded :=
  match fp32.decode a with
  | .nan s => ⟨fp32.nanCode, nvFlag s⟩
  | .inf n => ⟨one32 n, 0⟩
  | .fin n m e =>
    if magLe m e 1 (-30) then ⟨a % 2 ^ 32, 0⟩
    else if magLe 32 0 m e then ⟨one32 n, 0⟩
    else
      let x2 : Int := 2 * scaledInt false m e (-fixBits)
      let t := x2 * (2 ^ 400 : Nat) / ln2Fix
      let k := t / (2 ^ fixBits : Nat)
      let f := t % (2 ^ fixBits : Nat)
      let E := expFix (f * ln2Fix / (2 ^ 400 : Nat)) * (2 ^ k.toNat : Nat)
      let y := (E - (2 ^ fixBits : Nat)) * (2 ^ fixBits : Nat) / (E + (2 ^ fixBits : Nat))
      specialFlags (roundFix (if n then -y else y))

end Sys2Proof.Machine
end

