-- ==== Sys2Proof/Machine/LaneFp.lean ====
section
/-!
DEFINITION. Lane FP32 instructions and special functions (04 R101-R104, R106).
-/
namespace Sys2Proof.Machine

/-- A short FP32 instruction of one source; B must be zr. -/
def fpUnary (f : Fields) (s : State) (op : Nat → Rounded) : Host.Outcome State Fault Refusal :=
  issue false { dst := .lane, a := .w32 } f s fun t => fpOut s t f fun i => op (t.a32 f i).toNat

/-- A short FP32 instruction of two sources. -/
def fpBinary (f : Fields) (s : State) (op : Nat → Nat → Rounded) : Host.Outcome State Fault Refusal :=
  issue false { dst := .lane, a := .w32, b := .w32 } f s fun t =>
    fpOut s t f fun i => op (t.a32 f i).toNat (t.b32 f i).toNat

/-- FCMP (R103): a mask triple, with the flags of the active lanes. -/
def fpCompare (f : Fields) (s : State) (cond : Nat) : Host.Outcome State Fault Refusal :=
  issue false { dst := .triple, a := .w32, b := .w32 } f s fun t =>
    let g (i : Nat) : Bool × Flags := fcmp cond (t.a32 f i).toNat (t.b32 f i).toNat
    laneTripleOut s (t.raise (activeFlags t fun i => (g i).2)) f fun i => (g i).1

/-- FADD (R101). -/
def execFadd (f : Fields) (s : State) : Host.Outcome State Fault Refusal := fpBinary f s fp32.add
/-- FSUB (R101). -/
def execFsub (f : Fields) (s : State) : Host.Outcome State Fault Refusal := fpBinary f s fp32.sub
/-- FMUL (R101). -/
def execFmul (f : Fields) (s : State) : Host.Outcome State Fault Refusal := fpBinary f s fp32.mul
/-- FFMA (R101): one rounding, C the addend. -/
def execFfma (f : Fields) (s : State) : Host.Outcome State Fault Refusal :=
  issue false { dst := .lane, long := true, a := .w32, b := .w32, c := .w32 } f s fun t =>
    fpOut s t f fun i => fp32.fma (t.a32 f i).toNat (t.b32 f i).toNat (t.c32 f i).toNat
/-- FMIN (R102, R33). -/
def execFmin (f : Fields) (s : State) : Host.Outcome State Fault Refusal := fpBinary f s (fp32.minmax false)
/-- FMAX (R102, R33). -/
def execFmax (f : Fields) (s : State) : Host.Outcome State Fault Refusal := fpBinary f s (fp32.minmax true)
/-- FCLASS (R102). -/
def execFclass (f : Fields) (s : State) : Host.Outcome State Fault Refusal := fpUnary f s fun a => ⟨fclass a, 0⟩
/-- FCPYS (R102). -/
def execFcpys (f : Fields) (s : State) : Host.Outcome State Fault Refusal :=
  issue false { dst := .lane, a := .w32, b := .w32 } f s fun t =>
    laneOut s t f fun i => fcpys (t.a32 f i) (t.b32 f i)
/-- FCMP.eq (R103). -/
def execFcmpEq (f : Fields) (s : State) : Host.Outcome State Fault Refusal := fpCompare f s 0
/-- FCMP.ne (R103). -/
def execFcmpNe (f : Fields) (s : State) : Host.Outcome State Fault Refusal := fpCompare f s 1
/-- FCMP.lt (R103). -/
def execFcmpLt (f : Fields) (s : State) : Host.Outcome State Fault Refusal := fpCompare f s 2
/-- FCMP.le (R103). -/
def execFcmpLe (f : Fields) (s : State) : Host.Outcome State Fault Refusal := fpCompare f s 3
/-- FCMP.gt (R103). -/
def execFcmpGt (f : Fields) (s : State) : Host.Outcome State Fault Refusal := fpCompare f s 4
/-- FCMP.ge (R103). -/
def execFcmpGe (f : Fields) (s : State) : Host.Outcome State Fault Refusal := fpCompare f s 5
/-- FCMP.uno (R103). -/
def execFcmpUno (f : Fields) (s : State) : Host.Outcome State Fault Refusal := fpCompare f s 6
/-- FCMP.ord (R103). -/
def execFcmpOrd (f : Fields) (s : State) : Host.Outcome State Fault Refusal := fpCompare f s 7
/-- FRND.rn (R104). -/
def execFrndRn (f : Fields) (s : State) : Host.Outcome State Fault Refusal := fpUnary f s (frnd .rn)
/-- FRND.rz (R104). -/
def execFrndRz (f : Fields) (s : State) : Host.Outcome State Fault Refusal := fpUnary f s (frnd .rz)
/-- FRND.rd (R104). -/
def execFrndRd (f : Fields) (s : State) : Host.Outcome State Fault Refusal := fpUnary f s (frnd .rd)
/-- FRND.ru (R104). -/
def execFrndRu (f : Fields) (s : State) : Host.Outcome State Fault Refusal := fpUnary f s (frnd .ru)
/-- FRCP (R106). -/
def execFrcp (f : Fields) (s : State) : Host.Outcome State Fault Refusal := fpUnary f s frcp
/-- FRSQ (R106). -/
def execFrsq (f : Fields) (s : State) : Host.Outcome State Fault Refusal := fpUnary f s frsq
/-- FSQRT (R106). -/
def execFsqrt (f : Fields) (s : State) : Host.Outcome State Fault Refusal := fpUnary f s fsqrt
/-- FEX2 (R106). -/
def execFex2 (f : Fields) (s : State) : Host.Outcome State Fault Refusal := fpUnary f s fex2
/-- FLG2 (R106). -/
def execFlg2 (f : Fields) (s : State) : Host.Outcome State Fault Refusal := fpUnary f s flg2
/-- FSIN (R106). -/
def execFsin (f : Fields) (s : State) : Host.Outcome State Fault Refusal := fpUnary f s fsin
/-- FCOS (R106). -/
def execFcos (f : Fields) (s : State) : Host.Outcome State Fault Refusal := fpUnary f s fcos
/-- FTANH (R106). -/
def execFtanh (f : Fields) (s : State) : Host.Outcome State Fault Refusal := fpUnary f s ftanh

end Sys2Proof.Machine
end

