-- ==== Sys2Proof/Machine/Monitor.lean ====
section
/-!
DEFINITION. Condition monitors (10 R257-R260).
-/
namespace Sys2Proof.Machine

/-- Sets a monitor entry at the home slice; when its 64 are in use, the entry set earliest goes and its troupe
continues (R260). -/
def State.setMonitor (s : State) (die : Nat) (m : Monitor) : State :=
  let slice := l2Slice (lineNo (m.pa / 192))
  let mine := (s.die die).monitors.filter fun x => l2Slice (lineNo (x.pa / 192)) == slice
  let s := if mine.length < Config.monitorsPerSlice then s
    else match mine with
      | x :: _ =>
        (s.updDie die fun d =>
          { d with monitors := d.monitors.erase x, dnmonovf := stick d.dnmonovf 1 }).wakeMonitor x.uid
      | [] => s
  s.updDie die fun d => { d with monitors := d.monitors ++ [m] }

/-- WAITM (R257-R259): tests the condition at home; when it does not hold, a monitor is set and the troupe parks. An
address that is not homed on the package continues at once. [log 38] -/
def execWaitm (f : Fields) (s : State) : Host.Outcome State Fault Refusal :=
  let cmp := Fields.x f 18 16
  let wide := Fields.x f 15 15 == 1
  let sc := Fields.x f 14 12
  issue true { dst := .none, long := true, a := if wide then .w64 else .w32, ownXs := true, ownImm := true,
               immMask := 0x7FFFF, closing := true, badModifier := decide (cmp > 5) || sc == 0 || sc == 7,
               badField := Fields.xs f % 2 = 1 } f s fun t =>
    let va := globalAddr (t.spair (Fields.xs f)) 0 (Fields.disp f 12)
    let n := if wide then 8 else 4
    let v : DWord := if wide then t.ua64 f else (t.ua f).setWidth 64
    if va % n != 0 then Out.code s cMisaligned (BitVec.ofNat 64 va)
    else
      match s.translateFor t va .r with
      | (s, .denied) => Out.code s cPermission (BitVec.ofNat 64 va)
      | (s, .ok pa e psize) =>
        if s.blocksRead t pa n || s.sideHeld (s.loc pa e psize) n then .stay s t (s.stall t)
        else
          let l := s.loc pa e psize
          let bad := s.isPoisoned l n
          if bad && s.poisonTraps t then Out.code s cPoisonConsumed (BitVec.ofNat 64 va)
          else
            let (s, bs) := (s.countHot (s.rootOf t.lid) va pa e psize).homeRead l n
            let m := if bad then 0 else leNat bs
            if monitorHolds cmp wide m v.toNat || l.host then .done ((s.acquireAt t.core sc).dropOlder t.core l.line) t .none
            else
              .leave (s.setMonitor l.die { pa := l.byte, wide := wide, cmp := cmp, v := v, uid := t.uid }) t
                (.monitor sc) (t.pc + 8)
      | (s, r) =>
        let (s, k) := s.faultToken (s.rootOf t.lid) (s.queueOf t.lid) va (r == .migrate)
        .stay s t (.fault [k])

end Sys2Proof.Machine
end

