-- ==== Sys2Proof/Machine/Packed.lean ====
section
/-!
DEFINITION. Packed 16-bit instructions (04 R105): two elements per word, each exact and rounded once.
-/
namespace Sys2Proof.Machine

/-- Element k of a word. -/
def halfOf (w : Word) (k : Nat) : Nat := w.toNat / 2 ^ (16 * k) % 2 ^ 16

/-- Two element results as one word with the flags of both. -/
def packHalves (lo hi : Rounded) : Rounded := ⟨lo.code + 2 ^ 16 * hi.code, lo.flags ||| hi.flags⟩

def packedBinary (f : Fields) (s : State) (op : Nat → Nat → Rounded) : Host.Outcome State Fault Refusal :=
  issue false { dst := .lane, a := .w32, b := .w32 } f s fun t =>
    fpOut s t f fun i =>
      let a := t.a32 f i
      let b := t.b32 f i
      packHalves (op (halfOf a 0) (halfOf b 0)) (op (halfOf a 1) (halfOf b 1))

def packedTernary (f : Fields) (s : State) (op : Nat → Nat → Nat → Rounded) : Host.Outcome State Fault Refusal :=
  issue false { dst := .lane, long := true, a := .w32, b := .w32, c := .w32 } f s fun t =>
    fpOut s t f fun i =>
      let a := t.a32 f i
      let b := t.b32 f i
      let c := t.c32 f i
      packHalves (op (halfOf a 0) (halfOf b 0) (halfOf c 0)) (op (halfOf a 1) (halfOf b 1) (halfOf c 1))

/-- P2ADD.bf (R105). -/
def execP2addBf (f : Fields) (s : State) : Host.Outcome State Fault Refusal := packedBinary f s bf16.add
/-- P2MUL.bf (R105). -/
def execP2mulBf (f : Fields) (s : State) : Host.Outcome State Fault Refusal := packedBinary f s bf16.mul
/-- P2FMA.bf (R105). -/
def execP2fmaBf (f : Fields) (s : State) : Host.Outcome State Fault Refusal := packedTernary f s bf16.fma
/-- P2MIN.bf (R105). -/
def execP2minBf (f : Fields) (s : State) : Host.Outcome State Fault Refusal := packedBinary f s (bf16.minmax false)
/-- P2MAX.bf (R105). -/
def execP2maxBf (f : Fields) (s : State) : Host.Outcome State Fault Refusal := packedBinary f s (bf16.minmax true)
/-- P2ADD.hf (R105). -/
def execP2addHf (f : Fields) (s : State) : Host.Outcome State Fault Refusal := packedBinary f s fp16.add
/-- P2MUL.hf (R105). -/
def execP2mulHf (f : Fields) (s : State) : Host.Outcome State Fault Refusal := packedBinary f s fp16.mul
/-- P2FMA.hf (R105). -/
def execP2fmaHf (f : Fields) (s : State) : Host.Outcome State Fault Refusal := packedTernary f s fp16.fma
/-- P2MIN.hf (R105). -/
def execP2minHf (f : Fields) (s : State) : Host.Outcome State Fault Refusal := packedBinary f s (fp16.minmax false)
/-- P2MAX.hf (R105). -/
def execP2maxHf (f : Fields) (s : State) : Host.Outcome State Fault Refusal := packedBinary f s (fp16.minmax true)

end Sys2Proof.Machine
end

