-- ==== Sys2Proof/Machine/Paging.lean ====
section
/-!
DEFINITION. The fault unit (15 R321-R323): migration of a page to an HBM frame, demotion to the capacity tier, and the
hot-page tracker's promotions. A page moves in one step, taken when no access already translated to its frame is left
to perform, so that it is never observed half-moved.
-/
namespace Sys2Proof.Machine

/-! ## The entry of a page -/

/-- The physical address of the leaf entry a walk finds. -/
def State.leafAddrFrom (s : State) (va table : Nat) : List (Nat × Nat × Option Nat) → Option Nat
  | [] => none
  | (sh, w, _) :: rest =>
    let a := table + 8 * (va / 2 ^ sh % 2 ^ w)
    let e := BitVec.ofNat 64 (s.peekNat a 8)
    if !entryV e then none
    else if entryL e then some a
    else s.leafAddrFrom va (bitsOf e.toNat 51 8 * 256) rest

/-- A leaf in use: the address of its entry, the entry and the page size. -/
def State.leaf? (s : State) (root va : Nat) : Option (Nat × DWord × Nat) :=
  match s.walk root va, s.leafAddrFrom va root walkLevels with
  | .leaf e psize, some a => some (a, e, psize)
  | _, _ => none

/-! ## Moving a frame -/

/-- Whether a line meets [a, a + n). -/
def lineMeets (line a n : Nat) : Bool := 192 * line < a + n && a < 192 * line + 192

/-- Whether an operation holds an access translated to [a, a + n) that has not been performed. -/
def MemOp.inFrame (o : MemOp) (a n : Nat) : Bool :=
  match o.kind with
  | .loadSp | .storeSp _ | .atomSp | .query _ | .edit _ _ => false
  | _ => o.lanes.any fun r => !r.done && a ≤ r.pa && r.pa < a + n

/-- Whether an access translated to [a, a + n) is still to be performed (R322). [log 69] -/
def State.frameBusy (s : State) (a n : Nat) : Bool := s.troupes.any fun t => t.ops.any (·.inFrame a n)

/-- Whether a page move between two frames of `n` bytes must wait: for accesses to the old one that are still to be performed
(step 3 of R322), and for an edit or a bank command that holds bytes of either at the memory side (R287, R312). -/
def State.moveWaits (s : State) (old new n : Nat) : Bool :=
  s.frameBusy old n || s.bytesHeld (s.homeDie old) old n || s.bytesHeld (s.homeDie new) new n

/-- Writes back and drops every cached copy of the lines of a frame. -/
def State.purgeFrame (s : State) (a n : Nat) : State :=
  let owned := s.cores.flatMap fun c => (c.l1.filter fun x => x.owned && lineMeets x.line a n).map (·.line)
  let s := owned.foldl (fun s l => s.recall l) s
  let s := ((s.l2.filter fun x => lineMeets x.line a n).map (·.line)).foldl (fun s l => s.writeDown l) s
  { s with
    l2 := s.l2.filter fun x => !lineMeets x.line a n
    cores := s.cores.map fun c =>
      { c with l1 := c.l1.filter (fun x => !lineMeets x.line a n), ro := c.ro.filter fun x => !lineMeets x.line a n }
    dieUnits := s.dieUnits.map fun d => { d with rdc := d.rdc.filter fun x => !lineMeets x.line a n } }

/-- Copies the bytes of one frame into another, with their poison. -/
def State.copyFrame (s : State) (old new n : Nat) : State :=
  let moved := s.mem.filter fun (a, _) => old ≤ a && a < old + n
  let bad := s.poison.filter fun b => old ≤ b && b < old + n
  let kept := s.mem.filter fun (a, _) => !(new ≤ a && a < new + n)
  { s with
    mem := moved.foldl (fun m (a, b) => cellPut m (a - old + new) b) kept
    poison := (s.poison.filter fun b => !(new ≤ b && b < new + n)) ++ bad.map fun b => b - old + new }

/-- What holds physical addresses of the frame follows it: registered regions (R271), monitors, allowances. In host
memory no monitor or allowance can stand (R249, R259): those troupes continue and the allowances are recalled. [log 38, 62] -/
def State.rebase (s : State) (root va old new n : Nat) (e : DWord) : State :=
  let inside (a : Nat) : Bool := old ≤ a && a < old + n
  let toHost := match s.window? new with | some (.host, _) => true | _ => false
  let pages (m : List (Nat × Nat × Nat)) : List (Nat × Nat × Nat) :=
    m.map fun (v, p, sz) => if inside p then (v, p - old + new, sz) else (v, p, sz)
  let s : State := { s with
    dieUnits := s.dieUnits.map fun d =>
      { d with regions := d.regions.map (fun g => { g with smap := pages g.smap, dmap := pages g.dmap }),
               hot := d.hot.filter fun (r, v, _) => !(r == root && v == va) } }
  let ms := (List.range 4).flatMap fun d => (s.die d).monitors.filter fun m => inside m.pa
  let s : State := { s with
    dieUnits := s.dieUnits.map fun d => { d with monitors := d.monitors.filter fun m => !inside m.pa } }
  let s := ms.foldl (fun s m =>
    if toHost then s.wakeMonitor m.uid
    else s.setMonitor (s.homeDie (m.pa - old + new)) { m with pa := m.pa - old + new }) s
  { s with cores := s.cores.map fun c =>
      { c with allowances := c.allowances.map fun x =>
          if inside x.at_.byte then { x with at_ := s.loc (x.at_.byte - old + new) e n } else x } }

/-- Moves the page of an entry to a frame and writes the entry (steps 2 to 4 of R322), when nothing holds it up. [log 69] -/
def State.movePage (s : State) (root va entryPa : Nat) (e : DWord) (psize frame : Nat) (cap : Bool) : State :=
  let old := entryFrame e
  let vb := va - va % psize
  let toHost := match s.window? frame with | some (.host, _) => true | _ => false
  let s := if toHost then
      (s.cores.flatMap fun c => (c.allowances.filter fun x => old ≤ x.at_.byte && x.at_.byte < old + psize).map (·.at_))
        |>.foldl (fun s l => s.recallWhile l (fun _ => true) 128) s
    else s
  let s := ((s.purgeFrame old psize).purgeFrame frame psize).copyFrame old frame psize
  let v := e.toNat - entryFrame e - (if entryCAP e then 1024 else 0) + frame + (if cap then 1024 else 0)
  let e' := BitVec.ofNat 64 v
  let s := s.homeWrite (s.rawLoc entryPa) (leBytes 8 v) 4 0
  let s := s.rebase root vb old frame psize e'
  s.dropTlbs fun x => entryFrame x.entry == old || (x.root == root && x.vbase == vb)

/-! ## Free frames -/

/-- A free frame of a size from a die's pool, or from the other dies in increasing order (step 1 of R322). -/
def State.freeFrame? (s : State) (die size : Nat) : Option (Nat × Nat) :=
  (die :: (List.range 4).filter (· != die)).findSome? fun d =>
    ((s.die d).frames.find? fun (_, n) => n == size).map fun (a, _) => (d, a)

def State.takeFrame (s : State) (d a : Nat) : State :=
  s.updDie d fun x => { x with frames := x.frames.filter fun (b, _) => b != a }

/-- Message kind 3: a frame for the host's reclaim queue (R322, R339). -/
def reclaimMessage (frame psize : Nat) : Message :=
  { kind := 3, queue := 0, a32 := if psize = 65536 then 0 else if psize = 2 ^ 21 then 1 else 2,
    a64 := BitVec.ofNat 64 frame, vector := none }

/-- Migrates a page: takes the frame, moves it, reports the old frame and replays what was parked (R322). -/
def State.promote (s : State) (root va entryPa : Nat) (e : DWord) (psize d frame : Nat) : State :=
  let vb := va - va % psize
  let s := ((s.takeFrame d frame).movePage root va entryPa e psize frame false).say (reclaimMessage (entryFrame e) psize)
  s.updRm fun r =>
    { r with faults := r.faults.filter fun f => !(f.migrate && f.root == root && vb ≤ f.va && f.va < vb + psize) }

/-! ## The events -/

/-- PAGE_MIGRATION (R321, R322): the page that a token's agents wait for moves to HBM; `die` is the die of the first of
them. With every pool empty they stay parked, and a message of kind 4 is sent once. [log 69, 70] -/
def execPageMigration (token die : Nat) (s : State) : Host.Outcome State Fault Refusal :=
  match s.rm.faults.find? fun f => f.token == token && f.migrate with
  | none => .next s
  | some f =>
    let drop : State := s.updRm fun r => { r with faults := r.faults.filter fun x => x.token != token }
    match s.leaf? f.root f.va with
    | none => .next drop
    | some (a, e, psize) =>
      if !entryCAP e || entryPIN e then .next drop
      else if die ≥ 4 then .next s
      else
        match s.freeFrame? die psize with
        | some (d, frame) =>
          if s.moveWaits (entryFrame e) frame psize then .next s else .next (s.promote f.root f.va a e psize d frame)
        | none =>
          if f.starved then .next s
          else
            let s := s.say { kind := 4, queue := 0, a32 := BitVec.ofNat 32 die, a64 := 0, vector := none }
            .next (s.updRm fun r =>
              { r with faults := r.faults.map fun x => if x.token == token then { x with starved := true } else x })

/-- PAGE_DEMOTION (R322 in reverse): an HBM page moves to a frame of the capacity tier that system software gives; its
HBM frame goes to the pool of its die. None is asked for in recovery (R359). [log 71] -/
def execPageDemotion (root va frame : Nat) (s : State) : Host.Outcome State Fault Refusal :=
  match s.leaf? root va with
  | none => .next s
  | some (a, e, psize) =>
    let old := entryFrame e
    match s.window? old, s.window? frame, s.window? (frame + psize - 1) with
    | some (.hbm, d), some (k, _), some (k', _) =>
      if s.recovery || entryCMP e || k = .hbm || k' = .hbm || frame % psize != 0 || s.moveWaits old frame psize then .next s
      else
        .next ((s.movePage root va a e psize frame true).updDie d fun x => { x with frames := x.frames ++ [(old, psize)] })
    | _, _, _ => .next s

/-- HOT_PAGE_PROMOTION (R323): the tracker's candidate of the highest count is promoted, or skipped when it is pinned.
It waits for a free frame without a report. [log 72] -/
def execHotPagePromotion (die : Nat) (s : State) : Host.Outcome State Fault Refusal :=
  let d := s.die die
  let limit := d.hpthresh.toNat % 65536
  let top := d.hot.foldl (fun m (_, _, n) => max m n) 0
  if limit = 0 || top < limit then .next s
  else
    match d.hot.find? fun (_, _, n) => n == top with
    | none => .next s
    | some (root, vb, _) =>
      let clear (s : State) : State :=
        s.updDie die fun x => { x with hot := x.hot.filter fun (r, v, _) => !(r == root && v == vb) }
      match s.leaf? root vb with
      | none => .next (clear s)
      | some (a, e, psize) =>
        if entryPIN e then .next ((clear s).updDie die fun x => { x with hptpinskip := stick x.hptpinskip 1 })
        else
          match s.window? (entryFrame e) with
          | some (.hbm, _) => .next (clear s)
          | none => .next (clear s)
          | some _ =>
            match s.freeFrame? die psize with
            | none => .next s
            | some (d, frame) =>
              if s.moveWaits (entryFrame e) frame psize then .next s
              else
                .next ((s.promote root vb a e psize d frame).updDie die fun x => { x with hptpromo := stick x.hptpromo 1 })

end Sys2Proof.Machine
end

