-- ==== Sys2Proof/Machine/Scalar.lean ====
section
/-!
DEFINITION. Uniform scalar instructions (04 R122-R124).
-/
namespace Sys2Proof.Machine

/-- A short scalar instruction of one source. -/
def scalarUnary (f : Fields) (s : State) (op : Word → Word) : Host.Outcome State Fault Refusal :=
  issue true { dst := .scalar, a := .w32 } f s fun t => scalarOut s t f (op (t.ua f))

/-- A short scalar instruction of two sources. -/
def scalarBinary (f : Fields) (s : State) (op : Word → Word → Word) : Host.Outcome State Fault Refusal :=
  issue true { dst := .scalar, a := .w32, b := .w32 } f s fun t => scalarOut s t f (op (t.ua f) (t.ub f))

/-- A long scalar instruction of three sources. -/
def scalarTernary (f : Fields) (s : State) (op : Word → Word → Word → Word) : Host.Outcome State Fault Refusal :=
  issue true { dst := .scalar, long := true, a := .w32, b := .w32, c := .w32 } f s fun t =>
    scalarOut s t f (op (t.ua f) (t.ub f) (t.uc f))

/-- A scalar comparison (R123, conditions of R100). -/
def scalarCompare (f : Fields) (s : State) (cond : Word → Word → Bool) : Host.Outcome State Fault Refusal :=
  scalarBinary f s fun a b => if cond a b then 1 else 0

/-- SADD (R123). -/
def execSadd (f : Fields) (s : State) : Host.Outcome State Fault Refusal := scalarBinary f s fun a b => a + b
/-- SSUB (R123). -/
def execSsub (f : Fields) (s : State) : Host.Outcome State Fault Refusal := scalarBinary f s fun a b => a - b
/-- SMUL (R123). -/
def execSmul (f : Fields) (s : State) : Host.Outcome State Fault Refusal := scalarBinary f s fun a b => a * b
/-- SMULHI (R123). -/
def execSmulhi (f : Fields) (s : State) : Host.Outcome State Fault Refusal := scalarBinary f s opMulhi
/-- SMAD (R123). -/
def execSmad (f : Fields) (s : State) : Host.Outcome State Fault Refusal := scalarTernary f s fun a b c => a * b + c
/-- SMIN (R123). -/
def execSmin (f : Fields) (s : State) : Host.Outcome State Fault Refusal := scalarBinary f s sminW
/-- SMAX (R123). -/
def execSmax (f : Fields) (s : State) : Host.Outcome State Fault Refusal := scalarBinary f s smaxW
/-- SAND (R123). -/
def execSand (f : Fields) (s : State) : Host.Outcome State Fault Refusal := scalarBinary f s fun a b => a &&& b
/-- SOR (R123). -/
def execSor (f : Fields) (s : State) : Host.Outcome State Fault Refusal := scalarBinary f s fun a b => a ||| b
/-- SXOR (R123). -/
def execSxor (f : Fields) (s : State) : Host.Outcome State Fault Refusal := scalarBinary f s fun a b => a ^^^ b
/-- SANDN (R123). -/
def execSandn (f : Fields) (s : State) : Host.Outcome State Fault Refusal := scalarBinary f s fun a b => a &&& ~~~b
/-- SSHL (R123). -/
def execSshl (f : Fields) (s : State) : Host.Outcome State Fault Refusal := scalarBinary f s opShl
/-- SSHR (R123). -/
def execSshr (f : Fields) (s : State) : Host.Outcome State Fault Refusal := scalarBinary f s opShr
/-- SSAR (R123). -/
def execSsar (f : Fields) (s : State) : Host.Outcome State Fault Refusal := scalarBinary f s opSar
/-- SBFX (R123): as BFX.z. -/
def execSbfx (f : Fields) (s : State) : Host.Outcome State Fault Refusal := scalarTernary f s (opBfx false)
/-- SBFI (R123): as BFI; a length of 33 to 63 traps ILLEGAL-OPCODE (R98). -/
def execSbfi (f : Fields) (s : State) : Host.Outcome State Fault Refusal :=
  let len := Fields.x f 5 0
  issue true { dst := .scalar, long := true, a := .w32, b := .w32, c := .w32, ownImm := true, immMask := 0x3F,
               badModifier := len > 32 } f s fun t => scalarOut s t f (opBfi len (t.ua f) (t.ub f) (t.uc f))
/-- SPOPC (R123). -/
def execSpopc (f : Fields) (s : State) : Host.Outcome State Fault Refusal := scalarUnary f s opPopc
/-- SFFS (R123): the index of the least significant 1, 32 for 0. -/
def execSffs (f : Fields) (s : State) : Host.Outcome State Fault Refusal := scalarUnary f s opCtz
/-- SSEL (R123). -/
def execSsel (f : Fields) (s : State) : Host.Outcome State Fault Refusal := scalarTernary f s opSel
/-- SMOV (R123). -/
def execSmov (f : Fields) (s : State) : Host.Outcome State Fault Refusal := scalarUnary f s fun a => a
/-- SADD64 (R122, R123). -/
def execSadd64 (f : Fields) (s : State) : Host.Outcome State Fault Refusal :=
  issue true { dst := .scalarPair, a := .w64, b := .w64 } f s fun t => pairOut s t f (t.ua64 f + t.ub64 f)
/-- SLEA (R123). -/
def execSlea (f : Fields) (s : State) : Host.Outcome State Fault Refusal :=
  issue true { dst := .scalar, long := true, a := .w32, b := .w32, ownImm := true, immMask := 0x7 } f s fun t =>
    scalarOut s t f (t.ua f + t.ub f <<< Fields.x f 2 0)

/-- LANERD (R124): lane b of v(X.imm[6:0]), whatever the lane's activity; b of 96 or more traps. -/
def execLanerd (f : Fields) (s : State) : Host.Outcome State Fault Refusal :=
  let r := Fields.x f 6 0
  issue true { dst := .scalar, long := true, b := .w32, ownImm := true, immMask := 0x7F, laneReg := some r } f s fun t =>
    let b := (t.ub f).toNat
    if b ≥ Config.lanes then Out.code s cIllegalOperand else scalarOut s t f (rowGet (t.vrow r) b)
/-- LANEWR (R124). -/
def execLanewr (f : Fields) (s : State) : Host.Outcome State Fault Refusal :=
  let r := Fields.x f 6 0
  issue true { dst := .none, long := true, a := .w32, b := .w32, ownImm := true, immMask := 0x7F,
               laneReg := some r, laneRegRead := false } f s fun t =>
    let b := (t.ub f).toNat
    if b ≥ Config.lanes then Out.code s cIllegalOperand else .done s (t.setVLane r b (t.ua f)) .none

/-- SCMP.eq (R123). -/
def execScmpEq (f : Fields) (s : State) : Host.Outcome State Fault Refusal := scalarCompare f s (condition 0)
/-- SCMP.ne (R123). -/
def execScmpNe (f : Fields) (s : State) : Host.Outcome State Fault Refusal := scalarCompare f s (condition 1)
/-- SCMP.lt (R123). -/
def execScmpLt (f : Fields) (s : State) : Host.Outcome State Fault Refusal := scalarCompare f s (condition 2)
/-- SCMP.le (R123). -/
def execScmpLe (f : Fields) (s : State) : Host.Outcome State Fault Refusal := scalarCompare f s (condition 3)
/-- SCMP.gt (R123). -/
def execScmpGt (f : Fields) (s : State) : Host.Outcome State Fault Refusal := scalarCompare f s (condition 4)
/-- SCMP.ge (R123). -/
def execScmpGe (f : Fields) (s : State) : Host.Outcome State Fault Refusal := scalarCompare f s (condition 5)
/-- SCMP.ltu (R123). -/
def execScmpLtu (f : Fields) (s : State) : Host.Outcome State Fault Refusal := scalarCompare f s (condition 6)
/-- SCMP.leu (R123). -/
def execScmpLeu (f : Fields) (s : State) : Host.Outcome State Fault Refusal := scalarCompare f s (condition 7)
/-- SCMP.gtu (R123). -/
def execScmpGtu (f : Fields) (s : State) : Host.Outcome State Fault Refusal := scalarCompare f s (condition 8)
/-- SCMP.geu (R123). -/
def execScmpGeu (f : Fields) (s : State) : Host.Outcome State Fault Refusal := scalarCompare f s (condition 9)

end Sys2Proof.Machine
end

