-- ==== Sys2Proof/Machine/Scan.lean ====
section
/-!
DEFINITION. The scan engines (15 R316-R318) and cache maintenance (R319, R320).
-/
namespace Sys2Proof.Machine

/-! ## SCANQ -/

/-- Bytes of a source element. -/
def scanWidth (ef : Nat) : Nat := if ef = 0 then 2 else 4

/-- SCANQ (R316). [log 142] -/
def execScanq (f : Fields) (s : State) : Host.Outcome State Fault Refusal :=
  issue true { dst := .scalarPair, long := true, ownXs := true,
               badField := Fields.xs f % 8 != 0 || decide (Fields.xs f > 56) } f s fun t =>
    let q (i : Nat) : Nat := (t.sreg (Fields.xs f + i)).toNat
    let a : ScanArgs :=
      { src := (q 0 + 2 ^ 32 * q 1) % 2 ^ 56, n := q 2, op := bitsOf (q 3) 3 0, ef := bitsOf (q 3) 5 4,
        k := bitsOf (q 3) 26 16, thr := BitVec.ofNat 32 (q 4), m := q 5, out := (q 6 + 2 ^ 32 * q 7) % 2 ^ 56 }
    let top := decide (a.op ≥ 6)
    let ok := decide (a.op ≤ 7) && decide (a.ef ≤ 2) && bitsOf (q 3) 15 6 == 0 && bitsOf (q 3) 31 27 == 0
      && (if top then decide (1 ≤ a.k) && decide (a.k ≤ 1024) && a.thr == 0 && decide (a.k ≤ a.m) else a.k == 0)
      && (a.ef != 0 || decide (a.thr.toNat < 2 ^ 16)) && decide (a.m ≤ 2 ^ 24)
    if !ok then Out.code s cIllegalOperand
    else if a.src % scanWidth a.ef != 0 then Out.code s cMisaligned (BitVec.ofNat 64 a.src)
    else if a.out % 8 != 0 then Out.code s cMisaligned (BitVec.ofNat 64 a.out)
    else engineIssue f s t (fun s => s.giveOp t.cid 3 t.uid (.scanq a) [(0, 1)] []) fun t => t

/-- The value of a source element; an INT32 element as an integer. -/
def scanVal (ef code : Nat) : Val := decodeElem (if ef = 0 then cBF16 else if ef = 1 then cFP32 else cINT32) code

/-- Whether an element satisfies a predicate against the threshold (R317, R103). -/
def scanHolds (op : Nat) (v thr : Val) : Bool :=
  let ordered := !v.isNaN && !thr.isNaN
  match op with
  | 0 => ordered && thr.lt false v
  | 1 => ordered && !v.lt false thr
  | 2 => ordered && v.lt false thr
  | 3 => ordered && !thr.lt false v
  | 4 => v.eq thr
  | _ => !v.eq thr

/-- Puts an element before the first one that does not go before it in the order of top-k. -/
def topInsert (max : Bool) (x : Nat × Val) : List (Nat × Val) → List (Nat × Val)
  | [] => [x]
  | y :: rest =>
    let before := if max then y.2.lt false x.2 else x.2.lt false y.2
    if before then x :: y :: rest else y :: topInsert max x rest

/-- The selection S of R317, as indices. -/
def scanSelect (a : ScanArgs) (codes : List Nat) : List Nat :=
  let vals := codes.zipIdx.map fun (c, i) => (i, scanVal a.ef c)
  if a.op ≥ 6 then
    let keep := vals.filter fun (_, v) => !v.isNaN
    ((keep.foldl (fun xs x => topInsert (a.op == 6) x xs) []).take a.k).map (·.1)
  else (vals.filter fun (_, v) => scanHolds a.op v (scanVal a.ef a.thr.toNat)).map (·.1)

/-- The bytes of a scan's source, at or below the memory-side cache; the pages must be valid, readable, in an HBM window
and not compressed (R317). [log 68] -/
def State.scanBytes (s : State) (x : EngCtx) (va : Nat) (got : List Byte) : Nat → Except Moved (State × List Byte)
  | 0 => .ok (s, got)
  | n + 1 =>
    let va := va % 2 ^ 56
    match s.translateEng x va .r with
    | (s, .report) => .error (.fail s)
    | (s, .denied) => .error (.fail s)
    | (s, .migrate) =>
      let (s, k) := s.faultToken x.root x.queue va true
      .error (.park s k)
    | (s, .ok pa e _) =>
      let hbm := match s.window? pa with
        | some (.hbm, _) => true
        | _ => false
      if !hbm || entryCMP e then .error (.fail s)
      else if s.sideHeld (s.rawLoc pa) 1 then .error (.busy s)
      else
        let b := if s.poison.contains pa then 0 else cellGet s.mem pa
        s.scanBytes x (va + 1) (got ++ [b]) n

/-- The result of a scan (R317): its output bytes one after the other, and the ranges they go to, as offsets from OUT. -/
def scanResult (a : ScanArgs) (bs : List Byte) : List Byte × List (Nat × Nat) :=
  let w := scanWidth a.ef
  let codes := (List.range a.n).map fun i => leNat ((bs.drop (w * i)).take w)
  let sel := scanSelect a codes
  let shown := sel.take a.m
  let n := shown.length
  (leBytes 4 sel.length ++ leBytes 4 0 ++ shown.flatMap (leBytes 4) ++ shown.flatMap fun i => leBytes w (codes.getD i 0),
   [(0, 8)] ++ (if n = 0 then [] else [(8, 4 * n), (8 + 4 * a.m, w * n)]))

/-- Where the byte for an offset from OUT stands among the output bytes of a scan that shows `n` elements. -/
def scanAt (a : ScanArgs) (n off : Nat) : Nat := if off < 8 + 4 * n then off else off - 4 * a.m + 4 * n

/-- SCAN_RUN (R317, R318): reads the source and finds the result; then writes its output values one by one, from OUT up, until
the operation completes. [log 68] -/
def execScanRun (cid id : Nat) (s : State) : Host.Outcome State Fault Refusal :=
  match s.engOp? cid id with
  | none => .next s
  | some o =>
    match o.kind, s.engCtx? cid o with
    | .scanq a, some x =>
      if o.done || EngOp.waiting s o then .next s
      else
        let w := scanWidth a.ef
        match o.vector, o.todo with
        | [], _ =>
          match s.scanBytes x a.src [] (w * a.n) with
          | .error m => .next (afterMove cid id 0 (0, m))
          | .ok (s, bs) =>
            .next (s.setOp cid { o with vector := (scanResult a bs).1, todo := (scanResult a bs).2, parked := none })
        | _, [] => .next s
        | out, (off, len) :: _ =>
          let n := (out.length - 8) / (4 + w)
          let k := min len (if off < 8 + 4 * n then 4 else w)
          .next (afterMove cid id off (match s.dstBytes x id false (a.out + off) false ((out.drop (scanAt a n off)).take k) with
            | .ok s => (k, .ok s)
            | m => (0, m)))
    | _, _ => .next s

/-! ## CLEANR, INVR, FLUSHR -/

/-- A maintenance instruction: `form` 0 CLEANR, 1 INVR, 2 FLUSHR (R319). -/
def maintenance (form : Nat) (f : Fields) (s : State) : Host.Outcome State Fault Refusal :=
  issue true { dst := .scalarPair, long := true, a := .w32, ownXs := true, ownImm := true, immMask := 0x7FFFF,
               badField := Fields.xs f % 2 != 0 } f s fun t =>
    let len := (t.ua f).toNat
    let start := globalAddr (t.spair (Fields.xs f)) 0 (Fields.disp f 19)
    if len > 0 && start + len > 2 ^ 56 then Out.code s cIllegalOperand
    else
      let lines := if len = 0 then [] else [(start / 192, (start + len - 1) / 192 + 1 - start / 192)]
      engineIssue f s t (fun s => s.giveOp t.cid 5 t.uid (.maint form start len) lines []) fun t => t

/-- CLEANR (R319). -/
def execCleanr (f : Fields) (s : State) : Host.Outcome State Fault Refusal := maintenance 0 f s
/-- INVR (R319). -/
def execInvr (f : Fields) (s : State) : Host.Outcome State Fault Refusal := maintenance 1 f s
/-- FLUSHR (R319). -/
def execFlushr (f : Fields) (s : State) : Host.Outcome State Fault Refusal := maintenance 2 f s

/-- What maintenance does at a home line (R319): CLEANR writes it down to the memory-side cache, INVR then drops every copy,
and FLUSHR writes it on to memory. -/
def State.maintainLine (s : State) (form line : Nat) : State :=
  let s := (s.recall line).writeDown line
  if form = 0 then s
  else
    let s : State := { s with
      l2 := s.l2.filter (·.line != line)
      dieUnits := s.dieUnits.map fun d => { d with rdc := d.rdc.filter (·.line != line) }
      invals := s.invals.filter (·.line != line) }
    if form = 1 then s else s.sideClean (·.line != line)

/-- The home lines that some bytes of a maintenance range stand in: pages in the capacity tier and in the host window have
none. [log 68] -/
def State.maintLines (s : State) (x : EngCtx) (va : Nat) (got : List Loc) : Nat → Except Moved (State × List Loc)
  | 0 => .ok (s, got)
  | n + 1 =>
    match s.translateEng x va .r with
    | (s, .denied) => .error (.fail s)
    | (s, .report) =>
      let (s, k) := s.faultToken x.root x.queue va false
      .error (.park s k)
    | (s, .migrate) => s.maintLines x (va + 1) got n
    | (s, .ok pa e psize) =>
      let l := { s.loc pa e psize with off := 0 }
      s.maintLines x (va + 1) (if l.host || entryCAP e || got.any (·.line == l.line) then got else got ++ [l]) n

/-- MAINTENANCE_RUN (R319): a maintenance operation acts on the part of its range in the line at virtual address
192 * line. -/
def execMaintenanceRun (cid id line : Nat) (s : State) : Host.Outcome State Fault Refusal :=
  match s.engOp? cid id with
  | none => .next s
  | some o =>
    match o.kind, s.engCtx? cid o with
    | .maint form start len, some x =>
      if o.done || EngOp.waiting s o then .next s
      else if len = 0 then .next (s.setOp cid (o.finish false))
      else if (takeRange o.todo line 1).1 = 0 then .next s
      else
        let lo := max start (192 * line)
        let hi := min (start + len) (192 * line + 192)
        .next (afterMove cid id line (match s.maintLines x lo [] (hi - lo) with
          | .ok (s, ls) =>
            if ls.any fun l => s.sideHeld l 192 then (0, .busy s)
            else (1, .ok (ls.foldl (fun s l => s.maintainLine form l.line) s))
          | .error m => (0, m)))
    | _, _ => .next s

end Sys2Proof.Machine
end

