-- ==== Sys2Proof/Machine/SpecialRegs.lean ====
section
/-!
DEFINITION. Format and special registers (02 R67; 04 R131, R132).
-/
namespace Sys2Proof.Machine

/-- SETFMT (R76, R131). -/
def execSetfmt (f : Fields) (s : State) : Host.Outcome State Fault Refusal :=
  issue true { dst := .none, a := .w32 } f s fun t => .done s { t with fmt := t.ua f &&& 0x7FFF } .none

/-- GETFMT (R131). -/
def execGetfmt (f : Fields) (s : State) : Host.Outcome State Fault Refusal :=
  issue true { dst := .scalar } f s fun t => scalarOut s t f t.fmt

/-- R67: the 64-bit special registers. -/
def specialWide (k : Nat) : Bool := k == 0 || k == 1 || k == 6 || k == 7 || k == 9 || k == 10

/-- R67: the special registers that SWR may write. -/
def specialWritable (k : Nat) : Bool := k == 5 || k == 6 || k == 7 || k == 16 || k == 17

/-- R67: what special register k reads as. [log 40] -/
def State.readSpecial (s : State) (t : Troupe) (k : Nat) : DWord :=
  match k with
  | 0 => t.wid
  | 1 => s.clock
  | 2 => BitVec.ofNat 64 t.core
  | 3 => BitVec.ofNat 64 (dieOf t.core)
  | 4 => (s.fabric.fxdevid &&& 0x3FFFF).setWidth 64
  | 5 => t.fflags.setWidth 64
  | 6 => t.srseed
  | 7 => t.srctr
  | 8 => t.tcause.setWidth 64
  | 9 => t.tpc
  | 10 => t.taddr
  | 11 => (maskWord t.tmask 0).setWidth 64
  | 12 => (maskWord t.tmask 1).setWidth 64
  | 13 => (maskWord t.tmask 2).setWidth 64
  | 14 => t.mrp.setWidth 64
  | 15 => t.gang.setWidth 64
  | 16 => t.grpsel.setWidth 64
  | _ => t.ldstat.setWidth 64

/-- R132, R262: an SWR keeps the bits that the register has. -/
def Troupe.writeSpecial (t : Troupe) (k : Nat) (w : DWord) : Troupe :=
  match k with
  | 5 => { t with fflags := w.setWidth 32 &&& 0x3F }
  | 6 => { t with srseed := w }
  | 7 => { t with srctr := w }
  | 16 => { t with grpsel := w.setWidth 32 &&& 0x7 }
  | 17 => { t with ldstat := w.setWidth 32 &&& 0xFF01 }
  | _ => t

/-- SRD (R132); ldstat waits until the troupe has no group load outstanding (R262). [log 40] -/
def execSrd (f : Fields) (s : State) : Host.Outcome State Fault Refusal :=
  let k := Fields.x f 4 0
  let wide := specialWide k
  issue true { dst := if wide then .scalarPair else .scalar, long := true, ownImm := true, immMask := 0x1F,
               badField := k ≥ 18 } f s fun t =>
    let outstanding := t.ops.any (·.isGroup)
    if k = 17 && outstanding then .stay s t (s.stall t)
    else if wide then pairOut s t f (s.readSpecial t k)
    else scalarOut s t f ((s.readSpecial t k).setWidth 32)

/-- SWR (R132). -/
def execSwr (f : Fields) (s : State) : Host.Outcome State Fault Refusal :=
  let k := Fields.x f 4 0
  let wide := specialWide k
  issue true { dst := .none, long := true, a := if wide then .w64 else .w32, ownImm := true, immMask := 0x1F,
               badField := decide (k ≥ 18) || !specialWritable k } f s fun t =>
    .done s (t.writeSpecial k (if wide then t.ua64 f else (t.ua f).setWidth 64)) .none

end Sys2Proof.Machine
end

