-- ==== Sys2Proof/Machine/Succinct.lean ====
section
/-!
DEFINITION. Succinct queries (11 R277-R280, R284, R285, R289) and edits (R286-R288).
-/
namespace Sys2Proof.Machine

/-! ## Answers (R277) -/

/-- The answer to a query: its result, or a trap code; with the last position that it meets (R284, R289). -/
structure Answer where
  value : Nat
  code : Nat
  reach : Nat
  deriving DecidableEq, Repr

def noPosition : Nat := 0xFFFFFFFF

/-- Ones among n positions from j. -/
def onesIn (bit : Nat → Bool) (j : Nat) : Nat → Nat
  | 0 => 0
  | n + 1 => (if bit j then 1 else 0) + onesIn bit (j + 1) n

/-- The position of the `k`-th bit equal to `v` among n positions from j. -/
def selectBit (bit : Nat → Bool) (v : Bool) (k j : Nat) : Nat → Option Nat
  | 0 => none
  | n + 1 =>
    if bit j == v then (if k ≤ 1 then some j else selectBit bit v (k - 1) (j + 1) n)
    else selectBit bit v k (j + 1) n

/-- The first q of n positions from j at which the excess, `r` before it, becomes 0. -/
def closeUp (bit : Nat → Bool) (r : Int) (j : Nat) : Nat → Option Nat
  | 0 => none
  | n + 1 =>
    let r := r + (if bit j then 1 else -1)
    if r = 0 then some j else closeUp bit r (j + 1) n

/-- The largest q below j before which the excess is 0, where it is `r` before position j. -/
def openDown (bit : Nat → Bool) (r : Int) : Nat → Option Nat
  | 0 => none
  | q + 1 =>
    let r := r - (if bit q then 1 else -1)
    if r = 0 then some q else openDown bit r q

/-- R277 for OPC `op` (0 RANK1 to 6 ENCL) over a string of `len` bits, with steps 6 and 7 of R279. -/
def solve (op p len : Nat) (bit : Nat → Bool) : Answer :=
  let at_ (q : Nat) : Answer := ⟨q, 0, q⟩
  let none_ : Answer := ⟨noPosition, 0, len - 1⟩
  let stop (c : Nat) : Answer := ⟨0, c, p⟩
  let sel (v : Bool) : Answer :=
    if p = 0 then none_ else
    match selectBit bit v p 0 len with
    | some q => at_ q
    | none => none_
  let open_ := decide (p < len) && bit p
  let ones := if p < len then onesIn bit 0 (p + 1) else 0
  let level : Int := 2 * ones - (p + 1) + (if open_ then 0 else 1)
  match op with
  | 2 => sel true
  | 3 => sel false
  | _ =>
    if p ≥ len then ⟨0, cRegionRange, len - 1⟩
    else
      match op with
      | 0 => ⟨ones, 0, p⟩
      | 1 => ⟨p + 1 - ones, 0, p⟩
      | 4 =>
        if !open_ then at_ p
        else match closeUp bit 1 (p + 1) (len - (p + 1)) with
          | some q => at_ q
          | none => ⟨0, cUnbalanced, len - 1⟩
      | 5 =>
        if open_ then at_ p
        else match openDown bit 1 p with
          | some q => ⟨q, 0, p⟩
          | none => stop cUnbalanced
      | _ =>
        if level = 1 then ⟨noPosition, 0, p⟩
        else if level ≤ 0 then stop cUnbalanced
        else match openDown bit (if open_ then 1 else 2) p with
          | some q => ⟨q, 0, p⟩
          | none => stop cUnbalanced

/-! ## Queries -/

/-- What the checks of steps 1 to 4 of R279 come to for all lanes. -/
inductive LaneRegions where
  | ok (s : State) (lanes : List (Nat × Region))
  | wait (s : State) (p : Park)
  | trap (s : State) (raised : List (Nat × Nat × DWord))
  deriving DecidableEq, Repr

/-- Finds the regions of the handles that some lanes name, one handle after the other. -/
def State.laneRegions (s : State) (t : Troupe) (handle : Nat → Nat) (brackets : Bool) (got : List (Nat × Region))
    (raised : List (Nat × Nat × DWord)) : List Nat → LaneRegions
  | [] => if raised.isEmpty then .ok s got else .trap s raised
  | h :: rest =>
    let mine := t.lanes.filter fun i => handle i == h
    let all (c a : Nat) : List (Nat × Nat × DWord) := mine.map fun i => (i, c, BitVec.ofNat 64 a)
    if h ≥ 2 ^ 20 then s.laneRegions t handle brackets got (raised ++ all cIllegalOperand 0) rest
    else
      match s.handleRegion t h with
      | .wait s p => .wait s p
      | .trap s c a => s.laneRegions t handle brackets got (raised ++ all c a) rest
      | .ok s g =>
        if brackets && g.r.rkind = 0 then s.laneRegions t handle brackets got (raised ++ all cIllegalOperand 0) rest
        else s.laneRegions t handle brackets (got ++ mine.map fun i => (i, g)) raised rest

/-- Whether an operation of the troupe's is a store, atomic or edit whose target is homed on one of some dies (R280). -/
def State.storesOn (s : State) (t : Troupe) (dies : List Nat) : Bool :=
  t.ops.any fun o =>
    match o.kind with
    | .storeG | .atomG | .bcDec | .bcInc | .bcInit _ =>
      o.lanes.any fun r => !r.done && dies.contains (s.loc r.pa r.entry r.psize).die
    | .edit _ _ => o.lanes.any fun r => !r.done && dies.contains r.psize
    | _ => false

/-- A query or edit operation of the memory side: its lanes name a region by record address and die. -/
def regionOp (s : State) (t : Troupe) (kind : MemKind) (dest : Option Nat) (lanes : List LaneReq) (st : Bool) : MemOp :=
  { id := t.nextOp, kind := kind, sub := 0, acquire := false, release := false, scope := 0, dest := dest, latch := 4,
    act := t.actSerial, raisesLd := !st, raisesSt := st, lanes := lanes, samples := [], flags := 0,
    released := none, since := s.clock.toNat, sync := false }

def regionReq (lane addr : Nat) (g : Region) : LaneReq := newReq lane addr g.ra 0 g.r.hdie

/-- Whether an edit waits for the lock of a region, so that later queries wait for it (R287). [log 58] -/
def State.editWaits (s : State) (g : Region) : Bool :=
  g.waiting.any fun uid => (s.troupe? uid).any fun t => s.runnable t && t.park == .interlock

/-- A query (R278-R280): its checks and its sending. The troupe parks until every lane is answered. [log 58] -/
def query (op : Nat) (f : Fields) (s : State) : Host.Outcome State Fault Refusal :=
  issue false { dst := .lane, long := true, a := .w32, b := .w32 } f s fun t =>
    match countFull s t true false with
    | some p => .stay s t p
    | none =>
      let handle (i : Nat) : Nat := (t.b32 f i).toNat
      match s.laneRegions t handle (decide (op ≥ 4)) [] [] ((t.lanes.map handle).eraseDups) with
      | .wait s p => .stay s t p
      | .trap s raised =>
        match lowestTrap raised with
        | some (c, a, m) => .trap s (BitVec.ofNat 32 c) a m
        | none => .stay s t .interlock
      | .ok s gs =>
        if s.storesOn t (gs.map fun (_, g) => g.r.hdie) || gs.any (fun (_, g) => s.editWaits g) then
          .stay s t (s.stall t)
        else if gs.isEmpty then laneOut s t f fun _ => 0
        else
          let o := regionOp s t (.query op) (if f.n then none else some f.d.toNat)
            (gs.map fun (i, g) => regionReq i (t.a32 f i).toNat g) false
          .stay s (t.addOp o) (.query o.id)

/-- RANK1 (R277). -/
def execRank1 (f : Fields) (s : State) : Host.Outcome State Fault Refusal := query 0 f s
/-- RANK0 (R277). -/
def execRank0 (f : Fields) (s : State) : Host.Outcome State Fault Refusal := query 1 f s
/-- SEL1 (R277). -/
def execSel1 (f : Fields) (s : State) : Host.Outcome State Fault Refusal := query 2 f s
/-- SEL0 (R277). -/
def execSel0 (f : Fields) (s : State) : Host.Outcome State Fault Refusal := query 3 f s
/-- FCLOSE (R277). -/
def execFclose (f : Fields) (s : State) : Host.Outcome State Fault Refusal := query 4 f s
/-- FOPEN (R277). -/
def execFopen (f : Fields) (s : State) : Host.Outcome State Fault Refusal := query 5 f s
/-- ENCL (R277). -/
def execEncl (f : Fields) (s : State) : Host.Outcome State Fault Refusal := query 6 f s

/-- Copies of string lines 0 to `last` that a query's core reads through, and that may be older than what the query has read, go:
a later load of its troupe sees nothing older (R153, R284). -/
def State.dropOlderString (s : State) (g : Region) (core last : Nat) : State :=
  (List.range (last + 1)).foldl (fun s b =>
    (((List.range 192).map fun i => g.strPa (192 * b + i) / 192).eraseDups).foldl (fun s line => s.dropOlder core line) s) s

/-- Answers one lane of a query at the memory side, unless an edit holds the region (R280, R285, R287, R289). [log 61] -/
def State.answerLane (s : State) (t : Troupe) (op : Nat) (r : LaneReq) : State × Option LaneReq :=
  match s.region? r.psize (s.rootOf t.lid) r.pa with
  | none => (s, none)
  | some g =>
    if g.edit.isSome || s.stringHeld g then (s, none)
    else if s.regionState g = 2 then
      let jtl := if s.summaryLost g then 0 else s.dirGet g oJTL 8
      (s, some { r with done := true, status := cEngineFault, taddr := BitVec.ofNat 64 jtl })
    else
      let len := s.dirGet g oLEN 4
      let a := solve op r.addr len (s.strBit g)
      let s := (s.repairInline g (a.reach / 1536)).dropOlderString g t.core (a.reach / 1536)
      let trap (c addr : Nat) : LaneReq := { r with done := true, status := c, taddr := BitVec.ofNat 64 addr }
      if a.code = cRegionRange then (s, some (trap a.code g.ra))
      else match if len = 0 then none else s.poisonedLine? g (a.reach / 1536) with
        | some b =>
          if s.poisonTraps t then (s, some (trap cPoisonConsumed (g.r.sbase + 192 * b)))
          else
            (s.updDie g.r.hdie fun d => { d with erruse := stick d.erruse 1 },
             some { r with done := true, result := BitVec.ofNat 64 noPosition })
        | none =>
          if a.code != 0 then (s, some (trap a.code g.ra))
          else (s, some { r with done := true, result := BitVec.ofNat 64 a.value })

/-- Whether a query's lane may be answered: it keeps behind its troupe's earlier acquires and earlier loads of the string
(R153, R163, R284), and behind what a release has ordered before it there. -/
def State.queryFree (s : State) (t : Troupe) (o : MemOp) (r : LaneReq) : Bool :=
  match s.region? r.psize (s.rootOf t.lid) r.pa with
  | none => false
  | some g =>
    let onString (e : MemOp) : Bool := !e.isSpad && e.isOrdered && e.lanes.any fun x =>
      !x.done && !(g.blocksAt (e.at_ x) e.size).isEmpty
    (t.ops.filter (·.id < o.id)).all (fun e => !e.acquire && !(e.isLoad && onString e))
      && !s.troupes.any fun u => u.ops.any fun e => e.orders u t o.since && onString e

/-- Every lane of a query is answered (R280): its results are written and ld falls, or its trap is taken; the troupe goes
on after it. -/
def State.finishQuery (s : State) (t : Troupe) (o : MemOp) : State :=
  let t' := t.putOp o
  match lowestTrap (o.lanes.filterMap fun r => if r.status = 0 then none else some (r.lane, r.status, r.taddr)) with
  | some (c, a, m) =>
    (s.claimLatch t false).takeTrap (t'.claimLatch t false) (BitVec.ofNat 32 c) a m t.parkResume
  | none =>
    let value (i : Nat) : Word := match o.lanes.find? (·.lane == i) with
      | some r => r.result.setWidth 32
      | none => 0
    let t1 := match o.dest with
      | some d => t'.setV d t.act value
      | none => t'
    let t2 : Troupe := { t1.claimLatch t false with
      pc := t.pc + BitVec.ofNat 64 t.parkResume.len
      pos := t.pos.advance false (laneLatchOf t.act fun i => (value i).setWidth 64)
      park := .run, declined := [] }
    (s.claimLatch t false).setTroupe (if t.parkResume.ends then t2.newAct else t2)

/-- QUERY_PERFORM (R280): the memory side answers one lane of a query, or every lane left; the last answer ends the query.
[log 61] -/
def execQueryPerform (uid id : Nat) (lane : Option Nat) (s : State) : Host.Outcome State Fault Refusal :=
  match (s.troupe? uid).bind (·.op? id) with
  | none => .next s
  | some o =>
    match o.kind with
    | .query op =>
      .next (o.lanes.foldl (fun s r =>
        match s.troupe? uid with
        | none => s
        | some t =>
          match t.op? id with
          | none => s
          | some o =>
            if r.done || !(lane.all (· == r.lane)) || !s.queryFree t o r then s
            else
              match s.answerLane t op r with
              | (s, none) => s
              | (s, some r) =>
                let o := o.setLane r
                if o.lanes.all (·.done) then s.finishQuery t o
                else s.setTroupe { t with ops := t.ops.map fun x => if x.id == id then o else x }) s)
    | _ => .next s

/-! ## Edits (R286) -/

/-- One lane's edit: its position, count and bits. -/
structure EditReq where
  lane : Nat
  p : Nat
  n : Nat
  x : DWord
  deriving DecidableEq, Repr

/-- The low n bits. -/
def lowBits (x n : Nat) : Nat := x % 2 ^ n

/-- Whether a lane's edit is the one that a region's journal describes (R288). -/
def State.finishes (s : State) (g : Region) (insert : Bool) (q : EditReq) : Bool :=
  !s.summaryLost g && s.dirGet g oJOP 1 == (if insert then 1 else 2) && s.dirGet g oJPOS 4 == q.p
    && s.dirGet g oJN 1 == q.n && (!insert || lowBits (s.dirGet g oJBITS 8) q.n == lowBits q.x.toNat q.n)

/-- R286 step 3 on a string of `len` bits. -/
def editInRange (insert : Bool) (cap len : Nat) (q : EditReq) : Bool :=
  if insert then q.p ≤ len && len + q.n ≤ cap else q.p + q.n ≤ len

/-- The checks that the memory side decides for every lane before it changes a line (R279 step 5, R286, R288): what the lanes
raise. -/
def State.editChecks (s : State) (g : Region) (insert : Bool) (qs : List EditReq) : List (Nat × Nat × DWord) :=
  let jtl := if s.summaryLost g then 0 else s.dirGet g oJTL 8
  let locked := s.regionState g == 2
  let first := match qs with
    | q :: _ => s.finishes g insert q
    | [] => false
  if locked && !first then qs.map fun q => (q.lane, cEngineFault, BitVec.ofNat 64 jtl)
  else
    let step (acc : Nat × List (Nat × Nat × DWord)) (q : EditReq) : Nat × List (Nat × Nat × DWord) :=
      let (len, raised) := acc
      if editInRange insert g.r.cap len q then (if insert then len + q.n else len - q.n, raised)
      else (len, raised ++ [(q.lane, cRegionRange, BitVec.ofNat 64 g.ra)])
    (qs.foldl step (s.dirGet g oLEN 4, [])).2

def editShape (insert : Bool) : Shape :=
  { dst := .none, long := true, a := .w32, b := if insert then .w64 else .no, c := .w32, ownXs := true }

/-- Takes a number on tl4 for an edit instruction. -/
def State.editNumber (s : State) (cid : Nat) : DWord × State :=
  match s.company? cid with
  | none => (0, s)
  | some c =>
    let (n, c) := c.nextNumber 4
    (n, s.updCompany cid fun _ => c)

/-- An edit instruction (R286-R288): its checks; then it takes the region's lock, its number on tl4 and its place among the
stores. [log 58] -/
def edit (insert : Bool) (f : Fields) (s : State) : Host.Outcome State Fault Refusal :=
  issue false (editShape insert) f s fun t =>
    let h := (t.sreg (Fields.xs f)).toNat
    if h ≥ 2 ^ 20 then Out.lanes s t cIllegalOperand
    else if t.lanes.isEmpty then .done ((s.editNumber t.cid).2.completeTl t.cid 4) t .none
    else
      match countFull s t false true with
      | some p => .stay s t p
      | none =>
        let qs := t.lanes.map fun i =>
          ({ lane := i, p := (t.a32 f i).toNat, n := (t.c32 f i).toNat, x := if insert then t.b64 f i else 0 } : EditReq)
        let bad := qs.filter fun q => q.n = 0 || q.n > 64
        let rest := qs.filter fun q => !(q.n = 0 || q.n > 64)
        let raised := bad.map fun q => (q.lane, cIllegalOperand, (0 : DWord))
        let trap (s : State) (raised : List (Nat × Nat × DWord)) : Out :=
          match lowestTrap raised with
          | some (c, a, m) => .trap s (BitVec.ofNat 32 c) a m
          | none => .stay s t .interlock
        if rest.isEmpty then trap s raised
        else
          match s.handleRegion t h with
          | .wait s p => .stay s t p
          | .trap s c a => trap s (raised ++ rest.map fun q => (q.lane, c, BitVec.ofNat 64 a))
          | .ok s g =>
            if !raised.isEmpty then trap s raised
            else if g.edit.isSome then
              .stay (s.updRegion g.r.hdie g.root g.ra fun g =>
                { g with waiting := if g.waiting.contains t.uid then g.waiting else g.waiting ++ [t.uid] }) t .interlock
            else if t.ops.any (fun o => !o.isSpad) || s.stringHeld g then .stay s t (s.stall t)
            else
              let s := s.updRegion g.r.hdie g.root g.ra fun g => { g with waiting := g.waiting.filter (· != t.uid) }
              let raised := s.editChecks g insert qs
              if !raised.isEmpty then trap s raised
              else
                let (n, s) := s.editNumber t.cid
                let lanes := qs.map fun q =>
                  { regionReq q.lane q.p g with data := q.x.setWidth 128, cmp := BitVec.ofNat 64 q.n }
                let o := regionOp s t (.edit insert n) none lanes true
                let first := (qs.map (·.lane)).headD 0
                let phase := if s.regionState g = 2 then 4 else 0
                .done (s.updRegion g.r.hdie g.root g.ra fun g =>
                  { g with edit := some { uid := t.uid, op := o.id, lane := first, phase := phase } }) (t.addOp o) .none

/-- BSINS (R286). -/
def execBsins (f : Fields) (s : State) : Host.Outcome State Fault Refusal := edit true f s
/-- BSDEL (R286). -/
def execBsdel (f : Fields) (s : State) : Host.Outcome State Fault Refusal := edit false f s

/-! ## Performing an edit (R288) -/

/-- The lines an edit rewrites: the first and the last in its order. [log 59] -/
def editLines (insert : Bool) (len p n : Nat) : Nat × Nat :=
  if insert then ((len + n - 1) / 1536, p / 1536) else (p / 1536, (len - 1) / 1536)

/-- Where the new bit at position q comes from: a bit of the old string, or a given bit. -/
def editSource (insert : Bool) (len p n x q : Nat) : Nat ⊕ Bool :=
  if insert then
    if q < p || q ≥ len + n then .inl q
    else if q < p + n then .inr (x.testBit (q - p))
    else .inl (q - n)
  else
    if q < p || q ≥ len then .inl q
    else if q < len - n then .inl (q + n)
    else .inr false

/-- The new contents of string line b, from lines not yet rewritten. -/
def State.editLine (s : State) (g : Region) (insert : Bool) (len p n x b : Nat) : List Byte :=
  (List.range 192).map fun i =>
    BitVec.ofNat 8 ((List.range 8).foldr (fun k acc =>
      let v := match editSource insert len p n x (1536 * b + 8 * i + k) with
        | .inl q => s.strBit g q
        | .inr v => v
      2 * acc + (if v then 1 else 0)) 0)

/-- Whether any bit of string line b comes from a poisoned line (R289). -/
def State.editPoisons (s : State) (g : Region) (insert : Bool) (len p n x b : Nat) : Bool :=
  if s.poison.isEmpty then false
  else
    let srcs := ((List.range 1536).filterMap fun j =>
      match editSource insert len p n x (1536 * b + j) with
      | .inl q => some (q / 1536)
      | .inr _ => none).eraseDups
    srcs.any fun l => (List.range 192).any fun i => s.poison.contains (g.strPa (192 * l + i))

/-- An edit operation's lane, as a step needs it. -/
def LaneReq.editN (r : LaneReq) : Nat := r.cmp.toNat

/-- The next lane of an edit operation, or the end of it: the lock is released, st falls and the number completes. -/
def State.endEditLane (s : State) (t : Troupe) (o : MemOp) (g : Region) (r : LaneReq) : State :=
  let o := o.setLane { r with done := true }
  let next := o.lanes.find? fun x => !x.done
  let s := (s.setTroupe (t.putOp o)).updRegion g.r.hdie g.root g.ra fun g =>
    { g with edit := next.map fun x => { uid := t.uid, op := o.id, lane := x.lane, phase := 0 } }
  if next.isSome then s else s.completeTl t.cid 4

/-- Whether an edit has written its last line: `b` is the line after it, going up for a deletion and down for an insertion.
[log 59] -/
def editPast (insert : Bool) (last b : Nat) : Bool := if insert then (b + 1) % 2 ^ 32 == last else b == last + 1

/-- The bytes of a region's journal image line. -/
def imageBytes (g : Region) : List Nat := (List.range 192).map fun i => g.dirPa (192 + i)

/-- One step of the edit that holds a region (R288): 0 opens the journal; 1 writes the image, or, past the last line, ends the
edit; 2 writes the string line; 3 closes the line; 4 is the first step of an edit that takes an interrupted one over, with its
JTL. A lost image line is made anew while its string line has not been written; where an edit that takes over cannot know that,
it leaves the line poisoned (R289). [log 59] -/
def State.editStep (s : State) (t : Troupe) (o : MemOp) (insert : Bool) (num : DWord) (g : Region) (job : EditJob)
    (r : LaneReq) : State :=
  let die := g.r.hdie
  let len := s.dirGet g oLEN 4
  let p := r.addr
  let n := LaneReq.editN r
  let x := lowBits (r.data.toNat % 2 ^ 64) n
  let (first, last) := editLines insert len p n
  let goto (s : State) (k : Nat) : State :=
    s.updRegion die g.root g.ra fun g => { g with edit := some { job with phase := k } }
  let image (s : State) : State :=
    let b := s.dirGet g oJLINE 4
    if editPast insert last b then
      let s := (s.dirPut g oLEN 4 (if insert then len + n else len - n)).dirPut g oJOP 1 0
      ((s.dirPut g oSTATE 1 1).putTotals g).endEditLane t o g r
    else
      let img := s.editLine g insert len p n x b
      let s := { s with poison := s.poison.filter fun a => !(imageBytes g).contains a }.dirPut g 192 192 (leNat img)
      goto (s.dirPut g oJPH 1 1) 2
  let line (s : State) : State :=
    let b := s.dirGet g oJLINE 4
    let lost := (imageBytes g).any s.poison.contains
    let img := if lost && job.phase = 2 then s.editLine g insert len p n x b else leBytes 192 (s.dirGet g 192 192)
    goto (s.putStrLine die g b img (s.editPoisons g insert len p n x b || (lost && job.phase = 4))) 3
  match job.phase with
  | 0 =>
    let s := (s.dirPut g oJOP 1 (if insert then 1 else 2)).dirPut g oJN 1 n
    let s := (s.dirPut g oJPH 1 0).dirPut g oJPOS 4 p
    let s := (s.dirPut g oJBITS 8 x).dirPut g oJTL 8 num.toNat
    goto ((s.dirPut g oJLINE 4 first).dirPut g oSTATE 1 2) 1
  | 4 =>
    let s := s.dirPut g oJTL 8 num.toNat
    if s.dirGet g oJPH 1 = 1 then line s else image s
  | 1 => image s
  | 2 => line s
  | _ =>
    let b := s.dirGet g oJLINE 4
    goto ((s.dirPut g oJPH 1 0).dirPut g oJLINE 4 ((if insert then b + 2 ^ 32 - 1 else b + 1) % 2 ^ 32)) 1

/-- EDIT_PERFORM (R288): the next step of the edit that holds a region, or its interruption when the launch that issued it is
being ended. [log 60] -/
def execEditPerform (uid id : Nat) (s : State) : Host.Outcome State Fault Refusal :=
  match s.troupe? uid with
  | none => .next s
  | some t =>
    match t.op? id with
    | none => .next s
    | some o =>
      match o.kind, o.lanes with
      | .edit insert n, r0 :: _ =>
        match s.region? r0.psize (s.rootOf t.lid) r0.pa with
        | none => .next s
        | some g =>
          match g.edit with
          | none => .next s
          | some job =>
            match o.lanes.find? (·.lane == job.lane) with
            | some r =>
              if job.uid = uid && job.op = id then
                (if s.launchEnding t.lid then .next (s.stopEdit g) else .next (s.editStep t o insert n g job r))
              else .next s
            | none => .next s
      | _, _ => .next s

/-- EDIT_INTERRUPT (R288): the edit that holds the die's `region`-th region stops at a step boundary. It does so alone when the
launch that issued it is being ended; else the die's memory-side units are reset, and every edit there stops. [log 60] -/
def execEditInterrupt (die region : Nat) (s : State) : Host.Outcome State Fault Refusal :=
  match (s.die die).regions[region]? with
  | none => .next s
  | some g =>
    match g.edit with
    | none => .next s
    | some job =>
      if (s.troupe? job.uid).any (fun t => s.launchEnding t.lid) then .next (s.stopEdit g)
      else .next ((s.die die).regions.foldl State.stopEdit s)

end Sys2Proof.Machine
end

