-- ==== Sys2Proof/Machine/Dispatch.lean ====
section
/-!
DEFINITION. The dispatch of an instruction or step to its meaning, one arm per constructor.
-/
namespace Sys2Proof.Machine

def exec (i : Instr) (s : State) : Host.Outcome State Fault Refusal :=
  match i with
  | .iadd f => Sys2Proof.Machine.execIadd f s
  | .isub f => Sys2Proof.Machine.execIsub f s
  | .imul f => Sys2Proof.Machine.execImul f s
  | .imulhi f => Sys2Proof.Machine.execImulhi f s
  | .imulhu f => Sys2Proof.Machine.execImulhu f s
  | .imad f => Sys2Proof.Machine.execImad f s
  | .imin f => Sys2Proof.Machine.execImin f s
  | .imax f => Sys2Proof.Machine.execImax f s
  | .iminu f => Sys2Proof.Machine.execIminu f s
  | .imaxu f => Sys2Proof.Machine.execImaxu f s
  | .iabs f => Sys2Proof.Machine.execIabs f s
  | .ineg f => Sys2Proof.Machine.execIneg f s
  | .and f => Sys2Proof.Machine.execAnd f s
  | .or f => Sys2Proof.Machine.execOr f s
  | .xor f => Sys2Proof.Machine.execXor f s
  | .andn f => Sys2Proof.Machine.execAndn f s
  | .shl f => Sys2Proof.Machine.execShl f s
  | .shr f => Sys2Proof.Machine.execShr f s
  | .sar f => Sys2Proof.Machine.execSar f s
  | .rol f => Sys2Proof.Machine.execRol f s
  | .bfxS f => Sys2Proof.Machine.execBfxS f s
  | .bfxZ f => Sys2Proof.Machine.execBfxZ f s
  | .bfi f => Sys2Proof.Machine.execBfi f s
  | .popc f => Sys2Proof.Machine.execPopc f s
  | .clz f => Sys2Proof.Machine.execClz f s
  | .ctz f => Sys2Proof.Machine.execCtz f s
  | .brev f => Sys2Proof.Machine.execBrev f s
  | .gathb f => Sys2Proof.Machine.execGathb f s
  | .lea f => Sys2Proof.Machine.execLea f s
  | .mov f => Sys2Proof.Machine.execMov f s
  | .sel f => Sys2Proof.Machine.execSel f s
  | .iadd64 f => Sys2Proof.Machine.execIadd64 f s
  | .isub64 f => Sys2Proof.Machine.execIsub64 f s
  | .imad64 f => Sys2Proof.Machine.execImad64 f s
  | .shl64 f => Sys2Proof.Machine.execShl64 f s
  | .shr64 f => Sys2Proof.Machine.execShr64 f s
  | .icmpEq f => Sys2Proof.Machine.execIcmpEq f s
  | .icmpNe f => Sys2Proof.Machine.execIcmpNe f s
  | .icmpLt f => Sys2Proof.Machine.execIcmpLt f s
  | .icmpLe f => Sys2Proof.Machine.execIcmpLe f s
  | .icmpGt f => Sys2Proof.Machine.execIcmpGt f s
  | .icmpGe f => Sys2Proof.Machine.execIcmpGe f s
  | .icmpLtu f => Sys2Proof.Machine.execIcmpLtu f s
  | .icmpLeu f => Sys2Proof.Machine.execIcmpLeu f s
  | .icmpGtu f => Sys2Proof.Machine.execIcmpGtu f s
  | .icmpGeu f => Sys2Proof.Machine.execIcmpGeu f s
  | .fadd f => Sys2Proof.Machine.execFadd f s
  | .fsub f => Sys2Proof.Machine.execFsub f s
  | .fmul f => Sys2Proof.Machine.execFmul f s
  | .ffma f => Sys2Proof.Machine.execFfma f s
  | .fmin f => Sys2Proof.Machine.execFmin f s
  | .fmax f => Sys2Proof.Machine.execFmax f s
  | .fclass f => Sys2Proof.Machine.execFclass f s
  | .fcpys f => Sys2Proof.Machine.execFcpys f s
  | .fcmpEq f => Sys2Proof.Machine.execFcmpEq f s
  | .fcmpNe f => Sys2Proof.Machine.execFcmpNe f s
  | .fcmpLt f => Sys2Proof.Machine.execFcmpLt f s
  | .fcmpLe f => Sys2Proof.Machine.execFcmpLe f s
  | .fcmpGt f => Sys2Proof.Machine.execFcmpGt f s
  | .fcmpGe f => Sys2Proof.Machine.execFcmpGe f s
  | .fcmpUno f => Sys2Proof.Machine.execFcmpUno f s
  | .fcmpOrd f => Sys2Proof.Machine.execFcmpOrd f s
  | .frndRn f => Sys2Proof.Machine.execFrndRn f s
  | .frndRz f => Sys2Proof.Machine.execFrndRz f s
  | .frndRd f => Sys2Proof.Machine.execFrndRd f s
  | .frndRu f => Sys2Proof.Machine.execFrndRu f s
  | .p2addBf f => Sys2Proof.Machine.execP2addBf f s
  | .p2addHf f => Sys2Proof.Machine.execP2addHf f s
  | .p2mulBf f => Sys2Proof.Machine.execP2mulBf f s
  | .p2mulHf f => Sys2Proof.Machine.execP2mulHf f s
  | .p2fmaBf f => Sys2Proof.Machine.execP2fmaBf f s
  | .p2fmaHf f => Sys2Proof.Machine.execP2fmaHf f s
  | .p2minBf f => Sys2Proof.Machine.execP2minBf f s
  | .p2minHf f => Sys2Proof.Machine.execP2minHf f s
  | .p2maxBf f => Sys2Proof.Machine.execP2maxBf f s
  | .p2maxHf f => Sys2Proof.Machine.execP2maxHf f s
  | .frcp f => Sys2Proof.Machine.execFrcp f s
  | .frsq f => Sys2Proof.Machine.execFrsq f s
  | .fsqrt f => Sys2Proof.Machine.execFsqrt f s
  | .fex2 f => Sys2Proof.Machine.execFex2 f s
  | .flg2 f => Sys2Proof.Machine.execFlg2 f s
  | .fsin f => Sys2Proof.Machine.execFsin f s
  | .fcos f => Sys2Proof.Machine.execFcos f s
  | .ftanh f => Sys2Proof.Machine.execFtanh f s
  | .cvt f => Sys2Proof.Machine.execCvt f s
  | .cvtpk f => Sys2Proof.Machine.execCvtpk f s
  | .cvtunpk f => Sys2Proof.Machine.execCvtunpk f s
  | .cvtbs f => Sys2Proof.Machine.execCvtbs f s
  | .cvtmx f => Sys2Proof.Machine.execCvtmx f s
  | .sclx f => Sys2Proof.Machine.execSclx f s
  | .nbl f => Sys2Proof.Machine.execNbl f s
  | .nbr f => Sys2Proof.Machine.execNbr f s
  | .lgetAt f => Sys2Proof.Machine.execLgetAt f s
  | .lgetFlip f => Sys2Proof.Machine.execLgetFlip f s
  | .lgetRot f => Sys2Proof.Machine.execLgetRot f s
  | .lgetSh f => Sys2Proof.Machine.execLgetSh f s
  | .pollSome f => Sys2Proof.Machine.execPollSome f s
  | .pollEvery f => Sys2Proof.Machine.execPollEvery f s
  | .pollMap f => Sys2Proof.Machine.execPollMap f s
  | .redf f => Sys2Proof.Machine.execRedf f s
  | .redi f => Sys2Proof.Machine.execRedi f s
  | .pfxfAdd f => Sys2Proof.Machine.execPfxfAdd f s
  | .pfxiAdd f => Sys2Proof.Machine.execPfxiAdd f s
  | .xchg f => Sys2Proof.Machine.execXchg f s
  | .rgrp f => Sys2Proof.Machine.execRgrp f s
  | .ldG f => Sys2Proof.Machine.execLdG f s
  | .stG f => Sys2Proof.Machine.execStG f s
  | .ldSp f => Sys2Proof.Machine.execLdSp f s
  | .stSp f => Sys2Proof.Machine.execStSp f s
  | .ldSpE f => Sys2Proof.Machine.execLdSpE f s
  | .stSpF f => Sys2Proof.Machine.execStSpF f s
  | .ldro f => Sys2Proof.Machine.execLdro f s
  | .ldgr f => Sys2Proof.Machine.execLdgr f s
  | .atom f => Sys2Proof.Machine.execAtom f s
  | .atomSp f => Sys2Proof.Machine.execAtomSp f s
  | .bcdec f => Sys2Proof.Machine.execBcdec f s
  | .bcinc f => Sys2Proof.Machine.execBcinc f s
  | .bcread f => Sys2Proof.Machine.execBcread f s
  | .rank1 f => Sys2Proof.Machine.execRank1 f s
  | .rank0 f => Sys2Proof.Machine.execRank0 f s
  | .sel1 f => Sys2Proof.Machine.execSel1 f s
  | .sel0 f => Sys2Proof.Machine.execSel0 f s
  | .fclose f => Sys2Proof.Machine.execFclose f s
  | .fopen f => Sys2Proof.Machine.execFopen f s
  | .encl f => Sys2Proof.Machine.execEncl f s
  | .bsins f => Sys2Proof.Machine.execBsins f s
  | .bsdel f => Sys2Proof.Machine.execBsdel f s
  | .sadd f => Sys2Proof.Machine.execSadd f s
  | .ssub f => Sys2Proof.Machine.execSsub f s
  | .smul f => Sys2Proof.Machine.execSmul f s
  | .smulhi f => Sys2Proof.Machine.execSmulhi f s
  | .smad f => Sys2Proof.Machine.execSmad f s
  | .smin f => Sys2Proof.Machine.execSmin f s
  | .smax f => Sys2Proof.Machine.execSmax f s
  | .sand f => Sys2Proof.Machine.execSand f s
  | .sor f => Sys2Proof.Machine.execSor f s
  | .sxor f => Sys2Proof.Machine.execSxor f s
  | .sandn f => Sys2Proof.Machine.execSandn f s
  | .sshl f => Sys2Proof.Machine.execSshl f s
  | .sshr f => Sys2Proof.Machine.execSshr f s
  | .ssar f => Sys2Proof.Machine.execSsar f s
  | .sbfx f => Sys2Proof.Machine.execSbfx f s
  | .sbfi f => Sys2Proof.Machine.execSbfi f s
  | .spopc f => Sys2Proof.Machine.execSpopc f s
  | .sffs f => Sys2Proof.Machine.execSffs f s
  | .ssel f => Sys2Proof.Machine.execSsel f s
  | .smov f => Sys2Proof.Machine.execSmov f s
  | .sadd64 f => Sys2Proof.Machine.execSadd64 f s
  | .slea f => Sys2Proof.Machine.execSlea f s
  | .lanerd f => Sys2Proof.Machine.execLanerd f s
  | .lanewr f => Sys2Proof.Machine.execLanewr f s
  | .scmpEq f => Sys2Proof.Machine.execScmpEq f s
  | .scmpNe f => Sys2Proof.Machine.execScmpNe f s
  | .scmpLt f => Sys2Proof.Machine.execScmpLt f s
  | .scmpLe f => Sys2Proof.Machine.execScmpLe f s
  | .scmpGt f => Sys2Proof.Machine.execScmpGt f s
  | .scmpGe f => Sys2Proof.Machine.execScmpGe f s
  | .scmpLtu f => Sys2Proof.Machine.execScmpLtu f s
  | .scmpLeu f => Sys2Proof.Machine.execScmpLeu f s
  | .scmpGtu f => Sys2Proof.Machine.execScmpGtu f s
  | .scmpGeu f => Sys2Proof.Machine.execScmpGeu f s
  | .bra f => Sys2Proof.Machine.execBra f s
  | .brcZ f => Sys2Proof.Machine.execBrcZ f s
  | .brcNz f => Sys2Proof.Machine.execBrcNz f s
  | .brd f => Sys2Proof.Machine.execBrd f s
  | .brx f => Sys2Proof.Machine.execBrx f s
  | .brxL f => Sys2Proof.Machine.execBrxL f s
  | .call f => Sys2Proof.Machine.execCall f s
  | .ret f => Sys2Proof.Machine.execRet f s
  | .wait f => Sys2Proof.Machine.execWait f s
  | .waittl f => Sys2Proof.Machine.execWaittl f s
  | .tlinc f => Sys2Proof.Machine.execTlinc f s
  | .yield f => Sys2Proof.Machine.execYield f s
  | .yieldc f => Sys2Proof.Machine.execYieldc f s
  | .bari f => Sys2Proof.Machine.execBari f s
  | .bara f => Sys2Proof.Machine.execBara f s
  | .barw f => Sys2Proof.Machine.execBarw f s
  | .baro f => Sys2Proof.Machine.execBaro f s
  | .fence f => Sys2Proof.Machine.execFence f s
  | .roinv f => Sys2Proof.Machine.execRoinv f s
  | .waitm f => Sys2Proof.Machine.execWaitm f s
  | .gbar f => Sys2Proof.Machine.execGbar f s
  | .tail f => Sys2Proof.Machine.execTail f s
  | .setgrp f => Sys2Proof.Machine.execSetgrp f s
  | .gang f => Sys2Proof.Machine.execGang f s
  | .mma f => Sys2Proof.Machine.execMma f s
  | .mzero f => Sys2Proof.Machine.execMzero f s
  | .mdrain f => Sys2Proof.Machine.execMdrain f s
  | .thflush f => Sys2Proof.Machine.execThflush f s
  | .cpy f => Sys2Proof.Machine.execCpy f s
  | .cpyl f => Sys2Proof.Machine.execCpyl f s
  | .bkload f => Sys2Proof.Machine.execBkload f s
  | .bkcmd f => Sys2Proof.Machine.execBkcmd f s
  | .scanq f => Sys2Proof.Machine.execScanq f s
  | .cleanr f => Sys2Proof.Machine.execCleanr f s
  | .invr f => Sys2Proof.Machine.execInvr f s
  | .flushr f => Sys2Proof.Machine.execFlushr f s
  | .bcinit f => Sys2Proof.Machine.execBcinit f s
  | .setfmt f => Sys2Proof.Machine.execSetfmt f s
  | .getfmt f => Sys2Proof.Machine.execGetfmt f s
  | .srd f => Sys2Proof.Machine.execSrd f s
  | .swr f => Sys2Proof.Machine.execSwr f s
  | .trap f => Sys2Proof.Machine.execTrap f s
  | .bkpt f => Sys2Proof.Machine.execBkpt f s
  | .nop f => Sys2Proof.Machine.execNop f s
  | .unassignedOpcode w => Sys2Proof.Machine.execUnassignedOpcode w s
  | .actSelect core quarter => Sys2Proof.Machine.execActSelect core quarter s
  | .loadReturn uid id lane => Sys2Proof.Machine.execLoadReturn uid id lane s
  | .storePerform uid id lane => Sys2Proof.Machine.execStorePerform uid id lane s
  | .atomicPerform uid id lane => Sys2Proof.Machine.execAtomicPerform uid id lane s
  | .yieldcResume uid => Sys2Proof.Machine.execYieldcResume uid s
  | .edgeValueArrival uid n => Sys2Proof.Machine.execEdgeValueArrival uid n s
  | .trackerRelease core uid => Sys2Proof.Machine.execTrackerRelease core uid s
  | .companyRetire cid => Sys2Proof.Machine.execCompanyRetire cid s
  | .engineComplete cid tl => Sys2Proof.Machine.execEngineComplete cid tl s
  | .copyTransfer cid id start len => Sys2Proof.Machine.execCopyTransfer cid id start len s
  | .transformTransfer cid id start len => Sys2Proof.Machine.execTransformTransfer cid id start len s
  | .mmaExecute cid id => Sys2Proof.Machine.execMmaExecute cid id s
  | .operandFetchResume cid id => Sys2Proof.Machine.execOperandFetchResume cid id s
  | .mdrainExecute cid id rows => Sys2Proof.Machine.execMdrainExecute cid id rows s
  | .mzeroExecute cid id => Sys2Proof.Machine.execMzeroExecute cid id s
  | .busOffer cid id => Sys2Proof.Machine.execBusOffer cid id s
  | .busWindowExpiry core => Sys2Proof.Machine.execBusWindowExpiry core s
  | .busPairSplit cluster => Sys2Proof.Machine.execBusPairSplit cluster s
  | .requestResend uid id => Sys2Proof.Machine.execRequestResend uid id s
  | .rdcInvalidation die line => Sys2Proof.Machine.execRdcInvalidation die line s
  | .bcMissRequest uid id lane => Sys2Proof.Machine.execBcMissRequest uid id lane s
  | .groupLoadComplete uid id => Sys2Proof.Machine.execGroupLoadComplete uid id s
  | .queryPerform uid id lane => Sys2Proof.Machine.execQueryPerform uid id lane s
  | .editPerform uid id => Sys2Proof.Machine.execEditPerform uid id s
  | .bkloadExecute cid id => Sys2Proof.Machine.execBkloadExecute cid id s
  | .bankCommandRun die stack pc => Sys2Proof.Machine.execBankCommandRun die stack pc s
  | .scanRun cid id => Sys2Proof.Machine.execScanRun cid id s
  | .maintenanceRun cid id line => Sys2Proof.Machine.execMaintenanceRun cid id line s
  | .pageMigration token die => Sys2Proof.Machine.execPageMigration token die s
  | .entryCheck q => Sys2Proof.Machine.execEntryCheck q s
  | .dependencePoll q => Sys2Proof.Machine.execDependencePoll q s
  | .allResidentPlace lid cores => Sys2Proof.Machine.execAllResidentPlace lid cores s
  | .companyAdmit core lid => Sys2Proof.Machine.execCompanyAdmit core lid s
  | .preemptCompany cid => Sys2Proof.Machine.execPreemptCompany cid s
  | .companyResume cid core => Sys2Proof.Machine.execCompanyResume cid core s
  | .launchComplete lid => Sys2Proof.Machine.execLaunchComplete lid s
  | .gbarArrival uid => Sys2Proof.Machine.execGbarArrival uid s
  | .heldWriteApply r => Sys2Proof.Machine.execHeldWriteApply r s
  | .instructionFetchFault => Sys2Proof.Machine.execInstructionFetchFault s
  | .emptyLineFill cid line => Sys2Proof.Machine.execEmptyLineFill cid line s
  | .emptyTimeout uid => Sys2Proof.Machine.execEmptyTimeout uid s
  | .operandFetchPark cid id => Sys2Proof.Machine.execOperandFetchPark cid id s
  | .requestRefusal uid id hint => Sys2Proof.Machine.execRequestRefusal uid id hint s
  | .ownershipRecall line => Sys2Proof.Machine.execOwnershipRecall line s
  | .l2Eviction pa cls => Sys2Proof.Machine.execL2Eviction pa cls s
  | .backgroundRepair die region block => Sys2Proof.Machine.execBackgroundRepair die region block s
  | .editInterrupt die region => Sys2Proof.Machine.execEditInterrupt die region s
  | .bankWatchdog die stack pc => Sys2Proof.Machine.execBankWatchdog die stack pc s
  | .pageDemotion root va frame => Sys2Proof.Machine.execPageDemotion root va frame s
  | .hotPagePromotion die => Sys2Proof.Machine.execHotPagePromotion die s
  | .launchStart => Sys2Proof.Machine.execLaunchStart s
  | .rangeStealing cluster => Sys2Proof.Machine.execRangeStealing cluster s
  | .prewaitExpiry lid cid => Sys2Proof.Machine.execPrewaitExpiry lid cid s
  | .messageWrite => Sys2Proof.Machine.execMessageWrite s
  | .qtailWrite q v => Sys2Proof.Machine.execQtailWrite q v s
  | .abort q => Sys2Proof.Machine.execAbort q s
  | .preempt q => Sys2Proof.Machine.execPreempt q s
  | .rmfrespWrite v => Sys2Proof.Machine.execRmfrespWrite v s
  | .rmshootWrite v => Sys2Proof.Machine.execRmshootWrite v s
  | .rmmsgheadWrite v => Sys2Proof.Machine.execRmmsgheadWrite v s
  | .rmmsgsizeWrite v => Sys2Proof.Machine.execRmmsgsizeWrite v s
  | .attctlWrite v => Sys2Proof.Machine.execAttctlWrite v s
  | .registerWrite r v => Sys2Proof.Machine.execRegisterWrite r v s
  | .hostAccess pa op => Sys2Proof.Machine.execHostAccess pa op s
  | .clusterReset cluster cause => Sys2Proof.Machine.execClusterReset cluster cause s
  | .straitRetirement edge => Sys2Proof.Machine.execStraitRetirement edge s
  | .correctedError die site => Sys2Proof.Machine.execCorrectedError die site s
  | .uncorrectableError pa site => Sys2Proof.Machine.execUncorrectableError pa site s
  | .powerThrottle watts celsius hot => Sys2Proof.Machine.execPowerThrottle watts celsius hot s
  | .remoteWriteArrival src tag va data poison => Sys2Proof.Machine.execRemoteWriteArrival src tag va data poison s
  | .remoteAtomicRequest src tag req => Sys2Proof.Machine.execRemoteAtomicRequest src tag req s
  | .fabricTimeout cid id => Sys2Proof.Machine.execFabricTimeout cid id s
  | .fabricBarrierArrival src k phase n => Sys2Proof.Machine.execFabricBarrierArrival src k phase n s
  | .fabricBarrierRelease k phase => Sys2Proof.Machine.execFabricBarrierRelease k phase s
  | .fabricResend seq => Sys2Proof.Machine.execFabricResend seq s
  | .packetReceive seq p => Sys2Proof.Machine.execPacketReceive seq p s
  | .portDown port => Sys2Proof.Machine.execPortDown port s
  | .packageReset o => Sys2Proof.Machine.execPackageReset o s
  | .remoteReadRequest src tag va len => Sys2Proof.Machine.execRemoteReadRequest src tag va len s
  | .portUp port => Sys2Proof.Machine.execPortUp port s
  | .attestationReportWritten => Sys2Proof.Machine.execAttestationReportWritten s
  | .firmwareUpdate slot image => Sys2Proof.Machine.execFirmwareUpdate slot image s
  | .shootDownDone token => Sys2Proof.Machine.execShootDownDone token s

end Sys2Proof.Machine
end

