-- ==== Sys2Proof/Machine/Schedule.lean ====
section
/-!
DEFINITION. The turns that an agenda may name (assumption 1): a quarter issues, another unit moves, time passes.
Reconvergence before a fetch (R85), instruction fetch (R35, R41, R130), and the placing of a program by hand that
`State.withFetchWord` stands for.
-/
namespace Sys2Proof.Machine

/-- A step's choice: to run an instruction or event, or to go on without one. -/
inductive Move where
  | run (i : Instr) (s : State)
  | next (s : State)
  deriving DecidableEq, Repr

/-! ## Fetch -/

/-- Fetch cannot go on: a page fault parks the troupe; a page without X traps (R130, R161). [log 129] -/
def State.fetchStop (s : State) (t : Troupe) (va : Nat) (r : Tr) : Move :=
  if r = .denied || t.declined.contains (faultGranule va) then .run .instructionFetchFault { s with cur := some t.uid }
  else
    let (s, k) := s.faultToken (s.rootOf t.lid) (s.queueOf t.lid) va (r == .migrate)
    .next ((s.setTroupe { t with park := .fault [k] }).releaseQuarter t)

/-- Fetches and decodes the instruction at a troupe's pc. [log 129] -/
def State.issueMove (s : State) (uid : Nat) : Move :=
  match s.troupe? uid with
  | none => .next s
  | some t0 =>
    if t0.exited == -1 then .run (.tail ⟨true, false, 0, 123, 123, .none⟩) { s with cur := some uid } else
    let t := reconverge t0 64
    let s := s.setTroupe t
    if t.actSerial != t0.actSerial && t0.pos.count != 0 then .next (s.releaseQuarter t)
    else
      let pc := t.pc.toNat % 2 ^ 56
      match s.fetchWord t pc with
      | (s, .error r) => s.fetchStop t pc r
      | (s, .ok w) =>
        if wordLength w = 4 then
          match decode [w] with
          | .ok (i, _) => .run i { s with cur := some uid }
          | .error _ => .next s
        else
          let pc2 := (pc + 4) % 2 ^ 56
          match s.fetchWord t pc2 with
          | (s, .error r) => s.fetchStop t pc2 r
          | (s, .ok x) =>
            match decode [w, x] with
            | .ok (i, _) => .run i { s with cur := some uid }
            | .error _ => .next s

/-- A quarter's turn: its running troupe issues, or it chooses one. -/
def State.quarterMove (s : State) (core quarter : Nat) : Move :=
  match ((s.core core).quarters.getD quarter Quarter.reset).running with
  | some uid => s.issueMove uid
  | none => .run (.actSelect core quarter) s

/-! ## Turns -/

/-- Steps that an agenda may name: those that no instruction word names. -/
def Instr.isEvent (i : Instr) : Bool :=
  match i with
  | .unassignedOpcode _ => false
  | .instructionFetchFault => false
  | i => i.code.isNone

/-- What a turn of the agenda does. [log 1, 8] -/
def State.turnMove (s : State) (u : Turn) : Move :=
  match u with
  | .issue core quarter => s.quarterMove core quarter
  | .event i => if Instr.isEvent i then .run i s else .next s
  | .tick n => .next { s with clock := s.clock + BitVec.ofNat 64 n }
  | .dropL1 core line =>
    let owned := (s.core core).l1.any fun x => x.line == line && x.owned
    .next ((if owned then s.recall line else s).dropL1 core line)
  | .dropRo core line => .next (s.updCore core fun c => { c with ro := c.ro.filter (·.line != line) })
  | .dropRdc die line => .next (s.dropRdc die line)
  | .dropTlb core vbase =>
    let keep (xs : List TlbEntry) : List TlbEntry := xs.filter (·.vbase != vbase)
    .next (s.updCore core fun c => { c with tlb := keep c.tlb, ftlb := keep c.ftlb, otlb := keep c.otlb })
  | .dropDieTlb die vbase => .next (s.updDie die fun d => { d with tlb := d.tlb.filter (·.vbase != vbase) })
  | .dropRec core lid handle =>
    .next (s.updCore core fun c => { c with recs := c.recs.filter fun r => !(r.lid == lid && r.handle == handle) })
  | .dropTile core lid handle index =>
    .next (s.updCore core fun c =>
      { c with tileCache := c.tileCache.filter fun x => !(x.lid == lid && x.handle == handle && x.index == index) })
  | .dropSide line => .next (s.sideClean (·.line != line))
  | .dropL2 line => .next (if s.evictHeld line then s else s.evictLine line)

/-! ## Placing an instruction (assumption 3) -/

/-- Where `placeProgram` puts things: the level-0 table, the level-1 table, the launch header, the code, the trap
handler; virtual and physical addresses are equal. -/
def placeRoot : Nat := 0x100000
def placeTable : Nat := 0x200000
def placeHeader : Nat := 0x30000 * 192
def placeCode : Nat := 0x40000 * 192
def placeHandler : Nat := 0x50000 * 192

/-- The fields of a launch of one company of one troupe with 120 registers and 12 scratchpad ways. -/
def placeLaunchHeader : Header :=
  { entry := BitVec.ofNat 64 placeCode, handler := BitVec.ofNat 64 placeHandler, widths := [1], exts := [1],
    bindc := 0, bindd := 0, regs := 120, troupes := 1, ways := 12, prio := 0, resident := true, poison := false,
    dep0 := 0, val0 := 0, dep1 := 0, val1 := 0, seed := 0, htab := 0, hcount := 0, gtab := 0, gvalid := 0 }

/-- Loads a program of one instruction by hand: a page table that maps the first GiB, a launch of one company of
one troupe on core 0, and the instruction's bytes at its entry PC; quarter 0 of core 0 runs the troupe. -/
def State.placeProgram (s : State) (code : List Byte) : State :=
  let (lid, s) := s.fresh
  let (cid, s) := s.fresh
  let (uid, s) := s.fresh
  let h := placeLaunchHeader
  let mem := putBytes (putBytes (putBytes s.mem placeRoot (leBytes 8 (placeTable + 1))) placeTable (leBytes 8 0x1F))
    placeCode code
  let launch := { newLaunch lid 0 0 placeHeader placeRoot h 0 0 0 with placed := true, started := 1 }
  let s := { s with
    mem := mem, l2 := [], agenda := [], focus := (0, 0), turn := 0, cur := some uid,
    troupes := newTroupe uid cid lid 0 0 0 0 h placeHeader :: s.troupes,
    companies := newCompany cid lid 0 0 0 h (List.replicate 8 0) :: s.companies }
  let s := s.updRm fun r => { r with launches := launch :: r.launches }
  s.updCore 0 fun c =>
    { c with quarters := c.quarters.set 0 { running := some uid, last := 0, prev := 11 }, l1 := [], tlb := [], ftlb := [], slots := [lid] }

end Sys2Proof.Machine
end

