-- ==== Sys2Proof/Machine/Work.lean ====
section
/-!
DEFINITION. The default schedule (assumption 1): what moves next when the agenda is empty. The quarters issue
in turn; between two issues one piece of the machine's waiting work is done. The
host, peers, failures, steals and a cache's own evictions move only when the agenda names them.
-/
namespace Sys2Proof.Machine

/-- What the first of some events that changes the state makes of it. -/
def State.progress (s : State) (es : List (State → Host.Outcome State Fault Refusal)) : Option State :=
  es.findSome? fun e => match e s with
    | .next s' => if s' == s then none else some s'
    | _ => none

/-- The event that performs what is left of an operation in flight. -/
def MemOp.event (o : MemOp) (uid : Nat) : List Instr :=
  (if o.lanes.any (·.refused) then [.requestResend uid o.id] else []) ++
  match o.kind with
  | .loadG _ | .ldro _ | .loadSp => [.loadReturn uid o.id none]
  | .storeG | .storeSp _ => [.storePerform uid o.id none]
  | .atomG | .atomSp | .bcDec | .bcInc | .bcRead | .bcInit _ =>
    .atomicPerform uid o.id none
      :: (o.lanes.filter fun r => r.miss.isSome && !r.done).map fun r => .bcMissRequest uid o.id r.lane
  | .ldgr _ => [.groupLoadComplete uid o.id]
  | .query _ => [.queryPerform uid o.id none]
  | .edit _ _ => [.editPerform uid o.id]

def Troupe.events (t : Troupe) : List Instr :=
  t.ops.flatMap (·.event t.uid) ++ t.edges.map (fun e => .edgeValueArrival t.uid e.n)
    ++ match t.park with
      | .yieldTl _ _ _ | .yieldFull _ _ => [.yieldcResume t.uid]
      | .gbar _ false => [.gbarArrival t.uid]
      | _ => []

/-- The event that works on an engine operation. -/
def EngOp.event (o : EngOp) (cid : Nat) : List Instr :=
  let (a, n) := o.todo.headD (0, 0)
  match o.kind with
  | .cpy _ _ _ _ _ _ _ _ => [.copyTransfer cid o.id a n]
  | .cpyl _ _ _ _ _ _ _ => [.transformTransfer cid o.id a n]
  | .mma m => (if m.bcast && o.bus = 0 then [.busOffer cid o.id] else [])
      ++ [.operandFetchResume cid o.id, .mmaExecute cid o.id]
  | .mdrain _ => [.mdrainExecute cid o.id 256]
  | .mzero _ => [.mzeroExecute cid o.id]
  | .bkload _ _ _ _ _ _ => [.bkloadExecute cid o.id]
  | .bkcmd b => o.todo.map fun (pc, _) => .bankCommandRun b.die b.stack pc
  | .scanq _ => [.scanRun cid o.id]
  | .maint _ _ _ => [.maintenanceRun cid o.id a]

def Company.events (c : Company) : List Instr :=
  (c.ops.filter fun o => !o.done).flatMap (·.event c.cid)
    ++ (List.range 6).map (fun k => .engineComplete c.cid k) ++ [.companyRetire c.cid]

/-- Events of the clusters' buses, the slices and the trackers. -/
def State.unitEvents (s : State) : List Instr :=
  s.clusters.zipIdx.flatMap (fun (c, k) =>
      (if c.pairs.isEmpty then [] else [.busPairSplit k])
        ++ c.offers.map fun (core, _, _) => .busWindowExpiry core)
    ++ s.invals.map (fun i => .rdcInvalidation i.die i.line)
    ++ s.cores.zipIdx.flatMap (fun (c, k) => c.trackers.map fun x => .trackerRelease k x.uid)

/-- Where the agents that wait for a page stand. [log 70] -/
def State.faultDie (s : State) (token : Nat) : Nat :=
  match s.troupes.find? fun t => match t.park with | .fault ks => ks.contains token | _ => false with
  | some t => dieOf t.core
  | none =>
    match s.companies.find? fun c => c.ops.any fun o => o.parked == some token with
    | some c => dieOf (c.core.getD 0)
    | none => 0

/-! ## A placement for an all-resident launch -/

/-- Puts `n` companies on the two cores of a cluster, as far as they hold. -/
def fillCluster (caps : List Nat) (k n : Nat) : List Nat × List Nat :=
  let a := min n (caps.getD (2 * k) 0)
  (listModify (listModify caps (2 * k) (· - a)) (2 * k + 1) (· - (n - a)),
   List.replicate a (2 * k) ++ List.replicate (n - a) (2 * k + 1))

/-- Puts `m` units of `u` companies on the clusters of a die. -/
def fillDie (d u : Nat) (caps cores : List Nat) : Nat → Option (List Nat × List Nat)
  | 0 => some (caps, cores)
  | m + 1 =>
    match (List.range 16).find? fun k => u ≤ caps.getD (2 * (16 * d + k)) 0 + caps.getD (2 * (16 * d + k) + 1) 0 with
    | none => none
    | some k =>
      let (caps, more) := fillCluster caps (16 * d + k) u
      fillDie d u caps (cores ++ more) m

def fillPackage (h : Header) (caps cores : List Nat) : Nat → Option (List Nat)
  | 0 => some cores
  | n + 1 =>
    match (List.range 4).findSome? fun d => fillDie d h.unitC caps cores (h.unitD / h.unitC) with
    | none => none
    | some (caps, cores) => fillPackage h caps cores n

/-- A core for each company of a pre-empted all-resident launch, in order of their numbers: for one that is out, the first
core with room that keeps the bindings with those before it; for one that has retired, its last. -/
def State.resumePlacement (s : State) (l : Launch) : Option (List Nat) :=
  let caps := (List.range Config.cores).map fun k => s.capacity k l.lid l.hdr
  ((List.range l.hdr.companyCount).foldl (fun (acc : Option (List Nat × List Nat)) q =>
    match acc with
    | none => none
    | some (caps, cores) =>
      match s.companies.find? fun c => c.lid == l.lid && c.q == q with
      | none => some (caps, cores ++ [0])
      | some c =>
        if !s.isOut c then some (caps, cores ++ [c.lastCore])
        else
          match (List.range Config.cores).find? fun k =>
              caps.getD k 0 > 0 && s.keepsBinding l c k && bound l.hdr (cores ++ [k]) with
          | some k => some (listModify caps k (· - 1), cores ++ [k])
          | none => none) (some (caps, []))).map (·.2)

/-- A core for each company of a launch that waits to be placed. -/
def State.placementFor (s : State) (l : Launch) : Option (List Nat) :=
  if l.started != 0 then s.resumePlacement l
  else if canPlace l.hdr (fun c => s.capacity c l.lid l.hdr) s.rm.ctxsize.toNat then
    fillPackage l.hdr ((List.range Config.cores).map fun c => s.capacity c l.lid l.hdr) [] (l.hdr.companyCount / l.hdr.unitD)
  else none

/-! ## The Ringmaster -/

def State.ringEvents (s : State) : List Instr :=
  let order := s.offerOrder
  s.rm.held.map (fun (r, _) => .heldWriteApply r)
    ++ (s.rm.faults.filter (·.migrate)).map (fun f => .pageMigration f.token (s.faultDie f.token))
    ++ (s.companies.filter (·.preempting)).map (fun c => .preemptCompany c.cid)
    ++ (order.filter (·.waiting)).filterMap (fun l => (s.placementFor l).map fun cs => .allResidentPlace l.lid cs)
    ++ (s.companies.filter s.isOut).filterMap (fun c =>
        match s.launch? c.lid with
        | some l =>
          ((List.range Config.cores).find? fun k => s.mayResume l c k && !s.outranked l.lid k).map fun k =>
            .companyResume c.cid k
        | none => none)
    ++ order.flatMap (fun l => l.dist.flatMap fun r =>
        [.companyAdmit (2 * r.cluster) l.lid, .companyAdmit (2 * r.cluster + 1) l.lid])
    ++ s.rm.launches.map (fun l => .launchComplete l.lid)
    ++ (s.rm.candidates.filter fun c => !c.eligible).map (fun c => .dependencePoll c.queue)
    ++ (if s.rm.candidates.isEmpty then [] else [.launchStart])
    ++ ((List.range Config.queues).filter fun q => (s.queue q).qhead != (s.queue q).qtail).map (fun q => .entryCheck q)
    ++ (if s.rm.messages.isEmpty then [] else [.messageWrite])
    ++ (if s.boot.attReq.isSome then [.attestationReportWritten] else [])

/-! ## What comes by itself -/

/-- The events that the machine's own timers and background units raise. -/
def State.timerEvents (s : State) : List (State → Host.Outcome State Fault Refusal) :=
  let own := s.fabric.fxdevid.toNat
  (s.troupes.filter fun t => !(s.lineWait t).1.isEmpty).map (fun t => execEmptyTimeout t.uid)
    ++ s.rm.shoots.map (fun (_, k, _) => execShootDownDone k)
    ++ s.rm.launches.filterMap (fun l => (s.victimFor l).map fun c => execPrewaitExpiry l.lid c.cid)
    ++ (s.sequencers.filter fun q => !q.queue.isEmpty).map (fun q => execBankWatchdog q.die q.stack q.pc)
    ++ s.dieUnits.zipIdx.flatMap (fun (d, k) =>
        (if d.hot.isEmpty then [] else [execHotPagePromotion k])
          ++ d.regions.zipIdx.filterMap fun (g, i) =>
            match g.repairing with
            | some (b, _) => some (execBackgroundRepair k i b)
            | none => ((List.range g.r.nb).find? fun b => s.blockStale g b).map fun b => execBackgroundRepair k i b)
    ++ s.companies.flatMap (fun c => (c.ops.filter fun o => s.expired c.cid o.id).map fun o => execFabricTimeout c.cid o.id)
    ++ s.overdueBarriers.map (fun o => execFabricResend o.seq)
    ++ s.fabric.out.filterMap fun o => match o.msg with
      | .arrival root k ph n => if root == own then some (execFabricBarrierArrival own k (phaseBit ph) n) else none
      | .release d k ph => if d == own then some (execFabricBarrierRelease k ph) else none
      | _ => none

/-- Work that waits in the machine and that some unit can do now, done; the search starts at another place in each
turn. Instructions that stall are tried again, also where no unit has work: what they wait for may have come to be a
park (R136, R139). -/
def State.work? (s : State) : Option State :=
  let es := (s.troupes.flatMap (·.events) ++ s.companies.flatMap (·.events) ++ s.unitEvents ++ s.ringEvents).map exec
    ++ s.timerEvents
  let k := s.turn / 2 % es.length
  let stalled := s.troupes.any (·.park == .interlock)
  let s : State :=
    { s with turn := s.turn + 1,
             troupes := s.troupes.map fun t => if t.park == .interlock then { t with park := .run } else t }
  match s.progress (es.drop k ++ es.take k) with
  | some s' => some s'
  | none => if stalled then some s else none

/-! ## The choice -/

/-- Whether a troupe's quarter has something to issue: its running troupe is not stalled, or it has none and the troupe
is ready. -/
def State.quarterAble (s : State) (t : Troupe) : Bool :=
  match ((s.core t.core).quarters.getD t.quarter Quarter.reset).running with
  | some uid => (s.troupe? uid).all fun o => o.park != .interlock
  | none => s.ready t

/-- How far a troupe's quarter stands after the one in focus. -/
def State.focusDistance (s : State) (t : Troupe) : Nat :=
  (4 * t.core + t.quarter + 512 - (4 * s.focus.1 + s.focus.2)) % 512

/-- The first quarter at or after the one in focus that has something to issue. -/
def State.nextQuarter? (s : State) : Option (Nat × Nat) :=
  (s.troupes.foldl (fun (best : Option (Nat × Nat × Nat)) t =>
    let d := s.focusDistance t
    if t.resident && (match best with | some b => d < b.1 | none => true) && s.quarterAble t then
      some (d, t.core, t.quarter)
    else best) none).map (·.2)

/-- The quarters take turns: the next one after this has the next turn. -/
def focusAfter (core quarter : Nat) : Nat × Nat :=
  if quarter < 3 then (core, quarter + 1) else ((core + 1) % Config.cores, 0)

/-- The default schedule: a quarter's turn and a turn for waiting work alternate, as far as there is something to do;
else time passes. [log 1] -/
def State.defaultMove (s : State) : Move :=
  let issueTurn (s : State) : Option Move := s.nextQuarter?.map fun (c, q) =>
    let s : State := { s with focus := focusAfter c q, turn := s.turn + 1 }
    s.quarterMove c q
  let workTurn (s : State) : Option Move := s.work?.map .next
  let first := if s.turn % 2 = 0 then issueTurn s else workTurn s
  match first with
  | some m => m
  | none => ((if s.turn % 2 = 0 then workTurn s else issueTurn s).getD (.next s))

/-- What a step does: the clock advances by one, yields lose the troupes that have stopped being ready (R179), and the agenda's next turn, or the default schedule, moves.
[log 1] -/
def State.nextMove (s : State) : Move :=
  let s := ({ s with clock := s.clock + 1 } : State).settleYields
  match s.agenda with
  | u :: rest => { s with agenda := rest }.turnMove u
  | [] => s.defaultMove

end Sys2Proof.Machine
end

