-- ==== Sys2Proof/Machine/Step.lean ====
section
/-!
DEFINITION. One step of the machine: the clock advances, the scheduler's choice is carried out. And the state with an
instruction placed where the next step fetches.
-/
namespace Sys2Proof.Machine

/-- One step: what `State.nextMove` chooses, done. [log 8] -/
def step (s : State) : Host.Outcome State Fault Refusal :=
  match s.nextMove with
  | .run i s' => exec i s'
  | .next s' => .next s'

/-- `s` with an instruction, numbered as the opcode table numbers its bits, loaded as a program whose first
instruction the next step fetches and runs (assumption 3). -/
def State.withFetchWord (s : State) (nbits w : Nat) : State := s.placeProgram (tableBytes nbits w)

end Sys2Proof.Machine
end

