-- ==== Sys2Proof/Safety.lean ====
section
/-!
DEFINITION. Safe runs, in the terms claims use: a state from which the machine takes a step, and a run of steps that
meets neither a fault nor a refusal.
-/
namespace Sys2Proof.Machine

/-- The next step answers a next state. -/
def State.Goes (s : State) : Prop := ∃ t, step s = .next t

/-- `n` steps from `s` all answer next states. -/
def SafeRun (n : Nat) (s : State) : Prop := ∃ t, Sys2Proof.core.run n s = .next t

/-- An instruction completes in a state. -/
def Completes (i : Instr) (s : State) : Prop := ∃ t, exec i s = .next t

end Sys2Proof.Machine
end

