-- ==== Sys2Proof/WellFormed.lean ====
section
/-!
DEFINITION. Which terms of `Instr` stand for an instruction word (R41, R72) or for a step of a unit the package
has (09 R225, 05 R135, 15 R297, 16 R326).
-/
namespace Sys2Proof

/-- The extension of an instruction has the form that its opcode and source codes give (R41). -/
def Ext.matches (form : ExtForm) (x : Ext) : Bool :=
  match form, x with
  | .none, .none => true
  | .x1, .x1 _ => true
  | .x2, .x2 _ _ _ => true
  | _, _ => false

/-- R41 for an instruction with an encoding: set, opcode and fields agree on the extension. -/
def wordWf (uniform : Bool) (op : Nat) (f : Fields) : Bool :=
  f.ext.matches (extForm (if uniform then uniformLong op else laneLong op) f.a f.b)

/-- Well-formedness: a word's extension has its form; an unassigned word's opcode is unassigned (R72); a step
names units that exist. -/
def Instr.wf (i : Instr) : Bool :=
  match i with
  | .unassignedOpcode w => !assigned (wordSet w) (wordOp w).toNat
  | .actSelect core quarter => core < Config.cores && quarter < 4
  | .trackerRelease core _ => core < Config.cores
  | .engineComplete _ tl => tl < 6
  | .busWindowExpiry core => core < Config.cores
  | .busPairSplit cluster => cluster < Config.clusters
  | .rdcInvalidation die _ => die < Config.dies
  | .l2Eviction _ cls => cls < 4
  | .bcMissRequest _ _ lane => lane < Config.lanes
  | .backgroundRepair die _ _ => die < Config.dies
  | .editInterrupt die _ => die < Config.dies
  | .bankCommandRun die stack pc => die < Config.dies && stack < 3 && pc < 64
  | .bankWatchdog die stack pc => die < Config.dies && stack < 3 && pc < 64
  | .pageMigration _ die => die < Config.dies
  | .hotPagePromotion die => die < Config.dies
  | .entryCheck q => q < Config.queues
  | .dependencePoll q => q < Config.queues
  | .allResidentPlace _ cores => cores.all (· < Config.cores)
  | .companyAdmit core _ => core < Config.cores
  | .rangeStealing cluster => cluster < Config.clusters
  | .companyResume _ core => core < Config.cores
  | .qtailWrite q _ => q < Config.queues
  | .abort q => q < Config.queues
  | .preempt q => q < Config.queues
  | .clusterReset cluster _ => cluster < Config.clusters
  | .straitRetirement edge => edge < 4
  | .correctedError die _ => die < Config.dies
  | .fabricBarrierArrival _ k _ _ => k < 16
  | .fabricBarrierRelease k _ => k < 16
  | .portDown port => port < 18
  | .portUp port => port < 18
  | i =>
    match i.code with
    | some (u, op, f) => wordWf u op f
    | none => true

end Sys2Proof
end

