-- ==== Sys2Proof/Certificates/Slice0/Obligations.lean ====
section
/-!
DEFINITION. The statements about this machine that are given out to be proved, with the relations and formulas they
are written in (namespace Sys2Proof.Claim). A formula for a result is written from the spec's words, not from the
meaning that computes it.
-/
namespace Sys2Proof.Claim

open Sys2Proof.Machine

/-! ## When an instruction has its own effect, and what every completed instruction does -/

/-- The running troupe is `t`, the instruction passes the decode checks of R47, and no value that it needs is in
flight (R40). -/
def Issues (uniform : Bool) (sh : Shape) (f : Fields) (s : State) (t : Troupe) : Prop :=
  s.current = some t ∧ decodeTrap uniform sh f t = none ∧ s.interlock? t uniform sh f = none

/-- R48: the act ends with E = 1 or with the 24th instruction of the act. -/
def closes (t : Troupe) (f : Fields) : Bool := f.e || decide (23 ≤ t.pos.kLane + t.pos.kUni)

/-- An operation in flight without the latch it is for. -/
def unlatchedOp (o : MemOp) : MemOp := { o with latch := 0 }
def unlatchedEdge (e : PendingEdge) : PendingEdge := { e with latch := 0 }
def unlatchedXchg (x : Xchg) : Xchg := { x with latch := 0 }

/-- A completed instruction (R48, R51): the pc moves past its words; the instruction counts as the next of its set and
leaves `l` in its latch, unless the act ends: then a new act begins, at position 0 and without latches. -/
def Advanced (uniform : Bool) (f : Fields) (l : LatchVal) (t t' : Troupe) : Prop :=
  t'.pc = t.pc + (if f.ext = .none then 4 else 8) ∧ t'.park = .run ∧ t'.declined = [] ∧
  (if closes t f = true then
      t'.pos = ActPos.fresh ∧ t'.actSerial = t.actNext ∧ t'.actNext = t.actNext + 1
    else t'.pos = t.pos.advance uniform l ∧ t'.actSerial = t.actSerial ∧ t'.actNext = t.actNext)

/-- Nothing of the machine but troupe `t` and the choice of its quarter has changed: no byte of memory, no cache, no
scratchpad, no other troupe, no company, queue, launch or unit. `ends` says that the quarter arbitrates again. -/
def Quiet (s s' : State) (t : Troupe) (ends : Bool) : Prop :=
  s' = { s with troupes := s'.troupes, xchgs := s'.xchgs, cores := s'.cores } ∧
  (∀ a, cellGet s'.mem a = cellGet s.mem a) ∧
  (∀ u, u ≠ t.uid → s'.troupe? u = s.troupe? u) ∧
  s'.xchgs.map unlatchedXchg = s.xchgs.map unlatchedXchg ∧
  s'.cores = if ends then (s.releaseQuarter t).cores else s.cores

/-- Of the troupe, nothing has changed but lane registers, scalar registers, the act registers, fflags, and what every
completed instruction moves: no special register, no stack entry, no wait count, no operation in flight. -/
def RegistersOnly (t t' : Troupe) : Prop :=
  t' = { t with v := t'.v, s := t'.s, act := t'.act, fflags := t'.fflags, pc := t'.pc, pos := t'.pos,
                actSerial := t'.actSerial, actNext := t'.actNext, park := t'.park, declined := t'.declined,
                ops := t'.ops, edges := t'.edges } ∧
  t'.ops.map unlatchedOp = t.ops.map unlatchedOp ∧ t'.edges.map unlatchedEdge = t.edges.map unlatchedEdge

/-- Every lane register keeps its value in every lane. -/
def SameLanes (t t' : Troupe) : Prop := ∀ r i, i < 96 → rowGet (t'.vrow r) i = rowGet (t.vrow r) i

/-- Every scalar register but the act registers, and these, keep their values. -/
def SameScalars (t t' : Troupe) : Prop := t'.s = t.s ∧ t'.act = t.act

/-- A lane instruction of the running troupe completes with result `g i` in lane i (R51, R78): v(D) takes it in the active
lanes (N = 0), every other lane of every register keeps its value, the latch holds it with 0 in inactive lanes, the
flags `fl` are ORed into fflags, and nothing else changes but what `u` changes in the troupe's special state. -/
def LaneResultOn (u : Troupe) (f : Fields) (s : State) (t : Troupe) (fl : Flags) (g : Nat → Word)
    (out : Host.Outcome State Fault Refusal) : Prop :=
  ∃ s' t', out = .next s' ∧ s'.troupe? t.uid = some t' ∧ Quiet s s' t (closes t f) ∧ RegistersOnly u t' ∧
    Advanced false f (.lane ((List.range 96).map fun i => if t.active i then (g i).setWidth 64 else 0)) t t' ∧
    SameScalars t t' ∧ t'.fflags = t.fflags ||| fl.setWidth 32 ∧
    ∀ r i, i < 96 →
      rowGet (t'.vrow r) i = if f.n = false ∧ r = f.d.toNat ∧ t.active i = true then g i else rowGet (t.vrow r) i

/-- The same where nothing but the result and the flags changes. -/
def LaneResult (f : Fields) (s : State) (t : Troupe) (fl : Flags) (g : Nat → Word) (out : Host.Outcome State Fault Refusal) :
    Prop := LaneResultOn t f s t fl g out

/-- The same for a lane pair: v(D) takes the low word, v(D+1) the high word. -/
def LanePairResult (f : Fields) (s : State) (t : Troupe) (g : Nat → DWord) (out : Host.Outcome State Fault Refusal) : Prop :=
  ∃ s' t', out = .next s' ∧ s'.troupe? t.uid = some t' ∧ Quiet s s' t (closes t f) ∧ RegistersOnly t t' ∧
    Advanced false f (.lane ((List.range 96).map fun i => if t.active i then g i else 0)) t t' ∧
    SameScalars t t' ∧ t'.fflags = t.fflags ∧
    ∀ r i, i < 96 →
      rowGet (t'.vrow r) i =
        if f.n = false ∧ r = f.d.toNat ∧ t.active i = true then BitVec.ofNat 32 (g i).toNat
        else if f.n = false ∧ r = f.d.toNat + 1 ∧ t.active i = true then BitVec.ofNat 32 ((g i).toNat / 2 ^ 32)
        else rowGet (t.vrow r) i

/-- Scalar register `j` after the registers in `w` are written (R74, R87): `w j` is the value written to register j, if
any; when an act register is written, the act registers hold 0 for every exited lane. -/
def scalarAfter (t : Troupe) (w : Nat → Option Word) (j : Nat) : Word :=
  let v := (w j).getD (t.sreg j)
  if 61 ≤ j ∧ (w 61 ≠ none ∨ w 62 ≠ none ∨ w 63 ≠ none) then v &&& ~~~maskWord t.exited (j - 61) else v

/-- An instruction that writes only scalar registers completes (R51, R78): `w` gives them, `l` what its latch holds. -/
def ScalarResult (uniform : Bool) (f : Fields) (s : State) (t : Troupe) (fl : Flags) (l : LatchVal) (w : Nat → Option Word)
    (out : Host.Outcome State Fault Refusal) : Prop :=
  ∃ s' t', out = .next s' ∧ s'.troupe? t.uid = some t' ∧ Quiet s s' t (closes t f) ∧ RegistersOnly t t' ∧
    Advanced uniform f l t t' ∧ SameLanes t t' ∧ t'.fflags = t.fflags ||| fl.setWidth 32 ∧
    ∀ j, j < 64 → t'.sreg j = scalarAfter t (fun k => if f.n then none else w k) j

/-- One scalar register written. -/
def one (d : BitVec 7) (x : Word) (k : Nat) : Option Word := if k = d.toNat then some x else none

/-- A scalar pair written. -/
def two (d : BitVec 7) (x : DWord) (k : Nat) : Option Word :=
  if k = d.toNat then some (BitVec.ofNat 32 x.toNat)
  else if k = d.toNat + 1 then some (BitVec.ofNat 32 (x.toNat / 2 ^ 32)) else none

/-- A mask triple written: bit i of the triple is `g i` for an active lane and 0 for another (R100). -/
def three (t : Troupe) (d : BitVec 7) (g : Nat → Bool) (k : Nat) : Option Word :=
  if d.toNat ≤ k ∧ k < d.toNat + 3 then
    some (BitVec.ofNat 32 ((List.range 32).foldr (fun i n =>
      2 * n + if t.active (32 * (k - d.toNat) + i) && g (32 * (k - d.toNat) + i) then 1 else 0) 0))
  else none

/-- The latch of a lane instruction with a mask triple (R51): 1 or 0 per lane. -/
def tripleLatch (t : Troupe) (g : Nat → Bool) : LatchVal :=
  .lane ((List.range 96).map fun i => if t.active i && g i then 1 else 0)

/-- An instruction whose own effect is on special registers, format, wait counts or stack alone: `u` is what it makes
of the troupe. -/
def TroupeResult (uniform : Bool) (f : Fields) (s : State) (t : Troupe) (l : LatchVal) (u : Troupe)
    (out : Host.Outcome State Fault Refusal) : Prop :=
  ∃ s' t', out = .next s' ∧ s'.troupe? t.uid = some t' ∧ Quiet s s' t (closes t f) ∧ Advanced uniform f l t t' ∧
    RegistersOnly u t' ∧ SameLanes u t' ∧ SameScalars u t' ∧ t'.fflags = u.fflags

/-- What RET needs after a trap of this instruction (R93): its length, its set, whether its latch then holds 0, whether
its act ends with it. -/
def resumption (uniform leaves : Bool) (f : Fields) (t : Troupe) : Resume :=
  { len := if f.ext = .none then 4 else 8, laneSet := !uniform, leaves := leaves, ends := closes t f, fetch := false }

/-- The trap handler of a troupe's launch (R61). -/
def handlerOf (s : State) (t : Troupe) : DWord :=
  match s.launch? t.lid with
  | some l => l.hdr.handler
  | none => 0

/-- Taking a trap (R88, R91, R92, R94). Outside the handler: the cause registers are set, the act, its masks, fmt, the
stack depth and what RET needs are saved, the trap state is 1, and the troupe goes on at the handler's address in a
new act; no register, flag, count, memory byte or other state changes. In the handler: the launch is ended with the
double-trap status 5 and the troupe stops where it is. -/
def Traps (s : State) (t : Troupe) (tcause : Word) (taddr : DWord) (mask : LaneMask) (r : Resume)
    (out : Host.Outcome State Fault Refusal) : Prop :=
  (t.trap = false → ∃ s' t', out = .next s' ∧ s'.troupe? t.uid = some t' ∧ Quiet s s' t true ∧
    t' = { t with
      tcause := tcause, tpc := t.pc, taddr := taddr, tmask := mask, trap := true,
      saved := some { act := t.act, fmt := t.fmt, depth := t.stack.length, pos := t.pos, serial := t.actSerial, resume := r },
      pc := handlerOf s t, pos := ActPos.fresh, actSerial := t.actNext, actNext := t.actNext + 1, park := .run,
      declined := [], ops := t'.ops, edges := t'.edges } ∧
    t'.ops.map unlatchedOp = t.ops.map unlatchedOp ∧ t'.edges.map unlatchedEdge = t.edges.map unlatchedEdge) ∧
  (t.trap = true → ∃ s', out = .next s' ∧ (∀ u, s'.troupe? u = s.troupe? u) ∧
    s' = { s with xchgs := s'.xchgs, cores := (s.releaseQuarter t).cores, rm := (s.endLaunch t.lid 5 tcause t.pc).rm } ∧
    s'.xchgs.map unlatchedXchg = s.xchgs.map unlatchedXchg)

/-- An instruction that waits (R48, R136): the troupe stays at its pc, in its act, with its state; it is parked as `p`
says, with the clock and what RET would need after a trap (R93, R147). A stall keeps its quarter; a troupe whose next act waits
for a load is not chosen; otherwise the quarter arbitrates again. -/
def Waits (s : State) (t : Troupe) (p : Park) (r : Resume) (out : Host.Outcome State Fault Refusal) : Prop :=
  out = .next (
    let s' := s.setTroupe { t with park := p, parkedAt := s.clock.toNat, parkResume := r }
    match p with
    | .interlock => s'
    | .load _ => s'.unchoose t
    | _ => s'.releaseQuarter t)

/-! ## Shapes: what an instruction's description says of its fields (R44) -/

/-- Short lane instructions of one and two 32-bit sources. -/
def lane1 : Shape := { dst := .lane, a := .w32 }
def lane2 : Shape := { dst := .lane, a := .w32, b := .w32 }
/-- Long ones of three. -/
def lane3 : Shape := { dst := .lane, long := true, a := .w32, b := .w32, c := .w32 }
/-- The same in the uniform set. -/
def scalar1 : Shape := { dst := .scalar, a := .w32 }
def scalar2 : Shape := { dst := .scalar, a := .w32, b := .w32 }
def scalar3 : Shape := { dst := .scalar, long := true, a := .w32, b := .w32, c := .w32 }

/-- BFI and SBFI (R98, R123): the length is X.imm[5:0], at most 32. -/
def bfiOf (f : Fields) : Shape :=
  { lane3 with ownImm := true, immMask := 0x3F, badModifier := decide (32 < Fields.x f 5 0) }
def sbfiOf (f : Fields) : Shape :=
  { scalar3 with ownImm := true, immMask := 0x3F, badModifier := decide (32 < Fields.x f 5 0) }
/-- LEA and SLEA: the shift is X.imm[2:0]. -/
def leaOf : Shape := { lane2 with long := true, ownImm := true, immMask := 0x7 }
def sleaOf : Shape := { scalar2 with long := true, ownImm := true, immMask := 0x7 }
/-- Pair forms (R99), comparisons (R100, R103), and SADD64. -/
def pair2 : Shape := { dst := .lanePair, a := .w64, b := .w64 }
def pair3 : Shape := { dst := .lanePair, long := true, a := .w64, b := .w64, c := .w64 }
def pairShift : Shape := { dst := .lanePair, a := .w64, b := .w32 }
def triple2 : Shape := { dst := .triple, a := .w32, b := .w32 }
def scalarPair2 : Shape := { dst := .scalarPair, a := .w64, b := .w64 }
/-- LANERD and LANEWR (R124): the lane register is X.imm[6:0]. -/
def lanerdOf (f : Fields) : Shape :=
  { dst := .scalar, long := true, b := .w32, ownImm := true, immMask := 0x7F, laneReg := some (Fields.x f 6 0) }
def lanewrOf (f : Fields) : Shape :=
  { dst := .none, long := true, a := .w32, b := .w32, ownImm := true, immMask := 0x7F, laneReg := some (Fields.x f 6 0) }

/-! ## Integer results (R96-R100, R123) -/

def mulhi (a b : Word) : Word := BitVec.ofInt 32 (a.toInt * b.toInt / 2 ^ 32)
def mulhu (a b : Word) : Word := BitVec.ofNat 32 (a.toNat * b.toNat / 2 ^ 32)
def shl (a b : Word) : Word := BitVec.ofNat 32 (a.toNat * 2 ^ (b.toNat % 32))
def shr (a b : Word) : Word := BitVec.ofNat 32 (a.toNat / 2 ^ (b.toNat % 32))
def sar (a b : Word) : Word := BitVec.ofInt 32 (a.toInt / 2 ^ (b.toNat % 32))
def rol (a b : Word) : Word :=
  let p := a.toNat * 2 ^ (b.toNat % 32)
  BitVec.ofNat 32 (p % 2 ^ 32 + p / 2 ^ 32)
/-- Bits of a word that satisfy a condition on their place and value, counted. -/
def count (p : Nat → Bool) : Word := BitVec.ofNat 32 ((List.range 32).filter p).length
/-- A word given bit by bit. -/
def bits (p : Nat → Bool) : Word := BitVec.ofNat 32 ((List.range 32).foldr (fun i n => 2 * n + if p i then 1 else 0) 0)

/-- BFX (R98). -/
def bfx (signed : Bool) (a b c : Word) : Word :=
  let pos := b.toNat % 32
  let len := min (c.toNat % 64) 32
  bits fun i =>
    if i < len then a.getLsbD (pos + i) else signed && decide (0 < len) && a.getLsbD (pos + (len - 1))

/-- BFI (R98). -/
def bfi (len : Nat) (a b c : Word) : Word :=
  let pos := c.toNat % 32
  bits fun i => if pos ≤ i ∧ i < pos + len then a.getLsbD (i - pos) else b.getLsbD i

/-- GATHB (R98): bit i of the result comes from byte n of b:a, or is 0, 1 or that byte's bit 7. -/
def gathb (a b c : Word) : Word :=
  bits fun i =>
    let k := i / 8
    let n := c.toNat / 2 ^ (3 * k) % 8
    let bit (j : Nat) : Bool := if n < 4 then a.getLsbD (8 * n + j) else b.getLsbD (8 * (n - 4) + j)
    match c.toNat / 2 ^ (12 + 2 * k) % 4 with
    | 0 => bit (i % 8)
    | 1 => false
    | 2 => true
    | _ => bit 7

/-- The ten conditions of R100. -/
def holds (k : Nat) (a b : Word) : Bool :=
  match k with
  | 0 => decide (a = b)
  | 1 => decide (a ≠ b)
  | 2 => decide (a.toInt < b.toInt)
  | 3 => decide (a.toInt ≤ b.toInt)
  | 4 => decide (a.toInt > b.toInt)
  | 5 => decide (a.toInt ≥ b.toInt)
  | 6 => decide (a.toNat < b.toNat)
  | 7 => decide (a.toNat ≤ b.toNat)
  | 8 => decide (a.toNat > b.toNat)
  | _ => decide (a.toNat ≥ b.toNat)

/-- Short instructions of one source, with their results (R97). -/
def laneUnaries : List ((Fields → Instr) × (Word → Word)) :=
  [(.iabs, fun a => BitVec.ofInt 32 (if a.toInt < 0 then -a.toInt else a.toInt)),
   (.ineg, fun a => BitVec.ofInt 32 (0 - a.toInt)),
   (.popc, fun a => count a.getLsbD),
   (.clz, fun a => count fun i => decide (a.toNat < 2 ^ i)),
   (.ctz, fun a => count fun i => decide (a.toNat % 2 ^ (i + 1) = 0)),
   (.brev, fun a => bits fun i => a.getLsbD (31 - i)),
   (.mov, fun a => a)]

/-- Short instructions of two sources (R97). -/
def laneBinaries : List ((Fields → Instr) × (Word → Word → Word)) :=
  [(.iadd, fun a b => BitVec.ofNat 32 (a.toNat + b.toNat)),
   (.isub, fun a b => BitVec.ofInt 32 ((a.toNat : Int) - b.toNat)),
   (.imul, fun a b => BitVec.ofNat 32 (a.toNat * b.toNat)),
   (.imulhi, mulhi), (.imulhu, mulhu),
   (.imin, fun a b => if a.toInt ≤ b.toInt then a else b), (.imax, fun a b => if a.toInt ≤ b.toInt then b else a),
   (.iminu, fun a b => if a.toNat ≤ b.toNat then a else b), (.imaxu, fun a b => if a.toNat ≤ b.toNat then b else a),
   (.and, fun a b => bits fun i => a.getLsbD i && b.getLsbD i),
   (.or, fun a b => bits fun i => a.getLsbD i || b.getLsbD i),
   (.xor, fun a b => bits fun i => a.getLsbD i != b.getLsbD i),
   (.andn, fun a b => bits fun i => a.getLsbD i && !b.getLsbD i)]
  ++ [(.shl, shl), (.shr, shr), (.sar, sar), (.rol, rol)]

/-- Long instructions of three sources (R98). -/
def laneTernaries : List ((Fields → Instr) × (Word → Word → Word → Word)) :=
  [(.imad, fun a b c => BitVec.ofNat 32 (a.toNat * b.toNat + c.toNat)),
   (.bfxS, bfx true), (.bfxZ, bfx false), (.gathb, gathb),
   (.sel, fun a b c => if c.toNat = 0 then b else a)]

/-- The comparisons of R100, in the order of their opcodes. -/
def laneCompares : List (Fields → Instr) :=
  [.icmpEq, .icmpNe, .icmpLt, .icmpLe, .icmpGt, .icmpGe, .icmpLtu, .icmpLeu, .icmpGtu, .icmpGeu]

/-- The same in the uniform set (R123). -/
def scalarUnaries : List ((Fields → Instr) × (Word → Word)) :=
  [(.spopc, fun a => count a.getLsbD), (.sffs, fun a => count fun i => decide (a.toNat % 2 ^ (i + 1) = 0)),
   (.smov, fun a => a)]

def scalarBinaries : List ((Fields → Instr) × (Word → Word → Word)) :=
  [(.sadd, fun a b => BitVec.ofNat 32 (a.toNat + b.toNat)),
   (.ssub, fun a b => BitVec.ofInt 32 ((a.toNat : Int) - b.toNat)),
   (.smul, fun a b => BitVec.ofNat 32 (a.toNat * b.toNat)),
   (.smulhi, mulhi),
   (.smin, fun a b => if a.toInt ≤ b.toInt then a else b), (.smax, fun a b => if a.toInt ≤ b.toInt then b else a),
   (.sand, fun a b => bits fun i => a.getLsbD i && b.getLsbD i),
   (.sor, fun a b => bits fun i => a.getLsbD i || b.getLsbD i),
   (.sxor, fun a b => bits fun i => a.getLsbD i != b.getLsbD i),
   (.sandn, fun a b => bits fun i => a.getLsbD i && !b.getLsbD i)]
  ++ [(.sshl, shl), (.sshr, shr), (.ssar, sar)]

def scalarTernaries : List ((Fields → Instr) × (Word → Word → Word → Word)) :=
  [(.smad, fun a b c => BitVec.ofNat 32 (a.toNat * b.toNat + c.toNat)), (.sbfx, bfx false),
   (.ssel, fun a b c => if c.toNat = 0 then b else a)]

def scalarCompares : List (Fields → Instr) :=
  [.scmpEq, .scmpNe, .scmpLt, .scmpLe, .scmpGt, .scmpGe, .scmpLtu, .scmpLeu, .scmpGtu, .scmpGeu]

end Sys2Proof.Claim

open Sys2Proof Sys2Proof.Machine Sys2Proof.Claim

/-! ## Lane integer instructions -/

/-- R97, one source: IABS, INEG, POPC, CLZ, CTZ, BREV, MOV complete with their results, and change nothing else (R78,
R96: no flag). -/
def Sys2Proof.Claim.LaneUnaryResults : Prop :=
  ∀ p ∈ laneUnaries, ∀ f s t, Issues false lane1 f s t →
    LaneResult f s t 0 (fun i => p.2 (t.a32 f i)) (exec (p.1 f) s)

/-- R97, two sources: IADD to ROL complete with their results, and change nothing else. -/
def Sys2Proof.Claim.LaneBinaryResults : Prop :=
  ∀ p ∈ laneBinaries, ∀ f s t, Issues false lane2 f s t →
    LaneResult f s t 0 (fun i => p.2 (t.a32 f i) (t.b32 f i)) (exec (p.1 f) s)

/-- R98: IMAD, BFX.s, BFX.z, GATHB and SEL; BFI with its length in X.imm[5:0]; LEA with its shift in X.imm[2:0]. -/
def Sys2Proof.Claim.LaneTernaryResults : Prop :=
  (∀ p ∈ laneTernaries, ∀ f s t, Issues false lane3 f s t →
    LaneResult f s t 0 (fun i => p.2 (t.a32 f i) (t.b32 f i) (t.c32 f i)) (exec (p.1 f) s)) ∧
  (∀ f s t, Issues false (bfiOf f) f s t →
    LaneResult f s t 0 (fun i => bfi (Fields.x f 5 0) (t.a32 f i) (t.b32 f i) (t.c32 f i)) (exec (.bfi f) s)) ∧
  (∀ f s t, Issues false leaOf f s t →
    LaneResult f s t 0 (fun i => BitVec.ofNat 32 ((t.a32 f i).toNat + (t.b32 f i).toNat * 2 ^ Fields.x f 2 0))
      (exec (.lea f) s))

/-- R99: the pair forms IADD64, ISUB64, IMAD64, SHL64, SHR64, modulo 2^64. -/
def Sys2Proof.Claim.LanePairResults : Prop :=
  (∀ f s t, Issues false pair2 f s t →
    LanePairResult f s t (fun i => BitVec.ofNat 64 ((t.a64 f i).toNat + (t.b64 f i).toNat)) (exec (.iadd64 f) s) ∧
    LanePairResult f s t (fun i => BitVec.ofInt 64 (((t.a64 f i).toNat : Int) - (t.b64 f i).toNat)) (exec (.isub64 f) s)) ∧
  (∀ f s t, Issues false pair3 f s t →
    LanePairResult f s t (fun i => BitVec.ofNat 64 ((t.a64 f i).toNat * (t.b64 f i).toNat + (t.c64 f i).toNat))
      (exec (.imad64 f) s)) ∧
  (∀ f s t, Issues false pairShift f s t →
    LanePairResult f s t (fun i => BitVec.ofNat 64 ((t.a64 f i).toNat * 2 ^ ((t.b32 f i).toNat % 64))) (exec (.shl64 f) s) ∧
    LanePairResult f s t (fun i => BitVec.ofNat 64 ((t.a64 f i).toNat / 2 ^ ((t.b32 f i).toNat % 64))) (exec (.shr64 f) s))

/-- R100: ICMP.cc writes the mask triple: bit i is 1 exactly if lane i is active and the condition holds there. -/
def Sys2Proof.Claim.LaneCompareResults : Prop :=
  ∀ p ∈ laneCompares.zipIdx, ∀ f s t, Issues false triple2 f s t →
    ScalarResult false f s t 0 (tripleLatch t fun i => holds p.2 (t.a32 f i) (t.b32 f i))
      (three t f.d fun i => holds p.2 (t.a32 f i) (t.b32 f i)) (exec (p.1 f) s)

/-- R96-R100: every lane integer instruction completes with its result in every active lane, raises no flag, and changes
nothing else. -/
def Obligations.LaneIntegerResults : Prop := Claim.LaneUnaryResults ∧ Claim.LaneBinaryResults ∧
  Claim.LaneTernaryResults ∧ Claim.LanePairResults ∧ Claim.LaneCompareResults

/-! ## Uniform scalar instructions -/

/-- R123: SADD to SMOV, SADD64, SLEA, SBFI and SCMP.cc complete with their results once, whatever the act registers hold
(R78, R122), and change nothing else. -/
def Sys2Proof.Claim.ScalarResults : Prop :=
  (∀ p ∈ scalarUnaries, ∀ f s t, Issues true scalar1 f s t →
    ScalarResult true f s t 0 (.uni ((p.2 (t.ua f)).setWidth 64)) (one f.d (p.2 (t.ua f))) (exec (p.1 f) s)) ∧
  (∀ p ∈ scalarBinaries, ∀ f s t, Issues true scalar2 f s t →
    ScalarResult true f s t 0 (.uni ((p.2 (t.ua f) (t.ub f)).setWidth 64)) (one f.d (p.2 (t.ua f) (t.ub f)))
      (exec (p.1 f) s)) ∧
  (∀ p ∈ scalarTernaries, ∀ f s t, Issues true scalar3 f s t →
    ScalarResult true f s t 0 (.uni ((p.2 (t.ua f) (t.ub f) (t.uc f)).setWidth 64))
      (one f.d (p.2 (t.ua f) (t.ub f) (t.uc f))) (exec (p.1 f) s)) ∧
  (∀ p ∈ scalarCompares.zipIdx, ∀ f s t, Issues true scalar2 f s t →
    let x : Word := if holds p.2 (t.ua f) (t.ub f) then 1 else 0
    ScalarResult true f s t 0 (.uni (x.setWidth 64)) (one f.d x) (exec (p.1 f) s)) ∧
  (∀ f s t, Issues true scalarPair2 f s t →
    let x := BitVec.ofNat 64 ((t.ua64 f).toNat + (t.ub64 f).toNat)
    ScalarResult true f s t 0 (.uni x) (two f.d x) (exec (.sadd64 f) s)) ∧
  (∀ f s t, Issues true (sbfiOf f) f s t →
    let x := bfi (Fields.x f 5 0) (t.ua f) (t.ub f) (t.uc f)
    ScalarResult true f s t 0 (.uni (x.setWidth 64)) (one f.d x) (exec (.sbfi f) s)) ∧
  (∀ f s t, Issues true sleaOf f s t →
    let x := BitVec.ofNat 32 ((t.ua f).toNat + (t.ub f).toNat * 2 ^ Fields.x f 2 0)
    ScalarResult true f s t 0 (.uni (x.setWidth 64)) (one f.d x) (exec (.slea f) s))

/-- R124: LANERD reads, and LANEWR writes, one lane of v(X.imm[6:0]), whether the lane is active or not; a lane number of
96 or more traps ILLEGAL-OPERAND, with nothing done. -/
def Sys2Proof.Claim.LaneMoveResults : Prop :=
  (∀ f s t, Issues true (lanerdOf f) f s t →
    (if (t.ub f).toNat < 96 then
      let x := rowGet (t.vrow (Fields.x f 6 0)) (t.ub f).toNat
      ScalarResult true f s t 0 (.uni (x.setWidth 64)) (one f.d x) (exec (.lanerd f) s)
    else Traps s t 2 0 0 (resumption true true f t) (exec (.lanerd f) s))) ∧
  (∀ f s t, Issues true (lanewrOf f) f s t →
    (if (t.ub f).toNat < 96 then
      ∃ s' t', exec (.lanewr f) s = .next s' ∧ s'.troupe? t.uid = some t' ∧ Quiet s s' t (closes t f) ∧
        RegistersOnly t t' ∧ Advanced true f .none t t' ∧ SameScalars t t' ∧ t'.fflags = t.fflags ∧
        ∀ r i, i < 96 →
          rowGet (t'.vrow r) i =
            if r = Fields.x f 6 0 ∧ i = (t.ub f).toNat then t.ua f else rowGet (t.vrow r) i
    else Traps s t 2 0 0 (resumption true false f t) (exec (.lanewr f) s)))

/-- R123, R124: the uniform scalar instructions complete with their results and change nothing else. -/
def Obligations.ScalarInstructionResults : Prop := Claim.ScalarResults ∧ Claim.LaneMoveResults
namespace Sys2Proof.Claim

open Sys2Proof.Machine

/-! ## Floating point, from the bits of the codes -/

/-- R13: the flags of a lane instruction: those of its active lanes together. -/
def flagsOf (t : Troupe) (g : Nat → Flags) : Flags :=
  (List.range 96).foldl (fun fl i => if t.active i then fl ||| g i else fl) 0

/-- A NaN of an IEEE format with E exponent and M fraction bits: exponent all ones, fraction not 0. -/
def isNan (E M c : Nat) : Bool := decide ((2 ^ E - 1) * 2 ^ M < c % 2 ^ (E + M))
/-- R11: its top fraction bit is 0. -/
def isSignalling (E M c : Nat) : Bool := isNan E M c && decide (c / 2 ^ (M - 1) % 2 = 0)
def canonicalNan (E M : Nat) : Nat := (2 ^ (E + 1) - 1) * 2 ^ (M - 1)
def infinity (E M : Nat) (neg : Bool) : Nat := (2 ^ E - 1) * 2 ^ M + if neg then 2 ^ (E + M) else 0
def isFinite (E M c : Nat) : Bool := decide (c % 2 ^ (E + M) < (2 ^ E - 1) * 2 ^ M)

/-- The codes in order of their values, -0 next below +0 (R33). -/
def order (E M c : Nat) : Int :=
  if c / 2 ^ (E + M) % 2 = 1 then -((c % 2 ^ (E + M) : Nat) : Int) - 1 else (c % 2 ^ (E + M) : Nat)
/-- The codes in order of their values, -0 equal to +0 (R103). -/
def value (E M c : Nat) : Int :=
  if c / 2 ^ (E + M) % 2 = 1 then -((c % 2 ^ (E + M) : Nat) : Int) else (c % 2 ^ (E + M) : Nat)

def invalidIf (b : Bool) : Flags := if b then 1 else 0

/-- R33. -/
def minnum (E M : Nat) (max : Bool) (a b : Nat) : Nat :=
  if isNan E M a && isNan E M b then canonicalNan E M
  else if isNan E M a then b
  else if isNan E M b then a
  else if max then (if order E M a < order E M b then b else a)
  else if order E M b < order E M a then b else a

/-- R102: FCLASS. -/
def classOf (c : Nat) : Nat :=
  let neg := decide (2 ^ 31 ≤ c)
  let m := c % 2 ^ 31
  if isNan 8 23 c then (if isSignalling 8 23 c then 256 else 512)
  else if m = 0x7F800000 then (if neg then 1 else 128)
  else if m = 0 then (if neg then 8 else 16)
  else if m < 2 ^ 23 then (if neg then 4 else 32)
  else if neg then 2 else 64

/-- R103: the conditions of FCMP.eq, .ne, .lt, .le, .gt, .ge, .uno, .ord, and when each raises NV. -/
def fcmpHolds (k a b : Nat) : Bool :=
  let un := isNan 8 23 a || isNan 8 23 b
  let x := value 8 23 a
  let y := value 8 23 b
  match k with
  | 0 => !un && decide (x = y)
  | 1 => un || decide (x ≠ y)
  | 2 => !un && decide (x < y)
  | 3 => !un && decide (x ≤ y)
  | 4 => !un && decide (x > y)
  | 5 => !un && decide (x ≥ y)
  | 6 => un
  | _ => !un

def fcmpInvalid (k a b : Nat) : Bool :=
  if 2 ≤ k ∧ k ≤ 5 then isNan 8 23 a || isNan 8 23 b else isSignalling 8 23 a || isSignalling 8 23 b

/-- Element results as one word (R105). -/
def halves (op : Nat → Nat → Rounded) (a b : Word) : Rounded :=
  let lo := op (a.toNat % 65536) (b.toNat % 65536)
  let hi := op (a.toNat / 65536) (b.toNat / 65536)
  ⟨lo.code + 65536 * hi.code, lo.flags ||| hi.flags⟩

def halves3 (op : Nat → Nat → Nat → Rounded) (a b c : Word) : Rounded :=
  let lo := op (a.toNat % 65536) (b.toNat % 65536) (c.toNat % 65536)
  let hi := op (a.toNat / 65536) (b.toNat / 65536) (c.toNat / 65536)
  ⟨lo.code + 65536 * hi.code, lo.flags ||| hi.flags⟩

def minmaxOf (E M : Nat) (max : Bool) (a b : Nat) : Rounded :=
  ⟨minnum E M max a b, invalidIf (isSignalling E M a || isSignalling E M b)⟩

/-- Short FP32 and packed instructions of two sources (R101, R102, R105). -/
def fpBinaries : List ((Fields → Instr) × (Word → Word → Rounded)) :=
  [(.fadd, fun a b => fp32.add a.toNat b.toNat), (.fsub, fun a b => fp32.sub a.toNat b.toNat),
   (.fmul, fun a b => fp32.mul a.toNat b.toNat),
   (.fmin, fun a b => minmaxOf 8 23 false a.toNat b.toNat), (.fmax, fun a b => minmaxOf 8 23 true a.toNat b.toNat),
   (.fcpys, fun a b =>
     ⟨if isNan 8 23 a.toNat then 0x7FC00000 else a.toNat % 2 ^ 31 + b.toNat / 2 ^ 31 * 2 ^ 31, 0⟩)]
  ++ [(.p2addBf, halves bf16.add), (.p2mulBf, halves bf16.mul), (.p2minBf, halves (minmaxOf 8 7 false)),
   (.p2maxBf, halves (minmaxOf 8 7 true)), (.p2addHf, halves fp16.add), (.p2mulHf, halves fp16.mul),
   (.p2minHf, halves (minmaxOf 5 10 false)), (.p2maxHf, halves (minmaxOf 5 10 true))]

/-- Long ones of three. -/
def fpTernaries : List ((Fields → Instr) × (Word → Word → Word → Rounded)) :=
  [(.ffma, fun a b c => fp32.fma a.toNat b.toNat c.toNat), (.p2fmaBf, halves3 bf16.fma), (.p2fmaHf, halves3 fp16.fma)]

/-- Short ones of one source (R102, R104, R106). -/
def fpUnaries : List ((Fields → Instr) × (Word → Rounded)) :=
  [(.fclass, fun a => ⟨classOf a.toNat, 0⟩),
   (.frndRn, fun a => frnd .rn a.toNat), (.frndRz, fun a => frnd .rz a.toNat), (.frndRd, fun a => frnd .rd a.toNat),
   (.frndRu, fun a => frnd .ru a.toNat)]
  ++ [(.frcp, fun a => frcp a.toNat), (.frsq, fun a => frsq a.toNat), (.fsqrt, fun a => fsqrt a.toNat),
   (.fex2, fun a => fex2 a.toNat), (.flg2, fun a => flg2 a.toNat), (.fsin, fun a => fsin a.toNat),
   (.fcos, fun a => fcos a.toNat), (.ftanh, fun a => ftanh a.toNat)]

def fpCompares : List (Fields → Instr) :=
  [.fcmpEq, .fcmpNe, .fcmpLt, .fcmpLe, .fcmpGt, .fcmpGe, .fcmpUno, .fcmpOrd]

/-- The IEEE formats with their parameters. -/
def ieeeFormats : List (FloatFmt × Nat × Nat) := [(fp32, 8, 23), (bf16, 8, 7), (fp16, 5, 10), (e5m2, 5, 2)]

/-- The code of 2^n, FP32: a normal number or a subnormal one. -/
def powerOfTwo (n : Int) : Nat := if -126 ≤ n then ((n + 127) * 2 ^ 23).toNat else 2 ^ (n + 149).toNat

/-- The code of a small integer, FP32. -/
def smallInt (n : Int) : Nat :=
  let m := n.natAbs
  if m = 0 then 0
  else (if n < 0 then 2 ^ 31 else 0) + (127 + m.log2) * 2 ^ 23 + (m * 2 ^ (23 - m.log2) - 2 ^ 23)

/-! ## Conversions (R107-R114) -/

def cvtFormats : List Nat := [0, 1, 2, 3, 4, 5, 6, 7, 9, 10]

/-- R107: the target, from TF or from fmt.CF. -/
def targetOf (f : Fields) (t : Troupe) : Nat := if Fields.x f 3 0 = 15 then t.fmt.toNat / 256 % 16 else Fields.x f 3 0

/-- R107: .sat, in the instruction or, with TF = 0xF, in fmt. -/
def saturates (f : Fields) (t : Troupe) : Bool :=
  decide (Fields.x f 11 11 = 1) || (decide (Fields.x f 3 0 = 15) && t.fmt.getLsbD 14)

/-- R107: RM. -/
def modeOf (f : Fields) : Mode :=
  match Fields.x f 10 8 with
  | 0 => .rn
  | 1 => .rz
  | 2 => .rd
  | 3 => .ru
  | _ => .sr

/-- R18: an instruction with .sr advances srctr by 1. -/
def drawn (f : Fields) (t : Troupe) : Troupe := if Fields.x f 10 8 = 4 then { t with srctr := t.srctr + 1 } else t

/-- R17: the random value of lane i, element e. -/
def randomOf (t : Troupe) (i e : Nat) : Nat := srr t.srseed t.srctr (t.wid * 96 + BitVec.ofNat 64 i) e

/-- The shape of a conversion; `listed` says that SF, TF and P are listed. -/
def cvtShape (f : Fields) (b c : Use) (listed : Prop) [Decidable listed] : Shape :=
  { dst := .lane, long := true, a := .w32, b := b, c := c, ownImm := true, immMask := 0x7FFF,
    badModifier := !decide (Fields.x f 10 8 ≤ 4 ∧ listed) }

/-- R110: positions that CVTPK may name for a target. -/
def packLimit (tf : Nat) : Nat :=
  if tf = 1 ∨ tf = 2 then 1 else if tf = 7 then 4 else if tf ∈ [3, 4, 5, 6, 9] then 2 else 0

/-- R111: positions of a source of CVTUNPK. -/
def unpackLimit (sf : Nat) : Nat :=
  if sf = 1 ∨ sf = 2 then 2 else if sf = 7 then 8 else if sf ∈ [3, 4, 5, 6, 9] then 4 else 0

def isFp8Code (c : Nat) : Bool := decide (c = 3 ∨ c = 4)
def isMxCode (c : Nat) : Bool := decide (3 ≤ c ∧ c ≤ 8)

/-- The five conversions (R108-R112). -/
def cvtOf (f : Fields) : Shape :=
  let sf := Fields.x f 7 4
  cvtShape f .no .no (sf ∈ cvtFormats ∧ Fields.x f 14 12 = 0 ∧ (Fields.x f 3 0 = 15 ∨ (Fields.x f 3 0 ∈ cvtFormats ∧ Fields.x f 3 0 ≠ sf)))
def cvtpkOf (f : Fields) : Shape :=
  let sf := Fields.x f 7 4
  let p := Fields.x f 14 12
  cvtShape f .w32 (if Fields.x f 3 0 = 1 ∨ Fields.x f 3 0 = 2 then .no else .w32) (sf ∈ [0, 1, 2, 10] ∧ (if Fields.x f 3 0 = 15 then p ≤ 3 else p < packLimit (Fields.x f 3 0)))
def cvtunpkOf (f : Fields) : Shape :=
  let sf := Fields.x f 7 4
  let p := Fields.x f 14 12
  cvtShape f .no .no (p < unpackLimit sf ∧ (Fields.x f 3 0 = 15 ∨ Fields.x f 3 0 ∈ [0, 1, 2, 10]))
def cvtbsOf (f : Fields) : Shape :=
  let sf := Fields.x f 7 4
  let p := Fields.x f 14 12
  cvtShape f .w32 .no (p ≤ 1 ∧ (if p = 0 then sf = 0 ∧ (Fields.x f 3 0 = 15 ∨ isFp8Code (Fields.x f 3 0)) else isFp8Code sf ∧ (Fields.x f 3 0 = 15 ∨ Fields.x f 3 0 = 0) ∧ Fields.x f 10 8 = 0))
def cvtmxOf (f : Fields) : Shape :=
  let sf := Fields.x f 7 4
  let p := Fields.x f 14 12
  cvtShape f .no .no (p ≤ 1 ∧ (if p = 0 then sf = 0 ∧ (Fields.x f 3 0 = 15 ∨ isMxCode (Fields.x f 3 0)) else isMxCode sf ∧ (Fields.x f 3 0 = 15 ∨ Fields.x f 3 0 = 0) ∧ Fields.x f 10 8 = 0))

/-- An element converted (R19-R21): from code `x` of format `sf`. -/
def converted (f : Fields) (t : Troupe) (tf i e sf x : Nat) : Rounded :=
  roundTo tf (modeOf f) (randomOf t i e) (saturates f t) (decide (sf = 9 ∨ sf = 10)) (decodeElem sf x)

/-- A CVT or CVTUNPK result in its word (R108). -/
def placed (tf code : Nat) : Word :=
  if tf = 9 then BitVec.ofInt 32 (if 128 ≤ code % 256 then (code % 256 : Nat) - 256 else (code % 256 : Nat))
  else BitVec.ofNat 32 code

/-- Bits of an element's place (R108). -/
def placeBits (c : Nat) : Nat := if c = 1 ∨ c = 2 then 16 else if c = 7 then 4 else 8

/-- A word with element p replaced by a code, bit by bit. -/
def replaced (c p : Nat) (w : Word) (code : Nat) : Word :=
  bits fun i => if placeBits c * p ≤ i ∧ i < placeBits c * p + placeBits c then code.testBit (i - placeBits c * p) else w.getLsbD i

/-- R113: the values of beat j: +0 for an inactive lane. -/
def beat (t : Troupe) (f : Fields) (j : Nat) : List Val :=
  (List.range 32).map fun k =>
    if t.active (32 * j + k) then fp32.decode (t.a32 f (32 * j + k)).toNat else .fin false 0 0

end Sys2Proof.Claim

/-! ## Floating-point instructions -/

/-- R101, R102, R105: the short FP32 and packed instructions of two sources, and the long ones of three, complete with
their results, with the flags of the active lanes ORed into fflags (R13), and change nothing else. -/
def Sys2Proof.Claim.FloatResults : Prop :=
  (∀ p ∈ fpBinaries, ∀ f s t, Issues false lane2 f s t →
    LaneResult f s t (flagsOf t fun i => (p.2 (t.a32 f i) (t.b32 f i)).flags)
      (fun i => BitVec.ofNat 32 (p.2 (t.a32 f i) (t.b32 f i)).code) (exec (p.1 f) s)) ∧
  (∀ p ∈ fpTernaries, ∀ f s t, Issues false lane3 f s t →
    LaneResult f s t (flagsOf t fun i => (p.2 (t.a32 f i) (t.b32 f i) (t.c32 f i)).flags)
      (fun i => BitVec.ofNat 32 (p.2 (t.a32 f i) (t.b32 f i) (t.c32 f i)).code) (exec (p.1 f) s))

/-- R102, R104, R106: FCLASS, FRND and the special functions complete with their results and flags. -/
def Sys2Proof.Claim.FloatUnaryResults : Prop :=
  ∀ p ∈ fpUnaries, ∀ f s t, Issues false lane1 f s t →
    LaneResult f s t (flagsOf t fun i => (p.2 (t.a32 f i)).flags) (fun i => BitVec.ofNat 32 (p.2 (t.a32 f i)).code)
      (exec (p.1 f) s)

/-- R103: FCMP.cc writes the mask triple as ICMP does, and raises NV for a NaN as its condition says. -/
def Sys2Proof.Claim.FloatCompareResults : Prop :=
  ∀ p ∈ fpCompares.zipIdx, ∀ f s t, Issues false triple2 f s t →
    let g (i : Nat) : Bool := fcmpHolds p.2 (t.a32 f i).toNat (t.b32 f i).toNat
    ScalarResult false f s t (flagsOf t fun i => invalidIf (fcmpInvalid p.2 (t.a32 f i).toNat (t.b32 f i).toNat))
      (tripleLatch t g) (three t f.d g) (exec (p.1 f) s)

/-- R101-R106: every floating-point lane instruction completes with its results and flags and changes nothing else. -/
def Obligations.FloatInstructionResults : Prop := Claim.FloatResults ∧ Claim.FloatUnaryResults ∧
  Claim.FloatCompareResults

/-- R101, R11, R105: special values of the additions, products and fused operations of the IEEE formats: a NaN operand
gives the canonical NaN, with NV exactly for a signalling one; inf - inf and 0 * inf give it with NV, also when c is a NaN;
an exact sum of zero is +0. -/
def Sys2Proof.Claim.FloatSpecialValues : Prop :=
  ∀ p ∈ ieeeFormats, let F := p.1; let E := p.2.1; let M := p.2.2
    (∀ a b, a < 2 ^ (1 + E + M) → b < 2 ^ (1 + E + M) → (isNan E M a ∨ isNan E M b) →
      F.add a b = ⟨canonicalNan E M, invalidIf (isSignalling E M a || isSignalling E M b)⟩ ∧
      F.mul a b = ⟨canonicalNan E M, invalidIf (isSignalling E M a || isSignalling E M b)⟩) ∧
    F.add (infinity E M false) (infinity E M true) = ⟨canonicalNan E M, 1⟩ ∧
    F.sub (infinity E M false) (infinity E M false) = ⟨canonicalNan E M, 1⟩ ∧
    (∀ neg c, c < 2 ^ (1 + E + M) → F.mul 0 (infinity E M neg) = ⟨canonicalNan E M, 1⟩ ∧
      F.fma 0 (infinity E M neg) c = ⟨canonicalNan E M, 1⟩) ∧
    (∀ a, a < 2 ^ (1 + E + M) → isFinite E M a → F.sub a a = ⟨0, 0⟩) ∧
    F.add (2 ^ (E + M)) (2 ^ (E + M)) = ⟨2 ^ (E + M), 0⟩ ∧ F.sub (2 ^ (E + M)) 0 = ⟨2 ^ (E + M), 0⟩

/-- R10: every value of a format is its own rounding, exactly and without a flag: subnormals and -0 among them. -/
def Sys2Proof.Claim.FormatsAreExact : Prop :=
  (∀ p ∈ ieeeFormats, ∀ c mode r, c < 2 ^ (1 + p.2.1 + p.2.2) → isFinite p.2.1 p.2.2 c →
    p.1.round mode r false (p.1.decode c) = ⟨c, 0⟩) ∧
  (∀ p ∈ [(e4m3, 8), (e2m3, 6), (e3m2, 6), (e2m1, 4)], ∀ c mode r sat, c < 2 ^ p.2 → (p.1.decode c).isNaN = false →
    p.1.round mode r sat (p.1.decode c) = ⟨c, 0⟩)

/-- R10, R11, R101, R105: the special values of the arithmetic of the formats, and exact rounding of what a format
holds. -/
def Obligations.FormatValues : Prop := Claim.FloatSpecialValues ∧ Claim.FormatsAreExact

/-- R106: the fixed results of the special functions, among them the overflow of FEX2 at 128 and above (+infinity with OF,
and NX with it), and the canonical NaN, with NV exactly for a signalling one, of every NaN. -/
def Obligations.SpecialFunctionFixedResults : Prop :=
  (∀ g ∈ [frcp, frsq, fsqrt, fex2, flg2, fsin, fcos, ftanh], ∀ a, a < 2 ^ 32 → isNan 8 23 a →
    g a = ⟨0x7FC00000, invalidIf (isSignalling 8 23 a)⟩) ∧
  (∀ g ∈ [frsq, fsqrt, flg2], ∀ a, 2 ^ 31 < a → a ≤ 0xFF800000 → g a = ⟨0x7FC00000, 1⟩) ∧
  (frcp 0 = ⟨0x7F800000, 2⟩ ∧ frcp 0x80000000 = ⟨0xFF800000, 2⟩ ∧ frcp 0x7F800000 = ⟨0, 0⟩ ∧ frcp 0xFF800000 = ⟨0x80000000, 0⟩) ∧
  (frsq 0 = ⟨0x7F800000, 2⟩ ∧ frsq 0x80000000 = ⟨0xFF800000, 2⟩ ∧ frsq 0x7F800000 = ⟨0, 0⟩) ∧
  (fsqrt 0x80000000 = ⟨0x80000000, 0⟩ ∧ fsqrt 0x7F800000 = ⟨0x7F800000, 0⟩) ∧
  (fex2 0xFF800000 = ⟨0, 0⟩ ∧ fex2 0x7F800000 = ⟨0x7F800000, 0⟩) ∧
  (∀ a, 0x43000000 ≤ a → a < 0x7F800000 → fex2 a = ⟨0x7F800000, 0x14⟩) ∧
  (∀ n : Nat, n < 277 → fex2 (smallInt ((n : Int) - 149)) = ⟨powerOfTwo ((n : Int) - 149), 0⟩) ∧
  (∀ n : Nat, n < 277 → flg2 (powerOfTwo ((n : Int) - 149)) = ⟨smallInt ((n : Int) - 149), 0⟩) ∧
  (flg2 0 = ⟨0xFF800000, 2⟩ ∧ flg2 0x80000000 = ⟨0xFF800000, 2⟩ ∧ flg2 0x7F800000 = ⟨0x7F800000, 0⟩) ∧
  (∀ a ∈ [0, 0x80000000], fsin a = ⟨a, 0⟩ ∧ fcos a = ⟨0x3F800000, 0⟩ ∧ ftanh a = ⟨a, 0⟩) ∧
  (∀ a ∈ [0x7F800000, 0xFF800000], fsin a = ⟨0x7FC00000, 1⟩ ∧ fcos a = ⟨0x7FC00000, 1⟩) ∧
  ftanh 0x7F800000 = ⟨0x3F800000, 0⟩ ∧ ftanh 0xFF800000 = ⟨0xBF800000, 0⟩

/-! ## Conversions -/

/-- R107-R114: CVT, CVTPK, CVTUNPK, CVTBS, CVTMX and SCLX complete with their results and flags where the target is one
that the instruction accepts; a code in fmt.CF that it does not accept traps ILLEGAL-OPERAND, with every active lane in
tmask: the model's choice (log 117), which R91 does not state. For CVTPK the same holds of a C that is not zr with a 16-bit
code in fmt.CF: the model's choice too (log 136). Stochastic rounding draws the value of R17 and advances srctr (R18). -/
def Obligations.ConversionResults : Prop :=
  (∀ f s t, let sf := Fields.x f 7 4; let tf := targetOf f t
    Issues false (cvtOf f) f s t →
    if tf ∈ cvtFormats ∧ tf ≠ sf then
      LaneResultOn (drawn f t) f s t (flagsOf t fun i => (converted f t tf i 0 sf (t.a32 f i).toNat).flags)
        (fun i => placed tf (converted f t tf i 0 sf (t.a32 f i).toNat).code) (exec (.cvt f) s)
    else Traps s t 2 0 t.act (resumption false true f t) (exec (.cvt f) s)) ∧
  (∀ f s t, let sf := Fields.x f 7 4; let p := Fields.x f 14 12; let tf := targetOf f t
    Issues false (cvtpkOf f) f s t →
    if p < packLimit tf ∧ (tf = 1 ∨ tf = 2 → Fields.c f = 123) then
      let ea (i : Nat) := converted f t tf i 0 sf (t.a32 f i).toNat
      let eb (i : Nat) := converted f t tf i 1 sf (t.b32 f i).toNat
      LaneResultOn (drawn f t) f s t (flagsOf t fun i => (ea i).flags ||| (eb i).flags)
        (fun i => replaced tf (2 * p + 1) (replaced tf (2 * p) (t.c32 f i) (ea i).code) (eb i).code) (exec (.cvtpk f) s)
    else Traps s t 2 0 t.act (resumption false true f t) (exec (.cvtpk f) s)) ∧
  (∀ f s t, let sf := Fields.x f 7 4; let p := Fields.x f 14 12; let tf := targetOf f t
    Issues false (cvtunpkOf f) f s t →
    if tf ∈ [0, 1, 2, 10] then
      let r (i : Nat) := converted f t tf i 0 sf ((t.a32 f i).toNat / 2 ^ (placeBits sf * p) % 2 ^ placeBits sf)
      LaneResultOn (drawn f t) f s t (flagsOf t fun i => (r i).flags) (fun i => placed tf (r i).code) (exec (.cvtunpk f) s)
    else Traps s t 2 0 t.act (resumption false true f t) (exec (.cvtunpk f) s)) ∧
  (∀ f s t, let sf := Fields.x f 7 4; let p := Fields.x f 14 12; let tf := targetOf f t
    Issues false (cvtbsOf f) f s t →
    if (if p = 0 then isFp8Code tf = true else tf = 0) then
      let r (i : Nat) : Rounded :=
        if p = 0 then fp8Encode tf (modeOf f) (randomOf t i 0) (saturates f t) (fp32.decode (t.a32 f i).toNat)
          (fp32.decode (t.b32 f i).toNat)
        else fp32.finish ((decodeElem sf ((t.a32 f i).toNat % 256)).mul (fp32.decode (t.b32 f i).toNat))
      LaneResultOn (drawn f t) f s t (flagsOf t fun i => (r i).flags) (fun i => BitVec.ofNat 32 (r i).code) (exec (.cvtbs f) s)
    else Traps s t 2 0 t.act (resumption false true f t) (exec (.cvtbs f) s)) ∧
  (∀ f s t, let sf := Fields.x f 7 4; let p := Fields.x f 14 12; let tf := targetOf f t
    Issues false (cvtmxOf f) f s t →
    if (if p = 0 then isMxCode tf = true else tf = 0) then
      if p = 0 then
        let block (j : Nat) := mxBlock tf (modeOf f) (fun k => randomOf t (32 * j + k) 0) (beat t f j)
        LaneResultOn (drawn f t) f s t ((block 0).2.2 ||| (block 1).2.2 ||| (block 2).2.2)
          (fun i => BitVec.ofNat 32 ((block (i / 32)).2.1.getD (i % 32) 0 + 256 * (block (i / 32)).1)) (exec (.cvtmx f) s)
      else
        let r (i : Nat) : Rounded :=
          fp32.round .rn 0 false (mxDecode sf ((t.a32 f i).toNat / 256 % 256) ((t.a32 f i).toNat % 256))
        LaneResultOn (drawn f t) f s t (flagsOf t fun i => (r i).flags) (fun i => BitVec.ofNat 32 (r i).code) (exec (.cvtmx f) s)
    else Traps s t 2 0 t.act (resumption false true f t) (exec (.cvtmx f) s)) ∧
  (∀ f s t, let cf := t.fmt.toNat / 256 % 16
    Issues false lane1 f s t →
    if isMxCode cf then
      LaneResult f s t (invalidIf ((List.range 3).any fun j => mxScale cf (beat t f j) == 255))
        (fun i => BitVec.ofNat 32 (mxScale cf (beat t f (i / 32)))) (exec (.sclx f) s)
    else Traps s t 2 0 t.act (resumption false true f t) (exec (.sclx f) s))
namespace Sys2Proof.Claim

open Sys2Proof.Machine

/-! ## Cross-lane instructions (R115-R121) -/

/-- R116: the source lane of lane i, from b[6:0]. -/
def lgets : List ((Fields → Instr) × (Nat → Nat → Int)) :=
  [(.lgetAt, fun _ b => b), (.lgetFlip, fun i b => ((i ^^^ b : Nat) : Int)), (.lgetRot, fun i b => ((i + b) % 96 : Nat)),
   (.lgetSh, fun i b => (i : Int) + (if b < 64 then (b : Int) else (b : Int) - 128))]

def lgetOf (f : Fields) : Shape :=
  { dst := .lane, long := true, a := .w32, b := .w32, c := .w32, ownXs := true, badField := decide (61 < Fields.xs f) }
def regroupShape : Shape := { dst := .none, closing := true }

def pollOf (dst : Dst) (f : Fields) : Shape :=
  { dst := dst, long := true, a := .w32, ownXs := true, badField := decide (61 < Fields.xs f) }

/-- R117: the vote of lane j. -/
def votes (t : Troupe) (f : Fields) (j : Nat) : Bool :=
  (t.triple (Fields.xs f)).getLsbD j && t.active j && !t.exited.getLsbD j && decide ((t.a32 f j).toNat ≠ 0)

/-- R32: `tree op x k i` is the reduction of x[i] to x[i + 2^k - 1] by the levels of TREE32. -/
def tree {α : Type} (op : α → α → α) (x : Nat → α) : Nat → Nat → α
  | 0, i => x i
  | k + 1, i => op (tree op x k i) (tree op x k (i + 2 ^ k))

def tree96Of {α : Type} (op : α → α → α) (x : Nat → α) : α := op (op (tree op x 5 0) (tree op x 5 32)) (tree op x 5 64)

/-- R119: element i of a beat after k levels of KS32. -/
def scan {α : Type} (op : α → α → α) (y : Nat → α) : Nat → Nat → α
  | 0, i => y i
  | k + 1, i => if 2 ^ k ≤ i then op (scan op y k (i - 2 ^ k)) (scan op y k i) else scan op y k i

/-- R119: the prefix of lane i. -/
def prefixOf {α : Type} (op : α → α → α) (x : Nat → α) (i : Nat) : α :=
  let q (j : Nat) : α := scan op (fun m => x (32 * (j / 32) + m)) 5 (j % 32)
  if i < 32 then q i
  else if i < 64 then op (q 31) (q i)
  else op (op (q 31) (q 63)) (q i)

/-- One FP32 step of a reduction: add, min, max, with the flags it and its operands have raised. -/
def fpStep (k : Nat) (a b : Flagged) : Flagged :=
  let r : Rounded := match k with
    | 0 => fp32.add a.w.toNat b.w.toNat
    | 1 => minmaxOf 8 23 false a.w.toNat b.w.toNat
    | _ => minmaxOf 8 23 true a.w.toNat b.w.toNat
  ⟨BitVec.ofNat 32 r.code, a.flags ||| b.flags ||| r.flags⟩

/-- R31: the identities: -0.0, +inf, -inf; of the integer operations. -/
def fpNeutral (k : Nat) : Word := if k = 0 then 0x80000000 else if k = 1 then 0x7F800000 else 0xFF800000
def intStep (k : Nat) (a b : Word) : Word :=
  match k with
  | 0 => BitVec.ofNat 32 (a.toNat + b.toNat)
  | 1 => if a.toInt ≤ b.toInt then a else b
  | 2 => if a.toInt ≤ b.toInt then b else a
  | 3 => if a.toNat ≤ b.toNat then a else b
  | 4 => if a.toNat ≤ b.toNat then b else a
  | 5 => bits fun i => a.getLsbD i && b.getLsbD i
  | _ => bits fun i => a.getLsbD i || b.getLsbD i
def intNeutral (k : Nat) : Word :=
  match k with
  | 1 => 0x7FFFFFFF
  | 2 => 0x80000000
  | 3 => 0xFFFFFFFF
  | 5 => 0xFFFFFFFF
  | _ => 0

/-- The values a reduction runs over: the identity for a lane that is not active. -/
def reduced (t : Troupe) (f : Fields) (e : Word) (i : Nat) : Word := if t.active i then t.a32 f i else e

/-- The shape of a reduction whose X.imm[2:0] may be at most `last` (R118). -/
def reductionOf (f : Fields) (last : Nat) : Shape :=
  { dst := .scalar, long := true, a := .w32, ownImm := true, immMask := 0x7, zeroXs := true, badModifier := decide (last < Fields.x f 2 0) }

/-- A scalar in every lane of a lane latch (R51). -/
def everyLane (x : Word) : LatchVal := .lane (List.replicate 96 (x.setWidth 64))

/-- R121: the state after a publication under the troupe's next number. -/
def published (f : Fields) (s : State) (t : Troupe) : State := s.publish t (t.a32 f 0) (t.a32 f 95)

/-- R120: what lane i of NBL (`left`) or NBR takes from its own troupe; 0 for the edge lane. -/
def shifted (t : Troupe) (f : Fields) (left : Bool) (i : Nat) : Word :=
  if left then (if i = 0 then 0 else t.a32 f (i - 1)) else if i = 95 then 0 else t.a32 f (i + 1)

/-- The read of an edge value that a neighbour read leaves in flight. -/
def edgeOf (t : Troupe) (f : Fields) (left : Bool) : PendingEdge :=
  { n := t.xseq, left := left, active := t.active (if left then 0 else 95),
    dest := if f.n then none else some f.d.toNat, latch := t.pos.kLane % 4, act := t.actSerial }

def xchgShape (f : Fields) : Shape :=
  { dst := .lane, long := true, a := .w32, ownXs := true, zeroImm := true,
    badField := decide (Fields.xs f % 2 = 1) || decide (120 ≤ f.a.toNat ∧ f.a.toNat ≤ 123) }

/-- R230: the partner names another troupe of the launch. -/
def partnerOk (f : Fields) (s : State) (t : Troupe) : Bool :=
  decide (t.spair (Fields.xs f) ≠ t.wid) && (match s.launch? t.lid with | some l => l.hdr.issues (t.spair (Fields.xs f)) | none => false)

/-- The exchange that XCHG puts in flight (R231). -/
def exchangeOf (f : Fields) (s : State) (t : Troupe) : Xchg :=
  { uid := t.uid, lid := t.lid, wid := t.wid, partner := t.spair (Fields.xs f),
    k := (s.xchgs.filter fun x => x.uid == t.uid && x.partner == t.spair (Fields.xs f)).length,
    row := (List.range 96).map (t.a32 f), active := t.act &&& ~~~t.exited, dest := if f.n then none else some f.d.toNat,
    n := t.xseq, latch := t.pos.kLane % 4, act := t.actSerial, done := false }

/-- The latch of a lane instruction whose values are still to come: 0 in every lane. -/
def pendingLatch : LatchVal := .lane (List.replicate 96 0)

/-! ## Memory instructions (R57, R159-R172) -/

/-- Bytes of a width W (R160). -/
def bytesOf (w : Nat) : Nat := match w with | 0 => 4 | 1 => 1 | 2 => 1 | 3 => 2 | 4 => 2 | 5 => 8 | _ => 16

/-- R57, R162: the address of lane i of a load or store. -/
def addressOf (f : Fields) (t : Troupe) (i : Nat) : Nat := globalAddr (t.spair (Fields.xs f)) (t.a32 f i) (Fields.disp f 12)
def offsetOf (f : Fields) (t : Troupe) (i : Nat) : Nat := spadAddr (t.a32 f i) (Fields.disp f 12)

/-- The shapes of R159 and R160. -/
def loadOf (f : Fields) (global ns os : Bool) : Shape :=
  { dst := (match Fields.x f 14 12 with | 5 => .lanePair | 6 => .laneQuad | _ => .lane), long := true, a := .w32,
    ownXs := global, zeroXs := !global, ownImm := true, immMask := 0x7FFFF,
    badModifier := !decide (Fields.x f 17 15 ≤ 6 ∧ Fields.x f 14 12 ≤ 6 ∧ (Fields.x f 18 18 = 1 → ns = true) ∧
      (Fields.x f 17 15 ≠ 0 → os = true)),
    badField := global && decide (Fields.xs f % 2 = 1) }
def storeOf (f : Fields) (global : Bool) : Shape :=
  { dst := .none, long := true, a := .w32, b := (match Fields.x f 14 12 with | 5 => .w64 | 6 => .quad | _ => .w32),
    ownXs := global, zeroXs := !global, ownImm := true, immMask := 0x7FFFF, plainB := true,
    badModifier := !decide (Fields.x f 17 15 ≤ 6 ∧ Fields.x f 14 12 ∈ [0, 1, 3, 5, 6] ∧ Fields.x f 18 18 = 0),
    badField := global && decide (Fields.xs f % 2 = 1) }

/-- The operation that a load or store of these lane requests puts in flight (R162). In a launch that traps on poison the
instruction waits for a load (R167). -/
def inFlightOf (f : Fields) (s : State) (t : Troupe) (kind : MemKind) (load : Bool) (reqs : List LaneReq) : MemOp :=
  { id := t.nextOp, kind := kind, sub := Fields.x f 14 12, acquire := load && decide (Fields.x f 17 15 ≠ 0),
    release := !load && decide (Fields.x f 17 15 ≠ 0), scope := Fields.x f 17 15,
    dest := if load && !f.n then some f.d.toNat else none, latch := t.pos.kLane % 4, act := t.actSerial, raisesLd := load,
    raisesSt := !load, lanes := if load then reqs else reqs.map fun r => { r with data := storeData t f (Fields.x f 14 12) r.lane },
    samples := [], flags := 0, released := none, since := s.clock.toNat, sync := load && s.poisonTraps t }

/-- No access that the instruction at the pc waits for is in flight (R167). -/
def Unawaited (t : Troupe) : Prop := ∀ o ∈ t.ops, o.sync = false

/-- A troupe with one more operation in flight (R162, R168): the wait counts it raises have risen by one. -/
def withOp (t : Troupe) (o : MemOp) : Troupe :=
  { t with ops := t.ops ++ [o], nextOp := t.nextOp + 1, ld := t.ld + (if o.raisesLd then 1 else 0),
           st := t.st + (if o.raisesSt then 1 else 0) }

/-- A lane's request as it goes out: at a physical address of a page with this entry and size. -/
def requestAt (lane addr pa : Nat) (e : DWord) (psize : Nat) : LaneReq :=
  { lane := lane, addr := addr, pa := pa, entry := e, psize := psize, data := 0, cmp := 0, done := false, result := 0,
    miss := none, status := 0, taddr := 0, refused := false, refusals := 0, rdcRefusals := 0, heldUntil := 0 }

/-- The requests of a scratchpad instruction: one for each active lane. -/
def spadRequests (t : Troupe) (addr : Nat → Nat) : List LaneReq :=
  ((List.range 96).filter t.active).map fun i => requestAt i (addr i) 0 0 0

/-- The requests of a global instruction: one for each active lane, where the page table puts its address (R248). -/
def globalRequests (s : State) (t : Troupe) (p : Perm) (addr : Nat → Nat) : List LaneReq :=
  ((List.range 96).filter t.active).filterMap fun i =>
    match s.translateRoot (s.rootOf t.lid) (addr i) p with
    | .ok pa e psize => some (requestAt i (addr i) pa e psize)
    | _ => none

/-- Nothing has changed but what the TLBs of the package hold (R248). -/
def OnlyTlbs (s s' : State) : Prop :=
  s' = { s with cores := s'.cores, dieUnits := s'.dieUnits } ∧
  s'.cores.map (fun (c : Core) => { c with tlb := [], ftlb := [], otlb := [] }) =
    s.cores.map (fun (c : Core) => { c with tlb := [], ftlb := [], otlb := [] }) ∧
  s'.dieUnits.map (fun (d : Die) => { d with tlb := [] }) = s.dieUnits.map fun (d : Die) => { d with tlb := [] }

/-- No TLB through which a core's loads and stores go holds an entry that the page table does not give (R248). -/
def TlbsAgree (s : State) (core : Nat) : Prop :=
  ∀ x ∈ (s.core core).tlb ++ (s.die (dieOf core)).tlb, ∀ va, x.vbase ≤ va → va < x.vbase + x.size →
    s.walk x.root va = .leaf x.entry x.size

/-- Every active lane's address is a multiple of `n`, in a page that the page table maps with the permission (R161). -/
def LanesMap (s : State) (t : Troupe) (n : Nat) (p : Perm) (addr : Nat → Nat) : Prop :=
  ∀ i, i < 96 → t.active i = true → addr i % n = 0 ∧
    ∃ pa e psize, s.translateRoot (s.rootOf t.lid) (addr i) p = .ok pa e psize

/-! ## The page table (R246-R248, R321) -/

/-- The 8-byte entry `i` of the table at a physical address, little-endian, as the coherence order has it now. -/
def tableEntry (s : State) (table i : Nat) : Nat := leNat ((List.range 8).map fun k => s.peek (table + 8 * i + k))

/-- R246: the table that a non-leaf entry of a level above 3 names, when the entry is valid and needs no repair: V = 1,
L = 0, no bit set but those of the address, and the table aligned to its size. -/
def nextTable (e size : Nat) : Option Nat :=
  if e % 4 = 1 ∧ e / 4 % 64 = 0 ∧ e / 2 ^ 52 = 0 ∧ e / 256 * 256 % size = 0 then some (e / 256 * 256) else none

/-- Whether the frame of a leaf entry stands in an HBM window. -/
def hbmFrame (s : State) (e : Nat) : Bool :=
  match s.window? (e / 2 ^ 16 % 2 ^ 36 * 2 ^ 16) with
  | some (.hbm, _) => true
  | _ => false

/-- R246, R247, R321: a leaf entry that is valid and needs no repair at a page size: V = L = 1, reserved bits 0, the frame
aligned to its page (to two pages when it is compressed), no CAP with an HBM frame, no CMP with another one. -/
def goodLeaf (s : State) (e psize : Nat) : Bool :=
  e % 4 == 3 && e / 2 ^ 52 == 0 && e / 2 ^ 11 % 32 == 0
    && e / 2 ^ 16 * 2 ^ 16 % (if e / 256 % 2 = 1 then 2 * psize else psize) == 0
    && (if hbmFrame s e then e / 1024 % 2 == 0 else e / 256 % 2 == 0)

/-- The leaf that the four levels give for an address, with its page size; none where an entry on the way has V = 0 or needs
repair (R246). -/
def pageOf (s : State) (root va : Nat) : Option (Nat × Nat) :=
  let leaf (e psize : Nat) : Option (Nat × Nat) := if goodLeaf s e psize then some (e, psize) else none
  match nextTable (tableEntry s root (va / 2 ^ 39 % 2 ^ 17)) (2 ^ 12) with
  | none => none
  | some t1 =>
    let e1 := tableEntry s t1 (va / 2 ^ 30 % 2 ^ 9)
    if e1 / 2 % 2 = 1 then leaf e1 (2 ^ 30)
    else match nextTable e1 (2 ^ 12) with
      | none => none
      | some t2 =>
        let e2 := tableEntry s t2 (va / 2 ^ 21 % 2 ^ 9)
        if e2 / 2 % 2 = 1 then leaf e2 (2 ^ 21)
        else match nextTable e2 (2 ^ 8) with
          | none => none
          | some t3 => leaf (tableEntry s t3 (va / 2 ^ 16 % 2 ^ 5)) (2 ^ 16)

/-- R247: the permission bit of an entry. -/
def permits (p : Perm) (e : Nat) : Bool :=
  match p with
  | .r => e.testBit 2
  | .w => e.testBit 3
  | .x => e.testBit 4
  | .rw => e.testBit 2 && e.testBit 3

/-- R248, R321: what an access by a permission (of one bit) comes to at an address whose leaf is `e`: no permission, a
page to migrate, or the physical address. A frame outside every window gives no permission: the model's reading. -/
def outcomeOf (s : State) (va : Nat) (p : Perm) (e psize : Nat) : Tr :=
  let frame := e / 2 ^ 16 % 2 ^ 36 * 2 ^ 16
  if !permits p e || (s.window? frame).isNone || (s.window? (frame + va % psize)).isNone then .denied
  else if e.testBit 10 && !e.testBit 9 then .migrate
  else .ok (frame + va % psize) (BitVec.ofNat 64 e) psize

/-- A TLB entry that holds an address. -/
def Held (x : TlbEntry) (root va : Nat) : Prop := x.root = root ∧ x.vbase ≤ va ∧ va < x.vbase + x.size

/-- Bytes of a company's scratchpad. -/
def spadSize (s : State) (t : Troupe) : Nat :=
  match s.company? t.cid with
  | some c => c.ways * 98304
  | none => 0

def lineEmpty (s : State) (t : Troupe) (o : Nat) : Bool :=
  match s.company? t.cid with
  | some c => c.emptyLines.contains (o / 192)
  | none => false

/-- R250, R251: the shape of a counter instruction. -/
def counterOf (f : Fields) (dst : Dst) (b : Use) : Shape :=
  { dst := dst, long := true, a := .w32, b := b, ownXs := true, ownImm := true, immMask := 0x7FFFF,
    badField := decide (Fields.xs f % 2 = 1) }

/-- The mask of the active lanes that satisfy a condition, and the lowest of them (R91). -/
def lanesWith (t : Troupe) (p : Nat → Bool) : LaneMask := maskOf fun i => t.active i && p i
def lowestWith (t : Troupe) (p : Nat → Bool) : Option Nat := (List.range 96).find? fun i => t.active i && p i

/-- Accesses of one instruction (R161): size, shape, lane address, constructor. -/
def accesses : List ((Fields → Instr) × (Fields → Shape) × (Fields → Nat) × (Fields → Troupe → Nat → Nat) × Bool × Bool) :=
  let w (f : Fields) : Nat := bytesOf (Fields.x f 14 12)
  [(.ldG, fun f => loadOf f true true true, w, addressOf, true, false), (.stG, fun f => storeOf f true, w, addressOf, false, true),
   (.ldro, fun f => loadOf f true true false, w, addressOf, true, false),
   (.ldSp, fun f => loadOf f false false true, w, offsetOf, true, false), (.stSp, fun f => storeOf f false, w, offsetOf, false, true),
   (.ldSpE, fun f => loadOf f false false true, w, offsetOf, true, false),
   (.stSpF, fun f => storeOf f false, w, offsetOf, false, true)]

/-- R170, R171: fields and shape of an atomic. -/
def opcOf (f : Fields) : Nat := Fields.x f 13 10
def atomicOf (f : Fields) (global : Bool) : Shape :=
  let u : Use := if 13 ≤ opcOf f then .w64 else .w32
  { dst := if 13 ≤ opcOf f then .lanePair else .lane, long := true, a := .w32, b := u,
    c := if opcOf f = 9 ∨ opcOf f = 15 then u else .no, ownXs := global, zeroXs := !global, ownImm := true, immMask := 0x7FFFF,
    badModifier := !decide (Fields.x f 18 16 ≤ 6 ∧ (Fields.x f 18 16 = 0 ↔ Fields.x f 15 14 = 0)),
    badField := global && decide (Fields.xs f % 2 = 1) }

/-- The instructions that wait for their access in a launch that traps on poison (R167). -/
def awaited : List ((Fields → Instr) × (Fields → Shape)) :=
  [(.ldG, fun f => loadOf f true true true), (.ldro, fun f => loadOf f true true false),
   (.ldSp, fun f => loadOf f false false true), (.atom, fun f => atomicOf f true), (.atomSp, fun f => atomicOf f false),
   (.bcdec, fun f => counterOf f .lane .w32), (.bcread, fun f => counterOf f .lane .no)]

def atomicInFlight (f : Fields) (s : State) (t : Troupe) (kind : MemKind) (reqs : List LaneReq) : MemOp :=
  { id := t.nextOp, kind := kind, sub := opcOf f, acquire := decide (Fields.x f 15 14 % 2 = 1),
    release := decide (2 ≤ Fields.x f 15 14), scope := Fields.x f 18 16, dest := if f.n then none else some f.d.toNat,
    latch := t.pos.kLane % 4, act := t.actSerial, raisesLd := !f.n, raisesSt := true,
    lanes := reqs.map fun r =>
      { r with data := if 13 ≤ opcOf f then (t.b64 f r.lane).setWidth 128 else (t.b32 f r.lane).setWidth 128,
               cmp := if 13 ≤ opcOf f then t.c64 f r.lane else (t.c32 f r.lane).setWidth 64 },
    samples := [], flags := 0, released := none, since := s.clock.toNat, sync := !f.n && s.poisonTraps t }

def atomicAddress (f : Fields) (t : Troupe) (i : Nat) : Nat :=
  globalAddr (t.spair (Fields.xs f)) (t.a32 f i) (Fields.disp f 10)
def atomicOffset (f : Fields) (t : Troupe) (i : Nat) : Nat := spadAddr (t.a32 f i) (Fields.disp f 10)
def atomicBytes (f : Fields) : Nat := if 13 ≤ opcOf f then 8 else 4

/-- R171: the new value of the integer operations. -/
def atomicAfter (opc old b c : Nat) : Nat :=
  let signed (x : Nat) : Int := if 2 ^ 31 ≤ x then (x : Int) - 2 ^ 32 else x
  match opc with
  | 0 => (old + b) % 2 ^ 32
  | 1 => if signed old ≤ signed b then old else b
  | 2 => if signed old ≤ signed b then b else old
  | 3 => if old ≤ b then old else b
  | 4 => if old ≤ b then b else old
  | 5 => old &&& b
  | 6 => old ||| b
  | 7 => old ^^^ b
  | 9 => if old = c then b else old
  | 13 => (old + b) % 2 ^ 64
  | 15 => if old = c then b else old
  | _ => b

/-- What these lanes of an operation leave in its troupe when they return the value `v`, with flags `fl` (R51, R74, R160,
R162, R170). The value is in the registers from D on, or with N = 1 in none, and in the latch of the act that issued; the
counts fall with the last lane; nothing else of the registers changes. Where the instruction waits for the access (R167),
the operation keeps the value for it. -/
def Returned (t : Troupe) (o : MemOp) (rs : List LaneReq) (v : Nat) (fl : Flags) (s' : State) : Prop :=
  ∃ t', s'.troupe? t.uid = some t' ∧ t'.fflags = t.fflags ||| fl.setWidth 32 ∧ t'.s = t.s ∧ t'.act = t.act ∧ t'.pc = t.pc ∧
    (o.sync = false →
      (let last := o.lanes.all fun x => x.done || rs.any (·.lane == x.lane)
       t'.ld = (if last ∧ o.raisesLd then t.ld - 1 else t.ld) ∧ t'.st = (if last ∧ o.raisesSt then t.st - 1 else t.st)) ∧
      (o.act = t.actSerial → t'.pos = rs.foldl (fun p x =>
        p.setLane o.latch x.lane (BitVec.ofNat 64 (v % 2 ^ (32 * min o.width 2)))) t.pos) ∧
      (o.dest = none → t'.v = t.v) ∧
      ∀ d, o.dest = some d → d + o.width ≤ t.v.length → ∀ q i, i < 96 →
        rowGet (t'.vrow q) i =
          if d ≤ q ∧ q < d + o.width ∧ rs.any (·.lane == i) = true then BitVec.ofNat 32 (v / 2 ^ (32 * (q - d)))
          else rowGet (t.vrow q) i) ∧
    (o.sync = true → t'.v = t.v ∧ ∃ o', t'.op? o.id = some o' ∧
      ∀ x ∈ o'.lanes, rs.any (·.lane == x.lane) = true → x.done = true ∧ x.data = BitVec.ofNat 128 v)

/-- R245: the state in which the core's owned lines are written back where an access is a release at package scope or
wider. -/
def releasedFirst (s : State) (t : Troupe) (o : MemOp) : State :=
  if o.release = true ∧ 5 ≤ o.scope then s.releaseOwned t.core else s

/-- A write-through at this place pushes no line of a compressed page out of its memory-side slice. -/
def PlainSide (s : State) (l : Loc) : Prop := l.wt = true → l.cmp = none ∧ ∀ x ∈ s.msc, x.coded = none

/-- What the issue of an atomic comes to once its lanes have passed their checks, `o` being the operation (R167, R170). -/
def AtomicIssued (f : Fields) (s : State) (t : Troupe) (sh : Shape) (o : MemOp) (out : Host.Outcome State Fault Refusal) :
    Prop :=
  let r := resumption false sh.dst.leaves f t
  match o.lanes.filter fun x => s.poisonTraps t && s.lanePoisoned t o x with
  | x :: rest => Traps s t 16 (BitVec.ofNat 64 x.addr) (maskOf fun i => (x :: rest).any (·.lane == i)) r out
  | [] =>
    if o.lanes = [] then TroupeResult false f s t pendingLatch t out
    else if f.n = false ∧ s.poisonTraps t = true then Waits s (withOp t o) (s.stall t) r out
    else TroupeResult false f s t pendingLatch (withOp t o) out

/-- No other core owns the line, and the core holds at most one copy of it. -/
def SoleCopy (s : State) (core line : Nat) : Prop :=
  (∀ i, i ≠ core → ∀ x ∈ (s.core i).l1, x.line = line → x.owned = false) ∧
  ((s.core core).l1.filter (·.line == line)).length ≤ 1

end Sys2Proof.Claim

/-! ## Cross-lane instructions -/

/-- R115-R117: LGET gives each active lane the value of its source lane if that is a member of the mask, else its own c;
POLL counts, ands or maps the votes. -/
def Obligations.CrossLaneResults : Prop :=
  (∀ p ∈ lgets, ∀ f s t,
    Issues false (lgetOf f) f s t →
    LaneResult f s t 0 (fun i =>
      let j := p.2 i ((t.b32 f i).toNat % 128)
      if 0 ≤ j ∧ j < 96 ∧ (t.triple (Fields.xs f)).getLsbD j.toNat = true then t.a32 f j.toNat else t.c32 f i)
      (exec (p.1 f) s)) ∧
  (∀ f s t, Issues false (pollOf .scalar f) f s t →
    let n := BitVec.ofNat 32 ((List.range 96).filter (votes t f)).length
    ScalarResult false f s t 0 (everyLane n) (one f.d n) (exec (.pollSome f) s)) ∧
  (∀ f s t, Issues false (pollOf .scalar f) f s t →
    let n : Word := if (List.range 96).any fun j => (t.triple (Fields.xs f)).getLsbD j && !votes t f j then 0 else 1
    ScalarResult false f s t 0 (everyLane n) (one f.d n) (exec (.pollEvery f) s)) ∧
  (∀ f s t, Issues false (pollOf .triple f) f s t →
    ScalarResult false f s t 0 (tripleLatch t (votes t f)) (three t f.d (votes t f)) (exec (.pollMap f) s))

/-- R31, R32, R118, R119: REDF and REDI reduce by the fixed tree, with the identity for inactive lanes; PFXF.add and PFXI.add
write the inclusive prefix of the fixed scan. The flags of PFXF.add are those of the adds that form the sums of the
active lanes: the model's reading of R13 (its log entry says so). -/
def Obligations.ReductionResults : Prop :=
  (∀ f s t, Issues false (reductionOf f 2) f s t →
    let r := tree96Of (fpStep (Fields.x f 2 0)) fun i => ⟨reduced t f (fpNeutral (Fields.x f 2 0)) i, 0⟩
    ScalarResult false f s t r.flags (everyLane r.w) (one f.d r.w) (exec (.redf f) s)) ∧
  (∀ f s t, Issues false (reductionOf f 6) f s t →
    let r := tree96Of (intStep (Fields.x f 2 0)) (reduced t f (intNeutral (Fields.x f 2 0)))
    ScalarResult false f s t 0 (everyLane r) (one f.d r) (exec (.redi f) s)) ∧
  (∀ f s t, Issues false lane1 f s t →
    let d (i : Nat) := prefixOf (fpStep 0) (fun k => ⟨reduced t f 0x80000000 k, 0⟩) i
    LaneResult f s t (flagsOf t fun i => (d i).flags) (fun i => (d i).w) (exec (.pfxfAdd f) s)) ∧
  (∀ f s t, Issues false lane1 f s t →
    LaneResult f s t 0 (prefixOf (intStep 0) (reduced t f 0)) (exec (.pfxiAdd f) s))

/-- R120, R121: NBL and NBR publish lanes 0 and 95 under the next number and write the other lanes at once. With no
neighbour on that side the edge lane takes 0; with one, the edge value stays in flight and xc rises. EDGE_VALUE_ARRIVAL
writes the edge lane from the neighbour's publication of that number, and xc falls. -/
def Sys2Proof.Claim.NeighbourReads : Prop :=
  (∀ p ∈ [(Instr.nbl, true), (Instr.nbr, false)], ∀ f s t, Issues false lane1 f s t → s.leadOk t = true →
    (s.neighbourWid? t p.2 = none →
      LaneResultOn { t with xseq := t.xseq + 1 } f (published f s t) t 0 (shifted t f p.2) (exec (p.1 f) s)) ∧
    (s.neighbourWid? t p.2 ≠ none → t.xc < 63 →
      ∃ s' t', exec (p.1 f) s = .next s' ∧ s'.troupe? t.uid = some t' ∧ Quiet (published f s t) s' t (closes t f) ∧
        RegistersOnly { t with xseq := t.xseq + 1, xc := t.xc + 1, edges := t.edges ++ [edgeOf t f p.2] } t' ∧
        Advanced false f (.lane ((List.range 96).map fun i => if t.active i then (shifted t f p.2 i).setWidth 64 else 0)) t t' ∧
        SameScalars t t' ∧ t'.fflags = t.fflags ∧
        ∀ r i, i < 96 → rowGet (t'.vrow r) i =
          if f.n = false ∧ r = f.d.toNat ∧ t.active i = true ∧ i ≠ (if p.2 then 0 else 95) then shifted t f p.2 i
          else rowGet (t.vrow r) i)) ∧
  (∀ s t e w, s.troupe? t.uid = some t → t.resident = true → t.edges.find? (·.n == e.n) = some e →
    s.edgeValue? t e = some w →
    ∃ s' t', exec (.edgeValueArrival t.uid e.n) s = .next s' ∧ s'.troupe? t.uid = some t' ∧
      t'.edges = t.edges.filter (·.n != e.n) ∧ t'.xc = t.xc - 1 ∧ s'.mem = s.mem ∧
      (e.active = true → ∀ d, e.dest = some d → d < t.v.length →
        rowGet (t'.vrow d) (if e.left then 0 else 95) = w))

/-- R121, R234: what an edge read takes: the neighbour's publication of that number, lane 95 of the troupe before or lane 0
of the troupe after; 0 from a neighbour that retired without it. -/
def Sys2Proof.Claim.EdgeValues : Prop :=
  ∀ (s : State) t e w l, s.launch? t.lid = some l → s.neighbourWid? t e.left = some w →
    (∀ p, l.pubs.find? (fun p => p.wid == w && p.n == e.n) = some p →
      s.edgeValue? t e = some (if e.left then p.lane95 else p.lane0)) ∧
    (l.pubs.find? (fun p => p.wid == w && p.n == e.n) = none →
      s.edgeValue? t e = if l.retiredWids.any (·.toNat == w) then some 0 else none)

/-- R120, R121, R234: neighbour reads and the edge values that they take. -/
def Obligations.NeighbourExchange : Prop := Claim.NeighbourReads ∧ Claim.EdgeValues

/-- R230-R232: XCHG publishes, puts its exchange in flight and raises xc; then it is matched if it is the second of the two.
A partner that names no other troupe of the launch traps ILLEGAL-OPERAND in every active lane. -/
def Sys2Proof.Claim.ExchangesGoOut : Prop :=
  ∀ f s t, Issues false (xchgShape f) f s t →
    (partnerOk f s t = true → s.leadOk t = true → t.xc < 63 →
      ∃ s1, exec (.xchg f) s = .next s1.resolveXchgs ∧
        TroupeResult false f { published f s t with xchgs := s.xchgs ++ [exchangeOf f s t] } t pendingLatch
          { t with xseq := t.xseq + 1, xc := t.xc + 1 } (.next s1)) ∧
    (partnerOk f s t = false → t.act ≠ 0 →
      ∃ s1, exec (.xchg f) s = .next s1.resolveXchgs ∧
        Traps s t 2 0 t.act (resumption false true f t) (.next s1))

/-- R185: RGRP, with an empty stack and no load, exchange or uniform load outstanding, parks the troupe before the next
instruction, in a new act, and the company regroups when it was the last; a stack entry traps ILLEGAL-OPERAND. That every
active lane is then in tmask is the model's choice (log 117): R185 and R91 do not state it. -/
def Sys2Proof.Claim.RegroupIssue : Prop :=
  ∀ f s t, Issues false regroupShape f s t →
    (t.stack = [] → t.ld = 0 → t.xc = 0 → t.ul = 0 →
      exec (.rgrp f) s = .next ((((s.updCompany t.cid fun c => { c with rgrpMask := s.f1Of t :: c.rgrpMask }).setTroupe
        { t with pc := t.pc + 4, park := .rgrp, declined := [], pos := ActPos.fresh, actSerial := t.actNext,
                 actNext := t.actNext + 1 }).regroupTest t.cid).releaseQuarter t)) ∧
    (t.stack ≠ [] → Traps s t 2 0 t.act (resumption false false f t) (exec (.rgrp f) s))

/-- R185: when every troupe of a company that has not retired waits at RGRP, the lanes of all of them, in the order of
FIELD(wid, 1) and lane, move: active ones first, then inactive ones, then exited ones, 96 to each troupe in turn, across
the troupes. Each troupe goes on with its scalars, pc, fmt, counts and operations. While one does not wait there, nothing
moves. -/
def Sys2Proof.Claim.RegroupMovesLanes : Prop :=
  (∀ (s : State) cid t, t ∈ s.regroupTroupes cid ↔ t ∈ s.troupes ∧ t.cid = cid ∧ t.retired = false ∧ s.f1Of t < 16) ∧
  (∀ (s : State) cid, (s.regroupTroupes cid).Pairwise fun t u => s.f1Of t ≤ s.f1Of u) ∧
  (∀ (s : State) cid, (∃ t ∈ s.regroupTroupes cid, t.park ≠ .rgrp) → s.regroupTest cid = s) ∧
  (∀ (s : State) cid, let ts := s.regroupTroupes cid
    (∀ t ∈ ts, t.park = .rgrp ∧ s.troupe? t.uid = some t) → ts.Nodup →
    let lanes := ts.flatMap fun t => (List.range 96).map fun i => (t, i)
    let seq := (lanes.filter fun x => x.1.active x.2 && !x.1.exited.getLsbD x.2) ++
      (lanes.filter fun x => !x.1.active x.2 && !x.1.exited.getLsbD x.2) ++ lanes.filter fun x => x.1.exited.getLsbD x.2
    ∀ j t, ts[j]? = some t →
      ∃ t', (s.regroupTest cid).troupe? t.uid = some t' ∧
        t' = { t with v := t'.v, act := t'.act, exited := t'.exited, park := .run, rgrpCount := t.rgrpCount + 1 } ∧
        ∀ i, i < 96 → ∃ u k, seq[96 * j + i]? = some (u, k) ∧
          (∀ r, r < t.v.length → rowGet (t'.vrow r) i = rowGet (u.vrow r) k) ∧
          t'.active i = (u.active k && !u.exited.getLsbD k) ∧ t'.exited.getLsbD i = u.exited.getLsbD k)

/-- R185: RGRP, and what the regrouping of a company moves. The mask of its trap is log 117's. -/
def Obligations.Regrouping : Prop := Claim.RegroupIssue ∧ Claim.RegroupMovesLanes

/-! ## Loads, stores, atomics -/

/-- R162: LD.g, LDRO and ST.g whose lanes pass their checks go into flight: ld or st rises by one, and nothing of
memory or the registers changes yet, and nothing else but the TLBs. In a launch that traps on poison a load goes into
flight too, and its instruction waits for it. -/
def Sys2Proof.Claim.GlobalAccessesGoOut : Prop :=
  (∀ f s t s1 reqs, Issues false (loadOf f true true true) f s t → t.ld < 63 → Unawaited t →
    s.globalLanes t (bytesOf (Fields.x f 14 12)) .r (addressOf f t) = (s1, .go reqs) →
    let t1 := withOp t (inFlightOf f s t (.loadG (decide (Fields.x f 18 18 = 1))) true reqs)
    OnlyTlbs s s1 ∧
    (if reqs ≠ [] ∧ s.poisonTraps t = true then
      Waits s1 t1 (s1.stall t) (resumption false (loadOf f true true true).dst.leaves f t) (exec (.ldG f) s)
    else TroupeResult false f s1 t pendingLatch (if reqs = [] then t else t1) (exec (.ldG f) s))) ∧
  (∀ f s t s1 reqs, Issues false (loadOf f true true false) f s t → t.ld < 63 → Unawaited t →
    s.globalLanes t (bytesOf (Fields.x f 14 12)) .r (addressOf f t) = (s1, .go reqs) →
    let t1 := withOp t (inFlightOf f s t (.ldro (decide (Fields.x f 18 18 = 1))) true reqs)
    OnlyTlbs s s1 ∧
    (if reqs ≠ [] ∧ s.poisonTraps t = true then
      Waits s1 t1 (s1.stall t) (resumption false (loadOf f true true false).dst.leaves f t) (exec (.ldro f) s)
    else TroupeResult false f s1 t pendingLatch (if reqs = [] then t else t1) (exec (.ldro f) s))) ∧
  (∀ f s t s1 reqs, Issues false (storeOf f true) f s t → t.st < 63 → Unawaited t →
    s.globalLanes t (bytesOf (Fields.x f 14 12)) .w (addressOf f t) = (s1, .go reqs) →
    OnlyTlbs s s1 ∧
    TroupeResult false f s1 t .none
      (if reqs = [] then t else withOp t (inFlightOf f s t .storeG false reqs)) (exec (.stG f) s))

/-- R167, R51, R88: an access that its instruction waits for, in a launch that traps on poison. While a lane has not
returned, the instruction waits; when all have and some met poison, those lanes trap POISON-CONSUMED, with the address of
the lowest; when none has, the instruction completes, with the values that returned in its registers and its latch. -/
def Sys2Proof.Claim.AwaitedAccesses : Prop :=
  ∀ p ∈ awaited, ∀ f s t o, Issues false (p.2 f) f s t → t.ops.find? (·.sync) = some o →
    ((∃ r ∈ o.lanes, r.done = false) → Waits s t (s.stall t) (resumption false (p.2 f).dst.leaves f t) (exec (p.1 f) s)) ∧
    ((∀ r ∈ o.lanes, r.done = true) →
      (∀ r rest, o.lanes.filter (fun x => x.status != 0) = r :: rest →
        Traps s (t.dropOp o) 16 (BitVec.ofNat 64 r.addr) (maskOf fun i => (r :: rest).any (·.lane == i))
          (resumption false (p.2 f).dst.leaves f t) (exec (p.1 f) s)) ∧
      ((∀ r ∈ o.lanes, r.status = 0 ∧ r.lane < 96) → (o.lanes.map (·.lane)).Nodup →
        (∀ d, o.dest = some d → d + o.width ≤ t.v.length) →
        let got (i : Nat) : Nat := match o.lanes.find? (·.lane == i) with | some r => r.data.toNat | none => 0
        ∃ s' t', exec (p.1 f) s = .next s' ∧ s'.troupe? t.uid = some t' ∧ Quiet s s' t (closes t f) ∧
          RegistersOnly (t.dropOp o) t' ∧ SameScalars t t' ∧ t'.fflags = t.fflags ∧
          Advanced false f (.lane ((List.range 96).map fun i =>
            if t.active i then BitVec.ofNat 64 (got i % 2 ^ (32 * min o.width 2)) else 0)) t t' ∧
          ∀ q i, i < 96 → rowGet (t'.vrow q) i = match o.dest with
            | some d => if d ≤ q ∧ q < d + o.width ∧ o.lanes.any (·.lane == i) = true then
                BitVec.ofNat 32 (got i / 2 ^ (32 * (q - d))) else rowGet (t.vrow q) i
            | none => rowGet (t.vrow q) i))

/-- R161, R162, R248: LD.g, LDRO and ST.g COMPLETE for every state in which no TLB is stale and every active lane's address is
aligned and mapped with the permission: each active lane's request is in flight at the physical address that the page
table gives, and nothing but the TLBs and the troupe has changed. -/
def Sys2Proof.Claim.GlobalAccessesComplete : Prop :=
  (∀ f s t, Issues false (loadOf f true true true) f s t → t.ld < 63 → Unawaited t → s.poisonTraps t = false →
    TlbsAgree s t.core → LanesMap s t (bytesOf (Fields.x f 14 12)) .r (addressOf f t) →
    ∃ s1, OnlyTlbs s s1 ∧ TroupeResult false f s1 t pendingLatch
      (if t.act = 0 then t else withOp t (inFlightOf f s t (.loadG (decide (Fields.x f 18 18 = 1))) true
        (globalRequests s t .r (addressOf f t)))) (exec (.ldG f) s)) ∧
  (∀ f s t, Issues false (loadOf f true true false) f s t → t.ld < 63 → Unawaited t → s.poisonTraps t = false →
    TlbsAgree s t.core → LanesMap s t (bytesOf (Fields.x f 14 12)) .r (addressOf f t) →
    ∃ s1, OnlyTlbs s s1 ∧ TroupeResult false f s1 t pendingLatch
      (if t.act = 0 then t else withOp t (inFlightOf f s t (.ldro (decide (Fields.x f 18 18 = 1))) true
        (globalRequests s t .r (addressOf f t)))) (exec (.ldro f) s)) ∧
  (∀ f s t, Issues false (storeOf f true) f s t → t.st < 63 → Unawaited t → TlbsAgree s t.core →
    LanesMap s t (bytesOf (Fields.x f 14 12)) .w (addressOf f t) →
    ∃ s1, OnlyTlbs s s1 ∧ TroupeResult false f s1 t .none
      (if t.act = 0 then t else withOp t (inFlightOf f s t .storeG false (globalRequests s t .w (addressOf f t))))
      (exec (.stG f) s))

/-- R161, R248: with every address aligned and translated, the requests are one for each active lane, each at the physical
address, and with the leaf and page size, that a translation of its address gives; that is the page table's where no
TLB is stale. -/
def Sys2Proof.Claim.GlobalLaneRequests : Prop :=
  ∀ (s : State) t n p addr s1 reqs, s.globalLanes t n p addr = (s1, .go reqs) →
    (∀ r ∈ reqs, t.active r.lane = true ∧ r.addr = addr r.lane ∧ addr r.lane % n = 0 ∧ r.done = false ∧
      (∃ s0, OnlyTlbs s s0 ∧ (s0.translateFor t r.addr p).2 = .ok r.pa r.entry r.psize) ∧
      (TlbsAgree s t.core → s.translateRoot (s.rootOf t.lid) r.addr p = .ok r.pa r.entry r.psize)) ∧
    reqs.map (·.lane) = (List.range 96).filter t.active

/-- R246-R248, R321: the page table and the TLBs. A walk goes through the four levels to a leaf that is valid and needs no
repair, or ends without one, and the access is then reported; a leaf is judged by its permission bit first, then by CAP
and PIN. A core's translation uses the entry of the unit's micro-TLB, else that of its die, else the walk's. -/
def Sys2Proof.Claim.Translation : Prop :=
  (∀ (s : State) root va, s.walk root va = match pageOf s root va with
    | some (e, psize) => .leaf (BitVec.ofNat 64 e) psize
    | none => .absent) ∧
  (∀ (s : State) root va p, p ≠ .rw → s.translateRoot root va p = match pageOf s root va with
    | some (e, psize) => outcomeOf s va p e psize
    | none => .report) ∧
  (∀ (s : State) unit core root va p x, p ≠ .rw → tlbFind root va ((s.core core).microTlb unit) = some x →
    Held x root va ∧ s.translate unit core root va p = (s, outcomeOf s va p x.entry.toNat x.size)) ∧
  (∀ (s : State) unit core root va p x, p ≠ .rw → tlbFind root va ((s.core core).microTlb unit) = none →
    tlbFind root va (s.die (dieOf core)).tlb = some x →
    Held x root va ∧ OnlyTlbs s (s.translate unit core root va p).1 ∧
    (s.translate unit core root va p).2 = outcomeOf s va p x.entry.toNat x.size) ∧
  (∀ (s : State) unit core root va p, tlbFind root va ((s.core core).microTlb unit) = none →
    tlbFind root va (s.die (dieOf core)).tlb = none →
    OnlyTlbs s (s.translate unit core root va p).1 ∧
    (s.translate unit core root va p).2 = s.translateRoot root va p)

/-- R161, R162, R246-R248: LD.g, LDRO and ST.g complete their issue; the requests that they put in flight, and the
translation of their addresses. -/
def Obligations.GlobalAccessIssue : Prop := Claim.GlobalAccessesGoOut ∧ Claim.GlobalAccessesComplete ∧
  Claim.GlobalLaneRequests ∧ Claim.Translation

/-- R162: LD.sp, ST.sp and ST.sp.f whose active lanes are aligned and within the company's scratchpad, a load's on full
lines, go into flight; in a launch that traps on poison LD.sp's instruction waits for it. -/
def Sys2Proof.Claim.ScratchpadAccessesGoOut : Prop :=
  ∀ f s t, let n := bytesOf (Fields.x f 14 12); let a := offsetOf f t
    (∀ i, i < 96 → t.active i = true → a i % n = 0 ∧ a i + n ≤ spadSize s t) →
    (Issues false (loadOf f false false true) f s t → t.ld < 63 → Unawaited t →
      (∀ i, i < 96 → t.active i = true → lineEmpty s t (a i) = false) →
      let t1 := withOp t (inFlightOf f s t .loadSp true (spadRequests t a))
      if t.act ≠ 0 ∧ s.poisonTraps t = true then
        Waits s t1 (s.stall t) (resumption false (loadOf f false false true).dst.leaves f t) (exec (.ldSp f) s)
      else TroupeResult false f s t pendingLatch (if t.act = 0 then t else t1) (exec (.ldSp f) s)) ∧
    (Issues false (storeOf f false) f s t → t.st < 63 → Unawaited t →
      TroupeResult false f s t .none
        (if t.act = 0 then t else withOp t (inFlightOf f s t (.storeSp false) false (spadRequests t a))) (exec (.stSp f) s) ∧
      TroupeResult false f s t .none
        (if t.act = 0 then t else withOp t (inFlightOf f s t (.storeSp true) false (spadRequests t a))) (exec (.stSpF f) s))

/-- R146, R162: LD.sp.e, when the lines its active lanes address are full and no access to them stands before it, reads
them and sets them empty. That it does so at its issue, and all its lines as one step, is the model's choice (log 22): R146
makes each line's own reading and emptying one step. Stated for the widths of one register; the clocks that other troupes
wait on an empty line restart where one of them waits now (R147). -/
def Sys2Proof.Claim.LoadAndEmpty : Prop :=
  ∀ f s t c, let w := Fields.x f 14 12; let n := bytesOf w; let a := offsetOf f t
    Issues false (loadOf f false false true) f s t → t.ld < 63 → w < 5 → Unawaited t → s.company? t.cid = some c →
    (∀ i, i < 96 → t.active i = true → a i % n = 0 ∧ a i + n ≤ spadSize s t ∧ lineEmpty s t (a i) = false ∧
      c.isPoisoned (a i) n = false) →
    (∀ o ∈ t.ops, o.acquire = false ∧ ∀ i, i < 96 → t.active i = true → s.groupMeets t o (192 * (a i / 192)) 192 = false ∧
      (o.isSpad = true → ∀ x ∈ o.lanes, x.addr / 192 ≠ a i / 192)) →
    (∀ u ∈ s.troupes, u.cid = t.cid → u.uid ≠ t.uid → ∀ o ∈ u.ops, o.released = none) →
    LaneResultOn t f
      ((if 2 ≤ Fields.x f 17 15 ∧ t.act ≠ 0 then s.acquireL1 t.core else s).emptyTheLines t.cid
        ((spadRequests t a).map fun r => r.addr / 192))
      t 0 (fun i => BitVec.ofNat 32 (extendLoad w (bytesAt c.spad (a i) n))) (exec (.ldSpE f) s)

/-- R146, R162: the issue of scratchpad loads and stores, and LD.sp.e. That LD.sp.e is one step at its issue is the
model's choice (log 22). -/
def Obligations.ScratchpadIssue : Prop := Claim.ScratchpadAccessesGoOut ∧ Claim.LoadAndEmpty

/-- R161, R91: an active lane whose address is not a multiple of the access size traps MISALIGNED: tmask holds those lanes,
taddr the address of the lowest; a scratchpad access out of range traps SPAD-RANGE. -/
def Obligations.AccessChecksTrap : Prop :=
  (∀ p ∈ accesses, ∀ f s t i, Issues false (p.2.1 f) f s t → Unawaited t →
    (p.2.2.2.2.1 = true → t.ld < 63) → (p.2.2.2.2.2 = true → t.st < 63) →
    lowestWith t (fun i => decide (p.2.2.2.1 f t i % p.2.2.1 f ≠ 0)) = some i →
    Traps s t 6 (BitVec.ofNat 64 (p.2.2.2.1 f t i)) (lanesWith t fun i => decide (p.2.2.2.1 f t i % p.2.2.1 f ≠ 0))
      (resumption false (p.2.1 f).dst.leaves f t) (exec (p.1 f) s)) ∧
  (∀ p ∈ [(Instr.ldSp, true), (Instr.ldSpE, true), (Instr.stSp, false), (Instr.stSpF, false)], ∀ f s t i,
    let n := bytesOf (Fields.x f 14 12)
    Issues false (if p.2 then loadOf f false false true else storeOf f false) f s t → Unawaited t →
    (p.2 = true → t.ld < 63) → (p.2 = false → t.st < 63) →
    lowestWith t (fun i => decide (offsetOf f t i % n ≠ 0)) = none →
    lowestWith t (fun i => decide (spadSize s t < offsetOf f t i + n)) = some i →
    Traps s t 8 (BitVec.ofNat 64 (offsetOf f t i)) (lanesWith t fun i => decide (spadSize s t < offsetOf f t i + n))
      (resumption false p.2 f t) (exec (p.1 f) s))

/-- R170: ATOM and ATOM.sp whose lanes pass their checks go into flight: st rises by one, and with N = 0 also ld. In a
launch that traps on poison a lane that meets it traps POISON-CONSUMED with nothing done, and an atomic that returns its
old value is waited for (R167). -/
def Sys2Proof.Claim.AtomicsGoOut : Prop :=
  (∀ f s t s1 reqs, Issues false (atomicOf f true) f s t → (f.n = false → t.ld < 63) → t.st < 63 → Unawaited t →
    s.globalLanes t (atomicBytes f) .w (atomicAddress f t) = (s1, .go reqs) →
    OnlyTlbs s s1 ∧
    AtomicIssued f s1 t (atomicOf f true) (atomicInFlight f s t .atomG reqs) (exec (.atom f) s)) ∧
  (∀ f s t, Issues false (atomicOf f false) f s t → (f.n = false → t.ld < 63) → t.st < 63 → Unawaited t →
    (∀ i, i < 96 → t.active i = true →
      atomicOffset f t i % atomicBytes f = 0 ∧ atomicOffset f t i + atomicBytes f ≤ spadSize s t) →
    AtomicIssued f s t (atomicOf f false) (atomicInFlight f s t .atomSp (spadRequests t (atomicOffset f t)))
      (exec (.atomSp f) s))

/-- R171, R172: the new value of an atomic access; .fadd rounds the sum of old and the combined operand once, .fmin and
.fmax follow MINNUM and MAXNUM. -/
def Sys2Proof.Claim.AtomicValues : Prop :=
  (∀ opc old b c, opc < 16 → opc ∉ [10, 11, 12] → old < 2 ^ (if 13 ≤ opc then 64 else 32) →
    b < 2 ^ (if 13 ≤ opc then 64 else 32) → atomicNew opc old b c = (atomicAfter opc old b c, 0)) ∧
  (∀ old b c, old < 2 ^ 32 → b < 2 ^ 32 →
    (let r := fp32.add old b; atomicNew 10 old b c = (r.code % 2 ^ 32, r.flags)) ∧
    (let r := minmaxOf 8 23 false old b; atomicNew 11 old b c = (r.code, r.flags)) ∧
    (let r := minmaxOf 8 23 true old b; atomicNew 12 old b c = (r.code, r.flags)))

/-- R146, R162, R163, R245: STORE_PERFORM of an enabled lane of ST.sp: exactly its bytes of the company's scratchpad change, at the address
of the lane, to the low bytes of its data; every line keeps its state, and global memory is untouched, but that a release at package
scope or wider writes its core's owned lines back. Of ST.sp.f: once
every lane that the instruction still has on that line may be performed, all of them are, a higher lane's byte over a
lower one's, and the line turns full, as one step; until then nothing happens. -/
def Sys2Proof.Claim.ScratchpadStorePerformed : Prop :=
  (∀ (s : State) t o r c, s.troupe? t.uid = some t → t.op? o.id = some o → o.kind = .storeSp false →
    o.lanes.find? (·.lane == r.lane) = some r → s.laneEnabled t o r = true → s.company? t.cid = some c →
    c.spad.wf = true →
    ∃ s' c', exec (.storePerform t.uid o.id (some r.lane)) s = .next s' ∧ s'.company? t.cid = some c' ∧
      (∀ i, i < o.size → cellGet c'.spad (r.addr + i) = BitVec.ofNat 8 (r.data.toNat / 256 ^ i)) ∧
      (∀ a, a < r.addr ∨ r.addr + o.size ≤ a → cellGet c'.spad a = cellGet c.spad a) ∧
      c'.emptyLines = c.emptyLines ∧ s'.mem = s.mem ∧ s'.l2 = (releasedFirst s t o).l2) ∧
  (∀ (s : State) t o r c, s.troupe? t.uid = some t → t.op? o.id = some o → o.kind = .storeSp true →
    o.lanes.find? (·.lane == r.lane) = some r → s.laneEnabled t o r = true → s.company? t.cid = some c →
    c.spad.wf = true →
    let rs := o.lanes.filter fun x => !x.done && x.addr / 192 == r.addr / 192
    ((∀ x ∈ rs, s.laneFree t o x = true) →
      ∃ s' c', exec (.storePerform t.uid o.id (some r.lane)) s = .next s' ∧ s'.company? t.cid = some c' ∧
        (∀ a, cellGet c'.spad a = rs.foldl (fun v x =>
          if x.addr ≤ a ∧ a < x.addr + o.size then BitVec.ofNat 8 (x.data.toNat / 256 ^ (a - x.addr)) else v)
          (cellGet c.spad a)) ∧
        (∀ l, l ∈ c'.emptyLines ↔ l ∈ c.emptyLines ∧ l ≠ r.addr / 192) ∧ s'.mem = s.mem ∧
        s'.l2 = (releasedFirst s t o).l2) ∧
    ((∃ x ∈ rs, s.laneFree t o x = false) → exec (.storePerform t.uid o.id (some r.lane)) s = .next s))

/-- R160, R162, R163: LOAD_RETURN of an enabled lane of a scratchpad load, of any width, ordered or not, with N = 0 or 1, on a
full line: the lane takes the bytes of the company's scratchpad at its address, extended by the width, with the troupe's own
earlier stores still in flight put before them (R166); an acquire from company scope on empties the core's L1 of what it does
not own (R145); no byte of any memory changes. On an empty line it does nothing (R146). A lane that meets poison takes 0,
which is counted, or traps later where the launch traps on poison (R167). -/
def Sys2Proof.Claim.ScratchpadLoadReturns : Prop :=
  ∀ (s : State) t o r c, s.troupe? t.uid = some t → t.op? o.id = some o → o.kind = .loadSp →
    o.lanes.find? (·.lane == r.lane) = some r → s.laneEnabled t o r = true → s.company? t.cid = some c → r.lane < 96 →
    let s0 := if o.acquire then s.acquireAt t.core o.scope else s
    (c.emptyLines.contains (r.addr / 192) = true → exec (.loadReturn t.uid o.id (some r.lane)) s = .next s) ∧
    (c.emptyLines.contains (r.addr / 192) = false →
      (c.isPoisoned r.addr o.size = false →
        ∃ s', exec (.loadReturn t.uid o.id (some r.lane)) s = .next s' ∧
          Returned t o [r] (extendLoad o.sub (t.forward o r (bytesAt c.spad r.addr o.size))) 0 s' ∧
          s' = { s0 with troupes := s'.troupes }) ∧
      (c.isPoisoned r.addr o.size = true → (∀ e ∈ t.ops, e.isStore = false) →
        ∃ s', exec (.loadReturn t.uid o.id (some r.lane)) s = .next s' ∧
          (o.sync = false → Returned t o [r] 0 0 s' ∧ s' = { s0.useLost t.core with troupes := s'.troupes }) ∧
          (o.sync = true → s' = { s with troupes := s'.troupes } ∧ ∃ t' o', s'.troupe? t.uid = some t' ∧
            t'.op? o.id = some o' ∧ t'.v = t.v ∧ ∀ x ∈ o'.lanes, x.lane = r.lane → x.done = true ∧ x.status = 16)))

/-- R162: scratchpad stores and loads performed. -/
def Obligations.ScratchpadAccesses : Prop := Claim.ScratchpadStorePerformed ∧ Claim.ScratchpadLoadReturns

/-- R240, R242, R245: a read at home after a write at home of the same bytes of a line gives what was written; on a line of
host memory, in memory itself, and no other byte of memory changes there. -/
def Sys2Proof.Claim.HomeReadAfterWrite : Prop :=
  (∀ (s : State) l bs wd uid, l.host = false → l.cmp = none → l.wt = false → s.allowanceLine? l.byte bs.length = none →
    (s.die l.die).regions = [] → l.off + bs.length ≤ 192 → (∀ x ∈ s.l2, x.data.length = 192) →
    (∀ c ∈ s.cores, ∀ x ∈ c.l1, x.data.length = 192) →
    ((s.homeWrite l bs wd uid).homeRead l bs.length).2 = bs) ∧
  (∀ (s : State) l bs wd uid, l.host = true → s.mem.wf = true →
    ((s.homeWrite l bs wd uid).homeRead l bs.length).2 = bs ∧
    ∀ a, a < l.byte ∨ l.byte + bs.length ≤ a → cellGet (s.homeWrite l bs wd uid).mem a = cellGet s.mem a)

/-- R167, R240: a line that no cache holds is read from memory, and the read brings it into its home slice clean, with the
poison that it has in memory, where the set has a way for it. -/
def Sys2Proof.Claim.HomeReadFills : Prop :=
  ∀ (s : State) l n, l.host = false → l.cmp = none → s.ownedCopy l.line = none → s.l2Get l.line = none →
    s.l2Victim? l = none → l.off + n ≤ 192 →
    (s.homeRead l n).2 = bytesAt s.mem l.byte n ∧
    (s.homeRead l n).1.l2Get l.line =
      some { line := l.line, data := bytesAt s.mem (192 * l.line) 192, dirty := false, cls := l.cls, sharers := 0, cmp := none,
             bad := s.badBelow l.line } ∧
    (s.homeRead l n).1.mem = s.mem

/-- R240, R242, R245: reads and writes of a line at home. -/
def Obligations.HomeMemory : Prop := Claim.HomeReadAfterWrite ∧ Claim.HomeReadFills

/-- R148, R160, R162-R164: LOAD_RETURN of an enabled lane of a global load, of any width, ordered or not, with N = 0 or 1: an
acquire from company scope on first empties the core's L1 of what it does not own (R145); the lane takes the bytes that the
core's read of its place gives, with the troupe's own earlier stores put before them. Of LDRO: it takes the bytes of the
read-only cache's copy, or those that its die reads, through no invalidation still on its way (R242). -/
def Sys2Proof.Claim.GlobalLoadReturns : Prop :=
  (∀ (s : State) t o r ns s1 bs, s.troupe? t.uid = some t → t.op? o.id = some o → o.kind = .loadG ns →
    o.lanes.find? (·.lane == r.lane) = some r → s.laneEnabled t o r = true → r.lane < 96 →
    ((if o.acquire then s.acquireAt t.core o.scope else s).countHot (s.rootOf t.lid) r.addr r.pa r.entry r.psize).coreRead
      t.core (s.loc r.pa r.entry r.psize) o.size ns = (s1, bs, false) →
    ∃ s', exec (.loadReturn t.uid o.id (some r.lane)) s = .next s' ∧
      Returned t o [r] (extendLoad o.sub (t.forward o r bs)) 0 s' ∧ s' = { s1 with troupes := s'.troupes }) ∧
  (∀ (s : State) t o r ns, s.troupe? t.uid = some t → t.op? o.id = some o → o.kind = .ldro ns → o.acquire = false →
    o.lanes.find? (·.lane == r.lane) = some r → s.laneEnabled t o r = true → r.lane < 96 →
    let l := s.loc r.pa r.entry r.psize
    (∀ x, (s.core t.core).ro.find? (·.line == l.line) = some x →
      ∃ s', exec (.loadReturn t.uid o.id (some r.lane)) s = .next s' ∧
        Returned t o [r] (extendLoad o.sub ((x.data.drop l.off).take o.size)) 0 s' ∧ s' = { s with troupes := s'.troupes }) ∧
    (∀ s1 bs, (s.core t.core).ro.find? (·.line == l.line) = none →
      ((s.countHot (s.rootOf t.lid) r.addr r.pa r.entry r.psize).settleInval (dieOf t.core) l.line).dieRead (dieOf t.core) l =
        (s1, bs) → s1.isPoisoned l o.size = false →
      ∃ s', exec (.loadReturn t.uid o.id (some r.lane)) s = .next s' ∧
        Returned t o [r] (extendLoad o.sub ((bs.drop l.off).take o.size)) 0 s' ∧ s'.mem = s1.mem ∧ s'.l2 = s1.l2 ∧
        ∀ c, (s'.core c).l1 = (s1.core c).l1))

/-- R145, R162, R163, R240, R245: STORE_PERFORM of an enabled lane of a global store, of any width, ordered or not: the low
bytes of its data are at its place from then on, in the core's owned copy, in the home L2 slice, or in host memory; every
other byte of the coherence order keeps its value there, the bytes read back at the core that stored, and nothing of another
unit changes but what the core's write does, and, before a release at package scope or wider, the writing back of the core's
owned lines. A release of a scope from company to die leaves the accesses still in flight before it marked for that scope:
how the model keeps R153 there is its choice (log 21). -/
def Sys2Proof.Claim.GlobalStorePerformed : Prop :=
  ∀ (s : State) t o r, s.troupe? t.uid = some t → t.op? o.id = some o → o.kind = .storeG →
    o.released = none → t.roinvAt ≤ o.id →
    o.lanes.find? (·.lane == r.lane) = some r → s.laneEnabled t o r = true →
    let l := s.loc r.pa r.entry r.psize
    let s1 := releasedFirst s t o
    let s0 := s1.countHot (s.rootOf t.lid) r.addr r.pa r.entry r.psize
    let bs := (List.range o.size).map fun i => BitVec.ofNat 8 (r.data.toNat / 256 ^ i)
    let w := s0.coreWrite t.core l bs t.uid
    ∃ s', exec (.storePerform t.uid o.id (some r.lane)) s = .next s' ∧ s' = { w with troupes := s'.troupes } ∧
      (∀ t', s'.troupe? t.uid = some t' → o.release = true → 2 ≤ o.scope → o.scope < 5 → ∀ e ∈ t'.ops, e.id < o.id →
        ∃ at_ k, e.released = some (at_, k) ∧ o.scope ≤ k) ∧
      (l.host = true → (s1.core t.core).l1.find? (fun x => x.line == l.line && x.owned) = none →
        (∀ a, a < l.byte ∨ l.byte + o.size ≤ a → cellGet s'.mem a = cellGet s.mem a) ∧
        (s.mem.wf = true → ∀ i, i < o.size → cellGet s'.mem (l.byte + i) = bs.getD i 0)) ∧
      (l.host = false → l.cmp = none → (s.die l.die).regions = [] → s.allowanceLine? l.byte o.size = none →
        s1.l2Victim? l = none → l.off + o.size ≤ 192 → (∀ x ∈ s.l2, x.data.length = 192) →
        (∀ c ∈ s.cores, ∀ x ∈ c.l1, x.data.length = 192) → SoleCopy s1 t.core l.line → PlainSide s l →
        (∀ i, i < o.size → s'.peek (l.byte + i) = bs.getD i 0) ∧
        (∀ a, a / 192 ≠ l.line ∨ a % 192 < l.off ∨ l.off + o.size ≤ a % 192 → s'.peek a = s1.peek a) ∧
        (∀ line, line ≠ l.line → s'.l2Get line = s1.l2Get line) ∧
        (s'.coreRead t.core l o.size true).2.1 = bs)

/-- R162, R164: global loads and stores performed. -/
def Obligations.GlobalAccesses : Prop := Claim.GlobalLoadReturns ∧ Claim.GlobalStorePerformed

/-- R170-R172, R244: ATOMIC_PERFORM of an enabled lane of an atomic on clean data: one access, which gives its lanes the old
value, puts the new one in its place, and ORs its flags into fflags; every other byte keeps its value. A .fadd serves
every lane that the instruction still has at that address, with their sum by the fixed tree. A scratchpad atomic changes
the company's scratchpad alone; a global one is performed at home, where the core keeps no copy of the line, or in the
core's L1 under exclusive ownership. An ordered one does the same: as an acquire from company scope on it empties the L1 of
what the core does not own, as a release from package scope on it first writes the core's owned lines back (R145, R245). -/
def Sys2Proof.Claim.AtomicPerformed : Prop :=
  ∀ (s : State) t o r, s.troupe? t.uid = some t → t.op? o.id = some o → o.released = none →
    o.lanes.find? (·.lane == r.lane) = some r → s.laneEnabled t o r = true →
    let s1 := releasedFirst s t o
    (∀ x ∈ o.lanes, x.lane < 96) →
    let rs := if o.sub = 10 then o.lanes.filter fun x => !x.done && o.at_ x == o.at_ r else [r]
    let sum := tree96Of (fpStep 0) fun i => match rs.find? (·.lane == i) with
      | some x => ⟨x.data.setWidth 32, 0⟩
      | none => ⟨0x80000000, 0⟩
    let new (old : Nat) := atomicNew o.sub old (if o.sub = 10 then sum.w.toNat else r.data.toNat) r.cmp.toNat
    let fl (old : Nat) : Flags := (new old).2 ||| (if o.sub = 10 then sum.flags else 0)
    (∀ c, o.kind = .atomSp → s.company? t.cid = some c → c.isPoisoned r.addr o.size = false → c.spad.wf = true →
      let old := leNat ((List.range o.size).map fun i => cellGet c.spad (r.addr + i))
      ∃ s' c', exec (.atomicPerform t.uid o.id (some r.lane)) s = .next s' ∧ Returned t o rs old (fl old) s' ∧
        s'.company? t.cid = some c' ∧ s'.mem = s.mem ∧ s'.l2 = s1.l2 ∧ c'.emptyLines = c.emptyLines ∧
        ∀ a, cellGet c'.spad a =
          if r.addr ≤ a ∧ a < r.addr + o.size then BitVec.ofNat 8 ((new old).1 / 256 ^ (a - r.addr)) else cellGet c.spad a) ∧
    (o.kind = .atomG →
      let l := s.loc r.pa r.entry r.psize
      let old := leNat ((List.range o.size).map fun i => s1.peek (l.byte + i))
      l.host = false → l.cmp = none → (s.die l.die).regions = [] → s1.isPoisoned l o.size = false →
      s.isPoisoned l o.size = false → s.allowanceLine? l.byte o.size = none → s1.l2Victim? l = none →
      l.off + o.size ≤ 192 → (∀ x ∈ s.l2, x.data.length = 192) → (∀ c ∈ s.cores, ∀ x ∈ c.l1, x.data.length = 192) →
      SoleCopy s1 t.core l.line → PlainSide s l → t.core < s.cores.length →
      ∃ s', exec (.atomicPerform t.uid o.id (some r.lane)) s = .next s' ∧ Returned t o rs old (fl old) s' ∧
        (∀ i, i < o.size → s'.peek (l.byte + i) = BitVec.ofNat 8 ((new old).1 / 256 ^ i)) ∧
        (∀ a, a / 192 ≠ l.line ∨ a % 192 < l.off ∨ l.off + o.size ≤ a % 192 → s'.peek a = s1.peek a) ∧
        ((s1.countHot (s.rootOf t.lid) r.addr r.pa r.entry r.psize).atomicAtHome t.core l r.addr = true →
          ∀ x ∈ (s'.core t.core).l1, x.line ≠ l.line) ∧
        ((s1.countHot (s.rootOf t.lid) r.addr r.pa r.entry r.psize).atomicAtHome t.core l r.addr = false →
          ∃ x, (s'.core t.core).l1.find? (·.line == l.line) = some x ∧ x.owned = true ∧ x.dirty = true))

/-- R167, R170-R172, R244: the issue of ATOM and ATOM.sp, the new value of each operation, ATOMIC_PERFORM, and the
accesses that a launch which traps on poison waits for. -/
def Obligations.Atomics : Prop := Claim.AwaitedAccesses ∧ Claim.AtomicsGoOut ∧ Claim.AtomicValues ∧
  Claim.AtomicPerformed

/-- R231, R232: the delivery of matched exchanges. Two exchanges that match, of troupes in one lagoon, each give every lane
that was active at its issue the partner's value where the partner's lane was active and its own elsewhere, in its
register and its latch; xc falls by one. In different lagoons, and for an exchange whose partner has retired without
its own, each takes its own values, and CLXLOST rises; that the cluster which counts it is that of the troupe that issued is
the model's choice (log 45): R232 names no cluster. Nothing of memory changes. -/
def Sys2Proof.Claim.ExchangesDelivered : Prop :=
  ∀ (s : State) x, x.done = false →
    let given (t : Troupe) (v : Nat → Word) (s' : State) : Prop :=
      ∃ t', s'.troupe? t.uid = some t' ∧ t'.xc = t.xc - 1 ∧ t'.s = t.s ∧ t'.pc = t.pc ∧
        (∀ d, x.dest = some d → d < t.v.length → ∀ q i, i < 96 →
          rowGet (t'.vrow q) i = if q = d ∧ x.active.getLsbD i = true then v i else rowGet (t.vrow q) i) ∧
        (x.dest = none → ∀ q i, i < 96 → rowGet (t'.vrow q) i = rowGet (t.vrow q) i)
    (∀ y t u, s.matching? x = some y → s.troupe? x.uid = some t → s.troupe? y.uid = some u → t.resident = true →
      u.resident = true → x.uid ≠ y.uid →
      (lagoonOf t.core = lagoonOf u.core →
        given t (fun i => if y.active.getLsbD i then rowGet y.row i else rowGet x.row i) (s.resolveXchg x) ∧
        (s.resolveXchg x).clusters = s.clusters) ∧
      (lagoonOf t.core ≠ lagoonOf u.core → given t (fun i => rowGet x.row i) (s.resolveXchg x)) ∧
      (s.resolveXchg x).mem = s.mem ∧ (s.resolveXchg x).companies = s.companies) ∧
    (∀ t, s.matching? x = none → s.troupe? x.uid = some t →
      (s.widRetired x.lid x.partner.toNat = true →
        given t (fun i => rowGet x.row i) (s.resolveXchg x) ∧
        (clusterOf t.core < s.clusters.length →
          ((s.resolveXchg x).cluster (clusterOf t.core)).clxlost =
            if (s.cluster (clusterOf t.core)).clxlost = -1 then -1 else (s.cluster (clusterOf t.core)).clxlost + 1)) ∧
      (s.widRetired x.lid x.partner.toNat = false → s.resolveXchg x = s)) ∧
    (∀ y, s.xchgs = [x, y] → s.matching? x = some y → x.uid ≠ y.uid → (s.residentCore? x.uid).isSome = true →
      (s.residentCore? y.uid).isSome = true → s.resolveXchgs = s.resolveXchg x)

/-- R230-R232: XCHG completes its issue or traps, and the delivery of matched exchanges. Which cluster counts CLXLOST is
the model's choice (log 45). -/
def Obligations.ExchangeIssue : Prop := Claim.ExchangesGoOut ∧ Claim.ExchangesDelivered
namespace Sys2Proof.Claim

open Sys2Proof.Machine

/-! ## Bounded counters (R249-R254) -/

def bcinitOf (f : Fields) : Shape :=
  let group := decide (Fields.x f 18 18 = 1)
  { dst := .none, long := true, a := .w32, b := if group then .w32 else .no, ownXs := true, ownImm := true, immMask := 0x7FFFF,
    badModifier := !group && decide (Fields.x f 17 15 ≠ 0), badField := decide (Fields.xs f % 2 = 1) }
def setgrpOf (f : Fields) : Shape :=
  { dst := .none, long := true, ownXs := true, ownImm := true, immMask := 0x7,
    badField := decide (Fields.xs f % 4 ≠ 0) || decide (60 < Fields.xs f) }

/-- R57, R251: the line that lane i names. -/
def counterAddress (f : Fields) (t : Troupe) (i : Nat) : Nat :=
  globalAddr (t.spair (Fields.xs f)) (t.a32 f i) (Fields.disp f 19)

/-- The counter operation that goes into flight. `result` says that it has one. -/
def counterInFlight (f : Fields) (s : State) (t : Troupe) (kind : MemKind) (result ld st : Bool) (reqs : List LaneReq) : MemOp :=
  { id := t.nextOp, kind := kind, sub := 0, acquire := false, release := false, scope := 0,
    dest := if result && !f.n then some f.d.toNat else none, latch := t.pos.kLane % 4, act := t.actSerial, raisesLd := ld,
    raisesSt := st, lanes := reqs.map fun r => { r with data := (t.b32 f r.lane).setWidth 128 }, samples := [], flags := 0,
    released := none, since := s.clock.toNat, sync := ld && s.poisonTraps t }

/-- R251: instruction, operation, destination, use of B, whether it has a result, whether it raises ld and st. -/
def counterOps : List ((Fields → Instr) × MemKind × Dst × Use × Bool × (Fields → Bool) × Bool) :=
  [(.bcdec, .bcDec, .lane, .w32, true, fun f => !f.n, true), (.bcinc, .bcInc, .none, .w32, false, fun _ => false, true),
   (.bcread, .bcRead, .lane, .no, true, fun _ => true, false)]

/-- A lane of an operation that a step may perform now. -/
def Ready (s : State) (t : Troupe) (o : MemOp) (r : LaneReq) : Prop :=
  s.troupe? t.uid = some t ∧ t.op? o.id = some o ∧ o.lanes.find? (·.lane == r.lane) = some r ∧ r.lane < 96 ∧
  s.laneEnabled t o r = true

/-- The place of a lane's line. -/
def placeOf (s : State) (r : LaneReq) : Loc := s.loc r.pa r.entry r.psize

/-- The 192 bytes of a counter line stand in their home L2 slice, in one physical line or two, and no core owns them; they
lie in no succinct region. -/
def AtHome (s : State) (l : Loc) : Prop :=
  l.host = false ∧ (s.die l.die).regions = [] ∧ PlainSide s l ∧ l.off < 192 ∧ l.die < s.dieUnits.length ∧
  ∀ i, i < 192 → s.ownedCopy (l.plus i).line = none ∧ ∃ x, s.l2Get (l.plus i).line = some x ∧ x.data.length = 192

/-- A lane of an operation without a result is performed: no register changes, and st falls with the last lane (R162). -/
def Stored (t : Troupe) (o : MemOp) (r : LaneReq) (s' : State) : Prop :=
  ∃ t', s'.troupe? t.uid = some t' ∧ t'.v = t.v ∧ t'.s = t.s ∧ t'.fflags = t.fflags ∧
    (o.sync = false → t'.st =
      if (o.lanes.all fun x => x.done || x.lane == r.lane) = true ∧ o.raisesSt = true then t.st - 1 else t.st)

/-- The allowance of core k, 0 where it holds none (R252). -/
def allowance (s : State) (l : Loc) (k : Nat) : Nat := (s.allowanceOf k l).getD 0

/-- RESERVE, HOLD and CUR of a counter line at home, and how many allowances have been recalled (R249, R252). -/
structure Counter where
  reserve : Nat
  hold : Nat
  cur : Nat
  recalls : Nat

def counterAt (s : State) (l : Loc) : Counter := ⟨s.ctrGet l 0x00 8, s.ctrGet l 0x10 16, s.ctrGet l 0x21 1, 0⟩

/-- R252: holders are recalled, the first at or after CUR, wrapping, while `more` says so of RESERVE and HOLD is not 0; at most
`n` of them. -/
def recalled (amount : Nat → Nat) (more : Nat → Bool) : Nat → Counter → Counter
  | 0, c => c
  | n + 1, c =>
    match ((List.range 128).map fun i => (c.cur + i) % 128).find? c.hold.testBit with
    | some h =>
      if more c.reserve then
        recalled amount more n ⟨(c.reserve + amount h) % 2 ^ 64, c.hold - 2 ^ h, (h + 1) % 128, c.recalls + 1⟩
      else c
    | none => c

/-- HOLD and CUR at home, DNBCRECALL of the home die, and the allowances of the cores but k, after these recalls. -/
def Recalled (s s' : State) (l : Loc) (k : Nat) (c : Counter) (hold : Nat) : Prop :=
  s'.ctrGet l 0x10 16 = hold ∧ s'.ctrGet l 0x21 1 = c.cur ∧
  (s'.die l.die).dnbcrecall.toNat = min ((s.die l.die).dnbcrecall.toNat + c.recalls) (2 ^ 64 - 1) ∧
  ∀ j, j < 128 → j ≠ k → s'.allowanceOf j l =
    if (s.ctrGet l 0x10 16).testBit j = true ∧ c.hold.testBit j = false then none else s.allowanceOf j l

/-! ## Group loads (R261-R266) -/

/-- R264: COMBINE, of two values with the flags raised for them. -/
def groupStep (op : Nat) (a b : Flagged) : Flagged :=
  match op with
  | 0 => fpStep 0 a b
  | 1 => fpStep 1 a b
  | 2 => fpStep 2 a b
  | 3 => fpStep 0 a b
  | 4 => ⟨intStep 0 a.w b.w, 0⟩
  | 5 => ⟨intStep 1 a.w b.w, 0⟩
  | 6 => ⟨intStep 2 a.w b.w, 0⟩
  | 7 => ⟨intStep 5 a.w b.w, 0⟩
  | _ => ⟨intStep 6 a.w b.w, 0⟩

/-- R31: IDENTITY(OP). -/
def groupNeutral (op : Nat) : Word :=
  match op with
  | 0 => 0x80000000
  | 1 => 0x7F800000
  | 2 => 0xFF800000
  | 3 => 0x80000000
  | 5 => 0x7FFFFFFF
  | 6 => 0x80000000
  | 7 => 0xFFFFFFFF
  | _ => 0

def groupMembers (o : MemOp) : CoreMask := match o.kind with | .ldgr m => m | _ => 0

/-- R265, R266: what member core c has for a lane of a group load of this state: what was read of it before, else what its
company's scratchpad holds now; none where it contributes the identity for a fault: no company of the launch there, bytes
past its scratchpad, a poisoned line. -/
def memberWord (s : State) (t : Troupe) (o : MemOp) (c : Nat) (r : LaneReq) : Option Word :=
  match o.sample? c r.lane with
  | some v => v
  | none =>
    match s.memberOf t.lid c with
    | none => none
    | some k =>
      let n := if o.sub = 3 then 2 else 4
      let v := leNat ((List.range n).map fun i => cellGet k.spad (r.addr + i))
      if k.ways * 98304 < r.addr + n ∨ k.isPoisoned (192 * (r.addr / 192)) 192 = true then none
      else some (BitVec.ofNat 32 (if o.sub = 3 then v * 2 ^ 16 else v))

/-- What core c contributes to a lane (R264, R266): its value, or the identity. -/
def contribution (s : State) (t : Troupe) (o : MemOp) (r : LaneReq) (c : Nat) : Word :=
  if (groupMembers o).getLsbD c then (memberWord s t o c r).getD (groupNeutral o.sub) else groupNeutral o.sub

/-- R264: the reduction over the 128 cores. -/
def groupValue (s : State) (t : Troupe) (o : MemOp) (r : LaneReq) : Flagged :=
  let x := tree (groupStep o.sub) (fun c => ⟨contribution s t o r c, 0⟩) 7 0
  if o.sub = 3 then
    let q := bf16.round .rn 0 false (fp32.decode x.w.toNat)
    ⟨BitVec.ofNat 32 q.code, x.flags ||| q.flags⟩
  else x

/-- R262: how many members contribute the identity for a fault. -/
def groupFaults (s : State) (t : Troupe) (o : MemOp) : Nat :=
  ((List.range 128).filter fun c => (groupMembers o).getLsbD c && o.lanes.any fun r => (memberWord s t o c r).isNone).length

/-- The values read early are of members and of the operation's lanes, one each. -/
def SamplesOk (o : MemOp) : Prop :=
  (o.samples.map (·.1)).Nodup ∧ ∀ m ∈ o.samples, m.1 < 128 ∧ (groupMembers o).getLsbD m.1 = true ∧ (m.2.map (·.1)).Nodup ∧
    ∀ v ∈ m.2, ∃ r ∈ o.lanes, r.lane = v.1

/-- A core's line that a group load reads lets it be read now, and nothing of the troupe stands before the read (R153, R265). -/
def memberReadable (s : State) (t : Troupe) (o : MemOp) (c : Nat) (r : LaneReq) : Bool :=
  (o.sample? c r.lane).isSome ||
    ((match s.memberOf t.lid c with | some k => !k.emptyLines.contains (r.addr / 192) | none => true) && s.memberAllowed t o c r)

def ldgrShape (f : Fields) : Shape :=
  { dst := .lane, long := true, a := .w32, ownImm := true, immMask := 0x7FFFF, zeroXs := true,
    badModifier := decide (8 < Fields.x f 18 15) }

def ldgrBytes (f : Fields) : Nat := if Fields.x f 18 15 = 3 then 2 else 4

/-- The members that LDGR names: those of slot (SLOT + grpsel.BASE) mod 8 of its company (R262, R264). -/
def membersOf (s : State) (t : Troupe) (f : Fields) : CoreMask :=
  match s.company? t.cid with
  | some c => c.groups.getD ((Fields.x f 14 12 + t.grpsel.toNat % 8) % 8) 0
  | none => 0

/-- The group load that LDGR puts in flight. -/
def ldgrInFlight (f : Fields) (s : State) (t : Troupe) : MemOp :=
  { id := t.nextOp, kind := .ldgr (membersOf s t f), sub := Fields.x f 18 15, acquire := false, release := false, scope := 0,
    dest := if f.n then none else some f.d.toNat, latch := t.pos.kLane % 4, act := t.actSerial, raisesLd := true,
    raisesSt := false, lanes := spadRequests t (offsetOf f t), samples := [], flags := 0, released := none,
    since := s.clock.toNat, sync := false }

def isGroupLoad (o : MemOp) : Bool := match o.kind with | .ldgr _ => true | _ => false

/-! ## Succinct queries and edits (R277, R286) -/

/-- Ones among the first n positions: R277's ONES(0..n-1). -/
def onesBelow (bit : Nat → Bool) (n : Nat) : Nat := ((List.range n).filter bit).length
/-- R277: E(i) is `excess bit (i + 1)`, and E(-1) is `excess bit 0`. -/
def excess (bit : Nat → Bool) (n : Nat) : Int := 2 * (onesBelow bit n : Int) - n
/-- R277: L(p). -/
def levelOf (bit : Nat → Bool) (p : Nat) : Int := excess bit (p + 1) + if bit p then 0 else 1

/-- The instructions of R277 in the order of their opcodes. -/
def queries : List (Fields → Instr) := [.rank1, .rank0, .sel1, .sel0, .fclose, .fopen, .encl]

def queryShape : Shape := { dst := .lane, long := true, a := .w32, b := .w32 }
def isQuery (o : MemOp) : Bool := match o.kind with | .query _ => true | _ => false

/-- A troupe without operation o (R280): ld has fallen. -/
def withoutOp (t : Troupe) (o : MemOp) : Troupe :=
  { t with ops := t.ops.filter (·.id != o.id), ld := if o.raisesLd then t.ld - 1 else t.ld,
           st := if o.raisesSt then t.st - 1 else t.st }

def resultOf (o : MemOp) (i : Nat) : Word :=
  match o.lanes.find? (·.lane == i) with
  | some r => BitVec.ofNat 32 r.result.toNat
  | none => 0

/-- An operation of the memory side, whose lanes name regions by record address and die. -/
def sideOp (s : State) (t : Troupe) (kind : MemKind) (dest : Option Nat) (lanes : List LaneReq) (st : Bool) : MemOp :=
  { id := t.nextOp, kind := kind, sub := 0, acquire := false, release := false, scope := 0, dest := dest, latch := 4,
    act := t.actSerial, raisesLd := !st, raisesSt := st, lanes := lanes, samples := [], flags := 0, released := none,
    since := s.clock.toNat, sync := false }

def sideLane (i a : Nat) (g : Region) (data : BitVec 128) (cmp : DWord) : LaneReq :=
  { requestAt i a g.ra 0 g.r.hdie with data := data, cmp := cmp }

def editOf (insert : Bool) : Shape :=
  { dst := .none, long := true, a := .w32, b := if insert then .w64 else .no, c := .w32, ownXs := true }

def activeLanes (t : Troupe) : List Nat := (List.range 96).filter t.active

/-- Takes the next number of tl4 (R286): issued(tl4) + 1. -/
def numbered (s : State) (cid : Nat) : State :=
  match s.company? cid with
  | none => s
  | some c =>
    s.updCompany cid fun _ => c.setTl 4 { (c.tls.getD 4 ⟨0, 0⟩) with issued := satInc (c.tls.getD 4 ⟨0, 0⟩).issued }

/-- The requests of an edit instruction: position, bits, count of each active lane. -/
def editRequests (insert : Bool) (f : Fields) (t : Troupe) : List EditReq :=
  (activeLanes t).map fun i =>
    { lane := i, p := (t.a32 f i).toNat, n := (t.c32 f i).toNat, x := if insert then t.b64 f i else 0 }

/-- The directory's bytes and the string's bytes of a region stand at different places (R271). -/
def Apart (g : Region) : Prop :=
  (∀ i j, i < g.r.dsize → j < g.r.dsize → g.dirPa i = g.dirPa j → i = j) ∧
  (∀ i j, i < g.r.ssize → j < g.r.ssize → g.strPa i = g.strPa j → i = j) ∧
  ∀ i j, i < g.r.dsize → j < g.r.ssize → g.dirPa i ≠ g.strPa j

/-- Nothing above the memory side holds a newer copy of a region's string: its pages are write-through (R271). -/
def CleanString (s : State) (g : Region) : Prop :=
  ∀ i, i < g.r.ssize → s.ownedCopy (g.strPa i / 192) = none ∧ ∀ x ∈ s.l2, x.line = g.strPa i / 192 → x.dirty = false

/-- The journal's fields of R276 as they stand. -/
structure Journal where
  op : Nat
  n : Nat
  phase : Nat
  pos : Nat
  bits : Nat
  tl : Nat
  line : Nat

def journal (s : State) (g : Region) : Journal :=
  ⟨s.dirGet g 0x28 1, s.dirGet g 0x29 1, s.dirGet g 0x2A 1, s.dirGet g 0x2C 4, s.dirGet g 0x30 8, s.dirGet g 0x38 8,
   s.dirGet g 0x40 4⟩

/-- R288: whether a lane's edit equals the one that the journal describes. -/
def finishesJournal (s : State) (g : Region) (insert : Bool) (q : EditReq) : Bool :=
  let j := journal s g
  !s.summaryLost g && decide (j.op = (if insert then 1 else 2) ∧ j.pos = q.p ∧ j.n = q.n ∧
    (insert = true → j.bits % 2 ^ q.n = q.x.toNat % 2 ^ q.n))

/-- The edit that holds the region goes on with this step. -/
def GoesOn (s' : State) (g : Region) (job : EditJob) (phase : Nat) : Prop :=
  (s'.region? g.r.hdie g.root g.ra).map (·.edit) = some (some { job with phase := phase })

/-- No byte of memory has changed but these bytes of a region's directory. -/
def OnlyDirectory (s s' : State) (g : Region) (p : Nat → Bool) : Prop :=
  ∀ a, (∀ i, i < g.r.dsize → p i = true → g.dirPa i ≠ a) → cellGet s'.mem a = cellGet s.mem a

/-- The first line that an edit rewrites, and whether line b is past the last one (R288). -/
def firstLine (insert : Bool) (len p n : Nat) : Nat := if insert then (len + n - 1) / 1536 else p / 1536
def pastLast (insert : Bool) (len p b : Nat) : Bool :=
  if insert then decide ((b + 1) % 2 ^ 32 = p / 1536) else decide (b = (len - 1) / 1536 + 1)

/-- R286: the bit of the edited string at q: the old string's, or one of x's, or 0. -/
def editedBit (insert : Bool) (len p n x : Nat) (old : Nat → Bool) (q : Nat) : Bool :=
  if insert then
    if p ≤ q ∧ q < p + n then x.testBit (q - p)
    else if p + n ≤ q ∧ q < len + n then old (q - n)
    else old q
  else if p ≤ q ∧ q + n < len then old (q + n)
  else if p ≤ q ∧ q < len then false
  else old q

/-- R279, R280, R288: the memory side's answer to a lane of a query over the string as it stands: ENGINE-FAULT with JTL where the
region is not ready, else R277's result or its trap. -/
def answered (s : State) (g : Region) (op : Nat) (r : LaneReq) : LaneReq :=
  if s.regionState g = 2 then
    { r with done := true, status := 15, taddr := BitVec.ofNat 64 (s.dirGet g 56 8) }
  else
    let a := solve op r.addr (s.dirGet g 16 4) (s.strBit g)
    { r with done := true, status := a.code, result := if a.code = 0 then BitVec.ofNat 64 a.value else r.result,
             taddr := if a.code = 0 then r.taddr else BitVec.ofNat 64 g.ra }

end Sys2Proof.Claim

/-! ## Bounded counters -/

/-- R250, R251: BCDEC, BCINC and BCREAD whose lanes pass the checks of R249 go into flight, with the wait counts of R251
raised; so does BCINIT, with the members of its group slot when X.imm[18] is 1. In a launch that traps on poison the
instruction waits for one that returns a value (R167). -/
def Sys2Proof.Claim.CounterOperationsIssue : Prop :=
  (∀ p ∈ counterOps, ∀ f s t s1 reqs, let kind := p.2.1; let result := p.2.2.2.2.1; let ld := p.2.2.2.2.2.1 f; let st := p.2.2.2.2.2.2
    Issues false (counterOf f p.2.2.1 p.2.2.2.1) f s t → (ld = true → t.ld < 63) → (st = true → t.st < 63) →
    Unawaited t →
    s.counterLanes t (activeLanes t) true (counterAddress f t) = (s1, .go reqs) →
    let t1 := withOp t (counterInFlight f s t kind result ld st reqs)
    OnlyTlbs s s1 ∧
    (if reqs ≠ [] ∧ ld = true ∧ s.poisonTraps t = true then
      Waits s1 t1 (s1.stall t) (resumption false result f t) (exec (p.1 f) s)
    else TroupeResult false f s1 t (if result then pendingLatch else .none) (if reqs = [] then t else t1) (exec (p.1 f) s))) ∧
  (∀ f s t s1 reqs, let group := decide (Fields.x f 18 18 = 1)
    Issues true (bcinitOf f) f s t → t.st < 63 →
    s.counterLanes t [0] false (fun _ => globalAddr (t.spair (Fields.xs f)) 0 (Fields.disp f 15)) = (s1, .go reqs) →
    OnlyTlbs s s1 ∧
    TroupeResult true f s1 t .none
      (withOp t { (counterInFlight f s t (.bcInit (if group then
          (match s.company? t.cid with | some c => c.groups.getD (Fields.x f 17 15) 0 | none => 0) else 0)) false false true []) with
        latch := 0,
        lanes := reqs.map fun r =>
          { r with data := (t.ua f).setWidth 128, cmp := if group then (t.ub f).setWidth 64 else 0 } })
      (exec (.bcinit f) s))

/-- R249, R251: BCDEC, BCINC and BCREAD, and BCINIT, COMPLETE for every state in which no TLB is stale and each line named is on a
multiple of 192 in a page with R and W; where the line is unpoisoned and the core holds an allowance of it, or it is
initialised at home with its reserved bytes 0 (BCINIT asks neither): each active lane's request is in flight. -/
def Sys2Proof.Claim.CounterOperationsComplete : Prop :=
  (∀ p ∈ counterOps, ∀ f s t, let kind := p.2.1; let result := p.2.2.2.2.1; let ld := p.2.2.2.2.2.1 f; let st := p.2.2.2.2.2.2
    Issues false (counterOf f p.2.2.1 p.2.2.2.1) f s t → (ld = true → t.ld < 63) → (st = true → t.st < 63) →
    Unawaited t → s.poisonTraps t = false → TlbsAgree s t.core → LanesMap s t 192 .rw (counterAddress f t) →
    (∀ r ∈ globalRequests s t .rw (counterAddress f t), s.ctrPoisoned (placeOf s r) = false ∧
      ((s.allowanceOf t.core (placeOf s r)).isSome = true ∨ (s.ctrTouch (placeOf s r)).ctrLegal (placeOf s r) = true)) →
    ∃ s1, OnlyTlbs s s1 ∧ TroupeResult false f s1 t (if result then pendingLatch else .none)
      (if t.act = 0 then t else
        withOp t (counterInFlight f s t kind result ld st (globalRequests s t .rw (counterAddress f t)))) (exec (p.1 f) s)) ∧
  (∀ f s t pa e psize, let va := globalAddr (t.spair (Fields.xs f)) 0 (Fields.disp f 15)
    Issues true (bcinitOf f) f s t → t.st < 63 → TlbsAgree s t.core → va % 192 = 0 →
    s.translateRoot (s.rootOf t.lid) va .rw = .ok pa e psize →
    ∃ s' t', exec (.bcinit f) s = .next s' ∧ s'.troupe? t.uid = some t' ∧ t'.st = t.st + 1 ∧ t'.pc = t.pc + 8 ∧ SameLanes t t' ∧
      ∃ o, t'.ops = t.ops ++ [o] ∧ o.lanes.length = 1)

/-- R249-R251: BCDEC, BCINC, BCREAD and BCINIT complete their issue, or trap. -/
def Obligations.CounterOperationsGoOut : Prop := Claim.CounterOperationsIssue ∧ Claim.CounterOperationsComplete

/-- R249, R252-R254: the steps of the counter operations, of any form (N = 0 or 1, waited for or not).
BCDEC of 0 gives 1; BCDEC of n at most the core's allowance takes n from it and gives 1, without a message; else it goes to
home with what the core holds. That the allowance stands at the core until the request reaches home is the model's choice
(log 36): R252 sets A = 0 as the request is sent. At home the request is handled whole: the allowance returns to RESERVE,
holders are recalled while RESERVE is too small, and the grant is made, or 0 is the result. BCINC adds to the core's
allowance, up to 0xFFFFFFFF, the rest and a non-holder's whole n to RESERVE. BCREAD recalls every allowance; that its
recalls count in DNBCRECALL and move CUR is the model's choice (log 139). A line that is not initialised gives 0. -/
def Obligations.CounterSteps : Prop :=
  (∀ (s : State) t o r, Ready s t o r → o.kind = .bcDec → r.miss = none → s.missOutstanding t.core (placeOf s r) = false →
    ((s.core t.core).allowances.filter (·.at_.byte != (placeOf s r).byte)).length < 64 →
    let a := allowance s (placeOf s r) t.core
    let n := r.data.toNat
    (n = 0 → ∃ s', exec (.atomicPerform t.uid o.id (some r.lane)) s = .next s' ∧ Returned t o [r] 1 0 s' ∧
      s' = { s with troupes := s'.troupes }) ∧
    (0 < n → n ≤ a → ∃ s', exec (.atomicPerform t.uid o.id (some r.lane)) s = .next s' ∧ Returned t o [r] 1 0 s' ∧
      s'.allowanceOf t.core (placeOf s r) = some (a - n) ∧ s'.l2 = s.l2 ∧ s'.mem = s.mem ∧
      ∀ k, k ≠ t.core → s'.core k = s.core k) ∧
    (a < n → ∃ s' t' o' r', exec (.atomicPerform t.uid o.id (some r.lane)) s = .next s' ∧ s' = { s with troupes := s'.troupes } ∧
      s'.troupe? t.uid = some t' ∧ t'.v = t.v ∧ t'.op? o.id = some o' ∧ o'.lanes.find? (·.lane == r.lane) = some r' ∧
      r' = { r with miss := some a })) ∧
  (∀ (s : State) t o r, s.troupe? t.uid = some t → t.op? o.id = some o → o.kind = .bcDec →
    o.lanes.find? (fun x => x.lane == r.lane && x.miss.isSome && !x.done) = some r → o.lanes.find? (·.lane == r.lane) = some r →
    r.lane < 96 → t.core < 128 → t.core < s.cores.length → AtHome s (placeOf s r) → s.ctrPoisoned (placeOf s r) = false →
    ((s.core t.core).allowances.filter (·.at_.byte != (placeOf s r).byte)).length < 64 →
    let l := placeOf s r
    let k := t.core
    let n := r.data.toNat
    (s.ctrGet l 0x20 1 ≠ 1 → ∃ s', exec (.bcMissRequest t.uid o.id r.lane) s = .next s' ∧ Returned t o [r] 0 0 s') ∧
    (s.ctrGet l 0x20 1 = 1 →
      let c0 := counterAt s l
      let c := recalled (fun h => if h = k then 0 else allowance s l h) (· < n) 128
        { c0 with reserve := (c0.reserve + allowance s l k) % 2 ^ 64,
                  hold := c0.hold - if c0.hold.testBit k then 2 ^ k else 0 }
      (c.reserve < n → ∃ s', exec (.bcMissRequest t.uid o.id r.lane) s = .next s' ∧ Returned t o [r] 0 0 s' ∧
        s'.ctrGet l 0x00 8 = c.reserve ∧ Recalled s s' l k c c.hold ∧ s'.allowanceOf k l = none) ∧
      (n ≤ c.reserve →
        let holders := ((List.range 128).filter c.hold.testBit).length
        let g := min (min c.reserve (max n (c.reserve / (holders + 1)))) (n + 0xFFFFFFFF)
        ∃ s', exec (.bcMissRequest t.uid o.id r.lane) s = .next s' ∧ Returned t o [r] 1 0 s' ∧
          s'.ctrGet l 0x00 8 = c.reserve - g ∧ Recalled s s' l k c (c.hold + 2 ^ k) ∧ s'.allowanceOf k l = some (g - n)))) ∧
  (∀ (s : State) t o r, Ready s t o r → o.kind = .bcInc → r.miss = none → s.missOutstanding t.core (placeOf s r) = false →
    ((s.core t.core).allowances.filter (·.at_.byte != (placeOf s r).byte)).length < 64 →
    let l := placeOf s r
    let n := r.data.toNat
    (∀ a, s.allowanceOf t.core l = some a →
      (a + n ≤ 0xFFFFFFFF → ∃ s', exec (.atomicPerform t.uid o.id (some r.lane)) s = .next s' ∧ Stored t o r s' ∧
        s'.allowanceOf t.core l = some (a + n) ∧ s'.l2 = s.l2 ∧ s'.mem = s.mem) ∧
      (0xFFFFFFFF < a + n → AtHome s l → ∃ s', exec (.atomicPerform t.uid o.id (some r.lane)) s = .next s' ∧
        Stored t o r s' ∧ s'.allowanceOf t.core l = some 0xFFFFFFFF ∧ s'.ctrGet l 0x00 8 = (s.ctrGet l 0x00 8 + (a + n - 0xFFFFFFFF)) % 2 ^ 64)) ∧
    (s.allowanceOf t.core l = none → AtHome s l → s.ctrPoisoned l = false →
      ∃ s', exec (.atomicPerform t.uid o.id (some r.lane)) s = .next s' ∧ Stored t o r s' ∧ s'.ctrGet l 0x10 16 = s.ctrGet l 0x10 16 ∧
        s'.ctrGet l 0x00 8 = if s.ctrGet l 0x20 1 = 1 then (s.ctrGet l 0x00 8 + n) % 2 ^ 64 else s.ctrGet l 0x00 8)) ∧
  (∀ (s : State) t o r, Ready s t o r → o.kind = .bcRead → r.miss = none → s.missOutstanding t.core (placeOf s r) = false →
    AtHome s (placeOf s r) → s.ctrPoisoned (placeOf s r) = false →
    let l := placeOf s r
    let c := recalled (allowance s l) (fun _ => true) 128 (counterAt s l)
    (s.ctrGet l 0x20 1 ≠ 1 → ∃ s', exec (.atomicPerform t.uid o.id (some r.lane)) s = .next s' ∧ Returned t o [r] 0 0 s') ∧
    (s.ctrGet l 0x20 1 = 1 → ∃ s', exec (.atomicPerform t.uid o.id (some r.lane)) s = .next s' ∧
      Returned t o [r] (min c.reserve 0xFFFFFFFF) 0 s' ∧ s'.ctrGet l 0x00 8 = c.reserve ∧ s'.ctrGet l 0x08 8 = c.reserve ∧
      Recalled s s' l 128 c 0))

/-! ## Group loads -/

/-- R261, R263, R264: SETGRP writes a slot of the company; LDGR, with its offsets aligned and within the scratchpad, goes into
flight for the members of slot (SLOT + grpsel.BASE) mod 8. -/
def Sys2Proof.Claim.GroupInstructions : Prop :=
  (∀ f s t c, let x := Fields.xs f
    Issues true (setgrpOf f) f s t → s.company? t.cid = some c → c.cid = t.cid →
    ∃ s1 c', s1 = { s with companies := s1.companies } ∧ s1.company? t.cid = some c' ∧ c' = { c with groups := c'.groups } ∧
      (∀ k, k ≠ t.cid → s1.company? k = s.company? k) ∧
      (∀ j, c'.groups.getD j 0 =
        if j = Fields.x f 2 0 then t.sreg (x + 3) ++ t.sreg (x + 2) ++ t.sreg (x + 1) ++ t.sreg x else c.groups.getD j 0) ∧
      TroupeResult true f s1 t .none t (exec (.setgrp f) s)) ∧
  (∀ f s t, Issues false (ldgrShape f) f s t → t.ld < 63 →
    (∀ i, i < 96 → t.active i = true →
      offsetOf f t i % ldgrBytes f = 0 ∧ offsetOf f t i + ldgrBytes f ≤ spadSize s t) →
    TroupeResult false f s t pendingLatch (withOp t (ldgrInFlight f s t)) (exec (.ldgr f) s))

/-- R262, R264-R266: GROUP_LOAD_COMPLETE, when every member's line can be read and no earlier group load of the troupe is
in flight, writes each lane's reduction over the 128 cores by the fixed tree (with N = 1 in its latch alone), ORs the flags that the reductions raise into fflags,
leaves in ldstat the number of members that contributed the identity for a fault, and ld falls. -/
def Sys2Proof.Claim.GroupLoadCompletes : Prop :=
  ∀ (s : State) t o, s.troupe? t.uid = some t → t.op? o.id = some o → isGroupLoad o = true → SamplesOk o →
    (∀ c, c < 128 → (groupMembers o).getLsbD c = true → ∀ r ∈ o.lanes, memberReadable s t o c r = true) →
    (∀ x ∈ t.ops, isGroupLoad x = true → o.id ≤ x.id) → t.resident = true → o.sync = false →
    (∀ d, o.dest = some d → d < t.v.length) → (o.lanes.map (·.lane)).Nodup → (∀ r ∈ o.lanes, r.lane < 96) →
    ∃ s' t', exec (.groupLoadComplete t.uid o.id) s = .next s' ∧ s'.troupe? t.uid = some t' ∧
      (∀ q i, i < 96 → rowGet (t'.vrow q) i =
        match o.lanes.find? (·.lane == i) with
        | some r => if o.dest = some q then (groupValue s t o r).w else rowGet (t.vrow q) i
        | none => rowGet (t.vrow q) i) ∧
      (o.act = t.actSerial → t'.pos = o.lanes.foldl (fun p r =>
        p.setLane o.latch r.lane ((groupValue s t o r).w.setWidth 64)) t.pos) ∧
      t'.fflags = t.fflags ||| (o.lanes.foldl (fun fl r => fl ||| (groupValue s t o r).flags) 0).setWidth 32 ∧
      t'.ldstat = BitVec.ofNat 32 (256 * groupFaults s t o + if 0 < groupFaults s t o then 1 else 0) ∧
      t'.ops = t.ops.filter (·.id != o.id) ∧ t'.ld = (if o.raisesLd then t.ld - 1 else t.ld) ∧ s'.mem = s.mem ∧
      s'.companies = s.companies

/-- R261-R266: SETGRP and LDGR complete their issue, and the reduction, with its flags, that completes a group load. -/
def Obligations.GroupLoads : Prop := Claim.GroupInstructions ∧ Claim.GroupLoadCompletes

/-! ## Succinct structures -/

/-- R277: the answers of the seven queries over a string of `len` bits. -/
def Obligations.QueryAnswers : Prop :=
  ∀ (bit : Nat → Bool) (len p : Nat),
    (p < len → solve 0 p len bit = ⟨onesBelow bit (p + 1), 0, p⟩ ∧ solve 1 p len bit = ⟨p + 1 - onesBelow bit (p + 1), 0, p⟩) ∧
    (len ≤ p → ∀ op ∈ [0, 1, 4, 5, 6], (solve op p len bit).code = 12) ∧
    (∀ v op, (v = true ∧ op = 2) ∨ (v = false ∧ op = 3) →
      let n (q : Nat) := onesBelow (fun i => bit i == v) (q + 1)
      (solve op p len bit).code = 0 ∧
      (∀ q, q < len → n q = p → 0 < p → (∀ k, k < q → n k ≠ p) → (solve op p len bit).value = q) ∧
      (p = 0 ∨ (∀ q, q < len → n q < p) → (solve op p len bit).value = 0xFFFFFFFF)) ∧
    (p < len →
      (bit p = false → solve 4 p len bit = ⟨p, 0, p⟩) ∧
      (bit p = true →
        (∀ q, p < q → q < len → excess bit (q + 1) = levelOf bit p - 1 →
          (∀ k, p < k → k < q → excess bit (k + 1) ≠ levelOf bit p - 1) → solve 4 p len bit = ⟨q, 0, q⟩) ∧
        ((∀ q, p < q → q < len → excess bit (q + 1) ≠ levelOf bit p - 1) → (solve 4 p len bit).code = 13)) ∧
      (bit p = true → solve 5 p len bit = ⟨p, 0, p⟩) ∧
      (bit p = false →
        (∀ q, q < p → excess bit q = levelOf bit p - 1 → (∀ k, q < k → k < p → excess bit k ≠ levelOf bit p - 1) →
          solve 5 p len bit = ⟨q, 0, p⟩) ∧
        ((∀ q, q < p → excess bit q ≠ levelOf bit p - 1) → (solve 5 p len bit).code = 13)) ∧
      (levelOf bit p = 1 → solve 6 p len bit = ⟨0xFFFFFFFF, 0, p⟩) ∧
      (levelOf bit p ≤ 0 → (solve 6 p len bit).code = 13) ∧
      (2 ≤ levelOf bit p → ∃ q, q < p ∧ solve 6 p len bit = ⟨q, 0, p⟩ ∧ excess bit q = levelOf bit p - 2 ∧
        ∀ k, q < k → k < p → excess bit k ≠ levelOf bit p - 2))

/-- R278-R280: a query with no active lane completes at once. One whose handles name regions, with no store of the troupe
to a string's die in flight and no edit waiting for a region, goes to the memory side: ld rises, and the troupe parks at it,
inside its act. -/
def Sys2Proof.Claim.QueryResults : Prop :=
  ∀ p ∈ queries.zipIdx, ∀ f s t, Issues false queryShape f s t → t.ld < 63 →
    (t.act = 0 → LaneResult f s t 0 (fun _ => 0) (exec (p.1 f) s)) ∧
    (∀ s1 gs, gs ≠ [] →
      s.laneRegions t (fun i => (t.b32 f i).toNat) (decide (4 ≤ p.2)) [] []
        ((activeLanes t).map fun i => (t.b32 f i).toNat).eraseDups = .ok s1 gs →
      s1.storesOn t (gs.map fun x => x.2.r.hdie) = false → (∀ x ∈ gs, s1.editWaits x.2 = false) →
      Waits s1 (withOp t (sideOp s1 t (.query p.2) (if f.n then none else some f.d.toNat)
          (gs.map fun x => sideLane x.1 (t.a32 f x.1).toNat x.2 0 0) false))
        (.query t.nextOp) (resumption false true f t) (exec (p.1 f) s))

/-- R279, R280, R284: QUERY_PERFORM answers a lane when no edit and no bank command holds the region and no line is poisoned; the
older copies of the lines read go from the core's caches. While another lane is left, the
answer waits in the operation. With the last one the query ends: where no lane traps, the active lanes of its register and its
latch take the results, ld falls, and the troupe goes on after the query, in a new act where the query ended its act; else
ld falls and the lowest code traps, with the lanes that have it (R91). -/
def Sys2Proof.Claim.QueryPerformed : Prop :=
  ∀ (s : State) t o r op g, s.troupe? t.uid = some t → t.op? o.id = some o → o.kind = .query op →
    o.lanes.find? (·.lane == r.lane) = some r → (o.lanes.map (·.lane)).Nodup → r.done = false → r.status = 0 →
    s.queryFree t o r = true → s.region? r.psize (s.rootOf t.lid) r.pa = some g → g.edit = none → s.stringHeld g = false →
    s.poison = [] → o.sync = false →
    let last := (solve op r.addr (s.dirGet g 16 4) (s.strBit g)).reach / 1536
    let s1 := if s.regionState g = 2 then s else (s.repairInline g last).dropOlderString g t.core last
    let o' := { o with lanes := o.lanes.map fun x => if x.lane == r.lane then answered s g op r else x }
    let out := exec (.queryPerform t.uid o.id (some r.lane)) s
    ((∃ x ∈ o'.lanes, x.done = false) →
      out = .next (s1.setTroupe { t with ops := t.ops.map fun x => if x.id == o.id then o' else x })) ∧
    ((∀ x ∈ o'.lanes, x.done = true) →
      ((∀ x ∈ o'.lanes, x.status = 0) → (∀ d, o.dest = some d → d < t.v.length) →
        ∃ s' t', out = .next s' ∧ s'.troupe? t.uid = some t' ∧ Quiet s1 s' t false ∧ RegistersOnly (withoutOp t o) t' ∧
          SameScalars t t' ∧ t'.fflags = t.fflags ∧ t'.park = .run ∧ t'.declined = [] ∧
          t'.pc = t.pc + BitVec.ofNat 64 t.parkResume.len ∧
          (if t.parkResume.ends = true then t'.pos = ActPos.fresh ∧ t'.actSerial = t.actNext ∧ t'.actNext = t.actNext + 1
           else t'.pos = t.pos.advance false
               (.lane ((List.range 96).map fun i => if t.active i then (resultOf o' i).setWidth 64 else 0)) ∧
             t'.actSerial = t.actSerial ∧ t'.actNext = t.actNext) ∧
          ∀ q i, i < 96 →
            rowGet (t'.vrow q) i = if o.dest = some q ∧ t.active i = true then resultOf o' i else rowGet (t.vrow q) i) ∧
      (∀ c a m, lowestTrap (o'.lanes.filterMap fun x => if x.status = 0 then none else some (x.lane, x.status, x.taddr)) =
          some (c, a, m) →
        Traps s1 (withoutOp t o) (BitVec.ofNat 32 c) a m t.parkResume out))

/-- R278-R280: the succinct queries, at issue and at the memory side. -/
def Obligations.Queries : Prop := Claim.QueryResults ∧ Claim.QueryPerformed

/-- R286, R287: BSINS and BSDEL. A handle of 2^20 or more traps ILLEGAL-OPERAND; that every active lane is then in tmask is the
model's choice (log 117). With no active lane the instruction takes its number on tl4, which completes at once. With counts in
1 to 64 and a region that no edit and no bank command holds, no earlier access of global memory in flight, and nothing for
the memory side to raise, it takes its number, holds the region's lock, goes into flight, and st rises. While an edit holds
the region, it waits for the lock. -/
def Sys2Proof.Claim.EditIssue : Prop :=
  ∀ p ∈ [(Instr.bsins, true), (Instr.bsdel, false)], ∀ f s t, Issues false (editOf p.2) f s t →
    let h := (t.sreg (Fields.xs f)).toNat
    (2 ^ 20 ≤ h → Traps s t 2 0 t.act (resumption false false f t) (exec (p.1 f) s)) ∧
    (h < 2 ^ 20 → t.act = 0 →
      TroupeResult false f ((numbered s t.cid).completeTl t.cid 4) t .none t (exec (p.1 f) s)) ∧
    (∀ s1 g, h < 2 ^ 20 → t.act ≠ 0 → t.st < 63 → (∀ i ∈ activeLanes t, 1 ≤ (t.c32 f i).toNat ∧ (t.c32 f i).toNat ≤ 64) →
      s.handleRegion t h = .ok s1 g →
      (g.edit = none → t.ops.all (·.isSpad) = true → s1.stringHeld g = false → s1.editChecks g p.2 (editRequests p.2 f t) = [] →
        ∃ n, (∀ c, (numbered s1 t.cid).company? t.cid = some c → n = (c.tls.getD 4 ⟨0, 0⟩).issued) ∧
          TroupeResult false f ((numbered s1 t.cid).updRegion g.r.hdie g.root g.ra fun g =>
              { g with waiting := g.waiting.filter (· != t.uid),
                       edit := some { uid := t.uid, op := t.nextOp, lane := (activeLanes t).headD 0,
                                      phase := if s1.regionState g = 2 then 4 else 0 } }) t .none
            (withOp t (sideOp s1 t (.edit p.2 n) none ((activeLanes t).map fun i =>
              sideLane i (t.a32 f i).toNat g (if p.2 then (t.b64 f i).setWidth 128 else 0) (BitVec.ofNat 64 (t.c32 f i).toNat))
              true))
            (exec (p.1 f) s)) ∧
      (g.edit ≠ none →
        Waits (s1.updRegion g.r.hdie g.root g.ra fun g =>
          { g with waiting := if g.waiting.contains t.uid then g.waiting else g.waiting ++ [t.uid] }) t .interlock
          (resumption false false f t) (exec (p.1 f) s)))

/-- R286, R288, R289: the contents that an edit gives a string line, bit by bit; and the steps of the edit that holds a region,
whose next one EDIT_PERFORM takes: it opens the journal, with STATE 2; then for each line, from the first one on, it writes
the image line and JPH = 1, writes the string line, whose block turns stale, and clears JPH and advances JLINE; past the last
line it sets LEN, clears JOP and sets STATE 1, and the next lane follows, or the lock is free and st falls. While STATE is 2
only an edit whose lowest lane equals the journal's goes in; it writes its number to JTL and goes on, from the line where
JPH is 1, else from the image. EDIT_INTERRUPT of a region whose launch is being ended stops that edit; that it otherwise
stands for a reset of the die's memory side and stops every edit there is the model's choice (log 60). -/
def Sys2Proof.Claim.EditSteps : Prop :=
  (∀ (s : State) g insert len p n x b i k, i < 192 → k < 8 → p ≤ len → (insert = false → p + n ≤ len) →
    ((s.editLine g insert len p n x b).getD i 0).getLsbD k =
      editedBit insert len p n x (s.strBit g) (1536 * b + 8 * i + k)) ∧
  (∀ (s : State) t o insert n r0 rest g job r, s.troupe? t.uid = some t → t.op? o.id = some o → o.kind = .edit insert n →
    o.lanes = r0 :: rest → s.region? r0.psize (s.rootOf t.lid) r0.pa = some g → g.edit = some job → job.uid = t.uid →
    job.op = o.id → o.lanes.find? (·.lane == job.lane) = some r →
    exec (.editPerform t.uid o.id) s =
      .next (if s.launchEnding t.lid then s.stopEdit g else s.editStep t o insert n g job r)) ∧
  (∀ (s : State) t o insert (num : DWord) (g : Region) job (r : LaneReq), Apart g → CleanString s g → s.poison = [] →
    s.region? g.r.hdie g.root g.ra = some g → g.edit = some job → r.addr < 2 ^ 32 → 1 ≤ r.cmp.toNat → r.cmp.toNat ≤ 64 →
    let j := journal s g
    let len := s.dirGet g 0x10 4
    let n := r.cmp.toNat
    let x := r.data.toNat % 2 ^ n
    let s' := s.editStep t o insert num g job r
    let image : Prop :=
      if pastLast insert len r.addr j.line = true then
        s'.dirGet g 0x10 4 = (if insert then len + n else len - n) % 2 ^ 32 ∧ s'.dirGet g 0x28 1 = 0 ∧ s'.dirGet g 0x0C 1 = 1 ∧
        (∀ b, b < 8 * g.r.ssize → s'.strBit g b = s.strBit g b) ∧
        match (o.setLane { r with done := true }).lanes.find? fun y => !y.done with
        | some y => (s'.region? g.r.hdie g.root g.ra).map (·.edit) = some (some { uid := t.uid, op := o.id, lane := y.lane, phase := 0 })
        | none => (s'.region? g.r.hdie g.root g.ra).map (·.edit) = some none
      else s'.dirGet g 0x2A 1 = 1 ∧ GoesOn s' g job 2 ∧
        (192 * j.line + 191 < g.r.ssize → len ≤ g.r.cap →
          ∀ i, i < 192 → cellGet s'.mem (g.dirPa (192 + i)) = (s.editLine g insert len r.addr n x j.line).getD i 0) ∧
        OnlyDirectory s s' g fun i => (192 ≤ i && i < 384) || i == 0x2A || (i ≥ 0x38 && i < 0x40)
    let line : Prop := (192 * j.line + 191 < g.r.ssize →
        (∀ i, i < 192 → cellGet s'.mem (g.strPa (192 * j.line + i)) = cellGet s.mem (g.dirPa (192 + i))) ∧
        (∀ i, i < g.r.ssize → i / 192 ≠ j.line → cellGet s'.mem (g.strPa i) = cellGet s.mem (g.strPa i))) ∧
      GoesOn s' g job 3 ∧ s'.poison = []
    (job.phase = 0 →
      journal s' g = ⟨if insert then 1 else 2, n, 0, r.addr, x % 2 ^ 64, num.toNat, firstLine insert len r.addr n % 2 ^ 32⟩ ∧
      s'.dirGet g 0x0C 1 = 2 ∧ GoesOn s' g job 1 ∧ OnlyDirectory s s' g fun i => i == 0x0C || (0x28 ≤ i && i < 0x44)) ∧
    (job.phase = 1 → image) ∧ (job.phase = 2 → line) ∧
    (job.phase = 3 → s'.dirGet g 0x2A 1 = 0 ∧ GoesOn s' g job 1 ∧
      s'.dirGet g 0x40 4 = (if insert then j.line + 2 ^ 32 - 1 else j.line + 1) % 2 ^ 32) ∧
    (job.phase = 4 → (j.phase ≠ 1 ∨ 192 * j.line + 191 < g.r.ssize → s'.dirGet g 0x38 8 = num.toNat) ∧ (if j.phase = 1 then line else image))) ∧
  (∀ (s : State) g insert q qs, s.regionState g = 2 → s.summaryLost g = false → finishesJournal s g insert q = false →
    s.editChecks g insert (q :: qs) = (q :: qs).map fun y => (y.lane, 15, BitVec.ofNat 64 (journal s g).tl)) ∧
  (∀ (s : State) g insert (qs : List EditReq), (s.regionState g ≠ 2 ∨ ∃ q rest, qs = q :: rest ∧ finishesJournal s g insert q = true) →
    (s.editChecks g insert qs = [] ↔ ∀ i, (h : i < qs.length) →
      let len := (qs.take i).foldl (fun n y => if insert then n + y.n else n - y.n) (s.dirGet g 0x10 4)
      if insert then (qs[i]).p ≤ len ∧ len + (qs[i]).n ≤ g.r.cap else (qs[i]).p + (qs[i]).n ≤ len)) ∧
  (∀ (s : State) die region, ∃ s', exec (.editInterrupt die region) s = .next s') ∧
  (∀ (s : State) die region g job t, (s.die die).regions[region]? = some g → g.edit = some job → s.troupe? job.uid = some t →
    s.launchEnding t.lid = true → exec (.editInterrupt die region) s = .next (s.stopEdit g)) ∧
  (∀ (s : State) die region g job, (s.die die).regions[region]? = some g → g.edit = some job →
    (∀ t, s.troupe? job.uid = some t → s.launchEnding t.lid = false) →
    exec (.editInterrupt die region) s = .next ((s.die die).regions.foldl State.stopEdit s)) ∧
  (∀ (s : State) (g : Region) a, s.regionState g ≠ 2 → cellGet (s.stopEdit g).mem a = cellGet s.mem a)

/-- R286-R288: the edits, at issue and at the memory side. The model's choices: the mask of the handle's trap (log 117),
and a reset that stops every edit of the die (log 60). -/
def Obligations.Edits : Prop := Claim.EditIssue ∧ Claim.EditSteps
namespace Sys2Proof.Claim

open Sys2Proof.Machine

/-! ## Control flow (R84-R87, R93, R125-R130, R133) -/

/-- A control transfer completes (R48): nothing changes but the pc, which is `pc`, and the act, which is new; of the
troupe, what `u` says. -/
def Jumps (s : State) (t u : Troupe) (pc : DWord) (out : Host.Outcome State Fault Refusal) : Prop :=
  ∃ s' t', out = .next s' ∧ s'.troupe? t.uid = some t' ∧ Quiet s s' t true ∧
    t' = { u with pc := pc, park := .run, declined := [], pos := ActPos.fresh, actSerial := u.actNext, actNext := u.actNext + 1 }

/-- An instruction that completes and parks its troupe before the instruction at `pc`, in a new act (R136). -/
def Parks (s : State) (t : Troupe) (p : Park) (pc : DWord) (out : Host.Outcome State Fault Refusal) : Prop :=
  ∃ s' t', out = .next s' ∧ s'.troupe? t.uid = some t' ∧ Quiet s s' t true ∧
    t' = { t with pc := pc, park := p, declined := [], pos := ActPos.fresh, actSerial := t.actNext, actNext := t.actNext + 1 }

/-- A branch (R45): X.imm is the target. -/
def branchOf (dst : Dst) (a : Use) : Shape :=
  { dst := dst, long := true, a := a, ownImm := true, immMask := 0x7FFFF, closing := true }

/-- R45: the target, a signed count of words from the pc. -/
def targetAt (t : Troupe) (f : Fields) : DWord := BitVec.ofInt 64 (t.pc.toNat + 4 * (Fields.imm f).toInt)

/-- R46: the words from the BRD to its reconvergence point. -/
def distanceOf (f : Fields) : Nat := 128 * f.d.toNat + Fields.c f

def brdOf (f : Fields) : Shape :=
  { dst := .field, long := true, a := .triple, c := .field, ownImm := true, immMask := 0x7FFFF, closing := true,
    badField := decide (distanceOf f < 2) }

def brxOf (f : Fields) : Shape :=
  { dst := .none, long := true, a := .w32, ownXs := true, ownImm := true, immMask := 0x7FFFF, closing := true,
    badField := decide (Fields.xs f % 2 = 1) }

def brxlOf (f : Fields) : Shape :=
  { dst := .none, long := true, ownXs := true, ownImm := true, immMask := 0x7F, closing := true,
    badField := decide (Fields.xs f % 2 = 1), laneReg := some (Fields.x f 6 0) }

/-- The address of word k of a target table, and the target that a word gives (R66). -/
def entryAddress (table k : Nat) : Nat := (table + 4 * k) % 2 ^ 56
def entryTarget (table : Nat) (w : Nat) : DWord :=
  BitVec.ofInt 64 ((table : Int) + 4 * (BitVec.ofNat 32 w).toInt)

/-- The words of a table at these indices, read one after the other, with the state after. -/
def wordsAt (s : State) (t : Troupe) (table : Nat) : List Nat → Option (State × List Nat)
  | [] => some (s, [])
  | i :: rest =>
    match s.readNow t (entryAddress table i) 4 with
    | .got s1 bs => (wordsAt s1 t table rest).map fun r => (r.1, leNat bs :: r.2)
    | _ => none

def isGot (r : Fetched) (s : State) (w : Nat) : Prop := ∃ bs, r = .got s bs ∧ leNat bs = w

def brxlIndex (f : Fields) (t : Troupe) (i : Nat) : Nat := (rowGet (t.vrow (Fields.x f 6 0)) i).toNat

/-- The lanes of a group (R128). -/
def groupLanes (f : Fields) (t : Troupe) (g : Nat) : LaneMask := maskOf fun i => t.active i && decide (brxlIndex f t i = g)

/-- What a trapping instruction leaves in its latch for RET (R93). -/
def savedLatch (r : Resume) : LatchVal :=
  if r.leaves then (if r.laneSet then .lane (List.replicate 96 0) else .uni 0) else .none

/-! ## Special registers (R67) -/

def isWide (k : Nat) : Bool := decide (k ∈ [0, 1, 6, 7, 9, 10])

/-- What special register k reads as. -/
def special (s : State) (t : Troupe) (k : Nat) : DWord :=
  match k with
  | 0 => t.wid
  | 1 => s.clock
  | 2 => BitVec.ofNat 64 t.core
  | 3 => BitVec.ofNat 64 (t.core / 32)
  | 4 => BitVec.ofNat 64 (s.fabric.fxdevid.toNat % 2 ^ 18)
  | 5 => BitVec.ofNat 64 t.fflags.toNat
  | 6 => t.srseed
  | 7 => t.srctr
  | 8 => BitVec.ofNat 64 t.tcause.toNat
  | 9 => t.tpc
  | 10 => t.taddr
  | 11 => BitVec.ofNat 64 (t.tmask.toNat % 2 ^ 32)
  | 12 => BitVec.ofNat 64 (t.tmask.toNat / 2 ^ 32 % 2 ^ 32)
  | 13 => BitVec.ofNat 64 (t.tmask.toNat / 2 ^ 64)
  | 14 => BitVec.ofNat 64 t.mrp.toNat
  | 15 => BitVec.ofNat 64 t.gang.toNat
  | 16 => BitVec.ofNat 64 t.grpsel.toNat
  | _ => BitVec.ofNat 64 t.ldstat.toNat

/-- R132, R262: what SWR makes of the troupe; a register keeps the bits that it has. -/
def rewritten (t : Troupe) (k : Nat) (w : Nat) : Troupe :=
  match k with
  | 5 => { t with fflags := BitVec.ofNat 32 (w % 64) }
  | 6 => { t with srseed := BitVec.ofNat 64 w }
  | 7 => { t with srctr := BitVec.ofNat 64 w }
  | 16 => { t with grpsel := BitVec.ofNat 32 (w % 8) }
  | 17 => { t with ldstat := BitVec.ofNat 32 (w % 65536 / 256 * 256 + w % 2) }
  | _ => t

def getfmtShape : Shape := { dst := .scalar }
def waittlShape : Shape := { dst := .none, a := .w64, b := .w32 }

def srdOf (f : Fields) : Shape :=
  { dst := if isWide (Fields.x f 4 0) then .scalarPair else .scalar, long := true, ownImm := true, immMask := 0x1F,
    badField := decide (18 ≤ Fields.x f 4 0) }
def swrOf (f : Fields) : Shape :=
  { dst := .none, long := true, a := if isWide (Fields.x f 4 0) then .w64 else .w32, ownImm := true, immMask := 0x1F,
    badField := !decide (Fields.x f 4 0 ∈ [5, 6, 7, 16, 17]) }

/-! ## Synchronisation (R168-R185, R336) -/

/-- A uniform instruction with at most a scalar source A and no result. -/
def uniformOf (a : Use) (closing : Bool) : Shape := { dst := .none, a := a, closing := closing }

def timelineOf (s : State) (cid k : Nat) : Timeline :=
  match s.company? cid with
  | some c => c.tls.getD k ⟨0, 0⟩
  | none => ⟨0, 0⟩

def noMark (s : State) (t : Troupe) (k : Nat) (n : DWord) : Prop :=
  ∀ c, s.company? t.cid = some c → ∀ m ∈ c.marks, m.tl = k → m.uid = t.uid → n.toNat < m.n.toNat

/-- R177: what a completed wait on timeline k takes from the troupe's marks that it covers: their flags. -/
def covered (k : Nat) (n : DWord) (uid : Nat) (m : Mark) : Bool :=
  decide (m.tl = k ∧ m.uid = uid ∧ m.n.toNat ≤ n.toNat)

/-- R153: after a release at company scope the company's other accesses to the bytes of what is still in flight wait for it: each
operation keeps the clock of the first release that ordered it, and the widest scope. -/
def ordered (s : State) (t : Troupe) : Troupe :=
  { t with ops := t.ops.map fun e =>
      if e.id < t.nextOp then
        { e with released := match e.released with
            | some (since, scope) => some (since, max scope 2)
            | none => some (s.clock.toNat, 2) }
      else e }

/-- R153: a release at company scope can be performed: no earlier operation in flight is an acquire, or waits on an empty line. -/
def CanRelease (s : State) (t : Troupe) : Prop :=
  ∀ e ∈ t.ops, e.id < t.nextOp → e.acquire = false ∧ s.groupWaits t.lid t.cid e = false

/-- Nothing that other troupes have in flight is ordered before what troupe `t` does from now on, by a release of a scope that takes
`t` in (R153). -/
def NoneOrdered (s : State) (t : Troupe) : Prop :=
  ∀ u ∈ s.troupes, ∀ e ∈ u.ops, ∀ since scope, e.released = some (since, scope) → since ≤ s.clock.toNat → u.uid ≠ t.uid →
    u.within t scope = false

/-- A core's L1 after an acquire at company scope (R145): the owned lines alone. -/
def acquired (s : State) (core : Nat) : State := s.updCore core fun c => { c with l1 := c.l1.filter (·.owned) }

def barrierOf (s : State) (cid b : Nat) : Barrier :=
  match s.company? cid with
  | some c => c.barriers.getD b ⟨0, 0, 0, false⟩
  | none => ⟨0, 0, 0, false⟩

/-- The companies with barrier b of one company replaced. -/
def withBarrier (s : State) (cid b : Nat) (x : Barrier) : State :=
  s.updCompany cid fun c => { c with barriers := putAt c.barriers b x ⟨0, 0, 0, false⟩ }

def fieldOne (s : State) (t : Troupe) : Nat :=
  match s.launch? t.lid with
  | some l => l.hdr.f1 t.wid
  | none => 0

def yieldcOf (f : Fields) : Shape :=
  { dst := .none, long := true, a := if Fields.c f < 8 then .w64 else .w32, c := .field, ownImm := true, immMask := 0x7FFFF,
    closing := true, badModifier := decide (8 < Fields.c f) }

def fenceOf (f : Fields) : Shape :=
  let m := Fields.x f 5 5
  let sc := Fields.x f 4 2
  let ord := Fields.x f 1 0
  { dst := .none, long := true, ownImm := true, immMask := 0x3F,
    badModifier := decide (sc = 0 ∨ sc = 7 ∨ ord = 0 ∨ (m = 1 ∧ (ord = 1 ∨ sc < 4))) }

end Sys2Proof.Claim

/-! ## Control flow -/

/-- R45, R125, R129: BRA, BRC.z, BRC.nz, CALL and, outside a trap, RET move the pc to their target, in a new act, and change nothing
else; CALL leaves the address of the next instruction in its pair; a return address that is no multiple of 4 traps MISALIGNED. -/
def Sys2Proof.Claim.BranchResults : Prop :=
  (∀ f s t, Issues true (branchOf .none .no) f s t → Jumps s t t (targetAt t f) (exec (.bra f) s)) ∧
  (∀ f s t, Issues true (branchOf .none .w32) f s t →
    Jumps s t t (if t.ua f = 0 then targetAt t f else t.pc + 8) (exec (.brcZ f) s) ∧
    Jumps s t t (if t.ua f = 0 then t.pc + 8 else targetAt t f) (exec (.brcNz f) s)) ∧
  (∀ f s t, Issues true (branchOf .scalarPair .no) f s t →
    ∃ u, Jumps s t u (targetAt t f) (exec (.call f) s) ∧ u = { t with s := u.s, act := u.act } ∧
      ∀ j, j < 64 → u.sreg j = scalarAfter t (fun k => if f.n then none else two f.d (t.pc + 8) k) j) ∧
  (∀ f s t, Issues true (uniformOf .w64 true) f s t → t.trap = false →
    ((t.ua64 f).toNat % 4 = 0 → Jumps s t t (t.ua64 f) (exec (.ret f) s)) ∧
    ((t.ua64 f).toNat % 4 ≠ 0 → Traps s t 6 (t.ua64 f) 0 (resumption true false f t) (exec (.ret f) s)))

/-- R84, R126: BRD. With lanes of both kinds it pushes the lanes not taken, with the point where they rejoin, and goes on with
the lanes taken at its target; with lanes of one kind it goes there without a push; with a full stack it traps. -/
def Sys2Proof.Claim.DivergingBranch : Prop :=
  ∀ f s t, Issues true (brdOf f) f s t →
    let taken := t.triple f.a.toNat &&& t.act
    let other := t.act &&& ~~~(t.triple f.a.toNat)
    (t.stack.length = 24 → Traps s t 4 0 0 (resumption true false f t) (exec (.brd f) s)) ∧
    (t.stack.length ≠ 24 → taken = 0 → Jumps s t t (t.pc + 8) (exec (.brd f) s)) ∧
    (t.stack.length ≠ 24 → taken ≠ 0 → other = 0 → Jumps s t t (targetAt t f) (exec (.brd f) s)) ∧
    (t.stack.length ≠ 24 → taken ≠ 0 → other ≠ 0 →
      Jumps s t { t with
        act := taken,
        stack := { rpc := t.pc + BitVec.ofNat 64 (4 * distanceOf f), ft := t.pc + 8, full := t.act, nt := other, fmt := t.fmt,
                   phase := false } :: t.stack } (targetAt t f) (exec (.brd f) s))

/-- R45, R46, R84, R125, R126, R129: branches, calls, returns, and the diverging branch. -/
def Obligations.Branches : Prop := Claim.BranchResults ∧ Claim.DivergingBranch

/-- R66, R127: BRX goes to the entry of its index; a table that is no multiple of 4 traps MISALIGNED, an index at or above the
table's size BAD-TARGET, with the table's address. That the table's address and those of its words are taken modulo 2^56 is
the model's choice (log 127). -/
def Sys2Proof.Claim.IndexedBranch : Prop :=
  ∀ f s t, Issues true (brxOf f) f s t →
    let table := globalAddr (t.spair (Fields.xs f)) 0 (Fields.disp f 19)
    let i := (t.ua f).toNat
    (table % 4 ≠ 0 → Traps s t 6 (BitVec.ofNat 64 table) 0 (resumption true false f t) (exec (.brx f) s)) ∧
    (∀ s1 n, table % 4 = 0 → isGot (s.readNow t table 4) s1 n →
      (n ≤ i → Traps s t 5 (BitVec.ofNat 64 table) 0 (resumption true false f t) (exec (.brx f) s)) ∧
      (∀ s2 w, i < n → isGot (s1.readNow t (entryAddress table (i + 2)) 4) s2 w →
        Jumps s2 t t (entryTarget table w) (exec (.brx f) s)))

/-- R128: BRX.l. The lanes with equal index form groups; the group of the lowest index goes on at its target, and the others wait
on the stack in order of their index, to join at the target of word 1. An index at or above the table's size traps BAD-TARGET in the
lanes that hold one; groups that do not fit in the 24 stack entries trap STACK-OVERFLOW. The addresses modulo 2^56 are the model's
choice (log 127). -/
def Sys2Proof.Claim.LaneIndexedBranch : Prop :=
  ∀ f s t, Issues true (brxlOf f) f s t →
    let table := globalAddr (t.spair (Fields.xs f)) 0 0
    (table % 4 ≠ 0 → Traps s t 6 (BitVec.ofNat 64 table) 0 (resumption true false f t) (exec (.brxL f) s)) ∧
    (∀ s1 n, table % 4 = 0 → isGot (s.readNow t table 4) s1 n →
      (∀ i, i < 96 → t.active i = true → n ≤ brxlIndex f t i →
        Traps s t 5 (BitVec.ofNat 64 table) (maskOf fun i => t.active i && decide (n ≤ brxlIndex f t i))
          (resumption true false f t) (exec (.brxL f) s)) ∧
      (∀ groups : List Nat, (∀ i, i < 96 → t.active i = true → brxlIndex f t i < n) →
        groups.Pairwise (· < ·) → (∀ g, g ∈ groups ↔ ∃ i, i < 96 ∧ t.active i = true ∧ brxlIndex f t i = g) →
        25 < t.stack.length + groups.length →
        Traps s t 4 0 0 (resumption true false f t) (exec (.brxL f) s)) ∧
      (∀ groups g1 rest s2 ws, (∀ i, i < 96 → t.active i = true → brxlIndex f t i < n) →
        groups.Pairwise (· < ·) → (∀ g, g ∈ groups ↔ ∃ i, i < 96 ∧ t.active i = true ∧ brxlIndex f t i = g) →
        groups = g1 :: rest → t.stack.length + rest.length ≤ 24 →
        wordsAt s1 t table (1 :: groups.map (· + 2)) = some (s2, ws) →
        Jumps s2 t { t with
          act := groupLanes f t g1,
          stack := (rest.zip (ws.drop 2)).map (fun p =>
              { rpc := entryTarget table (ws.getD 0 0), ft := entryTarget table p.2, full := t.act, nt := groupLanes f t p.1,
                fmt := t.fmt, phase := false }) ++ t.stack }
          (entryTarget table (ws.getD 1 0)) (exec (.brxL f) s)))

/-- R66, R127, R128: the branches through a table. That table addresses wrap is the model's choice (log 127). -/
def Obligations.TableBranches : Prop := Claim.IndexedBranch ∧ Claim.LaneIndexedBranch

/-- R85: reconvergence, when the pc is the rpc of the top entry. Before the lanes not taken have run, they run, from the
fall-through address, in a new act, with the format of the divergence; after them the full mask, less exited lanes, and the format
return, and the entry goes. Where both addresses are one the entry goes at once. With no entry at the pc nothing happens. -/
def Obligations.Reconvergence : Prop :=
  ∀ (t : Troupe) n,
    (t.stack.all (·.rpc != t.pc) = true → reconverge t n = t) ∧
    ∀ e rest, t.stack = e :: rest → t.pc = e.rpc →
      (e.phase = false → e.ft ≠ e.rpc →
        reconverge t (n + 1) =
          { t with act := e.nt &&& ~~~t.exited, fmt := e.fmt, pc := e.ft, stack := { e with phase := true } :: rest,
                   pos := ActPos.fresh, actSerial := t.actNext, actNext := t.actNext + 1 }) ∧
      (e.phase = true → rest.all (·.rpc != e.rpc) = true →
        reconverge t (n + 1) = { t with act := e.full &&& ~~~t.exited, fmt := e.fmt, stack := rest }) ∧
      (e.phase = false → e.ft = e.rpc → rest.all (·.rpc != e.rpc) = true →
        reconverge t (n + 2) =
          { t with act := e.full &&& ~~~t.exited, fmt := e.fmt, stack := rest,
                   pos := ActPos.fresh, actSerial := t.actNext, actNext := t.actNext + 1 })

/-- R72, R73, R90, R133, R130: TRAP and BKPT take the user trap of their code, an opcode that no map assigns ILLEGAL-OPCODE, a fetch
without execute permission PERMISSION with the pc as address; NOP does nothing but go on. An access that the instruction at the pc
was waiting for is no longer waited for after a failed fetch: the model's choice (log 24). -/
def Sys2Proof.Claim.TrapInstructions : Prop :=
  (∀ f s t, Issues true (uniformOf .w32 true) f s t →
    Traps s t (BitVec.ofNat 32 (2 ^ 31 + (t.ua f).toNat % 65536)) 0 0 (resumption true false f t) (exec (.trap f) s)) ∧
  (∀ f s t, Issues true (uniformOf .no true) f s t →
    Traps s t 0x8000FFFF 0 0 (resumption true false f t) (exec (.bkpt f) s)) ∧
  (∀ f s t, Issues true (uniformOf .no false) f s t → TroupeResult true f s t .none t (exec (.nop f) s)) ∧
  (∀ (w : Word) s t, s.current = some t →
    Traps s t 1 0 0 { len := 4, laneSet := decide (w.toNat < 2 ^ 31), leaves := false,
                      ends := w.getLsbD 30 || decide (23 ≤ t.pos.kLane + t.pos.kUni), fetch := false }
      (exec (.unassignedOpcode w) s)) ∧
  (∀ s t, s.current = some t →
    Traps s t.leaveSync 7 t.pc 0 { len := 4, laneSet := false, leaves := false, ends := true, fetch := true }
      (exec .instructionFetchFault s)) ∧
  (∀ t : Troupe, Unawaited t → t.leaveSync = t)

/-- R93: RET in the handler. It discards the entries above the saved depth, restores the act registers (without lanes that have exited
since) and fmt, sets the trap state to 0 and resumes past the trapping instruction, which counts in its act and leaves 0 in its
latch if it had a result, unless the act ended with it; after a trap on a fetch at tpc + 4, in a new act. -/
def Sys2Proof.Claim.ReturnFromTrap : Prop :=
  ∀ f s t v, Issues true (uniformOf .w64 true) f s t → t.trap = true → t.saved = some v →
    ∃ s' t', exec (.ret f) s = .next s' ∧ s'.troupe? t.uid = some t' ∧ Quiet s s' t true ∧
      t' = { t with
        stack := t.stack.drop (t.stack.length - v.depth), act := v.act &&& ~~~t.exited, fmt := v.fmt, trap := false, saved := none,
        pc := t.tpc + (if v.resume.fetch then 4 else BitVec.ofNat 64 v.resume.len),
        pos := if v.resume.fetch ∨ v.resume.ends then ActPos.fresh
               else v.pos.advance (!v.resume.laneSet) (savedLatch v.resume),
        actSerial := if v.resume.fetch ∨ v.resume.ends then t.actNext else v.serial,
        actNext := if v.resume.fetch ∨ v.resume.ends then t.actNext + 1 else t.actNext }

/-- R72, R73, R90, R93, R130, R133: instructions that trap, NOP, and the return from a trap. -/
def Obligations.TrapsAndReturn : Prop := Claim.TrapInstructions ∧ Claim.ReturnFromTrap

/-! ## Special registers -/

/-- R67, R76, R131, R132: SETFMT, GETFMT, SRD and SWR. A read of ldstat waits while the troupe has a group load outstanding (R262). -/
def Obligations.SpecialRegisters : Prop :=
  (∀ f s t, Issues true (uniformOf .w32 false) f s t →
    TroupeResult true f s t .none { t with fmt := BitVec.ofNat 32 ((t.ua f).toNat % 2 ^ 15) } (exec (.setfmt f) s)) ∧
  (∀ f s t, Issues true getfmtShape f s t →
    ScalarResult true f s t 0 (.uni (t.fmt.setWidth 64)) (one f.d t.fmt) (exec (.getfmt f) s)) ∧
  (∀ f s t, let k := Fields.x f 4 0
    Issues true (srdOf f) f s t →
    if k = 17 ∧ t.ops.any isGroupLoad = true then Waits s t (s.stall t) (resumption true true f t) (exec (.srd f) s)
    else if isWide k then ScalarResult true f s t 0 (.uni (special s t k)) (two f.d (special s t k)) (exec (.srd f) s)
    else
      let x := BitVec.ofNat 32 (special s t k).toNat
      ScalarResult true f s t 0 (.uni (x.setWidth 64)) (one f.d x) (exec (.srd f) s)) ∧
  (∀ f s t, let k := Fields.x f 4 0
    Issues true (swrOf f) f s t →
    TroupeResult true f s t .none (rewritten t k (if isWide k then (t.ua64 f).toNat else (t.ua f).toNat)) (exec (.swr f) s))

/-! ## Synchronisation -/

/-- R168: WAIT completes when each count is at or below its limit and parks the troupe otherwise; bits that are no limit trap. -/
def Sys2Proof.Claim.WaitResults : Prop :=
  ∀ f s t, Issues true (uniformOf .w32 false) f s t →
    let a := (t.ua f).toNat
    let bad := 64 ≤ a % 256 ∨ 64 ≤ a / 2 ^ 8 % 256 ∨ 64 ≤ a / 2 ^ 16 % 256 ∨ 64 ≤ a / 2 ^ 24
    let within := t.ld ≤ a % 256 ∧ t.st ≤ a / 2 ^ 8 % 256 ∧ t.xc ≤ a / 2 ^ 16 % 256 ∧ t.ul ≤ a / 2 ^ 24
    (bad → Traps s t 2 0 0 (resumption true false f t) (exec (.wait f) s)) ∧
    (¬ bad → within → TroupeResult true f s t .none t (exec (.wait f) s)) ∧
    (¬ bad → ¬ within → Waits s t (.wait (t.ua f)) (resumption true false f t) (exec (.wait f) s))

/-- R176-R178: WAITTL completes when its timeline has reached its number, with an acquire at company scope, where the company holds no
fault mark of this troupe that the wait covers: the flags of the operations covered are ORed into fflags, and their marks go.
Otherwise it traps ENGINE-FAULT with the lowest fault mark. It parks the troupe before that. TLINC, a release at company
scope, moves both numbers of tl6 or tl7 on by 1. Other timelines trap. That a release at company scope waits only for earlier
acquires and loads on empty lines, and leaves the other accesses in order for the company, is the model's choice (log 21). -/
def Sys2Proof.Claim.TimelineResults : Prop :=
  (∀ f s t, Issues true waittlShape f s t →
    let k := (t.ub f).toNat
    let n := t.ua64 f
    (7 < k → Traps s t 2 0 0 (resumption true false f t) (exec (.waittl f) s)) ∧
    (k ≤ 7 → (timelineOf s t.cid k).reached.toNat < n.toNat → Waits s t (.waitTl k n) (resumption true false f t) (exec (.waittl f) s)) ∧
    (∀ c m, s.company? t.cid = some c → k ≤ 7 → n.toNat ≤ (timelineOf s t.cid k).reached.toNat → c.markedBy k n t.uid = some m →
      Traps (s.updCompany t.cid fun c => c.clearMark k m t.uid) t 15 m 0 (resumption true false f t) (exec (.waittl f) s)) ∧
    (∀ c, s.company? t.cid = some c → k ≤ 7 → n.toNat ≤ (timelineOf s t.cid k).reached.toNat → c.markedBy k n t.uid = none →
      TroupeResult true f (acquired (s.updCompany t.cid fun _ =>
          { c with marks := c.marks.filter fun m => !covered k n t.uid m }) t.core) t .none
        { t with fflags := t.fflags |||
            ((c.marks.filter (covered k n t.uid)).foldl (fun fl m => fl ||| m.flags) (0 : Flags)).setWidth 32 }
        (exec (.waittl f) s))) ∧
  (∀ f s t, Issues true (uniformOf .w32 false) f s t →
    let k := (t.ua f).toNat
    (k ≠ 6 → k ≠ 7 → Traps s t 2 0 0 (resumption true false f t) (exec (.tlinc f) s)) ∧
    (k = 6 ∨ k = 7 → CanRelease s t →
      TroupeResult true f (s.updCompany t.cid fun c =>
        let x := c.tls.getD k ⟨0, 0⟩
        c.setTl k { issued := satInc x.issued, reached := satInc x.reached }) t .none (ordered s t) (exec (.tlinc f) s)) ∧
    (k = 6 ∨ k = 7 → ¬ CanRelease s t → Waits s t (s.stall t) (resumption true false f t) (exec (.tlinc f) s)))

/-- R168, R176-R178: WAIT, WAITTL and TLINC. -/
def Obligations.WaitsAndTimelines : Prop := Claim.WaitResults ∧ Claim.TimelineResults

/-- R145, R153, R173, R174, R243: FENCE. An acquire waits for the earlier loads and atomics; a release at package scope or wider, and
.mem, for every earlier access, with the invalidations and maintenance they ask for; a release at a narrower scope does not
wait: the troupe's later stores and atomics keep its order. A fence that completes writes back the core's owned lines
(package scope, .mem) and, with acquire at company scope or wider, drops the other L1 lines. ROINV empties the read-only
cache. That a narrower release completes at once and leaves a mark for later stores is the model's choice (log 119), and so is that
a package fence waits for every invalidation of the package and for what other troupes' releases have ordered (log 21). -/
def Sys2Proof.Claim.FenceResults : Prop :=
  (∀ f s t, Issues true (fenceOf f) f s t →
    let mem := decide (Fields.x f 5 5 = 1)
    let sc := Fields.x f 4 2
    let acq := decide (Fields.x f 1 0 % 2 = 1)
    let rel := decide (2 ≤ Fields.x f 1 0)
    let pkg := rel && decide (5 ≤ sc)
    let s1 := if pkg || mem then s.releaseOwned t.core else s
    let s2 := if acq && decide (2 ≤ sc) then acquired s1 t.core else s1
    let done : Prop := TroupeResult true f s2 t .none
      (if rel && decide (2 ≤ sc) && !pkg then
        { t with fences := (t.nextOp, sc) ::
            t.fences.filter fun x => !(t.ops.all (fun e => decide (x.1 ≤ e.id)) && s2.releaseOk t x.1 x.2 s2.clock.toNat) }
      else t) (exec (.fence f) s)
    (acq = false → mem = false → pkg = false → done) ∧
    (mem = false → pkg = false → (∀ o ∈ t.ops, o.storesOnly = true) → done) ∧
    (t.ops = [] → (pkg = true → s.invals = [] ∧ NoneOrdered s t) →
      (mem = true → ∀ c, s.company? t.cid = some c → c.ops.all (fun o => o.uid != t.uid || !o.kind.isMaint) = true) → done) ∧
    ((acq || mem || pkg) = true → t.ops.any (fun o => !o.storesOnly) = true →
      Waits s t (.fence (mem || pkg) mem pkg) (resumption true false f t) (exec (.fence f) s)) ∧
    ((mem || pkg) = true → t.ops ≠ [] →
      Waits s t (.fence (mem || pkg) mem pkg) (resumption true false f t) (exec (.fence f) s)) ∧
    (pkg = true → s.invals ≠ [] ∨ ¬ NoneOrdered s t →
      Waits s t (.fence (mem || pkg) mem pkg) (resumption true false f t) (exec (.fence f) s))) ∧
  (∀ f s t, Issues true (uniformOf .no false) f s t →
    TroupeResult true f (s.updCore t.core fun c => { c with ro := [] }) t .none { t with roinvAt := t.nextOp } (exec (.roinv f) s))

/-- R179, R180: YIELD parks the troupe until the troupes of its quarter that are ready now have had their turn; YIELDC parks it at its pc
with the condition it waits for, a timeline number or a full line, and the place where it goes on; an offset outside the scratchpad
traps SPAD-RANGE. -/
def Sys2Proof.Claim.YieldResults : Prop :=
  (∀ f s t, Issues true (uniformOf .no true) f s t →
    Parks s t (.yield (((s.readyIn t.core t.quarter).map (·.uid)).filter (· != t.uid))) (t.pc + 4) (exec (.yield f) s)) ∧
  (∀ f s t, Issues true (yieldcOf f) f s t →
    (Fields.c f < 8 → Parks s t (.yieldTl (Fields.c f) (t.ua64 f) (targetAt t f)) t.pc (exec (.yieldc f) s)) ∧
    (Fields.c f = 8 → (t.ua f).toNat < spadSize s t →
      Parks s t (.yieldFull ((t.ua f).toNat / 192) (targetAt t f)) t.pc (exec (.yieldc f) s)) ∧
    (Fields.c f = 8 → spadSize s t ≤ (t.ua f).toNat →
      Traps s t 8 (BitVec.ofNat 64 (t.ua f).toNat) 0 (resumption true false f t) (exec (.yieldc f) s)))

/-- R145, R173, R174, R179, R180: FENCE, ROINV, YIELD and YIELDC. What a fence waits for is the model's choice (log 21,
119). -/
def Obligations.FencesAndYields : Prop := Claim.FenceResults ∧ Claim.YieldResults

/-- R182-R184: named barriers. BARI sets the number expected while none has arrived; BARA
arrives; BARW arrives and parks; each is a release at company scope. The last of them begins the next phase and lets the troupes
parked by BARW and BARO go on, with an acquire; BARO completes once the phase it has arrived in is over. An arrival that the
barrier does not expect traps. What the release waits for, and that it leaves the other accesses in order for the company, is
the model's choice (log 21). -/
def Sys2Proof.Claim.BarrierResults : Prop :=
  (∀ f s t, Issues true (uniformOf .w32 false) f s t →
    let a := (t.ua f).toNat
    let n := a / 16
    let x := barrierOf s t.cid (a % 16)
    (512 ≤ a ∨ n = 0 ∨ s.troupesOf t.lid < n ∨ (x.arrived ≠ 0 ∧ x.expected ≠ n) →
      Traps s t 2 0 0 (resumption true false f t) (exec (.bari f) s)) ∧
    (a < 512 → n ≠ 0 → n ≤ s.troupesOf t.lid → x.arrived = 0 →
      TroupeResult true f (withBarrier s t.cid (a % 16) { x with expected := n }) t .none t (exec (.bari f) s)) ∧
    (a < 512 → n ≠ 0 → n ≤ s.troupesOf t.lid → x.arrived ≠ 0 → x.expected = n → TroupeResult true f s t .none t (exec (.bari f) s))) ∧
  (∀ p ∈ [(Instr.bara, false), (Instr.barw, true)], ∀ f s t, Issues true (uniformOf .w32 p.2) f s t →
    let b := (t.ua f).toNat
    let x := barrierOf s t.cid b
    let k := fieldOne s t
    (16 ≤ b ∨ x.expected = 0 ∨ x.mask.getLsbD k = true →
      Traps s t 2 0 0 (resumption true false f t) (exec (p.1 f) s)) ∧
    (b < 16 → x.expected ≠ 0 → x.mask.getLsbD k = false → ¬ CanRelease s t →
      Waits s t (s.stall t) (resumption true false f t) (exec (p.1 f) s)) ∧
    (b < 16 → x.expected ≠ 0 → x.mask.getLsbD k = false → CanRelease s t → x.arrived + 1 ≠ x.expected →
      let s1 := withBarrier s t.cid b { x with arrived := x.arrived + 1, mask := x.mask ||| BitVec.ofNat 16 (2 ^ k) }
      if p.2 then Parks s1 (ordered s t) (.barw b) (t.pc + if f.ext = .none then 4 else 8) (exec (p.1 f) s)
      else TroupeResult true f s1 t .none (ordered s t) (exec (p.1 f) s)) ∧
    (b < 16 → x.expected ≠ 0 → x.mask.getLsbD k = false → CanRelease s t → x.arrived + 1 = x.expected →
      let s1 := acquired (withBarrier s t.cid b { x with arrived := 0, mask := 0, phase := !x.phase }) t.core
      TroupeResult true f { s1 with troupes := s.troupes.map fun u =>
          if u.cid = t.cid ∧ (u.park = .barw b ∨ ∃ ph, u.park = .baro b ph) then { u with park := .run } else u } t .none
        (ordered s t) (exec (p.1 f) s))) ∧
  (∀ f s t, Issues true (uniformOf .w32 false) f s t →
    let b := (t.ua f).toNat
    let x := barrierOf s t.cid b
    (16 ≤ b → Traps s t 2 0 0 (resumption true false f t) (exec (.baro f) s)) ∧
    (b < 16 → x.mask.getLsbD (fieldOne s t) = true → Waits s t (.baro b x.phase) (resumption true false f t) (exec (.baro f) s)) ∧
    (b < 16 → x.mask.getLsbD (fieldOne s t) = false →
      TroupeResult true f (acquired s t.core) t .none t (exec (.baro f) s)))

/-- R336: GBAR of an all-resident launch, a release at package scope, parks the troupe behind it once it has no access in flight, other
troupes none that a release has ordered before it, and no invalidation stands in the package; before that it waits. What it
waits for is the model's choice (log 21). GBAR_ARRIVAL counts it; another launch, or a counter of 16 or more, traps. -/
def Sys2Proof.Claim.GridBarrier : Prop :=
  (∀ f s t, Issues true (uniformOf .w32 true) f s t →
    let k := (t.ua f).toNat
    let resident := match s.launch? t.lid with | some l => l.hdr.resident | none => false
    (16 ≤ k ∨ resident = false → Traps s t 2 0 0 (resumption true false f t) (exec (.gbar f) s)) ∧
    (k < 16 → resident = true → t.ops = [] → s.invals = [] → NoneOrdered s t →
      Parks (s.releaseOwned t.core) t (.gbar k false) (t.pc + if f.ext = .none then 4 else 8) (exec (.gbar f) s)) ∧
    (k < 16 → resident = true → t.ops ≠ [] ∨ s.invals ≠ [] ∨ ¬ NoneOrdered s t →
      Waits s t (s.stall t) (resumption true false f t) (exec (.gbar f) s))) ∧
  (∀ (s : State) t k, s.troupe? t.uid = some t → t.park = .gbar k false →
    exec (.gbarArrival t.uid) s = .next (((s.setTroupe { t with park := .gbar k true }).updLaunch t.lid fun l =>
      { l with gbars := listModify l.gbars k fun g => { g with arrived := g.arrived + 1 } }).gbarTest t.lid k))

/-- R182-R184, R336: the named barriers of a company and the grid barrier of a launch. What a release waits for is the
model's choice (log 21). -/
def Obligations.Barriers : Prop := Claim.BarrierResults ∧ Claim.GridBarrier

/-- R87, R141, R150, R181: TAIL with other lanes waiting on the stack sets its active lanes exited and goes on where the lanes meet;
TAIL by the last lanes retires the troupe: its registers, stack and slot are free, the launch counts it, its unfinished stores,
atomics, counter operations and edits go on while its loads are gone (and no instruction waits for them any more), and a tracker
entry of its core holds them and its engine operations. Where it needs an entry and none of the 16 is free, it waits. -/
def Obligations.TailResults : Prop :=
  ∀ f s t, Issues true (uniformOf .no true) f s t →
    let last : Prop := t.stack = [] ∨ t.trap = true ∨ t.exited ||| t.act = -1
    (∀ e rest, t.stack = e :: rest → t.trap = false → t.exited ||| t.act ≠ -1 →
      Jumps s t { t with exited := t.exited ||| t.act, act := 0 } e.rpc (exec (.tail f) s)) ∧
    (last → (s.outstanding t = false ∨ (s.core t.core).trackers.length < 16) →
      ∃ s' t', exec (.tail f) s = .next s' ∧ s'.troupe? t.uid = some t' ∧ t'.retired = true ∧ t'.resident = false ∧ t'.v = [] ∧
        t'.s = [] ∧ t'.stack = [] ∧ s'.mem = s.mem ∧
        t'.ops = (t.ops.filter fun o => (match o.kind with
          | .loadG _ | .ldro _ | .loadSp | .ldgr _ | .query _ => false
          | _ => true) && o.lanes.any (fun r => !r.done)).map (fun o => { o with sync := false }) ∧
        (t.core < s.cores.length → (s'.core t.core).trackers = (s.core t.core).trackers ++
          if s.outstanding t then [{ uid := t.uid, cid := t.cid, lid := t.lid }] else []) ∧
        (∀ l, s.launch? t.lid = some l → ∃ l', s'.launch? t.lid = some l' ∧ l'.retiredWids = t.wid :: l.retiredWids ∧
          l'.troupesRetired = l.troupesRetired + 1) ∧
        ((∀ u ∈ s.troupes, u.uid ≠ t.uid → u.resident = true → u.core = t.core → u.quarter = t.quarter → u.slot ≠ t.slot) →
          ∀ u ∈ s'.troupes, u.resident = true → u.core = t.core → u.quarter = t.quarter → u.slot ≠ t.slot)) ∧
    (last → s.outstanding t = true → 16 ≤ (s.core t.core).trackers.length →
      Waits s t .interlock (resumption true false f t) (exec (.tail f) s))
namespace Sys2Proof.Claim

open Sys2Proof.Machine

/-! ## Engines (R175, R187, R210) -/

/-- What the issue of an engine instruction, a release at system scope, waits for: no access of the troupe is in flight, none of
another troupe that a release has ordered before it, and no invalidation stands in the package. R187 and R210 only say that it is
a release; what a release waits for is the model's choice (log 21). -/
def Settled (s : State) (t : Troupe) : Prop := t.ops = [] ∧ s.invals = [] ∧ NoneOrdered s t

/-- Nothing has changed but the order of a record cache's entries (R149). -/
def OnlyRecords (s s' : State) : Prop :=
  s' = { s with cores := s'.cores } ∧
  s'.cores.map (fun (c : Core) => { c with recs := [] }) = s.cores.map fun (c : Core) => { c with recs := [] }

/-- The record cache of the troupe's core holds the bytes of a handle that the launch has (R149). -/
def RecordHeld (s : State) (t : Troupe) (h : Nat) (bs : List Byte) : Prop :=
  (∃ l, s.launch? t.lid = some l ∧ h < l.hdr.hcount) ∧
  ∃ r, (s.core t.core).recs.find? (fun r => r.lid == t.lid && r.handle == h) = some r ∧ r.data = bs

/-- R175: an operation is accepted on timeline `tl` of the troupe's company: its number `n` is issued(tl) + 1, which issued(tl)
becomes; the lines `lines` of the scratchpad become empty; nothing else of the machine changes. -/
def Accepts (g : EngOp → EngOp) (s s2 : State) (t : Troupe) (tl : Nat) (kind : EngKind) (todo : List (Nat × Nat))
    (lines : List Nat) (n : DWord) : Prop :=
  ∃ c c', s.company? t.cid = some c ∧ s2.company? t.cid = some c' ∧ n = satInc (c.tls.getD tl ⟨0, 0⟩).issued ∧
    (∀ k, c'.tls.getD k ⟨0, 0⟩ =
      if k = tl then { issued := n, reached := (c.tls.getD tl ⟨0, 0⟩).reached } else c.tls.getD k ⟨0, 0⟩) ∧
    c'.ops = c.ops ++ [g { newEngOp s.nextId (some tl) n t.uid kind todo with emptied := lines.filter fun l => decide (l ∉ c.emptyLines) }] ∧
    (∀ l, l ∈ c'.emptyLines ↔ l ∈ c.emptyLines ∨ l ∈ lines) ∧
    c' = { c with tls := c'.tls, ops := c'.ops, emptyLines := c'.emptyLines } ∧
    (∀ k, k ≠ t.cid → s2.company? k = s.company? k) ∧
    s2 = { s with companies := s2.companies, nextId := s.nextId + 1 }

/-- An engine instruction completes: the core's owned lines are written back (R245), the operation is accepted, its number goes to D
(N = 0), and of the troupe's special registers only what `u` says changes; `post` is what else the acceptance does. -/
def EngineResult (f : Fields) (s : State) (t u : Troupe) (g : EngOp → EngOp) (tl : Nat) (kind : EngKind) (todo : List (Nat × Nat))
    (lines : List Nat) (post : State → State) (out : Host.Outcome State Fault Refusal) : Prop :=
  ∃ s2 n, Accepts g (s.releaseOwned t.core) s2 t tl kind todo lines n ∧ ScalarResult true f (post s2) u 0 (.uni n) (two f.d n) out

/-! ### Copies (R186, R189, R348, R349) -/

def cpyOf (f : Fields) : Shape :=
  let ss := Fields.x f 3 2
  let ds := Fields.x f 1 0
  let rs := decide (Fields.x f 5 5 = 1)
  let rd := decide (Fields.x f 4 4 = 1)
  let stg := decide (Fields.x f 6 6 = 1)
  { dst := .scalarPair, long := true, a := if ds = 0 then .w64 else .w32, b := if ss = 0 then .w64 else .w32, c := .w32,
    ownXs := rs || rd, ownImm := true, immMask := 0x7F,
    badModifier := decide (1 < ss ∨ 1 < ds) || (stg && decide (ds = 0)) || (rs && rd) || (rs && decide (ss = 1)) ||
      (rd && decide (ds = 1)) }

def cpylOf (f : Fields) : Shape :=
  { dst := .scalarPair, long := true, a := .w32, b := .w32, ownImm := true, immMask := 0x3F,
    badModifier := decide (1 < Fields.x f 1 0) || decide (4 < Fields.x f 4 2) }
def gangShape : Shape := { dst := .none, long := true, a := .w32, ownImm := true, immMask := 0x7 }
def bkloadOf (f : Fields) : Shape :=
  { dst := .scalarPair, long := true, a := .w64, b := .w32, ownXs := true, zeroImm := true,
    badField := decide (Fields.xs f % 2 ≠ 0) }
def maintOf (f : Fields) : Shape :=
  { dst := .scalarPair, long := true, a := .w32, ownXs := true, ownImm := true, immMask := 0x7FFFF,
    badField := decide (Fields.xs f % 2 ≠ 0) }

def copyTo (f : Fields) (t : Troupe) : Nat := if Fields.x f 1 0 = 1 then (t.ua f).toNat else (t.ua64 f).toNat % 2 ^ 56
def copyFrom (f : Fields) (t : Troupe) : Nat := if Fields.x f 3 2 = 1 then (t.ub f).toNat else (t.ub64 f).toNat % 2 ^ 56

/-- The other device of a remote copy, and whether it is the destination (R348): a copy that names this device is a local one. -/
def remoteOf (f : Fields) (s : State) (t : Troupe) : Option (Bool × Nat) :=
  let dev := (t.sreg (Fields.xs f)).toNat
  if (Fields.x f 5 5 = 1 ∨ Fields.x f 4 4 = 1) ∧ dev ≠ s.fabric.fxdevid.toNat % 2 ^ 18 then
    some (decide (Fields.x f 4 4 = 1), dev)
  else none

/-- R349: the top 32 bytes of a remote address space take atomic requests, of 32 bytes. -/
def meetsTop (f : Fields) (s : State) (t : Troupe) : Bool :=
  match remoteOf f s t with
  | some (true, _) => decide (0 < (t.uc f).toNat) && decide (2 ^ 56 - 32 < copyTo f t + (t.uc f).toNat)
  | _ => false
def isRequest (f : Fields) (s : State) (t : Troupe) : Bool :=
  meetsTop f s t && decide (copyTo f t = 2 ^ 56 - 32) && decide ((t.uc f).toNat = 32)

/-- Lines of 192 bytes that a range of the scratchpad meets. -/
def linesWith (off n : Nat) : List Nat := ((List.range (off + n)).map (· / 192)).filter fun l => decide (off < 192 * (l + 1) ∧ 0 < n)

/-! ### Matrix engine (R206-R222) -/

def mmaOf (f : Fields) : Shape :=
  { dst := .scalarPair, long := true, ownXs := true, ownImm := true, immMask := 0xFF,
    badModifier := decide (Fields.x f 6 5 = 3),
    badField := decide (Fields.xs f % 8 ≠ 0) || decide (48 < Fields.xs f) }

/-- Parameter register i of an instruction whose X.s names the first. -/
def parameter (f : Fields) (t : Troupe) (i : Nat) : Nat := (t.sreg (Fields.xs f + i)).toNat

/-- R207, R209: what MMA requires of its parameters and of fmt. -/
def mmaAccepted (f : Fields) (t : Troupe) : Bool :=
  let sm := t.fmt.toNat / 2 ^ 12 % 4
  let p := parameter f t
  mmaParamsOk (decide (Fields.x f 3 3 = 1)) (decide (Fields.x f 4 4 = 1)) (Fields.x f 6 5) p &&
  mmaModeOk (decide (Fields.x f 4 4 = 1)) (decide (Fields.x f 7 7 = 1)) (Fields.x f 6 5) sm
    (mmaRule? sm (t.fmt.toNat % 16) (t.fmt.toNat / 16 % 16)) (p 4 % 2 ^ 17) (p 4 / 2 ^ 17 % 2 ^ 10)

def mdrainOf (f : Fields) : Shape :=
  let df := Fields.x f 8 5
  let tf := Fields.x f 15 12
  let tr := decide (Fields.x f 4 4 = 1)
  let listed (c : Nat) : Bool := decide (c ≤ 8) || decide (c = 10)
  { dst := .scalarPair, long := true, ownXs := true, ownImm := true, immMask := 0xFFFF,
    badModifier := !(listed df && listed tf && (tr || decide (tf = 0)) &&
      !((decide (df = 10) || (tr && decide (tf = 10))) && (decide (Fields.x f 9 9 = 1) || decide (Fields.x f 10 10 = 1)))),
    badField := decide (Fields.xs f % 4 ≠ 0) || decide (56 < Fields.xs f) }

/-- The drain that MDRAIN's fields and parameters describe, to these destinations (R220). -/
def drainOf (f : Fields) (t : Troupe) (d dT : Operand) : DrainArgs :=
  { tile := Fields.x f 2 0, df := Fields.x f 8 5, tf := Fields.x f 15 12, tr := decide (Fields.x f 4 4 = 1),
    sr := decide (Fields.x f 9 9 = 1), sat := decide (Fields.x f 10 10 = 1), clr := decide (Fields.x f 11 11 = 1), dst := d,
    dstT := dT, seed := t.srseed, ctr := t.srctr }

/-- MDRAIN's checks (R220, R209): they leave state s1 and the destinations d and dT. -/
def DrainPasses (f : Fields) (s : State) (t : Troupe) (s1 : State) (d dT : Operand) : Prop :=
  let q := parameter f t
  let dsp := decide (Fields.x f 3 3 = 1)
  let tr := decide (Fields.x f 4 4 = 1)
  let sides : List (Nat × Nat × Nat) :=
    if dsp then (q 0, q 1, Fields.x f 8 5) :: (if tr then [(q 2, q 3, Fields.x f 15 12)] else []) else []
  operandFieldsOk dsp (q 0) (q 1) = true ∧
  (if tr then operandFieldsOk dsp (q 2) (q 3) = true else q 2 = 0 ∧ q 3 = 0) ∧
  (∃ rs ls rest, let hs := if dsp then [] else q 0 :: (if tr then [q 2] else [])
    s.records t [] hs = .got s1 rs ∧ s1.firstUnsealed rs = none ∧
    takeOperand dsp (q 0) (q 1) ((rs.zip hs).map fun x => parseLayout x.2 x.1.2) = some (d, ls) ∧
    (if tr then takeOperand dsp (q 2) (q 3) ls else some (.sp 0 0, [])) = some (dT, rest)) ∧
  d.roleOk (Fields.x f 8 5) (drainScaleKind (Fields.x f 8 5)) = true ∧
  (tr = true → dT.roleOk (Fields.x f 15 12) (drainScaleKind (Fields.x f 15 12)) = true) ∧
  (∀ x ∈ sides, x.1 % 16 = 0 ∧ x.2.1 % 16 = 0) ∧
  (∀ x ∈ sides, ∀ o ∈ operandSpans x.1 x.2.1 x.2.2 128 (drainScaleKind x.2.2), 0 < o.2 → o.1 + o.2 ≤ spadSize s1 t)

/-! ### Memory side (R309, R310, R316, R319) -/

/-- A bank command's parameters (R310). -/
def commandOf (f : Fields) (t : Troupe) : BankArgs :=
  let p := parameter f t
  { die := p 2 / 2 ^ 21 % 4, stack := p 2 / 2 ^ 19 % 4, pcm := BitVec.ofNat 64 (p 0 + 2 ^ 32 * p 1), fr := p 2 % 2 ^ 19,
    entry := p 2 / 2 ^ 23 % 2 ^ 8, nr := p 3 % 2 ^ 20, offmax := p 3 / 2 ^ 20 % 2 ^ 8, banks := BitVec.ofNat 16 (p 4),
    bv := p 6 + 2 ^ 32 * p 7, f32 := decide (Fields.x f 1 1 = 1), dup := decide (Fields.x f 0 0 = 1) }

/-- R310: what BKCMD requires of them. -/
def commandListed (f : Fields) (s : State) (t : Troupe) : Bool :=
  let p := parameter f t
  let a := commandOf f t
  let last := a.fr + a.nr - 1 + a.offmax
  !(channelsOf a.pcm).isEmpty && decide (a.fr ≤ 349525 ∧ a.stack ≠ 3 ∧ p 2 < 2 ^ 31 ∧ a.nr ≠ 0 ∧ a.nr ≤ 524288 ∧ p 3 < 2 ^ 28 ∧
    a.banks ≠ 0 ∧ (a.dup = true → a.banks.toNat < 32) ∧ p 4 < 2 ^ 16 ∧ p 5 = 0 ∧ a.bv < 2 ^ 56 ∧ last ≤ 349525) &&
  (decide (last ≠ 349525) || (banksOf a.banks a.dup).all (fun b => decide (b ≤ 4))) && (s.stacksOf a.die).contains a.stack

def scanOf (f : Fields) (t : Troupe) : ScanArgs :=
  let q := parameter f t
  { src := (q 0 + 2 ^ 32 * q 1) % 2 ^ 56, n := q 2, op := q 3 % 16, ef := q 3 / 16 % 4, k := q 3 / 2 ^ 16 % 2 ^ 11,
    thr := BitVec.ofNat 32 (q 4), m := q 5, out := (q 6 + 2 ^ 32 * q 7) % 2 ^ 56 }

/-- R316: what SCANQ requires of its parameters. -/
def scanListed (f : Fields) (t : Troupe) : Bool :=
  let a := scanOf f t
  decide (a.op ≤ 7 ∧ a.ef ≤ 2 ∧ parameter f t 3 / 2 ^ 6 % 2 ^ 10 = 0 ∧ parameter f t 3 / 2 ^ 27 = 0 ∧ a.m ≤ 2 ^ 24 ∧
    (if 6 ≤ a.op then 1 ≤ a.k ∧ a.k ≤ 1024 ∧ a.thr = 0 ∧ a.k ≤ a.m else a.k = 0) ∧ (a.ef = 0 → a.thr.toNat < 2 ^ 16))

def scanBytesOf (ef : Nat) : Nat := if ef = 0 then 2 else 4

/-- X.s names a pair of eight parameter registers. -/
def eightOf (f : Fields) (ownImm : Bool) (mask : BitVec 19) : Shape :=
  { dst := .scalarPair, long := true, ownXs := true, ownImm := ownImm, immMask := mask,
    badField := decide (Fields.xs f % 8 ≠ 0) || decide (56 < Fields.xs f) }

/-! ### Monitors (R257-R260) -/

/-- R257: the condition of WAITM, of memory's value m and v, of 32 or 64 bits. -/
def conditionHolds (k : Nat) (wide : Bool) (m v : Nat) : Bool :=
  let signed (x : Nat) : Int := if wide then (BitVec.ofNat 64 x).toInt else (BitVec.ofNat 32 x).toInt
  match k with
  | 0 => decide (m = v)
  | 1 => decide (m ≠ v)
  | 2 => decide (signed m < signed v)
  | 3 => decide (signed v ≤ signed m)
  | 4 => decide (m < v)
  | _ => decide (v ≤ m)

def waitmOf (f : Fields) : Shape :=
  { dst := .none, long := true, a := if Fields.x f 15 15 = 1 then .w64 else .w32, ownXs := true, ownImm := true, immMask := 0x7FFFF,
    closing := true, badModifier := decide (5 < Fields.x f 18 16 ∨ Fields.x f 14 12 = 0 ∨ Fields.x f 14 12 = 7),
    badField := decide (Fields.xs f % 2 = 1) }

/-- Bits of a mask of 16. -/
def onesOf (m : Nat) : Nat := ((List.range 16).filter m.testBit).length

end Sys2Proof.Claim

/-! ## Engines -/

/-- R186, R187, R348, R349: CPY. A device number of 2^18 or more, and a write to the top 32 bytes of another device that is
no atomic request (at 2^56 - 32, of 32 bytes), trap ILLEGAL-OPERAND; a scratchpad range, of the destination or else of the
source, that leaves the scratchpad traps SPAD-RANGE with its first offset outside. Otherwise, once the troupe's accesses are
done, the copy is accepted on tl0, and the lines of a staging copy become empty; before that it waits. R187 gives neither the wait
nor the order of the two ranges: that the copy waits at issue for its release is the model's choice (log 21), and so is that the
destination's range is tested before the source's (log 15). -/
def Sys2Proof.Claim.CopyIssue : Prop :=
  ∀ f s t, Issues true (cpyOf f) f s t →
    let n := (t.uc f).toNat
    let dsp := decide (Fields.x f 1 0 = 1)
    let ssp := decide (Fields.x f 3 2 = 1)
    let stg := decide (Fields.x f 6 6 = 1)
    let named := decide (Fields.x f 5 5 = 1 ∨ Fields.x f 4 4 = 1)
    let dstIn : Prop := dsp = true → n = 0 ∨ copyTo f t + n ≤ spadSize s t
    let srcIn : Prop := ssp = true → n = 0 ∨ copyFrom f t + n ≤ spadSize s t
    let illegal (c : Nat) (a : Nat) : Prop := Traps s t (BitVec.ofNat 32 c) (BitVec.ofNat 64 a) 0 (resumption true true f t) (exec (.cpy f) s)
    (named = true → 2 ^ 18 ≤ (t.sreg (Fields.xs f)).toNat → illegal 2 0) ∧
    (meetsTop f s t = true → isRequest f s t = false → illegal 2 0) ∧
    ((named = true → (t.sreg (Fields.xs f)).toNat < 2 ^ 18) → (meetsTop f s t = true → isRequest f s t = true) →
      (¬ dstIn → illegal 8 (max (copyTo f t) (spadSize s t))) ∧
      (dstIn → ¬ srcIn → illegal 8 (max (copyFrom f t) (spadSize s t))) ∧
      (dstIn → srcIn → Settled s t → s.company? t.cid ≠ none →
        EngineResult f s t t id 0 (.cpy dsp ssp stg (copyTo f t) (copyFrom f t) n (remoteOf f s t) (isRequest f s t))
          (if n = 0 then [] else [(0, n)]) (if stg then linesWith (copyTo f t) n else []) id (exec (.cpy f) s)) ∧
      (dstIn → srcIn → ¬ Settled s t → Waits s t (s.stall t) (resumption true true f t) (exec (.cpy f) s)))

/-- R189, R190: CPYL between two records whose shapes fit is accepted on tl0, for as many elements as the destination has; stochastic rounding
advances srctr. With both records in the core's record cache and no sealing, that is so of the state itself. Handles of
2^20 or more trap ILLEGAL-OPERAND, and so do records whose shapes do not fit; a record that fails its seal traps
SEAL-REJECT. -/
def Sys2Proof.Claim.TransformIssue : Prop :=
  ∀ f s t, let tr := decide (Fields.x f 1 0 = 1); let rm := Fields.x f 4 2
    Issues true (cpylOf f) f s t →
    let taken (s1 : State) (src dst : Layout) : Prop :=
      EngineResult f s1 t (if rm = 4 then { t with srctr := t.srctr + 1 } else t) id 0
        (.cpyl src dst tr rm (decide (Fields.x f 5 5 = 1)) t.srseed t.srctr) [(0, dst.ext.foldl (· * ·) 1)] [] id
        (exec (.cpyl f) s)
    (2 ^ 20 ≤ (t.ua f).toNat ∨ 2 ^ 20 ≤ (t.ub f).toNat → Traps s t 2 0 0 (resumption true true f t) (exec (.cpyl f) s)) ∧
    (∀ s1 r1 r2, (t.ua f).toNat < 2 ^ 20 → (t.ub f).toNat < 2 ^ 20 →
      s.records t [] [(t.ua f).toNat, (t.ub f).toNat] = .got s1 [r1, r2] →
      (∀ va, s1.firstUnsealed [r1, r2] = some va →
        Traps s1 t 10 (BitVec.ofNat 64 va) 0 (resumption true true f t) (exec (.cpyl f) s)) ∧
      (s1.firstUnsealed [r1, r2] = none →
        (∀ src dst, parseLayout (t.ua f).toNat r1.2 = some src → parseLayout (t.ub f).toNat r2.2 = some dst →
          (cpylShapesOk src dst tr = false → Traps s1 t 2 0 0 (resumption true true f t) (exec (.cpyl f) s)) ∧
          (cpylShapesOk src dst tr = true → Settled s1 t → s1.company? t.cid ≠ none → taken s1 src dst)) ∧
        (parseLayout (t.ua f).toNat r1.2 = none ∨ parseLayout (t.ub f).toNat r2.2 = none →
          Traps s1 t 2 0 0 (resumption true true f t) (exec (.cpyl f) s)))) ∧
    (∀ b1 b2 src dst, (t.ua f).toNat < 2 ^ 20 → (t.ub f).toNat < 2 ^ 20 → RecordHeld s t (t.ua f).toNat b1 →
      RecordHeld s t (t.ub f).toNat b2 → s.rm.sealctl.getLsbD 0 = false → parseLayout (t.ua f).toNat b1 = some src →
      parseLayout (t.ub f).toNat b2 = some dst → cpylShapesOk src dst tr = true → Settled s t → s.company? t.cid ≠ none →
      ∃ s1, OnlyRecords s s1 ∧ taken s1 src dst)

/-- R186, R187, R189, R190, R348, R349: CPY and CPYL complete their issue, or trap. The model's choices: the wait at
issue (log 21) and the order of the range tests (log 15). -/
def Obligations.CopyInstructions : Prop := Claim.CopyIssue ∧ Claim.TransformIssue

/-- R206-R210, R203: an MMA outside a gang whose parameters R207 admits and whose operands pass their checks is accepted on tl1, its number goes to D,
mrp is 0, and the lines of its window become empty; parameters that R207 does not admit trap ILLEGAL-OPERAND. -/
def Sys2Proof.Claim.MatrixIssue : Prop :=
  ∀ f s t, Issues true (mmaOf f) f s t →
    (mmaAccepted f t = false → Traps s t 2 0 0 (resumption true true f t) (exec (.mma f) s)) ∧
    (∀ s1 a, mmaAccepted f t = true → t.gang.toNat < 2 ^ 31 → s.mmaChecks t f = .ok s1 a → Settled s1 t → s1.company? t.cid ≠ none →
      EngineResult f s1 t { t with mrp := 0 } id 1 (.mma a) [] (if a.usesWindow then linesOf a.stg 36864 else []) id
        (exec (.mma f) s))

/-- R220-R222: an MDRAIN whose checks pass is accepted on tl1; with .sr it advances srctr; the scratchpad lines of its copies become empty. -/
def Sys2Proof.Claim.DrainIssue : Prop :=
  ∀ f s t s1 d dT, Issues true (mdrainOf f) f s t → DrainPasses f s t s1 d dT → Settled s1 t → s1.company? t.cid ≠ none →
    EngineResult f s1 t (if Fields.x f 9 9 = 1 then { t with srctr := t.srctr + 1 } else t) id 1 (.mdrain (drainOf f t d dT)) []
      ((drainOf f t d dT).linesFrom 0) id (exec (.mdrain f) s)

/-- R201, R214, R219: GANG sets the gang register for a mask of 2 to 6 troupes of the company with this one among them, or clears it for mask and
number 0; MZERO is accepted, without a number, for tiles 0 to 7; THFLUSH, a release of the troupe's earlier accesses, drops the
core's copies of a record of the launch's table and of the tiles found through it. -/
def Sys2Proof.Claim.MatrixControl : Prop :=
  (∀ f s t l, Issues true gangShape f s t → s.launch? t.lid = some l →
    let m := (t.ua f).toNat
    let g := Fields.x f 2 0
    let ok := if m = 0 then g = 0
      else m < 2 ^ l.hdr.troupes ∧ m < 2 ^ 16 ∧ 2 ≤ onesOf m ∧ onesOf m ≤ 6 ∧ m.testBit (fieldOne s t) = true
    (ok → TroupeResult true f s t .none { t with gang := if m = 0 then 0 else BitVec.ofNat 32 (2 ^ 31 + g * 2 ^ 16 + m) }
      (exec (.gang f) s)) ∧
    (¬ ok → Traps s t 2 0 0 (resumption true false f t) (exec (.gang f) s))) ∧
  (∀ f s t, Issues true (uniformOf .w32 false) f s t →
    (8 ≤ (t.ua f).toNat → Traps s t 2 0 0 (resumption true false f t) (exec (.mzero f) s)) ∧
    ((t.ua f).toNat < 8 → TroupeResult true f ({ s with nextId := s.nextId + 1 }.updCompany t.cid fun c =>
        { c with ops := c.ops ++ [newEngOp s.nextId none 0 t.uid (.mzero (t.ua f).toNat) []] }) t .none t (exec (.mzero f) s))) ∧
  (∀ f s t l, Issues true (uniformOf .w32 false) f s t → s.launch? t.lid = some l →
    let h := (t.ua f).toNat
    (2 ^ 20 ≤ h → Traps s t 2 0 0 (resumption true false f t) (exec (.thflush f) s)) ∧
    (h < 2 ^ 20 → l.hdr.hcount ≤ h →
      Traps s t 11 (BitVec.ofNat 64 (l.entryVa h)) 0 (resumption true false f t) (exec (.thflush f) s)) ∧
    (h < 2 ^ 20 → h < l.hdr.hcount → t.ops = [] →
      TroupeResult true f (s.updCore t.core fun c =>
        { c with recs := c.recs.filter (fun r => !(decide (r.lid = t.lid) && decide (r.handle = h))),
                 tileCache := c.tileCache.filter fun x => !(decide (x.lid = t.lid) && decide (x.handle = h)) }) t .none t
        (exec (.thflush f) s)) ∧
    (h < 2 ^ 20 → h < l.hdr.hcount → t.ops ≠ [] → Waits s t (s.stall t) (resumption true false f t) (exec (.thflush f) s)))

/-- R201-R222: MMA, MDRAIN, GANG, MZERO and THFLUSH. -/
def Obligations.MatrixInstructions : Prop := Claim.MatrixIssue ∧ Claim.DrainIssue ∧ Claim.MatrixControl

/-- R304, R309, R310: BKLOAD and BKCMD whose fields are listed, with grants for what they name, are accepted on tl5 and tl2 and join the queue of
every named pseudo-channel; an unlisted field traps ILLEGAL-OPERAND, a misaligned address MISALIGNED, a missing grant PERMISSION. -/
def Obligations.BankIssue : Prop :=
  (∀ f s t, Issues true (bkloadOf f) f s t →
    let w := (t.ub f).toNat
    let first := w % 256
    let count := w / 2 ^ 8 % 512
    let stack := w / 2 ^ 17 % 4
    let die := w / 2 ^ 19 % 4
    let va := (t.spair (Fields.xs f)).toNat % 2 ^ 56
    let pcs := channelsOf (t.ua64 f)
    let listed := w < 2 ^ 21 ∧ count ≠ 0 ∧ first + count ≤ 256 ∧ stack ≠ 3 ∧ pcs ≠ [] ∧ (s.stacksOf die).contains stack = true
    (¬ listed → Traps s t 2 0 0 (resumption true true f t) (exec (.bkload f) s)) ∧
    (listed → va % 4 ≠ 0 → Traps s t 6 (BitVec.ofNat 64 va) 0 (resumption true true f t) (exec (.bkload f) s)) ∧
    (listed → va % 4 = 0 → (∃ pc ∈ pcs, s.grants (s.queueOf t.lid) die stack pc = []) →
      Traps s t 7 0 0 (resumption true true f t) (exec (.bkload f) s)) ∧
    (listed → va % 4 = 0 → (∀ pc ∈ pcs, s.grants (s.queueOf t.lid) die stack pc ≠ []) → Settled s t → s.company? t.cid ≠ none →
      EngineResult f s t t id 5 (.bkload va (t.ua64 f) first count stack die) [] []
        (fun s2 => s2.enqueueBank die stack pcs (t.cid, s.nextId)) (exec (.bkload f) s))) ∧
  (∀ f s t, Issues true (eightOf f true 0x3) f s t →
    let a := commandOf f t
    let pcs := channelsOf a.pcm
    let covered (pc : Nat) : Bool :=
      rowsCovered (s.grants (s.queueOf t.lid) a.die a.stack pc) a.fr (a.fr + a.nr - 1 + a.offmax) 17
    (commandListed f s t = false → Traps s t 2 0 0 (resumption true true f t) (exec (.bkcmd f) s)) ∧
    (commandListed f s t = true → a.bv % 192 ≠ 0 →
      Traps s t 6 (BitVec.ofNat 64 a.bv) 0 (resumption true true f t) (exec (.bkcmd f) s)) ∧
    (commandListed f s t = true → a.bv % 192 = 0 → pcs.all covered = false →
      Traps s t 7 0 0 (resumption true true f t) (exec (.bkcmd f) s)) ∧
    (commandListed f s t = true → a.bv % 192 = 0 → pcs.all covered = true → Settled s t → s.company? t.cid ≠ none →
      EngineResult f s t t id 2 (.bkcmd a) (pcs.map fun pc => (pc, 1)) []
        (fun s2 => s2.enqueueBank a.die a.stack pcs (t.cid, s.nextId)) (exec (.bkcmd f) s)))

/-- R316, R319: SCANQ with listed parameters and aligned addresses is accepted on tl3 (its addresses modulo 2^56: the model's choice,
log 142); CLEANR, INVR and FLUSHR of a range within the address space on tl5, for every line of the range. -/
def Obligations.ScanAndMaintenanceIssue : Prop :=
  (∀ f s t, Issues true (eightOf f false 0) f s t →
    let a := scanOf f t
    (scanListed f t = false → Traps s t 2 0 0 (resumption true true f t) (exec (.scanq f) s)) ∧
    (scanListed f t = true → a.src % scanBytesOf a.ef ≠ 0 →
      Traps s t 6 (BitVec.ofNat 64 a.src) 0 (resumption true true f t) (exec (.scanq f) s)) ∧
    (scanListed f t = true → a.src % scanBytesOf a.ef = 0 → a.out % 8 ≠ 0 →
      Traps s t 6 (BitVec.ofNat 64 a.out) 0 (resumption true true f t) (exec (.scanq f) s)) ∧
    (scanListed f t = true → a.src % scanBytesOf a.ef = 0 → a.out % 8 = 0 → Settled s t → s.company? t.cid ≠ none →
      EngineResult f s t t id 3 (.scanq a) [(0, 1)] [] id (exec (.scanq f) s))) ∧
  (∀ p ∈ [(Instr.cleanr, 0), (Instr.invr, 1), (Instr.flushr, 2)], ∀ f s t,
    Issues true (maintOf f) f s t →
    let n := (t.ua f).toNat
    let start := globalAddr (t.spair (Fields.xs f)) 0 (Fields.disp f 19)
    (0 < n → 2 ^ 56 < start + n → Traps s t 2 0 0 (resumption true true f t) (exec (p.1 f) s)) ∧
    (n = 0 ∨ start + n ≤ 2 ^ 56 → Settled s t → s.company? t.cid ≠ none →
      EngineResult f s t t id 5 (.maint p.2 start n)
        (if n = 0 then [] else [(start / 192, (start + n - 1) / 192 + 1 - start / 192)]) [] id (exec (p.1 f) s)))

/-- R257-R259: WAITM of a readable, aligned address whose bytes no access of the troupe and no edit holds: when the condition holds, or in host memory, it
completes with an acquire at its scope; otherwise a monitor is set at home and the troupe parks behind it. That copies of the line
which may be older than what it has read leave the core's L1 and its die's read cache is the model's reading of R153 (log 20). -/
def Obligations.WaitOnMemory : Prop :=
  ∀ f s t, Issues true (waitmOf f) f s t →
    let va := globalAddr (t.spair (Fields.xs f)) 0 (Fields.disp f 12)
    let wide := decide (Fields.x f 15 15 = 1)
    let n := if wide then 8 else 4
    let v : DWord := if wide then t.ua64 f else (t.ua f).setWidth 64
    (va % n ≠ 0 → Traps s t 6 (BitVec.ofNat 64 va) 0 (resumption true false f t) (exec (.waitm f) s)) ∧
    (∀ s1 pa e psize s2 bs, va % n = 0 → s.translateFor t va .r = (s1, .ok pa e psize) → s1.blocksRead t pa n = false →
      s1.sideHeld (s1.loc pa e psize) n = false → s1.isPoisoned (s1.loc pa e psize) n = false →
      (s1.countHot (s1.rootOf t.lid) va pa e psize).homeRead (s1.loc pa e psize) n = (s2, bs) →
      let l := s1.loc pa e psize
      let holds := conditionHolds (Fields.x f 18 16) wide (leNat bs % 2 ^ (8 * n)) v.toNat
      (holds = true ∨ l.host = true →
        TroupeResult true f ((if 2 ≤ Fields.x f 14 12 then acquired s2 t.core else s2).dropOlder t.core l.line) t .none t (exec (.waitm f) s)) ∧
      (holds = false → l.host = false →
        Parks (s2.setMonitor l.die { pa := l.byte, wide := wide, cmp := Fields.x f 18 16, v := v, uid := t.uid }) t
          (.monitor (Fields.x f 14 12)) (t.pc + 8) (exec (.waitm f) s)))
namespace Sys2Proof.Claim

open Sys2Proof.Machine

/-! ## Events: what the machine does of itself -/

/-- How far a slot stands after the one that won last (R137). -/
def turnOf (last slot : Nat) : Nat := (slot + 11 - last) % 12

/-- R179: a troupe that has issued an act is no longer waited for. -/
def awaitingLess (u : Nat) (p : Park) : Park :=
  match p with
  | .yield others => .yield (others.filter (· != u))
  | p => p

/-- A troupe waits on empty line `line` of its scratchpad, and every line it waits for is full (R146). -/
def waitsFor (c : Company) (line : Nat) (t : Troupe) : Bool :=
  match t.park with
  | .empty ws => decide (t.cid = c.cid) && ws.any (fun w => decide (w.2 / 192 = line)) && ws.all fun w => !c.emptyLines.contains (w.2 / 192)
  | _ => false

/-- An operation of a company, its kind, and that its engine may work on it: not done, and no page of it away. -/
def Working (s : State) (c : Company) (o : EngOp) : Prop :=
  s.company? c.cid = some c ∧ c.ops.find? (·.id == o.id) = some o ∧ o.done = false ∧ o.parked = none

/-- The state with an operation of a company replaced. -/
def putEng (s : State) (cid : Nat) (o : EngOp) : State :=
  s.updCompany cid fun c => { c with ops := c.ops.map fun x => if x.id = o.id then o else x }

/-- An operation that is done, with the fault mark `failed` (R177). -/
def finished (failed : Bool) (o : EngOp) : EngOp :=
  { o with done := true, failed := o.failed || failed, todo := [], sent := [], parked := none, held := false }

/-- An operation after work on a part of its range: what is left of it, and done when nothing is left and nothing sent is unanswered. -/
def advancedOp (left : List (Nat × Nat)) (o : EngOp) : EngOp :=
  if left = [] ∧ o.sent = [] then finished false o else { o with todo := left, parked := none }

/-- The same when what it sent for the part at `off` is answered. -/
def answeredOp (off len : Nat) (o : EngOp) : EngOp :=
  if o.sent.erase (off, len) = [] ∧ o.todo = [] then finished false o else { o with sent := o.sent.erase (off, len), parked := none }

/-- The unit that works on a company's operation, with the launch that it works for. -/
def ctxOf (s : State) (c : Company) (o : EngOp) : EngCtx :=
  { cid := c.cid, lid := c.lid, uid := o.uid, core := c.core, home := c.core.getD c.lastCore,
    fetcher := (match o.kind with | .mma _ => true | _ => false), early := ((c.ops.dropWhile (·.id != o.id)).drop 1).flatMap (·.emptied), root := s.rootOf c.lid, queue := s.queueOf c.lid }

/-- Conditions on a byte's place under which it is that byte of one uncompressed line of a home slice: no directory and no counter is kept there,
every line that a cache holds has 192 bytes, and a copy that some L1 owns is newer than the slice's. -/
def PlainHome (s : State) (l : Loc) : Prop :=
  l.host = false ∧ l.cmp = none ∧ (s.die l.die).regions = [] ∧ s.allowanceLine? l.byte 1 = none ∧ s.l2Victim? l = none ∧ l.off < 192 ∧
  (∀ x ∈ s.l2, x.data.length = 192) ∧ (∀ c ∈ s.cores, ∀ x ∈ c.l1, x.data.length = 192) ∧
  ∀ x, s.ownedCopy l.line = some x → x.dirty = true

/-- A company's tiles and operations stand as in `c`, but for the rows of B that the broadcast bus has brought. -/
def SameWork (s : State) (c : Company) : Prop :=
  ∃ c1, s.company? c.cid = some c1 ∧ c1.tiles = c.tiles ∧
    (c1.ops.map fun (e : EngOp) => { e with delivered := [] }) = c.ops.map fun (e : EngOp) => { e with delivered := [] }

/-- Two byte ranges have no byte in common. -/
def NoByteCommon (a n b m : Nat) : Prop := a + n ≤ b ∨ b + m ≤ a

/-- Memory without registered regions, counter allowances and compressed lines, whose caches agree with it (each clean line of a home slice, each
L1 line a core owns), and with room in the slice of the table entry at `a`, which is no host memory. -/
def PlainMemory (s : State) (a : Nat) : Prop :=
  s.mem.wf = true ∧ (∀ d ∈ s.dieUnits, d.regions = []) ∧
  (∀ c ∈ s.cores, c.allowances = [] ∧ ∀ x ∈ c.l1, x.data.length = 192 ∧ (x.owned = true → x.dirty = true)) ∧
  (∀ x ∈ s.l2, x.cmp = none ∧ x.data.length = 192 ∧ (x.dirty = false → x.data = bytesAt s.mem (192 * x.line) 192)) ∧
  (∀ x ∈ s.msc, x.coded = none) ∧ (s.rawLoc a).host = false ∧ a % 8 = 0 ∧
  s.l2.length < min 16 (s.l2Quota (s.rawLoc a).die 0)

/-- R322: a page has moved. Its entry at `a`, which was `e`, names the new frame, with CAP as `cap` says and its other bits as they were;
every byte of it reads the same, and every byte outside the new frame and the entry as before. -/
def PageMoved (s s' : State) (a : Nat) (e : DWord) (psize frame : Nat) (cap : Bool) : Prop :=
  let w := s'.peekNat a 8
  entryFrame (BitVec.ofNat 64 w) = frame ∧ w.testBit 10 = cap ∧ (∀ k, k ≠ 10 → k < 16 ∨ 52 ≤ k → w.testBit k = e.getLsbD k) ∧
  (∀ i < psize, s'.peek (frame + i) = s.peek (entryFrame e + i)) ∧
  ∀ b, (b < frame ∨ frame + psize ≤ b) → (b < a ∨ a + 8 ≤ b) → s'.peek b = s.peek b

/-- R175: n is the largest number such that every operation of timeline k numbered up to n has completed: the last one given out, or the one before
the lowest that has not. -/
def Reached (s : State) (c : Company) (k n : Nat) : Prop :=
  let pending (m : Nat) : Prop := (∃ o ∈ c.ops, o.tl = some k ∧ o.done = false ∧ o.n.toNat = m) ∨
    (k = 4 ∧ ∃ t ∈ s.troupes, t.cid = c.cid ∧ ∃ o ∈ t.ops, ∃ i x, o.kind = .edit i x ∧ x.toNat = m)
  (∀ m, pending m → n < m) ∧ (pending (n + 1) ∨ ((∀ m, ¬ pending m) ∧ n = (timelineOf s c.cid k).issued.toNat))

/-- Elements of a scan source as 32-bit signed integers (R317). -/
def intHolds (op : Nat) (v thr : Int) : Bool :=
  match op with
  | 0 => decide (v > thr)
  | 1 => decide (v ≥ thr)
  | 2 => decide (v < thr)
  | 3 => decide (v ≤ thr)
  | 4 => decide (v = thr)
  | _ => decide (v ≠ thr)

/-- R240, R319: a home line without ownership, its dirty bytes below it. -/
def settledLine (s : State) (line : Nat) : State := (s.recall line).writeDown line

/-- R363: the clock in sixteenths after a measurement. -/
def clockAfter (clk watts lim : Nat) (hot : Bool) : Nat :=
  if lim < watts ∨ hot = true then max 1 (clk - 1) else if watts < lim then min 16 (clk + 1) else clk

/-- A counter that sticks at its largest value (R226). -/
def counted (n : DWord) : DWord := if n.toNat + 1 < 2 ^ 64 then n + 1 else n

/-- The launches, each changed by `g` where it is the one named. -/
def withLaunch (s : State) (lid : Nat) (g : Launch → Launch) : State :=
  { s with rm := { s.rm with launches := s.rm.launches.map fun l => if l.lid = lid then g l else l } }

/-- R226: what a counter becomes: a write of 0 clears it, and any other leaves it. -/
def cleared (old v : DWord) : DWord := if v = 0 then 0 else old

/-- The recovery state, or a start that is not complete (R359). -/
def recovering (s : State) : Prop := s.boot.bootstat.getLsbD 27 = true ∨ s.boot.bootstat.getLsbD 28 = false

/-- A launch of a queue is active (R327). -/
def active (s : State) (q : Nat) : Prop := ∃ l ∈ s.rm.launches, l.queue = q

/-- R346: the ports carry traffic when FXDEVID names a device and a port is up. -/
def carries (s : State) : Prop := s.fabric.fxdevid.toNat ≤ 199999 ∧ s.fabric.fxport ≠ 0

/-- The fabric with a packet to send. -/
def sends (s : State) (o : FabricOut) : State :=
  { s with nextId := s.nextId + 1,
           fabric := { s.fabric with out := s.fabric.out ++ [{ seq := s.nextId, since := s.clock.toNat, delivered := false, msg := o }] } }

/-- An access of a peer that can be taken: the ports carry it, and it was not taken before (R355). -/
def takes (s : State) (src tag : Nat) : Prop := carries s ∧ (src, tag) ∉ s.fabric.peerSeen

/-- A peer's access was taken, and is answered. -/
def answers (s : State) (src tag : Nat) (o : FabricOut) : State :=
  sends { s with fabric := { s.fabric with peerSeen := (src, tag) :: s.fabric.peerSeen } } o

/-- A packet that an answer follows, once it has reached its receiver. -/
def reached (p : FabricSent) : Option FabricSent :=
  match p.msg with
  | .write .. | .readRequest .. | .atomic .. => some { p with delivered := true }
  | _ => none

/-- R346, R348, R354: a packet has been under way, undelivered, for FXTMO microseconds. -/
def overdue (s : State) (p : FabricSent) : Bool :=
  !p.delivered && decide (1750 * max 1 (s.fabric.fxtmo.toNat % 2 ^ 24) ≤ s.clock.toNat - p.since)

/-- The fabric after a packet of a peer with this sequence number was taken. -/
def seenToo (seq : Nat) (x : Fabric) : Fabric := { x with seen := seq :: x.seen }

/-- R362: the cause code of a cluster reset. -/
def causeNumber : ResetCause → Nat
  | .hung => 1
  | .registerFile => 2
  | .accumulators => 3
  | .scratchpad => 4
  | .crossbarPort => 5

/-- R334: the units of `u` companies of a range that have not begun. -/
def notBegun (u : Nat) (r : DistRange) : Nat := (r.hi - if r.begun then (r.lo / u + 1) * u else r.lo) / u

/-- A range, not empty, that ends with a unit, and starts with one unless its first has begun. -/
def WholeUnits (u : Nat) (r : DistRange) : Prop := r.lo < r.hi ∧ r.hi % u = 0 ∧ (r.begun = false → r.lo % u = 0)

/-- The priority of a company's launch. -/
def prioOf (s : State) (c : Company) : Nat := match s.launch? c.lid with
  | some l => l.hdr.prio
  | none => 0

/-- R337: a company that may go out for a launch: on a core, of another launch that goes on and has a lower priority (no higher one, where the launch is all-resident
and waits), with a record that the pool holds; for a launch of companies it stands where one of them that has waited could come. -/
def MayBeVictim (s : State) (l : Launch) (c : Company) : Prop :=
  c ∈ s.companies ∧ c.core ≠ none ∧ c.preempting = false ∧ s.allRetired c = false ∧ c.lid ≠ l.lid ∧
  (∃ x, s.launch? c.lid = some x ∧ x.ending = none ∧ x.statusDone = false ∧ (s.withVictim c x).length * x.hdr.recordSize ≤ s.poolFree) ∧
  (if l.hdr.resident then prioOf s c ≤ l.hdr.prio else prioOf s c < l.hdr.prio ∧ ∃ k ∈ s.starvedCores l, c.core = some k)

/-- R328, R330: the 64 bytes of a queue's entry lie in host memory. -/
def HostEntry (s : State) (q i : Nat) : Prop :=
  2 ^ 51 ≤ s.entryPa q i ∧ s.entryPa q i + 64 ≤ 2 ^ 52 ∧ s.entryPa q i % 64 = 0 ∧ s.mem.wf = true

/-- R356: what verification asks of a message under a key. -/
def MakerSigned (key message sig : List Byte) : Prop :=
  sig.length = 114 ∧ shake256 Config.romDigest.length key = Config.romDigest ∧ ed448Verifies true key message sig = true

/-! ### Compute in the banks (R305-R308, R313) -/

/-- R305: the vector that a source code names in a unit of `n` elements. -/
def sourceOf (n : Nat) (bcast : List Nat) (u : BankUnit) (src : Nat) : List Nat :=
  match src with
  | 1 => u.row
  | 2 => bcast
  | 3 => u.mul
  | 4 => u.add
  | 5 => u.acc
  | 6 => u.cmp
  | _ => List.replicate n 0

/-- An operation on two vectors, element by element, and the flags that it raises. -/
def pairwise (op : Nat → Nat → Rounded) (xs ys : List Nat) : List Rounded := (xs.zip ys).map fun p => op p.1 p.2
def movedFlags (rs : List Rounded) : Flags := rs.foldl (fun f r => f ||| r.flags) 0

/-- R308: the element format of a command. -/
def bankFormat (a : BankArgs) : FloatFmt := if a.f32 then fp32 else bf16

/-- R305, R308: what a trigger computes from its operand register and the value written. -/
def triggered (a : BankArgs) (dst : Nat) (v : List Nat) (u : BankUnit) : List Rounded :=
  match dst with
  | 3 => pairwise (bankFormat a).mul u.mula v
  | 5 => pairwise (bankFormat a).add u.adda v
  | 10 => pairwise ((bankFormat a).minmax true) u.cmpa v
  | _ => []

/-- R305: a unit after value `v` is written to a port. -/
def portWritten (s : State) (a : BankArgs) (pc cur : Nat) (m : BankMove) (v : List Nat) (u : BankUnit) : BankUnit :=
  match m.dst with
  | 1 => { u with row := a.unpack (s.bankRead (s.rowAddr a.die a.stack pc (a.fr + cur + m.imm) u.bank)) }
  | 2 => { u with mula := v }
  | 3 => { u with mul := (triggered a 3 v u).map (·.code) }
  | 4 => { u with adda := v }
  | 5 => { u with add := (triggered a 5 v u).map (·.code) }
  | 6 => { u with acc := v }
  | 7 => { u with wbr := m.imm }
  | 9 => { u with cmpa := v }
  | 10 => { u with cmp := (triggered a 10 v u).map (·.code) }
  | _ => u

/-- R305, R313: WBT in one bank, or in a bank and its two replicas, whose values are compared: an equal pair's value goes to all
three, one that the third copy settles is counted, and with no majority the rows are poisoned. -/
def lineWritten (a : BankArgs) (pc cur : Nat) (value : Nat → List Nat) (r : BankRun) (banks : List Nat) : BankRun :=
  let row (b : Nat) : Nat :=
    r.s.rowAddr a.die a.stack pc (a.fr + cur + ((r.units.find? (·.bank == b)).map (·.wbr)).getD 0) b
  let all (f : State → Nat → State) : State := (banks.map row).foldl f r.s
  let put (v : List Nat) : State := all fun s p => s.bankWrite a.die p (a.pack v)
  let after (s : State) : BankRun := { r with s := s, written := r.written ++ banks.map row }
  match banks with
  | [x, y, z] =>
    if value x = value y then after (put (value x))
    else if value z = value x ∨ value z = value y then
      after ((put (value z)).updDie a.die fun d => { d with bkdupfix := counted d.bkdupfix })
    else after ((all fun s p => s.bankPoison a.die p).updDie a.die fun d => { d with bkdupfail := counted d.bkdupfail })
  | _ => after (put (value (banks.headD 0)))

/-- The banks of a command, each with its replicas (R313). -/
def bankGroups (a : BankArgs) : List (List Nat) :=
  ((List.range 16).filter a.banks.getLsbD).map fun b => if a.dup then [b, b + 5, b + 10] else [b]

/-- R313: the value that most of three copies have. -/
def most (x y z : List Nat) : Option (List Nat) := if x = y then some x else if z = x ∨ z = y then some z else none

def accOf (units : List BankUnit) (b : Nat) : List Nat := ((units.find? (·.bank == b)).map (·.acc)).getD []

/-- R305: a bank's registers as a command starts. -/
def freshUnit (n b : Nat) : BankUnit :=
  let z := List.replicate n 0
  ⟨b, z, z, z, z, z, z, z, z, 0⟩

/-! ### Matrix arithmetic (R25-R30, R194, R211, R212, R221) -/

/-- R26: the exact sum of the products of elements w * g to w * g + w - 1 of two rows. -/
def dot (w g : Nat) (xs ys : List Val) : Exact := sumProducts ((xs.drop (w * g)).take w) ((ys.drop (w * g)).take w)

/-- acc = RNE32(acc + p), with the flags so far. -/
def plus (acc p : Rounded) : Rounded := ⟨(fp32.add acc.code p.code).code, acc.flags ||| p.flags ||| (fp32.add acc.code p.code).flags⟩

/-- What steps 0 to n - 1 make of the accumulator, in increasing K. -/
def stepsOf (step : Rounded → Nat → Rounded) (acc : Rounded) : Nat → Rounded
  | 0 => acc
  | n + 1 => step (stepsOf step acc n) n

/-- R27: groups of 32. -/
def groupSums (xs ys : List Val) (acc : Rounded) (n : Nat) : Rounded :=
  stepsOf (fun acc g => plus acc (fp32.finish (dot 32 g xs ys))) acc n

/-- R30: the two BF16 parts of an FP32 value. -/
def highPart (x : Val) : Val :=
  match x with
  | .fin n m e => bf16.decode (bf16.round (if magLe 511 119 m e then .rz else .rn) 0 false (.fin n m e)).code
  | v => v
def lowPart (x : Val) : Val :=
  match x with
  | .fin n m e => bf16.decode (bf16.round .rn 0 false ((Val.fin n m e).add (highPart x).neg).v).code
  | _ => .fin false 0 0

/-- R25, R27-R30: ACCUM of one element over Kc, by the rule that R194 selects. -/
def accumulated (rule : MmaRule) (kc acc : Nat) (a b : EngRow) : Rounded :=
  let start : Rounded := ⟨acc, 0⟩
  match rule with
  | .groups => groupSums a.vals b.vals start (kc / 32)
  | .synthesised =>
    let pass (f g : Val → Val) (acc : Rounded) : Rounded := groupSums (a.vals.map f) (b.vals.map g) acc (kc / 32)
    pass lowPart highPart (pass highPart lowPart (pass highPart highPart start))
  | .int8 =>
    stepsOf (fun acc g =>
      let i := (BitVec.ofNat 32 acc.code).toInt + (dot 128 g a.vals b.vals).v.toInt
      let c := if i < -(2 ^ 31) then -(2 ^ 31) else if 2 ^ 31 - 1 < i then 2 ^ 31 - 1 else i
      ⟨(BitVec.ofInt 32 c).toNat, acc.flags ||| if c = i then 0 else flagSAT ||| flagNX⟩) start (kc / 128)
  | .fp8 =>
    stepsOf (fun acc g =>
      let p := fp32.finish (dot 128 g a.vals b.vals)
      let s := fp32.mul (a.scales.getD g 0x3F800000) (b.scales.getD g 0x3F800000)
      let t := fp32.mul p.code s.code
      plus acc ⟨t.code, p.flags ||| s.flags ||| t.flags⟩) start (kc / 128)
  | .mx =>
    stepsOf (fun acc g =>
      let xa := a.scales.getD g 0x7F
      let xb := b.scales.getD g 0x7F
      if xa = 0xFF ∨ xb = 0xFF then plus acc ⟨fp32.nanCode, 0⟩
      else
        let e := dot 32 g a.vals b.vals
        plus acc (fp32.finish ⟨e.v.scale ((xa : Int) - 127 + ((xb : Int) - 127)), e.nv⟩)) start (kc / 32)

/-- R211: LATSUM. -/
def latent (xs ys : List Val) : Val := fp32.decode (groupSums xs ys ⟨2 ^ 31, 0⟩ (xs.length / 32)).code

/-- The scale and the codes of a drained row (R221). -/
def drained (F : Nat) (mode : Mode) (sat : Bool) (r : Nat → Nat) (words : List Word) : List Nat × List Byte :=
  let vals := words.map fun w => fp32.decode w.toNat
  if F = 10 then (words.map (·.toNat), [])
  else if F = 3 ∨ F = 4 then
    let s := fp8Scale F vals
    ((vals.zipIdx.map fun x => (fp8Encode F mode (r x.2) sat x.1 (fp32.decode s)).code), leBytes 4 s)
  else if 5 ≤ F ∧ F ≤ 8 then
    let block (g : Nat) := mxBlock F mode (fun i => r (32 * g + i)) ((vals.drop (32 * g)).take 32)
    ((List.range 4).flatMap (fun g => (block g).2.1), (List.range 4).map fun g => BitVec.ofNat 8 (block g).1)
  else ((vals.zipIdx.map fun x => (roundTo F mode (r x.2) sat false x.1).code), [])

end Sys2Proof.Claim

/-! ## Events of the cores -/

/-- R137: an idle quarter takes, of its ready troupes of the highest priority, the one whose slot comes first after the slot that won last; with
none it stays idle. A quarter that runs a troupe does not arbitrate. -/
def Sys2Proof.Claim.Arbitration : Prop :=
  ∀ s core quarter,
    let q := (s.core core).quarters.getD quarter Quarter.reset
    let here (u : Troupe) : Prop := u ∈ s.troupes ∧ u.core = core ∧ u.quarter = quarter ∧ s.ready u = true
    (q.running ≠ none → exec (.actSelect core quarter) s = .next s) ∧
    (q.running = none → (∀ u, ¬ here u) → exec (.actSelect core quarter) s = .next s) ∧
    (∀ t, q.running = none → q.last < 12 → here t → t.slot < 12 → s.troupe? t.uid = some t →
      (∀ u, here u → u ≠ t → s.priority u < s.priority t ∨
        (s.priority u = s.priority t ∧ turnOf q.last t.slot < turnOf q.last u.slot)) →
      ∃ s', exec (.actSelect core quarter) s = .next s' ∧
        s' = { s with troupes := s'.troupes, cores := listModify s.cores core fun c =>
                 { c with quarters := c.quarters.set quarter { running := some t.uid, last := t.slot, prev := q.last } } } ∧
        s'.troupe? t.uid = some { t with park := .run } ∧
        ∀ u, u ≠ t.uid → s'.troupe? u = (s.troupe? u).map fun o => { o with park := awaitingLess t.uid o.park })

/-- R146, R147, R180, R239, R150, R151: a filled line releases the troupes that wait for it; 2^24 clocks on an empty line trap EMPTY-TIMEOUT, which start anew
where a line that turns empty makes a parked troupe wait; YIELDC goes on at its continuation, its flags handed over, or traps for a fault mark; a slice of the
home die or of the requester's refuses a request at most 8 times and counts it, and the core sends it again after the hinted time; a tracker entry is released once
nothing of its troupe is outstanding, and a company retires after its troupes. That an operation in flight which waits on the line is withdrawn, and the trap taken at the pc,
is the model's choice (log 120), and so is which requests a slice may refuse (log 121). -/
def Sys2Proof.Claim.CoreEvents : Prop :=
  (∀ s c line, s.company? c.cid = some c → line ∉ c.emptyLines →
    ∃ s', exec (.emptyLineFill c.cid line) s = .next s' ∧ s' = { s with troupes := s'.troupes } ∧
      ∀ u, s'.troupe? u = (s.troupe? u).map fun t => if waitsFor c line t then { t with park := .run } else t) ∧
  (∀ s t c ws, s.troupe? t.uid = some t → t.park = .empty ws → s.company? t.cid = some c → s.runnable t = true →
    2 ^ 24 ≤ s.clock.toNat - t.parkedAt →
    let still := ws.filter fun w => c.emptyLines.contains (w.2 / 192)
    (∀ o rest, still = o :: rest →
      Traps s t 14 (BitVec.ofNat 64 (192 * (o.2 / 192))) (maskOf fun i => still.any fun w => decide (w.1 = i)) t.parkResume
        (exec (.emptyTimeout t.uid) s)) ∧
    (still = [] → exec (.emptyTimeout t.uid) s = .next s)) ∧
  (∀ (s : State) t o w rest, s.troupe? t.uid = some t → (∀ ws, t.park ≠ .empty ws) → t.ops = [o] → t.awaits o = true →
    o.raisesLd = true → o.raisesSt = false → s.runnable t = true → 2 ^ 24 ≤ s.clock.toNat - t.parkedAt → s.opWaits t o = w :: rest →
    (t.trap = false → Traps s { t with ops := [], ld := t.ld - 1 } 14 (BitVec.ofNat 64 (192 * (w.2 / 192)))
      (maskOf fun i => (w :: rest).any fun x => decide (x.1 = i)) t.parkResume (exec (.emptyTimeout t.uid) s))) ∧
  (∀ s t c, s.troupe? t.uid = some t → s.company? t.cid = some c → s.runnable t = true → s.clock.toNat - t.parkedAt < 2 ^ 24 →
    exec (.emptyTimeout t.uid) s = .next s) ∧
  (∀ (s : State) cid lines t, let s' := s.emptyTheLines cid lines
    s.troupe? t.uid = some t → (s.lineWait t).1 = [] → ∃ t', s'.troupe? t.uid = some t' ∧
      ((s'.lineWait t').1 ≠ [] → t' = { t with parkedAt := s.clock.toNat }) ∧ ((s'.lineWait t').1 = [] → t' = t)) ∧
  (∀ s t c k n cont, s.troupe? t.uid = some t → s.runnable t = true → s.company? t.cid = some c → t.park = .yieldTl k n cont →
    n.toNat ≤ (c.tls.getD k ⟨0, 0⟩).reached.toNat →
    (∀ m, c.markedBy k n t.uid = some m →
      Traps (s.updCompany t.cid fun c => c.clearMark k m t.uid) t 15 m 0 ⟨8, false, false, true, false⟩ (exec (.yieldcResume t.uid) s)) ∧
    (c.markedBy k n t.uid = none →
      exec (.yieldcResume t.uid) s = .next ((acquired (s.updCompany t.cid fun _ =>
          { c with marks := c.marks.filter fun m => !covered k n t.uid m }) t.core).setTroupe
        { t with fflags := t.fflags ||| ((c.marks.filter (covered k n t.uid)).foldl (fun fl m => fl ||| m.flags) (0 : Flags)).setWidth 32,
                 pc := cont, park := .run }))) ∧
  (∀ s t c line cont, s.troupe? t.uid = some t → s.runnable t = true → s.company? t.cid = some c → t.park = .yieldFull line cont →
    line ∉ c.emptyLines →
    exec (.yieldcResume t.uid) s = .next (s.setTroupe { t with pc := cont, park := .run })) ∧
  (∀ (s : State) t o r (hint : RefusalHint), s.troupe? t.uid = some t → t.ops.find? (·.id == o.id) = some o →
    o.lanes.find? (fun r => s.refusable t o r hint.die) = some r → 1 ≤ hint.clocks → hint.clocks ≤ 1024 →
    let home := decide (hint.die = (placeOf s r).die)
    exec (.requestRefusal t.uid o.id hint) s = .next
      ((s.setTroupe { t with ops := t.ops.map fun x => if x.id == o.id then
          { o with lanes := o.lanes.map fun x => if x.lane = r.lane then
              { r with refused := true, heldUntil := s.clock.toNat + hint.clocks, refusals := r.refusals + (if home then 1 else 0),
                       rdcRefusals := r.rdcRefusals + (if home then 0 else 1) } else x } else x }).updDie
        hint.die fun d => { d with dnrefuse := counted d.dnrefuse })) ∧
  (∀ (s : State) t o r die, s.refusable t o r die = true → r.done = false ∧ r.refused = false ∧ s.sendsRequest t o r = true ∧
    (die = (placeOf s r).die ∨ die = t.core / 32) ∧ if die = (placeOf s r).die then r.refusals < 8 else r.rdcRefusals < 8) ∧
  (∀ (s : State) t o hint, s.troupe? t.uid = some t → t.ops.find? (·.id == o.id) = some o →
    (∀ r ∈ o.lanes, s.refusable t o r hint.die = false) →
    exec (.requestRefusal t.uid o.id hint) s = .next s) ∧
  (∀ s t id, s.troupe? t.uid = some t →
    exec (.requestResend t.uid id) s = .next (s.setTroupe { t with ops := t.ops.map fun o =>
      if o.id = id then { o with lanes := o.lanes.map fun r =>
        if r.refused = true ∧ r.heldUntil ≤ s.clock.toNat then { r with refused := false } else r } else o })) ∧
  (∀ s t core k, (s.core core).trackers.find? (·.uid == t.uid) = some k → s.troupe? t.uid = some t →
    (s.outstanding t = true → exec (.trackerRelease core t.uid) s = .next s) ∧
    (s.outstanding t = false → exec (.trackerRelease core t.uid) s = .next
      ((s.updCore core fun c => { c with trackers := c.trackers.filter (·.uid != t.uid) }).freeSlot core k.lid))) ∧
  (∀ s c core, s.company? c.cid = some c → c.core = some core → s.allRetired c = true →
    (∀ o ∈ c.ops, o.done = true ∨ o.kind.usesStore = false) →
    exec (.companyRetire c.cid) s = .next
      ((withLaunch (s.updCompany c.cid fun c =>
          { c with core := none, spad := [], spadPoison := [], emptyLines := [], ways := 0, wayAt := [], tiles := [] }) c.lid
        fun l => { l with companiesRetired := l.companiesRetired + 1 }).freeSlot core c.lid))

/-- R137, R146, R147, R150, R151, R180, R239: arbitration and the other events of a core. The model's choices: timeouts
of operations in flight (log 120) and what may be refused (log 121). -/
def Obligations.TroupeAndCoreEvents : Prop := Claim.Arbitration ∧ Claim.CoreEvents

/-! ## Events of the engines -/

/-- R175-R177: a timeline reaches the largest number up to which every operation has completed, and never falls; completed operations that it passes
leave, those that failed or raised flags leaving a mark for each troupe that issued them; and by then no invalidation is on its way (R176). -/
def Sys2Proof.Claim.TimelinesReach : Prop :=
  ∀ s c k n, s.company? c.cid = some c → k < 6 → Reached s c k n →
    let top := max n (timelineOf s c.cid k).reached.toNat
    ∃ s' c', exec (.engineComplete c.cid k) s = .next s' ∧ s'.company? c.cid = some c' ∧
      s' = { s.settleAll with companies := s'.companies } ∧ s'.invals = [] ∧
      (∀ j, (timelineOf s' c.cid j).issued = (timelineOf s c.cid j).issued) ∧
      (∀ j, j ≠ k → (timelineOf s' c.cid j).reached = (timelineOf s c.cid j).reached) ∧
      (timelineOf s' c.cid k).reached.toNat = top ∧
      (∀ o, o ∈ c'.ops ↔ o ∈ c.ops ∧ ¬ (o.done = true ∧ o.tl = some k ∧ o.n.toNat ≤ top)) ∧
      (∀ m, m ∈ c'.marks ↔ m ∈ c.marks ∨ ∃ o ∈ c.ops, o.done = true ∧ o.tl = some k ∧ o.n.toNat ≤ top ∧ (o.failed = true ∨ o.flags ≠ 0) ∧
        ∃ u ∈ o.owners, (∃ t, s.troupe? u = some t ∧ t.retired = false) ∧
          m = { tl := k, n := o.n, uid := u, fault := o.failed, flags := o.flags }) ∧
      ∀ i, i ≠ c.cid → s'.company? i = s.company? i

/-- R187: a copy within the scratchpad moves each byte of the part that it works on, poisoned ones as zeros, which poison their line, and no other. With staging a line turns full once no byte of it is missing. -/
def Sys2Proof.Claim.ScratchpadCopies : Prop :=
  ∀ s c o dst src stg count start len k left, Working s c o → c.core ≠ none → o.badLines = [] →
    o.kind = .cpy true true stg dst src count none false → count ≠ 0 → takeRange o.todo start len = (k, left) → 0 < k → c.spad.wf = true →
    (∀ i j, i < k → j < k → (src + start + i) / 192 ≠ (dst + start + j) / 192) → (∀ r ∈ left ++ o.sent, 0 < r.2) →
    let wrote (a : Nat) : Prop := dst + start ≤ a ∧ a < dst + start + k
    ∃ s' c', exec (.copyTransfer c.cid o.id start len) s = .next s' ∧ s'.company? c.cid = some c' ∧
      s' = { s with companies := s'.companies, troupes := s'.troupes, dieUnits := s'.dieUnits } ∧
      (stg = false → s'.troupes = s.troupes) ∧ (∀ i, i ≠ c.cid → s'.company? i = s.company? i) ∧
      ((∀ i < k, src + start + i ∉ c.spadPoison) → s'.dieUnits = s.dieUnits) ∧
      (∀ a, (wrote a → cellGet c'.spad a = if src + (a - dst) ∈ c.spadPoison then 0 else cellGet c.spad (src + (a - dst))) ∧
        (¬ wrote a → cellGet c'.spad a = cellGet c.spad a)) ∧
      (∀ a, a ∈ c'.spadPoison ↔ (∃ j < k, (dst + start + j) / 192 = a / 192 ∧ src + start + j ∈ c.spadPoison) ∨ (a ∈ c.spadPoison ∧ ¬ wrote a)) ∧
      (∀ l, l ∈ c'.emptyLines ↔ l ∈ c.emptyLines ∧ ¬ (stg = true ∧ (∃ j < k, (dst + start + j) / 192 = l) ∧
        ∀ r ∈ left ++ o.sent, ∀ j, r.1 ≤ j → j < r.1 + r.2 → (dst + j) / 192 ≠ l)) ∧
      c'.tls = c.tls ∧ c'.tiles = c.tiles ∧
      ∃ bl, c'.ops.find? (·.id == o.id) = some (advancedOp left { o with badLines := bl })

/-- R146, R187, R204: the ends of an engine's access. A scratchpad byte is read as it stands, a poisoned one as 0; the operand fetcher waits while its line is empty, unless a later
operation set it empty. A global byte is read and written at its translated place, by the coherence order; a poisoned byte poisons its line. Without permission the access stops; a page away parks it. That engines other than the fetcher read an empty line as it stands,
and that the fetcher does not wait where a later operation set the line empty, is the model's choice (log 47). -/
def Sys2Proof.Claim.EngineAccesses : Prop :=
  (∀ (s : State) x c a, s.company? x.cid = some c →
    (¬ (x.fetcher = true ∧ a / 192 ∈ c.emptyLines ∧ a / 192 ∉ x.early) →
      s.srcByte x true a = .got s (if a ∈ c.spadPoison then 0 else cellGet c.spad a) (decide (a ∈ c.spadPoison))) ∧
    (x.fetcher = true → a / 192 ∈ c.emptyLines → a / 192 ∉ x.early → s.srcByte x true a = .stop (.busy s))) ∧
  (∀ (s : State) x va p s1 pa e psize, x.fetcher = false → s.translateDie (x.home / 32) x.root va p = (s1, .ok pa e psize) →
    (s1.sideHeld (s1.loc pa e psize) 1 = false →
      s.engPlace x va 1 p = .ok (s1.countHot x.root va pa e psize) (s1.loc pa e psize)) ∧
    (s1.sideHeld (s1.loc pa e psize) 1 = true → s.engPlace x va 1 p = .busy)) ∧
  (∀ (s : State) x va p s1, x.fetcher = false → s.translateDie (x.home / 32) x.root va p = (s1, .denied) → s.engPlace x va 1 p = .denied) ∧
  (∀ (s : State) x va p s1 r, x.fetcher = false → s.translateDie (x.home / 32) x.root va p = (s1, r) → r = .report ∨ r = .migrate →
    s.engPlace x va 1 p = .park (s1.faultToken x.root x.queue va (decide (r = .migrate))).1 (s1.faultToken x.root x.queue va (decide (r = .migrate))).2) ∧
  (∀ (s : State) x a,
    (s.engPlace x (a % 2 ^ 56) 1 .r = .denied → s.srcByte x false a = .stop (.fail s)) ∧
    (∀ s1 token, s.engPlace x (a % 2 ^ 56) 1 .r = .park s1 token → s.srcByte x false a = .stop (.park s1 token)) ∧
    (∀ s1 l, s.engPlace x (a % 2 ^ 56) 1 .r = .ok s1 l → s1.isPoisoned l 1 = false →
      (l.host = true → s.srcByte x false a = .got s1 (cellGet s1.mem l.byte) false) ∧
      (PlainHome s1 l → ∃ s2, s.srcByte x false a = .got s2 (s1.peek l.byte) false ∧ ∀ b, s2.peek b = s1.peek b)) ∧
    (∀ s1 l, s.engPlace x (a % 2 ^ 56) 1 .r = .ok s1 l → s1.isPoisoned l 1 = true → l.host = true ∨ s1.l2Get l.line ≠ none ∨ s1.ownedCopy l.line = none →
      ∃ s2, s.srcByte x false a = .got s2 0 true)) ∧
  (∀ (s : State) x id a b,
    (s.engPlace x (a % 2 ^ 56) 1 .w = .denied → s.dstByte x id false a b false = .fail s) ∧
    (∀ s1 token, s.engPlace x (a % 2 ^ 56) 1 .w = .park s1 token → s.dstByte x id false a b false = .park s1 token) ∧
    (∀ s1 l o, s.engPlace x (a % 2 ^ 56) 1 .w = .ok s1 l → s1.engOp? x.cid id = some o →
      (l.line ∉ o.badLines → s.dstByte x id false a b false = .ok (s1.engWrite x.core l [b] x.uid)) ∧
      (PlainHome s1 l → ∃ s2, s.dstByte x id false a b true = .ok s2 ∧ ∀ i < 192, s2.isPoisoned { l with off := i } 1 = true))) ∧
  (∀ (s : State) core l b uid, PlainHome s l → PlainSide s l →
    let s' := s.engWrite core l [b] uid
    s'.peek l.byte = b ∧ (∀ a, a ≠ l.byte → s'.peek a = s.peek a) ∧ ∀ line, line ≠ l.line → s'.l2Get line = s.l2Get line) ∧
  (∀ (s : State) core l b uid, l.host = true → s.mem.wf = true →
    ∀ a, cellGet (s.engWrite core l [b] uid).mem a = if a = l.byte then b else cellGet s.mem a)

/-- R187, R348, R349: COPY_TRANSFER. A copy of no bytes completes at once. A byte between any two ends moves, and the operation goes on
with what is left, parks for a page, or fails without permission; a part of several bytes is its first byte's part and then the rest.
A remote read asks for its part, a remote write carries it with its poison, and an atomic request goes whole, once. -/
def Sys2Proof.Claim.CopyEvents : Prop :=
  (∀ s c o dsp ssp stg dst src remote request start len, Working s c o → c.core ≠ none → o.kind = .cpy dsp ssp stg dst src 0 remote request →
    exec (.copyTransfer c.cid o.id start len) s = .next (putEng s c.cid (finished false o))) ∧
  (∀ (s : State) c o dsp ssp dst src count j, Working s c o → c.core ≠ none ∨ (dsp = false ∧ ssp = false) →
    o.kind = .cpy dsp ssp false dst src count none false → count ≠ 0 → (takeRange o.todo j 1).1 = 1 →
    let x := ctxOf s c o
    (∀ s1 b bad s2 o2, s.srcByte x ssp (src + j) = .got s1 b bad → s1.dstByte x o.id dsp (dst + j) b bad = .ok s2 →
      s2.engOp? c.cid o.id = some o2 →
      exec (.copyTransfer c.cid o.id j 1) s = .next (putEng s2 c.cid (advancedOp (takeRange o2.todo j 1).2 o2))) ∧
    (∀ s1 token o1, s.srcByte x ssp (src + j) = .stop (.park s1 token) → s1.engOp? c.cid o.id = some o1 →
      exec (.copyTransfer c.cid o.id j 1) s = .next (putEng s1 c.cid { o1 with todo := (takeRange o1.todo j 0).2, parked := some token })) ∧
    (∀ s1 o1, s.srcByte x ssp (src + j) = .stop (.fail s1) → s1.engOp? c.cid o.id = some o1 →
      exec (.copyTransfer c.cid o.id j 1) s = .next (putEng s1 c.cid (finished true o1))) ∧
    (∀ s0 b bad s1 token o1, s.srcByte x ssp (src + j) = .got s0 b bad → s0.dstByte x o.id dsp (dst + j) b bad = .park s1 token →
      s1.engOp? c.cid o.id = some o1 →
      exec (.copyTransfer c.cid o.id j 1) s = .next (putEng s1 c.cid { o1 with todo := (takeRange o1.todo j 0).2, parked := some token })) ∧
    (∀ s0 b bad s1 o1, s.srcByte x ssp (src + j) = .got s0 b bad → s0.dstByte x o.id dsp (dst + j) b bad = .fail s1 →
      s1.engOp? c.cid o.id = some o1 →
      exec (.copyTransfer c.cid o.id j 1) s = .next (putEng s1 c.cid (finished true o1)))) ∧
  (∀ (s : State) c o dsp ssp dst src count a n, Working s c o → c.core ≠ none →
    o.kind = .cpy dsp ssp false dst src count none false → o.todo = [(a, n + 2)] → o.sent = [] → count ≠ 0 →
    ∀ s1 b bad s2, s.srcByte (ctxOf s c o) ssp (src + a) = .got s1 b bad →
      s1.dstByte (ctxOf s c o) o.id dsp (dst + a) b bad = .ok s2 →
      ∃ s3, exec (.copyTransfer c.cid o.id a 1) s = .next s3 ∧
        exec (.copyTransfer c.cid o.id a (n + 2)) s = exec (.copyTransfer c.cid o.id (a + 1) (n + 1)) s3) ∧
  (∀ s c o dsp ssp stg dst src count dev start len k left, Working s c o → c.core ≠ none → count ≠ 0 →
    o.kind = .cpy dsp ssp stg dst src count (some (false, dev)) false → takeRange o.todo start len = (k, left) → 0 < k →
    exec (.copyTransfer c.cid o.id start len) s = .next
      (putEng (sends s (.readRequest dev c.cid o.id start ((src + start) % 2 ^ 56) k)) c.cid
        { o with todo := left, sent := (start, k) :: o.sent, parked := none })) ∧
  (∀ (s : State) c o dsp ssp stg dst src count dev start len k left s1 bs, Working s c o → c.core ≠ none → count ≠ 0 →
    o.kind = .cpy dsp ssp stg dst src count (some (true, dev)) false → takeRange o.todo start len = (k, left) → 0 < k →
    s.srcMarked (ctxOf s c o) ssp (src + start) [] k = .ok (s1, bs) →
    exec (.copyTransfer c.cid o.id start len) s = .next
      (putEng (sends s1 (.write dev c.cid o.id start ((dst + start) % 2 ^ 56) (bs.map (·.1)) (bs.map (·.2)))) c.cid
        { o with todo := left, sent := (start, k) :: o.sent, parked := none })) ∧
  (∀ (s : State) c o dsp ssp stg dst src count dev start len k left s1 bs, Working s c o → c.core ≠ none → count ≠ 0 →
    o.kind = .cpy dsp ssp stg dst src count (some (true, dev)) true → takeRange o.todo 0 32 = (k, left) → 0 < k →
    s.srcMarked (ctxOf s c o) ssp src [] k = .ok (s1, bs) →
    exec (.copyTransfer c.cid o.id start len) s = .next
      (putEng (sends s1 (.atomic dev c.cid o.id (parseRequest (bs.map (·.1))))) c.cid
        { o with todo := left, sent := (0, k) :: o.sent, parked := none })) ∧
  (∀ d : List Byte, let w (k : Nat) := leNat ((d.drop k).take 8)
    (parseRequest d).tva.toNat = w 0 % 2 ^ 56 ∧ (parseRequest d).opnd.toNat = w 8 ∧ (parseRequest d).cmpd.toNat = w 16 ∧
    (parseRequest d).rva.toNat = w 24 % 2 ^ 56 ∧ (parseRequest d).opc.toNat = w 24 / 2 ^ 60 ∧
    ((parseRequest d).reserved = 0 ↔ w 0 < 2 ^ 56 ∧ w 24 / 2 ^ 56 % 16 = 0))

/-- R22, R190, R317, R319: the transform pipe moves the elements that it works on, an MX destination by blocks of 32; a scan reads its source,
selects the indices whose elements satisfy the predicate, and writes its output from OUT up, value by value; INVR and FLUSHR leave no copy of a line in the home L2 or in
any RDC, and CLEANR leaves it clean; FLUSHR leaves nothing dirty in the memory-side cache. That a scan reads its source in one step is the model's choice (log 68). -/
def Sys2Proof.Claim.PipeEvents : Prop :=
  (∀ (s : State) c o src dst rm sat seed ctr tr j s1 o1, Working s c o → o.kind = .cpyl src dst tr rm sat seed ctr → dst.isMx = false →
    (takeRange o.todo j 1).1 = 1 → s.cpylOne (ctxOf s c o) o.id src dst tr rm sat seed ctr j = .ok s1 → s1.engOp? c.cid o.id = some o1 →
    exec (.transformTransfer c.cid o.id j 1) s = .next (putEng s1 c.cid (advancedOp (takeRange o1.todo j 1).2 o1))) ∧
  (∀ (s : State) c o src dst rm sat seed ctr tr b s1 o1, Working s c o → o.kind = .cpyl src dst tr rm sat seed ctr → dst.isMx = true →
    (takeRange o.todo (32 * b) 32).1 = 32 → s.cpylBlock (ctxOf s c o) o.id src dst tr rm seed ctr b = .ok s1 → s1.engOp? c.cid o.id = some o1 →
    exec (.transformTransfer c.cid o.id (32 * b) 32) s = .next (putEng s1 c.cid (advancedOp (takeRange o1.todo (32 * b) 32).2 o1))) ∧
  (∀ a codes, a.ef = 2 → a.op < 6 →
    scanSelect a codes = (List.range codes.length).filter fun i =>
      intHolds a.op (BitVec.ofNat 32 (codes.getD i 0)).toInt a.thr.toInt) ∧
  (∀ a bs,
    let w := if a.ef = 0 then 2 else 4
    let codes := (List.range a.n).map fun i => leNat ((bs.drop (w * i)).take w)
    let sel := scanSelect a codes
    let n := min sel.length a.m
    let out := (scanResult a bs).1
    leNat (out.take 4) = sel.length % 2 ^ 32 ∧ (∀ i < n, leNat ((out.drop (8 + 4 * i)).take 4) = sel.getD i 0 % 2 ^ 32) ∧
    (∀ i < n, leNat ((out.drop (8 + 4 * n + w * i)).take w) = codes.getD (sel.getD i 0) 0) ∧
    (scanResult a bs).2 = if n = 0 then [(0, 8)] else [(0, 8), (8, 4 * n), (8 + 4 * a.m, w * n)]) ∧
  (∀ (s : State) c o a, Working s c o → o.kind = .scanq a →
    let x := ctxOf s c o
    let w := if a.ef = 0 then 2 else 4
    (∀ s1 bs, o.vector = [] → s.scanBytes x a.src [] (w * a.n) = .ok (s1, bs) →
      exec (.scanRun c.cid o.id) s = .next
        (putEng s1 c.cid { o with vector := (scanResult a bs).1, todo := (scanResult a bs).2, parked := none })) ∧
    (∀ s1 o1, o.vector = [] → s.scanBytes x a.src [] (w * a.n) = .error (.fail s1) → s1.engOp? c.cid o.id = some o1 →
      exec (.scanRun c.cid o.id) s = .next (putEng s1 c.cid (finished true o1))) ∧
    (∀ off len rest s1 o1, o.vector ≠ [] → o.todo = (off, len) :: rest →
      let n := (o.vector.length - 8) / (4 + w)
      let k := min len (if off < 8 + 4 * n then 4 else w)
      let from_ := if off < 8 + 4 * n then off else off - 4 * a.m + 4 * n
      s.dstBytes x o.id false (a.out + off) false ((o.vector.drop from_).take k) = .ok s1 → s1.engOp? c.cid o.id = some o1 →
      exec (.scanRun c.cid o.id) s = .next (putEng s1 c.cid (advancedOp (takeRange o1.todo off k).2 o1)))) ∧
  (∀ s c o form start line, Working s c o → o.kind = .maint form start 0 →
    exec (.maintenanceRun c.cid o.id line) s = .next (putEng s c.cid (finished false o))) ∧
  (∀ (s : State) c o form start len line s1 ls o1, Working s c o → o.kind = .maint form start len → 0 < len →
    (takeRange o.todo line 1).1 ≠ 0 →
    let lo := max start (192 * line)
    s.maintLines (ctxOf s c o) lo [] (min (start + len) (192 * line + 192) - lo) = .ok (s1, ls) →
    (∀ l ∈ ls, s1.sideHeld l 192 = false) →
    let s2 := ls.foldl (fun s l => s.maintainLine form l.line) s1
    s2.engOp? c.cid o.id = some o1 →
    exec (.maintenanceRun c.cid o.id line) s = .next (putEng s2 c.cid (advancedOp (takeRange o1.todo line 1).2 o1))) ∧
  (∀ (s : State) form line, 1 ≤ form →
    (s.maintainLine form line).l2Get line = none ∧
    ∀ d ∈ (s.maintainLine form line).dieUnits, ∀ x ∈ d.rdc, x.line ≠ line) ∧
  (∀ (s : State) line, s.maintainLine 0 line = settledLine s line) ∧
  (∀ (s : State) form line, 2 ≤ form → ∀ x ∈ (s.maintainLine form line).msc, x.line ≠ line)

/-- R175-R177, R187, R190, R317, R319: the engines. The model's choices: logs 47, 68. -/
def Obligations.EngineEvents : Prop := Claim.TimelinesReach ∧ Claim.ScratchpadCopies ∧ Claim.EngineAccesses ∧
  Claim.CopyEvents ∧ Claim.PipeEvents

/-- R305-R307, R309, R312, R314: BKLOAD at the head of its queues writes entries that keep the rules to the named stores, and fails on others with nothing
written; a command at the head of a queue starts, performs its next entry, and ends at entry 0; the watchdog takes a command that has made no step for BKWDOG
microseconds off its queue and counts it. -/
def Sys2Proof.Claim.BankSequencers : Prop :=
  (∀ s c o va mask first count stack die s1 bs bad, Working s c o → o.kind = .bkload va mask first count stack die →
    (∀ pc ∈ channelsOf mask, (s.sequencer die stack pc).queue.head? = some (c.cid, o.id)) →
    s.srcBytes (ctxOf s c o) false va (4 * count) = .ok (s1, bs, bad) →
    let es := (List.range count).map fun i => BitVec.ofNat 32 (leNat ((bs.drop (4 * i)).take 4))
    (es.all bankEntryOk = false → exec (.bkloadExecute c.cid o.id) s = .next (s1.endBank c.cid o die stack (channelsOf mask) true)) ∧
    (es.all bankEntryOk = true → exec (.bkloadExecute c.cid o.id) s = .next
      (((channelsOf mask).foldl (fun s pc => s.putSequencer
          { s.sequencer die stack pc with store := listSet (s.sequencer die stack pc).store first es }) s1).endBank
        c.cid o die stack (channelsOf mask) false))) ∧
  (∀ (s : State) c o a pc rest, Working s c o → o.kind = .bkcmd a → (s.sequencer a.die a.stack pc).queue = (c.cid, o.id) :: rest →
    let q := s.sequencer a.die a.stack pc
    let event := exec (.bankCommandRun a.die a.stack pc) s
    (q.run = none → s.bankWaits a.die a.stack pc a = false →
      (a.bv = 0 ∨ o.vector ≠ [] → event = .next (s.startBank a.die a.stack pc a)) ∧
      (∀ s1 bs bad, a.bv ≠ 0 → o.vector = [] → s.srcBytes (ctxOf s c o) false a.bv 192 = .ok (s1, bs, bad) →
        event = .next ((putEng s1 c.cid { o with vector := bs, parked := none }).startBank a.die a.stack pc a)) ∧
      (∀ s1 token, a.bv ≠ 0 → o.vector = [] → s.srcBytes (ctxOf s c o) false a.bv 192 = .error (.park s1 token) →
        event = .next (putEng s1 c.cid { o with parked := some token })) ∧
      (∀ s1, a.bv ≠ 0 → o.vector = [] → s.srcBytes (ctxOf s c o) false a.bv 192 = .error (.fail s1) →
        event = .next (s1.endBank c.cid o a.die a.stack (o.todo.map (·.1)) true))) ∧
    (q.run = none → s.bankWaits a.die a.stack pc a = true → event = .next s) ∧
    (∀ p, q.run = some p → event = .next (s.stepBank c.cid o a.die a.stack pc p) ∧
      (let bcast := if p.args.bv = 0 then List.replicate (if p.args.f32 then 48 else 96) 0 else p.args.unpack o.vector
       let out := BankRun.entry ⟨s, p.units, p.cur, p.upc, p.flags, p.written⟩ p.args pc q.store bcast
       (∀ r, out = .goes r → event = .next (r.s.putSequencer
          { q with run := some ⟨p.args, r.units, r.cur, r.upc, r.flags, r.written⟩, clock := s.clock.toNat })) ∧
       ∀ r failed, out = .ended r failed →
         event = .next (r.s.finishBank c.cid o a.die a.stack pc ⟨p.args, r.units, r.cur, r.upc, r.flags, r.written⟩ failed)) ∧
      (q.store.getD p.upc 0 = 0 → event = .next (s.finishBank c.cid o a.die a.stack pc p false))) ∧
    (let us := (s.die a.die).bkwdog.toNat % 2 ^ 24
     let s1 := s.updDie a.die fun d => { d with bkreset := counted d.bkreset }
     (us ≠ 0 → 1750 * us ≤ s.clock.toNat - q.clock →
      (∀ p, q.run = some p → exec (.bankWatchdog a.die a.stack pc) s = .next (s1.finishBank c.cid o a.die a.stack pc p true)) ∧
      (q.run = none → exec (.bankWatchdog a.die a.stack pc) s = .next (s1.endBank c.cid o a.die a.stack [pc] true))) ∧
     (us = 0 ∨ s.clock.toNat - q.clock < 1750 * us → exec (.bankWatchdog a.die a.stack pc) s = .next s)))

/-- R177, R305, R307, R308, R312, R313: how a command runs. It starts with +0 in every register of its units, cur 0 and its entry point, and with nothing of its footprint
left dirty in the memory-side cache. An entry moves slot 0 and then slot 1, from the sources as they stood before it; each port does what R305 says, a trigger with the
rounding of its format; a row offset above OFFMAX fails before either slot; STEP begins the next iteration or ends the command; past entry 255 it fails. A WBT of
a .dup command writes what most of the three copies have, and each STEP votes on ACC: after both slots, the model's choice (log 66). A command that ends leaves its
queue with its flags and its mark. A row written stands in DRAM. -/
def Sys2Proof.Claim.BankMoves : Prop :=
  (∀ (s : State) die stack pc a, let s' := s.startBank die stack pc a
    let q := s'.sequencer die stack pc
    q.run = some ⟨a, (banksOf a.banks a.dup).map (freshUnit (if a.f32 then 48 else 96)), 0, a.entry, 0, []⟩ ∧
    q.queue = (s.sequencer die stack pc).queue ∧
    ((∀ x ∈ s.msc, x.coded = none) → s'.mem = s.mem ∧
      ∀ x, x ∈ s'.msc ↔ x ∈ s.msc ∧ ∀ i < 192, s.inFootprint q (192 * x.line + i) = false)) ∧
  (∀ (r : BankRun) a pc store bcast m0 m1, store.getD r.upc 0 ≠ 0 → bankSlots (store.getD r.upc 0) = [m0, m1] →
    let out := r.entry a pc store bcast
    let tooFar (m : BankMove) : Prop := (m.dst = 1 ∨ m.dst = 7) ∧ a.offmax < m.imm
    let sources (m : BankMove) : List (Nat × List Nat) :=
      r.units.map fun u => (u.bank, sourceOf (if a.f32 then 48 else 96) bcast u m.src)
    let r1 := (r.move a pc r.cur m0 (sources m0)).move a pc r.cur m1 (sources m1)
    (tooFar m0 ∨ tooFar m1 → out = .ended r true) ∧
    (¬ tooFar m0 → ¬ tooFar m1 → m0.dst ≠ 11 → m1.dst ≠ 11 →
      out = if r1.upc = 255 then .ended r1 true else .goes { r1 with upc := r1.upc + 1 }) ∧
    (¬ tooFar m0 → ¬ tooFar m1 → m0.dst = 11 ∨ m1.dst = 11 →
      (r1.voteAcc a = none → out = .ended r1 true) ∧
      ∀ r2, r1.voteAcc a = some r2 → out = if r2.cur < a.nr then .goes { r2 with upc := a.entry } else .ended r2 false)) ∧
  (∀ (r : BankRun) a pc store bcast, store.getD r.upc 0 = 0 → r.entry a pc store bcast = .ended r false) ∧
  (∀ (r : BankRun) a pc cur m vs, m.dst ≠ 8 → r.move a pc cur m vs = { r with
    units := r.units.map fun u => portWritten r.s a pc cur m (valueOf vs u.bank) u
    flags := r.units.foldl (fun f u => f ||| movedFlags (triggered a m.dst (valueOf vs u.bank) u)) r.flags
    cur := if m.dst = 11 then cur + m.imm else r.cur }) ∧
  (∀ (r : BankRun) a pc cur m vs, m.dst = 8 → r.move a pc cur m vs = (bankGroups a).foldl (lineWritten a pc cur (valueOf vs)) r) ∧
  (∀ (r : BankRun) a, a.dup = false → r.voteAcc a = some r) ∧
  (∀ (r : BankRun) a, a.dup = true →
    let vote (b : Nat) := most (accOf r.units b) (accOf r.units (b + 5)) (accOf r.units (b + 10))
    let banks := (List.range 16).filter a.banks.getLsbD
    (r.voteAcc a = none ↔ ∃ b ∈ banks, vote b = none) ∧
    ∀ r2, a.banks.toNat < 32 → r.voteAcc a = some r2 → r2.s = r.s ∧ r2.flags = r.flags ∧ r2.cur = r.cur ∧
      ∀ u b v, u ∈ r.units → b ∈ banks → u.bank = b ∨ u.bank = b + 5 ∨ u.bank = b + 10 → vote b = some v → { u with acc := v } ∈ r2.units) ∧
  (∀ (s : State) c o die stack pc p failed, Working s c o →
    let s' := s.finishBank c.cid o die stack pc p failed
    let q := s.sequencer die stack pc
    let left := o.todo.filter fun x => x.1 != pc
    let o' := { o with flags := o.flags ||| p.flags }
    s'.engOp? c.cid o.id = some (if left = [] then finished failed o' else { o' with todo := left, failed := o.failed || failed }) ∧
    (s'.sequencer die stack pc).queue = q.queue.filter (· != (c.cid, o.id)) ∧
    (q.queue.head? = some (c.cid, o.id) → (s'.sequencer die stack pc).run = none)) ∧
  (∀ (s : State) die pa bs, let s' := s.bankWrite die pa bs
    bs.length = 192 → (s.die die).regions = [] → s'.coded = [] → s.mem.wf = true → (∀ x ∈ s.msc, x.below.length = 192) →
    (∀ a, s'.dramByte a = if pa ≤ a ∧ a < pa + 192 then bs.getD (a - pa) 0 else s.dramByte a) ∧
    ∀ b, b ∈ s'.poison ↔ b ∈ s.poison ∧ ¬ (pa ≤ b ∧ b < pa + 192))

/-- R305-R309, R312-R314: the bank sequencers. -/
def Obligations.BankEvents : Prop := Claim.BankSequencers ∧ Claim.BankMoves

/-- R208, R217, R219, R221, R227-R229: an accepted MMA commits its next band, whose fetches all go through, as one step, and parks before it on a page that
is away; it goes on once the page is there, and fails without permission. The rows of B that one engine of a pair fetches for a band serve both. MZERO zeroes its
tile. A drain writes rows. The last band completes the operation. An offer joins the bus, or goes alone where no window is set; two that match pair; one that has stood for CLBWIN clocks proceeds alone and is
counted; a pair of which one is parked dissolves and is counted. -/
def Sys2Proof.Claim.MatrixEngine : Prop :=
  (∀ (s : State) c o a, Working s c o → o.kind = .mma a → s.bandEnabled c.cid o a = true →
    let x := ctxOf s c o
    (∀ s0 token, o.delivered = [] → s.deliverBand x o a = .error (.park s0 token) →
      exec (.mmaExecute c.cid o.id) s = .next (s0.parkMma c.cid o true token)) ∧
    (∀ s0 got, (o.delivered = [] ∧ s.deliverBand x o a = .ok (s0, got)) ∨ (o.delivered ≠ [] ∧ s0 = s ∧ got = o.delivered) →
      let band := s0.band x a (c.tiles.getD a.tile []) (o.rows / 16) got
      (∀ s1 words fl, band = .ready s1 words fl false → o.rows + 16 < 128 →
        SameWork s1 c →
        ∃ s' c', exec (.mmaExecute c.cid o.id) s = .next s' ∧ s'.company? c.cid = some c' ∧
          c'.op? o.id = some { o with rows := o.rows + 16, flags := o.flags ||| fl, held := false, delivered := [] } ∧
          (a.tile < c.tiles.length → c'.tiles.getD a.tile [] = words.foldl (fun m w => cellPut m w.1 w.2) (c.tiles.getD a.tile [])) ∧
          ∀ k, k ≠ a.tile → c'.tiles.getD k [] = c.tiles.getD k []) ∧
      (∀ s1 words fl, band = .ready s1 words fl false → 128 ≤ o.rows + 16 → SameWork s1 c → s1.partner? c.cid o.id = none →
        ∃ s' c', exec (.mmaExecute c.cid o.id) s = .next s' ∧ s'.company? c.cid = some c' ∧
          c'.op? o.id = some (finished false { o with rows := o.rows + 16, flags := o.flags ||| fl, delivered := [] }) ∧
          (a.tile < c.tiles.length → c'.tiles.getD a.tile [] = words.foldl (fun m w => cellPut m w.1 w.2) (c.tiles.getD a.tile []))) ∧
      (∀ s1 shared token, band = .stop shared (.park s1 token) →
        exec (.mmaExecute c.cid o.id) s = .next (s1.parkMma c.cid o shared token) ∧
        exec (.operandFetchPark c.cid o.id) s = .next (s1.parkMma c.cid o shared token)) ∧
      (∀ s1 shared, band = .stop shared (.fail s1) → exec (.mmaExecute c.cid o.id) s = .next (s1.finishMma c.cid o a true)))) ∧
  (∀ (s : State) x o a, s.partner? x.cid o.id = none → s.deliverBand x o a = .ok (s, [])) ∧
  (∀ (s : State) x o a k i p s1 rs, s.partner? x.cid o.id = some (k, i) → s.engOp? k i = some p → o.bus = 3 → p.done = false →
    p.rows = o.rows → s.bandRows x a (o.rows / 16) = .ok (s1, rs) →
    s.deliverBand x o a = .ok ((s1.setOp k { p with delivered := rs }).setOp x.cid { o with delivered := rs }, rs)) ∧
  (∀ s c o a token, s.company? c.cid = some c → c.ops.find? (·.id == o.id) = some o → o.kind = .mma a → o.parked = some token →
    (∀ f ∈ s.rm.faults, f.token ≠ token) → s.partner? c.cid o.id = none →
    exec (.operandFetchResume c.cid o.id) s = .next
      ((putEng s c.cid { o with parked := none }).putMrp c.cid { o with parked := none })) ∧
  (∀ s c o k, Working s c o → o.kind = .mzero k → s.atHead c.cid o.id = true → k < c.tiles.length →
    ∃ s' c', exec (.mzeroExecute c.cid o.id) s = .next s' ∧ s'.company? c.cid = some c' ∧ s' = { s with companies := s'.companies } ∧
      c'.tiles.getD k [] = [] ∧ (∀ j, j ≠ k → c'.tiles.getD j [] = c.tiles.getD j []) ∧ (∀ i, i ≠ c.cid → s'.company? i = s.company? i)) ∧
  (∀ s c o a rows, Working s c o → o.kind = .mdrain a → s.atHead c.cid o.id = true →
    exec (.mdrainExecute c.cid o.id rows) s = .next (afterDrain c.cid o.id a
      (moveLoop (fun s j => s.drainOne (ctxOf s c o) o.id a (c.tiles.getD a.tile []) j) s o.rows 0
        (min rows ((if a.tr then 256 else 128) - o.rows))))) ∧
  (∀ s c o a core, Working s c o → o.kind = .mma a → a.bcast = true → o.bus = 0 → c.core = some core → s.offerNext core o.id = true →
    core / 2 < s.clusters.length →
    let k := s.cluster (core / 2)
    let window := k.clbwin.toNat % 2 ^ 20
    (k.offers = [] → window ≠ 0 →
      exec (.busOffer c.cid o.id) s = .next ((putEng s c.cid { o with bus := 1, busClock := s.clock.toNat }).updCluster (core / 2) fun k =>
        { k with offers := k.offers ++ [(core, c.cid, o.id)] })) ∧
    (k.offers = [] → window = 0 →
      exec (.busOffer c.cid o.id) s = .next ((putEng s c.cid { o with bus := 2, busClock := s.clock.toNat }).updCluster (core / 2) fun k =>
        { k with clbmiss := counted k.clbmiss })) ∧
    (∀ core2 c2 i2 o2, k.offers = [(core2, c2, i2)] → core2 ≠ core → core2 / 2 = core / 2 → s.engOp? c2 i2 = some o2 → c2 ≠ c.cid →
      window ≠ 0 → s.clock.toNat - o2.busClock < window → s.offersMatch (c.cid, o.id) (c2, i2) = true → s.offersMatch (c2, i2) (c.cid, o.id) = true →
      ∃ s', exec (.busOffer c.cid o.id) s = .next s' ∧ (s'.cluster (core / 2)).offers = [] ∧
        (s'.cluster (core / 2)).clbpair = counted (counted k.clbpair) ∧
        ((s'.cluster (core / 2)).pairs = k.pairs ++ [((c.cid, o.id), (c2, i2))] ∨ (s'.cluster (core / 2)).pairs = k.pairs ++ [((c2, i2), (c.cid, o.id))]) ∧
        s'.engOp? c.cid o.id = some { o with bus := 3, busClock := s.clock.toNat } ∧ s'.engOp? c2 i2 = some { o2 with bus := 3 })) ∧
  (∀ s c o core, s.company? c.cid = some c → c.ops.find? (·.id == o.id) = some o → (s.cluster (core / 2)).offers = [(core, c.cid, o.id)] →
    (s.cluster (core / 2)).clbwin.toNat % 2 ^ 20 ≤ s.clock.toNat - o.busClock →
    exec (.busWindowExpiry core) s = .next (putEng (s.updCluster (core / 2) fun k =>
      { k with offers := k.offers.filter (· != (core, c.cid, o.id)), clbmiss := counted k.clbmiss }) c.cid { o with bus := 2 })) ∧
  (∀ s c o q cluster, s.company? c.cid = some c → c.ops.find? (·.id == o.id) = some o → o.done = false → o.parked ≠ none →
    (s.cluster cluster).pairs = [((c.cid, o.id), q)] →
    exec (.busPairSplit cluster) s = .next ((s.unpair c.cid o.id).updCluster cluster fun k => { k with clbsplit := counted k.clbsplit })) ∧
  (∀ s cluster, (∀ pair ∈ (s.cluster cluster).pairs, ∀ p ∈ [pair.1, pair.2], ∀ o, s.engOp? p.1 p.2 = some o → o.done = true ∨
      (o.parked = none ∧ o.held = false ∧ ∀ c, s.company? p.1 = some c → c.core ≠ none ∧ c.preempting = false)) →
    exec (.busPairSplit cluster) s = .next s)

/-- R25-R30, R194, R203, R208, R211, R212, R221: the matrix arithmetic. The word of a band's element is ACCUM of its row of A' and its row of B' over Kc, by the rule that SM, AF and BF
choose; A' and B' are the operands' rows, or, in the place of one of them, LATSUM of the decoded rows with U's rows or columns, rounded into the format with
the scales that SM asks for. A drained row is quantised as R221 says, with SRR's values of the elements' own indices, and its bytes and scales go to the scratchpad. The scale
of a record whose format carries none is the model's choice (log 53). -/
def Sys2Proof.Claim.MatrixArithmetic : Prop :=
  (∀ sm af bf, let float (c : Nat) : Prop := c = 1 ∨ c = 2
    let fp8 (c : Nat) : Prop := c = 3 ∨ c = 4
    (mmaRule? sm af bf = some .groups ↔ sm = 0 ∧ af = bf ∧ float af) ∧ (mmaRule? sm af bf = some .synthesised ↔ sm = 0 ∧ af = 0 ∧ bf = 0) ∧
    (mmaRule? sm af bf = some .int8 ↔ sm = 0 ∧ af = 9 ∧ bf = 9) ∧ (mmaRule? sm af bf = some .fp8 ↔ (sm = 0 ∨ sm = 1) ∧ fp8 af ∧ fp8 bf) ∧
    (mmaRule? sm af bf = some .mx ↔ sm = 2 ∧ 3 ≤ af ∧ af ≤ 8 ∧ 3 ≤ bf ∧ bf ≤ 8)) ∧
  (∀ rule kc acc a b, accum rule kc acc a b = accumulated rule kc acc a b) ∧
  (∀ (s : State) x a tile band got s1 A s2 B rule, s.sideA x a = .ok (s1, A) → s1.sideB x a band got = .ok (s2, B) →
    mmaRule? a.sm a.af a.bf = some rule →
    let kc := if a.lat = 2 then a.lr else a.k
    let new (i j : Nat) (ra rb : EngRow) : Rounded := accumulated rule kc (cellGet tile (128 * i + 16 * band + j)).toNat ra rb
    ∃ words fl, s.band x a tile band got = .ready s2 words fl (A.bad || B.bad) ∧
      ∀ w, w ∈ words ↔ ∃ i j ra rb, A.rows[i]? = some ra ∧ B.rows[j]? = some rb ∧
        w = (128 * i + 16 * band + j, BitVec.ofNat 32 (new i j ra rb).code)) ∧
  (∀ (s : State) x a s1 rs, fetchMany (fun s i => s.operandRow x a.a a.af a.k (scaleKindA a.sm) i) s 0 [] 128 = .ok (s1, rs) →
    (a.lat ≠ 2 → s.sideA x a = .ok (s1, ⟨rs.map fun r => ⟨r.codes.map (decodeElem a.af), r.scales⟩, 0, rs.any (·.bad)⟩)) ∧
    (∀ s2 us bad, a.lat = 2 → s1.upProjection x a = .ok (s2, us, bad) → ∃ side, s.sideA x a = .ok (s2, side) ∧
      side.rows = (quantRows a.af a.sm a.sat false (rs.map fun r => us.map fun u => latent (r.stageRow (a.a.fmt a.af)).1 u)).1)) ∧
  (∀ (s : State) x a band got s1 rs, a.lat ≠ 1 →
    (if got = [] then s.bandRows x a band = .ok (s1, rs) else s1 = s ∧ rs = got) →
    s.sideB x a band got = .ok (s1, ⟨rs.map fun r => ⟨r.codes.map (decodeElem a.bf), r.scales⟩, 0, rs.any (·.bad)⟩)) ∧
  (∀ (s : State) x a band got s1 rs s2 us bad, a.lat = 1 →
    fetchMany (fun s i => s.operandRow x a.b a.bf a.lr (scaleKindB a.sm) i) s 0 [] 128 = .ok (s1, rs) →
    s1.upProjection x a = .ok (s2, us, bad) → ∃ side, s.sideB x a band got = .ok (s2, side) ∧
      side.rows = (((quantRows a.bf a.sm a.sat true (rs.map fun r => (List.range a.k).map fun k =>
        latent (r.stageRow (a.b.fmt a.bf)).1 (us.map fun u => u.getD k (.fin false 0 0)))).1).drop (16 * band)).take 16) ∧
  (∀ (r : OpRow) F k c, r.codes[k]? = some c → (r.scales = [] → (r.stageRow F).1[k]? = some (decodeElem F c)) ∧
    (r.scales ≠ [] → let sc := r.scales.getD (k / r.block) 0
      (r.stageRow F).1[k]? = some (fp32.decode (if r.block = 32 then rne32 (mxDecode F sc c)
        else fp32.finish ((decodeElem F c).mul (fp32.decode sc))).code))) ∧
  (∀ F sat shared (rows : List (List Val)) (i : Nat) (row : List Val), rows[i]? = some row →
    let part (w g : Nat) (xs : List Val) : List Val := (xs.drop (w * g)).take w
    let scale (g : Nat) : Nat := fp8Scale F (if shared then rows.flatMap (part 128 g) else part 128 g row)
    let out (sm : Nat) : Option EngRow := (quantRows F sm sat shared rows).1[i]?
    out 0 = some ⟨row.map fun v => decodeElem F (roundTo F .rn 0 sat false v).code, []⟩ ∧
    out 1 = some ⟨(List.range (row.length / 128)).flatMap fun g =>
        (part 128 g row).map fun v => decodeElem F (fp8Encode F .rn 0 sat v (fp32.decode (scale g))).code,
      (List.range (row.length / 128)).map scale⟩ ∧
    out 2 = some ⟨(List.range (row.length / 32)).flatMap fun g =>
        (mxBlock F .rn (fun _ => 0) (part 32 g row)).2.1.map (decodeElem F),
      (List.range (row.length / 32)).map fun g => (mxBlock F .rn (fun _ => 0) (part 32 g row)).1⟩) ∧
  (∀ F mode sat r words, let d := drainRow F mode sat r words
    (d.1, d.2.1) = drained F mode sat r words) ∧
  (∀ (s : State) x id a tile j off stride s1 s2, (if 128 ≤ j then a.dstT else a.dst) = .sp off stride →
    let w := j % 128
    let F := if 128 ≤ j then a.tf else a.df
    let at_ (c : Nat) : Nat := if 128 ≤ j then 128 * c + w else 128 * w + c
    let row := drainRow F (if a.sr then .sr else .rn) a.sat
      (fun c => srr a.seed a.ctr (BitVec.ofNat 64 (at_ c)) (if 128 ≤ j then 1 else 0)) ((List.range 128).map fun c => cellGet tile (at_ c))
    s.dstBytes x id true (off + w * stride) false (packRow F row.1) = .ok s1 →
    s1.dstBytes x id true (off + 128 * stride + 4 * w) false row.2.1 = .ok s2 →
    s.drainOne x id a tile j = .ok (s2.opFlags x.cid id row.2.2))

/-- R25-R30, R194, R203, R208, R211, R212, R217, R219, R221, R227-R229: the matrix engine. -/
def Obligations.MatrixEvents : Prop := Claim.MatrixEngine ∧ Claim.MatrixArithmetic

/-! ## Events of the memory side -/

/-- R240, R242, R244, R241, R298, R268, R289, R362, R282: a recall leaves no owner; an invalidation in flight drops its die's copy; a line that is brought in takes the way of the
least recently used line of its class when that holds its quota of the set, or of the set when its sixteen ways are full; a strait is retired once; errors are counted,
clean copies fetched anew or dropped and dirty ones poisoned; the repair of a stale block reads its line, then writes its entry. -/
def Sys2Proof.Claim.DieEvents : Prop :=
  (∀ s line, ∃ s', exec (.ownershipRecall line) s = .next s' ∧ s'.ownedCopy line = none) ∧
  (∀ s i, s.invals.find? (fun x => x.die == i.die && x.line == i.line) = some i →
    ∃ s', exec (.rdcInvalidation i.die i.line) s = .next s' ∧ s'.invals = s.invals.erase i ∧ (∀ x ∈ (s'.die i.die).rdc, x.line ≠ i.line) ∧
      (∀ a, cellGet s'.mem a = cellGet s.mem a) ∧ s'.l2 = s.l2 ∧ s'.cores = s.cores) ∧
  (∀ (s : State) pa cls x, let l := { s.rawLoc pa with cls := cls }
    l.host = false → s.l2Get l.line = none → s.l2Victim? l = some x →
    ∃ s', exec (.l2Eviction pa cls) s = .next s' ∧ s'.l2Get x = none ∧ ∀ line, line ≠ x → (s'.l2Get line).isSome = (s.l2Get line).isSome) ∧
  (∀ (s : State) l ys y,
    let inSet := (s.l2.filter fun x => s.lineDie x == l.die).filter fun x => slotOf x.line == slotOf l.line
    let ours := inSet.filter (·.cls == l.cls)
    (ours = ys ++ [y] → s.l2Quota l.die l.cls ≤ ys.length + 1 → s.l2Victim? l = some y.line) ∧
    (ours.length < s.l2Quota l.die l.cls → inSet = ys ++ [y] → 16 ≤ ys.length + 1 → s.l2Victim? l = some y.line) ∧
    (ours.length < s.l2Quota l.die l.cls → inSet.length < 16 → s.l2Victim? l = none)) ∧
  (∀ s edge, edge < 4 →
    (edge ∉ s.straitsOut → exec (.straitRetirement edge) s = .next { s with straitsOut := s.straitsOut ++ [edge] }) ∧
    (edge ∈ s.straitsOut → exec (.straitRetirement edge) s = .next s)) ∧
  (∀ s d, (∀ k, ∀ site ∈ [ErrorSite.homeL2, .rdc k, .tlb k, .counterLine, .directory, .summary],
      exec (.correctedError d site) s = .next (s.updDie d fun x => { x with dnecc := counted x.dnecc })) ∧
    exec (.correctedError d .core) s = .next (s.updDie d fun x => { x with errcore := counted x.errcore }) ∧
    exec (.correctedError d .matrix) s = .next (s.updDie d fun x => { x with errmat := counted x.errmat }) ∧
    (∀ site ∈ [ErrorSite.memorySide, .stringLine],
      exec (.correctedError d site) s = .next (s.updDie d fun x => { x with errmsc := counted x.errmsc })) ∧
    exec (.correctedError d .hbm) s = .next (s.updDie d fun x => { x with errhbm := counted x.errhbm })) ∧
  (∀ (s : State) pa x, s.l2.find? (fun x => lineHolds pa x.line) = some x →
    (x.dirty = true → s.allowanceLine? (192 * x.line) 192 = none → ∃ s', exec (.uncorrectableError pa .homeL2) s = .next s' ∧
      ∀ i < 192, s.directoryByte (s.lineDie x) (192 * x.line + i) = false → s'.isPoisoned { s.lineLoc x with off := i } 1 = true) ∧
    (x.dirty = false → ∃ s', exec (.uncorrectableError pa .homeL2) s = .next s' ∧
      s'.l2Get x.line = some { x with data := s.lineBelow x.line x.cmp, bad := s.badBelow x.line } ∧ s'.poison = s.poison ∧
      (s.lineDie x < s.dieUnits.length → (s'.die (s.lineDie x)).dnecc = counted (s.die (s.lineDie x)).dnecc))) ∧
  (∀ (s : State) line, s.lineBelow line none = bytesAt s.mem (192 * line) 192 ∧
    ∀ i, i ∈ s.badBelow line ↔ i < 192 ∧ 192 * line + i ∈ s.poison) ∧
  (∀ s pa d, d < s.dieUnits.length → (∃ x ∈ (s.die d).rdc, lineHolds pa x.line = true) →
    ∃ s', exec (.uncorrectableError pa (.rdc d)) s = .next s' ∧ s'.poison = s.poison ∧ (∀ x ∈ (s'.die d).rdc, lineHolds pa x.line = false) ∧
      (s'.die d).dnecc = counted (s.die d).dnecc ∧ ∀ e, e ≠ d → s'.die e = s.die e) ∧
  (∀ s die region g block, (s.die die).regions[region]? = some g → g.edit = none → s.regionState g = 1 → s.stringHeld g = false →
    block < g.r.nb →
    (∀ line, g.repairing = some (block, line) → exec (.backgroundRepair die region block) s = .next
      ((s.repairBlock g block line).updRegion die g.root g.ra fun g => { g with repairing := none })) ∧
    (g.repairing = none → s.blockStale g block = true → exec (.backgroundRepair die region block) s = .next
      (s.updRegion die g.root g.ra fun g => { g with repairing := some (block, s.strLine g block) })))

/-- R274, R282: the repair of a block writes its entry from the line that was read: POP, and in a region of brackets EXC, MIN and MAX, of the
block's counted positions, with STALE clear; the other entries of the directory's blocks keep theirs, and the string its bytes. -/
def Sys2Proof.Claim.BlockRepair : Prop :=
  ∀ (s : State) g b line, s.mem.wf = true → b < g.r.nb →
    (∀ i j, i < g.r.dsize → j < g.r.dsize → g.dirPa i = g.dirPa j → i = j) →
    let s' := s.repairBlock g b line
    let n := min 1536 (s.dirGet g 0x10 4 - 1536 * b)
    let bit (j : Nat) : Bool := (line.getD (j / 8) 0).toNat.testBit (j % 8)
    let ones (j : Nat) : Nat := ((List.range j).filter bit).length
    let excess (j : Nat) : Int := 2 * (ones (j + 1) : Int) - (j + 1)
    let w := s'.blockWord g b
    let field (lo : Nat) : Int := (BitVec.ofNat 12 (w / 2 ^ lo)).toInt
    w % 2 ^ 11 = ones n ∧ w.testBit 47 = false ∧ w / 2 ^ 48 = 0 ∧
    (g.r.rkind ≠ 1 ∨ n = 0 → w = ones n) ∧
    (g.r.rkind = 1 → n ≠ 0 → field 11 = excess (n - 1) ∧
      (∀ j < n, field 23 ≤ excess j ∧ excess j ≤ field 35) ∧ (∃ j < n, excess j = field 23) ∧ ∃ j < n, excess j = field 35) ∧
    (∀ k, k < g.r.nb → k ≠ b → s'.blockWord g k = s.blockWord g k) ∧
    ∀ a, (∀ i < g.r.dsize, g.dirPa i ≠ a) → cellGet s'.mem a = cellGet s.mem a

/-- R363: a measurement is kept in PWRNOW; above the limit or with a junction above its own the clock falls by a sixteenth, not below one sixteenth; below the
limit it rises by one, not above 16; THRCNT counts while the clock is lowered. -/
def Sys2Proof.Claim.PowerThrottling : Prop :=
  ∀ s watts celsius hot, watts < 2 ^ 16 → celsius < 2 ^ 16 →
    let lim := s.boot.pwrlim.toNat % 2 ^ 16
    let clk := s.boot.thrstat.toNat % 32
    ∃ s', exec (.powerThrottle watts celsius hot) s = .next s' ∧
      s' = { s with boot := { s.boot with pwrnow := s'.boot.pwrnow, thrstat := s'.boot.thrstat, thrcnt := s'.boot.thrcnt } } ∧
      s'.boot.pwrnow.toNat = celsius * 2 ^ 16 + watts ∧
      s'.boot.thrstat.toNat % 32 = clockAfter clk watts lim hot ∧
      s'.boot.thrcnt = (if clockAfter clk watts lim hot < 16 then counted s.boot.thrcnt else s.boot.thrcnt) ∧
      (lim < watts ∨ hot = true →
        s'.boot.thrstat.getLsbD 8 = decide (lim < watts) ∧ s'.boot.thrstat.getLsbD 9 = hot)

/-- R241-R244, R268, R282, R289, R298, R362, R363: caches, errors, repairs, and power. -/
def Obligations.MemorySideEvents : Prop := Claim.DieEvents ∧ Claim.BlockRepair ∧ Claim.PowerThrottling

/-- R321-R323: a page in the capacity tier that agents wait for moves to a free frame: its entry names it, and the token is answered; with every pool empty the
agents stay parked and the host is told once. A page is demoted to the frame given. The tracker's candidate is promoted and counted, or skipped and counted
where it is pinned. A page that has moved: its leaf entry names the new frame, with CAP = 0 in HBM and 1 in the capacity tier and its other bits as they were; every byte of the page
reads the same at its new place, and every other byte as before. That the die whose tracker it is stands as the first for the frame is the model's choice (log 72), and so is that a
page moves in one step (log 69). -/
def Obligations.PagingEvents : Prop :=
  (∀ s f a e psize die, s.rm.faults.find? (fun x => x.token == f.token && x.migrate) = some f → s.leaf? f.root f.va = some (a, e, psize) →
    entryCAP e = true → entryPIN e = false → die < 4 →
    (∀ d frame, s.freeFrame? die psize = some (d, frame) → s.moveWaits (entryFrame e) frame psize = false →
      exec (.pageMigration f.token die) s = .next (s.promote f.root f.va a e psize d frame)) ∧
    (s.freeFrame? die psize = none → f.starved = true → exec (.pageMigration f.token die) s = .next s) ∧
    (s.freeFrame? die psize = none → f.starved = false →
      ∃ s', exec (.pageMigration f.token die) s = .next s' ∧
        s'.rm.messages = s.rm.messages ++ [{ kind := 4, queue := 0, a32 := BitVec.ofNat 32 die, a64 := 0, vector := none }] ∧
        s'.mem = s.mem ∧ s'.troupes = s.troupes)) ∧
  (∀ (s : State) root va entryPa e psize d frame,
    let s' := s.promote root va entryPa e psize d frame
    (∀ f ∈ s'.rm.faults, ¬ (f.migrate = true ∧ f.root = root ∧ va - va % psize ≤ f.va ∧ f.va < va - va % psize + psize)) ∧
    s'.rm.messages.getLast? = some { kind := 3, queue := 0, a32 := if psize = 2 ^ 16 then 0 else if psize = 2 ^ 21 then 1 else 2,
                                     a64 := BitVec.ofNat 64 (entryFrame e), vector := none }) ∧
  (∀ s root va frame a e psize d k k2 j j2, s.leaf? root va = some (a, e, psize) → s.window? (entryFrame e) = some (.hbm, d) →
    s.window? frame = some (k, j) → s.window? (frame + psize - 1) = some (k2, j2) → k ≠ .hbm → k2 ≠ .hbm → frame % psize = 0 →
    entryCMP e = false → s.recovery = false → s.moveWaits (entryFrame e) frame psize = false →
    exec (.pageDemotion root va frame) s = .next
      ((s.movePage root va a e psize frame true).updDie d fun x => { x with frames := x.frames ++ [(entryFrame e, psize)] })) ∧
  (∀ s die root vb n a e psize, (s.die die).hot = [(root, vb, n)] → (s.die die).hpthresh.toNat % 2 ^ 16 ≠ 0 →
    (s.die die).hpthresh.toNat % 2 ^ 16 ≤ n → s.leaf? root vb = some (a, e, psize) →
    (entryPIN e = true → exec (.hotPagePromotion die) s = .next
      ((s.updDie die fun x => { x with hot := x.hot.filter fun y => !(decide (y.1 = root) && decide (y.2.1 = vb)) }).updDie die
        fun x => { x with hptpinskip := counted x.hptpinskip })) ∧
    (∀ w d frame, entryPIN e = false → s.window? (entryFrame e) = some w → w.1 ≠ .hbm → s.moveWaits (entryFrame e) frame psize = false →
      s.freeFrame? die psize = some (d, frame) →
      exec (.hotPagePromotion die) s = .next ((s.promote root vb a e psize d frame).updDie die fun x => { x with hptpromo := counted x.hptpromo }))) ∧
  (∀ (s : State) root va a e psize frame cap, PlainMemory s a → frame % 2 ^ 16 = 0 → frame < 2 ^ 52 →
    NoByteCommon frame psize (entryFrame e) psize → NoByteCommon a 8 frame psize → NoByteCommon a 8 (entryFrame e) psize →
    PageMoved s (s.movePage root va a e psize frame cap) a e psize frame cap ∧
    (cap = false → ∀ d, PageMoved s (s.promote root va a e psize d frame) a e psize frame false)) ∧
  (∀ (s : State) root va a e psize, s.leaf? root va = some (a, e, psize) → s.peekNat a 8 = e.toNat)

/-! ## The Ringmaster -/

/-- R327-R331, R368: the entry at an open queue's head is refused with 0x0003 for a nonzero reserved byte, and the code stands in its status bytes in memory; a
candidate is eligible once its dependences are met; a launch that starts has status 1 there, its queue passes the entry, and it is active with its companies at the
distributors. The head taken next has the highest priority, and of those its queue comes first after the one taken last. That a launch's start leaves no core an older read-only or
unowned L1 line and no die an older remote copy is the model's choice (log 86; R148 speaks of the read-only cache alone), and so is that a candidate is eligible by what its dependences
read at the last poll (log 83). -/
def Sys2Proof.Claim.LaunchQueue : Prop :=
  (∀ s q s1 ent, s.queueOpen q = true → (∀ c ∈ s.rm.candidates, c.queue ≠ q) →
    s.physRead (s.entryPa q (s.queue q).qhead.toNat) 64 = (s1, ent) →
    field ent 0x1B 1 ≠ 0 → exec (.entryCheck q) s = .next (s1.refuseEntry q 3)) ∧
  (∀ (s : State) q code, q < s.rm.queues.length → ((s.refuseEntry q code).queue q).qhead = (s.queue q).qhead + 1 ∧
    (s.refuseEntry q code).mem = (s.writeStatus q (s.queue q).qhead.toNat code).mem ∧
    (s.refuseEntry q code).l2 = (s.writeStatus q (s.queue q).qhead.toNat code).l2) ∧
  (∀ (s : State) q i code, code < 2 ^ 16 →
    let pa := s.entryPa q i + 0x18
    (HostEntry s q i → leNat (bytesAt (s.writeStatus q i code).mem pa 2) = code ∧
      ∀ a, a < pa ∨ pa + 2 ≤ a → cellGet (s.writeStatus q i code).mem a = cellGet s.mem a) ∧
    (s.entryPa q i % 64 = 0 → PlainHome s (s.rawLoc pa) → s.allowanceLine? pa 2 = none →
      (s.writeStatus q i code).peekNat pa 2 = code ∧ ∀ a, a < pa ∨ pa + 2 ≤ a → (s.writeStatus q i code).peek a = s.peek a)) ∧
  (∀ s q s1 ent hdrVa s2 bs h s3, s.queueOpen q = true → (∀ c ∈ s.rm.candidates, c.queue ≠ q) →
    s.physRead (s.entryPa q (s.queue q).qhead.toNat) 64 = (s1, ent) →
    allZeroIn ent 0x1B 0x1C = true → allZeroIn ent 0x28 0x40 = true → field ent 0x1A 1 < 4 → field ent 0 8 = hdrVa → hdrVa % 192 = 0 →
    field ent 8 8 % 8 = 0 → s1.rmRead q none (s.queue q).qroot.toNat hdrVa [] 24 = .got s2 bs → parseHeader bs = some h →
    s2.checkWords q (s.queue q).qroot.toNat [(h.dep0, .r), (h.dep1, .r), (field ent 8 8, .r), (field ent 8 8, .w)] = .ok s3 →
    (h.resident = true → s3.placeable h = true) →
    exec (.entryCheck q) s = .next ((s3.dropWaits q none).updRm fun r => { r with candidates := r.candidates ++
      [{ queue := q, index := (s.queue q).qhead.toNat, hdrVa := hdrVa, hdr := h, sig := field ent 8 8,
         sigval := BitVec.ofNat 64 (field ent 16 8), flags := BitVec.ofNat 8 (field ent 0x1A 1),
         eligible := decide (h.dep0 = 0) && decide (h.dep1 = 0) }] })) ∧
  (∀ s q c s1 s2 a b, s.rm.candidates.find? (·.queue == q) = some c →
    s.depMet q (s.queue q).qroot.toNat c.hdr.dep0 c.hdr.val0 = (s1, a) →
    s1.depMet q (s.queue q).qroot.toNat c.hdr.dep1 c.hdr.val1 = (s2, b) →
    exec (.dependencePoll q) s = .next (s2.updRm fun r =>
      { r with candidates := r.candidates.map fun x => if x.queue = q then { x with eligible := a && b } else x })) ∧
  (∀ s c, ¬ recovering s → s.startsHeld = false → s.rm.launches.length < 64 → s.nextLaunch? = some c → c.queue < s.rm.queues.length →
    ∃ s' l, exec .launchStart s = .next s' ∧ s'.rm.launches = s.rm.launches ++ [l] ∧ l.lid = s.nextId ∧ l.queue = c.queue ∧
      l.index = c.index ∧ l.hdr = c.hdr ∧ l.ending = none ∧ l.statusDone = false ∧
      (s'.queue c.queue).qhead = (s.queue c.queue).qhead + 1 ∧ s'.rm.lastQueue = c.queue ∧
      l.dist = (if c.hdr.resident then [] else s.distribute c.hdr) ∧ l.companiesRetired = 0 ∧ l.troupesRetired = 0 ∧
      (∀ k ∈ s'.cores, k.ro = [] ∧ ∀ x ∈ k.l1, x.owned = true) ∧ s'.invals = [] ∧ (∀ x ∈ s'.rm.candidates, x.queue ≠ c.queue) ∧
      s'.mem = (s.writeStatus c.queue c.index 1).mem ∧ s'.l2 = (s.writeStatus c.queue c.index 1).l2) ∧
  (∀ (s : State) c, s.nextLaunch? = some c → c ∈ s.rm.candidates ∧ c.eligible = true ∧ s.queueHeld c.queue = false ∧
    ∀ x ∈ s.rm.candidates, x.eligible = true → (s.queue x.queue).qctl.getLsbD 0 = true → s.queueHeld x.queue = false → x.queue < 64 →
      s.rm.lastQueue < 64 → x.hdr.prio ≤ c.hdr.prio ∧
      (x.hdr.prio = c.hdr.prio → (c.queue + 63 - s.rm.lastQueue) % 64 ≤ (x.queue + 63 - s.rm.lastQueue) % 64))

/-- R333-R335: a launch's distributors, and the company that each takes. A company comes off its range; what follows it has begun where it is of the same unit. A steal takes the upper half
of the units that have not begun of the richest sibling, the lowest-numbered on a tie, and leaves the rest; when every cluster of the die is dry, of a cluster of another die. No unit of
which a company was admitted is among those that may move. A cluster that holds companies 20 to 26 keeps 20 to 23. The victim for a launch has, of those whose records the pool holds,
the lowest priority, and of those it was admitted last (R337); where one may be taken is by the waiting company's cores, the model's choice (log 90). -/
def Sys2Proof.Claim.StealsAndVictims : Prop :=
  (∀ unit k q hi b, 0 < unit → q < hi →
    takeCompany unit [⟨k, q, hi, b⟩] k q = if q + 1 < hi then [⟨k, q + 1, hi, decide ((q + 1) % unit ≠ 0)⟩] else []) ∧
  (∀ (s : State) (l : Launch) cluster k lo hi b rest, let u := l.hdr.unitC
    let n := notBegun u ⟨k, lo, hi, b⟩
    0 < u → l.hdr.bindd = 0 → l.ending = none → l.statusDone = false → cluster < 64 → s.clusterIn cluster = true → k / 16 = cluster / 16 → k ≠ cluster →
    WholeUnits u ⟨k, lo, hi, b⟩ → l.dist = ⟨k, lo, hi, b⟩ :: rest → rest.length < 2 →
    (∀ r ∈ rest, WholeUnits u r ∧ r.cluster / 16 = cluster / 16 ∧ r.cluster ≠ k ∧ r.cluster ≠ cluster ∧ notBegun u r ≤ n ∧ (notBegun u r = n → k < r.cluster)) →
    s.stealFor l cluster = if n < 2 then none else
      some (⟨k, lo, hi - n / 2 * u, b⟩ :: rest ++ [⟨cluster, hi - n / 2 * u, hi, false⟩])) ∧
  (∀ (s : State) (l : Launch) cluster k lo hi b, let u := l.hdr.unitC
    let n := notBegun u ⟨k, lo, hi, b⟩
    0 < u → l.hdr.bindd = 0 → l.ending = none → l.statusDone = false → cluster < 64 → s.clusterIn cluster = true → k < 64 → k / 16 ≠ cluster / 16 →
    WholeUnits u ⟨k, lo, hi, b⟩ → l.dist = [⟨k, lo, hi, b⟩] → 2 ≤ n →
    ∃ d, s.stealFor l cluster = some (⟨k, lo, hi - n / 2 * u, b⟩ :: d) ∧ (∀ r ∈ d, r.cluster / 16 = cluster / 16 ∧ s.clusterIn r.cluster = true) ∧
      ∀ q, (hi - n / 2 * u ≤ q ∧ q < hi) ↔ ∃ r ∈ d, r.lo ≤ q ∧ q < r.hi) ∧
  (∀ (r : DistRange) unit unitD begun, 0 < unit → 0 < unitD → ∀ p ∈ r.free unit unitD begun, ∀ q, p.1 ≤ q → q < p.2 →
    r.lo ≤ q ∧ q < r.hi ∧ (r.begun = true → q / unit ≠ r.lo / unit) ∧ ∀ d ∈ begun, q / unitD ≠ d) ∧
  (∀ (s : State) (l : Launch), l.hdr.bindd ≠ 0 → ∀ c ∈ s.companies, c.lid = l.lid → c.q / l.hdr.unitD ∈ s.begunUnits l) ∧
  (∀ (s : State) (l : Launch), l.hdr.bindc = 0 → l.hdr.bindd = 0 → l.ending = none → l.statusDone = false → s.clusterIn 1 = true → l.dist = [⟨0, 20, 27, false⟩] →
    s.stealFor l 1 = some [⟨0, 20, 24, false⟩, ⟨1, 24, 27, false⟩]) ∧
  (∀ (s : State) l, (∀ c, s.victimFor l = some c → MayBeVictim s l c ∧
      ∀ x, MayBeVictim s l x → prioOf s c ≤ prioOf s x ∧ (prioOf s x = prioOf s c → x.admitted ≤ c.admitted)) ∧
    (s.victimFor l = none → ∀ x, ¬ MayBeVictim s l x))

/-- R83, R142, R333-R335, R337, R156, R158: the company that a cluster's distributor offers is admitted to a core that has room, when no launch offered first has a company for that
core; an all-resident launch is placed whole, every company on its core, in the order of priority and of starting, which is the model's choice (log 89); a dry distributor's steal; a
pre-emption's victim, its saving and its return, to a core that its launch's bindings allow. That the return empties the read-only cache and settles what is on its way to the die is
the model's choice (log 86). -/
def Sys2Proof.Claim.CompanyMoves : Prop :=
  (∀ s l core q s1 groups s2, s.launch? l.lid = some l → s.mayAdmit l core = true →
    (∀ x ∈ s.offerOrder.takeWhile (fun x => x.lid != l.lid), s.mayAdmit x core = false ∧
      ∀ c ∈ s.companies, c.lid = x.lid → s.mayResume x c core = false) →
    (core % 2 = 1 → s.mayAdmit l (core - 1) = false) → l.offer? (core / 2) = some q → s.readGroups l [] 8 = (some (s1, groups), s2) →
    exec (.companyAdmit core l.lid) s = .next
      ((withLaunch s1 l.lid fun x => { x with dist := takeCompany l.hdr.unitC x.dist (core / 2) q }).takeIn l q core groups)) ∧
  (∀ (s : State) l q core groups, ∃ c ∈ (s.takeIn l q core groups).companies, c.cid = s.nextId ∧ c.q = q ∧ c.core = some core ∧
    c.spad = [] ∧ c.emptyLines = [] ∧ c.tls = List.replicate 8 ⟨0, 0⟩ ∧ c.barriers = List.replicate 16 ⟨0, 0, 0, false⟩ ∧ c.groups = groups ∧
    c.wayAt = s.freeWays core l.hdr.ways) ∧
  (∀ (s : State) core n w, w ∈ s.freeWays core n → w < 12 ∧ ∀ c ∈ s.companies, c.core = some core → w ∉ c.wayAt) ∧
  (∀ (s : State) l groups (cores : List Nat) s3, s.admitAll l groups cores.zipIdx = some s3 → ∀ j core, cores[j]? = some core →
    ∃ c ∈ s3.companies, c.lid = l.lid ∧ c.q = j ∧ c.core = some core) ∧
  (∀ s l cores s1 groups s2 s3, s.launch? l.lid = some l → l.waiting = true →
    (∀ x ∈ s.rm.launches, x.waiting = true → x.hdr.prio ≤ l.hdr.prio ∧ (x.hdr.prio = l.hdr.prio → l.lid ≤ x.lid)) →
    cores.length = l.hdr.companyCount → l.started = 0 →
    s.readGroups l [] 8 = (some (s1, groups), s2) → bound l.hdr cores = true → s1.admitAll l groups cores.zipIdx = some s3 →
    exec (.allResidentPlace l.lid cores) s = .next (withLaunch s3 l.lid fun x => { x with placed := true })) ∧
  (∀ s cluster,
    ((∀ l ∈ s.offerOrder, s.stealFor l cluster = none) → exec (.rangeStealing cluster) s = .next s) ∧
    (∀ l rest d, s.offerOrder = l :: rest → s.stealFor l cluster = some d →
      exec (.rangeStealing cluster) s = .next (withLaunch s l.lid fun x => { x with dist := d }))) ∧
  (∀ s l c, s.launch? l.lid = some l → s.needsRoom l = true → (∀ x ∈ s.companies, ¬ (x.preempting = true ∧ x.core ≠ none)) →
    s.victimFor l = some c → exec (.prewaitExpiry l.lid c.cid) s = .next (s.takeOut c)) ∧
  (∀ s c core, s.company? c.cid = some c → c.core = some core → c.preempting = true → s.allRetired c = false → s.drained c = true →
    ∃ s', exec (.preemptCompany c.cid) s = .next s' ∧
      (∀ x, s'.company? c.cid = some x → x.core = none ∧ x.preempting = false ∧ x.outSince = s.clock.toNat ∧ x.spad = c.spad ∧
        x.barriers = c.barriers ∧ x.tls = c.tls ∧ x.wayAt = [] ∧ (∀ o, x.matrixHead? = some o → o.kind.isMma = true → o.held = true) ∧
        ∀ o ∈ x.ops, o.held = true → x.matrixHead?.map (·.id) = some o.id ∨ ∃ p ∈ c.ops, p.id = o.id ∧ p.held = true) ∧
      (∀ t ∈ s'.troupes, t.cid = c.cid → t.retired = false → t.resident = false)) ∧
  (∀ s c l core, s.company? c.cid = some c → s.launch? c.lid = some l → s.mayResume l c core = true →
    (∀ x ∈ s.offerOrder.takeWhile (fun x => x.lid != l.lid), s.mayAdmit x core = false ∧
      ∀ d ∈ s.companies, d.lid = x.lid → s.mayResume x d core = false) →
    ∃ s', exec (.companyResume c.cid core) s = .next s' ∧
      (∀ x, s'.company? c.cid = some x → x.core = some core ∧ x.preempting = false ∧ x.spad = c.spad ∧ x.barriers = c.barriers ∧ x.tls = c.tls ∧
        x.wayAt = s.freeWays core l.hdr.ways ∧ ∀ o, x.matrixHead? = some o → o.held = false) ∧
      (∀ t ∈ s'.troupes, t.cid = c.cid → t.retired = false → t.resident = true ∧ t.core = core ∧ t.parkedAt = s.clock.toNat) ∧
      (s'.core core).ro = [] ∧ (∀ x ∈ (s'.core core).l1, x.owned = true) ∧ ∀ i ∈ s'.invals, i.die ≠ core / 32) ∧
  (∀ (s : State) l c core, s.mayResume l c core = true → s.isOut c = true ∧ l.ending = none ∧ l.statusDone = false ∧ s.fitsSaved c core l.hdr = true ∧
    ∀ x ∈ s.companies, x.lid = l.lid → x.cid ≠ c.cid → s.isOut x = false →
      (l.hdr.bindc ≠ 0 → x.q / l.hdr.unitC = c.q / l.hdr.unitC → x.lastCore / 2 = core / 2) ∧
      (l.hdr.bindd ≠ 0 → x.q / l.hdr.unitD = c.q / l.hdr.unitD → x.lastCore / 32 = core / 32))

/-- R83, R142, R156, R158, R333-R335, R337: companies. The model's choices: logs 86, 89, 90. -/
def Obligations.CompanyEvents : Prop := Claim.CompanyMoves ∧ Claim.StealsAndVictims

/-- R328, R332, R339: a launch that has drained writes its status to its entry in memory, 2 or the code it was ended with, and for a double trap its cause and pc; then it is announced
and gone, after its completion word is stored where the launch was not ended, on which the dependences are read again. An ended launch first has what it still holds retired, and stores no
completion word. The oldest message is written where the ring has room. -/
def Sys2Proof.Claim.LaunchEnd : Prop :=
  (∀ s l, s.launch? l.lid = some l → l.ending = none → l.statusDone = false → s.drainedLaunch l = true → l.sig = 0 →
    exec (.launchComplete l.lid) s = .next ((s.reportStatus l).announce l)) ∧
  (∀ s l s1 p, s.launch? l.lid = some l → l.ending = none → l.sig ≠ 0 →
    (l.statusDone = false ∧ s.drainedLaunch l = true ∧ (s.reportStatus l).rmPlace l.queue (some l.lid) l.root l.sig .w = .ok s1 p) ∨
      (l.statusDone = true ∧ s.rmPlace l.queue (some l.lid) l.root l.sig .w = .ok s1 p) →
    exec (.launchComplete l.lid) s = .next (((s1.settleAll.homeWrite p (leBytes 8 l.sigval.toNat) 4 0).pollAll).announce l)) ∧
  (∀ s l, s.launch? l.lid = some l → l.ending = none → l.statusDone = false → s.drainedLaunch l = false →
    exec (.launchComplete l.lid) s = .next s) ∧
  (∀ s l l1, s.launch? l.lid = some l → l.ending ≠ none → l.statusDone = false → (s.windUp l.lid).launch? l.lid = some l1 →
    l1.ending = l.ending → l1.statusDone = false →
    ((s.windUp l.lid).drainedLaunch l1 = true → exec (.launchComplete l.lid) s = .next (((s.windUp l.lid).reportStatus l1).announce l1)) ∧
    ((s.windUp l.lid).drainedLaunch l1 = false → exec (.launchComplete l.lid) s = .next (s.windUp l.lid))) ∧
  (∀ (s : State) l, HostEntry s l.queue l.index → (∀ code, l.ending = some code → code < 2 ^ 16) →
    let pa := s.entryPa l.queue l.index
    let m := (s.reportStatus l).mem
    leNat (bytesAt m (pa + 0x18) 2) = l.ending.getD 2 ∧
    (l.ending = some 5 → leNat (bytesAt m (pa + 0x1C) 4) = l.tcause.toNat ∧ leNat (bytesAt m (pa + 0x20) 8) = l.tpc.toNat) ∧
    ∀ a, a < pa + 0x18 ∨ pa + 0x28 ≤ a ∨ (l.ending ≠ some 5 ∧ pa + 0x1A ≤ a) → cellGet m a = cellGet s.mem a) ∧
  (∀ (s : State) l, let s' := s.announce l
    let code := l.ending.getD 2
    let vector : Option Byte := if l.flags.getLsbD 1 then some (BitVec.ofNat 8 ((s.queue l.queue).qctl.toNat / 2 ^ 8)) else none
    (l.flags.getLsbD 0 = true → s.rm.rmmsgsize ≠ 0 → s'.rm.messages = s.rm.messages ++
      [{ kind := 1, queue := l.queue, a32 := BitVec.ofNat 32 (code + 2 ^ 16 * (l.index % 2 ^ 16)), a64 := BitVec.ofNat 64 l.hdrVa, vector := vector }]) ∧
    (l.flags.getLsbD 0 = false → s'.rm.messages = s.rm.messages ∧ s'.rm.vectors = s.rm.vectors ++ vector.toList)) ∧
  (∀ (s : State) l, let s' := s.announce l
    (∀ x ∈ s'.rm.launches, x.lid ≠ l.lid) ∧ (∀ c ∈ s'.companies, c.lid ≠ l.lid) ∧
    ∀ t ∈ s'.troupes, t.lid ≠ l.lid) ∧
  (∀ s m rest, s.rm.messages = m :: rest → s.rm.rmmsgsize ≠ 0 →
    let n := 2 ^ s.rm.rmmsgsize.toNat
    let pa := s.rm.rmmsgbase.toNat + 16 * (s.rm.rmmsgtail.toNat % n)
    (n ≤ (s.rm.rmmsgtail - s.rm.rmmsghead).toNat → exec .messageWrite s = .next s) ∧
    ((s.rm.rmmsgtail - s.rm.rmmsghead).toNat < n → s.present pa 16 = true → m.kind ≠ 1 →
      exec .messageWrite s = .next (((s.physWrite pa m.bytes).updRm fun r => { r with rmmsgtail := r.rmmsgtail + 1, messages := rest }).raiseVector
        (s.rm.rmiv.setWidth 8)))) ∧
  (∀ s, s.rm.messages ≠ [] → s.rm.rmmsgsize = 0 → exec .messageWrite s = .next s)

/-- R327-R332, R339, R368: ENTRY_CHECK, DEPENDENCE_POLL, LAUNCH_START, LAUNCH_COMPLETE and MESSAGE_WRITE complete, with
what each does to the queues, the launches and memory. The model's choices: logs 83, 86. -/
def Obligations.LaunchEvents : Prop := Claim.LaunchQueue ∧ Claim.LaunchEnd

/-! ## The host -/

/-- R326, R327, R330, R332, R337, R339-R341, R359, R361: what the host's writes do. In the recovery state no register is written. What reads then give is the model's choice (log 126),
and so are the root that a shoot-down names (log 99) and what else the recovery state stops (log 111). -/
def Sys2Proof.Claim.HostWrites : Prop :=
  (∀ s q v, ¬ recovering s →
    let tail : Word := BitVec.ofNat 32 v.toNat
    (2 ^ (s.queue q).qsize.toNat < (tail - (s.queue q).qhead).toNat → exec (.qtailWrite q v) s = .next s) ∧
    ((tail - (s.queue q).qhead).toNat ≤ 2 ^ (s.queue q).qsize.toNat →
      exec (.qtailWrite q v) s = .next (s.updQueue q fun r => { r with qtail := tail }))) ∧
  (∀ s q, ¬ recovering s → ∃ s', exec (.abort q) s = .next s' ∧
    (∀ l ∈ s.rm.launches, l.queue = q → l.ending = none → l.statusDone = false →
      ∃ l' ∈ s'.rm.launches, l' = { l with ending := some 7, tcause := 0, tpc := 0 }) ∧
    (∀ l ∈ s.rm.launches, l.queue = q → l.statusDone = true → l ∈ s'.rm.launches)) ∧
  (∀ s q c l, ¬ recovering s → s.companies = [c] → s.queueOf c.lid = q → s.victim c = true → s.launch? c.lid = some l →
    l.hdr.resident = false → l.hdr.recordSize ≤ s.poolFree →
    exec (.preempt q) s = .next { s with companies := [{ c with preempting := true }] }) ∧
  (∀ s v f, ¬ recovering s → s.rm.faults.find? (fun f => !f.migrate && f.token % 2 ^ 32 == v.toNat % 2 ^ 32) = some f →
    (v.getLsbD 32 = true → exec (.rmfrespWrite v) s = .next (s.updRm fun r =>
      { r with faults := r.faults.filter (· != f), waits := r.waits.filter fun w => w.token != f.token })) ∧
    (v.getLsbD 32 = false → exec (.rmfrespWrite v) s = .next
      ((s.updRm fun r => { r with faults := r.faults.filter (· != f) }).decline f))) ∧
  (∀ s v, (∀ f ∈ s.rm.faults, f.migrate = false → f.token % 2 ^ 32 ≠ v.toNat % 2 ^ 32) → exec (.rmfrespWrite v) s = .next s) ∧
  (∀ s v, ¬ recovering s →
    exec (.rmshootWrite v) s = .next (s.updRm fun r =>
      { r with shoots := r.shoots ++ [(v.toNat % 64, v.toNat / 2 ^ 16 % 2 ^ 16, (s.queue (v.toNat % 64)).qroot.toNat)] })) ∧
  (∀ s q k root, s.rm.shoots.find? (fun x => x.2.1 == k) = some (q, k, root) →
    ∃ s', exec (.shootDownDone k) s = .next s' ∧ (∀ c ∈ s'.cores, ∀ x ∈ c.tlb ++ c.ftlb ++ c.otlb, x.root ≠ root) ∧
      (∀ d ∈ s'.dieUnits, ∀ x ∈ d.tlb, x.root ≠ root) ∧
      s'.rm.messages = s.rm.messages ++ [{ kind := 5, queue := q, a32 := BitVec.ofNat 32 k, a64 := 0, vector := none }]) ∧
  (∀ s v, ¬ recovering s → exec (.rmmsgheadWrite v) s = .next (s.updRm fun r => { r with rmmsghead := BitVec.ofNat 32 v.toNat })) ∧
  (∀ s v, ¬ recovering s → ∃ s', exec (.rmmsgsizeWrite v) s = .next s' ∧
    s'.rm.rmmsgsize.toNat = (let n := v.toNat % 32; if n = 0 then 0 else if n < 4 then 4 else if 20 < n then 20 else n) ∧
    (v.toNat % 32 ≠ 0 → s'.rm.messages = s.rm.messages) ∧ (v.toNat % 32 = 0 → ∀ m ∈ s'.rm.messages, m.kind ≠ 1)) ∧
  (∀ s v, ¬ recovering s → v.getLsbD 0 = true → s.boot.attstat ≠ 1 →
    let a := s.boot.attaddr.toNat
    (a % 192 ≠ 0 ∨ s.present a 384 = false → exec (.attctlWrite v) s = .next { s with boot := { s.boot with attstat := 3 } }) ∧
    (a % 192 = 0 → s.present a 384 = true → exec (.attctlWrite v) s = .next
      { s with boot := { s.boot with attstat := 1, attReq := some (a, s.fabric.fxdevid, s.boot.attnonce) } })) ∧
  (∀ s, s.boot.attReq = none → exec .attestationReportWritten s = .next s) ∧
  (∀ (s : State) a dev nonce, s.boot.attReq = some (a, dev, nonce) →
    exec .attestationReportWritten s = .next
      { s.physWrite a (s.boot.report dev nonce) with boot := { s.boot with attstat := 2, attReq := none } }) ∧
  (∀ s r v, recovering s → exec (.registerWrite r v) s = .next s) ∧
  (∀ s r, recovering s → r ≠ .bootstat → s.readReg r = 0) ∧ ∀ s : State, s.readReg .bootstat = s.boot.bootstat

/-- R1, R226, R241, R326, R327, R363: the registers of the window that a write sets, holds or leaves, and what a read of them gives. That those of a unit that the form does not have
read 0 and take nothing, and that every register but BOOTSTAT reads 0 in the recovery state, is the model's choice (log 126); so is that a queue's candidate is dropped when its
registers are written (log 81). -/
def Sys2Proof.Claim.RegisterWrites : Prop :=
  ∀ s, ¬ recovering s →
    (∀ q v, ¬ active s q →
      let s1 (r : Reg) := s.updRm fun x => { x with held := x.held.filter (·.1 != r) }
      exec (.registerWrite (.qbase q) v) s = .next (((s1 (.qbase q)).updQueue q fun x => { x with qbase := v }).updRm fun r =>
        { r with candidates := r.candidates.filter (·.queue != q) }) ∧
      exec (.registerWrite (.qroot q) v) s = .next (((s1 (.qroot q)).updQueue q fun x => { x with qroot := v }).updRm fun r =>
        { r with candidates := r.candidates.filter (·.queue != q) })) ∧
    (∀ q v, active s q → ∀ r ∈ [Reg.qbase q, .qsize q, .qroot q],
      exec (.registerWrite r v) s = .next (s.updRm fun x => { x with held := x.held.filter (·.1 != r) ++ [(r, v)] })) ∧
    (∀ r v, s.rm.launches = [] → r ∈ [Reg.sealctl, .sealminv] → ∃ s', exec (.registerWrite r v) s = .next s' ∧
      (r = .sealctl → s'.rm.sealctl.toNat = v.toNat % 2) ∧ (r = .sealminv → s'.rm.sealminv = BitVec.ofNat 32 v.toNat)) ∧
    (∀ r w, s.rm.held.find? (fun x => x.1 == r) = some (r, w) → s.rm.launches = [] →
      exec (.heldWriteApply r) s = .next ((s.updRm fun x => { x with held := x.held.filter (·.1 != r) }).setHeldReg r w)) ∧
    (∀ r ∈ [Reg.rmmsgtail, .fxport, .bootstat, .attstat, .pwrnow, .thrstat], ∀ v, exec (.registerWrite r v) s = .next s) ∧
    (∀ r v, s.absent r = true → exec (.registerWrite r v) s = .next s ∧ s.readReg r = 0) ∧
    (∀ d v, d < 4 → s.dieUnits.length = 4 → s.dieIn d = true → ∃ s', exec (.registerWrite (.l2quota d) v) s = .next s' ∧ ∀ k < 4,
      ((s'.die d).l2quota.toNat / 2 ^ (5 * k) % 32 =
        (let x := v.toNat / 2 ^ (5 * k) % 32; if x = 0 ∨ 16 < x then 16 else x))) ∧
    (∀ d v, s.dieIn d = true → exec (.registerWrite (.dnecc d) v) s = .next (s.updDie d fun x => { x with dnecc := cleared x.dnecc v }) ∧
      exec (.registerWrite (.erruse d) v) s = .next (s.updDie d fun x => { x with erruse := cleared x.erruse v }) ∧
      exec (.registerWrite (.hptpromo d) v) s = .next (s.updDie d fun x => { x with hptpromo := cleared x.hptpromo v })) ∧
    (∀ v, ∃ s', exec (.registerWrite .pwrlim v) s = .next s' ∧
      (s.boot.record.form = .package → s'.boot.pwrlim.toNat =
        (let x := v.toNat % 2 ^ 16; if x < 1200 then 1200 else if 4800 < x then 4800 else x))) ∧
    (∀ d, s.boot.record.form = .die → d ≠ 0 → s.absent (.dnecc d) = true ∧ s.absent (.l2quota d) = true) ∧
    (∀ d, s.dieIn d = true → s.readReg (.dnecc d) = (s.die d).dnecc ∧ (s.readReg (.l2quota d)).toNat = (s.die d).l2quota.toNat) ∧
    (∀ q, s.readReg (.qbase q) = (s.queue q).qbase ∧ (s.readReg (.qhead q)).toNat = (s.queue q).qhead.toNat) ∧
    ∀ k, s.readReg .rmfresp = 0 ∧ s.readReg .attctl = 0 ∧ s.readReg (.sealkey k) = 0

/-- R287, R341, R359: a host read returns the bytes at home; a host write performs there, line by line, after every earlier write has reached every die; an access outside every window, in
the recovery state, or to a string under edit, does nothing now. -/
def Sys2Proof.Claim.HostMemory : Prop :=
  (∀ s pa n s1 bs, ¬ recovering s → 0 < n → s.present pa n = true → s.physHeld pa n = false → s.physRead pa n = (s1, bs) →
    exec (.hostAccess pa (.read n)) s = .next { s1 with hostRead := bs }) ∧
  (∀ s pa bs, ¬ recovering s → bs ≠ [] → s.present pa bs.length = true → s.physHeld pa bs.length = false →
    exec (.hostAccess pa (.write bs)) s = .next (s.physWrite pa bs)) ∧
  (∀ s pa n, s.present pa n = false ∨ recovering s ∨ s.physHeld pa n = true → exec (.hostAccess pa (.read n)) s = .next s) ∧
  (∀ s pa bs, s.present pa bs.length = false ∨ recovering s ∨ s.physHeld pa bs.length = true → exec (.hostAccess pa (.write bs)) s = .next s) ∧
  (∀ s pa bs, ¬ recovering s → s.physHeld pa bs.length = false →
    2 ^ 51 ≤ pa → pa + bs.length ≤ 2 ^ 52 → pa % 192 + bs.length ≤ 192 → bs ≠ [] → s.mem.wf = true →
    ∃ s', exec (.hostAccess pa (.write bs)) s = .next s' ∧
      (∀ a, cellGet s'.mem a = if pa ≤ a ∧ a < pa + bs.length then bs.getD (a - pa) 0 else cellGet s.mem a) ∧ s'.l2 = s.l2 ∧
      s'.troupes = s.troupes ∧ s'.invals = [])

/-- R226, R241, R326, R327, R330, R332, R337, R339-R341, R359, R361, R363: what the host does. The model's choices: logs
81, 99, 111, 126. -/
def Obligations.HostEvents : Prop := Claim.HostWrites ∧ Claim.RegisterWrites ∧ Claim.HostMemory

/-- R1, R4, R299, R302, R356-R361: a reset clears the package; the flash stays, and so does memory, but for the lines that only a memory-side cache held, of which every byte is the old
one or the new; what else it keeps is the model's choice (log 109). Verification asks for the maker's key and signature. With every step in primary mode and no strike the start
completes with every stack of the record, whose data the package then runs under, and what it measured; a slot A that does not verify leaves BOOTSTAT 0, and the next start takes slot B.
(The maker's key digest is free, log 110, so what a flash's image comes to is stated for either answer; how the journal is read and kept is the model's choice, log 108.) A firmware
update clears the journal and places its image. A report holds the measurements of the start, the device number and nonce of its request, and the identity key's signature. -/
def Sys2Proof.Claim.StartUp : Prop :=
  (∀ s o, ∃ s', exec (.packageReset o) s = .next s' ∧ s'.troupes = [] ∧ s'.companies = [] ∧ s'.rm = Ringmaster.reset ∧ s'.l2 = [] ∧ s'.msc = [] ∧
    s'.boot.slotA = s.boot.slotA ∧ s'.boot.slotB = s.boot.slotB ∧ s'.boot.copy1 = s.boot.copy1 ∧ s'.boot.copy2 = s.boot.copy2 ∧
    s'.boot.secret = s.boot.secret ∧ s'.boot.certificate = s.boot.certificate ∧
    (∀ c < 128, (s'.core c).inService = (s'.boot.record.lets c)) ∧
    ((∀ d ∈ s.dieUnits, ∀ g ∈ d.regions, g.edit = none) →
      (s.msc = [] → s'.mem = s.mem) ∧
      (s.mem.wf = true → (∀ x ∈ s.msc, x.below.length = 192) → ∀ a, cellGet s'.mem a = cellGet s.mem a ∨
        ∃ x ∈ s.msc, x.line = a / 192 ∧ cellGet s'.mem a = x.below.getD (a % 192) 0))) ∧
  (∀ i : FirmwareImage, imageAccepted i = true ↔ MakerSigned i.key i.body i.sig) ∧
  (∀ r : SignedRecord, r.verifies = true ↔ MakerSigned r.key r.record.bytes r.sig) ∧
  (∀ (r : ConfigRecord) core, core < 128 → r.lets core = true →
    r.coreSet.getLsbD core = true ∧ r.clusterSet.getLsbD (core / 2) = true ∧ (r.form = .die → core < 32)) ∧
  (∀ s ports, s.boot.journal = [] → s.boot.leftOut = [] → s.boot.copy1.record.form = .package → s.boot.copy1.record.stackSet = -1 →
    ∃ s', exec (.packageReset ⟨none, ports⟩) s = .next s' ∧
      (imageAccepted s.boot.slotA = true → s.boot.copy1.verifies = true →
        s'.boot.bootstat = 0x10000FFF ∧ s'.boot.record = s.boot.copy1.record ∧ s'.boot.pwrlim = 4800 ∧ s'.fabric.fxport = ports.setWidth 32 ∧
          ∃ j, s'.boot.measured = some ⟨s.boot.slotA, s.boot.copy1.record, j⟩) ∧
      (imageAccepted s.boot.slotA = false → s'.boot.bootstat = 0 ∧ s'.boot.journal = [⟨1, 0, 0, 1⟩] ∧ s'.fabric.fxport = 0)) ∧
  (∀ s ports, s.boot.journal = [⟨1, 0, 0, 1⟩] → s.boot.leftOut = [] → s.boot.copy1.record.form = .package → s.boot.copy1.record.stackSet = -1 →
    ∃ s', exec (.packageReset ⟨none, ports⟩) s = .next s' ∧
      (imageAccepted s.boot.slotB = true → s.boot.copy1.verifies = true → s'.boot.bootstat = 0x12010FFF)) ∧
  (∀ s slot image, exec (.firmwareUpdate slot image) s = .next { s with boot := { s.boot with
    journal := [], leftOut := [], slotA := if slot then s.boot.slotA else image, slotB := if slot then image else s.boot.slotB } }) ∧
  (∀ (b : Boot) dev nonce, let r := b.report dev nonce
    leNat (r.take 4) = 1 ∧ leNat ((r.drop 4).take 4) = dev.toNat ∧ leNat ((r.drop 8).take 8) = b.bootstat.toNat ∧
    (∀ m, b.measured = some m → (r.drop 16).take 192 = m.bytes ∧
      (∀ k < 4, leNat ((r.drop (208 + 8 * k)).take 8) = (nonce.getD k 0).toNat) ∧ r.length = 384 ∧
      (r.drop 256).take 114 = ed448Sign b.identityKey (r.take 256)))

/-! ## The fabric -/

/-- R346-R350, R353-R355: peers' accesses, the answers that this device's operations receive, barriers across devices, and ports. A device that carries no
traffic takes no access; an access of a peer and a packet are taken at most once; what cannot be delivered within FXTMO fails its operation, and a barrier's message is sent again. That
a request with a misaligned RVA is refused is the model's choice (log 105), and so is which packet answers what (log 107). -/
def Obligations.FabricEvents : Prop :=
  (∀ s src tag va data poison, ¬ takes s src tag → exec (.remoteWriteArrival src tag va data poison) s = .next s) ∧
  (∀ s src tag va len, ¬ takes s src tag → exec (.remoteReadRequest src tag va len) s = .next s) ∧
  (∀ s src tag req, ¬ takes s src tag → exec (.remoteAtomicRequest src tag req) s = .next s) ∧
  (∀ s seq p, ¬ carries s ∨ seq ∈ s.fabric.seen → exec (.packetReceive seq p) s = .next s) ∧
  (∀ s src tag va data poison, takes s src tag → s.fabric.fxroot = 0 → data ≠ [] →
    exec (.remoteWriteArrival src tag va data poison) s = .next
      (answers { s with fabric := { s.fabric with fxrefuse := counted s.fabric.fxrefuse } } src tag (.refuse src tag))) ∧
  (∀ s src tag va len, takes s src tag → s.fabric.fxroot = 0 → 0 < len →
    exec (.remoteReadRequest src tag va len) s = .next
      (answers { s with fabric := { s.fabric with fxrefuse := counted s.fabric.fxrefuse } } src tag (.refuse src tag))) ∧
  (∀ s src tag va pa e psize b bad, takes s src tag → va < 2 ^ 56 → s.peerPlace va true = some (pa, e, psize) → s.sideHeld (s.loc pa e psize) 1 = false →
    let l := s.loc pa e psize
    let s1 := (s.countHot s.fabric.fxroot.toNat va pa e psize).homeWrite l [if bad then 0 else b] 4 0
    let s2 := (if bad then s1.poisonLine l else s1).settleAll
    exec (.remoteWriteArrival src tag va [b] [bad]) s = .next (answers s2 src tag (.ack src tag)) ∧ s2.invals = []) ∧
  (∀ s src tag va data poison ps, takes s src tag → va < 2 ^ 56 → s.peerPieces va data.length true (data.length + 1) = some ps →
    (∀ p ∈ ps, s.sideHeld p.2.1 p.2.2 = false) →
    exec (.remoteWriteArrival src tag va data poison) s = .next
      (answers (s.peerWrite ps (data.zipIdx.map fun b => (b.1, poison.getD b.2 false))) src tag (.ack src tag))) ∧
  (∀ s src tag va pa e psize s1 bs bad, takes s src tag → va < 2 ^ 56 → s.peerPlace va false = some (pa, e, psize) →
    s.sideHeld (s.loc pa e psize) 1 = false → (s.countHot s.fabric.fxroot.toNat va pa e psize).engRead (s.loc pa e psize) 1 = (s1, bs, bad) →
    exec (.remoteReadRequest src tag va 1) s = .next (answers s1 src tag (.readReply src tag va bs [bad]))) ∧
  (∀ s src tag req pa e psize s1 bs, takes s src tag → s.peerPlace req.tva.toNat true = some (pa, e, psize) → req.reserved = 0 →
    req.opc.toNat < 9 → req.tva.toNat % 4 = 0 → req.rva.toNat % 8 = 0 → req.cmpd = 0 →
    let l := s.loc pa e psize
    let s0 := (s.countHot s.fabric.fxroot.toNat req.tva.toNat pa e psize).settleAll
    s.sideHeld l 4 = false → s.isPoisoned l 4 = false → ((s0.recall l.line).recallAllowances l 4).homeRead l 4 = (s1, bs) →
    let s2 := (s1.homeWrite l (leBytes 4 (atomicNew req.opc.toNat (leNat bs) (req.opnd.toNat % 2 ^ 32) 0).1) 4 0).settleAll
    exec (.remoteAtomicRequest src tag req) s = .next
      (answers s2 src tag (if req.rva = 0 then .ack src tag else .atomicReply src tag req.rva.toNat (BitVec.ofNat 64 (leNat bs))))) ∧
  (∀ s src tag req, takes s src tag → s.peerPlace req.tva.toNat true = none ∨ req.reserved ≠ 0 ∨ req.tva.toNat % 4 ≠ 0 ∨ req.rva.toNat % 8 ≠ 0 →
    exec (.remoteAtomicRequest src tag req) s = .next
      (answers { s with fabric := { s.fabric with fxrefuse := counted s.fabric.fxrefuse } } src tag (.refuse src tag))) ∧
  (∀ s c o, Working s c o → o.sent ≠ [] →
    let late := s.fabric.out.any fun p => p.msg.ofOp c.cid o.id && overdue s p
    (late = true → exec (.fabricTimeout c.cid o.id) s = .next
      { putEng s c.cid (finished true o) with
        fabric := { s.fabric with fxfail := counted s.fabric.fxfail, out := s.fabric.out.filter fun p => !p.msg.ofOp c.cid o.id } }) ∧
    (late = false → exec (.fabricTimeout c.cid o.id) s = .next s)) ∧
  (∀ s c o seq, Working s c o → carries s → seq ∉ s.fabric.seen →
    (o.sent ≠ [] → exec (.packetReceive seq (.refusal c.cid o.id)) s = .next
      { putEng s c.cid (finished true o) with
        fabric := seenToo seq { s.fabric with
          fxfail := counted s.fabric.fxfail, out := s.fabric.out.filter fun p => !p.msg.ofOp c.cid o.id } }) ∧
    (∀ off len, (off, len) ∈ o.sent → exec (.packetReceive seq (.writeAck c.cid o.id off len)) s = .next
      { putEng s c.cid (answeredOp off len o) with
        fabric := seenToo seq { s.fabric with out := s.fabric.out.filter fun p => !(p.msg.ofOp c.cid o.id && p.msg.startsAt off) } }) ∧
    (∀ req, s.sentRequest? c.cid o.id = some req → req.rva = 0 →
      exec (.packetReceive seq (.atomicAck c.cid o.id)) s = .next
        { putEng s c.cid (answeredOp 0 32 o) with
          fabric := seenToo seq { s.fabric with out := s.fabric.out.filter fun p => !(p.msg.ofOp c.cid o.id && p.msg.startsAt 0) } }) ∧
    (∀ req old pa e psize, s.sentRequest? c.cid o.id = some req → req.rva ≠ 0 → req.rva.toNat % 8 = 0 →
      s.peerPlace req.rva.toNat true = some (pa, e, psize) → (s.loc pa e psize).off + 8 ≤ 192 → 8 ≤ psize - req.rva.toNat % psize →
      s.sideHeld (s.loc pa e psize) 8 = false →
      let s1 := ((s.countHot s.fabric.fxroot.toNat req.rva.toNat pa e psize).homeWrite (s.loc pa e psize) (leBytes 8 old.toNat) 4 0).settleAll
      exec (.packetReceive seq (.atomicReply c.cid o.id old)) s = .next
        { putEng s1 c.cid (answeredOp 0 32 o) with
          fabric := seenToo seq { s1.fabric with out := s1.fabric.out.filter fun p => !(p.msg.ofOp c.cid o.id && p.msg.startsAt 0) } })) ∧
  (∀ s seq, carries s → seq ∉ s.fabric.seen →
    (∀ p ∈ [Packet.truncated, .malformed], exec (.packetReceive seq p) s = .next
      { s with fabric := seenToo seq { s.fabric with fxdrop := counted s.fabric.fxdrop } }) ∧
    (∀ dev, dev ≠ s.fabric.fxdevid.toNat → exec (.packetReceive seq (.misaddressed dev)) s = .next
      { s with fabric := seenToo seq { s.fabric with fxdrop := counted s.fabric.fxdrop } }) ∧
    ∀ n, exec (.packetReceive seq (.delivered n)) s = .next
      { s with fabric := seenToo seq { s.fabric with out := s.fabric.out.filterMap fun p => if p.seq = n then reached p else some p } }) ∧
  (∀ s k phase n, (∀ p ∈ s.fabric.out, ∀ ph, p.msg ≠ .arrival s.fabric.fxdevid.toNat k ph n) →
    exec (.fabricBarrierArrival s.fabric.fxdevid.toNat k phase n) s = .next s) ∧
  (∀ s src k phase n, k < 16 → src ≠ s.fabric.fxdevid.toNat → ¬ carries s → exec (.fabricBarrierArrival src k phase n) s = .next s) ∧
  (∀ s src k phase n, k < 16 → src ≠ s.fabric.fxdevid.toNat → carries s →
    let r := s.fabric.fxbar.getD k 0
    let bound := r.getLsbD 63 = true ∧ r.toNat / 2 ^ 21 % 2 ^ 18 = n ∧ r.toNat / 2 ^ 39 % 2 ^ 18 = s.fabric.fxdevid.toNat
    (¬ bound → exec (.fabricBarrierArrival src k phase n) s = .next
      { s with fabric := { s.fabric with fxdrop := counted s.fabric.fxdrop } }) ∧
    (bound → s.fabric.arrivals = [] → 1 < n → exec (.fabricBarrierArrival src k phase n) s = .next
      { s with fabric := { s.fabric with arrivals := [(k, phase, [src])] } }) ∧
    (bound → s.fabric.arrivals = [] → n = 1 → exec (.fabricBarrierArrival src k phase n) s = .next (sends s (.release src k phase)))) ∧
  (∀ s k phase, s.fabric.out = [] → s.rm.launches = [] ∨ (s.fabric.fxbar.getD k 0).toNat / 2 ^ 39 % 2 ^ 18 = s.fabric.fxdevid.toNat ∨ ¬ carries s →
    exec (.fabricBarrierRelease k phase) s = .next s) ∧
  (∀ s k phase l, s.rm.launches = [l] → s.fabric.out = [] → carries s →
    (s.fabric.fxbar.getD k 0).toNat / 2 ^ 39 % 2 ^ 18 ≠ s.fabric.fxdevid.toNat → (l.gbars.getD k ⟨0, false, false⟩).away = true →
    phase = (if (l.gbars.getD k ⟨0, false, false⟩).phase then 1 else 0) → s.fabricBarrier? l.queue k ≠ none →
    exec (.fabricBarrierRelease k phase) s = .next (s.gbarRelease l.lid k)) ∧
  (∀ s seq, ((∀ p ∈ s.fabric.out, p.seq = seq → p.delivered = true) → exec (.fabricResend seq) s = .next s) ∧
    (∀ p ∈ s.fabric.out, p.seq = seq → p.delivered = false → (∀ q ∈ s.fabric.out, q.seq = seq → q = p) →
      let again := overdue s p && (match p.msg with
        | .arrival .. | .release .. => true
        | _ => false)
      exec (.fabricResend seq) s = .next { s with fabric := { s.fabric with
        fxretry := counted s.fabric.fxretry
        out := s.fabric.out.map fun o => if again = true ∧ o.seq = seq then { o with since := s.clock.toNat } else o } })) ∧
  (∀ (s : State) p, p ∈ s.overdueBarriers ↔ p ∈ s.fabric.out ∧ overdue s p = true ∧
    ((∃ root k ph n, p.msg = .arrival root k ph n ∧ root ≠ s.fabric.fxdevid.toNat) ∨ ∃ d k ph, p.msg = .release d k ph ∧ d ≠ s.fabric.fxdevid.toNat)) ∧
  (∀ s port, port < 18 →
    (∃ s', exec (.portDown port) s = .next s' ∧ s' = { s with fabric := { s.fabric with fxport := s'.fabric.fxport } } ∧
      ∀ j < 32, s'.fabric.fxport.getLsbD j = (s.fabric.fxport.getLsbD j && decide (j ≠ port))) ∧
    (¬ recovering s → s.boot.bootstat.getLsbD 24 = false →
      ∃ s', exec (.portUp port) s = .next s' ∧ s' = { s with fabric := { s.fabric with fxport := s'.fabric.fxport } } ∧
        ∀ j < 32, s'.fabric.fxport.getLsbD j = (s.fabric.fxport.getLsbD j || decide (j = port))))

/-- R235, R362: after a cluster's reset its bus holds no offer and no pair, the launch of every company that stood on its cores ends with code 6, its cores hold no cached line, and CLRSTAT has
counted the reset and keeps its cause. That the count sticks is the model's choice (log 78). -/
def Sys2Proof.Claim.ClusterReset : Prop :=
  ∀ s k cause, k < 64 → s.clusters.length = 64 →
    ∃ s', exec (.clusterReset k cause) s = .next s' ∧ (s'.cluster k).offers = [] ∧ (s'.cluster k).pairs = [] ∧
      (s'.cluster k).clrstat.toNat / 2 ^ 16 = causeNumber cause ∧
      (s'.cluster k).clrstat.toNat % 2 ^ 16 = min 65535 ((s.cluster k).clrstat.toNat % 2 ^ 16 + 1) ∧
      ((∀ c ∈ s.companies, c.gangs = []) → ∀ c ∈ s.companies, c.core = some (2 * k) ∨ c.core = some (2 * k + 1) → ∀ l, s.launch? c.lid = some l → l.ending = none →
        l.statusDone = false → ∃ l', s'.launch? c.lid = some l' ∧ l'.ending = some 6) ∧
      (∀ c, c = 2 * k ∨ c = 2 * k + 1 → (s'.core c).l1 = [] ∧ (s'.core c).ro = [] ∧ (s'.core c).tlb = [])

/-- R235, R356-R359, R362: cluster reset, package reset and start. The model's choices: logs 78, 108, 109, 110. -/
def Obligations.ResetEvents : Prop := Claim.ClusterReset ∧ Claim.StartUp

/-- Whatever event the agenda names, in whatever state, the machine goes on: no event faults or is refused. -/
def Obligations.EventsGo : Prop := ∀ i s, Instr.isEvent i = true → ∃ s', exec i s = .next s'
namespace Sys2Proof.Claim

open Sys2Proof.Machine

/-! ## Every instruction word with its form (R44, R50, R73) -/

/-- Set, form, instruction. -/
abbrev Form := Bool × (Fields → Shape) × (Fields → Instr)

def laneForms : List Form :=
  (laneUnaries.map fun p => (false, fun _ => lane1, p.1)) ++ (laneBinaries.map fun p => (false, fun _ => lane2, p.1)) ++
  (laneTernaries.map fun p => (false, fun _ => lane3, p.1)) ++ (laneCompares.map fun i => (false, fun _ => triple2, i)) ++
  [(false, bfiOf, .bfi), (false, fun _ => leaOf, .lea), (false, fun _ => pair2, .iadd64), (false, fun _ => pair2, .isub64),
   (false, fun _ => pair3, .imad64), (false, fun _ => pairShift, .shl64), (false, fun _ => pairShift, .shr64)]

def floatForms : List Form :=
  (fpUnaries.map fun p => (false, fun _ => lane1, p.1)) ++ (fpBinaries.map fun p => (false, fun _ => lane2, p.1)) ++
  (fpTernaries.map fun p => (false, fun _ => lane3, p.1)) ++ (fpCompares.map fun i => (false, fun _ => triple2, i)) ++
  [(false, cvtOf, .cvt), (false, cvtpkOf, .cvtpk), (false, cvtunpkOf, .cvtunpk), (false, cvtbsOf, .cvtbs), (false, cvtmxOf, .cvtmx),
   (false, fun _ => lane1, .sclx)]

def crossLaneForms : List Form :=
  (lgets.map fun p => (false, lgetOf, p.1)) ++
  [(false, pollOf .scalar, .pollSome), (false, pollOf .scalar, .pollEvery), (false, pollOf .triple, .pollMap),
   (false, fun f => reductionOf f 2, .redf), (false, fun f => reductionOf f 6, .redi), (false, fun _ => lane1, .pfxfAdd),
   (false, fun _ => lane1, .pfxiAdd), (false, fun _ => lane1, .nbl), (false, fun _ => lane1, .nbr),
   (false, fun _ => regroupShape, .rgrp)]

def memoryForms : List Form :=
  (accesses.map fun p => (false, p.2.1, p.1)) ++ (counterOps.map fun p => (false, fun f => counterOf f p.2.2.1 p.2.2.2.1, p.1)) ++
  (queries.map fun i => (false, fun _ => queryShape, i)) ++
  [(false, fun f => atomicOf f true, .atom), (false, fun f => atomicOf f false, .atomSp), (false, ldgrShape, .ldgr),
   (false, fun _ => editOf true, .bsins), (false, fun _ => editOf false, .bsdel)]

def scalarForms : List Form :=
  (scalarUnaries.map fun p => (true, fun _ => scalar1, p.1)) ++ (scalarBinaries.map fun p => (true, fun _ => scalar2, p.1)) ++
  (scalarTernaries.map fun p => (true, fun _ => scalar3, p.1)) ++ (scalarCompares.map fun i => (true, fun _ => scalar2, i)) ++
  [(true, sbfiOf, .sbfi), (true, fun _ => scalarPair2, .sadd64), (true, fun _ => sleaOf, .slea), (true, lanerdOf, .lanerd),
   (true, lanewrOf, .lanewr)]

def controlForms : List Form :=
  [(true, fun _ => branchOf .none .no, .bra), (true, fun _ => branchOf .none .w32, .brcZ), (true, fun _ => branchOf .none .w32, .brcNz),
   (true, brdOf, .brd), (true, brxOf, .brx), (true, brxlOf, .brxL), (true, fun _ => branchOf .scalarPair .no, .call),
   (true, fun _ => uniformOf .w64 true, .ret), (true, fun _ => uniformOf .w32 true, .trap), (true, fun _ => uniformOf .no true, .bkpt),
   (true, fun _ => uniformOf .no false, .nop), (true, fun _ => uniformOf .no true, .tail),
   (true, fun _ => uniformOf .w32 false, .setfmt), (true, fun _ => getfmtShape, .getfmt), (true, srdOf, .srd), (true, swrOf, .swr)]

def orderingForms : List Form :=
  ([.wait, .tlinc, .bari, .bara, .baro, .mzero, .thflush].map fun i => (true, fun _ => uniformOf .w32 false, i)) ++
  ([.barw, .gbar].map fun i => (true, fun _ => uniformOf .w32 true, i)) ++
  [(true, fun _ => waittlShape, .waittl), (true, fun _ => uniformOf .no true, .yield), (true, yieldcOf, .yieldc), (true, fenceOf, .fence),
   (true, fun _ => uniformOf .no false, .roinv), (true, waitmOf, .waitm), (true, setgrpOf, .setgrp), (true, bcinitOf, .bcinit)]

def engineForms : List Form :=
  [(true, fun _ => gangShape, .gang), (true, mmaOf, .mma), (true, mdrainOf, .mdrain), (true, cpyOf, .cpy), (true, cpylOf, .cpyl),
   (true, bkloadOf, .bkload), (true, fun f => eightOf f true 0x3, .bkcmd), (true, fun f => eightOf f false 0, .scanq),
   (true, maintOf, .cleanr), (true, maintOf, .invr), (true, maintOf, .flushr)]

/-- All but XCHG, which the exchange of its partner may follow at once (R231). -/
def forms : List Form :=
  laneForms ++ floatForms ++ crossLaneForms ++ memoryForms ++ scalarForms ++ controlForms ++ orderingForms ++ engineForms

/-- The ways an instruction fails to start: the decode trap that R47 finds first, and the wait for a value in flight (R40). -/
def Refused (uniform : Bool) (sh : Shape) (f : Fields) (s : State) (t : Troupe) (out : Host.Outcome State Fault Refusal) : Prop :=
  (∀ c, decodeTrap uniform sh f t = some c →
    Traps s t (BitVec.ofNat 32 c) 0 0 (resumption uniform (decide (sh.dst ≠ .none ∧ sh.dst ≠ .field)) f t) out) ∧
  (∀ p, decodeTrap uniform sh f t = none → s.interlock? t uniform sh f = some p →
    Waits s t p (resumption uniform (decide (sh.dst ≠ .none ∧ sh.dst ≠ .field)) f t) out)

/-! ## What the decode checks are (R36-R39, R41, R44, R50, R52) -/

/-- A form that only says how many sources it has: set, long, sources, whether they and the result are pairs. -/
structure Plain where
  uniform : Bool
  long : Bool
  sources : Nat
  wide : Bool

def plainForms : List (Plain × Shape) :=
  [(⟨false, false, 1, false⟩, lane1), (⟨false, false, 2, false⟩, lane2), (⟨false, true, 3, false⟩, lane3),
   (⟨false, false, 2, true⟩, pair2), (⟨false, true, 3, true⟩, pair3), (⟨true, false, 1, false⟩, scalar1),
   (⟨true, false, 2, false⟩, scalar2), (⟨true, true, 3, false⟩, scalar3), (⟨true, false, 2, true⟩, scalarPair2)]

def codes (f : Fields) : List Nat := [f.a.toNat, f.b.toNat, Fields.c f]
def used (p : Plain) (f : Fields) : List Nat := (codes f).take p.sources

/-- R44: a bit of X.s or X.imm that the instruction does not use is not 0. -/
def unusedBit (p : Plain) (f : Fields) : Prop :=
  ∃ c xs imm, f.ext = .x2 c xs imm ∧
    ((xs ≠ 0 ∧ ¬ (p.uniform = false ∧ 120 ∈ used p f)) ∨ (imm ≠ 0 ∧ ¬ (p.long = true ∧ 121 ∈ used p f)))

/-- R36, R37: a source code that the set gives a meaning. -/
def sourceOk (p : Plain) (regs : Nat) (f : Fields) (k : Nat) : Prop :=
  if p.uniform then (k < 64 ∧ (p.wide = true → k % 2 = 0)) ∨ k = 121 ∨ 123 ≤ k
  else if k < 120 then (if p.wide then k % 2 = 0 ∧ k + 1 < regs else k < regs)
  else k = 120 → p.wide = true → Fields.xs f % 2 = 0

/-- R38: D is within the limit of its kind. -/
def resultOk (p : Plain) (regs d : Nat) : Prop :=
  match p.uniform, p.wide with
  | false, false => d < regs ∧ d ≤ 119
  | false, true => d % 2 = 0 ∧ d + 1 < regs
  | true, false => d ≤ 63
  | true, true => d % 2 = 0 ∧ d ≤ 62

/-- R36-R39, R41, R44: what traps ILLEGAL-OPERAND. -/
def badCode (p : Plain) (regs : Nat) (f : Fields) : Prop :=
  (∃ k ∈ (codes f).drop p.sources, k ≠ 123) ∨
  (p.long = false ∧ 120 ∈ [f.a.toNat, f.b.toNat] ∧ 121 ∈ [f.a.toNat, f.b.toNat]) ∨
  (∃ k ∈ used p f, ¬ sourceOk p regs f k) ∨
  (if f.n then f.d ≠ 0 else ¬ resultOk p regs f.d.toNat)

/-- R52: a latch that holds no value is read. -/
def emptyLatch (p : Plain) (t : Troupe) (f : Fields) : Prop :=
  ∃ k ∈ used p f, 124 ≤ k ∧
    if p.uniform then t.pos.uniLatch.getD (k - 124) none = none else t.pos.laneLatch.getD (k - 124) none = none

/-! ## Fetch (R35, R85, R130) -/

/-- The machine at the start of a step: the clock has advanced, and a yield waits no longer for a troupe that has stopped being ready (R179). -/
def ticked (s : State) : State :=
  let s0 : State := { s with clock := s.clock + 1 }
  { s0 with troupes := s0.troupes.map fun t => match t.park with
    | .yield others => { t with park := .yield (others.filter fun u => (s0.troupe? u).any s0.ready) }
    | _ => t }

/-- It is a quarter's turn: the agenda names it, or the agenda is empty and the default schedule comes to it (the model's own
order of steps: assumption 1). `s1` is the machine at the start of the turn: the clock has advanced. -/
def TakesTurn (s : State) (core quarter : Nat) (s1 : State) : Prop :=
  (∃ rest, s.agenda = .issue core quarter :: rest ∧ s1 = { ticked s with agenda := rest }) ∨
  (s.agenda = [] ∧ s.turn % 2 = 0 ∧ (ticked s).nextQuarter? = some (core, quarter) ∧
    s1 = { ticked s with focus := focusAfter core quarter, turn := s.turn + 1 })

/-- The quarter runs troupe t. -/
def Runs (s : State) (core quarter : Nat) (t : Troupe) : Prop :=
  ((s.core core).quarters.getD quarter Quarter.reset).running = some t.uid ∧ s.troupe? t.uid = some t

/-- No stack entry stands at the pc, so that R85 does nothing. -/
def NoRejoin (t : Troupe) : Prop := ∀ e rest, t.stack = e :: rest → t.pc ≠ e.rpc

/-- The machine as an instruction of troupe t finds it. -/
def running (s : State) (t : Troupe) : State := { s with cur := some t.uid }

/-! ## Encodings -/

/-- Words written out from the encoding of R35, R42 and R43, each with its instruction. -/
def wordsWritten : List (List Word × Instr) :=
  [([0x00A20082, 0x06000000], .imad ⟨false, false, 8, 1, 2, .x2 3 0 0⟩),
   ([0x05450279, 0x00000000], .icmpLt ⟨false, false, 20, 4, 121, .x1 0⟩),
   ([0x146244F9, 0x13400001], .lgetFlip ⟨false, false, 9, 9, 121, .x2 9 40 1⟩),
   ([0x1521417B, 0xF6000000], .redf ⟨false, false, 5, 2, 123, .x2 123 0 0⟩),
   ([0x82C13D87, 0xF600000A], .lanerd ⟨false, false, 4, 123, 7, .x2 123 0 10⟩)]
  ++ [([0xC84001FB, 0xF607FFF4], .brcNz ⟨true, false, 0, 3, 123, .x2 123 0 (-12)⟩),
   ([0x98423DFB, 0xF6000001], .srd ⟨false, false, 8, 123, 123, .x2 123 0 1⟩),
   ([0xD8803CFB, 7], .trap ⟨true, false, 0, 121, 123, .x1 7⟩),
   ([0x180144FB, 0xF6200040], .ldG ⟨false, false, 5, 9, 123, .x2 123 4 64⟩),
   ([0x19008483, 0xF624C000], .atom ⟨false, false, 2, 9, 3, .x2 123 4 0x4C000⟩)]
  ++ [([0x10218082, 0xF6000401], .cvtpk ⟨false, false, 6, 1, 2, .x2 123 0 0x401⟩),
   ([0x1A0140F9, 0xF6000002], .rank1 ⟨false, false, 5, 1, 121, .x2 123 0 2⟩),
   ([0x8D203DFB, 0xF6000032], .fence ⟨false, false, 0, 123, 123, .x2 123 0 0x32⟩),
   ([0xCDA03DFB], .tail ⟨true, false, 0, 123, 123, .none⟩),
   ([0x94478A06, 0xF6400000], .bkload ⟨false, false, 30, 20, 6, .x2 123 8 0⟩)]

end Sys2Proof.Claim

/-! ## How an instruction starts -/

/-- R47, R40, R88, R136: an instruction word of any form that breaks a decode check takes the trap that R47 finds first, with nothing
done; one that needs a value in flight waits at its pc. -/
def Obligations.IllegalFormsTrap : Prop :=
  (∀ p ∈ forms, ∀ f s t, s.current = some t → Refused p.1 (p.2.1 f) f s t (exec (p.2.2 f) s)) ∧
  (∀ f s t, s.current = some t → (decodeTrap false (xchgShape f) f t ≠ none ∨ s.interlock? t false (xchgShape f) f ≠ none) →
    ∃ s1, exec (.xchg f) s = .next s1.resolveXchgs ∧ Refused false (xchgShape f) f s t (.next s1))

/-- R36-R39, R41, R44, R47, R52: the decode checks of the forms with one to three sources, in their order; and R50: an act-closing
instruction with E = 0 traps ILLEGAL-OPCODE. That a short form with both 120 and 121 is read with X.s and X.imm, so that a bit that it does not use
traps ILLEGAL-OPCODE first, is the model's choice (log 135). -/
def Sys2Proof.Claim.DecodeChecks : Prop :=
  (∀ p ∈ plainForms, ∀ f t,
    (unusedBit p.1 f → decodeTrap p.1.uniform p.2 f t = some 1) ∧
    (¬ unusedBit p.1 f → badCode p.1 t.v.length f → decodeTrap p.1.uniform p.2 f t = some 2) ∧
    (¬ unusedBit p.1 f → ¬ badCode p.1 t.v.length f → emptyLatch p.1 t f → decodeTrap p.1.uniform p.2 f t = some 3) ∧
    (¬ unusedBit p.1 f → ¬ badCode p.1 t.v.length f → ¬ emptyLatch p.1 t f → decodeTrap p.1.uniform p.2 f t = none)) ∧
  (∀ uniform sh f t, sh.closing = true → f.e = false → decodeTrap uniform sh f t = some 1)

/-- R36, R37, R42, R43: the value of every source code, of 32 and of 64 bits, in lane i and in the uniform set. -/
def Sys2Proof.Claim.SourceValues : Prop :=
  (∀ (t : Troupe) f i k, k < 120 → t.lane32 f k i = rowGet (t.vrow k) i ∧
    (t.lane64 f k i).toNat = (rowGet (t.vrow k) i).toNat + 2 ^ 32 * (rowGet (t.vrow (k + 1)) i).toNat) ∧
  (∀ (t : Troupe) f i, let xs := Fields.xs f
    t.lane32 f 120 i = t.sreg xs ∧ (t.lane64 f 120 i).toNat = (t.sreg xs).toNat + 2 ^ 32 * (t.sreg (xs + 1)).toNat ∧
    t.lane32 f 121 i = Fields.im f ∧ (t.lane64 f 121 i).toInt = (Fields.im f).toInt ∧
    t.lane32 f 122 i = BitVec.ofNat 32 i ∧ t.lane64 f 122 i = BitVec.ofNat 64 i ∧ t.lane32 f 123 i = 0 ∧ t.lane64 f 123 i = 0) ∧
  (∀ (t : Troupe) f i j g, t.pos.laneLatch.getD j none = some g → t.lane64 f (124 + j) i = g.getD i 0 ∧
    t.lane32 f (124 + j) i = BitVec.ofNat 32 (g.getD i 0).toNat) ∧
  (∀ (t : Troupe) f k, k < 64 → t.uni32 f k = t.sreg k ∧
    (t.uni64 f k).toNat = (t.sreg k).toNat + 2 ^ 32 * (t.sreg (k + 1)).toNat) ∧
  (∀ (t : Troupe) f, t.uni32 f 121 = Fields.im f ∧ (t.uni64 f 121).toInt = (Fields.im f).toInt ∧ t.uni32 f 123 = 0 ∧ t.uni64 f 123 = 0) ∧
  (∀ (t : Troupe) f j x, t.pos.uniLatch.getD j none = some x → t.uni64 f (124 + j) = x ∧ t.uni32 f (124 + j) = BitVec.ofNat 32 x.toNat) ∧
  (∀ f imm, f.ext = .x1 imm → Fields.im f = imm) ∧
  (∀ f c xs imm, f.ext = .x2 c xs imm → (Fields.im f).toInt = imm.toInt ∧ Fields.c f = c.toNat ∧ Fields.xs f = xs.toNat)

/-- R36-R39, R41-R44, R47, R50, R52: which operand forms are legal, and what every source reads. -/
def Obligations.OperandForms : Prop := Claim.DecodeChecks ∧ Claim.SourceValues

/-! ## Fetch and step -/

/-- R35, R41, R85, R87, R130, R137, R237: a step that is a quarter's turn fetches the word at the pc of the quarter's troupe, and a second word where the first has
an extension, and runs the instruction that they decode to; a page without execute permission runs the fetch fault instead, a troupe whose lanes have all
exited retires, a quarter without a troupe arbitrates, and an event that the agenda names runs. -/
def Obligations.StepRunsDecoded : Prop :=
  (∀ s core quarter s1 t, TakesTurn s core quarter s1 → Runs s1 core quarter t → t.exited ≠ -1 → NoRejoin t →
    let pc := t.pc.toNat % 2 ^ 56
    let pc2 := (pc + 4) % 2 ^ 56
    (∀ s2 w i, (s1.setTroupe t).fetchWord t pc = (s2, .ok w) → wordLength w = 4 → decode [w] = .ok (i, []) →
      step s = exec i (running s2 t)) ∧
    (∀ s2 w s3 x i, (s1.setTroupe t).fetchWord t pc = (s2, .ok w) → wordLength w = 8 → s2.fetchWord t pc2 = (s3, .ok x) →
      decode [w, x] = .ok (i, []) → step s = exec i (running s3 t)) ∧
    (∀ s2, (s1.setTroupe t).fetchWord t pc = (s2, .error .denied) → step s = exec .instructionFetchFault (running s2 t))) ∧
  (∀ s core quarter s1 t, TakesTurn s core quarter s1 → Runs s1 core quarter t → t.exited = -1 →
    step s = exec (.tail ⟨true, false, 0, 123, 123, .none⟩) (running s1 t)) ∧
  (∀ s core quarter s1, TakesTurn s core quarter s1 → ((s.core core).quarters.getD quarter Quarter.reset).running = none →
    step s = exec (.actSelect core quarter) s1) ∧
  (∀ s i rest, s.agenda = .event i :: rest → Instr.isEvent i = true →
    step s = exec i { ticked s with agenda := rest }) ∧
  (∀ (s : State) t va s1 pa e psize, s.translate .fetch t.core (s.rootOf t.lid) va .x = (s1, .ok pa e psize) → entryCMP e = false →
    s1.ownedCopy (pa / 192) = none → s1.l2Get (pa / 192) = none → pa % 192 + 4 ≤ 192 →
    let l := s1.loc pa e psize
    (l.host = true ∨ (l.die = t.core / 32 ∧ s1.l2Victim? l = none) →
      ∃ s2, s.fetchWord t va = (s2, .ok (BitVec.ofNat 32 (leNat (bytesAt s1.mem pa 4)))) ∧ s2.mem = s1.mem) ∧
    (∀ x, l.host = false → l.die ≠ t.core / 32 → (s1.die (t.core / 32)).rdc.find? (·.line == l.line) = some x →
      ∃ s2, s.fetchWord t va = (s2, .ok (BitVec.ofNat 32 (leNat ((x.data.drop l.off).take 4)))) ∧ s2.mem = s1.mem)) ∧
  (∀ (s : State) t va s1 r, s.translate .fetch t.core (s.rootOf t.lid) va .x = (s1, r) → (∀ pa e psize, r ≠ .ok pa e psize) →
    s.fetchWord t va = (s1, .error r))

/-- Whatever state it is in, the machine goes on: no step faults or is refused. -/
def Obligations.StepsGo : Prop := ∀ s, ∃ s', step s = .next s'

/-! ## Encodings -/

/-- R35, R42, R43: words written out bit by bit decode to the instructions that they stand for. -/
def Obligations.WrittenWordsDecode : Prop := ∀ p ∈ wordsWritten, decode p.1 = .ok (p.2, [])

/-- R35, R41-R43, R72: the words of every well-formed instruction decode to that instruction, whatever follows them. -/
def Obligations.DecodeOfEncode : Prop :=
  ∀ i rest, i.wf = true → encode i ≠ [] → decode (encode i ++ rest) = .ok (i, rest)

/-- R35, R41-R43, R72: decoding gives a well-formed instruction whose words are the words that were read: no bit of them is dropped; any two words decode. -/
def Obligations.EncodeOfDecode : Prop :=
  (∀ ws i rest, decode ws = .ok (i, rest) → i.wf = true ∧ encode i ++ rest = ws) ∧
  (∀ w x rest, ∃ i r, decode (w :: x :: rest) = .ok (i, r))

/-! ## Reset and the invariant of memory -/

namespace Sys2Proof.Claim

open Sys2Proof.Machine

/-- Memory, every scratchpad and every accumulator tile is in its canonical form: addresses strictly rising, and no entry equal to
what an unlisted address reads as. So equal contents are equal data. -/
def Canonical (s : State) : Prop :=
  s.mem.wf = true ∧ ∀ c ∈ s.companies, c.spad.wf = true ∧ ∀ t ∈ c.tiles, cellsWf t = true

end Sys2Proof.Claim

/-- Every step keeps memory, scratchpads and tiles in their canonical form. -/
def Obligations.StepsKeepCanonicalForm : Prop := ∀ s s', Canonical s → step s = .next s' → Canonical s'

/-- The state after reset has the canonical form. -/
def Obligations.ResetIsCanonical : Prop := Canonical State.reset

/-- R74, R67: what a troupe starts with, as admission makes it. -/
def Sys2Proof.Claim.TroupeStart : Prop :=
  ∀ uid cid lid core quarter slot wid h va,
    let t := newTroupe uid cid lid core quarter slot wid h va
    (∀ r i, i < 96 → rowGet (t.vrow r) i = 0) ∧ t.v.length = h.regs ∧
    (t.sreg 0).toNat = va % 2 ^ 32 ∧ (t.sreg 1).toNat = va / 2 ^ 32 % 2 ^ 32 ∧ (∀ j, 2 ≤ j → j < 61 → t.sreg j = 0) ∧
    (∀ j, 61 ≤ j → j < 64 → t.sreg j = 0xFFFFFFFF) ∧ t.fmt = 0x00001133 ∧
    (∀ j, t.pos.laneLatch.getD j none = none ∧ t.pos.uniLatch.getD j none = none) ∧ t.stack = [] ∧ t.exited = 0 ∧
    t.ld = 0 ∧ t.st = 0 ∧ t.xc = 0 ∧ t.ul = 0 ∧ t.trap = false ∧ t.wid = wid ∧ t.srseed = h.seed ∧ t.fflags = 0 ∧ t.srctr = 0 ∧
    t.tcause = 0 ∧ t.tpc = 0 ∧ t.taddr = 0 ∧ t.tmask = 0 ∧ t.mrp = 0 ∧ t.gang = 0 ∧ t.grpsel = 0 ∧ t.ldstat = 0 ∧ t.pc = h.entry

/-- R67, R226, R241, R303, R326, R346, R359, R361, R363: the registers after reset. The values of PWRLIM and BOOTSTAT are those of the form and the start that assumption 3
names. -/
def Sys2Proof.Claim.ResetValues : Prop :=
  let s := State.reset
  s.clock = 0 ∧ s.troupes = [] ∧ s.companies = [] ∧ s.l2 = [] ∧
  (∀ c ∈ s.clusters, c.clbwin = 0x1000 ∧ c.clbpair = 0 ∧ c.clbmiss = 0 ∧ c.clbsplit = 0 ∧ c.clxlost = 0 ∧ c.clrstat = 0) ∧
  (∀ d ∈ s.dieUnits, d.l2quota = 0x00084210 ∧ d.dnrefuse = 0 ∧ d.dnmonovf = 0 ∧ d.dngrppart = 0 ∧ d.dnbcrecall = 0 ∧ d.dnecc = 0 ∧
    (∀ g ∈ d.bkgrant, g = 0) ∧ d.bkwdog = 0x00010000 ∧ d.bkreset = 0 ∧ d.bkdupfix = 0 ∧ d.bkdupfail = 0 ∧ d.bkdirign = 0 ∧
    d.cmtbase = 0 ∧ d.cmpmispred = 0 ∧ d.hpthresh = 0x40 ∧ d.hptpromo = 0 ∧ d.hptpinskip = 0) ∧
  (∀ q ∈ s.rm.queues, q.qbase = 0 ∧ q.qsize = 0 ∧ q.qroot = 0 ∧ q.qhead = 0 ∧ q.qtail = 0 ∧ q.qctl = 0) ∧
  s.rm.sealctl = 1 ∧ s.rm.sealminv = 0 ∧ s.rm.prewait = 0x00100000 ∧ s.rm.rmmsgsize = 0 ∧
  s.fabric.fxdevid = 0x0003FFFF ∧ s.fabric.fxroot = 0 ∧ s.fabric.fxtmo = 0x2710 ∧ (∀ b ∈ s.fabric.fxbar, b = 0) ∧
  s.boot.attstat = 0 ∧ s.boot.pwrlim = 4800 ∧ s.boot.bootstat = 0x10000FFF

/-- R67, R74, and the register tables: what a troupe starts with, and the registers after reset. -/
def Obligations.StartValues : Prop := Claim.TroupeStart ∧ Claim.ResetValues
end

