-- ==== Sys2Proof/Laws/Memory.lean ====
section
/-!
SUPPORT. Sparse stores: a write is read back, leaves every other address alone and keeps the canonical form.
-/
namespace Sys2Proof.Machine

/-- Every address of a store lies above `k`. -/
def cellsAbove {w : Nat} (k : Nat) (m : Cells w) : Prop := ∀ p ∈ m, k < p.1

theorem cellsWf_tail {w : Nat} {p : Nat × BitVec w} {m : Cells w} (h : cellsWf (p :: m) = true) : cellsWf m = true := by
  obtain ⟨k, v⟩ := p
  simp [cellsWf] at h
  exact h.2

theorem cellsWf_ne {w : Nat} {p : Nat × BitVec w} {m : Cells w} (h : cellsWf (p :: m) = true) : p.2 ≠ 0 := by
  obtain ⟨k, v⟩ := p
  simp [cellsWf] at h
  exact h.1.1

theorem cellsWf_above {w : Nat} : ∀ {p : Nat × BitVec w} {m : Cells w}, cellsWf (p :: m) = true → cellsAbove p.1 m
  | (k, v), [], _ => by simp [cellsAbove]
  | (k, v), (k', v') :: rest, h => by
    have h1 : k < k' := by simp [cellsWf] at h; exact h.1.2
    have h2 := cellsWf_above (cellsWf_tail h)
    intro p hp
    rcases List.mem_cons.mp hp with rfl | hp
    · exact h1
    · exact Nat.lt_trans h1 (h2 p hp)

theorem cellsWf_cons {w : Nat} {k : Nat} {v : BitVec w} {m : Cells w} (hv : v ≠ 0) (ha : cellsAbove k m)
    (h : cellsWf m = true) : cellsWf ((k, v) :: m) = true := by
  cases m with
  | nil => simpa [cellsWf] using hv
  | cons p rest =>
    obtain ⟨k', v'⟩ := p
    have : k < k' := ha (k', v') (by simp)
    rw [cellsWf]
    simp [h, this]
    simpa using hv

theorem cellGet_above {w : Nat} {k : Nat} : ∀ {m : Cells w}, cellsAbove k m → cellGet m k = 0
  | [], _ => rfl
  | (k', v) :: rest, h => by
    have h1 : k < k' := h (k', v) (by simp)
    have h2 : cellsAbove k rest := fun p hp => h p (by simp [hp])
    simp [cellGet, show k' ≠ k by omega, cellGet_above h2]

theorem cellPut_above {w : Nat} {k a : Nat} {v : BitVec w} (hk : k < a) : ∀ {m : Cells w}, cellsAbove k m →
    cellsAbove k (cellPut m a v)
  | [], _ => by
    unfold cellPut
    split
    · simp [cellsAbove]
    · intro p hp; simp at hp; subst hp; exact hk
  | (k', u) :: rest, h => by
    have h2 : cellsAbove k rest := fun p hp => h p (by simp [hp])
    have h1 : k < k' := h (k', u) (by simp)
    have ih := cellPut_above (v := v) hk h2
    unfold cellPut
    intro p hp
    split at hp
    · split at hp
      · exact h p hp
      · rcases List.mem_cons.mp hp with rfl | hp
        · exact hk
        · exact h p hp
    · split at hp
      · split at hp
        · exact h2 p hp
        · rcases List.mem_cons.mp hp with rfl | hp
          · exact hk
          · exact h2 p hp
      · rcases List.mem_cons.mp hp with rfl | hp
        · exact h1
        · exact ih p hp

/-- A write keeps the canonical form. -/
theorem cellPut_wf {w : Nat} (a : Nat) (v : BitVec w) : ∀ {m : Cells w}, cellsWf m = true → cellsWf (cellPut m a v) = true
  | [], _ => by
    unfold cellPut
    split
    · rfl
    · rename_i h; simpa [cellsWf] using h
  | (k, u) :: rest, h => by
    have ht := cellsWf_tail h
    have ha := cellsWf_above h
    have hu := cellsWf_ne h
    unfold cellPut
    split
    · split
      · exact h
      · rename_i h1 h2
        refine cellsWf_cons h2 ?_ h
        intro p hp
        rcases List.mem_cons.mp hp with rfl | hp
        · exact h1
        · exact Nat.lt_trans h1 (ha p hp)
    · split
      · rename_i h2
        split
        · exact ht
        · rename_i h3
          exact cellsWf_cons h3 (by rw [h2]; exact ha) ht
      · exact cellsWf_cons hu (cellPut_above (by omega) ha) (cellPut_wf a v ht)

/-- A write is read back. -/
theorem cellGet_cellPut_same {w : Nat} (a : Nat) (v : BitVec w) : ∀ {m : Cells w}, cellsWf m = true →
    cellGet (cellPut m a v) a = v
  | [], _ => by
    unfold cellPut
    split
    · rename_i h; simp [cellGet, h]
    · simp [cellGet]
  | (k, u) :: rest, h => by
    have ht := cellsWf_tail h
    have ha := cellsWf_above h
    unfold cellPut
    split
    · rename_i h1
      split
      · rename_i h2
        subst h2
        refine cellGet_above ?_
        intro p hp
        rcases List.mem_cons.mp hp with rfl | hp
        · exact h1
        · exact Nat.lt_trans h1 (ha p hp)
      · simp [cellGet]
    · split
      · rename_i h2
        split
        · rename_i h3
          subst h2 h3
          exact cellGet_above ha
        · simp [cellGet]
      · rename_i h2
        simp [cellGet, show k ≠ a by omega, cellGet_cellPut_same a v ht]

/-- A write leaves every other address alone. -/
theorem cellGet_cellPut_other {w : Nat} {a b : Nat} (v : BitVec w) (hab : b ≠ a) : ∀ {m : Cells w},
    cellGet (cellPut m a v) b = cellGet m b
  | [] => by
    unfold cellPut
    split <;> simp [cellGet, Ne.symm hab]
  | (k, u) :: rest => by
    unfold cellPut
    split
    · split <;> simp [cellGet, Ne.symm hab]
    · split
      · rename_i h
        subst h
        split <;> simp [cellGet, Ne.symm hab]
      · simp [cellGet, cellGet_cellPut_other v hab]

/-- A run of bytes keeps the canonical form. -/
theorem putBytes_wf : ∀ (bs : List Byte) {m : Memory} (a : Nat), m.wf = true → (putBytes m a bs).wf = true
  | [], _, _, h => h
  | b :: rest, _, a, h => putBytes_wf rest (a + 1) (cellPut_wf a b h)

/-- A run of bytes leaves every address outside it alone. -/
theorem cellGet_putBytes_other : ∀ (bs : List Byte) {m : Memory} (a x : Nat), x < a ∨ a + bs.length ≤ x →
    cellGet (putBytes m a bs) x = cellGet m x
  | [], _, _, _, _ => rfl
  | b :: rest, m, a, x, h => by
    simp at h
    rw [putBytes, cellGet_putBytes_other rest (a + 1) x (by omega), cellGet_cellPut_other b (by omega)]

/-- A run of bytes is read back. -/
theorem cellGet_putBytes_same : ∀ (bs : List Byte) {m : Memory} (a i : Nat), m.wf = true → (h : i < bs.length) →
    cellGet (putBytes m a bs) (a + i) = bs[i]
  | b :: rest, m, a, 0, hm, _ => by
    rw [putBytes, cellGet_putBytes_other rest (a + 1) (a + 0) (by omega)]
    exact cellGet_cellPut_same a b hm
  | b :: rest, m, a, i + 1, hm, h => by
    rw [putBytes, show a + (i + 1) = a + 1 + i by omega,
      cellGet_putBytes_same rest (a + 1) i (cellPut_wf a b hm) (by simpa using h)]
    rfl

theorem bytesAt_putBytes (bs : List Byte) {m : Memory} (a : Nat) (hm : m.wf = true) :
    bytesAt (putBytes m a bs) a bs.length = bs := by
  apply List.ext_getElem
  · simp [bytesAt]
  · intro i h1 h2
    simp [bytesAt]
    exact cellGet_putBytes_same bs a i hm h2

/-- Reset memory lists nothing. -/
theorem reset_mem_wf : State.reset.mem.wf = true := rfl

end Sys2Proof.Machine
end

