-- ==== Sys2Proof/Laws/Canonical.lean ====
section
/-!
SUPPORT. Every operation over memory keeps its canonical form and leaves the companies, with their scratchpads and tiles, alone.
-/
namespace Sys2Proof.Machine

/-- What a memory operation may do to the stores of a state: memory keeps its form, the companies stay. -/
structure Stores (s s' : State) : Prop where
  mem : s.mem.wf = true → s'.mem.wf = true
  companies : s'.companies = s.companies

theorem Stores.refl (s : State) : Stores s s := ⟨id, rfl⟩

theorem Stores.same {s s' : State} (hm : s'.mem = s.mem) (hc : s'.companies = s.companies) : Stores s s' :=
  ⟨fun h => hm ▸ h, hc⟩

theorem Stores.trans {a b c : State} (h : Stores a b) (k : Stores b c) : Stores a c :=
  ⟨k.mem ∘ h.mem, k.companies.trans h.companies⟩

theorem Stores.foldl {α : Type} {f : State → α → State} (hf : ∀ s x, Stores s (f s x)) :
    ∀ (xs : List α) (s : State), Stores s (xs.foldl f s)
  | [], s => .refl s
  | x :: xs, s => (hf s x).trans (Stores.foldl hf xs (f s x))

/-- A fold of single writes keeps the form. -/
theorem foldl_cellPut_wf {α : Type} {w : Nat} {f : Cells w → α → Cells w}
    (hf : ∀ m x, cellsWf m = true → cellsWf (f m x) = true) :
    ∀ (xs : List α) (m : Cells w), cellsWf m = true → cellsWf (xs.foldl f m) = true
  | [], _, h => h
  | x :: xs, m, h => foldl_cellPut_wf hf xs (f m x) (hf m x h)

theorem cellsAbove_of_subset {w k : Nat} {m n : Cells w} (h : cellsAbove k m) (hs : ∀ p ∈ n, p ∈ m) : cellsAbove k n :=
  fun p hp => h p (hs p hp)

/-- Leaving entries out keeps the form. -/
theorem filter_wf {w : Nat} (q : Nat × BitVec w → Bool) : ∀ (m : Cells w), cellsWf m = true → cellsWf (m.filter q) = true
  | [], h => h
  | p :: m, h => by
    have ih := filter_wf q m (cellsWf_tail h)
    rw [List.filter_cons]
    split
    · exact cellsWf_cons (cellsWf_ne h) (cellsAbove_of_subset (cellsWf_above h) fun x hx => (List.mem_filter.1 hx).1) ih
    · exact ih

/-! ## The memory side -/

theorem sideDirty_stores (s : State) (pa n : Nat) : Stores s (s.sideDirty pa n) :=
  .foldl (fun s i => by dsimp only; split <;> exact .same rfl rfl) _ s

theorem sideDirty_mem (s : State) (pa n : Nat) : (s.sideDirty pa n).mem = s.mem := by
  unfold State.sideDirty
  generalize List.range ((pa + n + 191) / 192 - pa / 192) = xs
  induction xs generalizing s with
  | nil => rfl
  | cons i xs ih => rw [List.foldl_cons, ih]; dsimp only; split <;> rfl

theorem sideDirty_companies (s : State) (pa n : Nat) : (s.sideDirty pa n).companies = s.companies :=
  (sideDirty_stores s pa n).companies

theorem dramPut_stores (s : State) (pa : Nat) (bs : List Byte) : Stores s (s.dramPut pa bs) := ⟨putBytes_wf bs pa, rfl⟩

theorem sidePut_stores (s : State) (pa : Nat) (bs : List Byte) : Stores s (s.sidePut pa bs) :=
  (sideDirty_stores s pa bs.length).trans ⟨putBytes_wf bs pa, rfl⟩

theorem loseSide_stores (s : State) : Stores s s.loseSide := by
  unfold State.loseSide
  have h := Stores.foldl (f := fun s (x : SideLine) =>
      { s with
        mem := (x.below.zipIdx.filter fun (_, i) => !Config.sectorWritten (s.freeCtr + i / 48)).foldl
          (fun m (b, i) => cellPut m (192 * x.line + i) b) s.mem
        freeCtr := s.freeCtr + 4 })
    (fun s x => ⟨fun h => foldl_cellPut_wf (fun _ _ hm => cellPut_wf _ _ hm) _ _ h, rfl⟩) s.msc s
  exact ⟨h.mem, h.companies⟩

theorem updDie_stores (s : State) (d : Nat) (h : Die → Die) : Stores s (s.updDie d h) := .same rfl rfl

theorem updCore_stores (s : State) (c : Nat) (h : Core → Core) : Stores s (s.updCore c h) := .same rfl rfl

theorem updTroupe_stores (s : State) (u : Nat) (h : Troupe → Troupe) : Stores s (s.updTroupe u h) := .same rfl rfl

theorem dirPut_stores (s : State) (g : Region) (off n v : Nat) : Stores s (s.dirPut g off n v) :=
  .foldl (fun s _ => sidePut_stores s _ _) _ s

theorem markBlock_stores (s : State) (g : Region) (b : Nat) : Stores s (s.markBlock g b) := by
  unfold State.markBlock
  exact (((updDie_stores _ _ _).trans (dirPut_stores _ _ _ _ _)).trans (dirPut_stores _ _ _ _ _)).trans
    (dirPut_stores _ _ _ _ _)

theorem markWrite_stores (s : State) (die pa n : Nat) : Stores s (s.markWrite die pa n) := by
  unfold State.markWrite
  exact .foldl (fun s g => .foldl (fun s b => markBlock_stores s g b) _ s) _ s

theorem codedPut_stores (s : State) (slot0 psize : Nat) (data : List Byte) : Stores s (s.codedPut slot0 psize data) := by
  unfold State.codedPut
  dsimp only
  refine (Stores.trans ?_ (sidePut_stores _ _ _)).trans (dramPut_stores _ _ _)
  refine Stores.trans (b := if allZero data then s else s.dramPut _ _) ?_ (.same rfl rfl)
  split
  · exact .refl s
  · exact dramPut_stores _ _ _

theorem sideClean_stores (s : State) (keep : SideLine → Bool) : Stores s (s.sideClean keep) := by
  unfold State.sideClean
  refine Stores.trans (b := { s with msc := s.msc.filter keep }) (.same rfl rfl) (.foldl (fun s x => ?_) _ _)
  split
  · exact codedPut_stores _ _ _ _
  · exact .refl s

theorem sideRoom_stores (s : State) (line : Nat) : Stores s (s.sideRoom line) := by
  unfold State.sideRoom
  split
  · exact .refl s
  · dsimp only
    split
    · split
      · exact .refl s
      · exact sideClean_stores _ _
    · exact .refl s

theorem poisonBelow_stores (s : State) (l : Loc) (n : Nat) (bad : List Nat) : Stores s (s.poisonBelow l n bad) := .same rfl rfl

theorem putBelow_stores (s : State) (l : Loc) (bs whole : List Byte) : Stores s (s.putBelow l bs whole) := by
  unfold State.putBelow
  refine (sideRoom_stores s l.line).trans ?_
  split
  · exact .same rfl rfl
  · refine ((markWrite_stores _ l.die l.byte bs.length).trans (sideDirty_stores _ _ _)).trans ⟨fun h => ?_, rfl⟩
    refine foldl_cellPut_wf (fun m x hm => ?_) _ _ h
    dsimp only
    split
    · exact hm
    · exact cellPut_wf _ _ hm

theorem coded_stores (s : State) (x : List CodedLine) : Stores s { s with coded := x } := .same rfl rfl

theorem poison_stores (s : State) (x : List Nat) : Stores s { s with poison := x } := .same rfl rfl

theorem l2_stores (s : State) (xs : List L2Line) : Stores s { s with l2 := xs } := .same rfl rfl

theorem l2Put_stores (s : State) (x : L2Line) : Stores s (s.l2Put x) := .same rfl rfl

theorem writeDown_stores (s : State) (line : Nat) : Stores s (s.writeDown line) := by
  unfold State.writeDown
  split
  · split
    · exact ((l2Put_stores _ _).trans (putBelow_stores _ _ _ _)).trans (poisonBelow_stores _ _ _ _)
    · exact .refl s
  · exact .refl s

/-! ## The home slice -/

theorem recall_stores (s : State) (line : Nat) : Stores s (s.recall line) := by
  unfold State.recall
  split
  · exact .refl s
  · dsimp only
    split
    · split <;> exact .same rfl rfl
    · exact .same rfl rfl

theorem settleInval_stores (s : State) (die line : Nat) : Stores s (s.settleInval die line) := by
  unfold State.settleInval
  split
  · exact .same rfl rfl
  · exact .refl s

theorem settleAll_stores (s : State) : Stores s s.settleAll :=
  .foldl (f := fun s (x : Inval) => s.settleInval x.die x.line) (fun s x => settleInval_stores s x.die x.line) _ s

theorem evictLine_stores (s : State) (line : Nat) : Stores s (s.evictLine line) := by
  unfold State.evictLine
  dsimp only
  split
  · exact recall_stores s line
  · refine Stores.trans ?_ (l2_stores _ _)
    refine Stores.trans ?_ (.foldl (f := fun s d => s.dropRdc d line) (fun s d => updDie_stores s d _) _ _)
    refine Stores.trans ?_ (writeDown_stores _ _)
    exact (recall_stores s line).trans (.foldl (f := fun s d => s.settleInval d line) (fun s d => settleInval_stores s d line) _ _)

theorem predict_stores (s : State) (l : Loc) : Stores s (s.predict l) := by
  unfold State.predict
  split
  · exact .refl s
  · exact .same rfl rfl

theorem fill_stores (s : State) (l : Loc) : Stores s (s.fill l) := by
  unfold State.fill
  split
  · exact .same rfl rfl
  · refine Stores.trans (Stores.trans ?_ (predict_stores _ l)) (l2Put_stores _ _)
    split
    · exact evictLine_stores _ _
    · exact .refl s

theorem homeRead_stores (s : State) (l : Loc) (n : Nat) : Stores s (s.homeRead l n).1 := by
  unfold State.homeRead
  split
  · exact .refl s
  · dsimp only
    split <;> exact (recall_stores _ _).trans (fill_stores _ _)

theorem invalidateSharers_stores (s : State) (line die uid : Nat) : Stores s (s.invalidateSharers line die uid) := by
  unfold State.invalidateSharers
  split
  · exact .same rfl rfl
  · exact .refl s

theorem wakeMonitor_stores (s : State) (uid : Nat) : Stores s (s.wakeMonitor uid) := by
  unfold State.wakeMonitor
  split
  · split
    · dsimp only
      split
      · unfold State.acquireAt
        split <;> exact .same rfl rfl
      · exact .same rfl rfl
    · exact .refl s
  · exact .refl s

theorem dropOlder_stores (s : State) (core line : Nat) : Stores s (s.dropOlder core line) :=
  ((settleInval_stores s _ line).trans (updDie_stores _ _ _)).trans (updCore_stores _ _ _)

theorem evalMonitors_stores (s : State) (l : Loc) (n : Nat) : Stores s (s.evalMonitors l n) := by
  unfold State.evalMonitors
  refine (updDie_stores s _ _).trans (.foldl (fun s m => ?_) _ _)
  dsimp only
  refine (wakeMonitor_stores s m.uid).trans ?_
  split
  · exact dropOlder_stores _ _ _
  · exact .refl _

theorem linePut_stores (s : State) (l : Loc) (bs : List Byte) : Stores s (s.linePut l bs) := by
  unfold State.linePut
  dsimp only
  refine (fill_stores s l).trans ?_
  split
  · split
    · exact ((l2Put_stores _ _).trans (putBelow_stores _ _ _ _)).trans (poisonBelow_stores _ _ _ _)
    · exact l2Put_stores _ _
  · exact .refl _

theorem ctrPut_stores (s : State) (l : Loc) (off n v : Nat) : Stores s (s.ctrPut l off n v) :=
  .foldl (fun s _ => linePut_stores s _ _) _ s

theorem recallHolder_stores (s : State) (l : Loc) (h : Nat) : Stores s (s.recallHolder l h) := by
  unfold State.recallHolder State.dropAllowance
  exact ((((updCore_stores _ _ _).trans (ctrPut_stores _ _ _ _ _)).trans (ctrPut_stores _ _ _ _ _)).trans
    (ctrPut_stores _ _ _ _ _)).trans (updDie_stores _ _ _)

theorem recallWhile_stores (l : Loc) (more : Nat → Bool) : ∀ (fuel : Nat) (s : State), Stores s (s.recallWhile l more fuel)
  | 0, s => .refl s
  | fuel + 1, s => by
    unfold State.recallWhile
    split
    · split
      · exact (recallHolder_stores s l _).trans (recallWhile_stores l more fuel _)
      · exact .refl s
    · exact .refl s

theorem recallAllowances_stores (s : State) (l : Loc) (n : Nat) : Stores s (s.recallAllowances l n) := by
  unfold State.recallAllowances
  split
  · exact recallWhile_stores _ _ _ _
  · exact .refl s

theorem homeWrite_stores (s : State) (l : Loc) (bs : List Byte) (die uid : Nat) : Stores s (s.homeWrite l bs die uid) := by
  unfold State.homeWrite
  dsimp only
  split
  · exact ⟨putBytes_wf _ _, rfl⟩
  · refine Stores.trans ?_ (evalMonitors_stores _ _ _)
    refine Stores.trans ?_ (invalidateSharers_stores _ _ _ _)
    refine Stores.trans ?_ (linePut_stores _ _ _)
    have h1 := ((recall_stores s l.line).trans (fill_stores _ l)).trans (recallAllowances_stores _ l bs.length)
    split
    · exact h1.trans (updDie_stores _ _ _)
    · exact h1

/-! ## The path of a core -/

theorem dieRead_stores (s : State) (die : Nat) (l : Loc) : Stores s (s.dieRead die l).1 := by
  unfold State.dieRead
  dsimp only
  split
  · exact homeRead_stores _ _ _
  · split
    · exact .refl s
    · split
      · exact homeRead_stores _ _ _
      · refine (homeRead_stores s { l with off := 0 } 192).trans ?_
        split <;> exact .same rfl rfl

theorem coreRead_stores (s : State) (core : Nat) (l : Loc) (n : Nat) (ns : Bool) : Stores s (s.coreRead core l n ns).1 := by
  unfold State.coreRead
  split
  · exact .refl s
  · dsimp only
    refine (dieRead_stores s (dieOf core) l).trans ?_
    split <;> exact .same rfl rfl

theorem unpoison_stores (s : State) (l : Loc) (n : Nat) : Stores s (s.unpoison l n) := by
  unfold State.unpoison
  split
  · exact l2Put_stores _ _
  · exact poisonBelow_stores _ _ _ _

theorem coreWrite_stores (s : State) (core : Nat) (l : Loc) (bs : List Byte) (uid : Nat) :
    Stores s (s.coreWrite core l bs uid) := by
  unfold State.coreWrite
  dsimp only
  split
  · exact (unpoison_stores _ _ _).trans (updCore_stores _ _ _)
  · refine Stores.trans (Stores.trans ?_ (homeWrite_stores _ l bs (dieOf core) uid)) (updCore_stores _ _ _)
    split <;> exact .same rfl rfl

theorem takeOwnership_stores (s : State) (core : Nat) (l : Loc) (uid : Nat) : Stores s (s.takeOwnership core l uid) := by
  unfold State.takeOwnership
  split
  · exact .refl s
  · exact ((homeRead_stores s { l with off := 0 } 192).trans (invalidateSharers_stores _ _ _ _)).trans (updCore_stores _ _ _)

theorem coreAtomic_stores (s : State) (core : Nat) (l : Loc) (va n uid : Nat) (new : Nat → Nat) :
    Stores s (s.coreAtomic core l va n uid new).1 := by
  unfold State.coreAtomic
  dsimp only
  have h0 : Stores s (if s.isPoisoned l n then { s with freeCtr := s.freeCtr + 1 } else s) := by
    split <;> exact .same rfl rfl
  refine h0.trans ?_
  generalize (if s.isPoisoned l n then { s with freeCtr := s.freeCtr + 1 } else s) = s1
  split
  · refine Stores.trans ?_ (updCore_stores _ _ _)
    refine Stores.trans ?_ (homeWrite_stores _ _ _ _ _)
    refine Stores.trans ?_ (homeRead_stores _ _ _)
    refine Stores.trans ?_ (recallAllowances_stores _ _ _)
    refine Stores.trans ?_ (recall_stores _ _)
    split <;> exact .same rfl rfl
  · exact (takeOwnership_stores _ _ _ _).trans (coreWrite_stores _ _ _ _ _)

theorem releaseOwned_stores (s : State) (core : Nat) : Stores s (s.releaseOwned core) :=
  .foldl (fun s _ => recall_stores s _) _ s

/-! ## Regions, banks, frames -/

theorem flushLine_stores (s : State) (l : Nat) : Stores s (s.flushLine l) :=
  ((recall_stores s l).trans (writeDown_stores _ l)).trans (.same rfl rfl)

theorem putStrLine_stores (s : State) (die : Nat) (g : Region) (b : Nat) (bs : List Byte) (bad : Bool) :
    Stores s (s.putStrLine die g b bs bad) := by
  unfold State.putStrLine
  dsimp only
  have h1 : ∀ ls : List Nat, Stores s
      (ls.foldl (fun s line => s.sideDirty (192 * line) 192) ((ls.foldl State.flushLine s).markBlock g b)) := fun ls =>
    ((Stores.foldl flushLine_stores ls s).trans (markBlock_stores _ g b)).trans
      (.foldl (fun s line => sideDirty_stores s (192 * line) 192) _ _)
  split
  · exact (h1 _).trans ⟨fun h => foldl_cellPut_wf (fun _ _ hm => cellPut_wf _ _ hm) _ _ h, rfl⟩
  · split <;> exact (h1 _).trans ⟨fun h => foldl_cellPut_wf (fun _ _ hm => cellPut_wf _ _ hm) _ _ h, rfl⟩

theorem slotWritten_stores (s : State) (slot first size : Nat) : Stores s (s.slotWritten slot first size) := by
  unfold State.slotWritten
  dsimp only
  exact ((sidePut_stores _ _ _).trans (dramPut_stores _ _ _)).trans (.same rfl rfl)

theorem bankWrite_stores (s : State) (die pa : Nat) (bs : List Byte) : Stores s (s.bankWrite die pa bs) := by
  unfold State.bankWrite
  dsimp only
  refine Stores.trans (Stores.trans ?_ (poison_stores _ _)) (.foldl (fun s _ => slotWritten_stores s _ _ _) _ _)
  split
  · refine (updDie_stores s _ _).trans (.foldl (fun s x => ?_) _ _)
    split
    · exact .refl _
    · exact dramPut_stores _ _ _
  · exact dramPut_stores _ _ _

theorem purgeFrame_stores (s : State) (a n : Nat) : Stores s (s.purgeFrame a n) := by
  unfold State.purgeFrame
  dsimp only
  exact ((Stores.foldl (fun s l => recall_stores s l) _ s).trans (.foldl (fun s l => writeDown_stores s l) _ _)).trans
    (.same rfl rfl)

theorem copyFrame_stores (s : State) (old new n : Nat) : Stores s (s.copyFrame old new n) :=
  ⟨fun h => foldl_cellPut_wf (fun _ _ hm => cellPut_wf _ _ hm) _ _ (filter_wf _ _ h), rfl⟩

theorem completeTl_mem (s : State) (cid tl : Nat) : s.mem.wf = true → (s.completeTl cid tl).mem.wf = true := by
  intro h
  unfold State.completeTl
  split
  · exact h
  · dsimp only
    split
    · exact h
    · exact (settleAll_stores s).mem h

theorem stopEdit_mem (s : State) (g : Region) : s.mem.wf = true → (s.stopEdit g).mem.wf = true := by
  intro h
  have hm : ∀ (x : State) (b : Nat), Stores x (x.markFrom g b) := fun x b => .foldl (fun x i => markBlock_stores x g _) _ x
  unfold State.stopEdit
  split
  · exact h
  · dsimp only
    have h1 : (if s.regionState g = 2 then s.markFrom g (s.dirGet g oJPOS 4 / 1536) else s).mem.wf = true := by
      split
      · exact (hm s _).mem h
      · exact h
    split
    · exact h1
    · split
      · exact h1
      · refine completeTl_mem _ _ _ ?_
        split
        · split <;> exact h1
        · exact h1

end Sys2Proof.Machine
end

