-- ==== Sys2Proof/Laws/State.lean ====
section
/-!
SUPPORT. The state's updates, field by field: every field that an update does not name reads as before, every field it
names reads as given.
-/
namespace Sys2Proof.Machine

section Updates
variable (s : State)

/-! ## setTroupe -/

@[simp] theorem State.setTroupe_clock (t : Troupe) : (s.setTroupe t).clock = s.clock := rfl
@[simp] theorem State.setTroupe_mem (t : Troupe) : (s.setTroupe t).mem = s.mem := rfl
@[simp] theorem State.setTroupe_msc (t : Troupe) : (s.setTroupe t).msc = s.msc := rfl
@[simp] theorem State.setTroupe_poison (t : Troupe) : (s.setTroupe t).poison = s.poison := rfl
@[simp] theorem State.setTroupe_coded (t : Troupe) : (s.setTroupe t).coded = s.coded := rfl
@[simp] theorem State.setTroupe_l2 (t : Troupe) : (s.setTroupe t).l2 = s.l2 := rfl
@[simp] theorem State.setTroupe_invals (t : Troupe) : (s.setTroupe t).invals = s.invals := rfl
@[simp] theorem State.setTroupe_companies (t : Troupe) : (s.setTroupe t).companies = s.companies := rfl
@[simp] theorem State.setTroupe_xchgs (t : Troupe) : (s.setTroupe t).xchgs = s.xchgs := rfl
@[simp] theorem State.setTroupe_cores (t : Troupe) : (s.setTroupe t).cores = s.cores := rfl
@[simp] theorem State.setTroupe_clusters (t : Troupe) : (s.setTroupe t).clusters = s.clusters := rfl
@[simp] theorem State.setTroupe_dieUnits (t : Troupe) : (s.setTroupe t).dieUnits = s.dieUnits := rfl
@[simp] theorem State.setTroupe_sequencers (t : Troupe) : (s.setTroupe t).sequencers = s.sequencers := rfl
@[simp] theorem State.setTroupe_straitsOut (t : Troupe) : (s.setTroupe t).straitsOut = s.straitsOut := rfl
@[simp] theorem State.setTroupe_rm (t : Troupe) : (s.setTroupe t).rm = s.rm := rfl
@[simp] theorem State.setTroupe_fabric (t : Troupe) : (s.setTroupe t).fabric = s.fabric := rfl
@[simp] theorem State.setTroupe_boot (t : Troupe) : (s.setTroupe t).boot = s.boot := rfl
@[simp] theorem State.setTroupe_hostRead (t : Troupe) : (s.setTroupe t).hostRead = s.hostRead := rfl
@[simp] theorem State.setTroupe_agenda (t : Troupe) : (s.setTroupe t).agenda = s.agenda := rfl
@[simp] theorem State.setTroupe_cur (t : Troupe) : (s.setTroupe t).cur = s.cur := rfl
@[simp] theorem State.setTroupe_focus (t : Troupe) : (s.setTroupe t).focus = s.focus := rfl
@[simp] theorem State.setTroupe_turn (t : Troupe) : (s.setTroupe t).turn = s.turn := rfl
@[simp] theorem State.setTroupe_freeCtr (t : Troupe) : (s.setTroupe t).freeCtr = s.freeCtr := rfl
@[simp] theorem State.setTroupe_nextId (t : Troupe) : (s.setTroupe t).nextId = s.nextId := rfl

/-! ## updTroupe -/

@[simp] theorem State.updTroupe_clock (u : Nat) (g : Troupe → Troupe) : (s.updTroupe u g).clock = s.clock := rfl
@[simp] theorem State.updTroupe_mem (u : Nat) (g : Troupe → Troupe) : (s.updTroupe u g).mem = s.mem := rfl
@[simp] theorem State.updTroupe_msc (u : Nat) (g : Troupe → Troupe) : (s.updTroupe u g).msc = s.msc := rfl
@[simp] theorem State.updTroupe_poison (u : Nat) (g : Troupe → Troupe) : (s.updTroupe u g).poison = s.poison := rfl
@[simp] theorem State.updTroupe_coded (u : Nat) (g : Troupe → Troupe) : (s.updTroupe u g).coded = s.coded := rfl
@[simp] theorem State.updTroupe_l2 (u : Nat) (g : Troupe → Troupe) : (s.updTroupe u g).l2 = s.l2 := rfl
@[simp] theorem State.updTroupe_invals (u : Nat) (g : Troupe → Troupe) : (s.updTroupe u g).invals = s.invals := rfl
@[simp] theorem State.updTroupe_companies (u : Nat) (g : Troupe → Troupe) : (s.updTroupe u g).companies = s.companies := rfl
@[simp] theorem State.updTroupe_xchgs (u : Nat) (g : Troupe → Troupe) : (s.updTroupe u g).xchgs = s.xchgs := rfl
@[simp] theorem State.updTroupe_cores (u : Nat) (g : Troupe → Troupe) : (s.updTroupe u g).cores = s.cores := rfl
@[simp] theorem State.updTroupe_clusters (u : Nat) (g : Troupe → Troupe) : (s.updTroupe u g).clusters = s.clusters := rfl
@[simp] theorem State.updTroupe_dieUnits (u : Nat) (g : Troupe → Troupe) : (s.updTroupe u g).dieUnits = s.dieUnits := rfl
@[simp] theorem State.updTroupe_sequencers (u : Nat) (g : Troupe → Troupe) : (s.updTroupe u g).sequencers = s.sequencers := rfl
@[simp] theorem State.updTroupe_straitsOut (u : Nat) (g : Troupe → Troupe) : (s.updTroupe u g).straitsOut = s.straitsOut := rfl
@[simp] theorem State.updTroupe_rm (u : Nat) (g : Troupe → Troupe) : (s.updTroupe u g).rm = s.rm := rfl
@[simp] theorem State.updTroupe_fabric (u : Nat) (g : Troupe → Troupe) : (s.updTroupe u g).fabric = s.fabric := rfl
@[simp] theorem State.updTroupe_boot (u : Nat) (g : Troupe → Troupe) : (s.updTroupe u g).boot = s.boot := rfl
@[simp] theorem State.updTroupe_hostRead (u : Nat) (g : Troupe → Troupe) : (s.updTroupe u g).hostRead = s.hostRead := rfl
@[simp] theorem State.updTroupe_agenda (u : Nat) (g : Troupe → Troupe) : (s.updTroupe u g).agenda = s.agenda := rfl
@[simp] theorem State.updTroupe_cur (u : Nat) (g : Troupe → Troupe) : (s.updTroupe u g).cur = s.cur := rfl
@[simp] theorem State.updTroupe_focus (u : Nat) (g : Troupe → Troupe) : (s.updTroupe u g).focus = s.focus := rfl
@[simp] theorem State.updTroupe_turn (u : Nat) (g : Troupe → Troupe) : (s.updTroupe u g).turn = s.turn := rfl
@[simp] theorem State.updTroupe_freeCtr (u : Nat) (g : Troupe → Troupe) : (s.updTroupe u g).freeCtr = s.freeCtr := rfl
@[simp] theorem State.updTroupe_nextId (u : Nat) (g : Troupe → Troupe) : (s.updTroupe u g).nextId = s.nextId := rfl

/-! ## dropTroupe -/

@[simp] theorem State.dropTroupe_clock (u : Nat) : (s.dropTroupe u).clock = s.clock := rfl
@[simp] theorem State.dropTroupe_mem (u : Nat) : (s.dropTroupe u).mem = s.mem := rfl
@[simp] theorem State.dropTroupe_msc (u : Nat) : (s.dropTroupe u).msc = s.msc := rfl
@[simp] theorem State.dropTroupe_poison (u : Nat) : (s.dropTroupe u).poison = s.poison := rfl
@[simp] theorem State.dropTroupe_coded (u : Nat) : (s.dropTroupe u).coded = s.coded := rfl
@[simp] theorem State.dropTroupe_l2 (u : Nat) : (s.dropTroupe u).l2 = s.l2 := rfl
@[simp] theorem State.dropTroupe_invals (u : Nat) : (s.dropTroupe u).invals = s.invals := rfl
@[simp] theorem State.dropTroupe_companies (u : Nat) : (s.dropTroupe u).companies = s.companies := rfl
@[simp] theorem State.dropTroupe_xchgs (u : Nat) : (s.dropTroupe u).xchgs = s.xchgs := rfl
@[simp] theorem State.dropTroupe_cores (u : Nat) : (s.dropTroupe u).cores = s.cores := rfl
@[simp] theorem State.dropTroupe_clusters (u : Nat) : (s.dropTroupe u).clusters = s.clusters := rfl
@[simp] theorem State.dropTroupe_dieUnits (u : Nat) : (s.dropTroupe u).dieUnits = s.dieUnits := rfl
@[simp] theorem State.dropTroupe_sequencers (u : Nat) : (s.dropTroupe u).sequencers = s.sequencers := rfl
@[simp] theorem State.dropTroupe_straitsOut (u : Nat) : (s.dropTroupe u).straitsOut = s.straitsOut := rfl
@[simp] theorem State.dropTroupe_rm (u : Nat) : (s.dropTroupe u).rm = s.rm := rfl
@[simp] theorem State.dropTroupe_fabric (u : Nat) : (s.dropTroupe u).fabric = s.fabric := rfl
@[simp] theorem State.dropTroupe_boot (u : Nat) : (s.dropTroupe u).boot = s.boot := rfl
@[simp] theorem State.dropTroupe_hostRead (u : Nat) : (s.dropTroupe u).hostRead = s.hostRead := rfl
@[simp] theorem State.dropTroupe_agenda (u : Nat) : (s.dropTroupe u).agenda = s.agenda := rfl
@[simp] theorem State.dropTroupe_cur (u : Nat) : (s.dropTroupe u).cur = s.cur := rfl
@[simp] theorem State.dropTroupe_focus (u : Nat) : (s.dropTroupe u).focus = s.focus := rfl
@[simp] theorem State.dropTroupe_turn (u : Nat) : (s.dropTroupe u).turn = s.turn := rfl
@[simp] theorem State.dropTroupe_freeCtr (u : Nat) : (s.dropTroupe u).freeCtr = s.freeCtr := rfl
@[simp] theorem State.dropTroupe_nextId (u : Nat) : (s.dropTroupe u).nextId = s.nextId := rfl

/-! ## updCompany -/

@[simp] theorem State.updCompany_clock (c : Nat) (g : Company → Company) : (s.updCompany c g).clock = s.clock := rfl
@[simp] theorem State.updCompany_mem (c : Nat) (g : Company → Company) : (s.updCompany c g).mem = s.mem := rfl
@[simp] theorem State.updCompany_msc (c : Nat) (g : Company → Company) : (s.updCompany c g).msc = s.msc := rfl
@[simp] theorem State.updCompany_poison (c : Nat) (g : Company → Company) : (s.updCompany c g).poison = s.poison := rfl
@[simp] theorem State.updCompany_coded (c : Nat) (g : Company → Company) : (s.updCompany c g).coded = s.coded := rfl
@[simp] theorem State.updCompany_l2 (c : Nat) (g : Company → Company) : (s.updCompany c g).l2 = s.l2 := rfl
@[simp] theorem State.updCompany_invals (c : Nat) (g : Company → Company) : (s.updCompany c g).invals = s.invals := rfl
@[simp] theorem State.updCompany_troupes (c : Nat) (g : Company → Company) : (s.updCompany c g).troupes = s.troupes := rfl
@[simp] theorem State.updCompany_xchgs (c : Nat) (g : Company → Company) : (s.updCompany c g).xchgs = s.xchgs := rfl
@[simp] theorem State.updCompany_cores (c : Nat) (g : Company → Company) : (s.updCompany c g).cores = s.cores := rfl
@[simp] theorem State.updCompany_clusters (c : Nat) (g : Company → Company) : (s.updCompany c g).clusters = s.clusters := rfl
@[simp] theorem State.updCompany_dieUnits (c : Nat) (g : Company → Company) : (s.updCompany c g).dieUnits = s.dieUnits := rfl
@[simp] theorem State.updCompany_sequencers (c : Nat) (g : Company → Company) : (s.updCompany c g).sequencers = s.sequencers := rfl
@[simp] theorem State.updCompany_straitsOut (c : Nat) (g : Company → Company) : (s.updCompany c g).straitsOut = s.straitsOut := rfl
@[simp] theorem State.updCompany_rm (c : Nat) (g : Company → Company) : (s.updCompany c g).rm = s.rm := rfl
@[simp] theorem State.updCompany_fabric (c : Nat) (g : Company → Company) : (s.updCompany c g).fabric = s.fabric := rfl
@[simp] theorem State.updCompany_boot (c : Nat) (g : Company → Company) : (s.updCompany c g).boot = s.boot := rfl
@[simp] theorem State.updCompany_hostRead (c : Nat) (g : Company → Company) : (s.updCompany c g).hostRead = s.hostRead := rfl
@[simp] theorem State.updCompany_agenda (c : Nat) (g : Company → Company) : (s.updCompany c g).agenda = s.agenda := rfl
@[simp] theorem State.updCompany_cur (c : Nat) (g : Company → Company) : (s.updCompany c g).cur = s.cur := rfl
@[simp] theorem State.updCompany_focus (c : Nat) (g : Company → Company) : (s.updCompany c g).focus = s.focus := rfl
@[simp] theorem State.updCompany_turn (c : Nat) (g : Company → Company) : (s.updCompany c g).turn = s.turn := rfl
@[simp] theorem State.updCompany_freeCtr (c : Nat) (g : Company → Company) : (s.updCompany c g).freeCtr = s.freeCtr := rfl
@[simp] theorem State.updCompany_nextId (c : Nat) (g : Company → Company) : (s.updCompany c g).nextId = s.nextId := rfl

/-! ## updRm -/

@[simp] theorem State.updRm_clock (g : Ringmaster → Ringmaster) : (s.updRm g).clock = s.clock := rfl
@[simp] theorem State.updRm_mem (g : Ringmaster → Ringmaster) : (s.updRm g).mem = s.mem := rfl
@[simp] theorem State.updRm_msc (g : Ringmaster → Ringmaster) : (s.updRm g).msc = s.msc := rfl
@[simp] theorem State.updRm_poison (g : Ringmaster → Ringmaster) : (s.updRm g).poison = s.poison := rfl
@[simp] theorem State.updRm_coded (g : Ringmaster → Ringmaster) : (s.updRm g).coded = s.coded := rfl
@[simp] theorem State.updRm_l2 (g : Ringmaster → Ringmaster) : (s.updRm g).l2 = s.l2 := rfl
@[simp] theorem State.updRm_invals (g : Ringmaster → Ringmaster) : (s.updRm g).invals = s.invals := rfl
@[simp] theorem State.updRm_troupes (g : Ringmaster → Ringmaster) : (s.updRm g).troupes = s.troupes := rfl
@[simp] theorem State.updRm_companies (g : Ringmaster → Ringmaster) : (s.updRm g).companies = s.companies := rfl
@[simp] theorem State.updRm_xchgs (g : Ringmaster → Ringmaster) : (s.updRm g).xchgs = s.xchgs := rfl
@[simp] theorem State.updRm_cores (g : Ringmaster → Ringmaster) : (s.updRm g).cores = s.cores := rfl
@[simp] theorem State.updRm_clusters (g : Ringmaster → Ringmaster) : (s.updRm g).clusters = s.clusters := rfl
@[simp] theorem State.updRm_dieUnits (g : Ringmaster → Ringmaster) : (s.updRm g).dieUnits = s.dieUnits := rfl
@[simp] theorem State.updRm_sequencers (g : Ringmaster → Ringmaster) : (s.updRm g).sequencers = s.sequencers := rfl
@[simp] theorem State.updRm_straitsOut (g : Ringmaster → Ringmaster) : (s.updRm g).straitsOut = s.straitsOut := rfl
@[simp] theorem State.updRm_fabric (g : Ringmaster → Ringmaster) : (s.updRm g).fabric = s.fabric := rfl
@[simp] theorem State.updRm_boot (g : Ringmaster → Ringmaster) : (s.updRm g).boot = s.boot := rfl
@[simp] theorem State.updRm_hostRead (g : Ringmaster → Ringmaster) : (s.updRm g).hostRead = s.hostRead := rfl
@[simp] theorem State.updRm_agenda (g : Ringmaster → Ringmaster) : (s.updRm g).agenda = s.agenda := rfl
@[simp] theorem State.updRm_cur (g : Ringmaster → Ringmaster) : (s.updRm g).cur = s.cur := rfl
@[simp] theorem State.updRm_focus (g : Ringmaster → Ringmaster) : (s.updRm g).focus = s.focus := rfl
@[simp] theorem State.updRm_turn (g : Ringmaster → Ringmaster) : (s.updRm g).turn = s.turn := rfl
@[simp] theorem State.updRm_freeCtr (g : Ringmaster → Ringmaster) : (s.updRm g).freeCtr = s.freeCtr := rfl
@[simp] theorem State.updRm_nextId (g : Ringmaster → Ringmaster) : (s.updRm g).nextId = s.nextId := rfl

/-! ## updLaunch -/

@[simp] theorem State.updLaunch_clock (l : Nat) (g : Launch → Launch) : (s.updLaunch l g).clock = s.clock := rfl
@[simp] theorem State.updLaunch_mem (l : Nat) (g : Launch → Launch) : (s.updLaunch l g).mem = s.mem := rfl
@[simp] theorem State.updLaunch_msc (l : Nat) (g : Launch → Launch) : (s.updLaunch l g).msc = s.msc := rfl
@[simp] theorem State.updLaunch_poison (l : Nat) (g : Launch → Launch) : (s.updLaunch l g).poison = s.poison := rfl
@[simp] theorem State.updLaunch_coded (l : Nat) (g : Launch → Launch) : (s.updLaunch l g).coded = s.coded := rfl
@[simp] theorem State.updLaunch_l2 (l : Nat) (g : Launch → Launch) : (s.updLaunch l g).l2 = s.l2 := rfl
@[simp] theorem State.updLaunch_invals (l : Nat) (g : Launch → Launch) : (s.updLaunch l g).invals = s.invals := rfl
@[simp] theorem State.updLaunch_troupes (l : Nat) (g : Launch → Launch) : (s.updLaunch l g).troupes = s.troupes := rfl
@[simp] theorem State.updLaunch_companies (l : Nat) (g : Launch → Launch) : (s.updLaunch l g).companies = s.companies := rfl
@[simp] theorem State.updLaunch_xchgs (l : Nat) (g : Launch → Launch) : (s.updLaunch l g).xchgs = s.xchgs := rfl
@[simp] theorem State.updLaunch_cores (l : Nat) (g : Launch → Launch) : (s.updLaunch l g).cores = s.cores := rfl
@[simp] theorem State.updLaunch_clusters (l : Nat) (g : Launch → Launch) : (s.updLaunch l g).clusters = s.clusters := rfl
@[simp] theorem State.updLaunch_dieUnits (l : Nat) (g : Launch → Launch) : (s.updLaunch l g).dieUnits = s.dieUnits := rfl
@[simp] theorem State.updLaunch_sequencers (l : Nat) (g : Launch → Launch) : (s.updLaunch l g).sequencers = s.sequencers := rfl
@[simp] theorem State.updLaunch_straitsOut (l : Nat) (g : Launch → Launch) : (s.updLaunch l g).straitsOut = s.straitsOut := rfl
@[simp] theorem State.updLaunch_fabric (l : Nat) (g : Launch → Launch) : (s.updLaunch l g).fabric = s.fabric := rfl
@[simp] theorem State.updLaunch_boot (l : Nat) (g : Launch → Launch) : (s.updLaunch l g).boot = s.boot := rfl
@[simp] theorem State.updLaunch_hostRead (l : Nat) (g : Launch → Launch) : (s.updLaunch l g).hostRead = s.hostRead := rfl
@[simp] theorem State.updLaunch_agenda (l : Nat) (g : Launch → Launch) : (s.updLaunch l g).agenda = s.agenda := rfl
@[simp] theorem State.updLaunch_cur (l : Nat) (g : Launch → Launch) : (s.updLaunch l g).cur = s.cur := rfl
@[simp] theorem State.updLaunch_focus (l : Nat) (g : Launch → Launch) : (s.updLaunch l g).focus = s.focus := rfl
@[simp] theorem State.updLaunch_turn (l : Nat) (g : Launch → Launch) : (s.updLaunch l g).turn = s.turn := rfl
@[simp] theorem State.updLaunch_freeCtr (l : Nat) (g : Launch → Launch) : (s.updLaunch l g).freeCtr = s.freeCtr := rfl
@[simp] theorem State.updLaunch_nextId (l : Nat) (g : Launch → Launch) : (s.updLaunch l g).nextId = s.nextId := rfl

/-! ## updQueue -/

@[simp] theorem State.updQueue_clock (q : Nat) (g : QueueRegs → QueueRegs) : (s.updQueue q g).clock = s.clock := rfl
@[simp] theorem State.updQueue_mem (q : Nat) (g : QueueRegs → QueueRegs) : (s.updQueue q g).mem = s.mem := rfl
@[simp] theorem State.updQueue_msc (q : Nat) (g : QueueRegs → QueueRegs) : (s.updQueue q g).msc = s.msc := rfl
@[simp] theorem State.updQueue_poison (q : Nat) (g : QueueRegs → QueueRegs) : (s.updQueue q g).poison = s.poison := rfl
@[simp] theorem State.updQueue_coded (q : Nat) (g : QueueRegs → QueueRegs) : (s.updQueue q g).coded = s.coded := rfl
@[simp] theorem State.updQueue_l2 (q : Nat) (g : QueueRegs → QueueRegs) : (s.updQueue q g).l2 = s.l2 := rfl
@[simp] theorem State.updQueue_invals (q : Nat) (g : QueueRegs → QueueRegs) : (s.updQueue q g).invals = s.invals := rfl
@[simp] theorem State.updQueue_troupes (q : Nat) (g : QueueRegs → QueueRegs) : (s.updQueue q g).troupes = s.troupes := rfl
@[simp] theorem State.updQueue_companies (q : Nat) (g : QueueRegs → QueueRegs) : (s.updQueue q g).companies = s.companies := rfl
@[simp] theorem State.updQueue_xchgs (q : Nat) (g : QueueRegs → QueueRegs) : (s.updQueue q g).xchgs = s.xchgs := rfl
@[simp] theorem State.updQueue_cores (q : Nat) (g : QueueRegs → QueueRegs) : (s.updQueue q g).cores = s.cores := rfl
@[simp] theorem State.updQueue_clusters (q : Nat) (g : QueueRegs → QueueRegs) : (s.updQueue q g).clusters = s.clusters := rfl
@[simp] theorem State.updQueue_dieUnits (q : Nat) (g : QueueRegs → QueueRegs) : (s.updQueue q g).dieUnits = s.dieUnits := rfl
@[simp] theorem State.updQueue_sequencers (q : Nat) (g : QueueRegs → QueueRegs) : (s.updQueue q g).sequencers = s.sequencers := rfl
@[simp] theorem State.updQueue_straitsOut (q : Nat) (g : QueueRegs → QueueRegs) : (s.updQueue q g).straitsOut = s.straitsOut := rfl
@[simp] theorem State.updQueue_fabric (q : Nat) (g : QueueRegs → QueueRegs) : (s.updQueue q g).fabric = s.fabric := rfl
@[simp] theorem State.updQueue_boot (q : Nat) (g : QueueRegs → QueueRegs) : (s.updQueue q g).boot = s.boot := rfl
@[simp] theorem State.updQueue_hostRead (q : Nat) (g : QueueRegs → QueueRegs) : (s.updQueue q g).hostRead = s.hostRead := rfl
@[simp] theorem State.updQueue_agenda (q : Nat) (g : QueueRegs → QueueRegs) : (s.updQueue q g).agenda = s.agenda := rfl
@[simp] theorem State.updQueue_cur (q : Nat) (g : QueueRegs → QueueRegs) : (s.updQueue q g).cur = s.cur := rfl
@[simp] theorem State.updQueue_focus (q : Nat) (g : QueueRegs → QueueRegs) : (s.updQueue q g).focus = s.focus := rfl
@[simp] theorem State.updQueue_turn (q : Nat) (g : QueueRegs → QueueRegs) : (s.updQueue q g).turn = s.turn := rfl
@[simp] theorem State.updQueue_freeCtr (q : Nat) (g : QueueRegs → QueueRegs) : (s.updQueue q g).freeCtr = s.freeCtr := rfl
@[simp] theorem State.updQueue_nextId (q : Nat) (g : QueueRegs → QueueRegs) : (s.updQueue q g).nextId = s.nextId := rfl

/-! ## updCore -/

@[simp] theorem State.updCore_clock (c : Nat) (g : Core → Core) : (s.updCore c g).clock = s.clock := rfl
@[simp] theorem State.updCore_mem (c : Nat) (g : Core → Core) : (s.updCore c g).mem = s.mem := rfl
@[simp] theorem State.updCore_msc (c : Nat) (g : Core → Core) : (s.updCore c g).msc = s.msc := rfl
@[simp] theorem State.updCore_poison (c : Nat) (g : Core → Core) : (s.updCore c g).poison = s.poison := rfl
@[simp] theorem State.updCore_coded (c : Nat) (g : Core → Core) : (s.updCore c g).coded = s.coded := rfl
@[simp] theorem State.updCore_l2 (c : Nat) (g : Core → Core) : (s.updCore c g).l2 = s.l2 := rfl
@[simp] theorem State.updCore_invals (c : Nat) (g : Core → Core) : (s.updCore c g).invals = s.invals := rfl
@[simp] theorem State.updCore_troupes (c : Nat) (g : Core → Core) : (s.updCore c g).troupes = s.troupes := rfl
@[simp] theorem State.updCore_companies (c : Nat) (g : Core → Core) : (s.updCore c g).companies = s.companies := rfl
@[simp] theorem State.updCore_xchgs (c : Nat) (g : Core → Core) : (s.updCore c g).xchgs = s.xchgs := rfl
@[simp] theorem State.updCore_clusters (c : Nat) (g : Core → Core) : (s.updCore c g).clusters = s.clusters := rfl
@[simp] theorem State.updCore_dieUnits (c : Nat) (g : Core → Core) : (s.updCore c g).dieUnits = s.dieUnits := rfl
@[simp] theorem State.updCore_sequencers (c : Nat) (g : Core → Core) : (s.updCore c g).sequencers = s.sequencers := rfl
@[simp] theorem State.updCore_straitsOut (c : Nat) (g : Core → Core) : (s.updCore c g).straitsOut = s.straitsOut := rfl
@[simp] theorem State.updCore_rm (c : Nat) (g : Core → Core) : (s.updCore c g).rm = s.rm := rfl
@[simp] theorem State.updCore_fabric (c : Nat) (g : Core → Core) : (s.updCore c g).fabric = s.fabric := rfl
@[simp] theorem State.updCore_boot (c : Nat) (g : Core → Core) : (s.updCore c g).boot = s.boot := rfl
@[simp] theorem State.updCore_hostRead (c : Nat) (g : Core → Core) : (s.updCore c g).hostRead = s.hostRead := rfl
@[simp] theorem State.updCore_agenda (c : Nat) (g : Core → Core) : (s.updCore c g).agenda = s.agenda := rfl
@[simp] theorem State.updCore_cur (c : Nat) (g : Core → Core) : (s.updCore c g).cur = s.cur := rfl
@[simp] theorem State.updCore_focus (c : Nat) (g : Core → Core) : (s.updCore c g).focus = s.focus := rfl
@[simp] theorem State.updCore_turn (c : Nat) (g : Core → Core) : (s.updCore c g).turn = s.turn := rfl
@[simp] theorem State.updCore_freeCtr (c : Nat) (g : Core → Core) : (s.updCore c g).freeCtr = s.freeCtr := rfl
@[simp] theorem State.updCore_nextId (c : Nat) (g : Core → Core) : (s.updCore c g).nextId = s.nextId := rfl

/-! ## updCluster -/

@[simp] theorem State.updCluster_clock (c : Nat) (g : Cluster → Cluster) : (s.updCluster c g).clock = s.clock := rfl
@[simp] theorem State.updCluster_mem (c : Nat) (g : Cluster → Cluster) : (s.updCluster c g).mem = s.mem := rfl
@[simp] theorem State.updCluster_msc (c : Nat) (g : Cluster → Cluster) : (s.updCluster c g).msc = s.msc := rfl
@[simp] theorem State.updCluster_poison (c : Nat) (g : Cluster → Cluster) : (s.updCluster c g).poison = s.poison := rfl
@[simp] theorem State.updCluster_coded (c : Nat) (g : Cluster → Cluster) : (s.updCluster c g).coded = s.coded := rfl
@[simp] theorem State.updCluster_l2 (c : Nat) (g : Cluster → Cluster) : (s.updCluster c g).l2 = s.l2 := rfl
@[simp] theorem State.updCluster_invals (c : Nat) (g : Cluster → Cluster) : (s.updCluster c g).invals = s.invals := rfl
@[simp] theorem State.updCluster_troupes (c : Nat) (g : Cluster → Cluster) : (s.updCluster c g).troupes = s.troupes := rfl
@[simp] theorem State.updCluster_companies (c : Nat) (g : Cluster → Cluster) : (s.updCluster c g).companies = s.companies := rfl
@[simp] theorem State.updCluster_xchgs (c : Nat) (g : Cluster → Cluster) : (s.updCluster c g).xchgs = s.xchgs := rfl
@[simp] theorem State.updCluster_cores (c : Nat) (g : Cluster → Cluster) : (s.updCluster c g).cores = s.cores := rfl
@[simp] theorem State.updCluster_dieUnits (c : Nat) (g : Cluster → Cluster) : (s.updCluster c g).dieUnits = s.dieUnits := rfl
@[simp] theorem State.updCluster_sequencers (c : Nat) (g : Cluster → Cluster) : (s.updCluster c g).sequencers = s.sequencers := rfl
@[simp] theorem State.updCluster_straitsOut (c : Nat) (g : Cluster → Cluster) : (s.updCluster c g).straitsOut = s.straitsOut := rfl
@[simp] theorem State.updCluster_rm (c : Nat) (g : Cluster → Cluster) : (s.updCluster c g).rm = s.rm := rfl
@[simp] theorem State.updCluster_fabric (c : Nat) (g : Cluster → Cluster) : (s.updCluster c g).fabric = s.fabric := rfl
@[simp] theorem State.updCluster_boot (c : Nat) (g : Cluster → Cluster) : (s.updCluster c g).boot = s.boot := rfl
@[simp] theorem State.updCluster_hostRead (c : Nat) (g : Cluster → Cluster) : (s.updCluster c g).hostRead = s.hostRead := rfl
@[simp] theorem State.updCluster_agenda (c : Nat) (g : Cluster → Cluster) : (s.updCluster c g).agenda = s.agenda := rfl
@[simp] theorem State.updCluster_cur (c : Nat) (g : Cluster → Cluster) : (s.updCluster c g).cur = s.cur := rfl
@[simp] theorem State.updCluster_focus (c : Nat) (g : Cluster → Cluster) : (s.updCluster c g).focus = s.focus := rfl
@[simp] theorem State.updCluster_turn (c : Nat) (g : Cluster → Cluster) : (s.updCluster c g).turn = s.turn := rfl
@[simp] theorem State.updCluster_freeCtr (c : Nat) (g : Cluster → Cluster) : (s.updCluster c g).freeCtr = s.freeCtr := rfl
@[simp] theorem State.updCluster_nextId (c : Nat) (g : Cluster → Cluster) : (s.updCluster c g).nextId = s.nextId := rfl

/-! ## updDie -/

@[simp] theorem State.updDie_clock (d : Nat) (g : Die → Die) : (s.updDie d g).clock = s.clock := rfl
@[simp] theorem State.updDie_mem (d : Nat) (g : Die → Die) : (s.updDie d g).mem = s.mem := rfl
@[simp] theorem State.updDie_msc (d : Nat) (g : Die → Die) : (s.updDie d g).msc = s.msc := rfl
@[simp] theorem State.updDie_poison (d : Nat) (g : Die → Die) : (s.updDie d g).poison = s.poison := rfl
@[simp] theorem State.updDie_coded (d : Nat) (g : Die → Die) : (s.updDie d g).coded = s.coded := rfl
@[simp] theorem State.updDie_l2 (d : Nat) (g : Die → Die) : (s.updDie d g).l2 = s.l2 := rfl
@[simp] theorem State.updDie_invals (d : Nat) (g : Die → Die) : (s.updDie d g).invals = s.invals := rfl
@[simp] theorem State.updDie_troupes (d : Nat) (g : Die → Die) : (s.updDie d g).troupes = s.troupes := rfl
@[simp] theorem State.updDie_companies (d : Nat) (g : Die → Die) : (s.updDie d g).companies = s.companies := rfl
@[simp] theorem State.updDie_xchgs (d : Nat) (g : Die → Die) : (s.updDie d g).xchgs = s.xchgs := rfl
@[simp] theorem State.updDie_cores (d : Nat) (g : Die → Die) : (s.updDie d g).cores = s.cores := rfl
@[simp] theorem State.updDie_clusters (d : Nat) (g : Die → Die) : (s.updDie d g).clusters = s.clusters := rfl
@[simp] theorem State.updDie_sequencers (d : Nat) (g : Die → Die) : (s.updDie d g).sequencers = s.sequencers := rfl
@[simp] theorem State.updDie_straitsOut (d : Nat) (g : Die → Die) : (s.updDie d g).straitsOut = s.straitsOut := rfl
@[simp] theorem State.updDie_rm (d : Nat) (g : Die → Die) : (s.updDie d g).rm = s.rm := rfl
@[simp] theorem State.updDie_fabric (d : Nat) (g : Die → Die) : (s.updDie d g).fabric = s.fabric := rfl
@[simp] theorem State.updDie_boot (d : Nat) (g : Die → Die) : (s.updDie d g).boot = s.boot := rfl
@[simp] theorem State.updDie_hostRead (d : Nat) (g : Die → Die) : (s.updDie d g).hostRead = s.hostRead := rfl
@[simp] theorem State.updDie_agenda (d : Nat) (g : Die → Die) : (s.updDie d g).agenda = s.agenda := rfl
@[simp] theorem State.updDie_cur (d : Nat) (g : Die → Die) : (s.updDie d g).cur = s.cur := rfl
@[simp] theorem State.updDie_focus (d : Nat) (g : Die → Die) : (s.updDie d g).focus = s.focus := rfl
@[simp] theorem State.updDie_turn (d : Nat) (g : Die → Die) : (s.updDie d g).turn = s.turn := rfl
@[simp] theorem State.updDie_freeCtr (d : Nat) (g : Die → Die) : (s.updDie d g).freeCtr = s.freeCtr := rfl
@[simp] theorem State.updDie_nextId (d : Nat) (g : Die → Die) : (s.updDie d g).nextId = s.nextId := rfl

/-! ## updFabric -/

@[simp] theorem State.updFabric_clock (g : Fabric → Fabric) : (s.updFabric g).clock = s.clock := rfl
@[simp] theorem State.updFabric_mem (g : Fabric → Fabric) : (s.updFabric g).mem = s.mem := rfl
@[simp] theorem State.updFabric_msc (g : Fabric → Fabric) : (s.updFabric g).msc = s.msc := rfl
@[simp] theorem State.updFabric_poison (g : Fabric → Fabric) : (s.updFabric g).poison = s.poison := rfl
@[simp] theorem State.updFabric_coded (g : Fabric → Fabric) : (s.updFabric g).coded = s.coded := rfl
@[simp] theorem State.updFabric_l2 (g : Fabric → Fabric) : (s.updFabric g).l2 = s.l2 := rfl
@[simp] theorem State.updFabric_invals (g : Fabric → Fabric) : (s.updFabric g).invals = s.invals := rfl
@[simp] theorem State.updFabric_troupes (g : Fabric → Fabric) : (s.updFabric g).troupes = s.troupes := rfl
@[simp] theorem State.updFabric_companies (g : Fabric → Fabric) : (s.updFabric g).companies = s.companies := rfl
@[simp] theorem State.updFabric_xchgs (g : Fabric → Fabric) : (s.updFabric g).xchgs = s.xchgs := rfl
@[simp] theorem State.updFabric_cores (g : Fabric → Fabric) : (s.updFabric g).cores = s.cores := rfl
@[simp] theorem State.updFabric_clusters (g : Fabric → Fabric) : (s.updFabric g).clusters = s.clusters := rfl
@[simp] theorem State.updFabric_dieUnits (g : Fabric → Fabric) : (s.updFabric g).dieUnits = s.dieUnits := rfl
@[simp] theorem State.updFabric_sequencers (g : Fabric → Fabric) : (s.updFabric g).sequencers = s.sequencers := rfl
@[simp] theorem State.updFabric_straitsOut (g : Fabric → Fabric) : (s.updFabric g).straitsOut = s.straitsOut := rfl
@[simp] theorem State.updFabric_rm (g : Fabric → Fabric) : (s.updFabric g).rm = s.rm := rfl
@[simp] theorem State.updFabric_boot (g : Fabric → Fabric) : (s.updFabric g).boot = s.boot := rfl
@[simp] theorem State.updFabric_hostRead (g : Fabric → Fabric) : (s.updFabric g).hostRead = s.hostRead := rfl
@[simp] theorem State.updFabric_agenda (g : Fabric → Fabric) : (s.updFabric g).agenda = s.agenda := rfl
@[simp] theorem State.updFabric_cur (g : Fabric → Fabric) : (s.updFabric g).cur = s.cur := rfl
@[simp] theorem State.updFabric_focus (g : Fabric → Fabric) : (s.updFabric g).focus = s.focus := rfl
@[simp] theorem State.updFabric_turn (g : Fabric → Fabric) : (s.updFabric g).turn = s.turn := rfl
@[simp] theorem State.updFabric_freeCtr (g : Fabric → Fabric) : (s.updFabric g).freeCtr = s.freeCtr := rfl
@[simp] theorem State.updFabric_nextId (g : Fabric → Fabric) : (s.updFabric g).nextId = s.nextId := rfl

/-! ## releaseQuarter -/

@[simp] theorem State.releaseQuarter_clock (t : Troupe) : (s.releaseQuarter t).clock = s.clock := rfl
@[simp] theorem State.releaseQuarter_mem (t : Troupe) : (s.releaseQuarter t).mem = s.mem := rfl
@[simp] theorem State.releaseQuarter_msc (t : Troupe) : (s.releaseQuarter t).msc = s.msc := rfl
@[simp] theorem State.releaseQuarter_poison (t : Troupe) : (s.releaseQuarter t).poison = s.poison := rfl
@[simp] theorem State.releaseQuarter_coded (t : Troupe) : (s.releaseQuarter t).coded = s.coded := rfl
@[simp] theorem State.releaseQuarter_l2 (t : Troupe) : (s.releaseQuarter t).l2 = s.l2 := rfl
@[simp] theorem State.releaseQuarter_invals (t : Troupe) : (s.releaseQuarter t).invals = s.invals := rfl
@[simp] theorem State.releaseQuarter_troupes (t : Troupe) : (s.releaseQuarter t).troupes = s.troupes := rfl
@[simp] theorem State.releaseQuarter_companies (t : Troupe) : (s.releaseQuarter t).companies = s.companies := rfl
@[simp] theorem State.releaseQuarter_xchgs (t : Troupe) : (s.releaseQuarter t).xchgs = s.xchgs := rfl
@[simp] theorem State.releaseQuarter_clusters (t : Troupe) : (s.releaseQuarter t).clusters = s.clusters := rfl
@[simp] theorem State.releaseQuarter_dieUnits (t : Troupe) : (s.releaseQuarter t).dieUnits = s.dieUnits := rfl
@[simp] theorem State.releaseQuarter_sequencers (t : Troupe) : (s.releaseQuarter t).sequencers = s.sequencers := rfl
@[simp] theorem State.releaseQuarter_straitsOut (t : Troupe) : (s.releaseQuarter t).straitsOut = s.straitsOut := rfl
@[simp] theorem State.releaseQuarter_rm (t : Troupe) : (s.releaseQuarter t).rm = s.rm := rfl
@[simp] theorem State.releaseQuarter_fabric (t : Troupe) : (s.releaseQuarter t).fabric = s.fabric := rfl
@[simp] theorem State.releaseQuarter_boot (t : Troupe) : (s.releaseQuarter t).boot = s.boot := rfl
@[simp] theorem State.releaseQuarter_hostRead (t : Troupe) : (s.releaseQuarter t).hostRead = s.hostRead := rfl
@[simp] theorem State.releaseQuarter_agenda (t : Troupe) : (s.releaseQuarter t).agenda = s.agenda := rfl
@[simp] theorem State.releaseQuarter_cur (t : Troupe) : (s.releaseQuarter t).cur = s.cur := rfl
@[simp] theorem State.releaseQuarter_focus (t : Troupe) : (s.releaseQuarter t).focus = s.focus := rfl
@[simp] theorem State.releaseQuarter_turn (t : Troupe) : (s.releaseQuarter t).turn = s.turn := rfl
@[simp] theorem State.releaseQuarter_freeCtr (t : Troupe) : (s.releaseQuarter t).freeCtr = s.freeCtr := rfl
@[simp] theorem State.releaseQuarter_nextId (t : Troupe) : (s.releaseQuarter t).nextId = s.nextId := rfl

@[simp] theorem State.setTroupe_troupes (t : Troupe) :
    (s.setTroupe t).troupes = s.troupes.map fun x => if x.uid == t.uid then t else x := rfl
@[simp] theorem State.updTroupe_troupes (u : Nat) (g : Troupe → Troupe) :
    (s.updTroupe u g).troupes = s.troupes.map fun x => if x.uid == u then g x else x := rfl
@[simp] theorem State.updCompany_companies (c : Nat) (g : Company → Company) :
    (s.updCompany c g).companies = s.companies.map fun x => if x.cid == c then g x else x := rfl
@[simp] theorem State.updRm_rm (g : Ringmaster → Ringmaster) : (s.updRm g).rm = g s.rm := rfl
@[simp] theorem State.updCore_cores (c : Nat) (g : Core → Core) : (s.updCore c g).cores = listModify s.cores c g := rfl
@[simp] theorem State.updDie_dieUnits (d : Nat) (g : Die → Die) : (s.updDie d g).dieUnits = listModify s.dieUnits d g := rfl
@[simp] theorem State.updCluster_clusters (c : Nat) (g : Cluster → Cluster) :
    (s.updCluster c g).clusters = listModify s.clusters c g := rfl
@[simp] theorem State.updFabric_fabric (g : Fabric → Fabric) : (s.updFabric g).fabric = g s.fabric := rfl

/-! ## claimLatch -/

@[simp] theorem State.claimLatch_clock (t : Troupe) (u : Bool) : (s.claimLatch t u).clock = s.clock := by
  cases u <;> rfl
@[simp] theorem State.claimLatch_mem (t : Troupe) (u : Bool) : (s.claimLatch t u).mem = s.mem := by
  cases u <;> rfl
@[simp] theorem State.claimLatch_msc (t : Troupe) (u : Bool) : (s.claimLatch t u).msc = s.msc := by
  cases u <;> rfl
@[simp] theorem State.claimLatch_poison (t : Troupe) (u : Bool) : (s.claimLatch t u).poison = s.poison := by
  cases u <;> rfl
@[simp] theorem State.claimLatch_coded (t : Troupe) (u : Bool) : (s.claimLatch t u).coded = s.coded := by
  cases u <;> rfl
@[simp] theorem State.claimLatch_l2 (t : Troupe) (u : Bool) : (s.claimLatch t u).l2 = s.l2 := by
  cases u <;> rfl
@[simp] theorem State.claimLatch_invals (t : Troupe) (u : Bool) : (s.claimLatch t u).invals = s.invals := by
  cases u <;> rfl
@[simp] theorem State.claimLatch_troupes (t : Troupe) (u : Bool) : (s.claimLatch t u).troupes = s.troupes := by
  cases u <;> rfl
@[simp] theorem State.claimLatch_companies (t : Troupe) (u : Bool) : (s.claimLatch t u).companies = s.companies := by
  cases u <;> rfl
@[simp] theorem State.claimLatch_cores (t : Troupe) (u : Bool) : (s.claimLatch t u).cores = s.cores := by
  cases u <;> rfl
@[simp] theorem State.claimLatch_clusters (t : Troupe) (u : Bool) : (s.claimLatch t u).clusters = s.clusters := by
  cases u <;> rfl
@[simp] theorem State.claimLatch_dieUnits (t : Troupe) (u : Bool) : (s.claimLatch t u).dieUnits = s.dieUnits := by
  cases u <;> rfl
@[simp] theorem State.claimLatch_sequencers (t : Troupe) (u : Bool) : (s.claimLatch t u).sequencers = s.sequencers := by
  cases u <;> rfl
@[simp] theorem State.claimLatch_straitsOut (t : Troupe) (u : Bool) : (s.claimLatch t u).straitsOut = s.straitsOut := by
  cases u <;> rfl
@[simp] theorem State.claimLatch_rm (t : Troupe) (u : Bool) : (s.claimLatch t u).rm = s.rm := by
  cases u <;> rfl
@[simp] theorem State.claimLatch_fabric (t : Troupe) (u : Bool) : (s.claimLatch t u).fabric = s.fabric := by
  cases u <;> rfl
@[simp] theorem State.claimLatch_boot (t : Troupe) (u : Bool) : (s.claimLatch t u).boot = s.boot := by
  cases u <;> rfl
@[simp] theorem State.claimLatch_hostRead (t : Troupe) (u : Bool) : (s.claimLatch t u).hostRead = s.hostRead := by
  cases u <;> rfl
@[simp] theorem State.claimLatch_agenda (t : Troupe) (u : Bool) : (s.claimLatch t u).agenda = s.agenda := by
  cases u <;> rfl
@[simp] theorem State.claimLatch_cur (t : Troupe) (u : Bool) : (s.claimLatch t u).cur = s.cur := by
  cases u <;> rfl
@[simp] theorem State.claimLatch_focus (t : Troupe) (u : Bool) : (s.claimLatch t u).focus = s.focus := by
  cases u <;> rfl
@[simp] theorem State.claimLatch_turn (t : Troupe) (u : Bool) : (s.claimLatch t u).turn = s.turn := by
  cases u <;> rfl
@[simp] theorem State.claimLatch_freeCtr (t : Troupe) (u : Bool) : (s.claimLatch t u).freeCtr = s.freeCtr := by
  cases u <;> rfl
@[simp] theorem State.claimLatch_nextId (t : Troupe) (u : Bool) : (s.claimLatch t u).nextId = s.nextId := by
  cases u <;> rfl
@[simp] theorem State.claimLatch_uniform (t : Troupe) : s.claimLatch t true = s := rfl

end Updates

section Troupes
variable (t : Troupe)

/-! ## Troupe.setV -/

@[simp] theorem Troupe.setV_uid (r : Nat) (m : LaneMask) (g : Nat → Word) : (t.setV r m g).uid = t.uid := rfl
@[simp] theorem Troupe.setV_cid (r : Nat) (m : LaneMask) (g : Nat → Word) : (t.setV r m g).cid = t.cid := rfl
@[simp] theorem Troupe.setV_lid (r : Nat) (m : LaneMask) (g : Nat → Word) : (t.setV r m g).lid = t.lid := rfl
@[simp] theorem Troupe.setV_wid (r : Nat) (m : LaneMask) (g : Nat → Word) : (t.setV r m g).wid = t.wid := rfl
@[simp] theorem Troupe.setV_core (r : Nat) (m : LaneMask) (g : Nat → Word) : (t.setV r m g).core = t.core := rfl
@[simp] theorem Troupe.setV_quarter (r : Nat) (m : LaneMask) (g : Nat → Word) : (t.setV r m g).quarter = t.quarter := rfl
@[simp] theorem Troupe.setV_slot (r : Nat) (m : LaneMask) (g : Nat → Word) : (t.setV r m g).slot = t.slot := rfl
@[simp] theorem Troupe.setV_resident (r : Nat) (m : LaneMask) (g : Nat → Word) : (t.setV r m g).resident = t.resident := rfl
@[simp] theorem Troupe.setV_retired (r : Nat) (m : LaneMask) (g : Nat → Word) : (t.setV r m g).retired = t.retired := rfl
@[simp] theorem Troupe.setV_s (r : Nat) (m : LaneMask) (g : Nat → Word) : (t.setV r m g).s = t.s := rfl
@[simp] theorem Troupe.setV_act (r : Nat) (m : LaneMask) (g : Nat → Word) : (t.setV r m g).act = t.act := rfl
@[simp] theorem Troupe.setV_fmt (r : Nat) (m : LaneMask) (g : Nat → Word) : (t.setV r m g).fmt = t.fmt := rfl
@[simp] theorem Troupe.setV_pc (r : Nat) (m : LaneMask) (g : Nat → Word) : (t.setV r m g).pc = t.pc := rfl
@[simp] theorem Troupe.setV_pos (r : Nat) (m : LaneMask) (g : Nat → Word) : (t.setV r m g).pos = t.pos := rfl
@[simp] theorem Troupe.setV_actSerial (r : Nat) (m : LaneMask) (g : Nat → Word) : (t.setV r m g).actSerial = t.actSerial := rfl
@[simp] theorem Troupe.setV_actNext (r : Nat) (m : LaneMask) (g : Nat → Word) : (t.setV r m g).actNext = t.actNext := rfl
@[simp] theorem Troupe.setV_stack (r : Nat) (m : LaneMask) (g : Nat → Word) : (t.setV r m g).stack = t.stack := rfl
@[simp] theorem Troupe.setV_exited (r : Nat) (m : LaneMask) (g : Nat → Word) : (t.setV r m g).exited = t.exited := rfl
@[simp] theorem Troupe.setV_ld (r : Nat) (m : LaneMask) (g : Nat → Word) : (t.setV r m g).ld = t.ld := rfl
@[simp] theorem Troupe.setV_st (r : Nat) (m : LaneMask) (g : Nat → Word) : (t.setV r m g).st = t.st := rfl
@[simp] theorem Troupe.setV_xc (r : Nat) (m : LaneMask) (g : Nat → Word) : (t.setV r m g).xc = t.xc := rfl
@[simp] theorem Troupe.setV_ul (r : Nat) (m : LaneMask) (g : Nat → Word) : (t.setV r m g).ul = t.ul := rfl
@[simp] theorem Troupe.setV_trap (r : Nat) (m : LaneMask) (g : Nat → Word) : (t.setV r m g).trap = t.trap := rfl
@[simp] theorem Troupe.setV_saved (r : Nat) (m : LaneMask) (g : Nat → Word) : (t.setV r m g).saved = t.saved := rfl
@[simp] theorem Troupe.setV_fflags (r : Nat) (m : LaneMask) (g : Nat → Word) : (t.setV r m g).fflags = t.fflags := rfl
@[simp] theorem Troupe.setV_srseed (r : Nat) (m : LaneMask) (g : Nat → Word) : (t.setV r m g).srseed = t.srseed := rfl
@[simp] theorem Troupe.setV_srctr (r : Nat) (m : LaneMask) (g : Nat → Word) : (t.setV r m g).srctr = t.srctr := rfl
@[simp] theorem Troupe.setV_tcause (r : Nat) (m : LaneMask) (g : Nat → Word) : (t.setV r m g).tcause = t.tcause := rfl
@[simp] theorem Troupe.setV_tpc (r : Nat) (m : LaneMask) (g : Nat → Word) : (t.setV r m g).tpc = t.tpc := rfl
@[simp] theorem Troupe.setV_taddr (r : Nat) (m : LaneMask) (g : Nat → Word) : (t.setV r m g).taddr = t.taddr := rfl
@[simp] theorem Troupe.setV_tmask (r : Nat) (m : LaneMask) (g : Nat → Word) : (t.setV r m g).tmask = t.tmask := rfl
@[simp] theorem Troupe.setV_mrp (r : Nat) (m : LaneMask) (g : Nat → Word) : (t.setV r m g).mrp = t.mrp := rfl
@[simp] theorem Troupe.setV_gang (r : Nat) (m : LaneMask) (g : Nat → Word) : (t.setV r m g).gang = t.gang := rfl
@[simp] theorem Troupe.setV_grpsel (r : Nat) (m : LaneMask) (g : Nat → Word) : (t.setV r m g).grpsel = t.grpsel := rfl
@[simp] theorem Troupe.setV_ldstat (r : Nat) (m : LaneMask) (g : Nat → Word) : (t.setV r m g).ldstat = t.ldstat := rfl
@[simp] theorem Troupe.setV_xseq (r : Nat) (m : LaneMask) (g : Nat → Word) : (t.setV r m g).xseq = t.xseq := rfl
@[simp] theorem Troupe.setV_edges (r : Nat) (m : LaneMask) (g : Nat → Word) : (t.setV r m g).edges = t.edges := rfl
@[simp] theorem Troupe.setV_rgrpCount (r : Nat) (m : LaneMask) (g : Nat → Word) : (t.setV r m g).rgrpCount = t.rgrpCount := rfl
@[simp] theorem Troupe.setV_park (r : Nat) (m : LaneMask) (g : Nat → Word) : (t.setV r m g).park = t.park := rfl
@[simp] theorem Troupe.setV_parkedAt (r : Nat) (m : LaneMask) (g : Nat → Word) : (t.setV r m g).parkedAt = t.parkedAt := rfl
@[simp] theorem Troupe.setV_parkResume (r : Nat) (m : LaneMask) (g : Nat → Word) : (t.setV r m g).parkResume = t.parkResume := rfl
@[simp] theorem Troupe.setV_declined (r : Nat) (m : LaneMask) (g : Nat → Word) : (t.setV r m g).declined = t.declined := rfl
@[simp] theorem Troupe.setV_ops (r : Nat) (m : LaneMask) (g : Nat → Word) : (t.setV r m g).ops = t.ops := rfl
@[simp] theorem Troupe.setV_nextOp (r : Nat) (m : LaneMask) (g : Nat → Word) : (t.setV r m g).nextOp = t.nextOp := rfl
@[simp] theorem Troupe.setV_fences (r : Nat) (m : LaneMask) (g : Nat → Word) : (t.setV r m g).fences = t.fences := rfl
@[simp] theorem Troupe.setV_roinvAt (r : Nat) (m : LaneMask) (g : Nat → Word) : (t.setV r m g).roinvAt = t.roinvAt := rfl

/-! ## Troupe.setVLane -/

@[simp] theorem Troupe.setVLane_uid (r i : Nat) (w : Word) : (t.setVLane r i w).uid = t.uid := rfl
@[simp] theorem Troupe.setVLane_cid (r i : Nat) (w : Word) : (t.setVLane r i w).cid = t.cid := rfl
@[simp] theorem Troupe.setVLane_lid (r i : Nat) (w : Word) : (t.setVLane r i w).lid = t.lid := rfl
@[simp] theorem Troupe.setVLane_wid (r i : Nat) (w : Word) : (t.setVLane r i w).wid = t.wid := rfl
@[simp] theorem Troupe.setVLane_core (r i : Nat) (w : Word) : (t.setVLane r i w).core = t.core := rfl
@[simp] theorem Troupe.setVLane_quarter (r i : Nat) (w : Word) : (t.setVLane r i w).quarter = t.quarter := rfl
@[simp] theorem Troupe.setVLane_slot (r i : Nat) (w : Word) : (t.setVLane r i w).slot = t.slot := rfl
@[simp] theorem Troupe.setVLane_resident (r i : Nat) (w : Word) : (t.setVLane r i w).resident = t.resident := rfl
@[simp] theorem Troupe.setVLane_retired (r i : Nat) (w : Word) : (t.setVLane r i w).retired = t.retired := rfl
@[simp] theorem Troupe.setVLane_s (r i : Nat) (w : Word) : (t.setVLane r i w).s = t.s := rfl
@[simp] theorem Troupe.setVLane_act (r i : Nat) (w : Word) : (t.setVLane r i w).act = t.act := rfl
@[simp] theorem Troupe.setVLane_fmt (r i : Nat) (w : Word) : (t.setVLane r i w).fmt = t.fmt := rfl
@[simp] theorem Troupe.setVLane_pc (r i : Nat) (w : Word) : (t.setVLane r i w).pc = t.pc := rfl
@[simp] theorem Troupe.setVLane_pos (r i : Nat) (w : Word) : (t.setVLane r i w).pos = t.pos := rfl
@[simp] theorem Troupe.setVLane_actSerial (r i : Nat) (w : Word) : (t.setVLane r i w).actSerial = t.actSerial := rfl
@[simp] theorem Troupe.setVLane_actNext (r i : Nat) (w : Word) : (t.setVLane r i w).actNext = t.actNext := rfl
@[simp] theorem Troupe.setVLane_stack (r i : Nat) (w : Word) : (t.setVLane r i w).stack = t.stack := rfl
@[simp] theorem Troupe.setVLane_exited (r i : Nat) (w : Word) : (t.setVLane r i w).exited = t.exited := rfl
@[simp] theorem Troupe.setVLane_ld (r i : Nat) (w : Word) : (t.setVLane r i w).ld = t.ld := rfl
@[simp] theorem Troupe.setVLane_st (r i : Nat) (w : Word) : (t.setVLane r i w).st = t.st := rfl
@[simp] theorem Troupe.setVLane_xc (r i : Nat) (w : Word) : (t.setVLane r i w).xc = t.xc := rfl
@[simp] theorem Troupe.setVLane_ul (r i : Nat) (w : Word) : (t.setVLane r i w).ul = t.ul := rfl
@[simp] theorem Troupe.setVLane_trap (r i : Nat) (w : Word) : (t.setVLane r i w).trap = t.trap := rfl
@[simp] theorem Troupe.setVLane_saved (r i : Nat) (w : Word) : (t.setVLane r i w).saved = t.saved := rfl
@[simp] theorem Troupe.setVLane_fflags (r i : Nat) (w : Word) : (t.setVLane r i w).fflags = t.fflags := rfl
@[simp] theorem Troupe.setVLane_srseed (r i : Nat) (w : Word) : (t.setVLane r i w).srseed = t.srseed := rfl
@[simp] theorem Troupe.setVLane_srctr (r i : Nat) (w : Word) : (t.setVLane r i w).srctr = t.srctr := rfl
@[simp] theorem Troupe.setVLane_tcause (r i : Nat) (w : Word) : (t.setVLane r i w).tcause = t.tcause := rfl
@[simp] theorem Troupe.setVLane_tpc (r i : Nat) (w : Word) : (t.setVLane r i w).tpc = t.tpc := rfl
@[simp] theorem Troupe.setVLane_taddr (r i : Nat) (w : Word) : (t.setVLane r i w).taddr = t.taddr := rfl
@[simp] theorem Troupe.setVLane_tmask (r i : Nat) (w : Word) : (t.setVLane r i w).tmask = t.tmask := rfl
@[simp] theorem Troupe.setVLane_mrp (r i : Nat) (w : Word) : (t.setVLane r i w).mrp = t.mrp := rfl
@[simp] theorem Troupe.setVLane_gang (r i : Nat) (w : Word) : (t.setVLane r i w).gang = t.gang := rfl
@[simp] theorem Troupe.setVLane_grpsel (r i : Nat) (w : Word) : (t.setVLane r i w).grpsel = t.grpsel := rfl
@[simp] theorem Troupe.setVLane_ldstat (r i : Nat) (w : Word) : (t.setVLane r i w).ldstat = t.ldstat := rfl
@[simp] theorem Troupe.setVLane_xseq (r i : Nat) (w : Word) : (t.setVLane r i w).xseq = t.xseq := rfl
@[simp] theorem Troupe.setVLane_edges (r i : Nat) (w : Word) : (t.setVLane r i w).edges = t.edges := rfl
@[simp] theorem Troupe.setVLane_rgrpCount (r i : Nat) (w : Word) : (t.setVLane r i w).rgrpCount = t.rgrpCount := rfl
@[simp] theorem Troupe.setVLane_park (r i : Nat) (w : Word) : (t.setVLane r i w).park = t.park := rfl
@[simp] theorem Troupe.setVLane_parkedAt (r i : Nat) (w : Word) : (t.setVLane r i w).parkedAt = t.parkedAt := rfl
@[simp] theorem Troupe.setVLane_parkResume (r i : Nat) (w : Word) : (t.setVLane r i w).parkResume = t.parkResume := rfl
@[simp] theorem Troupe.setVLane_declined (r i : Nat) (w : Word) : (t.setVLane r i w).declined = t.declined := rfl
@[simp] theorem Troupe.setVLane_ops (r i : Nat) (w : Word) : (t.setVLane r i w).ops = t.ops := rfl
@[simp] theorem Troupe.setVLane_nextOp (r i : Nat) (w : Word) : (t.setVLane r i w).nextOp = t.nextOp := rfl
@[simp] theorem Troupe.setVLane_fences (r i : Nat) (w : Word) : (t.setVLane r i w).fences = t.fences := rfl
@[simp] theorem Troupe.setVLane_roinvAt (r i : Nat) (w : Word) : (t.setVLane r i w).roinvAt = t.roinvAt := rfl

/-! ## Troupe.raise -/

@[simp] theorem Troupe.raise_uid (fl : Flags) : (t.raise fl).uid = t.uid := rfl
@[simp] theorem Troupe.raise_cid (fl : Flags) : (t.raise fl).cid = t.cid := rfl
@[simp] theorem Troupe.raise_lid (fl : Flags) : (t.raise fl).lid = t.lid := rfl
@[simp] theorem Troupe.raise_wid (fl : Flags) : (t.raise fl).wid = t.wid := rfl
@[simp] theorem Troupe.raise_core (fl : Flags) : (t.raise fl).core = t.core := rfl
@[simp] theorem Troupe.raise_quarter (fl : Flags) : (t.raise fl).quarter = t.quarter := rfl
@[simp] theorem Troupe.raise_slot (fl : Flags) : (t.raise fl).slot = t.slot := rfl
@[simp] theorem Troupe.raise_resident (fl : Flags) : (t.raise fl).resident = t.resident := rfl
@[simp] theorem Troupe.raise_retired (fl : Flags) : (t.raise fl).retired = t.retired := rfl
@[simp] theorem Troupe.raise_v (fl : Flags) : (t.raise fl).v = t.v := rfl
@[simp] theorem Troupe.raise_s (fl : Flags) : (t.raise fl).s = t.s := rfl
@[simp] theorem Troupe.raise_act (fl : Flags) : (t.raise fl).act = t.act := rfl
@[simp] theorem Troupe.raise_fmt (fl : Flags) : (t.raise fl).fmt = t.fmt := rfl
@[simp] theorem Troupe.raise_pc (fl : Flags) : (t.raise fl).pc = t.pc := rfl
@[simp] theorem Troupe.raise_pos (fl : Flags) : (t.raise fl).pos = t.pos := rfl
@[simp] theorem Troupe.raise_actSerial (fl : Flags) : (t.raise fl).actSerial = t.actSerial := rfl
@[simp] theorem Troupe.raise_actNext (fl : Flags) : (t.raise fl).actNext = t.actNext := rfl
@[simp] theorem Troupe.raise_stack (fl : Flags) : (t.raise fl).stack = t.stack := rfl
@[simp] theorem Troupe.raise_exited (fl : Flags) : (t.raise fl).exited = t.exited := rfl
@[simp] theorem Troupe.raise_ld (fl : Flags) : (t.raise fl).ld = t.ld := rfl
@[simp] theorem Troupe.raise_st (fl : Flags) : (t.raise fl).st = t.st := rfl
@[simp] theorem Troupe.raise_xc (fl : Flags) : (t.raise fl).xc = t.xc := rfl
@[simp] theorem Troupe.raise_ul (fl : Flags) : (t.raise fl).ul = t.ul := rfl
@[simp] theorem Troupe.raise_trap (fl : Flags) : (t.raise fl).trap = t.trap := rfl
@[simp] theorem Troupe.raise_saved (fl : Flags) : (t.raise fl).saved = t.saved := rfl
@[simp] theorem Troupe.raise_srseed (fl : Flags) : (t.raise fl).srseed = t.srseed := rfl
@[simp] theorem Troupe.raise_srctr (fl : Flags) : (t.raise fl).srctr = t.srctr := rfl
@[simp] theorem Troupe.raise_tcause (fl : Flags) : (t.raise fl).tcause = t.tcause := rfl
@[simp] theorem Troupe.raise_tpc (fl : Flags) : (t.raise fl).tpc = t.tpc := rfl
@[simp] theorem Troupe.raise_taddr (fl : Flags) : (t.raise fl).taddr = t.taddr := rfl
@[simp] theorem Troupe.raise_tmask (fl : Flags) : (t.raise fl).tmask = t.tmask := rfl
@[simp] theorem Troupe.raise_mrp (fl : Flags) : (t.raise fl).mrp = t.mrp := rfl
@[simp] theorem Troupe.raise_gang (fl : Flags) : (t.raise fl).gang = t.gang := rfl
@[simp] theorem Troupe.raise_grpsel (fl : Flags) : (t.raise fl).grpsel = t.grpsel := rfl
@[simp] theorem Troupe.raise_ldstat (fl : Flags) : (t.raise fl).ldstat = t.ldstat := rfl
@[simp] theorem Troupe.raise_xseq (fl : Flags) : (t.raise fl).xseq = t.xseq := rfl
@[simp] theorem Troupe.raise_edges (fl : Flags) : (t.raise fl).edges = t.edges := rfl
@[simp] theorem Troupe.raise_rgrpCount (fl : Flags) : (t.raise fl).rgrpCount = t.rgrpCount := rfl
@[simp] theorem Troupe.raise_park (fl : Flags) : (t.raise fl).park = t.park := rfl
@[simp] theorem Troupe.raise_parkedAt (fl : Flags) : (t.raise fl).parkedAt = t.parkedAt := rfl
@[simp] theorem Troupe.raise_parkResume (fl : Flags) : (t.raise fl).parkResume = t.parkResume := rfl
@[simp] theorem Troupe.raise_declined (fl : Flags) : (t.raise fl).declined = t.declined := rfl
@[simp] theorem Troupe.raise_ops (fl : Flags) : (t.raise fl).ops = t.ops := rfl
@[simp] theorem Troupe.raise_nextOp (fl : Flags) : (t.raise fl).nextOp = t.nextOp := rfl
@[simp] theorem Troupe.raise_fences (fl : Flags) : (t.raise fl).fences = t.fences := rfl
@[simp] theorem Troupe.raise_roinvAt (fl : Flags) : (t.raise fl).roinvAt = t.roinvAt := rfl

/-! ## Troupe.newAct -/

@[simp] theorem Troupe.newAct_uid : t.newAct.uid = t.uid := rfl
@[simp] theorem Troupe.newAct_cid : t.newAct.cid = t.cid := rfl
@[simp] theorem Troupe.newAct_lid : t.newAct.lid = t.lid := rfl
@[simp] theorem Troupe.newAct_wid : t.newAct.wid = t.wid := rfl
@[simp] theorem Troupe.newAct_core : t.newAct.core = t.core := rfl
@[simp] theorem Troupe.newAct_quarter : t.newAct.quarter = t.quarter := rfl
@[simp] theorem Troupe.newAct_slot : t.newAct.slot = t.slot := rfl
@[simp] theorem Troupe.newAct_resident : t.newAct.resident = t.resident := rfl
@[simp] theorem Troupe.newAct_retired : t.newAct.retired = t.retired := rfl
@[simp] theorem Troupe.newAct_v : t.newAct.v = t.v := rfl
@[simp] theorem Troupe.newAct_s : t.newAct.s = t.s := rfl
@[simp] theorem Troupe.newAct_act : t.newAct.act = t.act := rfl
@[simp] theorem Troupe.newAct_fmt : t.newAct.fmt = t.fmt := rfl
@[simp] theorem Troupe.newAct_pc : t.newAct.pc = t.pc := rfl
@[simp] theorem Troupe.newAct_stack : t.newAct.stack = t.stack := rfl
@[simp] theorem Troupe.newAct_exited : t.newAct.exited = t.exited := rfl
@[simp] theorem Troupe.newAct_ld : t.newAct.ld = t.ld := rfl
@[simp] theorem Troupe.newAct_st : t.newAct.st = t.st := rfl
@[simp] theorem Troupe.newAct_xc : t.newAct.xc = t.xc := rfl
@[simp] theorem Troupe.newAct_ul : t.newAct.ul = t.ul := rfl
@[simp] theorem Troupe.newAct_trap : t.newAct.trap = t.trap := rfl
@[simp] theorem Troupe.newAct_saved : t.newAct.saved = t.saved := rfl
@[simp] theorem Troupe.newAct_fflags : t.newAct.fflags = t.fflags := rfl
@[simp] theorem Troupe.newAct_srseed : t.newAct.srseed = t.srseed := rfl
@[simp] theorem Troupe.newAct_srctr : t.newAct.srctr = t.srctr := rfl
@[simp] theorem Troupe.newAct_tcause : t.newAct.tcause = t.tcause := rfl
@[simp] theorem Troupe.newAct_tpc : t.newAct.tpc = t.tpc := rfl
@[simp] theorem Troupe.newAct_taddr : t.newAct.taddr = t.taddr := rfl
@[simp] theorem Troupe.newAct_tmask : t.newAct.tmask = t.tmask := rfl
@[simp] theorem Troupe.newAct_mrp : t.newAct.mrp = t.mrp := rfl
@[simp] theorem Troupe.newAct_gang : t.newAct.gang = t.gang := rfl
@[simp] theorem Troupe.newAct_grpsel : t.newAct.grpsel = t.grpsel := rfl
@[simp] theorem Troupe.newAct_ldstat : t.newAct.ldstat = t.ldstat := rfl
@[simp] theorem Troupe.newAct_xseq : t.newAct.xseq = t.xseq := rfl
@[simp] theorem Troupe.newAct_edges : t.newAct.edges = t.edges := rfl
@[simp] theorem Troupe.newAct_rgrpCount : t.newAct.rgrpCount = t.rgrpCount := rfl
@[simp] theorem Troupe.newAct_park : t.newAct.park = t.park := rfl
@[simp] theorem Troupe.newAct_parkedAt : t.newAct.parkedAt = t.parkedAt := rfl
@[simp] theorem Troupe.newAct_parkResume : t.newAct.parkResume = t.parkResume := rfl
@[simp] theorem Troupe.newAct_declined : t.newAct.declined = t.declined := rfl
@[simp] theorem Troupe.newAct_ops : t.newAct.ops = t.ops := rfl
@[simp] theorem Troupe.newAct_nextOp : t.newAct.nextOp = t.nextOp := rfl
@[simp] theorem Troupe.newAct_fences : t.newAct.fences = t.fences := rfl
@[simp] theorem Troupe.newAct_roinvAt : t.newAct.roinvAt = t.roinvAt := rfl

/-! ## Troupe.setS -/

@[simp] theorem Troupe.setS_uid (k : Nat) (w : Word) : (t.setS k w).uid = t.uid := by
  unfold Troupe.setS; split <;> rfl
@[simp] theorem Troupe.setS_cid (k : Nat) (w : Word) : (t.setS k w).cid = t.cid := by
  unfold Troupe.setS; split <;> rfl
@[simp] theorem Troupe.setS_lid (k : Nat) (w : Word) : (t.setS k w).lid = t.lid := by
  unfold Troupe.setS; split <;> rfl
@[simp] theorem Troupe.setS_wid (k : Nat) (w : Word) : (t.setS k w).wid = t.wid := by
  unfold Troupe.setS; split <;> rfl
@[simp] theorem Troupe.setS_core (k : Nat) (w : Word) : (t.setS k w).core = t.core := by
  unfold Troupe.setS; split <;> rfl
@[simp] theorem Troupe.setS_quarter (k : Nat) (w : Word) : (t.setS k w).quarter = t.quarter := by
  unfold Troupe.setS; split <;> rfl
@[simp] theorem Troupe.setS_slot (k : Nat) (w : Word) : (t.setS k w).slot = t.slot := by
  unfold Troupe.setS; split <;> rfl
@[simp] theorem Troupe.setS_resident (k : Nat) (w : Word) : (t.setS k w).resident = t.resident := by
  unfold Troupe.setS; split <;> rfl
@[simp] theorem Troupe.setS_retired (k : Nat) (w : Word) : (t.setS k w).retired = t.retired := by
  unfold Troupe.setS; split <;> rfl
@[simp] theorem Troupe.setS_v (k : Nat) (w : Word) : (t.setS k w).v = t.v := by
  unfold Troupe.setS; split <;> rfl
@[simp] theorem Troupe.setS_fmt (k : Nat) (w : Word) : (t.setS k w).fmt = t.fmt := by
  unfold Troupe.setS; split <;> rfl
@[simp] theorem Troupe.setS_pc (k : Nat) (w : Word) : (t.setS k w).pc = t.pc := by
  unfold Troupe.setS; split <;> rfl
@[simp] theorem Troupe.setS_pos (k : Nat) (w : Word) : (t.setS k w).pos = t.pos := by
  unfold Troupe.setS; split <;> rfl
@[simp] theorem Troupe.setS_actSerial (k : Nat) (w : Word) : (t.setS k w).actSerial = t.actSerial := by
  unfold Troupe.setS; split <;> rfl
@[simp] theorem Troupe.setS_actNext (k : Nat) (w : Word) : (t.setS k w).actNext = t.actNext := by
  unfold Troupe.setS; split <;> rfl
@[simp] theorem Troupe.setS_stack (k : Nat) (w : Word) : (t.setS k w).stack = t.stack := by
  unfold Troupe.setS; split <;> rfl
@[simp] theorem Troupe.setS_exited (k : Nat) (w : Word) : (t.setS k w).exited = t.exited := by
  unfold Troupe.setS; split <;> rfl
@[simp] theorem Troupe.setS_ld (k : Nat) (w : Word) : (t.setS k w).ld = t.ld := by
  unfold Troupe.setS; split <;> rfl
@[simp] theorem Troupe.setS_st (k : Nat) (w : Word) : (t.setS k w).st = t.st := by
  unfold Troupe.setS; split <;> rfl
@[simp] theorem Troupe.setS_xc (k : Nat) (w : Word) : (t.setS k w).xc = t.xc := by
  unfold Troupe.setS; split <;> rfl
@[simp] theorem Troupe.setS_ul (k : Nat) (w : Word) : (t.setS k w).ul = t.ul := by
  unfold Troupe.setS; split <;> rfl
@[simp] theorem Troupe.setS_trap (k : Nat) (w : Word) : (t.setS k w).trap = t.trap := by
  unfold Troupe.setS; split <;> rfl
@[simp] theorem Troupe.setS_saved (k : Nat) (w : Word) : (t.setS k w).saved = t.saved := by
  unfold Troupe.setS; split <;> rfl
@[simp] theorem Troupe.setS_fflags (k : Nat) (w : Word) : (t.setS k w).fflags = t.fflags := by
  unfold Troupe.setS; split <;> rfl
@[simp] theorem Troupe.setS_srseed (k : Nat) (w : Word) : (t.setS k w).srseed = t.srseed := by
  unfold Troupe.setS; split <;> rfl
@[simp] theorem Troupe.setS_srctr (k : Nat) (w : Word) : (t.setS k w).srctr = t.srctr := by
  unfold Troupe.setS; split <;> rfl
@[simp] theorem Troupe.setS_tcause (k : Nat) (w : Word) : (t.setS k w).tcause = t.tcause := by
  unfold Troupe.setS; split <;> rfl
@[simp] theorem Troupe.setS_tpc (k : Nat) (w : Word) : (t.setS k w).tpc = t.tpc := by
  unfold Troupe.setS; split <;> rfl
@[simp] theorem Troupe.setS_taddr (k : Nat) (w : Word) : (t.setS k w).taddr = t.taddr := by
  unfold Troupe.setS; split <;> rfl
@[simp] theorem Troupe.setS_tmask (k : Nat) (w : Word) : (t.setS k w).tmask = t.tmask := by
  unfold Troupe.setS; split <;> rfl
@[simp] theorem Troupe.setS_mrp (k : Nat) (w : Word) : (t.setS k w).mrp = t.mrp := by
  unfold Troupe.setS; split <;> rfl
@[simp] theorem Troupe.setS_gang (k : Nat) (w : Word) : (t.setS k w).gang = t.gang := by
  unfold Troupe.setS; split <;> rfl
@[simp] theorem Troupe.setS_grpsel (k : Nat) (w : Word) : (t.setS k w).grpsel = t.grpsel := by
  unfold Troupe.setS; split <;> rfl
@[simp] theorem Troupe.setS_ldstat (k : Nat) (w : Word) : (t.setS k w).ldstat = t.ldstat := by
  unfold Troupe.setS; split <;> rfl
@[simp] theorem Troupe.setS_xseq (k : Nat) (w : Word) : (t.setS k w).xseq = t.xseq := by
  unfold Troupe.setS; split <;> rfl
@[simp] theorem Troupe.setS_edges (k : Nat) (w : Word) : (t.setS k w).edges = t.edges := by
  unfold Troupe.setS; split <;> rfl
@[simp] theorem Troupe.setS_rgrpCount (k : Nat) (w : Word) : (t.setS k w).rgrpCount = t.rgrpCount := by
  unfold Troupe.setS; split <;> rfl
@[simp] theorem Troupe.setS_park (k : Nat) (w : Word) : (t.setS k w).park = t.park := by
  unfold Troupe.setS; split <;> rfl
@[simp] theorem Troupe.setS_parkedAt (k : Nat) (w : Word) : (t.setS k w).parkedAt = t.parkedAt := by
  unfold Troupe.setS; split <;> rfl
@[simp] theorem Troupe.setS_parkResume (k : Nat) (w : Word) : (t.setS k w).parkResume = t.parkResume := by
  unfold Troupe.setS; split <;> rfl
@[simp] theorem Troupe.setS_declined (k : Nat) (w : Word) : (t.setS k w).declined = t.declined := by
  unfold Troupe.setS; split <;> rfl
@[simp] theorem Troupe.setS_ops (k : Nat) (w : Word) : (t.setS k w).ops = t.ops := by
  unfold Troupe.setS; split <;> rfl
@[simp] theorem Troupe.setS_nextOp (k : Nat) (w : Word) : (t.setS k w).nextOp = t.nextOp := by
  unfold Troupe.setS; split <;> rfl
@[simp] theorem Troupe.setS_fences (k : Nat) (w : Word) : (t.setS k w).fences = t.fences := by
  unfold Troupe.setS; split <;> rfl
@[simp] theorem Troupe.setS_roinvAt (k : Nat) (w : Word) : (t.setS k w).roinvAt = t.roinvAt := by
  unfold Troupe.setS; split <;> rfl

/-! ## Troupe.putLane -/

@[simp] theorem Troupe.putLane_uid (f : Fields) (g : Nat → Word) : (t.putLane f g).uid = t.uid := by
  unfold Troupe.putLane; split <;> rfl
@[simp] theorem Troupe.putLane_cid (f : Fields) (g : Nat → Word) : (t.putLane f g).cid = t.cid := by
  unfold Troupe.putLane; split <;> rfl
@[simp] theorem Troupe.putLane_lid (f : Fields) (g : Nat → Word) : (t.putLane f g).lid = t.lid := by
  unfold Troupe.putLane; split <;> rfl
@[simp] theorem Troupe.putLane_wid (f : Fields) (g : Nat → Word) : (t.putLane f g).wid = t.wid := by
  unfold Troupe.putLane; split <;> rfl
@[simp] theorem Troupe.putLane_core (f : Fields) (g : Nat → Word) : (t.putLane f g).core = t.core := by
  unfold Troupe.putLane; split <;> rfl
@[simp] theorem Troupe.putLane_quarter (f : Fields) (g : Nat → Word) : (t.putLane f g).quarter = t.quarter := by
  unfold Troupe.putLane; split <;> rfl
@[simp] theorem Troupe.putLane_slot (f : Fields) (g : Nat → Word) : (t.putLane f g).slot = t.slot := by
  unfold Troupe.putLane; split <;> rfl
@[simp] theorem Troupe.putLane_resident (f : Fields) (g : Nat → Word) : (t.putLane f g).resident = t.resident := by
  unfold Troupe.putLane; split <;> rfl
@[simp] theorem Troupe.putLane_retired (f : Fields) (g : Nat → Word) : (t.putLane f g).retired = t.retired := by
  unfold Troupe.putLane; split <;> rfl
@[simp] theorem Troupe.putLane_s (f : Fields) (g : Nat → Word) : (t.putLane f g).s = t.s := by
  unfold Troupe.putLane; split <;> rfl
@[simp] theorem Troupe.putLane_act (f : Fields) (g : Nat → Word) : (t.putLane f g).act = t.act := by
  unfold Troupe.putLane; split <;> rfl
@[simp] theorem Troupe.putLane_fmt (f : Fields) (g : Nat → Word) : (t.putLane f g).fmt = t.fmt := by
  unfold Troupe.putLane; split <;> rfl
@[simp] theorem Troupe.putLane_pc (f : Fields) (g : Nat → Word) : (t.putLane f g).pc = t.pc := by
  unfold Troupe.putLane; split <;> rfl
@[simp] theorem Troupe.putLane_pos (f : Fields) (g : Nat → Word) : (t.putLane f g).pos = t.pos := by
  unfold Troupe.putLane; split <;> rfl
@[simp] theorem Troupe.putLane_actSerial (f : Fields) (g : Nat → Word) : (t.putLane f g).actSerial = t.actSerial := by
  unfold Troupe.putLane; split <;> rfl
@[simp] theorem Troupe.putLane_actNext (f : Fields) (g : Nat → Word) : (t.putLane f g).actNext = t.actNext := by
  unfold Troupe.putLane; split <;> rfl
@[simp] theorem Troupe.putLane_stack (f : Fields) (g : Nat → Word) : (t.putLane f g).stack = t.stack := by
  unfold Troupe.putLane; split <;> rfl
@[simp] theorem Troupe.putLane_exited (f : Fields) (g : Nat → Word) : (t.putLane f g).exited = t.exited := by
  unfold Troupe.putLane; split <;> rfl
@[simp] theorem Troupe.putLane_ld (f : Fields) (g : Nat → Word) : (t.putLane f g).ld = t.ld := by
  unfold Troupe.putLane; split <;> rfl
@[simp] theorem Troupe.putLane_st (f : Fields) (g : Nat → Word) : (t.putLane f g).st = t.st := by
  unfold Troupe.putLane; split <;> rfl
@[simp] theorem Troupe.putLane_xc (f : Fields) (g : Nat → Word) : (t.putLane f g).xc = t.xc := by
  unfold Troupe.putLane; split <;> rfl
@[simp] theorem Troupe.putLane_ul (f : Fields) (g : Nat → Word) : (t.putLane f g).ul = t.ul := by
  unfold Troupe.putLane; split <;> rfl
@[simp] theorem Troupe.putLane_trap (f : Fields) (g : Nat → Word) : (t.putLane f g).trap = t.trap := by
  unfold Troupe.putLane; split <;> rfl
@[simp] theorem Troupe.putLane_saved (f : Fields) (g : Nat → Word) : (t.putLane f g).saved = t.saved := by
  unfold Troupe.putLane; split <;> rfl
@[simp] theorem Troupe.putLane_fflags (f : Fields) (g : Nat → Word) : (t.putLane f g).fflags = t.fflags := by
  unfold Troupe.putLane; split <;> rfl
@[simp] theorem Troupe.putLane_srseed (f : Fields) (g : Nat → Word) : (t.putLane f g).srseed = t.srseed := by
  unfold Troupe.putLane; split <;> rfl
@[simp] theorem Troupe.putLane_srctr (f : Fields) (g : Nat → Word) : (t.putLane f g).srctr = t.srctr := by
  unfold Troupe.putLane; split <;> rfl
@[simp] theorem Troupe.putLane_tcause (f : Fields) (g : Nat → Word) : (t.putLane f g).tcause = t.tcause := by
  unfold Troupe.putLane; split <;> rfl
@[simp] theorem Troupe.putLane_tpc (f : Fields) (g : Nat → Word) : (t.putLane f g).tpc = t.tpc := by
  unfold Troupe.putLane; split <;> rfl
@[simp] theorem Troupe.putLane_taddr (f : Fields) (g : Nat → Word) : (t.putLane f g).taddr = t.taddr := by
  unfold Troupe.putLane; split <;> rfl
@[simp] theorem Troupe.putLane_tmask (f : Fields) (g : Nat → Word) : (t.putLane f g).tmask = t.tmask := by
  unfold Troupe.putLane; split <;> rfl
@[simp] theorem Troupe.putLane_mrp (f : Fields) (g : Nat → Word) : (t.putLane f g).mrp = t.mrp := by
  unfold Troupe.putLane; split <;> rfl
@[simp] theorem Troupe.putLane_gang (f : Fields) (g : Nat → Word) : (t.putLane f g).gang = t.gang := by
  unfold Troupe.putLane; split <;> rfl
@[simp] theorem Troupe.putLane_grpsel (f : Fields) (g : Nat → Word) : (t.putLane f g).grpsel = t.grpsel := by
  unfold Troupe.putLane; split <;> rfl
@[simp] theorem Troupe.putLane_ldstat (f : Fields) (g : Nat → Word) : (t.putLane f g).ldstat = t.ldstat := by
  unfold Troupe.putLane; split <;> rfl
@[simp] theorem Troupe.putLane_xseq (f : Fields) (g : Nat → Word) : (t.putLane f g).xseq = t.xseq := by
  unfold Troupe.putLane; split <;> rfl
@[simp] theorem Troupe.putLane_edges (f : Fields) (g : Nat → Word) : (t.putLane f g).edges = t.edges := by
  unfold Troupe.putLane; split <;> rfl
@[simp] theorem Troupe.putLane_rgrpCount (f : Fields) (g : Nat → Word) : (t.putLane f g).rgrpCount = t.rgrpCount := by
  unfold Troupe.putLane; split <;> rfl
@[simp] theorem Troupe.putLane_park (f : Fields) (g : Nat → Word) : (t.putLane f g).park = t.park := by
  unfold Troupe.putLane; split <;> rfl
@[simp] theorem Troupe.putLane_parkedAt (f : Fields) (g : Nat → Word) : (t.putLane f g).parkedAt = t.parkedAt := by
  unfold Troupe.putLane; split <;> rfl
@[simp] theorem Troupe.putLane_parkResume (f : Fields) (g : Nat → Word) : (t.putLane f g).parkResume = t.parkResume := by
  unfold Troupe.putLane; split <;> rfl
@[simp] theorem Troupe.putLane_declined (f : Fields) (g : Nat → Word) : (t.putLane f g).declined = t.declined := by
  unfold Troupe.putLane; split <;> rfl
@[simp] theorem Troupe.putLane_ops (f : Fields) (g : Nat → Word) : (t.putLane f g).ops = t.ops := by
  unfold Troupe.putLane; split <;> rfl
@[simp] theorem Troupe.putLane_nextOp (f : Fields) (g : Nat → Word) : (t.putLane f g).nextOp = t.nextOp := by
  unfold Troupe.putLane; split <;> rfl
@[simp] theorem Troupe.putLane_fences (f : Fields) (g : Nat → Word) : (t.putLane f g).fences = t.fences := by
  unfold Troupe.putLane; split <;> rfl
@[simp] theorem Troupe.putLane_roinvAt (f : Fields) (g : Nat → Word) : (t.putLane f g).roinvAt = t.roinvAt := by
  unfold Troupe.putLane; split <;> rfl

/-! ## Troupe.claimLatch -/

@[simp] theorem Troupe.claimLatch_uid (o : Troupe) (u : Bool) : (t.claimLatch o u).uid = t.uid := by
  cases u <;> rfl
@[simp] theorem Troupe.claimLatch_cid (o : Troupe) (u : Bool) : (t.claimLatch o u).cid = t.cid := by
  cases u <;> rfl
@[simp] theorem Troupe.claimLatch_lid (o : Troupe) (u : Bool) : (t.claimLatch o u).lid = t.lid := by
  cases u <;> rfl
@[simp] theorem Troupe.claimLatch_wid (o : Troupe) (u : Bool) : (t.claimLatch o u).wid = t.wid := by
  cases u <;> rfl
@[simp] theorem Troupe.claimLatch_core (o : Troupe) (u : Bool) : (t.claimLatch o u).core = t.core := by
  cases u <;> rfl
@[simp] theorem Troupe.claimLatch_quarter (o : Troupe) (u : Bool) : (t.claimLatch o u).quarter = t.quarter := by
  cases u <;> rfl
@[simp] theorem Troupe.claimLatch_slot (o : Troupe) (u : Bool) : (t.claimLatch o u).slot = t.slot := by
  cases u <;> rfl
@[simp] theorem Troupe.claimLatch_resident (o : Troupe) (u : Bool) : (t.claimLatch o u).resident = t.resident := by
  cases u <;> rfl
@[simp] theorem Troupe.claimLatch_retired (o : Troupe) (u : Bool) : (t.claimLatch o u).retired = t.retired := by
  cases u <;> rfl
@[simp] theorem Troupe.claimLatch_v (o : Troupe) (u : Bool) : (t.claimLatch o u).v = t.v := by
  cases u <;> rfl
@[simp] theorem Troupe.claimLatch_s (o : Troupe) (u : Bool) : (t.claimLatch o u).s = t.s := by
  cases u <;> rfl
@[simp] theorem Troupe.claimLatch_act (o : Troupe) (u : Bool) : (t.claimLatch o u).act = t.act := by
  cases u <;> rfl
@[simp] theorem Troupe.claimLatch_fmt (o : Troupe) (u : Bool) : (t.claimLatch o u).fmt = t.fmt := by
  cases u <;> rfl
@[simp] theorem Troupe.claimLatch_pc (o : Troupe) (u : Bool) : (t.claimLatch o u).pc = t.pc := by
  cases u <;> rfl
@[simp] theorem Troupe.claimLatch_pos (o : Troupe) (u : Bool) : (t.claimLatch o u).pos = t.pos := by
  cases u <;> rfl
@[simp] theorem Troupe.claimLatch_actSerial (o : Troupe) (u : Bool) : (t.claimLatch o u).actSerial = t.actSerial := by
  cases u <;> rfl
@[simp] theorem Troupe.claimLatch_actNext (o : Troupe) (u : Bool) : (t.claimLatch o u).actNext = t.actNext := by
  cases u <;> rfl
@[simp] theorem Troupe.claimLatch_stack (o : Troupe) (u : Bool) : (t.claimLatch o u).stack = t.stack := by
  cases u <;> rfl
@[simp] theorem Troupe.claimLatch_exited (o : Troupe) (u : Bool) : (t.claimLatch o u).exited = t.exited := by
  cases u <;> rfl
@[simp] theorem Troupe.claimLatch_ld (o : Troupe) (u : Bool) : (t.claimLatch o u).ld = t.ld := by
  cases u <;> rfl
@[simp] theorem Troupe.claimLatch_st (o : Troupe) (u : Bool) : (t.claimLatch o u).st = t.st := by
  cases u <;> rfl
@[simp] theorem Troupe.claimLatch_xc (o : Troupe) (u : Bool) : (t.claimLatch o u).xc = t.xc := by
  cases u <;> rfl
@[simp] theorem Troupe.claimLatch_ul (o : Troupe) (u : Bool) : (t.claimLatch o u).ul = t.ul := by
  cases u <;> rfl
@[simp] theorem Troupe.claimLatch_trap (o : Troupe) (u : Bool) : (t.claimLatch o u).trap = t.trap := by
  cases u <;> rfl
@[simp] theorem Troupe.claimLatch_saved (o : Troupe) (u : Bool) : (t.claimLatch o u).saved = t.saved := by
  cases u <;> rfl
@[simp] theorem Troupe.claimLatch_fflags (o : Troupe) (u : Bool) : (t.claimLatch o u).fflags = t.fflags := by
  cases u <;> rfl
@[simp] theorem Troupe.claimLatch_srseed (o : Troupe) (u : Bool) : (t.claimLatch o u).srseed = t.srseed := by
  cases u <;> rfl
@[simp] theorem Troupe.claimLatch_srctr (o : Troupe) (u : Bool) : (t.claimLatch o u).srctr = t.srctr := by
  cases u <;> rfl
@[simp] theorem Troupe.claimLatch_tcause (o : Troupe) (u : Bool) : (t.claimLatch o u).tcause = t.tcause := by
  cases u <;> rfl
@[simp] theorem Troupe.claimLatch_tpc (o : Troupe) (u : Bool) : (t.claimLatch o u).tpc = t.tpc := by
  cases u <;> rfl
@[simp] theorem Troupe.claimLatch_taddr (o : Troupe) (u : Bool) : (t.claimLatch o u).taddr = t.taddr := by
  cases u <;> rfl
@[simp] theorem Troupe.claimLatch_tmask (o : Troupe) (u : Bool) : (t.claimLatch o u).tmask = t.tmask := by
  cases u <;> rfl
@[simp] theorem Troupe.claimLatch_mrp (o : Troupe) (u : Bool) : (t.claimLatch o u).mrp = t.mrp := by
  cases u <;> rfl
@[simp] theorem Troupe.claimLatch_gang (o : Troupe) (u : Bool) : (t.claimLatch o u).gang = t.gang := by
  cases u <;> rfl
@[simp] theorem Troupe.claimLatch_grpsel (o : Troupe) (u : Bool) : (t.claimLatch o u).grpsel = t.grpsel := by
  cases u <;> rfl
@[simp] theorem Troupe.claimLatch_ldstat (o : Troupe) (u : Bool) : (t.claimLatch o u).ldstat = t.ldstat := by
  cases u <;> rfl
@[simp] theorem Troupe.claimLatch_xseq (o : Troupe) (u : Bool) : (t.claimLatch o u).xseq = t.xseq := by
  cases u <;> rfl
@[simp] theorem Troupe.claimLatch_rgrpCount (o : Troupe) (u : Bool) : (t.claimLatch o u).rgrpCount = t.rgrpCount := by
  cases u <;> rfl
@[simp] theorem Troupe.claimLatch_park (o : Troupe) (u : Bool) : (t.claimLatch o u).park = t.park := by
  cases u <;> rfl
@[simp] theorem Troupe.claimLatch_parkedAt (o : Troupe) (u : Bool) : (t.claimLatch o u).parkedAt = t.parkedAt := by
  cases u <;> rfl
@[simp] theorem Troupe.claimLatch_parkResume (o : Troupe) (u : Bool) : (t.claimLatch o u).parkResume = t.parkResume := by
  cases u <;> rfl
@[simp] theorem Troupe.claimLatch_declined (o : Troupe) (u : Bool) : (t.claimLatch o u).declined = t.declined := by
  cases u <;> rfl
@[simp] theorem Troupe.claimLatch_nextOp (o : Troupe) (u : Bool) : (t.claimLatch o u).nextOp = t.nextOp := by
  cases u <;> rfl
@[simp] theorem Troupe.claimLatch_fences (o : Troupe) (u : Bool) : (t.claimLatch o u).fences = t.fences := by
  cases u <;> rfl
@[simp] theorem Troupe.claimLatch_roinvAt (o : Troupe) (u : Bool) : (t.claimLatch o u).roinvAt = t.roinvAt := by
  cases u <;> rfl

/-! ## Troupe.setSPair -/

@[simp] theorem Troupe.setSPair_uid (k : Nat) (w : DWord) : (t.setSPair k w).uid = t.uid := by
  simp [Troupe.setSPair]
@[simp] theorem Troupe.setSPair_cid (k : Nat) (w : DWord) : (t.setSPair k w).cid = t.cid := by
  simp [Troupe.setSPair]
@[simp] theorem Troupe.setSPair_lid (k : Nat) (w : DWord) : (t.setSPair k w).lid = t.lid := by
  simp [Troupe.setSPair]
@[simp] theorem Troupe.setSPair_wid (k : Nat) (w : DWord) : (t.setSPair k w).wid = t.wid := by
  simp [Troupe.setSPair]
@[simp] theorem Troupe.setSPair_core (k : Nat) (w : DWord) : (t.setSPair k w).core = t.core := by
  simp [Troupe.setSPair]
@[simp] theorem Troupe.setSPair_quarter (k : Nat) (w : DWord) : (t.setSPair k w).quarter = t.quarter := by
  simp [Troupe.setSPair]
@[simp] theorem Troupe.setSPair_slot (k : Nat) (w : DWord) : (t.setSPair k w).slot = t.slot := by
  simp [Troupe.setSPair]
@[simp] theorem Troupe.setSPair_resident (k : Nat) (w : DWord) : (t.setSPair k w).resident = t.resident := by
  simp [Troupe.setSPair]
@[simp] theorem Troupe.setSPair_retired (k : Nat) (w : DWord) : (t.setSPair k w).retired = t.retired := by
  simp [Troupe.setSPair]
@[simp] theorem Troupe.setSPair_v (k : Nat) (w : DWord) : (t.setSPair k w).v = t.v := by
  simp [Troupe.setSPair]
@[simp] theorem Troupe.setSPair_fmt (k : Nat) (w : DWord) : (t.setSPair k w).fmt = t.fmt := by
  simp [Troupe.setSPair]
@[simp] theorem Troupe.setSPair_pc (k : Nat) (w : DWord) : (t.setSPair k w).pc = t.pc := by
  simp [Troupe.setSPair]
@[simp] theorem Troupe.setSPair_pos (k : Nat) (w : DWord) : (t.setSPair k w).pos = t.pos := by
  simp [Troupe.setSPair]
@[simp] theorem Troupe.setSPair_actSerial (k : Nat) (w : DWord) : (t.setSPair k w).actSerial = t.actSerial := by
  simp [Troupe.setSPair]
@[simp] theorem Troupe.setSPair_actNext (k : Nat) (w : DWord) : (t.setSPair k w).actNext = t.actNext := by
  simp [Troupe.setSPair]
@[simp] theorem Troupe.setSPair_stack (k : Nat) (w : DWord) : (t.setSPair k w).stack = t.stack := by
  simp [Troupe.setSPair]
@[simp] theorem Troupe.setSPair_exited (k : Nat) (w : DWord) : (t.setSPair k w).exited = t.exited := by
  simp [Troupe.setSPair]
@[simp] theorem Troupe.setSPair_ld (k : Nat) (w : DWord) : (t.setSPair k w).ld = t.ld := by
  simp [Troupe.setSPair]
@[simp] theorem Troupe.setSPair_st (k : Nat) (w : DWord) : (t.setSPair k w).st = t.st := by
  simp [Troupe.setSPair]
@[simp] theorem Troupe.setSPair_xc (k : Nat) (w : DWord) : (t.setSPair k w).xc = t.xc := by
  simp [Troupe.setSPair]
@[simp] theorem Troupe.setSPair_ul (k : Nat) (w : DWord) : (t.setSPair k w).ul = t.ul := by
  simp [Troupe.setSPair]
@[simp] theorem Troupe.setSPair_trap (k : Nat) (w : DWord) : (t.setSPair k w).trap = t.trap := by
  simp [Troupe.setSPair]
@[simp] theorem Troupe.setSPair_saved (k : Nat) (w : DWord) : (t.setSPair k w).saved = t.saved := by
  simp [Troupe.setSPair]
@[simp] theorem Troupe.setSPair_fflags (k : Nat) (w : DWord) : (t.setSPair k w).fflags = t.fflags := by
  simp [Troupe.setSPair]
@[simp] theorem Troupe.setSPair_srseed (k : Nat) (w : DWord) : (t.setSPair k w).srseed = t.srseed := by
  simp [Troupe.setSPair]
@[simp] theorem Troupe.setSPair_srctr (k : Nat) (w : DWord) : (t.setSPair k w).srctr = t.srctr := by
  simp [Troupe.setSPair]
@[simp] theorem Troupe.setSPair_tcause (k : Nat) (w : DWord) : (t.setSPair k w).tcause = t.tcause := by
  simp [Troupe.setSPair]
@[simp] theorem Troupe.setSPair_tpc (k : Nat) (w : DWord) : (t.setSPair k w).tpc = t.tpc := by
  simp [Troupe.setSPair]
@[simp] theorem Troupe.setSPair_taddr (k : Nat) (w : DWord) : (t.setSPair k w).taddr = t.taddr := by
  simp [Troupe.setSPair]
@[simp] theorem Troupe.setSPair_tmask (k : Nat) (w : DWord) : (t.setSPair k w).tmask = t.tmask := by
  simp [Troupe.setSPair]
@[simp] theorem Troupe.setSPair_mrp (k : Nat) (w : DWord) : (t.setSPair k w).mrp = t.mrp := by
  simp [Troupe.setSPair]
@[simp] theorem Troupe.setSPair_gang (k : Nat) (w : DWord) : (t.setSPair k w).gang = t.gang := by
  simp [Troupe.setSPair]
@[simp] theorem Troupe.setSPair_grpsel (k : Nat) (w : DWord) : (t.setSPair k w).grpsel = t.grpsel := by
  simp [Troupe.setSPair]
@[simp] theorem Troupe.setSPair_ldstat (k : Nat) (w : DWord) : (t.setSPair k w).ldstat = t.ldstat := by
  simp [Troupe.setSPair]
@[simp] theorem Troupe.setSPair_xseq (k : Nat) (w : DWord) : (t.setSPair k w).xseq = t.xseq := by
  simp [Troupe.setSPair]
@[simp] theorem Troupe.setSPair_edges (k : Nat) (w : DWord) : (t.setSPair k w).edges = t.edges := by
  simp [Troupe.setSPair]
@[simp] theorem Troupe.setSPair_rgrpCount (k : Nat) (w : DWord) : (t.setSPair k w).rgrpCount = t.rgrpCount := by
  simp [Troupe.setSPair]
@[simp] theorem Troupe.setSPair_park (k : Nat) (w : DWord) : (t.setSPair k w).park = t.park := by
  simp [Troupe.setSPair]
@[simp] theorem Troupe.setSPair_parkedAt (k : Nat) (w : DWord) : (t.setSPair k w).parkedAt = t.parkedAt := by
  simp [Troupe.setSPair]
@[simp] theorem Troupe.setSPair_parkResume (k : Nat) (w : DWord) : (t.setSPair k w).parkResume = t.parkResume := by
  simp [Troupe.setSPair]
@[simp] theorem Troupe.setSPair_declined (k : Nat) (w : DWord) : (t.setSPair k w).declined = t.declined := by
  simp [Troupe.setSPair]
@[simp] theorem Troupe.setSPair_ops (k : Nat) (w : DWord) : (t.setSPair k w).ops = t.ops := by
  simp [Troupe.setSPair]
@[simp] theorem Troupe.setSPair_nextOp (k : Nat) (w : DWord) : (t.setSPair k w).nextOp = t.nextOp := by
  simp [Troupe.setSPair]
@[simp] theorem Troupe.setSPair_fences (k : Nat) (w : DWord) : (t.setSPair k w).fences = t.fences := by
  simp [Troupe.setSPair]
@[simp] theorem Troupe.setSPair_roinvAt (k : Nat) (w : DWord) : (t.setSPair k w).roinvAt = t.roinvAt := by
  simp [Troupe.setSPair]

/-! ## Troupe.setTriple -/

@[simp] theorem Troupe.setTriple_uid (k : Nat) (m : LaneMask) : (t.setTriple k m).uid = t.uid := by
  simp [Troupe.setTriple]
@[simp] theorem Troupe.setTriple_cid (k : Nat) (m : LaneMask) : (t.setTriple k m).cid = t.cid := by
  simp [Troupe.setTriple]
@[simp] theorem Troupe.setTriple_lid (k : Nat) (m : LaneMask) : (t.setTriple k m).lid = t.lid := by
  simp [Troupe.setTriple]
@[simp] theorem Troupe.setTriple_wid (k : Nat) (m : LaneMask) : (t.setTriple k m).wid = t.wid := by
  simp [Troupe.setTriple]
@[simp] theorem Troupe.setTriple_core (k : Nat) (m : LaneMask) : (t.setTriple k m).core = t.core := by
  simp [Troupe.setTriple]
@[simp] theorem Troupe.setTriple_quarter (k : Nat) (m : LaneMask) : (t.setTriple k m).quarter = t.quarter := by
  simp [Troupe.setTriple]
@[simp] theorem Troupe.setTriple_slot (k : Nat) (m : LaneMask) : (t.setTriple k m).slot = t.slot := by
  simp [Troupe.setTriple]
@[simp] theorem Troupe.setTriple_resident (k : Nat) (m : LaneMask) : (t.setTriple k m).resident = t.resident := by
  simp [Troupe.setTriple]
@[simp] theorem Troupe.setTriple_retired (k : Nat) (m : LaneMask) : (t.setTriple k m).retired = t.retired := by
  simp [Troupe.setTriple]
@[simp] theorem Troupe.setTriple_v (k : Nat) (m : LaneMask) : (t.setTriple k m).v = t.v := by
  simp [Troupe.setTriple]
@[simp] theorem Troupe.setTriple_fmt (k : Nat) (m : LaneMask) : (t.setTriple k m).fmt = t.fmt := by
  simp [Troupe.setTriple]
@[simp] theorem Troupe.setTriple_pc (k : Nat) (m : LaneMask) : (t.setTriple k m).pc = t.pc := by
  simp [Troupe.setTriple]
@[simp] theorem Troupe.setTriple_pos (k : Nat) (m : LaneMask) : (t.setTriple k m).pos = t.pos := by
  simp [Troupe.setTriple]
@[simp] theorem Troupe.setTriple_actSerial (k : Nat) (m : LaneMask) : (t.setTriple k m).actSerial = t.actSerial := by
  simp [Troupe.setTriple]
@[simp] theorem Troupe.setTriple_actNext (k : Nat) (m : LaneMask) : (t.setTriple k m).actNext = t.actNext := by
  simp [Troupe.setTriple]
@[simp] theorem Troupe.setTriple_stack (k : Nat) (m : LaneMask) : (t.setTriple k m).stack = t.stack := by
  simp [Troupe.setTriple]
@[simp] theorem Troupe.setTriple_exited (k : Nat) (m : LaneMask) : (t.setTriple k m).exited = t.exited := by
  simp [Troupe.setTriple]
@[simp] theorem Troupe.setTriple_ld (k : Nat) (m : LaneMask) : (t.setTriple k m).ld = t.ld := by
  simp [Troupe.setTriple]
@[simp] theorem Troupe.setTriple_st (k : Nat) (m : LaneMask) : (t.setTriple k m).st = t.st := by
  simp [Troupe.setTriple]
@[simp] theorem Troupe.setTriple_xc (k : Nat) (m : LaneMask) : (t.setTriple k m).xc = t.xc := by
  simp [Troupe.setTriple]
@[simp] theorem Troupe.setTriple_ul (k : Nat) (m : LaneMask) : (t.setTriple k m).ul = t.ul := by
  simp [Troupe.setTriple]
@[simp] theorem Troupe.setTriple_trap (k : Nat) (m : LaneMask) : (t.setTriple k m).trap = t.trap := by
  simp [Troupe.setTriple]
@[simp] theorem Troupe.setTriple_saved (k : Nat) (m : LaneMask) : (t.setTriple k m).saved = t.saved := by
  simp [Troupe.setTriple]
@[simp] theorem Troupe.setTriple_fflags (k : Nat) (m : LaneMask) : (t.setTriple k m).fflags = t.fflags := by
  simp [Troupe.setTriple]
@[simp] theorem Troupe.setTriple_srseed (k : Nat) (m : LaneMask) : (t.setTriple k m).srseed = t.srseed := by
  simp [Troupe.setTriple]
@[simp] theorem Troupe.setTriple_srctr (k : Nat) (m : LaneMask) : (t.setTriple k m).srctr = t.srctr := by
  simp [Troupe.setTriple]
@[simp] theorem Troupe.setTriple_tcause (k : Nat) (m : LaneMask) : (t.setTriple k m).tcause = t.tcause := by
  simp [Troupe.setTriple]
@[simp] theorem Troupe.setTriple_tpc (k : Nat) (m : LaneMask) : (t.setTriple k m).tpc = t.tpc := by
  simp [Troupe.setTriple]
@[simp] theorem Troupe.setTriple_taddr (k : Nat) (m : LaneMask) : (t.setTriple k m).taddr = t.taddr := by
  simp [Troupe.setTriple]
@[simp] theorem Troupe.setTriple_tmask (k : Nat) (m : LaneMask) : (t.setTriple k m).tmask = t.tmask := by
  simp [Troupe.setTriple]
@[simp] theorem Troupe.setTriple_mrp (k : Nat) (m : LaneMask) : (t.setTriple k m).mrp = t.mrp := by
  simp [Troupe.setTriple]
@[simp] theorem Troupe.setTriple_gang (k : Nat) (m : LaneMask) : (t.setTriple k m).gang = t.gang := by
  simp [Troupe.setTriple]
@[simp] theorem Troupe.setTriple_grpsel (k : Nat) (m : LaneMask) : (t.setTriple k m).grpsel = t.grpsel := by
  simp [Troupe.setTriple]
@[simp] theorem Troupe.setTriple_ldstat (k : Nat) (m : LaneMask) : (t.setTriple k m).ldstat = t.ldstat := by
  simp [Troupe.setTriple]
@[simp] theorem Troupe.setTriple_xseq (k : Nat) (m : LaneMask) : (t.setTriple k m).xseq = t.xseq := by
  simp [Troupe.setTriple]
@[simp] theorem Troupe.setTriple_edges (k : Nat) (m : LaneMask) : (t.setTriple k m).edges = t.edges := by
  simp [Troupe.setTriple]
@[simp] theorem Troupe.setTriple_rgrpCount (k : Nat) (m : LaneMask) : (t.setTriple k m).rgrpCount = t.rgrpCount := by
  simp [Troupe.setTriple]
@[simp] theorem Troupe.setTriple_park (k : Nat) (m : LaneMask) : (t.setTriple k m).park = t.park := by
  simp [Troupe.setTriple]
@[simp] theorem Troupe.setTriple_parkedAt (k : Nat) (m : LaneMask) : (t.setTriple k m).parkedAt = t.parkedAt := by
  simp [Troupe.setTriple]
@[simp] theorem Troupe.setTriple_parkResume (k : Nat) (m : LaneMask) : (t.setTriple k m).parkResume = t.parkResume := by
  simp [Troupe.setTriple]
@[simp] theorem Troupe.setTriple_declined (k : Nat) (m : LaneMask) : (t.setTriple k m).declined = t.declined := by
  simp [Troupe.setTriple]
@[simp] theorem Troupe.setTriple_ops (k : Nat) (m : LaneMask) : (t.setTriple k m).ops = t.ops := by
  simp [Troupe.setTriple]
@[simp] theorem Troupe.setTriple_nextOp (k : Nat) (m : LaneMask) : (t.setTriple k m).nextOp = t.nextOp := by
  simp [Troupe.setTriple]
@[simp] theorem Troupe.setTriple_fences (k : Nat) (m : LaneMask) : (t.setTriple k m).fences = t.fences := by
  simp [Troupe.setTriple]
@[simp] theorem Troupe.setTriple_roinvAt (k : Nat) (m : LaneMask) : (t.setTriple k m).roinvAt = t.roinvAt := by
  simp [Troupe.setTriple]

@[simp] theorem Troupe.claimLatch_uniform (o : Troupe) : t.claimLatch o true = t := rfl

end Troupes

end Sys2Proof.Machine
end

