-- ==== Sys2Proof/Laws/Registers.lean ====
section
/-!
SUPPORT. Reading a register after a write: scalar registers, the act registers, lane registers, latches (R74, R78, R87).
-/
namespace Sys2Proof.Machine

/-! ## Lists -/

@[simp] theorem getD_putAt_same {α : Type} (v d : α) : ∀ (xs : List α) (i : Nat), (putAt xs i v d).getD i d = v
  | [], 0 => rfl
  | [], i + 1 => by simpa [putAt] using getD_putAt_same v d [] i
  | _ :: _, 0 => rfl
  | _ :: rest, i + 1 => by simpa [putAt] using getD_putAt_same v d rest i

theorem getD_putAt_other {α : Type} (v d : α) : ∀ (xs : List α) (i j : Nat), j ≠ i →
    (putAt xs i v d).getD j d = xs.getD j d
  | [], 0, 0, h => absurd rfl h
  | [], 0, _ + 1, _ => by simp [putAt]
  | [], _ + 1, 0, _ => by simp [putAt]
  | [], i + 1, j + 1, h => by
    have := getD_putAt_other v d [] i j (by omega)
    simpa [putAt] using this
  | _ :: _, 0, 0, h => absurd rfl h
  | _ :: _, 0, _ + 1, _ => by simp [putAt]
  | _ :: _, _ + 1, 0, _ => by simp [putAt]
  | _ :: rest, i + 1, j + 1, h => by
    have := getD_putAt_other v d rest i j (by omega)
    simpa [putAt] using this

@[simp] theorem listModify_length {α : Type} (g : α → α) : ∀ (xs : List α) (i : Nat), (listModify xs i g).length = xs.length
  | [], _ => rfl
  | _ :: _, 0 => rfl
  | _ :: rest, i + 1 => by simp [listModify, listModify_length g rest i]

theorem getD_listModify_same {α : Type} (g : α → α) (d : α) : ∀ (xs : List α) (i : Nat), i < xs.length →
    (listModify xs i g).getD i d = g (xs.getD i d)
  | [], i, h => by simp at h
  | _ :: _, 0, _ => rfl
  | _ :: rest, i + 1, h => by
    have := getD_listModify_same g d rest i (by simpa using h)
    simpa [listModify] using this

theorem getD_listModify_other {α : Type} (g : α → α) (d : α) : ∀ (xs : List α) (i j : Nat), j ≠ i →
    (listModify xs i g).getD j d = xs.getD j d
  | [], _, _, _ => rfl
  | _ :: _, 0, 0, h => absurd rfl h
  | _ :: _, 0, _ + 1, _ => by simp [listModify]
  | _ :: _, _ + 1, 0, _ => by simp [listModify]
  | _ :: rest, i + 1, j + 1, h => by
    have := getD_listModify_other g d rest i j (by omega)
    simpa [listModify] using this

/-! ## Rows and lane registers -/

theorem rowGet_rowOf (g : Nat → Word) {i : Nat} (h : i < Config.lanes) : rowGet (rowOf g) i = g i := by
  simp [rowGet, rowOf, List.getD_eq_getElem?_getD, h]

/-- A lane register after a write: the active lanes take the value, the others keep theirs (R78). -/
theorem Troupe.vrow_setV_same (t : Troupe) {r i : Nat} (m : LaneMask) (g : Nat → Word) (hr : r < t.v.length)
    (hi : i < Config.lanes) :
    rowGet ((t.setV r m g).vrow r) i = if m.getLsbD i then g i else rowGet (t.vrow r) i := by
  have h : (t.setV r m g).vrow r = rowOf fun i => if m.getLsbD i then g i else rowGet (t.vrow r) i := by
    simp [Troupe.setV, Troupe.vrow, List.getD_eq_getElem?_getD, hr]
  rw [h, rowGet_rowOf _ hi]

theorem Troupe.vrow_setV_other (t : Troupe) {r q : Nat} (m : LaneMask) (g : Nat → Word) (h : q ≠ r) :
    (t.setV r m g).vrow q = t.vrow q := by
  simp [Troupe.setV, Troupe.vrow, List.getD_eq_getElem?_getD, List.getElem?_set_ne (Ne.symm h)]

/-! ## Scalar registers -/

theorem getLsbD_maskOfWords (a b c : Word) (i : Nat) :
    (maskOfWords a b c).getLsbD i = if i < 32 then a.getLsbD i else if i < 64 then b.getLsbD (i - 32) else c.getLsbD (i - 64) := by
  have h : (maskOfWords a b c).getLsbD i = ((c ++ b) ++ a : BitVec (32 + 32 + 32)).getLsbD i := rfl
  have h2 (j : Nat) : (c ++ b : BitVec (32 + 32)).getLsbD j = if j < 32 then b.getLsbD j else c.getLsbD (j - 32) := BitVec.getLsbD_append
  have h3 := @BitVec.getLsbD_append 64 32 i (c ++ b) a
  rw [h]; refine h3.trans ?_
  by_cases h1 : i < 32
  · simp [h1]
  · by_cases h4 : i < 64
    · have : i - 32 < 32 := by omega
      simp [h1, h4, h2, this]
    · have : ¬ i - 32 < 32 := by omega
      have h5 : i - 32 - 32 = i - 64 := by omega
      simp only [h1, h4, if_false]; rw [h2 (i-32)]; simp [this, h5]

theorem getLsbD_maskWord (m : LaneMask) (j i : Nat) (h : i < 32) : (maskWord m j).getLsbD i = m.getLsbD (32 * j + i) := by
  simp [maskWord, h]

theorem maskWord_maskOfWords (a b c : Word) :
    maskWord (maskOfWords a b c) 0 = a ∧ maskWord (maskOfWords a b c) 1 = b ∧ maskWord (maskOfWords a b c) 2 = c := by
  refine ⟨?_, ?_, ?_⟩ <;> (apply BitVec.eq_of_getLsbD_eq; intro i hi; rw [getLsbD_maskWord _ _ _ hi, getLsbD_maskOfWords])
  · simp [hi]
  · have : ¬ 32 * 1 + i < 32 := by omega
    have h2 : 32 * 1 + i < 64 := by omega
    simp [this, h2]
  · have : ¬ 32 * 2 + i < 32 := by omega
    have h2 : ¬ 32 * 2 + i < 64 := by omega
    simp [this, h2]

theorem maskWord_and_not (m e : LaneMask) (j : Nat) (hj : j < 3) :
    maskWord (m &&& ~~~e) j = maskWord m j &&& ~~~maskWord e j := by
  apply BitVec.eq_of_getLsbD_eq
  intro i hi
  have h : 32 * j + i < 96 := by omega
  simp only [getLsbD_maskWord _ _ _ hi, BitVec.getLsbD_and, BitVec.getLsbD_not, hi, h, decide_true, Bool.true_and]

theorem maskWord_maskSetWord (m : LaneMask) (k j : Nat) (w : Word) (hj : j < 3) :
    maskWord (maskSetWord m k w) j = if j = k then w else maskWord m j := by
  obtain ⟨h0, h1, h2⟩ := maskWord_maskOfWords (if k = 0 then w else maskWord m 0) (if k = 1 then w else maskWord m 1)
    (if k = 2 then w else maskWord m 2)
  have : j = 0 ∨ j = 1 ∨ j = 2 := by omega
  rcases this with rfl | rfl | rfl
  · simpa [maskSetWord, eq_comm] using h0
  · simpa [maskSetWord, eq_comm] using h1
  · simpa [maskSetWord, eq_comm] using h2

/-- A scalar register after a write to register `k` (R74): a write to an act register stores 0 for exited lanes (R87),
in all three words. -/
theorem Troupe.sreg_setS (t : Troupe) {k j : Nat} (w : Word) (hk : k < 64) (hj : j < 64) :
    (t.setS k w).sreg j =
      if k < 61 then (if j = k then w else t.sreg j)
      else if j < 61 then t.sreg j
      else (if j = k then w else t.sreg j) &&& ~~~maskWord t.exited (j - 61) := by
  by_cases h : k < 61
  · by_cases hjk : j = k
    · subst hjk
      simp only [Troupe.setS, Troupe.sreg, h, if_true]
      exact getD_putAt_same w 0 t.s j
    · by_cases h2 : j < 61
      · simp only [Troupe.setS, Troupe.sreg, h, h2, hjk, if_true, if_false]
        exact getD_putAt_other _ _ _ _ _ hjk
      · simp [Troupe.setS, Troupe.sreg, h, h2, hjk]
  · by_cases h2 : j < 61
    · simp [Troupe.setS, Troupe.sreg, h, h2]
    · have e : (j - 61 = k - 61) = (j = k) := by
        apply propext; omega
      simp only [Troupe.setS, Troupe.sreg, h, h2, if_false]
      rw [maskWord_and_not _ _ _ (by omega), maskWord_maskSetWord _ _ _ _ (by omega)]
      simp only [e]

/-- Bit `i` of a mask made from a function. -/
theorem foldr_bits_testBit (g : Nat → Bool) : ∀ (n b i : Nat), i < n →
    ((List.range' b n).foldr (fun i n => 2 * n + (if g i then 1 else 0)) 0).testBit i = g (b + i)
  | 0, _, _, h => absurd h (by omega)
  | n + 1, b, 0, _ => by
    cases hg : g b <;> simp [List.range'_succ, hg, Nat.testBit_zero] <;> omega
  | n + 1, b, i + 1, h => by
    have ih := foldr_bits_testBit g n (b + 1) i (by omega)
    rw [List.range'_succ, List.foldr_cons, Nat.testBit_succ]
    have e (x : Nat) : (2 * x + (if g b then 1 else 0)) / 2 = x := by split <;> omega
    rw [e, ih]
    congr 1
    omega

theorem getLsbD_maskOf (g : Nat → Bool) {i : Nat} (h : i < Config.lanes) : (maskOf g).getLsbD i = g i := by
  have h96 : i < 96 := h
  have := foldr_bits_testBit g 96 0 i h96
  rw [maskOf, BitVec.getLsbD_ofNat, List.range_eq_range', Config.lanes, this]
  simp [h96]

end Sys2Proof.Machine
end

