-- ==== Sys2Proof/Laws/Issue.lean ====
section
/-!
SUPPORT. What issuing an instruction can do: which of the decode traps, the interlocks and its own effect happens, and
what its end does to the state (R40, R47, R48, R88, R92).
-/
namespace Sys2Proof.Machine

/-! ## Looking troupes up -/

theorem State.troupe?_uid {s : State} {u : Nat} {t : Troupe} (h : s.troupe? u = some t) : t.uid = u := by
  have := List.find?_some h
  simpa using this

theorem State.current_troupe? {s : State} {t : Troupe} (h : s.current = some t) : s.troupe? t.uid = some t := by
  unfold State.current at h
  split at h
  · have := State.troupe?_uid h
    rw [this, h]
  · cases h

theorem find?_map_uid_same (ts : List Troupe) (u : Nat) (g : Troupe → Troupe) (hg : ∀ x, x.uid = u → (g x).uid = u) :
    (ts.map fun x => if x.uid == u then g x else x).find? (·.uid == u) = (ts.find? (·.uid == u)).map g := by
  induction ts with
  | nil => rfl
  | cons x rest ih =>
    rw [List.map_cons, List.find?_cons, List.find?_cons]
    by_cases h : x.uid = u
    · simp [h, hg x h]
    · simp only [beq_eq_false_iff_ne.2 h, Bool.false_eq_true, if_false]
      exact ih

theorem find?_map_uid_other (ts : List Troupe) (u k : Nat) (g : Troupe → Troupe) (hk : k ≠ u)
    (hg : ∀ x, x.uid = u → (g x).uid = u) :
    (ts.map fun x => if x.uid == u then g x else x).find? (·.uid == k) = ts.find? (·.uid == k) := by
  induction ts with
  | nil => rfl
  | cons x rest ih =>
    rw [List.map_cons, List.find?_cons, List.find?_cons, ih]
    by_cases h : x.uid = u
    · have h1 : (g x).uid ≠ k := by rw [hg x h]; exact fun e => hk e.symm
      have h2 : x.uid ≠ k := by rw [h]; exact fun e => hk e.symm
      rw [beq_iff_eq.2 h, if_pos rfl, beq_eq_false_iff_ne.2 h1, beq_eq_false_iff_ne.2 h2]
    · simp only [beq_eq_false_iff_ne.2 h, Bool.false_eq_true, if_false]

/-- Putting a troupe back: it is found under its uid, every other troupe as before. -/
theorem State.troupe?_setTroupe_same {s : State} {t o : Troupe} (h : s.troupe? t.uid = some o) :
    (s.setTroupe t).troupe? t.uid = some t := by
  have := find?_map_uid_same s.troupes t.uid (fun _ => t) (fun _ _ => rfl)
  unfold State.troupe? at h
  simp only [State.setTroupe, State.troupe?, this, h, Option.map_some]

theorem State.troupe?_setTroupe_other {s : State} {t : Troupe} {u : Nat} (h : u ≠ t.uid) :
    (s.setTroupe t).troupe? u = s.troupe? u :=
  find?_map_uid_other s.troupes t.uid u (fun _ => t) h (fun _ _ => rfl)

@[simp] theorem State.troupe?_releaseQuarter (s : State) (t : Troupe) (u : Nat) :
    (s.releaseQuarter t).troupe? u = s.troupe? u := rfl

/-! ## Issue -/

/-- An instruction that passes the decode checks and waits for nothing has its own effect. -/
theorem issue_own {uniform : Bool} {sh : Shape} {f : Fields} {s : State} {t : Troupe} {body : Troupe → Out}
    (h : s.current = some t) (hd : decodeTrap uniform sh f t = none) (hi : s.interlock? t uniform sh f = none) :
    issue uniform sh f s body = .next (finishInstr t uniform sh f (body t)) := by
  simp [issue, h, hd, hi]

/-- A decode trap comes before everything else (R47). -/
theorem issue_decodeTrap {uniform : Bool} {sh : Shape} {f : Fields} {s : State} {t : Troupe} {body : Troupe → Out}
    {c : Nat} (h : s.current = some t) (hd : decodeTrap uniform sh f t = some c) :
    issue uniform sh f s body = .next (finishInstr t uniform sh f (Out.code s c)) := by
  simp [issue, h, hd]

/-- A value in flight holds the instruction (R40). -/
theorem issue_interlock {uniform : Bool} {sh : Shape} {f : Fields} {s : State} {t : Troupe} {body : Troupe → Out}
    {p : Park} (h : s.current = some t) (hd : decodeTrap uniform sh f t = none)
    (hi : s.interlock? t uniform sh f = some p) :
    issue uniform sh f s body = .next (finishInstr t uniform sh f (.stay s t p)) := by
  simp [issue, h, hd, hi]

/-- Issuing always answers a next state where the troupe exists. -/
theorem issue_next {uniform : Bool} {sh : Shape} {f : Fields} {s : State} {t : Troupe} {body : Troupe → Out}
    (h : s.current = some t) : ∃ s', issue uniform sh f s body = .next s' := by
  unfold issue
  rw [h]
  exact ⟨_, rfl⟩

/-! ## How an instruction ends -/

theorem State.claimLatch_troupe? (s : State) (t0 : Troupe) (u : Bool) (k : Nat) :
    (s.claimLatch t0 u).troupe? k = s.troupe? k := by
  unfold State.claimLatch; split <;> rfl

/-- The troupe after an instruction that completes (R48, R51). -/
theorem finishInstr_done_troupe {t t1 : Troupe} {uniform : Bool} {sh : Shape} {f : Fields} {s1 : State} {l : LatchVal}
    {o : Troupe} (hu : t1.uid = t.uid) (ho : s1.troupe? t.uid = some o) :
    (finishInstr t uniform sh f (.done s1 t1 l)).troupe? t.uid =
      some (let t2 : Troupe := { t1.claimLatch t uniform with
              pc := t.pc + BitVec.ofNat 64 (Fields.len f), pos := t.pos.advance uniform l, park := .run, declined := [] }
            if endsAct t.pos f then t2.newAct else t2) := by
  have key (x : Troupe) (hx : x.uid = t.uid) :
      ((s1.claimLatch t uniform).setTroupe x).troupe? t.uid = some x := by
    rw [← hx]
    exact State.troupe?_setTroupe_same (o := o) (by rw [hx, State.claimLatch_troupe?, ho])
  simp only [finishInstr]
  split
  · rw [State.troupe?_releaseQuarter]
    exact key _ (by simp [hu])
  · exact key _ (by simp [hu])

/-- The other troupes after an instruction that completes. -/
theorem finishInstr_done_other {t t1 : Troupe} {uniform : Bool} {sh : Shape} {f : Fields} {s1 : State} {l : LatchVal}
    {u : Nat} (hu : t1.uid = t.uid) (h : u ≠ t.uid) :
    (finishInstr t uniform sh f (.done s1 t1 l)).troupe? u = s1.troupe? u := by
  have key (x : Troupe) (hx : x.uid = t.uid) :
      ((s1.claimLatch t uniform).setTroupe x).troupe? u = s1.troupe? u := by
    rw [State.troupe?_setTroupe_other (by rw [hx]; exact h), State.claimLatch_troupe?]
  simp only [finishInstr]
  split
  · rw [State.troupe?_releaseQuarter]
    exact key _ (by simp [hu])
  · exact key _ (by simp [hu])

/-- The rest of the state after an instruction that completes: its quarter arbitrates again when the act ends (R137). -/
theorem finishInstr_done_state {t t1 : Troupe} {uniform : Bool} {sh : Shape} {f : Fields} {s1 : State} {l : LatchVal} :
    let s' := finishInstr t uniform sh f (.done s1 t1 l)
    s' = { s1 with troupes := s'.troupes, xchgs := (s1.claimLatch t uniform).xchgs,
                   cores := if endsAct t.pos f then (s1.releaseQuarter t).cores else s1.cores } := by
  by_cases he : endsAct t.pos f = true <;> cases uniform <;>
    simp [finishInstr, he, State.claimLatch, State.releaseQuarter, State.setTroupe, State.updCore]

end Sys2Proof.Machine
end

