-- ==== Sys2Proof/Laws/PerInstr.lean ====
section
/-!
SUPPORT. Per instruction: the code that an instruction is encoded by reads back as that instruction (family CodeRead).
-/
namespace Sys2Proof.Laws.CodeRead

/-- The set, opcode and fields of an instruction, if it has an encoding, are read as that instruction, and the opcode has
eight bits. -/
def Statement (i : Instr) : Prop :=
  ∀ u op f, i.code = some (u, op, f) → (if u then uniformInstr op f else laneInstr op f) = some i ∧ op < 256

theorem iadd : ∀ f, Statement (.iadd f) := fun _ _ _ _ h => by cases h; exact ⟨rfl, by decide⟩
theorem isub : ∀ f, Statement (.isub f) := fun _ _ _ _ h => by cases h; exact ⟨rfl, by decide⟩
theorem imul : ∀ f, Statement (.imul f) := fun _ _ _ _ h => by cases h; exact ⟨rfl, by decide⟩
theorem imulhi : ∀ f, Statement (.imulhi f) := fun _ _ _ _ h => by cases h; exact ⟨rfl, by decide⟩
theorem imulhu : ∀ f, Statement (.imulhu f) := fun _ _ _ _ h => by cases h; exact ⟨rfl, by decide⟩
theorem imad : ∀ f, Statement (.imad f) := fun _ _ _ _ h => by cases h; exact ⟨rfl, by decide⟩
theorem imin : ∀ f, Statement (.imin f) := fun _ _ _ _ h => by cases h; exact ⟨rfl, by decide⟩
theorem imax : ∀ f, Statement (.imax f) := fun _ _ _ _ h => by cases h; exact ⟨rfl, by decide⟩
theorem iminu : ∀ f, Statement (.iminu f) := fun _ _ _ _ h => by cases h; exact ⟨rfl, by decide⟩
theorem imaxu : ∀ f, Statement (.imaxu f) := fun _ _ _ _ h => by cases h; exact ⟨rfl, by decide⟩
theorem iabs : ∀ f, Statement (.iabs f) := fun _ _ _ _ h => by cases h; exact ⟨rfl, by decide⟩
theorem ineg : ∀ f, Statement (.ineg f) := fun _ _ _ _ h => by cases h; exact ⟨rfl, by decide⟩
theorem and : ∀ f, Statement (.and f) := fun _ _ _ _ h => by cases h; exact ⟨rfl, by decide⟩
theorem or : ∀ f, Statement (.or f) := fun _ _ _ _ h => by cases h; exact ⟨rfl, by decide⟩
theorem xor : ∀ f, Statement (.xor f) := fun _ _ _ _ h => by cases h; exact ⟨rfl, by decide⟩
theorem andn : ∀ f, Statement (.andn f) := fun _ _ _ _ h => by cases h; exact ⟨rfl, by decide⟩
theorem shl : ∀ f, Statement (.shl f) := fun _ _ _ _ h => by cases h; exact ⟨rfl, by decide⟩
theorem shr : ∀ f, Statement (.shr f) := fun _ _ _ _ h => by cases h; exact ⟨rfl, by decide⟩
theorem sar : ∀ f, Statement (.sar f) := fun _ _ _ _ h => by cases h; exact ⟨rfl, by decide⟩
theorem rol : ∀ f, Statement (.rol f) := fun _ _ _ _ h => by cases h; exact ⟨rfl, by decide⟩
theorem bfxS : ∀ f, Statement (.bfxS f) := fun _ _ _ _ h => by cases h; exact ⟨rfl, by decide⟩
theorem bfxZ : ∀ f, Statement (.bfxZ f) := fun _ _ _ _ h => by cases h; exact ⟨rfl, by decide⟩
theorem bfi : ∀ f, Statement (.bfi f) := fun _ _ _ _ h => by cases h; exact ⟨rfl, by decide⟩
theorem popc : ∀ f, Statement (.popc f) := fun _ _ _ _ h => by cases h; exact ⟨rfl, by decide⟩
theorem clz : ∀ f, Statement (.clz f) := fun _ _ _ _ h => by cases h; exact ⟨rfl, by decide⟩
theorem ctz : ∀ f, Statement (.ctz f) := fun _ _ _ _ h => by cases h; exact ⟨rfl, by decide⟩
theorem brev : ∀ f, Statement (.brev f) := fun _ _ _ _ h => by cases h; exact ⟨rfl, by decide⟩
theorem gathb : ∀ f, Statement (.gathb f) := fun _ _ _ _ h => by cases h; exact ⟨rfl, by decide⟩
theorem lea : ∀ f, Statement (.lea f) := fun _ _ _ _ h => by cases h; exact ⟨rfl, by decide⟩
theorem mov : ∀ f, Statement (.mov f) := fun _ _ _ _ h => by cases h; exact ⟨rfl, by decide⟩
theorem sel : ∀ f, Statement (.sel f) := fun _ _ _ _ h => by cases h; exact ⟨rfl, by decide⟩
theorem iadd64 : ∀ f, Statement (.iadd64 f) := fun _ _ _ _ h => by cases h; exact ⟨rfl, by decide⟩
theorem isub64 : ∀ f, Statement (.isub64 f) := fun _ _ _ _ h => by cases h; exact ⟨rfl, by decide⟩
theorem imad64 : ∀ f, Statement (.imad64 f) := fun _ _ _ _ h => by cases h; exact ⟨rfl, by decide⟩
theorem shl64 : ∀ f, Statement (.shl64 f) := fun _ _ _ _ h => by cases h; exact ⟨rfl, by decide⟩
theorem shr64 : ∀ f, Statement (.shr64 f) := fun _ _ _ _ h => by cases h; exact ⟨rfl, by decide⟩
theorem icmpEq : ∀ f, Statement (.icmpEq f) := fun _ _ _ _ h => by cases h; exact ⟨rfl, by decide⟩
theorem icmpNe : ∀ f, Statement (.icmpNe f) := fun _ _ _ _ h => by cases h; exact ⟨rfl, by decide⟩
theorem icmpLt : ∀ f, Statement (.icmpLt f) := fun _ _ _ _ h => by cases h; exact ⟨rfl, by decide⟩
theorem icmpLe : ∀ f, Statement (.icmpLe f) := fun _ _ _ _ h => by cases h; exact ⟨rfl, by decide⟩
theorem icmpGt : ∀ f, Statement (.icmpGt f) := fun _ _ _ _ h => by cases h; exact ⟨rfl, by decide⟩
theorem icmpGe : ∀ f, Statement (.icmpGe f) := fun _ _ _ _ h => by cases h; exact ⟨rfl, by decide⟩
theorem icmpLtu : ∀ f, Statement (.icmpLtu f) := fun _ _ _ _ h => by cases h; exact ⟨rfl, by decide⟩
theorem icmpLeu : ∀ f, Statement (.icmpLeu f) := fun _ _ _ _ h => by cases h; exact ⟨rfl, by decide⟩
theorem icmpGtu : ∀ f, Statement (.icmpGtu f) := fun _ _ _ _ h => by cases h; exact ⟨rfl, by decide⟩
theorem icmpGeu : ∀ f, Statement (.icmpGeu f) := fun _ _ _ _ h => by cases h; exact ⟨rfl, by decide⟩
theorem fadd : ∀ f, Statement (.fadd f) := fun _ _ _ _ h => by cases h; exact ⟨rfl, by decide⟩
theorem fsub : ∀ f, Statement (.fsub f) := fun _ _ _ _ h => by cases h; exact ⟨rfl, by decide⟩
theorem fmul : ∀ f, Statement (.fmul f) := fun _ _ _ _ h => by cases h; exact ⟨rfl, by decide⟩
theorem ffma : ∀ f, Statement (.ffma f) := fun _ _ _ _ h => by cases h; exact ⟨rfl, by decide⟩
theorem fmin : ∀ f, Statement (.fmin f) := fun _ _ _ _ h => by cases h; exact ⟨rfl, by decide⟩
theorem fmax : ∀ f, Statement (.fmax f) := fun _ _ _ _ h => by cases h; exact ⟨rfl, by decide⟩
theorem fclass : ∀ f, Statement (.fclass f) := fun _ _ _ _ h => by cases h; exact ⟨rfl, by decide⟩
theorem fcpys : ∀ f, Statement (.fcpys f) := fun _ _ _ _ h => by cases h; exact ⟨rfl, by decide⟩
theorem fcmpEq : ∀ f, Statement (.fcmpEq f) := fun _ _ _ _ h => by cases h; exact ⟨rfl, by decide⟩
theorem fcmpNe : ∀ f, Statement (.fcmpNe f) := fun _ _ _ _ h => by cases h; exact ⟨rfl, by decide⟩
theorem fcmpLt : ∀ f, Statement (.fcmpLt f) := fun _ _ _ _ h => by cases h; exact ⟨rfl, by decide⟩
theorem fcmpLe : ∀ f, Statement (.fcmpLe f) := fun _ _ _ _ h => by cases h; exact ⟨rfl, by decide⟩
theorem fcmpGt : ∀ f, Statement (.fcmpGt f) := fun _ _ _ _ h => by cases h; exact ⟨rfl, by decide⟩
theorem fcmpGe : ∀ f, Statement (.fcmpGe f) := fun _ _ _ _ h => by cases h; exact ⟨rfl, by decide⟩
theorem fcmpUno : ∀ f, Statement (.fcmpUno f) := fun _ _ _ _ h => by cases h; exact ⟨rfl, by decide⟩
theorem fcmpOrd : ∀ f, Statement (.fcmpOrd f) := fun _ _ _ _ h => by cases h; exact ⟨rfl, by decide⟩
theorem frndRn : ∀ f, Statement (.frndRn f) := fun _ _ _ _ h => by cases h; exact ⟨rfl, by decide⟩
theorem frndRz : ∀ f, Statement (.frndRz f) := fun _ _ _ _ h => by cases h; exact ⟨rfl, by decide⟩
theorem frndRd : ∀ f, Statement (.frndRd f) := fun _ _ _ _ h => by cases h; exact ⟨rfl, by decide⟩
theorem frndRu : ∀ f, Statement (.frndRu f) := fun _ _ _ _ h => by cases h; exact ⟨rfl, by decide⟩
theorem p2addBf : ∀ f, Statement (.p2addBf f) := fun _ _ _ _ h => by cases h; exact ⟨rfl, by decide⟩
theorem p2addHf : ∀ f, Statement (.p2addHf f) := fun _ _ _ _ h => by cases h; exact ⟨rfl, by decide⟩
theorem p2mulBf : ∀ f, Statement (.p2mulBf f) := fun _ _ _ _ h => by cases h; exact ⟨rfl, by decide⟩
theorem p2mulHf : ∀ f, Statement (.p2mulHf f) := fun _ _ _ _ h => by cases h; exact ⟨rfl, by decide⟩
theorem p2fmaBf : ∀ f, Statement (.p2fmaBf f) := fun _ _ _ _ h => by cases h; exact ⟨rfl, by decide⟩
theorem p2fmaHf : ∀ f, Statement (.p2fmaHf f) := fun _ _ _ _ h => by cases h; exact ⟨rfl, by decide⟩
theorem p2minBf : ∀ f, Statement (.p2minBf f) := fun _ _ _ _ h => by cases h; exact ⟨rfl, by decide⟩
theorem p2minHf : ∀ f, Statement (.p2minHf f) := fun _ _ _ _ h => by cases h; exact ⟨rfl, by decide⟩
theorem p2maxBf : ∀ f, Statement (.p2maxBf f) := fun _ _ _ _ h => by cases h; exact ⟨rfl, by decide⟩
theorem p2maxHf : ∀ f, Statement (.p2maxHf f) := fun _ _ _ _ h => by cases h; exact ⟨rfl, by decide⟩
theorem frcp : ∀ f, Statement (.frcp f) := fun _ _ _ _ h => by cases h; exact ⟨rfl, by decide⟩
theorem frsq : ∀ f, Statement (.frsq f) := fun _ _ _ _ h => by cases h; exact ⟨rfl, by decide⟩
theorem fsqrt : ∀ f, Statement (.fsqrt f) := fun _ _ _ _ h => by cases h; exact ⟨rfl, by decide⟩
theorem fex2 : ∀ f, Statement (.fex2 f) := fun _ _ _ _ h => by cases h; exact ⟨rfl, by decide⟩
theorem flg2 : ∀ f, Statement (.flg2 f) := fun _ _ _ _ h => by cases h; exact ⟨rfl, by decide⟩
theorem fsin : ∀ f, Statement (.fsin f) := fun _ _ _ _ h => by cases h; exact ⟨rfl, by decide⟩
theorem fcos : ∀ f, Statement (.fcos f) := fun _ _ _ _ h => by cases h; exact ⟨rfl, by decide⟩
theorem ftanh : ∀ f, Statement (.ftanh f) := fun _ _ _ _ h => by cases h; exact ⟨rfl, by decide⟩
theorem cvt : ∀ f, Statement (.cvt f) := fun _ _ _ _ h => by cases h; exact ⟨rfl, by decide⟩
theorem cvtpk : ∀ f, Statement (.cvtpk f) := fun _ _ _ _ h => by cases h; exact ⟨rfl, by decide⟩
theorem cvtunpk : ∀ f, Statement (.cvtunpk f) := fun _ _ _ _ h => by cases h; exact ⟨rfl, by decide⟩
theorem cvtbs : ∀ f, Statement (.cvtbs f) := fun _ _ _ _ h => by cases h; exact ⟨rfl, by decide⟩
theorem cvtmx : ∀ f, Statement (.cvtmx f) := fun _ _ _ _ h => by cases h; exact ⟨rfl, by decide⟩
theorem sclx : ∀ f, Statement (.sclx f) := fun _ _ _ _ h => by cases h; exact ⟨rfl, by decide⟩
theorem nbl : ∀ f, Statement (.nbl f) := fun _ _ _ _ h => by cases h; exact ⟨rfl, by decide⟩
theorem nbr : ∀ f, Statement (.nbr f) := fun _ _ _ _ h => by cases h; exact ⟨rfl, by decide⟩
theorem lgetAt : ∀ f, Statement (.lgetAt f) := fun _ _ _ _ h => by cases h; exact ⟨rfl, by decide⟩
theorem lgetFlip : ∀ f, Statement (.lgetFlip f) := fun _ _ _ _ h => by cases h; exact ⟨rfl, by decide⟩
theorem lgetRot : ∀ f, Statement (.lgetRot f) := fun _ _ _ _ h => by cases h; exact ⟨rfl, by decide⟩
theorem lgetSh : ∀ f, Statement (.lgetSh f) := fun _ _ _ _ h => by cases h; exact ⟨rfl, by decide⟩
theorem pollSome : ∀ f, Statement (.pollSome f) := fun _ _ _ _ h => by cases h; exact ⟨rfl, by decide⟩
theorem pollEvery : ∀ f, Statement (.pollEvery f) := fun _ _ _ _ h => by cases h; exact ⟨rfl, by decide⟩
theorem pollMap : ∀ f, Statement (.pollMap f) := fun _ _ _ _ h => by cases h; exact ⟨rfl, by decide⟩
theorem redf : ∀ f, Statement (.redf f) := fun _ _ _ _ h => by cases h; exact ⟨rfl, by decide⟩
theorem redi : ∀ f, Statement (.redi f) := fun _ _ _ _ h => by cases h; exact ⟨rfl, by decide⟩
theorem pfxfAdd : ∀ f, Statement (.pfxfAdd f) := fun _ _ _ _ h => by cases h; exact ⟨rfl, by decide⟩
theorem pfxiAdd : ∀ f, Statement (.pfxiAdd f) := fun _ _ _ _ h => by cases h; exact ⟨rfl, by decide⟩
theorem xchg : ∀ f, Statement (.xchg f) := fun _ _ _ _ h => by cases h; exact ⟨rfl, by decide⟩
theorem rgrp : ∀ f, Statement (.rgrp f) := fun _ _ _ _ h => by cases h; exact ⟨rfl, by decide⟩
theorem ldG : ∀ f, Statement (.ldG f) := fun _ _ _ _ h => by cases h; exact ⟨rfl, by decide⟩
theorem stG : ∀ f, Statement (.stG f) := fun _ _ _ _ h => by cases h; exact ⟨rfl, by decide⟩
theorem ldSp : ∀ f, Statement (.ldSp f) := fun _ _ _ _ h => by cases h; exact ⟨rfl, by decide⟩
theorem stSp : ∀ f, Statement (.stSp f) := fun _ _ _ _ h => by cases h; exact ⟨rfl, by decide⟩
theorem ldSpE : ∀ f, Statement (.ldSpE f) := fun _ _ _ _ h => by cases h; exact ⟨rfl, by decide⟩
theorem stSpF : ∀ f, Statement (.stSpF f) := fun _ _ _ _ h => by cases h; exact ⟨rfl, by decide⟩
theorem ldro : ∀ f, Statement (.ldro f) := fun _ _ _ _ h => by cases h; exact ⟨rfl, by decide⟩
theorem ldgr : ∀ f, Statement (.ldgr f) := fun _ _ _ _ h => by cases h; exact ⟨rfl, by decide⟩
theorem atom : ∀ f, Statement (.atom f) := fun _ _ _ _ h => by cases h; exact ⟨rfl, by decide⟩
theorem atomSp : ∀ f, Statement (.atomSp f) := fun _ _ _ _ h => by cases h; exact ⟨rfl, by decide⟩
theorem bcdec : ∀ f, Statement (.bcdec f) := fun _ _ _ _ h => by cases h; exact ⟨rfl, by decide⟩
theorem bcinc : ∀ f, Statement (.bcinc f) := fun _ _ _ _ h => by cases h; exact ⟨rfl, by decide⟩
theorem bcread : ∀ f, Statement (.bcread f) := fun _ _ _ _ h => by cases h; exact ⟨rfl, by decide⟩
theorem rank1 : ∀ f, Statement (.rank1 f) := fun _ _ _ _ h => by cases h; exact ⟨rfl, by decide⟩
theorem rank0 : ∀ f, Statement (.rank0 f) := fun _ _ _ _ h => by cases h; exact ⟨rfl, by decide⟩
theorem sel1 : ∀ f, Statement (.sel1 f) := fun _ _ _ _ h => by cases h; exact ⟨rfl, by decide⟩
theorem sel0 : ∀ f, Statement (.sel0 f) := fun _ _ _ _ h => by cases h; exact ⟨rfl, by decide⟩
theorem fclose : ∀ f, Statement (.fclose f) := fun _ _ _ _ h => by cases h; exact ⟨rfl, by decide⟩
theorem fopen : ∀ f, Statement (.fopen f) := fun _ _ _ _ h => by cases h; exact ⟨rfl, by decide⟩
theorem encl : ∀ f, Statement (.encl f) := fun _ _ _ _ h => by cases h; exact ⟨rfl, by decide⟩
theorem bsins : ∀ f, Statement (.bsins f) := fun _ _ _ _ h => by cases h; exact ⟨rfl, by decide⟩
theorem bsdel : ∀ f, Statement (.bsdel f) := fun _ _ _ _ h => by cases h; exact ⟨rfl, by decide⟩
theorem sadd : ∀ f, Statement (.sadd f) := fun _ _ _ _ h => by cases h; exact ⟨rfl, by decide⟩
theorem ssub : ∀ f, Statement (.ssub f) := fun _ _ _ _ h => by cases h; exact ⟨rfl, by decide⟩
theorem smul : ∀ f, Statement (.smul f) := fun _ _ _ _ h => by cases h; exact ⟨rfl, by decide⟩
theorem smulhi : ∀ f, Statement (.smulhi f) := fun _ _ _ _ h => by cases h; exact ⟨rfl, by decide⟩
theorem smad : ∀ f, Statement (.smad f) := fun _ _ _ _ h => by cases h; exact ⟨rfl, by decide⟩
theorem smin : ∀ f, Statement (.smin f) := fun _ _ _ _ h => by cases h; exact ⟨rfl, by decide⟩
theorem smax : ∀ f, Statement (.smax f) := fun _ _ _ _ h => by cases h; exact ⟨rfl, by decide⟩
theorem sand : ∀ f, Statement (.sand f) := fun _ _ _ _ h => by cases h; exact ⟨rfl, by decide⟩
theorem sor : ∀ f, Statement (.sor f) := fun _ _ _ _ h => by cases h; exact ⟨rfl, by decide⟩
theorem sxor : ∀ f, Statement (.sxor f) := fun _ _ _ _ h => by cases h; exact ⟨rfl, by decide⟩
theorem sandn : ∀ f, Statement (.sandn f) := fun _ _ _ _ h => by cases h; exact ⟨rfl, by decide⟩
theorem sshl : ∀ f, Statement (.sshl f) := fun _ _ _ _ h => by cases h; exact ⟨rfl, by decide⟩
theorem sshr : ∀ f, Statement (.sshr f) := fun _ _ _ _ h => by cases h; exact ⟨rfl, by decide⟩
theorem ssar : ∀ f, Statement (.ssar f) := fun _ _ _ _ h => by cases h; exact ⟨rfl, by decide⟩
theorem sbfx : ∀ f, Statement (.sbfx f) := fun _ _ _ _ h => by cases h; exact ⟨rfl, by decide⟩
theorem sbfi : ∀ f, Statement (.sbfi f) := fun _ _ _ _ h => by cases h; exact ⟨rfl, by decide⟩
theorem spopc : ∀ f, Statement (.spopc f) := fun _ _ _ _ h => by cases h; exact ⟨rfl, by decide⟩
theorem sffs : ∀ f, Statement (.sffs f) := fun _ _ _ _ h => by cases h; exact ⟨rfl, by decide⟩
theorem ssel : ∀ f, Statement (.ssel f) := fun _ _ _ _ h => by cases h; exact ⟨rfl, by decide⟩
theorem smov : ∀ f, Statement (.smov f) := fun _ _ _ _ h => by cases h; exact ⟨rfl, by decide⟩
theorem sadd64 : ∀ f, Statement (.sadd64 f) := fun _ _ _ _ h => by cases h; exact ⟨rfl, by decide⟩
theorem slea : ∀ f, Statement (.slea f) := fun _ _ _ _ h => by cases h; exact ⟨rfl, by decide⟩
theorem lanerd : ∀ f, Statement (.lanerd f) := fun _ _ _ _ h => by cases h; exact ⟨rfl, by decide⟩
theorem lanewr : ∀ f, Statement (.lanewr f) := fun _ _ _ _ h => by cases h; exact ⟨rfl, by decide⟩
theorem scmpEq : ∀ f, Statement (.scmpEq f) := fun _ _ _ _ h => by cases h; exact ⟨rfl, by decide⟩
theorem scmpNe : ∀ f, Statement (.scmpNe f) := fun _ _ _ _ h => by cases h; exact ⟨rfl, by decide⟩
theorem scmpLt : ∀ f, Statement (.scmpLt f) := fun _ _ _ _ h => by cases h; exact ⟨rfl, by decide⟩
theorem scmpLe : ∀ f, Statement (.scmpLe f) := fun _ _ _ _ h => by cases h; exact ⟨rfl, by decide⟩
theorem scmpGt : ∀ f, Statement (.scmpGt f) := fun _ _ _ _ h => by cases h; exact ⟨rfl, by decide⟩
theorem scmpGe : ∀ f, Statement (.scmpGe f) := fun _ _ _ _ h => by cases h; exact ⟨rfl, by decide⟩
theorem scmpLtu : ∀ f, Statement (.scmpLtu f) := fun _ _ _ _ h => by cases h; exact ⟨rfl, by decide⟩
theorem scmpLeu : ∀ f, Statement (.scmpLeu f) := fun _ _ _ _ h => by cases h; exact ⟨rfl, by decide⟩
theorem scmpGtu : ∀ f, Statement (.scmpGtu f) := fun _ _ _ _ h => by cases h; exact ⟨rfl, by decide⟩
theorem scmpGeu : ∀ f, Statement (.scmpGeu f) := fun _ _ _ _ h => by cases h; exact ⟨rfl, by decide⟩
theorem bra : ∀ f, Statement (.bra f) := fun _ _ _ _ h => by cases h; exact ⟨rfl, by decide⟩
theorem brcZ : ∀ f, Statement (.brcZ f) := fun _ _ _ _ h => by cases h; exact ⟨rfl, by decide⟩
theorem brcNz : ∀ f, Statement (.brcNz f) := fun _ _ _ _ h => by cases h; exact ⟨rfl, by decide⟩
theorem brd : ∀ f, Statement (.brd f) := fun _ _ _ _ h => by cases h; exact ⟨rfl, by decide⟩
theorem brx : ∀ f, Statement (.brx f) := fun _ _ _ _ h => by cases h; exact ⟨rfl, by decide⟩
theorem brxL : ∀ f, Statement (.brxL f) := fun _ _ _ _ h => by cases h; exact ⟨rfl, by decide⟩
theorem call : ∀ f, Statement (.call f) := fun _ _ _ _ h => by cases h; exact ⟨rfl, by decide⟩
theorem ret : ∀ f, Statement (.ret f) := fun _ _ _ _ h => by cases h; exact ⟨rfl, by decide⟩
theorem wait : ∀ f, Statement (.wait f) := fun _ _ _ _ h => by cases h; exact ⟨rfl, by decide⟩
theorem waittl : ∀ f, Statement (.waittl f) := fun _ _ _ _ h => by cases h; exact ⟨rfl, by decide⟩
theorem tlinc : ∀ f, Statement (.tlinc f) := fun _ _ _ _ h => by cases h; exact ⟨rfl, by decide⟩
theorem yield : ∀ f, Statement (.yield f) := fun _ _ _ _ h => by cases h; exact ⟨rfl, by decide⟩
theorem yieldc : ∀ f, Statement (.yieldc f) := fun _ _ _ _ h => by cases h; exact ⟨rfl, by decide⟩
theorem bari : ∀ f, Statement (.bari f) := fun _ _ _ _ h => by cases h; exact ⟨rfl, by decide⟩
theorem bara : ∀ f, Statement (.bara f) := fun _ _ _ _ h => by cases h; exact ⟨rfl, by decide⟩
theorem barw : ∀ f, Statement (.barw f) := fun _ _ _ _ h => by cases h; exact ⟨rfl, by decide⟩
theorem baro : ∀ f, Statement (.baro f) := fun _ _ _ _ h => by cases h; exact ⟨rfl, by decide⟩
theorem fence : ∀ f, Statement (.fence f) := fun _ _ _ _ h => by cases h; exact ⟨rfl, by decide⟩
theorem roinv : ∀ f, Statement (.roinv f) := fun _ _ _ _ h => by cases h; exact ⟨rfl, by decide⟩
theorem waitm : ∀ f, Statement (.waitm f) := fun _ _ _ _ h => by cases h; exact ⟨rfl, by decide⟩
theorem gbar : ∀ f, Statement (.gbar f) := fun _ _ _ _ h => by cases h; exact ⟨rfl, by decide⟩
theorem tail : ∀ f, Statement (.tail f) := fun _ _ _ _ h => by cases h; exact ⟨rfl, by decide⟩
theorem setgrp : ∀ f, Statement (.setgrp f) := fun _ _ _ _ h => by cases h; exact ⟨rfl, by decide⟩
theorem gang : ∀ f, Statement (.gang f) := fun _ _ _ _ h => by cases h; exact ⟨rfl, by decide⟩
theorem mma : ∀ f, Statement (.mma f) := fun _ _ _ _ h => by cases h; exact ⟨rfl, by decide⟩
theorem mzero : ∀ f, Statement (.mzero f) := fun _ _ _ _ h => by cases h; exact ⟨rfl, by decide⟩
theorem mdrain : ∀ f, Statement (.mdrain f) := fun _ _ _ _ h => by cases h; exact ⟨rfl, by decide⟩
theorem thflush : ∀ f, Statement (.thflush f) := fun _ _ _ _ h => by cases h; exact ⟨rfl, by decide⟩
theorem cpy : ∀ f, Statement (.cpy f) := fun _ _ _ _ h => by cases h; exact ⟨rfl, by decide⟩
theorem cpyl : ∀ f, Statement (.cpyl f) := fun _ _ _ _ h => by cases h; exact ⟨rfl, by decide⟩
theorem bkload : ∀ f, Statement (.bkload f) := fun _ _ _ _ h => by cases h; exact ⟨rfl, by decide⟩
theorem bkcmd : ∀ f, Statement (.bkcmd f) := fun _ _ _ _ h => by cases h; exact ⟨rfl, by decide⟩
theorem scanq : ∀ f, Statement (.scanq f) := fun _ _ _ _ h => by cases h; exact ⟨rfl, by decide⟩
theorem cleanr : ∀ f, Statement (.cleanr f) := fun _ _ _ _ h => by cases h; exact ⟨rfl, by decide⟩
theorem invr : ∀ f, Statement (.invr f) := fun _ _ _ _ h => by cases h; exact ⟨rfl, by decide⟩
theorem flushr : ∀ f, Statement (.flushr f) := fun _ _ _ _ h => by cases h; exact ⟨rfl, by decide⟩
theorem bcinit : ∀ f, Statement (.bcinit f) := fun _ _ _ _ h => by cases h; exact ⟨rfl, by decide⟩
theorem setfmt : ∀ f, Statement (.setfmt f) := fun _ _ _ _ h => by cases h; exact ⟨rfl, by decide⟩
theorem getfmt : ∀ f, Statement (.getfmt f) := fun _ _ _ _ h => by cases h; exact ⟨rfl, by decide⟩
theorem srd : ∀ f, Statement (.srd f) := fun _ _ _ _ h => by cases h; exact ⟨rfl, by decide⟩
theorem swr : ∀ f, Statement (.swr f) := fun _ _ _ _ h => by cases h; exact ⟨rfl, by decide⟩
theorem trap : ∀ f, Statement (.trap f) := fun _ _ _ _ h => by cases h; exact ⟨rfl, by decide⟩
theorem bkpt : ∀ f, Statement (.bkpt f) := fun _ _ _ _ h => by cases h; exact ⟨rfl, by decide⟩
theorem nop : ∀ f, Statement (.nop f) := fun _ _ _ _ h => by cases h; exact ⟨rfl, by decide⟩
theorem unassignedOpcode : ∀ x0, Statement (.unassignedOpcode x0) := fun _ _ _ _ h => nomatch h
theorem instructionFetchFault : Statement (.instructionFetchFault) := fun _ _ _ h => nomatch h
theorem actSelect : ∀ x0 x1, Statement (.actSelect x0 x1) := fun _ _ _ _ _ h => nomatch h
theorem loadReturn : ∀ x0 x1 x2, Statement (.loadReturn x0 x1 x2) := fun _ _ _ _ _ _ h => nomatch h
theorem storePerform : ∀ x0 x1 x2, Statement (.storePerform x0 x1 x2) := fun _ _ _ _ _ _ h => nomatch h
theorem atomicPerform : ∀ x0 x1 x2, Statement (.atomicPerform x0 x1 x2) := fun _ _ _ _ _ _ h => nomatch h
theorem emptyLineFill : ∀ x0 x1, Statement (.emptyLineFill x0 x1) := fun _ _ _ _ _ h => nomatch h
theorem emptyTimeout : ∀ x0, Statement (.emptyTimeout x0) := fun _ _ _ _ h => nomatch h
theorem yieldcResume : ∀ x0, Statement (.yieldcResume x0) := fun _ _ _ _ h => nomatch h
theorem edgeValueArrival : ∀ x0 x1, Statement (.edgeValueArrival x0 x1) := fun _ _ _ _ _ h => nomatch h
theorem trackerRelease : ∀ x0 x1, Statement (.trackerRelease x0 x1) := fun _ _ _ _ _ h => nomatch h
theorem companyRetire : ∀ x0, Statement (.companyRetire x0) := fun _ _ _ _ h => nomatch h
theorem engineComplete : ∀ x0 x1, Statement (.engineComplete x0 x1) := fun _ _ _ _ _ h => nomatch h
theorem copyTransfer : ∀ x0 x1 x2 x3, Statement (.copyTransfer x0 x1 x2 x3) := fun _ _ _ _ _ _ _ h => nomatch h
theorem transformTransfer : ∀ x0 x1 x2 x3, Statement (.transformTransfer x0 x1 x2 x3) := fun _ _ _ _ _ _ _ h => nomatch h
theorem mmaExecute : ∀ x0 x1, Statement (.mmaExecute x0 x1) := fun _ _ _ _ _ h => nomatch h
theorem operandFetchPark : ∀ x0 x1, Statement (.operandFetchPark x0 x1) := fun _ _ _ _ _ h => nomatch h
theorem operandFetchResume : ∀ x0 x1, Statement (.operandFetchResume x0 x1) := fun _ _ _ _ _ h => nomatch h
theorem mdrainExecute : ∀ x0 x1 x2, Statement (.mdrainExecute x0 x1 x2) := fun _ _ _ _ _ _ h => nomatch h
theorem mzeroExecute : ∀ x0 x1, Statement (.mzeroExecute x0 x1) := fun _ _ _ _ _ h => nomatch h
theorem busOffer : ∀ x0 x1, Statement (.busOffer x0 x1) := fun _ _ _ _ _ h => nomatch h
theorem busWindowExpiry : ∀ x0, Statement (.busWindowExpiry x0) := fun _ _ _ _ h => nomatch h
theorem busPairSplit : ∀ x0, Statement (.busPairSplit x0) := fun _ _ _ _ h => nomatch h
theorem requestRefusal : ∀ x0 x1 x2, Statement (.requestRefusal x0 x1 x2) := fun _ _ _ _ _ _ h => nomatch h
theorem requestResend : ∀ x0 x1, Statement (.requestResend x0 x1) := fun _ _ _ _ _ h => nomatch h
theorem ownershipRecall : ∀ x0, Statement (.ownershipRecall x0) := fun _ _ _ _ h => nomatch h
theorem rdcInvalidation : ∀ x0 x1, Statement (.rdcInvalidation x0 x1) := fun _ _ _ _ _ h => nomatch h
theorem l2Eviction : ∀ x0 x1, Statement (.l2Eviction x0 x1) := fun _ _ _ _ _ h => nomatch h
theorem bcMissRequest : ∀ x0 x1 x2, Statement (.bcMissRequest x0 x1 x2) := fun _ _ _ _ _ _ h => nomatch h
theorem groupLoadComplete : ∀ x0 x1, Statement (.groupLoadComplete x0 x1) := fun _ _ _ _ _ h => nomatch h
theorem queryPerform : ∀ x0 x1 x2, Statement (.queryPerform x0 x1 x2) := fun _ _ _ _ _ _ h => nomatch h
theorem backgroundRepair : ∀ x0 x1 x2, Statement (.backgroundRepair x0 x1 x2) := fun _ _ _ _ _ _ h => nomatch h
theorem editPerform : ∀ x0 x1, Statement (.editPerform x0 x1) := fun _ _ _ _ _ h => nomatch h
theorem editInterrupt : ∀ x0 x1, Statement (.editInterrupt x0 x1) := fun _ _ _ _ _ h => nomatch h
theorem bkloadExecute : ∀ x0 x1, Statement (.bkloadExecute x0 x1) := fun _ _ _ _ _ h => nomatch h
theorem bankCommandRun : ∀ x0 x1 x2, Statement (.bankCommandRun x0 x1 x2) := fun _ _ _ _ _ _ h => nomatch h
theorem bankWatchdog : ∀ x0 x1 x2, Statement (.bankWatchdog x0 x1 x2) := fun _ _ _ _ _ _ h => nomatch h
theorem scanRun : ∀ x0 x1, Statement (.scanRun x0 x1) := fun _ _ _ _ _ h => nomatch h
theorem maintenanceRun : ∀ x0 x1 x2, Statement (.maintenanceRun x0 x1 x2) := fun _ _ _ _ _ _ h => nomatch h
theorem pageMigration : ∀ x0 x1, Statement (.pageMigration x0 x1) := fun _ _ _ _ _ h => nomatch h
theorem pageDemotion : ∀ x0 x1 x2, Statement (.pageDemotion x0 x1 x2) := fun _ _ _ _ _ _ h => nomatch h
theorem hotPagePromotion : ∀ x0, Statement (.hotPagePromotion x0) := fun _ _ _ _ h => nomatch h
theorem entryCheck : ∀ x0, Statement (.entryCheck x0) := fun _ _ _ _ h => nomatch h
theorem dependencePoll : ∀ x0, Statement (.dependencePoll x0) := fun _ _ _ _ h => nomatch h
theorem launchStart : Statement (.launchStart) := fun _ _ _ h => nomatch h
theorem allResidentPlace : ∀ x0 x1, Statement (.allResidentPlace x0 x1) := fun _ _ _ _ _ h => nomatch h
theorem companyAdmit : ∀ x0 x1, Statement (.companyAdmit x0 x1) := fun _ _ _ _ _ h => nomatch h
theorem rangeStealing : ∀ x0, Statement (.rangeStealing x0) := fun _ _ _ _ h => nomatch h
theorem prewaitExpiry : ∀ x0 x1, Statement (.prewaitExpiry x0 x1) := fun _ _ _ _ _ h => nomatch h
theorem preemptCompany : ∀ x0, Statement (.preemptCompany x0) := fun _ _ _ _ h => nomatch h
theorem companyResume : ∀ x0 x1, Statement (.companyResume x0 x1) := fun _ _ _ _ _ h => nomatch h
theorem launchComplete : ∀ x0, Statement (.launchComplete x0) := fun _ _ _ _ h => nomatch h
theorem gbarArrival : ∀ x0, Statement (.gbarArrival x0) := fun _ _ _ _ h => nomatch h
theorem messageWrite : Statement (.messageWrite) := fun _ _ _ h => nomatch h
theorem qtailWrite : ∀ x0 x1, Statement (.qtailWrite x0 x1) := fun _ _ _ _ _ h => nomatch h
theorem abort : ∀ x0, Statement (.abort x0) := fun _ _ _ _ h => nomatch h
theorem preempt : ∀ x0, Statement (.preempt x0) := fun _ _ _ _ h => nomatch h
theorem rmfrespWrite : ∀ x0, Statement (.rmfrespWrite x0) := fun _ _ _ _ h => nomatch h
theorem rmshootWrite : ∀ x0, Statement (.rmshootWrite x0) := fun _ _ _ _ h => nomatch h
theorem shootDownDone : ∀ x0, Statement (.shootDownDone x0) := fun _ _ _ _ h => nomatch h
theorem rmmsgheadWrite : ∀ x0, Statement (.rmmsgheadWrite x0) := fun _ _ _ _ h => nomatch h
theorem rmmsgsizeWrite : ∀ x0, Statement (.rmmsgsizeWrite x0) := fun _ _ _ _ h => nomatch h
theorem attctlWrite : ∀ x0, Statement (.attctlWrite x0) := fun _ _ _ _ h => nomatch h
theorem heldWriteApply : ∀ x0, Statement (.heldWriteApply x0) := fun _ _ _ _ h => nomatch h
theorem registerWrite : ∀ x0 x1, Statement (.registerWrite x0 x1) := fun _ _ _ _ _ h => nomatch h
theorem hostAccess : ∀ x0 x1, Statement (.hostAccess x0 x1) := fun _ _ _ _ _ h => nomatch h
theorem clusterReset : ∀ x0 x1, Statement (.clusterReset x0 x1) := fun _ _ _ _ _ h => nomatch h
theorem straitRetirement : ∀ x0, Statement (.straitRetirement x0) := fun _ _ _ _ h => nomatch h
theorem correctedError : ∀ x0 x1, Statement (.correctedError x0 x1) := fun _ _ _ _ _ h => nomatch h
theorem uncorrectableError : ∀ x0 x1, Statement (.uncorrectableError x0 x1) := fun _ _ _ _ _ h => nomatch h
theorem powerThrottle : ∀ x0 x1 x2, Statement (.powerThrottle x0 x1 x2) := fun _ _ _ _ _ _ h => nomatch h
theorem remoteWriteArrival : ∀ x0 x1 x2 x3 x4, Statement (.remoteWriteArrival x0 x1 x2 x3 x4) := fun _ _ _ _ _ _ _ _ h => nomatch h
theorem remoteAtomicRequest : ∀ x0 x1 x2, Statement (.remoteAtomicRequest x0 x1 x2) := fun _ _ _ _ _ _ h => nomatch h
theorem fabricTimeout : ∀ x0 x1, Statement (.fabricTimeout x0 x1) := fun _ _ _ _ _ h => nomatch h
theorem fabricBarrierArrival : ∀ x0 x1 x2 x3, Statement (.fabricBarrierArrival x0 x1 x2 x3) := fun _ _ _ _ _ _ _ h => nomatch h
theorem fabricBarrierRelease : ∀ x0 x1, Statement (.fabricBarrierRelease x0 x1) := fun _ _ _ _ _ h => nomatch h
theorem fabricResend : ∀ x0, Statement (.fabricResend x0) := fun _ _ _ _ h => nomatch h
theorem packetReceive : ∀ x0 x1, Statement (.packetReceive x0 x1) := fun _ _ _ _ _ h => nomatch h
theorem portDown : ∀ x0, Statement (.portDown x0) := fun _ _ _ _ h => nomatch h
theorem packageReset : ∀ x0, Statement (.packageReset x0) := fun _ _ _ _ h => nomatch h
theorem remoteReadRequest : ∀ x0 x1 x2 x3, Statement (.remoteReadRequest x0 x1 x2 x3) := fun _ _ _ _ _ _ _ h => nomatch h
theorem portUp : ∀ x0, Statement (.portUp x0) := fun _ _ _ _ h => nomatch h
theorem attestationReportWritten : Statement (.attestationReportWritten) := fun _ _ _ h => nomatch h
theorem firmwareUpdate : ∀ x0 x1, Statement (.firmwareUpdate x0 x1) := fun _ _ _ _ _ h => nomatch h

end Sys2Proof.Laws.CodeRead
end

