-- ==== Sys2Proof/Laws/Results.lean ====
section
/-!
SUPPORT. From an instruction's own outcome to the relations the statements are written in: what a completed lane or
scalar result, a trap and a wait make of the state (namespace Sys2Proof.Claim).
-/
namespace Sys2Proof.Claim
open Sys2Proof.Machine

theorem closes_eq (t : Troupe) (f : Fields) : endsAct t.pos f = closes t f := by
  simp [endsAct, closes, ActPos.count]

theorem len_eq (f : Fields) : BitVec.ofNat 64 (Fields.len f) = (if f.ext = .none then 4 else 8 : DWord) := by
  unfold Fields.len; cases f.ext <;> simp

theorem unl_ops (t t0 : Troupe) (u : Bool) : (t.claimLatch t0 u).ops.map unlatchedOp = t.ops.map unlatchedOp := by
  unfold Troupe.claimLatch; split
  · rfl
  · simp only [List.map_map]; apply List.map_congr_left; intro o _; simp only [Function.comp]; split <;> rfl

theorem unl_edges (t t0 : Troupe) (u : Bool) : (t.claimLatch t0 u).edges.map unlatchedEdge = t.edges.map unlatchedEdge := by
  unfold Troupe.claimLatch; split
  · rfl
  · simp only [List.map_map]; apply List.map_congr_left; intro o _; simp only [Function.comp]; split <;> rfl

theorem unl_x (s : State) (t0 : Troupe) (u : Bool) : (s.claimLatch t0 u).xchgs.map unlatchedXchg = s.xchgs.map unlatchedXchg := by
  unfold State.claimLatch; split
  · rfl
  · simp only [List.map_map]; apply List.map_congr_left; intro o _; simp only [Function.comp]; split <;> rfl

/-- general: done with s unchanged -/
theorem done_quiet {uniform sh f s t} {t1 : Troupe} {l} (h : Issues uniform sh f s t) (hu : t1.uid = t.uid) :
   let s' := finishInstr t uniform sh f (.done s t1 l)
   Quiet s s' t (closes t f) := by
  have key := finishInstr_done_state (t := t) (t1 := t1) (uniform := uniform) (sh := sh) (f := f) (s1 := s) (l := l)
  simp only at key
  intro s'
  have e : s' = finishInstr t uniform sh f (.done s t1 l) := rfl
  clear_value s'
  rw [← e] at key
  refine ⟨?_, ?_, ?_, ?_, ?_⟩
  · conv => lhs; rw [key]
    rw [key]
  · intro a; rw [key]
  · intro u hne; rw [e]; exact finishInstr_done_other hu hne
  · rw [key]; exact unl_x s t uniform
  · rw [key, closes_eq]

def doneT (t t1 : Troupe) (uniform : Bool) (f : Fields) (l : LatchVal) : Troupe :=
  let t2 : Troupe := { t1.claimLatch t uniform with
              pc := t.pc + BitVec.ofNat 64 (Fields.len f), pos := t.pos.advance uniform l, park := .run, declined := [] }
            if endsAct t.pos f then t2.newAct else t2

theorem claim_eqs (t t0 : Troupe) (u : Bool) : t.claimLatch t0 u = { t with ops := (t.claimLatch t0 u).ops, edges := (t.claimLatch t0 u).edges } := by
  unfold Troupe.claimLatch; split <;> rfl

theorem doneT_adv {uniform : Bool} {f : Fields} {t t1 : Troupe} {l : LatchVal} (ha : t1.actSerial = t.actSerial) (hb : t1.actNext = t.actNext) : Advanced uniform f l t (doneT t t1 uniform f l) := by
  unfold doneT Advanced
  rw [claim_eqs, ← closes_eq, len_eq]
  by_cases h : endsAct t.pos f = true
  · simp [h, Troupe.newAct, hb]
  · simp [h, ha, hb]

theorem doneT_regs {uniform : Bool} {f : Fields} {t t1 : Troupe} {l : LatchVal} : RegistersOnly t1 (doneT t t1 uniform f l) ∧ SameLanes t1 (doneT t t1 uniform f l) ∧ SameScalars t1 (doneT t t1 uniform f l) ∧ (doneT t t1 uniform f l).fflags = t1.fflags := by
  have e : (doneT t t1 uniform f l).ops = (t1.claimLatch t uniform).ops ∧ (doneT t t1 uniform f l).edges = (t1.claimLatch t uniform).edges := by
    unfold doneT; by_cases h : endsAct t.pos f = true <;> simp [h, Troupe.newAct]
  have e2 : doneT t t1 uniform f l = { t1 with
      pc := (doneT t t1 uniform f l).pc, pos := (doneT t t1 uniform f l).pos,
      actSerial := (doneT t t1 uniform f l).actSerial, actNext := (doneT t t1 uniform f l).actNext,
      park := (doneT t t1 uniform f l).park, declined := (doneT t t1 uniform f l).declined,
      ops := (doneT t t1 uniform f l).ops, edges := (doneT t t1 uniform f l).edges } := by
    unfold doneT; rw [claim_eqs]; by_cases h : endsAct t.pos f = true <;> simp [h, Troupe.newAct]
  generalize doneT t t1 uniform f l = T at e e2
  refine ⟨⟨?_, ?_, ?_⟩, ?_, ?_, ?_⟩
  · conv => lhs; rw [e2]
    rw [e2]
  · rw [e.1]; exact unl_ops _ _ _
  · rw [e.2]; exact unl_edges _ _ _
  · intro r i _; rw [e2]; rfl
  · rw [e2]; exact ⟨rfl, rfl⟩
  · rw [e2]


theorem done_result {uniform : Bool} {sh : Shape} {f : Fields} {s : State} {t t1 : Troupe} {l : LatchVal}
    (h : Issues uniform sh f s t) (hu : t1.uid = t.uid) (ha : t1.actSerial = t.actSerial) (hb : t1.actNext = t.actNext) :
    TroupeResult uniform f s t l t1 (.next (finishInstr t uniform sh f (.done s t1 l))) :=
  ⟨_, doneT t t1 uniform f l, rfl, finishInstr_done_troupe hu (State.current_troupe? h.1), done_quiet h hu, doneT_adv ha hb,
    doneT_regs.1, doneT_regs.2.1, doneT_regs.2.2.1, doneT_regs.2.2.2⟩

theorem RegistersOnly.of {t t1 t' : Troupe} (h : RegistersOnly t1 t')
    (e : t1 = { t with v := t1.v, s := t1.s, act := t1.act, fflags := t1.fflags }) : RegistersOnly t t' := by
  refine ⟨?_, ?_, ?_⟩
  · have h1 := h.1
    rw [e] at h1
    exact h1
  · rw [h.2.1, e]
  · rw [h.2.2, e]

theorem setS_shape (t : Troupe) (k : Nat) (w : Word) : t.setS k w = { t with s := (t.setS k w).s, act := (t.setS k w).act } := by
  unfold Troupe.setS; split <;> rfl

theorem raise_shape (t : Troupe) (fl : Flags) : t.raise fl = { t with fflags := t.fflags ||| fl.setWidth 32 } := rfl

theorem scalar_core {uniform : Bool} {sh : Shape} {f : Fields} {s : State} {t t1 : Troupe} {l : LatchVal} {fl : Flags}
    {w : Nat → Option Word} (h : Issues uniform sh f s t)
    (e : t1 = { t with s := t1.s, act := t1.act, fflags := t.fflags ||| fl.setWidth 32 })
    (hw : ∀ j, j < 64 → t1.sreg j = scalarAfter t (fun k => if f.n then none else w k) j) :
    ScalarResult uniform f s t fl l w (.next (finishInstr t uniform sh f (.done s t1 l))) := by
  obtain ⟨s', t', h1, h2, h3, h4, h5, h6, h7, h8⟩ := done_result (uniform := uniform) (sh := sh) (f := f) (l := l) (t1 := t1) h
    (by rw [e]) (by rw [e]) (by rw [e])
  have hv : t1.v = t.v := by rw [e]
  refine ⟨s', t', h1, h2, h3, h5.of (by rw [e]), h4, ?_, ?_, ?_⟩
  · intro r i hi
    rw [h6 r i hi]
    simp [Troupe.vrow, hv]
  · rw [h8, e]
  · intro j hj
    rw [← hw j hj]
    simp [Troupe.sreg, h7.1, h7.2]

theorem sreg_one (t : Troupe) (n : Bool) (d : BitVec 7) (x : Word) (hd : n = false → d.toNat < 64) (j : Nat) (hj : j < 64) :
    (if n then t else t.setS d.toNat x).sreg j = scalarAfter t (fun k => if n then none else one d x k) j := by
  cases n
  · have hd := hd rfl
    simp only [Bool.false_eq_true, if_false, scalarAfter]
    rw [Troupe.sreg_setS t x hd hj]
    unfold one
    by_cases h61 : d.toNat < 61
    · have a1 : ¬ (61 = d.toNat) := by omega
      have a2 : ¬ (62 = d.toNat) := by omega
      have a3 : ¬ (63 = d.toNat) := by omega
      simp only [h61, a1, a2, a3, if_true, if_false]
      by_cases hjd : j = d.toNat <;> simp [hjd]
    · have : d.toNat = 61 ∨ d.toNat = 62 ∨ d.toNat = 63 := by omega
      have hj61 : (j < 61) = ¬ (61 ≤ j) := by apply propext; omega
      by_cases hjd : j = d.toNat
      · have : 61 ≤ j := by omega
        rcases ‹d.toNat = 61 ∨ _› with q | q | q <;> simp [q, hjd]
      · by_cases hj2 : 61 ≤ j
        · have nj : ¬ j < 61 := by omega
          rcases ‹d.toNat = 61 ∨ _› with q | q | q <;> rw [q] at hjd <;> simp [q, hjd, hj2, nj]
        · have nj : j < 61 := by omega
          simp [h61, hj2, nj, hjd]
  · simp [scalarAfter]

theorem dst_ok {uniform : Bool} {sh : Shape} {f : Fields} {t : Troupe} (hd : decodeTrap uniform sh f t = none) (hn : f.n = false) :
    sh.dst.ok t.v.length f.d.toNat = true := by
  unfold decodeTrap at hd
  split at hd; · cases hd
  split at hd; · cases hd
  rename_i h1 h2
  simp [badOperand, hn] at h2
  exact h2.1.1.2

theorem scalarOut_result {uniform : Bool} {sh : Shape} {f : Fields} {s : State} {t : Troupe} {x : Word} {l : LatchVal} {fl : Flags} (h : Issues uniform sh f s t) (hl : sh.dst = .scalar) :
    ScalarResult uniform f s t fl l (one f.d x) (.next (finishInstr t uniform sh f (.done s (if f.n then (t.raise fl) else (t.raise fl).setS f.d.toNat x) l))) := by
  apply scalar_core h
  · by_cases hn : f.n = true
    · simp [hn]; rfl
    · simp only [hn]; rw [setS_shape]; rfl
  · intro j hj
    rw [sreg_one (t.raise fl) f.n f.d x ?_ j hj]; rfl
    intro hn
    have := dst_ok h.2.1 hn
    simp [hl, Dst.ok] at this
    omega

theorem sreg_setSPair (t : Troupe) (d j : Nat) (x : DWord) (hd : d % 2 = 0) (hd2 : d ≤ 62) (hj : j < 64) :
   (t.setSPair d x).sreg j = (if d + 1 < 61 then (if j = d then x.extractLsb' 0 32 else if j = d+1 then x.extractLsb' 32 32 else t.sreg j)
      else if j < 61 then (if j = d then x.extractLsb' 0 32 else t.sreg j)
      else (if j = d then x.extractLsb' 0 32 else if j = d+1 then x.extractLsb' 32 32 else t.sreg j) &&& ~~~maskWord t.exited (j - 61)) := by
  unfold Troupe.setSPair
  rw [Troupe.sreg_setS _ _ (by omega) hj, Troupe.sreg_setS _ _ (by omega) hj]
  rw [Troupe.setS_exited]
  by_cases a1 : d + 1 < 61
  · have a2 : d < 61 := by omega
    simp only [a1, a2, if_true]
    by_cases b : j = d
    · have : ¬ (j = d + 1) := by omega
      simp [b]
    · simp [b]
  · by_cases a2 : d < 61
    · have e60 : d = 60 := by omega
      subst e60
      by_cases hj61 : j < 61
      · simp [hj61]
      · have : ¬ j = 60 := by omega
        simp [hj61, this]
    · by_cases hj61 : j < 61
      · have : ¬ j = d := by omega
        simp [a1,a2,hj61, this]
      · simp only [a1, a2, hj61, if_false]
        by_cases b : j = d
        · have : ¬ (j = d + 1) := by omega
          simp [b, BitVec.and_assoc]
        · by_cases b2 : j = d + 1
          · simp [b2]
          · simp [b, b2, BitVec.and_assoc]

theorem ext_lo (x : DWord) : BitVec.ofNat 32 x.toNat = x.extractLsb' 0 32 := by
  apply BitVec.eq_of_toNat_eq; simp
theorem ext_hi (x : DWord) : BitVec.ofNat 32 (x.toNat / 2^32) = x.extractLsb' 32 32 := by
  apply BitVec.eq_of_toNat_eq; simp [Nat.shiftRight_eq_div_pow]

theorem sreg_two (t : Troupe) (n : Bool) (d : BitVec 7) (x : DWord) (hd : n = false → d.toNat % 2 = 0 ∧ d.toNat ≤ 62) (j : Nat) (hj : j < 64) :
    (if n then t else t.setSPair d.toNat x).sreg j = scalarAfter t (fun k => if n then none else two d x k) j := by
  cases n
  · have hd := hd rfl
    generalize hq : d.toNat = q at hd
    simp only [Bool.false_eq_true, if_false, scalarAfter]
    rw [sreg_setSPair t q j x hd.1 hd.2 hj]
    unfold two
    rw [hq, ext_lo, ext_hi]
    by_cases h61 : q + 1 < 61
    · have a1 : ¬ (61 = q) := by omega
      have a2 : ¬ (62 = q) := by omega
      have a3 : ¬ (63 = q) := by omega
      have c1 : ¬ (61 = q+1) := by omega
      have c2 : ¬ (62 = q+1) := by omega
      have c3 : ¬ (63 = q+1) := by omega
      simp only [h61, a1, a2, a3, c1, c2, c3, if_true, if_false]
      by_cases hjd : j = q
      · simp [hjd]
      · by_cases hjd2 : j = q + 1
        · simp [hjd2]
        · simp [hjd, hjd2]
    · have : q = 60 ∨ q = 62 := by omega
      by_cases hj2 : 61 ≤ j
      · have nj : ¬ j < 61 := by omega
        rcases this with r | r <;> subst r <;> simp [hj2, nj]
        · by_cases z : j = 60
          · omega
          · by_cases z2 : j = 61 <;> simp [z, z2]
        · by_cases z : j = 62
          · simp [z]
          · by_cases z2 : j = 63 <;> simp [z, z2]
      · have nj : j < 61 := by omega
        rcases this with r | r <;> subst r <;> simp [hj2, nj]
        · by_cases z : j = 60
          · simp [z]
          · have : ¬ j = 61 := by omega
            simp [z, this]
        · have : ¬ j = 62 := by omega
          have : ¬ j = 63 := by omega
          simp [*]
  · simp [scalarAfter]

theorem setSPair_shape (t : Troupe) (k : Nat) (w : DWord) : t.setSPair k w = { t with s := (t.setSPair k w).s, act := (t.setSPair k w).act } := by
  unfold Troupe.setSPair; rw [setS_shape, setS_shape t]
theorem setTriple_shape (t : Troupe) (k : Nat) (w : LaneMask) : t.setTriple k w = { t with s := (t.setTriple k w).s, act := (t.setTriple k w).act } := by
  unfold Troupe.setTriple; rw [setS_shape, setS_shape (t.setS _ _), setS_shape t]

theorem pairOut_result {uniform : Bool} {sh : Shape} {f : Fields} {s : State} {t : Troupe} {x : DWord} {l : LatchVal} (h : Issues uniform sh f s t) (hl : sh.dst = .scalarPair) :
    ScalarResult uniform f s t 0 l (two f.d x) (.next (finishInstr t uniform sh f (.done s (if f.n then t else t.setSPair f.d.toNat x) l))) := by
  apply scalar_core h
  · by_cases hn : f.n = true
    · simp [hn]
    · simp only [hn]; rw [setSPair_shape]; simp
  · intro j hj
    rw [sreg_two t f.n f.d x ?_ j hj]
    intro hn
    have := dst_ok h.2.1 hn
    simp [hl, Dst.ok] at this
    omega

theorem three_word (t : Troupe) (g : Nat → Bool) (j : Nat) (hj : j < 3) :
   BitVec.ofNat 32 ((List.range 32).foldr (fun i n =>
      2 * n + if t.active (32 * j + i) && g (32 * j + i) then 1 else 0) 0) = maskWord (maskOf fun i => t.active i && g i) j := by
  apply BitVec.eq_of_getLsbD_eq
  intro i hi
  rw [getLsbD_maskWord _ _ _ hi, getLsbD_maskOf _ (by show _ < 96; omega), BitVec.getLsbD_ofNat, List.range_eq_range']
  have := foldr_bits_testBit (fun i => t.active (32 * j + i) && g (32 * j + i)) 32 0 i hi
  rw [this]; simp [hi]

theorem sreg_setTriple (t : Troupe) (d j : Nat) (m : LaneMask) (hd2 : d ≤ 61) (hj : j < 64) :
   (t.setTriple d m).sreg j =
      let v := if d ≤ j ∧ j < d + 3 then maskWord m (j - d) else t.sreg j
      if 61 ≤ j ∧ 61 ≤ d + 2 then v &&& ~~~maskWord t.exited (j - 61) else v := by
  unfold Troupe.setTriple
  rw [Troupe.sreg_setS _ _ (by omega) hj, Troupe.sreg_setS _ _ (by omega) hj, Troupe.sreg_setS _ _ (by omega) hj]
  simp only [Troupe.setS_exited]
  by_cases j0 : j = d
  · simp only [j0, if_true]
    repeat' split
    all_goals first | omega | simp [BitVec.and_assoc]
  · by_cases j1 : j = d + 1
    · simp only [j1, if_true]
      repeat' split
      all_goals first | omega | simp [BitVec.and_assoc]
    · by_cases j2 : j = d + 2
      · simp only [j2, if_true]
        repeat' split
        all_goals first | omega | simp [BitVec.and_assoc]
      · have r : ¬ (d ≤ j ∧ j < d + 3) := by omega
        simp only [j0, j1, j2, r, if_false]
        repeat' split
        all_goals first | omega | simp [BitVec.and_assoc]

theorem sreg_three (t t0 : Troupe) (n : Bool) (d : BitVec 7) (g : Nat → Bool) (hd : n = false → d.toNat ≤ 61) (j : Nat) (hj : j < 64) (he : t0.act = t.act)
   (m : LaneMask) (hm : m = maskOf fun i => t.active i && g i) :
    (if n then t else t.setTriple d.toNat m).sreg j = scalarAfter t (fun k => if n then none else three t0 d g k) j := by
  cases n
  · have hd := hd rfl
    generalize hq : d.toNat = q at hd
    simp only [Bool.false_eq_true, if_false, scalarAfter]
    rw [sreg_setTriple t q j m hd hj]
    have key (k : Nat) : three t0 d g k = if q ≤ k ∧ k < q + 3 then some (maskWord m (k - q)) else none := by
      unfold three
      rw [hq]
      by_cases r : q ≤ k ∧ k < q + 3
      · simp only [r, and_self, if_true]
        congr 1
        rw [hm, ← three_word t g (k - q) (by omega)]
        simp [Troupe.active, he]
      · simp [r]
    rw [key, key, key, key]
    have c : (61 ≤ q + 2) ↔ ((if q ≤ 61 ∧ 61 < q + 3 then some (maskWord m (61 - q)) else none) ≠ none ∨ (if q ≤ 62 ∧ 62 < q + 3 then some (maskWord m (62 - q)) else none) ≠ none ∨ (if q ≤ 63 ∧ 63 < q + 3 then some (maskWord m (63 - q)) else none) ≠ none) := by
      have : (q ≤ 61 ∧ 61 < q + 3) ↔ 59 ≤ q := by omega
      have h2 : (q ≤ 62 ∧ 62 < q + 3) ↔ 60 ≤ q := by omega
      have h3 : (q ≤ 63 ∧ 63 < q + 3) ↔ 61 ≤ q := by omega
      simp only [this, h2, h3]
      by_cases a : 59 ≤ q
      · simp [a]
      · have b : ¬ 60 ≤ q := by omega
        have b2 : ¬ 61 ≤ q := by omega
        have b3 : ¬ 61 ≤ q + 2 := by omega
        simp [a, b, b2, b3]
    simp only [← c]
    by_cases r : q ≤ j ∧ j < q + 3 <;> simp [r]
  · simp [scalarAfter]

theorem tripleOut_result {sh : Shape} {f : Fields} {s : State} {t : Troupe} {g : Nat → Bool} {fl : Flags} (h : Issues false sh f s t) (hl : sh.dst = .triple) :
    ScalarResult false f s t fl (tripleLatch t g) (three t f.d g) (.next (finishInstr t false sh f (laneTripleOut s (t.raise fl) f g))) := by
  have hl2 : (LatchVal.lane ((List.range Config.lanes).map fun i => if (maskOf fun i => (t.raise fl).active i && g i).getLsbD i then 1 else 0)) = tripleLatch t g := by
    unfold tripleLatch
    congr 1
    apply List.map_congr_left
    intro i hi
    rw [getLsbD_maskOf _ (by simpa using hi)]
    rfl
  unfold laneTripleOut
  simp only
  rw [hl2]
  apply scalar_core h
  · by_cases hn : f.n = true
    · simp [hn]; rfl
    · simp only [hn]; rw [setTriple_shape]; simp; rfl
  · intro j hj
    rw [sreg_three (t.raise fl) t f.n f.d g ?_ j hj rfl _ rfl]; rfl
    intro hn
    have := dst_ok h.2.1 hn
    simpa [hl, Dst.ok] using this

theorem lane_d_lt {sh f} {t : Troupe} (hd : decodeTrap false sh f t = none) (hl : sh.dst = .lane) (hn : f.n = false) : f.d.toNat < t.v.length := by
  unfold decodeTrap at hd
  split at hd; · cases hd
  split at hd; · cases hd
  rename_i h1 h2
  simp [badOperand, hn, hl, Dst.ok] at h2
  exact h2.1.1.2.1

theorem laneOut_result {sh f s t g} {fl : Flags} (h : Issues false sh f s t) (hl : sh.dst = .lane) :
    LaneResult f s t fl g (.next (finishInstr t false sh f (laneOut s (t.raise fl) f g))) := by
  have hcur := State.current_troupe? h.1
  have hu : ((t.raise fl).putLane f g).uid = t.uid := by unfold Troupe.putLane; split <;> rfl
  refine ⟨_, doneT t ((t.raise fl).putLane f g) false f (laneLatchOf t.act fun i => (g i).setWidth 64), rfl, ?_, done_quiet h hu, ?_, ?_, ?_, ?_, ?_⟩
  · exact finishInstr_done_troupe hu hcur
  · have := (doneT_regs (t := t) (t1 := (t.raise fl).putLane f g) (uniform := false) (f := f) (l := laneLatchOf t.act fun i => (g i).setWidth 64)).1
    refine ⟨?_, ?_, ?_⟩
    · have h1 := this.1
      generalize doneT t _ _ _ _ = T at h1 ⊢
      conv => lhs; rw [h1]
      unfold Troupe.putLane; by_cases hn : f.n = true <;> simp [hn, Troupe.raise, Troupe.setV]
    · rw [this.2.1]; unfold Troupe.putLane; split <;> rfl
    · rw [this.2.2]; unfold Troupe.putLane; split <;> rfl
  · apply doneT_adv <;> (unfold Troupe.putLane; split <;> rfl)
  · have := (doneT_regs (t := t) (t1 := (t.raise fl).putLane f g) (uniform := false) (f := f) (l := laneLatchOf t.act fun i => (g i).setWidth 64)).2.2.1
    refine ⟨this.1.trans ?_, this.2.trans ?_⟩ <;> (unfold Troupe.putLane; split <;> rfl)
  · rw [doneT_regs.2.2.2]; unfold Troupe.putLane; split <;> rfl
  · intro r i hi
    rw [doneT_regs.2.1 r i hi]
    unfold Troupe.putLane
    by_cases hn : f.n = true
    · simp [hn]; rfl
    · have hn' : f.n = false := by simpa using hn
      have hd := lane_d_lt h.2.1 hl hn'
      simp only [hn', Bool.false_eq_true, if_false, true_and]
      by_cases hr : r = f.d.toNat
      · subst hr
        rw [Troupe.vrow_setV_same (t.raise fl) (t.raise fl).act g hd hi]
        simp [Troupe.raise, Troupe.active]; rfl
      · rw [Troupe.vrow_setV_other _ _ _ hr]; simp [hr]; rfl

theorem lanePairOut_result {sh : Shape} {f : Fields} {s : State} {t : Troupe} {g : Nat → DWord} (h : Issues false sh f s t) (hl : sh.dst = .lanePair) :
    LanePairResult f s t g (.next (finishInstr t false sh f (lanePairOut s t f g))) := by
  unfold lanePairOut
  generalize hT : (if f.n = true then t
    else (t.setV f.d.toNat t.act fun i => (g i).extractLsb' 0 32).setV (f.d.toNat + 1) t.act
      fun i => (g i).extractLsb' 32 32) = T
  have e : T = { t with v := T.v } := by
    rw [← hT]; by_cases hn : f.n = true <;> simp [hn, Troupe.setV]
  obtain ⟨s', t', h1, h2, h3, h4, h5, h6, h7, h8⟩ := done_result (sh := sh) (f := f) (l := laneLatchOf t.act g) (t1 := T) h
    (by rw [e]) (by rw [e]) (by rw [e])
  refine ⟨s', t', h1, h2, h3, h5.of (by rw [e]), h4, ?_, ?_, ?_⟩
  · exact ⟨h7.1.trans (by rw [e]), h7.2.trans (by rw [e])⟩
  · rw [h8, e]
  · intro r i hi
    rw [h6 r i hi, ← hT]
    by_cases hn : f.n = true
    · simp [hn]
    · have hn' : f.n = false := by simpa using hn
      have := dst_ok h.2.1 hn'
      simp [hl, Dst.ok] at this
      simp only [hn', Bool.false_eq_true, if_false, true_and]
      have hlen : (t.setV f.d.toNat t.act fun i => (g i).extractLsb' 0 32).v.length = t.v.length := by simp [Troupe.setV]
      by_cases r1 : r = f.d.toNat + 1
      · have r0 : ¬ r = f.d.toNat := by omega
        subst r1
        rw [Troupe.vrow_setV_same _ _ _ (by omega) hi, Troupe.vrow_setV_other _ _ _ r0, ext_hi]
        simp [Troupe.active]
      · rw [Troupe.vrow_setV_other _ _ _ r1]
        by_cases r0 : r = f.d.toNat
        · subst r0
          rw [Troupe.vrow_setV_same _ _ _ (by omega) hi, ext_lo]
          simp [Troupe.active]
        · rw [Troupe.vrow_setV_other _ _ _ r0]
          simp [r0, r1]
theorem State.claimLatch_launch (s : State) (t0 : Troupe) (u : Bool) (k : Nat) : (s.claimLatch t0 u).launch? k = s.launch? k := by
  unfold State.claimLatch; split <;> rfl

theorem trap_result {uniform : Bool} {sh : Shape} {f : Fields} {s : State} {t : Troupe} (hc : s.current = some t)
    (tcause : Word) (taddr : DWord) (mask : LaneMask) :
    Traps s t tcause taddr mask (resumption uniform sh.dst.leaves f t)
      (.next (finishInstr t uniform sh f (.trap s tcause taddr mask))) := by
  have hcur := State.current_troupe? hc
  have hr : resumeOf uniform sh f t = resumption uniform sh.dst.leaves f t := by
    simp [resumeOf, resumption, closes_eq, Fields.len]; cases f.ext <;> simp
  constructor
  · intro htr
    have htr2 : (t.claimLatch t uniform).trap = false := by rw [claim_eqs]; exact htr
    refine ⟨_, { t with
      tcause := tcause, tpc := t.pc, taddr := taddr, tmask := mask, trap := true,
      saved := some { act := t.act, fmt := t.fmt, depth := t.stack.length, pos := t.pos, serial := t.actSerial, resume := resumption uniform sh.dst.leaves f t },
      pc := handlerOf s t, pos := ActPos.fresh, actSerial := t.actNext, actNext := t.actNext + 1, park := .run,
      declined := [], ops := (t.claimLatch t uniform).ops, edges := (t.claimLatch t uniform).edges }, rfl, ?_, ?_, rfl, unl_ops _ _ _, unl_edges _ _ _⟩
    · simp only [finishInstr, State.takeTrap, htr2, Bool.false_eq_true, if_false]
      rw [State.troupe?_releaseQuarter]
      have := State.troupe?_setTroupe_same (s := s.claimLatch t uniform) (o := t) (t := ({ t with
      tcause := tcause, tpc := t.pc, taddr := taddr, tmask := mask, trap := true,
      saved := some { act := t.act, fmt := t.fmt, depth := t.stack.length, pos := t.pos, serial := t.actSerial, resume := resumption uniform sh.dst.leaves f t },
      pc := handlerOf s t, pos := ActPos.fresh, actSerial := t.actNext, actNext := t.actNext + 1, park := .run,
      declined := [], ops := (t.claimLatch t uniform).ops, edges := (t.claimLatch t uniform).edges } : Troupe)) (by rw [State.claimLatch_troupe?, hcur])
      rw [hr, claim_eqs]
      simp only [State.claimLatch_launch]
      exact this
    · simp only [finishInstr, State.takeTrap, htr2, Bool.false_eq_true, if_false]
      refine ⟨?_, ?_, ?_, ?_, ?_⟩
      · cases uniform <;> rfl
      · intro a; cases uniform <;> rfl
      · intro u hu
        rw [State.troupe?_releaseQuarter, State.troupe?_setTroupe_other, State.claimLatch_troupe?]
        rw [claim_eqs]; exact hu
      · have := unl_x s t uniform
        cases uniform <;> exact this
      · cases uniform <;> rfl
  · intro htr
    have htr2 : (t.claimLatch t uniform).trap = true := by rw [claim_eqs]; exact htr
    refine ⟨_, rfl, ?_, ?_, ?_⟩
    · intro u
      simp only [finishInstr, State.takeTrap, htr2, if_true]
      rw [State.troupe?_releaseQuarter]
      show (s.claimLatch t uniform).troupe? u = _
      rw [State.claimLatch_troupe?]
    · simp only [finishInstr, State.takeTrap, htr2, if_true]
      cases uniform <;> rfl
    · simp only [finishInstr, State.takeTrap, htr2, if_true]
      have := unl_x s t uniform
      cases uniform <;> exact this

end Sys2Proof.Claim
end

