-- ==== Sys2Proof/Laws/Shake.lean ====
section
/-!
SUPPORT. SHAKE256 gives as many bytes as it is asked for.
-/
namespace Sys2Proof.Machine

theorem shakeSpread_length (a : List DWord) : (shakeSpread a).length = 25 := by simp [shakeSpread]

theorem shakeWalk_length (a : List DWord) : (shakeWalk a).length = a.length := by
  unfold shakeWalk
  generalize List.range 24 = l
  suffices h : ∀ (p : Nat × Nat × DWord × List DWord), (l.foldl (fun (x, y, moved, a) k =>
      let i := y + 5 * ((2 * x + 3 * y) % 5)
      (y, (2 * x + 3 * y) % 5, a.getD i 0, a.set i (moved.rotateLeft ((k + 1) * (k + 2) / 2 % 64)))) p).2.2.2.length = p.2.2.2.length from
    h (1, 0, a.getD 1 0, a)
  induction l with
  | nil => exact fun _ => rfl
  | cons k l ih => exact fun p => (ih _).trans (List.length_set ..)

theorem shakeRow_length (l : List DWord) : (shakeRow l).length = l.length := by
  unfold shakeRow; split <;> rfl

theorem rows_length (w : List DWord) (h : w.length = 25) :
    ((List.range 5).flatMap fun y => shakeRow ((w.drop (5 * y)).take 5)).length = 25 := by
  rw [List.length_flatMap, List.map_congr_left (g := fun _ => 5)]
  · rfl
  · intro y hy
    have hy := List.mem_range.mp hy
    rw [shakeRow_length, List.length_take, List.length_drop, h]
    omega

theorem shakeRound_length (p : Nat × List DWord) : (shakeRound p).2.length = 25 := by
  simp only [shakeRound, List.length_set]
  exact rows_length _ ((shakeWalk_length _).trans (shakeSpread_length _))

theorem shakeRounds_length (a : List DWord) (ha : a.length = 25) : (shakeRounds a).length = 25 := by
  unfold shakeRounds
  generalize List.range 24 = l
  suffices h : ∀ p : Nat × List DWord, p.2.length = 25 → (l.foldl (fun p _ => shakeRound p) p).2.length = 25 from h (1, a) ha
  induction l with
  | nil => exact fun _ h => h
  | cons k l ih => exact fun p _ => ih _ (shakeRound_length p)

theorem shakeIn_length (n : Nat) : ∀ (a : List DWord) (bs : List Byte), a.length = 25 → (shakeIn a bs n).length = 25 := by
  induction n with
  | zero => exact fun _ _ h => h
  | succ n ih =>
    intro a bs _
    simp only [shakeIn]
    exact ih _ _ (shakeRounds_length _ (by rw [List.length_map, List.length_range]))

theorem shakeOut_length (n : Nat) : ∀ (a : List DWord), a.length = 25 → (shakeOut a n).length = 136 * n := by
  induction n with
  | zero => exact fun _ _ => rfl
  | succ n ih =>
    intro a h
    have h8 : ∀ v : DWord, (leBytes 8 v.toNat).length = 8 := fun v => by simp [leBytes]
    simp [shakeOut, List.length_flatMap, h8, ih _ (shakeRounds_length a h), h]; omega

theorem shake256_length (n : Nat) (bs : List Byte) : (shake256 n bs).length = n := by
  simp only [shake256, List.length_take]
  rw [shakeOut_length _ _ (shakeIn_length _ _ _ (by simp))]
  omega
end Sys2Proof.Machine
end

