-- ==== Sys2Proof/Tests/Slice0.lean ====
section
/-!
SUPPORT. Tests: words of the spec and what they decode to, ill-formed terms that the checks refuse, results of single
steps, and for every statement states that meet its hypotheses.
-/
namespace Sys2Proof.Tests

open Sys2Proof.Machine Sys2Proof.Claim
set_option Elab.async false

/-! ## A small machine: one launch of one company of one troupe of 16 registers, on core 0 -/

def hdr : Header := { placeLaunchHeader with regs := 16 }
def tr : Troupe := newTroupe 1 2 3 0 0 0 0 hdr 0
def co : Company := newCompany 2 3 0 0 0 hdr (List.replicate 8 0)
def la : Launch := { newLaunch 3 0 0 0 0 hdr 0 0 0 with started := 1, placed := true }
def stWith (t : Troupe) (c : Company) (l : Launch) : State :=
  { State.reset with troupes := [t], companies := [c], rm := { Ringmaster.reset with launches := [l] }, cur := some 1, nextId := 4 }
def st (t : Troupe) : State := stWith t co la

def fl (d a b : BitVec 7) : Fields := ⟨true, false, d, a, b, .none⟩
def fi (d a b : BitVec 7) (x : Word) : Fields := ⟨true, false, d, a, b, .x1 x⟩
def fx (d a b c : BitVec 7) (xs : BitVec 6) (imm : BitVec 19) : Fields := ⟨true, false, d, a, b, .x2 c xs imm⟩

/-- The troupe with scalar register j holding x. -/
def sr (j : Nat) (x : Word) (t : Troupe) : Troupe := t.setS j x

/-- What `Issues` says, as a check. -/
def ok (uniform : Bool) (sh : Shape) (f : Fields) (s : State) (t : Troupe) : Bool :=
  s.current == some t && decodeTrap uniform sh f t == none && s.interlock? t uniform sh f == none

theorem ok_issues {uniform : Bool} {sh : Shape} {f : Fields} {s : State} {t : Troupe} (h : ok uniform sh f s t = true) :
    Issues uniform sh f s t := by
  simp only [ok, Bool.and_eq_true, beq_iff_eq] at h
  exact ⟨h.1.1, h.1.2, h.2⟩

/-! ## Words of the spec's tables and what they decode to (R35, R42, R43) -/

/-- `IADD v3, v1, v2` -/
theorem test_word_iadd :
    decode [0x0000C082] = .ok (.iadd ⟨false, false, 3, 1, 2, .none⟩, []) := rfl
/-- `FFMA! v3, v1, v2, v4` -/
theorem test_word_ffma :
    decode [0x4860C082, 0x08000000] = .ok (.ffma ⟨true, false, 3, 1, 2, .x2 4 0 0x0⟩, []) := rfl
/-- `SADD s10, s11, #-40` -/
theorem test_word_sadd :
    decode [0x800285F9, 0xFFFFFFD8] = .ok (.sadd ⟨false, false, 10, 11, 121, .x1 0xFFFFFFD8⟩, []) := rfl
/-- `IADD v5, v6, s7` -/
theorem test_word_iadd_2 :
    decode [0x00014378, 0xF6380000] = .ok (.iadd ⟨false, false, 5, 6, 120, .x2 123 7 0x0⟩, []) := rfl
/-- `FMUL -, v1, v2` -/
theorem test_word_fmul :
    decode [0x28400082] = .ok (.fmul ⟨false, true, 0, 1, 2, .none⟩, []) := rfl
/-- `FADD! v4, b0, v3` -/
theorem test_word_fadd :
    decode [0x48013E03] = .ok (.fadd ⟨true, false, 4, 124, 3, .none⟩, []) := rfl
/-- `BRD! s12, then, join` -/
theorem test_word_brd :
    decode [0xC860467B, 0x90000008] = .ok (.brd ⟨true, false, 1, 12, 123, .x2 72 0 0x8⟩, []) := rfl
/-- `LD.g v5, [s4:s5 + v9 + 0x40]` -/
theorem test_word_ldG :
    decode [0x180144FB, 0xF6200040] = .ok (.ldG ⟨false, false, 5, 9, 123, .x2 123 4 0x40⟩, []) := rfl
/-- `IMAD v8, v1, v2, v3` -/
theorem test_word_imad :
    decode [0x00A20082, 0x06000000] = .ok (.imad ⟨false, false, 8, 1, 2, .x2 3 0 0x0⟩, []) := rfl
/-- `ICMP.lt s20, v4, #0` -/
theorem test_word_icmpLt :
    decode [0x05450279, 0x00000000] = .ok (.icmpLt ⟨false, false, 20, 4, 121, .x1 0x0⟩, []) := rfl
/-- `CVTPK.bf16.f32.sr v6, v1, v2` -/
theorem test_word_cvtpk :
    decode [0x10218082, 0xF6000401] = .ok (.cvtpk ⟨false, false, 6, 1, 2, .x2 123 0 0x401⟩, []) := rfl
/-- `LGET.flip v9, v9, #1, v9, s40` -/
theorem test_word_lgetFlip :
    decode [0x146244F9, 0x13400001] = .ok (.lgetFlip ⟨false, false, 9, 9, 121, .x2 9 40 0x1⟩, []) := rfl
/-- `REDF.add s5, v2` -/
theorem test_word_redf :
    decode [0x1521417B, 0xF6000000] = .ok (.redf ⟨false, false, 5, 2, 123, .x2 123 0 0x0⟩, []) := rfl
/-- `LANERD s4, v10, s7` -/
theorem test_word_lanerd :
    decode [0x82C13D87, 0xF600000A] = .ok (.lanerd ⟨false, false, 4, 123, 7, .x2 123 0 0xA⟩, []) := rfl
/-- `SRD s8:s9, clock` -/
theorem test_word_srd :
    decode [0x98423DFB, 0xF6000001] = .ok (.srd ⟨false, false, 8, 123, 123, .x2 123 0 0x1⟩, []) := rfl
/-- `TRAP! #7` -/
theorem test_word_trap :
    decode [0xD8803CFB, 0x00000007] = .ok (.trap ⟨true, false, 0, 121, 123, .x1 0x7⟩, []) := rfl
/-- `LD.g.acq.die v5, [s4:s5 + v9 + 0x40]` -/
theorem test_word_ldG_2 :
    decode [0x180144FB, 0xF6220040] = .ok (.ldG ⟨false, false, 5, 9, 123, .x2 123 4 0x20040⟩, []) := rfl
/-- `ST.g.rel.package [s6:s7 + v2], v10` -/
theorem test_word_stG :
    decode [0x1820010A, 0xF6328000] = .ok (.stG ⟨false, false, 0, 2, 10, .x2 123 6 0x28000⟩, []) := rfl
/-- `LD.sp.b16 v4, [sp: v3 + 0x2]` -/
theorem test_word_ldSp :
    decode [0x184101FB, 0xF6003002] = .ok (.ldSp ⟨false, false, 4, 3, 123, .x2 123 0 0x3002⟩, []) := rfl
/-- `ST.sp.f [sp: v3 + 0x100], v7` -/
theorem test_word_stSpF :
    decode [0x18A00187, 0xF6000100] = .ok (.stSpF ⟨false, false, 0, 3, 7, .x2 123 0 0x100⟩, []) := rfl
/-- `LD.sp.e v6, [sp: v3]` -/
theorem test_word_ldSpE :
    decode [0x188181FB, 0xF6000000] = .ok (.ldSpE ⟨false, false, 6, 3, 123, .x2 123 0 0x0⟩, []) := rfl
/-- `LDRO v5, [s4:s5 + v9]` -/
theorem test_word_ldro :
    decode [0x18C144FB, 0xF6200000] = .ok (.ldro ⟨false, false, 5, 9, 123, .x2 123 4 0x0⟩, []) := rfl
/-- `WAIT ld=0` -/
theorem test_word_wait :
    decode [0x8C003CFB, 0x3F3F3F00] = .ok (.wait ⟨false, false, 0, 121, 123, .x1 0x3F3F3F00⟩, []) := rfl
/-- `ATOM.add.ar.die v2, [s4:s5 + v9], v3` -/
theorem test_word_atom :
    decode [0x19008483, 0xF624C000] = .ok (.atom ⟨false, false, 2, 9, 3, .x2 123 4 0x4C000⟩, []) := rfl
/-- `ATOM.sp.fadd v2, [sp: v1], v3` -/
theorem test_word_atomSp :
    decode [0x19208083, 0xF6002800] = .ok (.atomSp ⟨false, false, 2, 1, 3, .x2 123 0 0x2800⟩, []) := rfl
/-- `FENCE.rel.die.mem` -/
theorem test_word_fence :
    decode [0x8D203DFB, 0xF6000032] = .ok (.fence ⟨false, false, 0, 123, 123, .x2 123 0 0x32⟩, []) := rfl
/-- `ROINV` -/
theorem test_word_roinv :
    decode [0x8D403DFB] = .ok (.roinv ⟨false, false, 0, 123, 123, .none⟩, []) := rfl
/-- `WAITTL tl1, s20:s21` -/
theorem test_word_waittl :
    decode [0x8C200A79, 0x00000001] = .ok (.waittl ⟨false, false, 0, 20, 121, .x1 0x1⟩, []) := rfl
/-- `TLINC tl6` -/
theorem test_word_tlinc :
    decode [0x8C403CFB, 0x00000006] = .ok (.tlinc ⟨false, false, 0, 121, 123, .x1 0x6⟩, []) := rfl
/-- `YIELD!` -/
theorem test_word_yield :
    decode [0xCC603DFB] = .ok (.yield ⟨true, false, 0, 123, 123, .none⟩, []) := rfl
/-- `TAIL!` -/
theorem test_word_tail :
    decode [0xCDA03DFB] = .ok (.tail ⟨true, false, 0, 123, 123, .none⟩, []) := rfl
/-- `BARI #1, #4` -/
theorem test_word_bari :
    decode [0x8CA03CFB, 0x00000041] = .ok (.bari ⟨false, false, 0, 121, 123, .x1 0x41⟩, []) := rfl
/-- `BARA #2` -/
theorem test_word_bara :
    decode [0x8CC03CFB, 0x00000002] = .ok (.bara ⟨false, false, 0, 121, 123, .x1 0x2⟩, []) := rfl
/-- `BARW! #1` -/
theorem test_word_barw :
    decode [0xCCE03CFB, 0x00000001] = .ok (.barw ⟨true, false, 0, 121, 123, .x1 0x1⟩, []) := rfl
/-- `BARO #2` -/
theorem test_word_baro :
    decode [0x8D003CFB, 0x00000002] = .ok (.baro ⟨false, false, 0, 121, 123, .x1 0x2⟩, []) := rfl
/-- `RGRP!` -/
theorem test_word_rgrp :
    decode [0x55C03DFB] = .ok (.rgrp ⟨true, false, 0, 123, 123, .none⟩, []) := rfl
/-- `CPY.sp.g.stg s30:s31, s8, s4:s5, s9` -/
theorem test_word_cpy :
    decode [0x94078404, 0x12000041] = .ok (.cpy ⟨false, false, 30, 8, 4, .x2 9 0 0x41⟩, []) := rfl
/-- `CPYL.t.sr s30:s31, s10, s11` -/
theorem test_word_cpyl :
    decode [0x9427850B, 0xF6000011] = .ok (.cpyl ⟨false, false, 30, 10, 11, .x2 123 0 0x11⟩, []) := rfl
/-- `THFLUSH s6` -/
theorem test_word_thflush :
    decode [0x9060037B] = .ok (.thflush ⟨false, false, 0, 6, 123, .none⟩, []) := rfl
/-- `MMA.lat.a s30:s31, acc1, s16` -/
theorem test_word_mma :
    decode [0x9007BDFB, 0xF6800041] = .ok (.mma ⟨false, false, 30, 123, 123, .x2 123 16 0x41⟩, []) := rfl
/-- `GANG.g3 s12` -/
theorem test_word_gang :
    decode [0x8DE0067B, 0xF6000003] = .ok (.gang ⟨false, false, 0, 12, 123, .x2 123 0 0x3⟩, []) := rfl
/-- `MZERO #2` -/
theorem test_word_mzero :
    decode [0x90203CFB, 0x00000002] = .ok (.mzero ⟨false, false, 0, 121, 123, .x1 0x2⟩, []) := rfl
/-- `MDRAIN.bf16.t.e4m3 s32:s33, acc1, s40` -/
theorem test_word_mdrain :
    decode [0x90483DFB, 0xF7403031] = .ok (.mdrain ⟨false, false, 32, 123, 123, .x2 123 40 0x3031⟩, []) := rfl
/-- `XCHG v3, v3, s20` -/
theorem test_word_xchg :
    decode [0x15A0C1FB, 0xF6A00000] = .ok (.xchg ⟨false, false, 3, 3, 123, .x2 123 20 0x0⟩, []) := rfl
/-- `BCINIT.g2 [s8:s9], s10, s11` -/
theorem test_word_bcinit :
    decode [0x9500050B, 0xF6450000] = .ok (.bcinit ⟨false, false, 0, 10, 11, .x2 123 8 0x50000⟩, []) := rfl
/-- `BCDEC v4, [s8:s9 + v2], v5` -/
theorem test_word_bcdec :
    decode [0x19410105, 0xF6400000] = .ok (.bcdec ⟨false, false, 4, 2, 5, .x2 123 8 0x0⟩, []) := rfl
/-- `BCINC [s8:s9 + v2], v5` -/
theorem test_word_bcinc :
    decode [0x19600105, 0xF6400000] = .ok (.bcinc ⟨false, false, 0, 2, 5, .x2 123 8 0x0⟩, []) := rfl
/-- `BCREAD v6, [s8:s9]` -/
theorem test_word_bcread :
    decode [0x1981BDFB, 0xF6400000] = .ok (.bcread ⟨false, false, 6, 123, 123, .x2 123 8 0x0⟩, []) := rfl
/-- `WAITM.ne.package! [s4:s5], s6` -/
theorem test_word_waitm :
    decode [0xCD60037B, 0xF6215000] = .ok (.waitm ⟨true, false, 0, 6, 123, .x2 123 4 0x15000⟩, []) := rfl
/-- `SETGRP #3, s20` -/
theorem test_word_setgrp :
    decode [0x8DC03DFB, 0xF6A00003] = .ok (.setgrp ⟨false, false, 0, 123, 123, .x2 123 20 0x3⟩, []) := rfl
/-- `LDGR.f32.add v8, [grp2: v3 + 0x40]` -/
theorem test_word_ldgr :
    decode [0x18E201FB, 0xF6002040] = .ok (.ldgr ⟨false, false, 8, 3, 123, .x2 123 0 0x2040⟩, []) := rfl
/-- `FCLOSE v6, v2, v9` -/
theorem test_word_fclose :
    decode [0x1A818109, 0xF6000000] = .ok (.fclose ⟨false, false, 6, 2, 9, .x2 123 0 0x0⟩, []) := rfl
/-- `BSINS s12, v3, v10:v11, #2` -/
theorem test_word_bsins :
    decode [0x1AE0018A, 0xF2600002] = .ok (.bsins ⟨false, false, 0, 3, 10, .x2 121 12 0x2⟩, []) := rfl
/-- `BSDEL s12, v3, #1` -/
theorem test_word_bsdel :
    decode [0x1B0001FB, 0xF2600001] = .ok (.bsdel ⟨false, false, 0, 3, 123, .x2 121 12 0x1⟩, []) := rfl
/-- `BKLOAD s30:s31, s20:s21, s6, [s8:s9]` -/
theorem test_word_bkload :
    decode [0x94478A06, 0xF6400000] = .ok (.bkload ⟨false, false, 30, 20, 6, .x2 123 8 0x0⟩, []) := rfl
/-- `BKCMD.bf16 s30:s31, s40` -/
theorem test_word_bkcmd :
    decode [0x9467BDFB, 0xF7400000] = .ok (.bkcmd ⟨false, false, 30, 123, 123, .x2 123 40 0x0⟩, []) := rfl
/-- `BKCMD.bf16.dup -, s40` -/
theorem test_word_bkcmd_2 :
    decode [0xB4603DFB, 0xF7400001] = .ok (.bkcmd ⟨false, true, 0, 123, 123, .x2 123 40 0x1⟩, []) := rfl
/-- `SCANQ s30:s31, s16` -/
theorem test_word_scanq :
    decode [0x9487BDFB, 0xF6800000] = .ok (.scanq ⟨false, false, 30, 123, 123, .x2 123 16 0x0⟩, []) := rfl
/-- `CLEANR s30:s31, [s8:s9], s10` -/
theorem test_word_cleanr :
    decode [0x94A7857B, 0xF6400000] = .ok (.cleanr ⟨false, false, 30, 10, 123, .x2 123 8 0x0⟩, []) := rfl
/-- `INVR -, [s8:s9], s10` -/
theorem test_word_invr :
    decode [0xB4C0057B, 0xF6400000] = .ok (.invr ⟨false, true, 0, 10, 123, .x2 123 8 0x0⟩, []) := rfl
/-- `GBAR! #3` -/
theorem test_word_gbar :
    decode [0xCD803CFB, 0x00000003] = .ok (.gbar ⟨true, false, 0, 121, 123, .x1 0x3⟩, []) := rfl
/-- `CPY.g.g.rdst s30:s31, s4:s5, s6:s7, s9, s12` -/
theorem test_word_cpy_2 :
    decode [0x94078206, 0x12600010] = .ok (.cpy ⟨false, false, 30, 4, 6, .x2 9 12 0x10⟩, []) := rfl

/-! ## States that meet the hypotheses of the statements about instruction words -/

theorem witness_LaneIntegerResults :
    Issues false lane1 (fl 15 0 123) (st tr) tr ∧ Issues false lane2 (fl 0 15 124) (st { tr with pos := tr.pos.advance false (.lane []) })
      { tr with pos := tr.pos.advance false (.lane []) } ∧
    Issues false lane3 (fx 1 120 121 122 63 (-1)) (st tr) tr ∧ Issues false (bfiOf (fx 1 2 3 4 0 32)) (fx 1 2 3 4 0 32) (st tr) tr ∧
    Issues false leaOf (fx 1 2 3 123 0 7) (st tr) tr ∧ Issues false pair2 (fl 14 0 14) (st tr) tr ∧
    Issues false pair3 (fx 14 0 2 4 0 0) (st tr) tr ∧ Issues false pairShift (fl 14 0 15) (st tr) tr ∧
    Issues false triple2 (fl 61 0 15) (st tr) tr := by
  refine ⟨?_, ?_, ?_, ?_, ?_, ?_, ?_, ?_, ?_⟩ <;> exact ok_issues (by decide +kernel)

theorem witness_ScalarInstructionResults :
    Issues true scalar1 (fl 63 0 123) (st tr) tr ∧ Issues true scalar2 (fl 63 63 123) (st tr) tr ∧
    Issues true scalar3 (fx 0 63 121 1 0 (-1)) (st tr) tr ∧ Issues true scalarPair2 (fl 62 62 0) (st tr) tr ∧
    Issues true (sbfiOf (fx 0 1 2 3 0 32)) (fx 0 1 2 3 0 32) (st tr) tr ∧ Issues true sleaOf (fx 0 1 2 123 0 7) (st tr) tr := by
  refine ⟨?_, ?_, ?_, ?_, ?_, ?_⟩ <;> exact ok_issues (by decide +kernel)

/-- LANERD and LANEWR of lanes 95 and 96. -/
theorem witness_LaneMoveResults :
    (∀ p ∈ [(95, true), (96, false)],
      let t := sr 5 (BitVec.ofNat 32 p.1) tr
      (Issues true (lanerdOf (fx 4 123 5 123 0 15)) (fx 4 123 5 123 0 15) (st t) t ∧
       Issues true (lanewrOf (fx 0 3 5 123 0 15)) (fx 0 3 5 123 0 15) (st t) t) ∧
      decide ((t.ub (fx 4 123 5 123 0 15)).toNat < 96) = p.2 ∧ decide ((t.ub (fx 0 3 5 123 0 15)).toNat < 96) = p.2) := by
  intro p hp
  simp only [List.mem_cons, List.not_mem_nil, or_false] at hp
  rcases hp with rfl | rfl <;>
    refine ⟨⟨ok_issues (by decide +kernel), ok_issues (by decide +kernel)⟩, by decide +kernel, by decide +kernel⟩

theorem witness_FloatInstructionResults :
    Issues false lane1 (fl 1 120 123) (st tr) tr ∨ Issues false lane1 (fl 1 2 123) (st tr) tr :=
  .inr (ok_issues (by decide +kernel))

theorem witness_FormatValues :
    (fp32, 8, 23) ∈ ieeeFormats ∧ isNan 8 23 0x7F800001 = true ∧ isSignalling 8 23 0x7F800001 = true ∧ isNan 8 23 0xFFFFFFFF = true ∧
    isSignalling 8 23 0xFFFFFFFF = false ∧ isFinite 8 23 0x7F7FFFFF = true ∧ isFinite 8 23 0x80000001 = true ∧
    (e2m1.decode 15).isNaN = false ∧ (e4m3.decode 0x7E).isNaN = false := by
  refine ⟨by simp [ieeeFormats], ?_, ?_, ?_, ?_, ?_, ?_, ?_, ?_⟩ <;> decide +kernel

theorem witness_SpecialFunctionFixedResults :
    isNan 8 23 0xFF800001 = true ∧ 2 ^ 31 < 0x80000001 ∧ 0x80000001 ≤ 0xFF800000 ∧ 0x43000000 ≤ 0x7F7FFFFF ∧ 0x7F7FFFFF < 0x7F800000 := by
  refine ⟨?_, ?_, ?_, ?_, ?_⟩ <;> decide +kernel

/-- CVT to a target named in the instruction, one named in fmt that it accepts, and one that it does not. -/
theorem witness_ConversionResults_cvt :
    (∀ p ∈ [((fx 1 2 123 123 0 0x001 : Fields), tr, true), (fx 1 2 123 123 0 0x00F, tr, true),
        (fx 1 2 123 123 0 0x00F, { tr with fmt := 0x800 }, false)],
      Issues false (cvtOf p.1) p.1 (st p.2.1) p.2.1 ∧
      decide (targetOf p.1 p.2.1 ∈ cvtFormats ∧ targetOf p.1 p.2.1 ≠ Fields.x p.1 7 4) = p.2.2) := by
  intro p hp
  simp only [List.mem_cons, List.not_mem_nil, or_false] at hp
  rcases hp with rfl | rfl | rfl <;> exact ⟨ok_issues (by decide +kernel), by decide +kernel⟩

/-- CVTPK into BF16 by fmt.CF, with C = zr and with a C that holds something. -/
theorem witness_ConversionResults_cvtpk :
    (∀ p ∈ [((fx 1 2 3 123 0 0x00F : Fields), true), (fx 1 2 3 4 0 0x00F, false)], let t := { tr with fmt := 0x100 }
      Issues false (cvtpkOf p.1) p.1 (st t) t ∧
      decide (Fields.x p.1 14 12 < packLimit (targetOf p.1 t) ∧ (targetOf p.1 t = 1 ∨ targetOf p.1 t = 2 → Fields.c p.1 = 123)) = p.2) := by
  intro p hp
  simp only [List.mem_cons, List.not_mem_nil, or_false] at hp
  rcases hp with rfl | rfl <;> exact ⟨ok_issues (by decide +kernel), by decide +kernel⟩

theorem witness_ConversionResults :
    (∀ p ∈ [((cvtpkOf : Fields → Shape), (fx 1 2 3 4 0 0x1003 : Fields)), (cvtunpkOf, fx 1 2 123 123 0 0x3030), (cvtbsOf, fx 1 2 3 123 0 0x003),
        (cvtbsOf, fx 1 2 3 123 0 0x1030), (cvtmxOf, fx 1 2 123 123 0 0x008), (cvtmxOf, fx 1 2 123 123 0 0x1080), (cvtpkOf, fx 1 2 3 123 0 0x401)],
      Issues false (p.1 p.2) p.2 (st tr) tr) ∧ Issues false lane1 (fl 1 2 123) (st tr) tr ∧ isMxCode 3 = true ∧ isMxCode 9 = false := by
  refine ⟨?_, ok_issues (by decide +kernel), by decide, by decide⟩
  intro p hp
  simp only [List.mem_cons, List.not_mem_nil, or_false] at hp
  rcases hp with rfl | rfl | rfl | rfl | rfl | rfl | rfl <;> exact ok_issues (by decide +kernel)

theorem witness_CrossLaneResults :
    Issues false (lgetOf (fx 1 2 121 3 61 127)) (fx 1 2 121 3 61 127) (st tr) tr ∧
    Issues false (pollOf .scalar (fx 63 2 123 123 61 0)) (fx 63 2 123 123 61 0) (st tr) tr ∧
    Issues false (pollOf .triple (fx 61 121 123 123 0 1)) (fx 61 121 123 123 0 1) (st tr) tr := by
  refine ⟨?_, ?_, ?_⟩ <;> exact ok_issues (by decide +kernel)

theorem witness_ReductionResults :
    Issues false (reductionOf (fx 5 2 123 123 0 2) 2) (fx 5 2 123 123 0 2) (st tr) tr ∧
    Issues false (reductionOf (fx 5 2 123 123 0 6) 6) (fx 5 2 123 123 0 6) (st tr) tr := by
  refine ⟨?_, ?_⟩ <;> exact ok_issues (by decide +kernel)

/-! ### Cross-lane exchange -/

/-- Two troupes of one company: the wid of the second is 1. -/
def hdr2 : Header := { hdr with troupes := 2, exts := [2] }
def la2 : Launch := { la with hdr := hdr2 }
def tr2 : Troupe := { tr with uid := 5, wid := 1, slot := 1 }
def st2 (t u : Troupe) (l : Launch) : State := { stWith t co l with troupes := [t, u] }

/-- An edge value in flight, and the publication that it takes. -/
def edge : PendingEdge := { n := 0, left := false, active := true, dest := some 3, latch := 0, act := 0 }
def pub : Publication := { wid := 1, n := 0, lane0 := 7, lane95 := 8 }

theorem witness_NeighbourExchange :
    (Issues false lane1 (fl 3 2 123) (st tr) tr ∧ (st tr).leadOk tr = true ∧ (st tr).neighbourWid? tr true = none ∧
      (st tr).neighbourWid? tr false = none) ∧
    (let t := { tr with xc := 62 }
     Issues false lane1 (fl 3 2 123) (st2 t tr2 la2) t ∧ (st2 t tr2 la2).leadOk t = true ∧
      (st2 t tr2 la2).neighbourWid? t false = some 1 ∧ t.xc < 63) ∧
    (let t := { tr with xc := 1, edges := [edge] }
     let s := st2 t tr2 { la2 with pubs := [pub] }
     s.troupe? t.uid = some t ∧ t.resident = true ∧ t.edges.find? (·.n == edge.n) = some edge ∧ s.edgeValue? t edge = some 7) ∧
    (let s := st2 tr tr2 { la2 with retiredWids := [1] }
     s.launch? tr.lid = some { la2 with retiredWids := [1] } ∧ s.neighbourWid? tr edge.left = some 1) := by
  refine ⟨⟨ok_issues (by decide +kernel), ?_, ?_, ?_⟩, ⟨ok_issues (by decide +kernel), ?_, ?_, ?_⟩, ⟨?_, ?_, ?_, ?_⟩, ?_, ?_⟩ <;>
    decide +kernel

/-- The exchanges of the two troupes with each other. -/
def sentOne : Xchg :=
  { uid := 1, lid := 3, wid := 0, partner := 1, k := 0, row := List.replicate 96 7, active := 1, dest := some 3, n := 0, latch := 0, act := 0,
    done := false }
def sentTwo : Xchg := { sentOne with uid := 5, wid := 1, partner := 0, row := List.replicate 96 8 }

theorem witness_ExchangeIssue :
    (let t := sr 20 1 tr
     Issues false (xchgShape (fx 3 3 123 123 20 0)) (fx 3 3 123 123 20 0) (st2 t tr2 la2) t ∧
      partnerOk (fx 3 3 123 123 20 0) (st2 t tr2 la2) t = true ∧ (st2 t tr2 la2).leadOk t = true ∧ t.xc < 63) ∧
    (Issues false (xchgShape (fx 3 3 123 123 20 0)) (fx 3 3 123 123 20 0) (st2 tr tr2 la2) tr ∧
      partnerOk (fx 3 3 123 123 20 0) (st2 tr tr2 la2) tr = false ∧ tr.act ≠ 0) ∧
    (∀ core ∈ [15, 16], let s := { st2 { tr with xc := 1 } { tr2 with xc := 1, core := core } la2 with xchgs := [sentOne, sentTwo] }
      s.matching? sentOne = some sentTwo ∧ s.troupe? 1 = some { tr with xc := 1 } ∧
      s.troupe? 5 = some { tr2 with xc := 1, core := core } ∧ (s.residentCore? 1).isSome = true ∧ (s.residentCore? 5).isSome = true ∧
      decide (lagoonOf 0 = lagoonOf core) = decide (core = 15)) ∧
    (∀ gone ∈ [[], [(1 : DWord)]], let s := { st2 { tr with xc := 1 } tr2 { la2 with retiredWids := gone } with xchgs := [sentOne] }
      s.matching? sentOne = none ∧ s.troupe? 1 = some { tr with xc := 1 } ∧ s.widRetired 3 1 = decide (gone ≠ [])) := by
  refine ⟨⟨ok_issues (by decide +kernel), ?_, ?_, ?_⟩, ⟨ok_issues (by decide +kernel), ?_, ?_⟩, ?_, ?_⟩ <;> decide +kernel

def entry : StackEntry := { rpc := 64, ft := 16, full := -1, nt := 1, fmt := 0, phase := false }

theorem witness_Regrouping :
    (Issues false regroupShape (fl 0 123 123) (st tr) tr ∧ tr.stack = [] ∧ tr.ld = 0 ∧ tr.xc = 0 ∧ tr.ul = 0) ∧
    (let t := { tr with stack := [entry] }
     Issues false regroupShape (fl 0 123 123) (st t) t ∧ t.stack ≠ []) ∧
    (let t := { tr with park := .rgrp, act := 5, exited := 2 }
     let u := { tr2 with park := .rgrp, act := 3 }
     let s := st2 t u la2
     s.regroupTroupes t.cid = [t, u] ∧ (∀ x ∈ [t, u], x.park = .rgrp ∧ s.troupe? x.uid = some x) ∧ [t, u].Nodup) ∧
    (∃ x ∈ (st2 { tr with park := .rgrp } tr2 la2).regroupTroupes tr.cid, x.park ≠ .rgrp) := by
  refine ⟨⟨ok_issues (by decide +kernel), ?_, ?_, ?_, ?_⟩, ⟨ok_issues (by decide +kernel), ?_⟩, ⟨?_, ?_, ?_⟩, ?_⟩ <;> decide +kernel

/-! ### Memory accesses -/

/-- The first GiB mapped one to one, readable, writable, executable. -/
def mapped (s : State) : State :=
  s.updCore 0 fun c => { c with tlb := [{ root := 0, vbase := 0, size := 2 ^ 30, entry := 0x1F }] }

/-- Lane 95 alone active, its offset in v2. -/
def one95 (a : Word) : Troupe := ({ tr with act := BitVec.ofNat 96 (2 ^ 95) } : Troupe).setVLane 2 95 a

def req95 (a : Nat) (d : BitVec 128) : LaneReq :=
  { lane := 95, addr := a, pa := a, entry := 0x1F, psize := 2 ^ 30, data := d, cmp := 0, done := false, result := 0, miss := none,
    status := 0, taddr := 0, refused := false, refusals := 0, rdcRefusals := 0, heldUntil := 0 }

/-- The same GiB by a page table, with no TLB entry: level 4 at 0, level 3 at 4096. -/
def tables (s : State) : State := { s with mem := putBytes (putBytes [] 0 [1, 0x10]) 4096 [0x1F] }

def lanesOk (s : State) (t : Troupe) (n : Nat) (p : Perm) (addr : Nat → Nat) : Bool :=
  (List.range 96).all fun i => !t.active i || (decide (addr i % n = 0) &&
    match s.translateRoot (s.rootOf t.lid) (addr i) p with
    | .ok _ _ _ => true
    | _ => false)

theorem lanesOk_map {s : State} {t : Troupe} {n : Nat} {p : Perm} {addr : Nat → Nat} (h : lanesOk s t n p addr = true) :
    LanesMap s t n p addr := by
  intro i hi ha
  have h := List.all_eq_true.mp h i (List.mem_range.mpr hi)
  simp only [ha, Bool.not_true, Bool.false_or, Bool.and_eq_true, decide_eq_true_eq] at h
  refine ⟨h.1, ?_⟩
  cases e : s.translateRoot (s.rootOf t.lid) (addr i) p with
  | ok pa en ps => exact ⟨pa, en, ps, rfl⟩
  | _ => simp [e] at h

theorem noTlbs_agree {s : State} {core : Nat} (h : (s.core core).tlb ++ (s.die (dieOf core)).tlb = []) : TlbsAgree s core := by
  intro x hx
  rw [h] at hx
  cases hx

/-- LD.g.b64, LD.g.acq, LD.g.ns, LDRO.ns, ST.g, ST.g.rel, each of lane 95. -/
def globals : List (Fields × Bool × Bool) :=
  [(fx 5 2 123 123 4 0x00000, true, true), (fx 4 2 123 123 4 0x36000, true, true), (fx 4 2 123 123 4 0x40000, true, true),
   (fx 5 2 123 123 4 0x40000, true, false), (fx 0 2 3 123 4 0x00000, false, false), (fx 0 2 4 123 4 0x36000, false, false)]

theorem witness_GlobalAccessIssue :
    (∀ p ∈ globals,
      let f := p.1
      let sh := if p.2.1 then loadOf f true true p.2.2 else storeOf f true
      let t := one95 64
      Issues false sh f (mapped (st t)) t ∧ t.ld < 63 ∧ t.st < 63 ∧ (∀ o ∈ t.ops, o.sync = false) ∧
      (mapped (st t)).globalLanes t (bytesOf (Fields.x f 14 12)) (if p.2.1 then .r else .w) (addressOf f t) =
        (mapped (st t), .go [req95 64 0])) ∧
    (∀ p ∈ globals,
      let f := p.1
      let sh := if p.2.1 then loadOf f true true p.2.2 else storeOf f true
      let t := one95 64
      Issues false sh f (tables (st t)) t ∧ (∀ o ∈ t.ops, o.sync = false) ∧ (tables (st t)).poisonTraps t = false ∧ TlbsAgree (tables (st t)) t.core ∧
      LanesMap (tables (st t)) t (bytesOf (Fields.x f 14 12)) (if p.2.1 then .r else .w) (addressOf f t)) ∧
    (Perm.r ≠ .rw ∧ Perm.w ≠ .rw ∧ Perm.x ≠ .rw ∧
      (tlbFind 0 64 (((mapped (st tr)).core 0).microTlb .lsu)).isSome = true ∧
      (let s := (st tr).updDie 0 fun d => { d with tlb := [{ root := 0, vbase := 0, size := 2 ^ 30, entry := 0x1F }] }
       tlbFind 0 64 ((s.core 0).microTlb .lsu) = none ∧ (tlbFind 0 64 (s.die (dieOf 0)).tlb).isSome = true) ∧
      tlbFind 0 64 (((st tr).core 0).microTlb .lsu) = none ∧ tlbFind 0 64 ((st tr).die (dieOf 0)).tlb = none) := by
  refine ⟨?_, ?_, ?_⟩
  · intro p hp
    simp only [globals, List.mem_cons, List.not_mem_nil, or_false] at hp
    rcases hp with rfl | rfl | rfl | rfl | rfl | rfl <;>
      refine ⟨ok_issues (by decide +kernel), ?_, ?_, ?_, ?_⟩ <;> decide +kernel
  · intro p hp
    simp only [globals, List.mem_cons, List.not_mem_nil, or_false] at hp
    rcases hp with rfl | rfl | rfl | rfl | rfl | rfl <;>
      exact ⟨ok_issues (by decide +kernel), by decide +kernel, by decide +kernel, noTlbs_agree (by decide +kernel), lanesOk_map (by decide +kernel)⟩
  · decide +kernel

/-- An operation in flight of one lane. -/
def opOf (kind : MemKind) (load : Bool) (r : LaneReq) : MemOp :=
  { id := 0, kind := kind, sub := 0, acquire := false, release := false, scope := 0, dest := if load then some 15 else none,
    latch := 0, act := 0, raisesLd := load, raisesSt := !load, lanes := [r], samples := [], flags := 0, released := none, since := 0, sync := false }
def flying (o : MemOp) : Troupe := withOp tr o

/-- The same state in a launch that traps on poison. -/
def poisonous (s : State) : State :=
  s.updRm fun r => { r with launches := r.launches.map fun l => { l with hdr := { l.hdr with poison := true } } }

/-- LD.g of lane 95 in such a launch: issued; then waited for, with poison met, and come back. -/
theorem witness_AwaitedAccesses :
    (let t := one95 64
     let s := poisonous (mapped (st t))
     let f := fx 5 2 123 123 4 0
     Issues false (loadOf f true true true) f s t ∧ t.ld < 63 ∧ (∀ o ∈ t.ops, o.sync = false) ∧ s.poisonTraps t = true ∧
     s.globalLanes t 4 .r (addressOf f t) = (s, .go [req95 64 0])) ∧
    (∀ p ∈ [(false, 0), (true, 16), (true, 0)],
      let r := { req95 64 5 with done := p.1, status := p.2 }
      let o := { opOf (.loadG false) true r with sync := true }
      let t := withOp (one95 64) o
      let f := fx 15 2 123 123 4 0
      Issues false (loadOf f true true true) f (poisonous (st t)) t ∧ t.ops.find? (·.sync) = some o ∧
      (o.lanes.any fun x => !x.done) = !p.1 ∧ o.lanes.filter (fun x => x.status != 0) = (if p.2 = 16 then [r] else []) ∧
      (∀ x ∈ o.lanes, x.lane < 96) ∧ (o.lanes.map (·.lane)).Nodup ∧ o.dest = some 15 ∧ 15 + o.width ≤ t.v.length) := by
  refine ⟨⟨ok_issues (by decide +kernel), ?_, ?_, ?_, ?_⟩, ?_⟩
  rotate_left 4
  · intro p hp
    simp only [List.mem_cons, List.not_mem_nil, or_false] at hp
    rcases hp with rfl | rfl | rfl <;> refine ⟨ok_issues (by decide +kernel), ?_, ?_, ?_, ?_, ?_, ?_, ?_⟩ <;> decide +kernel
  all_goals decide +kernel

/-- The last word of the scratchpad; offsets of lane 95. -/
def last : Nat := 12 * 98304 - 4

theorem witness_ScratchpadIssue :
    (let t := one95 (BitVec.ofNat 32 last)
     let f := fx 5 2 123 123 0 0
     let g := fx 0 2 3 123 0 0
     (∀ i, i < 96 → t.active i = true → offsetOf f t i % 4 = 0 ∧ offsetOf f t i + 4 ≤ spadSize (st t) t) ∧
     (∀ i, i < 96 → t.active i = true → lineEmpty (st t) t (offsetOf f t i) = false) ∧
     Issues false (loadOf f false false true) f (st t) t ∧ t.ld < 63 ∧ (∀ o ∈ t.ops, o.sync = false) ∧
     Issues false (storeOf g false) g (st t) t ∧ t.st < 63) ∧
    (let t := withOp (one95 (BitVec.ofNat 32 last)) (opOf (.storeSp false) false (req95 (last - 192) 0))
     let f := fx 5 2 123 123 0 0
     Issues false (loadOf f false false true) f (st t) t ∧ t.ld < 63 ∧ Fields.x f 14 12 < 5 ∧ (∀ o ∈ t.ops, o.sync = false) ∧
     (st t).company? t.cid = some co ∧
     (∀ i, i < 96 → t.active i = true → lineEmpty (st t) t (offsetOf f t i) = false ∧ co.isPoisoned (offsetOf f t i) 4 = false) ∧
     (∀ o ∈ t.ops, o.acquire = false ∧ ∀ i, i < 96 → t.active i = true → (st t).groupMeets t o (192 * (offsetOf f t i / 192)) 192 = false ∧
       (o.isSpad = true → ∀ x ∈ o.lanes, x.addr / 192 ≠ offsetOf f t i / 192)) ∧
     (∀ u ∈ (st t).troupes, u.cid = t.cid → u.uid ≠ t.uid → ∀ o ∈ u.ops, o.released = none)) := by
  refine ⟨⟨?_, ?_, ok_issues (by decide +kernel), ?_, ?_, ok_issues (by decide +kernel), ?_⟩, ok_issues (by decide +kernel), ?_, ?_, ?_, ?_, ?_, ?_, ?_⟩ <;>
    decide +kernel

theorem witness_AccessChecksTrap :
    (let t := one95 2
     let f := fx 5 2 123 123 0 0
     Issues false (loadOf f false false true) f (st t) t ∧ t.ld < 63 ∧ (∀ o ∈ t.ops, o.sync = false) ∧
     lowestWith t (fun i => decide (offsetOf f t i % 4 ≠ 0)) = some 95) ∧
    (let t := one95 2
     let f := fx 0 2 3 123 4 0
     Issues false (storeOf f true) f (st t) t ∧ t.st < 63 ∧ lowestWith t (fun i => decide (addressOf f t i % 4 ≠ 0)) = some 95) ∧
    (let t := one95 (BitVec.ofNat 32 (last + 4))
     let f := fx 5 2 123 123 0 0
     let g := fx 0 2 3 123 0 0
     Issues false (loadOf f false false true) f (st t) t ∧ Issues false (storeOf g false) g (st t) t ∧ t.ld < 63 ∧ t.st < 63 ∧
     lowestWith t (fun i => decide (offsetOf f t i % 4 ≠ 0)) = none ∧
     lowestWith t (fun i => decide (spadSize (st t) t < offsetOf f t i + 4)) = some 95) := by
  refine ⟨⟨ok_issues (by decide +kernel), ?_, ?_, ?_⟩, ⟨ok_issues (by decide +kernel), ?_, ?_⟩, ok_issues (by decide +kernel), ok_issues (by decide +kernel),
    ?_, ?_, ?_, ?_⟩ <;> decide +kernel

/-- ATOM.add without and ATOM.cas64 with an order, N = 1 among them; ATOM.sp on the last word. -/
theorem witness_Atomics :
    (∀ f ∈ [fx 2 2 3 123 4 0x00000, fx 2 2 4 6 4 0x4FC00, ⟨true, true, 0, 2, 3, .x2 123 4 0⟩],
      let t := one95 64
      Issues false (atomicOf f true) f (mapped (st t)) t ∧ t.ld < 63 ∧ t.st < 63 ∧ (∀ o ∈ t.ops, o.sync = false) ∧
      (mapped (st t)).globalLanes t (atomicBytes f) .w (atomicAddress f t) = (mapped (st t), .go [req95 64 0])) ∧
    (∀ bad ∈ [false, true], let t := one95 64
      let f := fx 2 2 3 123 4 0
      let s := if bad then { poisonous (mapped (st t)) with poison := [65] } else poisonous (mapped (st t))
      Issues false (atomicOf f true) f s t ∧ t.ld < 63 ∧ s.globalLanes t 4 .w (atomicAddress f t) = (s, .go [req95 64 0]) ∧
      s.poisonTraps t = true ∧ s.lanePoisoned t (atomicInFlight f s t .atomG [req95 64 0]) (req95 64 0) = bad) ∧
    (let t := one95 (BitVec.ofNat 32 last)
     let f := fx 2 2 3 123 0 0
     Issues false (atomicOf f false) f (st t) t ∧
     ∀ i, i < 96 → t.active i = true → atomicOffset f t i % atomicBytes f = 0 ∧ atomicOffset f t i + atomicBytes f ≤ spadSize (st t) t) ∧
    (15 < 16 ∧ 15 ∉ [10, 11, 12] ∧ 2 ^ 64 - 1 < 2 ^ (if 13 ≤ 15 then 64 else 32)) := by
  refine ⟨?_, ?_, ⟨ok_issues (by decide +kernel), by decide +kernel⟩, by decide⟩
  rotate_left 1
  · intro bad h
    simp only [List.mem_cons, List.not_mem_nil, or_false] at h
    rcases h with rfl | rfl <;> refine ⟨ok_issues (by decide +kernel), ?_, ?_, ?_, ?_⟩ <;> decide +kernel
  intro p hp
  simp only [List.mem_cons, List.not_mem_nil, or_false] at hp
  rcases hp with rfl | rfl | rfl <;> refine ⟨ok_issues (by decide +kernel), ?_, ?_, ?_, ?_⟩ <;> decide +kernel

theorem witness_ScratchpadAccesses :
    (let r := req95 last 0x11223344
     let o := opOf (.storeSp false) false r
     let t := flying o
     (st t).troupe? t.uid = some t ∧ t.op? o.id = some o ∧ o.lanes.find? (·.lane == r.lane) = some r ∧ (st t).laneEnabled t o r = true ∧
     (st t).company? t.cid = some co ∧ co.spad.wf = true) ∧
    (let r := { req95 last 0x11223344 with lane := 7 }
     let o := { opOf (.storeSp true) false r with lanes := [r, req95 last 5] }
     let t := flying o
     (st t).troupe? t.uid = some t ∧ t.op? o.id = some o ∧ o.lanes.find? (·.lane == r.lane) = some r ∧ (st t).laneEnabled t o r = true ∧
     (st t).company? t.cid = some co ∧ co.spad.wf = true ∧
     ∀ x ∈ o.lanes.filter (fun x => !x.done && x.addr / 192 == r.addr / 192), (st t).laneFree t o x = true) ∧
    (let q := { req95 (last - 8) 0 with lane := 7 }
     let r := req95 last 0x11223344
     let o1 := opOf .loadSp true q
     let o := { opOf (.storeSp true) false r with id := 1, lanes := [q, r] }
     let t := { flying o1 with ops := [o1, o] }
     (st t).troupe? t.uid = some t ∧ t.op? o.id = some o ∧ o.lanes.find? (·.lane == r.lane) = some r ∧ (st t).laneEnabled t o r = true ∧
     (st t).company? t.cid = some co ∧
     (o.lanes.filter (fun x => !x.done && x.addr / 192 == r.addr / 192)).any (fun x => (st t).laneFree t o x == false) = true) ∧
    (∀ p ∈ [(false, false, false), (true, false, true), (false, true, false), (false, true, true)],
     let r := req95 (last - 12) 0
     let o := { opOf .loadSp true r with sub := 6, dest := some 12, acquire := p.2.2, scope := if p.2.2 then 2 else 0, sync := p.2.1 && p.2.2 }
     let t := flying o
     let c := { co with emptyLines := if p.1 then [r.addr / 192] else [], spadPoison := if p.2.1 then [r.addr] else [] }
     let s := { st t with companies := [c] }
     s.troupe? t.uid = some t ∧ t.op? o.id = some o ∧ o.lanes.find? (·.lane == r.lane) = some r ∧
     s.laneEnabled t o r = true ∧ s.company? t.cid = some c ∧ c.emptyLines.contains (r.addr / 192) = p.1 ∧
     c.isPoisoned r.addr o.size = p.2.1 ∧ (∀ e ∈ t.ops, e.isStore = false) ∧ 12 + o.width ≤ t.v.length ∧ r.lane < 96) := by
  refine ⟨⟨?_, ?_, ?_, ?_, ?_, ?_⟩, ⟨?_, ?_, ?_, ?_, ?_, ?_, ?_⟩, ⟨?_, ?_, ?_, ?_, ?_, ?_⟩, ?_⟩
  rotate_left 19
  · intro p hp
    simp only [List.mem_cons, List.not_mem_nil, or_false] at hp
    rcases hp with rfl | rfl | rfl | rfl <;> refine ⟨?_, ?_, ?_, ?_, ?_, ?_, ?_, ?_, ?_, ?_⟩ <;> decide +kernel
  all_goals decide +kernel

/-- A place of device memory and one of host memory. -/
def place : Loc := { line := 3, off := 188, host := false, die := 0, wt := false, cls := 0, cmp := none }
def hostPlace : Loc := { place with line := 2 ^ 51 / 192 + 1, host := true }

theorem witness_HomeMemory :
    (place.host = false ∧ place.cmp = none ∧ place.wt = false ∧ (st tr).allowanceLine? place.byte 4 = none ∧
      ((st tr).die place.die).regions = [] ∧ place.off + 4 ≤ 192 ∧ (∀ x ∈ (st tr).l2, x.data.length = 192) ∧
      (∀ c ∈ (st tr).cores, ∀ x ∈ c.l1, x.data.length = 192)) ∧
    (hostPlace.host = true ∧ (st tr).mem.wf = true) ∧
    ((st tr).ownedCopy place.line = none ∧ (st tr).l2Get place.line = none ∧ (st tr).l2Victim? place = none) := by
  refine ⟨⟨?_, ?_, ?_, ?_, ?_, ?_, ?_, ?_⟩, ⟨?_, ?_⟩, ?_, ?_, ?_⟩ <;> decide +kernel

/-- Every cached copy is a whole line, and no core has two copies of a line. -/
def soleB (s : State) (core line : Nat) : Bool :=
  (List.range s.cores.length).all (fun i => i == core || (s.core i).l1.all fun x => x.line != line || !x.owned) &&
  decide (((s.core core).l1.filter (·.line == line)).length ≤ 1)

theorem soleB_sole {s : State} {core line : Nat} (h : soleB s core line = true) : SoleCopy s core line := by
  simp only [soleB, Bool.and_eq_true, decide_eq_true_eq] at h
  refine ⟨fun i hi x hx hl => ?_, h.2⟩
  by_cases hlt : i < s.cores.length
  · have h1 := List.all_eq_true.mp h.1 i (List.mem_range.mpr hlt)
    simp only [Bool.or_eq_true, beq_iff_eq, hi, false_or] at h1
    have h2 := List.all_eq_true.mp h1 x hx
    simpa [hl] using h2
  · simp [State.core, List.getElem?_eq_none (Nat.le_of_not_lt hlt), Core.reset] at hx

/-- The state with line 0 owned and dirty in core 0's L1. -/
def owned0 (s : State) : State :=
  s.updCore 0 fun c => { c with l1 := [{ line := 0, data := List.replicate 192 1, owned := true, dirty := true, way := 0 }] }

theorem witness_GlobalAccesses :
    (let r := req95 64 0
     let o := opOf (.loadG false) true r
     let t := flying o
     let s := mapped (st t)
     s.troupe? t.uid = some t ∧ t.op? o.id = some o ∧ o.acquire = false ∧ o.lanes.find? (·.lane == r.lane) = some r ∧
     s.laneEnabled t o r = true ∧ 15 + o.width ≤ t.v.length ∧ r.lane < 96 ∧
     ((s.countHot (s.rootOf t.lid) r.addr r.pa r.entry r.psize).coreRead t.core (s.loc r.pa r.entry r.psize) o.size false).2 =
       ([0, 0, 0, 0], false)) ∧
    (∀ hit ∈ [false, true], let r := req95 64 0
     let o := opOf (.ldro false) true r
     let t := flying o
     let s := mapped (st t)
     let x : CacheLine := { line := 0, data := List.replicate 192 7 }
     let s := if hit then s.updCore 0 fun c => { c with ro := [x] } else s
     let l := s.loc r.pa r.entry r.psize
     s.troupe? t.uid = some t ∧ t.op? o.id = some o ∧ o.acquire = false ∧ o.lanes.find? (·.lane == r.lane) = some r ∧
     s.laneEnabled t o r = true ∧ r.lane < 96 ∧ (s.core t.core).ro.find? (·.line == l.line) = (if hit then some x else none) ∧
     (((s.countHot (s.rootOf t.lid) r.addr r.pa r.entry r.psize).settleInval (dieOf t.core) l.line).dieRead (dieOf t.core) l).1.isPoisoned l o.size =
       false) ∧
    (∀ own ∈ [false, true], let r := req95 64 5
     let o := { opOf .storeG false r with release := own, scope := if own then 2 else 0 }
     let t := flying o
     let s := if own then owned0 (mapped (st t)) else mapped (st t)
     let l := s.loc r.pa r.entry r.psize
     (l.wt = true → l.cmp = none ∧ ∀ x ∈ s.msc, x.coded = none) ∧ releasedFirst s t o = s ∧
     s.troupe? t.uid = some t ∧ t.op? o.id = some o ∧ o.released = none ∧ t.roinvAt ≤ o.id ∧
     o.lanes.find? (·.lane == r.lane) = some r ∧ s.laneEnabled t o r = true ∧ l.host = false ∧ l.cmp = none ∧ (s.die l.die).regions = [] ∧
     s.allowanceLine? l.byte o.size = none ∧ s.l2Victim? l = none ∧ l.off + o.size ≤ 192 ∧ (∀ x ∈ s.l2, x.data.length = 192) ∧
     (∀ c ∈ s.cores, ∀ x ∈ c.l1, x.data.length = 192) ∧ SoleCopy s t.core l.line) ∧
    (let r := { req95 64 5 with pa := 2 ^ 51 }
     let o := opOf .storeG false r
     let t := flying o
     let s := mapped (st t)
     let l := s.loc r.pa r.entry r.psize
     s.troupe? t.uid = some t ∧ s.laneEnabled t o r = true ∧ l.host = true ∧
     (s.core t.core).l1.find? (fun x => x.line == l.line && x.owned) = none ∧ s.mem.wf = true) := by
  refine ⟨⟨?_, ?_, ?_, ?_, ?_, ?_, ?_, ?_⟩, ?_, ?_, ?_, ?_, ?_, ?_, ?_⟩
  rotate_left 9
  · intro own h
    simp only [List.mem_cons, List.not_mem_nil, or_false] at h
    rcases h with rfl | rfl <;>
      refine ⟨?_, ?_, ?_, ?_, ?_, ?_, ?_, ?_, ?_, ?_, ?_, ?_, ?_, ?_, ?_, ?_, soleB_sole ?_⟩ <;> decide +kernel
  all_goals decide +kernel

/-- Atomics: OR on the last word of the scratchpad, .fadd of two lanes at one address, at home and in the L1. -/
theorem witness_AtomicPerformed :
    (∀ sub ∈ [6, 10, 15], let r := { req95 (last - 4) 3 with lane := 7 }
     let o := { opOf .atomSp true r with sub := sub, lanes := [r, req95 (last - 4) 4] }
     let t := flying o
     let s := st t
     s.troupe? t.uid = some t ∧ t.op? o.id = some o ∧ o.released = none ∧ o.lanes.find? (·.lane == r.lane) = some r ∧
     s.laneEnabled t o r = true ∧ (∀ x ∈ o.lanes, x.lane < 96) ∧ s.company? t.cid = some co ∧
     co.isPoisoned r.addr o.size = false ∧ co.spad.wf = true) ∧
    (∀ p ∈ [(0, false), (10, true), (15, true)], let r := { req95 64 3 with lane := 7, pa := if p.2 then 2 ^ 38 else 64 }
     let o := { opOf .atomG true r with sub := p.1, lanes := [r, { req95 64 4 with pa := r.pa }] }
     let t := flying o
     let s := mapped (st t)
     let l := s.loc r.pa r.entry r.psize
     s.troupe? t.uid = some t ∧ t.op? o.id = some o ∧ o.lanes.find? (·.lane == r.lane) = some r ∧
     s.laneEnabled t o r = true ∧ (l.wt = true → l.cmp = none ∧ ∀ x ∈ s.msc, x.coded = none) ∧ (∀ x ∈ o.lanes, x.lane < 96) ∧ o.kind = .atomG ∧ l.host = false ∧ l.cmp = none ∧
     (s.die l.die).regions = [] ∧ s.isPoisoned l o.size = false ∧ s.allowanceLine? l.byte o.size = none ∧ s.l2Victim? l = none ∧
     l.off + o.size ≤ 192 ∧ (∀ x ∈ s.l2, x.data.length = 192) ∧ (∀ c ∈ s.cores, ∀ x ∈ c.l1, x.data.length = 192) ∧
     SoleCopy s t.core l.line ∧ s.atomicAtHome t.core l r.addr = p.2 ∧ t.core < s.cores.length) := by
  refine ⟨?_, ?_⟩
  · intro p hp
    simp only [List.mem_cons, List.not_mem_nil, or_false] at hp
    rcases hp with rfl | rfl | rfl <;> refine ⟨?_, ?_, ?_, ?_, ?_, ?_, ?_, ?_, ?_⟩ <;> decide +kernel
  · intro p hp
    simp only [List.mem_cons, List.not_mem_nil, or_false] at hp
    rcases hp with rfl | rfl | rfl <;>
      refine ⟨?_, ?_, ?_, ?_, ?_, ?_, ?_, ?_, ?_, ?_, ?_, ?_, ?_, ?_, ?_, ?_, soleB_sole ?_, ?_, ?_⟩ <;> decide +kernel

/-! ### Counters, group loads, succinct structures -/

/-- A core-held allowance of 9 on line 0. -/
def allow : State → State := fun s => s.updCore 0 fun c => { c with allowances := [{ at_ := s.loc 0 0x1F (2 ^ 30), amount := 9 }] }

/-- The counter line 192 initialised, with count 5. -/
def begun (s : State) : State := { s with mem := putBytes (putBytes s.mem 192 [5]) (192 + 0x20) [1] }

theorem witness_CounterOperationsGoOut :
    (∀ f ∈ [fx 4 2 5 123 8 0, (⟨true, true, 0, 2, 5, .x2 123 8 0⟩ : Fields)], let t := one95 0
      Issues false (counterOf f .lane .w32) f (allow (mapped (st t))) t ∧ t.ld < 63 ∧ t.st < 63 ∧
      (∀ o ∈ t.ops, o.sync = false) ∧
      (allow (mapped (st t))).counterLanes t (activeLanes t) true (counterAddress f t) = (allow (mapped (st t)), .go [req95 0 0])) ∧
    (let t := one95 0
     Issues false (counterOf (fx 0 2 5 123 8 0) .none .w32) (fx 0 2 5 123 8 0) (mapped (st t)) t ∧
     Issues false (counterOf (fx 4 2 123 123 8 0) .lane .no) (fx 4 2 123 123 8 0) (mapped (st t)) t) ∧
    (∀ f ∈ [fx 0 5 123 123 8 0, fx 0 5 6 123 8 0x78000], let t := one95 0
      Issues true (bcinitOf f) f (mapped (st t)) t ∧ t.st < 63 ∧
      (mapped (st t)).counterLanes t [0] false (fun _ => globalAddr (t.spair (Fields.xs f)) 0 (Fields.disp f 15)) =
        (mapped (st t), .go [{ req95 0 0 with lane := 0 }])) ∧
    (∀ f ∈ [fx 4 2 5 123 8 0, (⟨true, true, 0, 2, 5, .x2 123 8 0⟩ : Fields)], let t := one95 0
      Issues false (counterOf f .lane .w32) f (allow (tables (st t))) t ∧ t.ld < 63 ∧ t.st < 63 ∧
      (∀ o ∈ t.ops, o.sync = false) ∧ (allow (tables (st t))).poisonTraps t = false ∧ TlbsAgree (allow (tables (st t))) t.core ∧
      LanesMap (allow (tables (st t))) t 192 .rw (counterAddress f t) ∧
      ∀ r ∈ globalRequests (allow (tables (st t))) t .rw (counterAddress f t),
        (allow (tables (st t))).ctrPoisoned (placeOf (allow (tables (st t))) r) = false ∧
        (((allow (tables (st t))).allowanceOf t.core (placeOf (allow (tables (st t))) r)).isSome = true ∨
          ((allow (tables (st t))).ctrTouch (placeOf (allow (tables (st t))) r)).ctrLegal (placeOf (allow (tables (st t))) r) = true)) ∧
    (let t := one95 96
     let f := fx 4 2 123 123 8 0x60
     let s := begun (tables (st t))
     Issues false (counterOf f .lane .no) f s t ∧ t.ld < 63 ∧ (∀ o ∈ t.ops, o.sync = false) ∧ s.poisonTraps t = false ∧ TlbsAgree s t.core ∧
     LanesMap s t 192 .rw (counterAddress f t) ∧
      ∀ r ∈ globalRequests s t .rw (counterAddress f t), s.ctrPoisoned (placeOf s r) = false ∧
        ((s.allowanceOf t.core (placeOf s r)).isSome = true ∨ (s.ctrTouch (placeOf s r)).ctrLegal (placeOf s r) = true)) ∧
    (let t := one95 0
     let f := fx 0 5 6 123 8 0x78000
     let s := tables (st t)
     Issues true (bcinitOf f) f s t ∧ t.st < 63 ∧ TlbsAgree s t.core ∧ globalAddr (t.spair 8) 0 (Fields.disp f 15) % 192 = 0 ∧
     s.translateRoot (s.rootOf t.lid) (globalAddr (t.spair 8) 0 (Fields.disp f 15)) .rw = .ok 0 0x1F (2 ^ 30)) := by
  refine ⟨?_, ⟨ok_issues (by decide +kernel), ok_issues (by decide +kernel)⟩, ?_, ?_,
    ⟨ok_issues (by decide +kernel), by decide +kernel, by decide +kernel, by decide +kernel, noTlbs_agree (by decide +kernel), lanesOk_map (by decide +kernel),
      by decide +kernel⟩,
    ok_issues (by decide +kernel), by decide +kernel, noTlbs_agree (by decide +kernel), by decide +kernel, by decide +kernel⟩ <;>
    (intro p hp; simp only [List.mem_cons, List.not_mem_nil, or_false] at hp; rcases hp with rfl | rfl) <;>
    first
    | (refine ⟨ok_issues (by decide +kernel), ?_, ?_, ?_, ?_⟩ <;> decide +kernel)
    | (refine ⟨ok_issues (by decide +kernel), ?_, ?_⟩ <;> decide +kernel)
    | exact ⟨ok_issues (by decide +kernel), by decide +kernel, by decide +kernel, by decide +kernel, by decide +kernel, noTlbs_agree (by decide +kernel),
        lanesOk_map (by decide +kernel), by decide +kernel⟩

/-- What `AtHome` says of a line in one piece, as a check. -/
def atHomeB (s : State) (l : Loc) : Bool :=
  !l.host && (s.die l.die).regions == [] && !l.wt && l.cmp.isNone && l.off == 0 && decide (l.die < s.dieUnits.length) &&
  (s.ownedCopy l.line).isNone && (s.l2Get l.line).any fun x => x.data.length == 192

theorem atHomeB_home {s : State} {l : Loc} (h : atHomeB s l = true) : AtHome s l := by
  simp only [atHomeB, Bool.and_eq_true, Bool.not_eq_true', beq_iff_eq, Option.isNone_iff_eq_none, decide_eq_true_eq] at h
  obtain ⟨⟨⟨⟨⟨⟨⟨h1, h2⟩, h3⟩, h4⟩, h5⟩, h6⟩, h7⟩, h8⟩ := h
  refine ⟨h1, h2, fun hw => by simp [h3] at hw, by omega, h6, fun i hi => ?_⟩
  have hl : (l.plus i).line = l.line := by
    have : i / 192 = 0 := Nat.div_eq_of_lt hi
    simp [Loc.plus, h4, h5, this]
  rw [hl]
  cases e : s.l2Get l.line with
  | none => simp [e] at h8
  | some x => exact ⟨h7, x, rfl, by simpa [e] using h8⟩

/-- The counter line 0 at home with these fields, initialised when `on`. -/
def counter0 (reserve hold cur : Nat) (on : Bool) (s : State) : State :=
  let data := leBytes 8 reserve ++ List.replicate 8 0 ++ leBytes 16 hold ++ leBytes 1 (if on then 1 else 0) ++ leBytes 1 cur ++ List.replicate 158 0
  { s with l2 := [{ line := 0, data := data, dirty := false, cls := 0, sharers := 0, cmp := none, bad := [] }] }

/-- An allowance of 9 held by core 0 and one of 3 by core 1: 0 asked for, the whole, one more. At home: no count to begin with, too little
after the recall, enough; the sums within and beyond an allowance; reads. -/
theorem witness_CounterSteps :
    (∀ n ∈ [(0 : BitVec 128), 9, 10],
      let r := req95 0 n
      let o := { opOf .bcDec true r with raisesSt := true }
      let t := flying o
      let s := allow (mapped (st t))
      Ready s t o r ∧ r.miss = none ∧ s.missOutstanding t.core (placeOf s r) = false ∧ allowance s (placeOf s r) t.core = 9 ∧
      ((s.core t.core).allowances.filter (·.at_.byte != (placeOf s r).byte)).length < 64) ∧
    (∀ p ∈ [(false, 0, 0), (true, 5, 20), (true, 5, 17)],
      let r := { req95 0 (BitVec.ofNat 128 p.2.2) with miss := some 9 }
      let o := { opOf .bcDec true r with raisesSt := true }
      let t := flying o
      let s := counter0 p.2.1 3 1 p.1 ((allow (mapped (st t))).updCore 1 fun c => { c with allowances := [{ at_ := (st t).loc 0 0x1F (2 ^ 30), amount := 3 }] })
      s.troupe? t.uid = some t ∧ t.op? o.id = some o ∧ o.lanes.find? (fun x => x.lane == r.lane && x.miss.isSome && !x.done) = some r ∧
      o.lanes.find? (·.lane == r.lane) = some r ∧ r.lane < 96 ∧ t.core < 128 ∧ t.core < s.cores.length ∧ AtHome s (placeOf s r) ∧
      s.ctrPoisoned (placeOf s r) = false ∧ ((s.core t.core).allowances.filter (·.at_.byte != (placeOf s r).byte)).length < 64 ∧
      decide (s.ctrGet (placeOf s r) 0x20 1 = 1) = p.1 ∧
      (p.1 = true → (recalled (fun h => if h = 0 then 0 else allowance s (placeOf s r) h) (· < r.data.toNat) 128
        { counterAt s (placeOf s r) with reserve := 5 + 9, hold := 2 }).reserve = 17)) ∧
    (∀ p ∈ [((some 9 : Option Nat), 0xFFFFFFF6), (some 9, 0xFFFFFFF7), (none, 7)],
      let r := req95 0 (BitVec.ofNat 128 p.2)
      let o := opOf .bcInc false r
      let t := flying o
      let s := counter0 5 1 0 true (if p.1 = none then mapped (st t) else allow (mapped (st t)))
      Ready s t o r ∧ r.miss = none ∧ s.missOutstanding t.core (placeOf s r) = false ∧ s.allowanceOf t.core (placeOf s r) = p.1 ∧
      ((s.core t.core).allowances.filter (·.at_.byte != (placeOf s r).byte)).length < 64 ∧ AtHome s (placeOf s r) ∧
      s.ctrPoisoned (placeOf s r) = false) ∧
    (∀ on ∈ [false, true],
      let r := req95 0 0
      let o := opOf .bcRead true r
      let t := flying o
      let s := counter0 5 1 0 on (allow (mapped (st t)))
      Ready s t o r ∧ r.miss = none ∧ s.missOutstanding t.core (placeOf s r) = false ∧ AtHome s (placeOf s r) ∧
      s.ctrPoisoned (placeOf s r) = false ∧ decide (s.ctrGet (placeOf s r) 0x20 1 = 1) = on) := by
  refine ⟨?_, ?_, ?_, ?_⟩ <;>
    (intro p hp
     simp only [List.mem_cons, List.not_mem_nil, or_false] at hp)
  · rcases hp with rfl | rfl | rfl <;> refine ⟨⟨?_, ?_, ?_, ?_, ?_⟩, ?_, ?_, ?_, ?_⟩ <;> decide +kernel
  · rcases hp with rfl | rfl | rfl <;>
      refine ⟨?_, ?_, ?_, ?_, ?_, ?_, ?_, atHomeB_home ?_, ?_, ?_, ?_, ?_⟩ <;> decide +kernel
  · rcases hp with rfl | rfl | rfl <;> refine ⟨⟨?_, ?_, ?_, ?_, ?_⟩, ?_, ?_, ?_, ?_, atHomeB_home ?_, ?_⟩ <;> decide +kernel
  · rcases hp with rfl | rfl <;> refine ⟨⟨?_, ?_, ?_, ?_, ?_⟩, ?_, ?_, atHomeB_home ?_, ?_, ?_⟩ <;> decide +kernel

def group : MemOp :=
  { opOf (.ldgr 1) true (req95 0 0) with samples := [(0, [(95, some 5)])] }

def samplesB (o : MemOp) : Bool :=
  (o.samples.map (·.1)).Nodup && o.samples.all fun m => decide (m.1 < 128) && (groupMembers o).getLsbD m.1 && (m.2.map (·.1)).Nodup &&
    m.2.all fun v => o.lanes.any fun r => r.lane == v.1

theorem samplesB_ok {o : MemOp} (h : samplesB o = true) : SamplesOk o := by
  simp only [samplesB, Bool.and_eq_true, decide_eq_true_eq, List.all_eq_true, List.any_eq_true, beq_iff_eq] at h
  exact ⟨h.1, fun m hm => let ⟨⟨⟨a, b⟩, c⟩, d⟩ := h.2 m hm; ⟨a, b, c, d⟩⟩

theorem witness_GroupLoads :
    (Issues true (setgrpOf (fx 0 123 123 123 60 7)) (fx 0 123 123 123 60 7) (st tr) tr ∧ (st tr).company? tr.cid = some co ∧ co.cid = tr.cid) ∧
    (let t := one95 (BitVec.ofNat 32 last)
     Issues false (ldgrShape (fx 8 2 123 123 0 0x47000)) (fx 8 2 123 123 0 0x47000) (st t) t ∧ t.ld < 63 ∧
     ∀ i, i < 96 → t.active i = true → offsetOf (fx 8 2 123 123 0 0x47000) t i % 4 = 0 ∧
       offsetOf (fx 8 2 123 123 0 0x47000) t i + 4 ≤ spadSize (st t) t) ∧
    (let t := flying group
     (st t).troupe? t.uid = some t ∧ t.op? group.id = some group ∧ isGroupLoad group = true ∧ SamplesOk group ∧
     (∀ c, c < 128 → (groupMembers group).getLsbD c = true → ∀ r ∈ group.lanes, memberReadable (st t) t group c r = true) ∧
     (∀ x ∈ t.ops, isGroupLoad x = true → group.id ≤ x.id) ∧ t.resident = true ∧ group.sync = false ∧ group.dest = some 15 ∧ 15 < t.v.length ∧
     (group.lanes.map (·.lane)).Nodup ∧ ∀ r ∈ group.lanes, r.lane < 96) ∧
    (let o := { group with samples := [], kind := .ldgr 3 }
     let t := flying o
     (st t).troupe? t.uid = some t ∧ SamplesOk o ∧
     (∀ c, c < 128 → (groupMembers o).getLsbD c = true → ∀ r ∈ o.lanes, memberReadable (st t) t o c r = true) ∧
     memberWord (st t) t o 0 (req95 0 0) = some 0 ∧ memberWord (st t) t o 1 (req95 0 0) = none) := by
  refine ⟨⟨ok_issues (by decide +kernel), ?_, ?_⟩, ⟨ok_issues (by decide +kernel), ?_, ?_⟩,
    ⟨?_, ?_, ?_, samplesB_ok ?_, ?_, ?_, ?_, ?_, ?_, ?_, ?_, ?_⟩, ?_, samplesB_ok ?_, ?_, ?_, ?_⟩ <;> decide +kernel

theorem witness_QueryAnswers :
    levelOf (fun i => decide (i < 2)) 1 = 2 ∧ levelOf (fun i => decide (i < 2)) 0 = 1 ∧ levelOf (fun _ => false) 0 = 0 ∧
    excess (fun i => decide (i < 2)) 4 = levelOf (fun i => decide (i < 2)) 0 - 1 ∧
    excess (fun i => decide (i < 2)) 0 = levelOf (fun i => decide (i < 2)) 3 - 1 ∧
    onesBelow (fun i => (decide (i < 2)) == true) 2 = 2 := by decide +kernel

/-- A string of two positions, 01, on die 0 at 1 MiB, its directory at 2 MiB; LEN is at byte 16 of the directory. -/
def region : Region :=
  { root := 0, ra := 192, bytes := List.replicate 192 0, r := ⟨0x100000, 2, 1, 0, 1536, 0, 0x200000⟩, smap := [(0x100000, 0x100000, 2 ^ 20)],
    dmap := [(0x200000, 0x200000, 2 ^ 20)], edit := none, waiting := [], repairing := none }
def laR : Launch := { la with hdr := { hdr with hcount := 1 } }
/-- The record is in the record cache, the region registered. -/
def stR (t : Troupe) (g : Region) : State :=
  let s := stWith t co laR
  let s : State := { s with rm := { s.rm with sealctl := 0 }, mem := putBytes (putBytes [] 0x100000 [2]) 0x200010 [2] }
  (s.updCore 0 fun c => { c with recs := [{ lid := 3, handle := 0, va := 192, data := List.replicate 192 0 }] }).updDie 0
    fun d => { d with regions := [g] }

/-- Query `op` of lane 95 at position p, with lane 94 waiting too unless it is `alone`. -/
def queryOp (op p : Nat) (alone : Bool) : MemOp :=
  { sideOp (st tr) tr (.query op) (some 5) (sideLane 95 p region 0 0 :: if alone then [] else [sideLane 94 0 region 0 0]) false with id := 0 }

def regionsAre (r : LaneRegions) (n : Nat) : Bool :=
  match r with
  | .ok _ gs => gs.length == n
  | _ => false

def asideB (r : LaneRegions) (t : Troupe) : Bool :=
  match r with
  | .ok s gs => gs != [] && !s.storesOn t (gs.map fun x => x.2.r.hdie) && gs.all fun x => !s.editWaits x.2
  | _ => false

/-- Queries at issue; RANK1 at the last position and past it, alone and with a lane to come. -/
theorem witness_Queries :
    (let t := { tr with act := 0 }
     Issues false queryShape (fx 5 1 2 123 0 0) (st t) t ∧ t.act = 0 ∧ t.ld < 63) ∧
    (let t := { one95 0 with ld := 62 }
     let s := stR t { region with r := { region.r with rkind := 1 } }
     Issues false queryShape (fx 5 3 2 123 0 0) s t ∧ t.ld < 63 ∧
     regionsAre (s.laneRegions t (fun i => (t.b32 (fx 5 3 2 123 0 0) i).toNat) true [] []
       ((activeLanes t).map fun i => (t.b32 (fx 5 3 2 123 0 0) i).toNat).eraseDups) 1 = true ∧
     asideB (s.laneRegions t (fun i => (t.b32 (fx 5 3 2 123 0 0) i).toNat) true [] []
       ((activeLanes t).map fun i => (t.b32 (fx 5 3 2 123 0 0) i).toNat).eraseDups) t = true) ∧
    (∀ p ∈ [(1, true, 0), (1, false, 0), (2, true, 12)], let o := queryOp 0 p.1 p.2.1
     let t := { flying o with park := .query 0 }
     let r := sideLane 95 p.1 region 0 0
     let s := stR t region
     s.troupe? t.uid = some t ∧ t.op? 0 = some o ∧ o.lanes.find? (·.lane == r.lane) = some r ∧ (o.lanes.map (·.lane)).Nodup ∧
     r.done = false ∧ r.status = 0 ∧ s.queryFree t o r = true ∧ s.region? r.psize (s.rootOf t.lid) r.pa = some region ∧
     region.edit = none ∧ s.stringHeld region = false ∧ s.poison = [] ∧ o.sync = false ∧ 5 < t.v.length ∧
     (let lanes := o.lanes.map fun x => if x.lane == r.lane then answered s region 0 r else x
      lanes.all (·.done) = p.2.1 ∧ lanes.map (·.status) = p.2.2 :: if p.2.1 then [] else [0])) := by
  refine ⟨⟨ok_issues (by decide +kernel), ?_, ?_⟩, ⟨ok_issues (by decide +kernel), ?_, ?_, ?_⟩, ?_⟩
  rotate_right
  · intro p hp
    simp only [List.mem_cons, List.not_mem_nil, or_false] at hp
    rcases hp with rfl | rfl | rfl <;> refine ⟨?_, ?_, ?_, ?_, ?_, ?_, ?_, ?_, ?_, ?_, ?_, ?_, ?_, ?_, ?_⟩ <;> decide +kernel
  all_goals decide +kernel

def regionIs (r : RegionUse) (ok : State → Region → Bool) : Bool :=
  match r with
  | .ok s g => ok s g
  | _ => false

def job : EditJob := { uid := 1, op := 0, lane := 95, phase := 0 }
def editOp : MemOp := { sideOp (st tr) tr (.edit true 1) none [sideLane 95 1 region 3 2] true with id := 0 }

theorem witness_Edits :
    (let t := sr 12 (2 ^ 20) tr
     Issues false (editOf true) (fx 0 3 10 2 12 0) (st t) t ∧ 2 ^ 20 ≤ (t.sreg 12).toNat) ∧
    (let t := sr 12 (2 ^ 20 - 1) { tr with act := 0 }
     Issues false (editOf false) (fx 0 3 123 2 12 0) (st t) t ∧ (t.sreg 12).toNat < 2 ^ 20 ∧ t.act = 0) ∧
    (let t := { (one95 64).setVLane 3 95 1 with st := 62 }
     let g := { region with r := { region.r with rkind := 1, cap := 1536 } }
     let s := stR t g
     let f := fx 0 3 10 2 12 0
     Issues false (editOf true) f s t ∧ t.act ≠ 0 ∧ t.st < 63 ∧ (∀ i ∈ activeLanes t, 1 ≤ (t.c32 f i).toNat ∧ (t.c32 f i).toNat ≤ 64) ∧
     regionIs (s.handleRegion t 0) (fun s1 g => g.edit == none && !s1.stringHeld g && s1.editChecks g true (editRequests true f t) == []) = true ∧
     t.ops.all (·.isSpad) = true ∧ regionIs ((stR t { g with edit := some job }).handleRegion t 0) (fun _ g => g.edit != none) = true) ∧
    (let t := flying editOp
     let g := { region with edit := some job }
     let s := stR t g
     s.troupe? t.uid = some t ∧ t.op? 0 = some editOp ∧ editOp.lanes = [sideLane 95 1 region 3 2] ∧
     s.region? 0 (s.rootOf t.lid) region.ra = some g ∧ g.edit = some job ∧ job.uid = t.uid ∧ job.op = editOp.id ∧
     editOp.lanes.find? (·.lane == job.lane) = some (sideLane 95 1 region 3 2)) ∧
    (let t := flying editOp
     let g := { region with edit := some job }
     let s := (stR t g).endLaunch t.lid 7 0 0
     (s.die 0).regions[0]? = some g ∧ g.edit = some job ∧ s.troupe? job.uid = some t ∧ s.launchEnding t.lid = true ∧
     s.regionState g ≠ 2) ∧
    (let t := flying editOp
     let g := { region with edit := some job }
     let s := stR t g
     (s.die 0).regions[0]? = some g ∧ g.edit = some job ∧ (s.troupe? job.uid).all (fun t => !s.launchEnding t.lid) = true) := by
  refine ⟨⟨ok_issues (by decide +kernel), ?_⟩, ⟨ok_issues (by decide +kernel), ?_, ?_⟩, ⟨ok_issues (by decide +kernel), ?_, ?_, ?_, ?_, ?_, ?_⟩,
    ⟨?_, ?_, ?_, ?_, ?_, ?_, ?_, ?_⟩, ⟨?_, ?_, ?_, ?_, ?_⟩, ?_, ?_, ?_⟩ <;> decide +kernel

theorem regionApart (x : Option EditJob) : Apart { region with edit := x } := by
  have hd : ∀ i, i < 1152 → ({ region with edit := x } : Region).dirPa i = 0x200000 + i := fun i hi => by
    simp [Region.dirPa, pagePhys, region, show 0x200000 + i < 0x300000 by omega]
  have hs : ∀ i, i < 192 → ({ region with edit := x } : Region).strPa i = 0x100000 + i := fun i hi => by
    simp [Region.strPa, pagePhys, region, show 0x100000 + i < 0x200000 by omega]
  have n1 : ({ region with edit := x } : Region).r.dsize ≤ 1152 := by simp [region]; decide
  have n2 : ({ region with edit := x } : Region).r.ssize ≤ 192 := by simp [region]; decide
  refine ⟨fun i j hi hj h => ?_, fun i j hi hj h => ?_, fun i j hi hj h => ?_⟩
  · rw [hd i (by omega), hd j (by omega)] at h; omega
  · rw [hs i (by omega), hs j (by omega)] at h; omega
  · rw [hd i (by omega), hs j (by omega)] at h; omega

/-- An edit of lane 95 about to take step k, with JPH and JLINE; STATE is 2. -/
def editing (k jph jline : Nat) : State :=
  let s := stR (flying editOp) { region with edit := some { job with phase := k } }
  { s with mem := putBytes (putBytes (putBytes s.mem 0x20000C [2]) 0x20002A [BitVec.ofNat 8 jph]) 0x200040 (leBytes 4 jline) }

def summaryOk (s : State) (g : Region) (insert : Bool) (q : EditReq) (finishes : Bool) : Bool :=
  s.regionState g == 2 && !s.summaryLost g && finishesJournal s g insert q == finishes

/-- Each step of an edit: the journal, an image, the end past the last line, a line, its close, and a journal taken over with its image
written or not; an edit that does and one that does not finish a journal; and a region whose STATE is not 2. -/
theorem witness_EditSteps :
    (∀ p ∈ [(0, 0, 0, false), (1, 0, 0, false), (1, 0, 2 ^ 32 - 1, true), (2, 1, 0, false), (3, 1, 0, false), (4, 0, 0, false),
        (4, 0, 2 ^ 32 - 1, true), (4, 1, 0, false)],
      let g := { region with edit := some { job with phase := p.1 } }
      let s := editing p.1 p.2.1 p.2.2.1
      let r := sideLane 95 1 region 3 2
      Apart g ∧ CleanString s g ∧ s.poison = [] ∧ s.region? g.r.hdie g.root g.ra = some g ∧
      g.edit = some { job with phase := p.1 } ∧ r.addr < 2 ^ 32 ∧ 1 ≤ r.cmp.toNat ∧ r.cmp.toNat ≤ 64 ∧
      (journal s g).phase = p.2.1 ∧ pastLast true (s.dirGet g 0x10 4) r.addr (journal s g).line = p.2.2.2 ∧
      192 * (journal s g).line + 191 < g.r.ssize + (if p.2.2.2 then 2 ^ 40 else 0) ∧ s.dirGet g 0x10 4 ≤ g.r.cap) ∧
    (∀ p ∈ [(false, false), (true, true)],
      let s : State := { stR tr region with mem := putBytes (putBytes (stR tr region).mem 0x20000C [2]) 0x200028 [1, 2, 0, 0, 1, 0, 0, 0, 3] }
      summaryOk s region true { lane := 95, p := if p.1 then 1 else 0, n := 2, x := 3 } p.2 = true) ∧
    (stR tr region).regionState region ≠ 2 := by
  refine ⟨?_, ?_, ?_⟩
  · intro p hp
    simp only [List.mem_cons, List.not_mem_nil, or_false] at hp
    rcases hp with rfl | rfl | rfl | rfl | rfl | rfl | rfl | rfl <;>
      refine ⟨regionApart _, fun i hi => ⟨?_, ?_⟩, ?_, ?_, ?_, ?_, ?_, ?_, ?_, ?_, ?_, ?_⟩
    all_goals first | decide +kernel | (intro x hx; exact absurd hx (by simp [editing, stR, stWith, State.updCore, State.updDie, State.reset])) | rfl
  all_goals decide +kernel

/-! ### Control flow -/

/-- A target: the greatest offset back, on from pc 0x100000; an odd return address. -/
theorem witness_Branches :
    (Issues true (branchOf .none .no) (fx 0 123 123 123 0 0x40000) (st tr) tr ∧ Issues true (branchOf .none .w32) (fx 0 2 123 123 0 1) (st tr) tr ∧
     Issues true (branchOf .scalarPair .no) (fx 62 123 123 123 0 0x3FFFF) (st tr) tr) ∧
    (∀ p ∈ [((0 : Word), true), (6, false)], let t := sr 2 p.1 tr
      Issues true (uniformOf .w64 true) (fl 0 2 123) (st t) t ∧ t.trap = false ∧ decide ((t.ua64 (fl 0 2 123)).toNat % 4 = 0) = p.2) ∧
    (∀ p ∈ [((0 : Word), 0, 0), (-1, 23, 1), (1, 23, 2), (1, 24, 3)],
      let t := sr 2 p.1 (sr 3 p.1 (sr 4 p.1 { tr with stack := List.replicate p.2.1 entry }))
      let f := fx 0 2 123 2 0 2
      Issues true (brdOf f) f (st t) t ∧
      (let taken := t.triple f.a.toNat &&& t.act
       let other := t.act &&& ~~~(t.triple f.a.toNat)
       (if t.stack.length = 24 then 3 else if taken = 0 then 0 else if other = 0 then 1 else 2) = p.2.2)) := by
  refine ⟨⟨ok_issues (by decide +kernel), ok_issues (by decide +kernel), ok_issues (by decide +kernel)⟩, ?_, ?_⟩ <;> intro p hp <;>
    simp only [List.mem_cons, List.not_mem_nil, or_false] at hp
  · rcases hp with rfl | rfl <;> refine ⟨ok_issues (by decide +kernel), ?_, ?_⟩ <;> decide +kernel
  · rcases hp with rfl | rfl | rfl | rfl <;> refine ⟨ok_issues (by decide +kernel), ?_⟩ <;> decide +kernel

/-- A table of two targets at 4096: its size, the meeting place, and two words. -/
def tabled (t : Troupe) : State :=
  let s := mapped (st t)
  { s with mem := putBytes (putBytes (putBytes (putBytes [] 4096 [2]) 4100 [64]) 4104 [8]) 4108 [16] }

def gotIs (r : Fetched) (n : Nat) : Bool :=
  match r with
  | .got _ bs => leNat bs == n
  | _ => false

theorem witness_TableBranches :
    (let t := sr 4 4098 tr
     Issues true (brxOf (fx 0 2 123 123 4 0)) (fx 0 2 123 123 4 0) (st t) t ∧ globalAddr (t.spair 4) 0 0 % 4 ≠ 0) ∧
    (∀ p ∈ [((1 : Word), true), (2, false)], let t := sr 4 4096 (sr 2 p.1 tr)
      Issues true (brxOf (fx 0 2 123 123 4 0)) (fx 0 2 123 123 4 0) (tabled t) t ∧ gotIs ((tabled t).readNow t 4096 4) 2 = true ∧
      decide ((t.ua (fx 0 2 123 123 4 0)).toNat < 2) = p.2) ∧
    (let t := (sr 4 4096 tr).setVLane 2 95 1
     let f := fx 0 123 123 123 4 2
     Issues true (brxlOf f) f (tabled t) t ∧ gotIs ((tabled t).readNow t 4096 4) 2 = true ∧
     (∀ i, i < 96 → t.active i = true → brxlIndex f t i < 2) ∧ [0, 1].Pairwise (· < ·) ∧
     (∀ i, i < 96 → t.active i = true ∧ brxlIndex f t i = if i = 95 then 1 else 0) ∧
     (((wordsAt (tabled t) t 4096 [1, 2, 3]).map (·.2)) = some [64, 8, 16]) ∧ t.stack.length + 2 ≤ 25) ∧
    (let t := (sr 4 4096 tr).setVLane 2 95 2
     let f := fx 0 123 123 123 4 2
     Issues true (brxlOf f) f (tabled t) t ∧ t.active 95 = true ∧ 2 ≤ brxlIndex f t 95) ∧
    (let t := { (sr 4 4096 tr).setVLane 2 95 1 with stack := List.replicate 24 entry }
     let f := fx 0 123 123 123 4 2
     Issues true (brxlOf f) f (tabled t) t ∧ gotIs ((tabled t).readNow t 4096 4) 2 = true ∧
     (∀ i, i < 96 → t.active i = true ∧ brxlIndex f t i = if i = 95 then 1 else 0) ∧ 25 < t.stack.length + [0, 1].length) := by
  refine ⟨⟨ok_issues (by decide +kernel), ?_⟩, ?_, ⟨ok_issues (by decide +kernel), ?_, ?_, ?_, ?_, ?_, ?_⟩,
    ⟨ok_issues (by decide +kernel), ?_, ?_⟩, ok_issues (by decide +kernel), ?_, ?_, ?_⟩
  rotate_left
  · intro p hp
    simp only [List.mem_cons, List.not_mem_nil, or_false] at hp
    rcases hp with rfl | rfl <;> refine ⟨ok_issues (by decide +kernel), ?_, ?_⟩ <;> decide +kernel
  all_goals decide +kernel

theorem witness_Reconvergence :
    (∀ p ∈ [((64 : DWord), false, (16 : DWord)), (64, true, 16), (64, false, 64), (0, false, 16)],
      let e := { entry with phase := p.2.1, ft := p.2.2 }
      let t := { tr with pc := p.1, stack := [e] }
      t.stack = [e] ∧ ((t.pc = e.rpc ∧ ([] : List StackEntry).all (·.rpc != e.rpc) = true) ∨ t.stack.all (·.rpc != t.pc) = true)) := by
  intro p hp
  simp only [List.mem_cons, List.not_mem_nil, or_false] at hp
  rcases hp with rfl | rfl | rfl | rfl <;> refine ⟨rfl, ?_⟩
  · exact .inl ⟨rfl, by decide +kernel⟩
  · exact .inl ⟨rfl, by decide +kernel⟩
  · exact .inl ⟨rfl, by decide +kernel⟩
  · exact .inr (by decide +kernel)

def saved : SavedAct :=
  { act := 3, fmt := 1, depth := 1, pos := ActPos.fresh, serial := 0,
    resume := { len := 8, laneSet := true, leaves := true, ends := false, fetch := false } }

theorem witness_TrapsAndReturn :
    Issues true (uniformOf .w32 true) (fi 0 121 123 0xFFFF) (st tr) tr ∧ Issues true (uniformOf .no true) (fl 0 123 123) (st tr) tr ∧
    Issues true (uniformOf .no false) (fl 0 123 123) (st tr) tr ∧ (st tr).current = some tr ∧
    (let t := { tr with trap := true, saved := some saved, stack := [entry, entry] }
     Issues true (uniformOf .w64 true) (fl 0 2 123) (st t) t ∧ t.trap = true ∧ t.saved = some saved) := by
  refine ⟨ok_issues (by decide +kernel), ok_issues (by decide +kernel), ok_issues (by decide +kernel), ?_, ok_issues (by decide +kernel), ?_, ?_⟩ <;>
    decide +kernel

theorem witness_SpecialRegisters :
    Issues true (uniformOf .w32 false) (fl 0 2 123) (st tr) tr ∧ Issues true getfmtShape (fl 63 123 123) (st tr) tr ∧
    Issues true (srdOf (fx 62 123 123 123 0 0)) (fx 62 123 123 123 0 0) (st tr) tr ∧
    (let t := flying group
     Issues true (srdOf (fx 63 123 123 123 0 17)) (fx 63 123 123 123 0 17) (st t) t ∧ t.ops.any isGroupLoad = true) ∧
    Issues true (srdOf (fx 63 123 123 123 0 17)) (fx 63 123 123 123 0 17) (st tr) tr ∧
    Issues true (swrOf (fx 0 2 123 123 0 7)) (fx 0 2 123 123 0 7) (st tr) tr ∧
    Issues true (swrOf (fx 0 3 123 123 0 17)) (fx 0 3 123 123 0 17) (st tr) tr := by
  refine ⟨ok_issues (by decide +kernel), ok_issues (by decide +kernel), ok_issues (by decide +kernel), ⟨ok_issues (by decide +kernel), ?_⟩,
    ok_issues (by decide +kernel), ok_issues (by decide +kernel), ok_issues (by decide +kernel)⟩
  decide +kernel

/-! ### Synchronisation -/

/-- WAIT within its limits, beyond one of them, and with a limit of 64. -/
theorem witness_WaitResults :
    (∀ p ∈ [((0x3F3F3F00 : Word), 0, 0), (0x3F3F3F00, 1, 1), (0x40000000, 0, 2)],
      let t := { tr with ld := p.2.1 }
      let f := fi 0 121 123 p.1
      Issues true (uniformOf .w32 false) f (st t) t ∧
      (let a := (t.ua f).toNat
       (if 64 ≤ a % 256 ∨ 64 ≤ a / 2 ^ 8 % 256 ∨ 64 ≤ a / 2 ^ 16 % 256 ∨ 64 ≤ a / 2 ^ 24 then 2
        else if t.ld ≤ a % 256 ∧ t.st ≤ a / 2 ^ 8 % 256 ∧ t.xc ≤ a / 2 ^ 16 % 256 ∧ t.ul ≤ a / 2 ^ 24 then 0 else 1) = p.2.2)) := by
  intro p hp
  simp only [List.mem_cons, List.not_mem_nil, or_false] at hp
  rcases hp with rfl | rfl | rfl <;> refine ⟨ok_issues (by decide +kernel), ?_⟩ <;> decide +kernel

theorem noneOrdered {s : State} {t : Troupe}
    (h : (s.troupes.all fun u => u.uid == t.uid || u.ops.all fun o => o.released.isNone) = true) : NoneOrdered s t := by
  intro u hu o ho since scope hr _ hn
  have h1 := List.all_eq_true.mp h u hu
  simp only [Bool.or_eq_true, beq_iff_eq, hn, false_or] at h1
  simpa [hr] using List.all_eq_true.mp h1 o ho

theorem canRelease {s : State} {t : Troupe}
    (h : (t.ops.all fun e => decide (t.nextOp ≤ e.id) || !e.acquire && !s.groupWaits t.lid t.cid e) = true) : CanRelease s t := by
  intro e he hid
  have h1 := List.all_eq_true.mp h e he
  simpa [Nat.not_le.mpr hid] using h1

/-- An acquire in flight, which a release at company scope waits for. -/
def acquiring : Troupe := { flying { opOf .loadSp true (req95 0 0) with acquire := true } with nextOp := 1 }

theorem cannotRelease {s : State} : ¬ CanRelease s acquiring := fun h => by simpa using (h _ (.head _) (by decide)).1

/-- A troupe of the company of `tr` whose store a release has ordered before the company's other accesses. -/
def ahead : Troupe := { tr2 with ops := [{ opOf .storeG false (req95 64 0) with released := some (0, 2) }] }

theorem someOrdered : ¬ NoneOrdered (st2 tr ahead la2) tr := fun h =>
  absurd (h ahead (.tail _ (.head _)) _ (.head _) 0 2 rfl (by decide) (by decide)) (by decide)

theorem witness_WaitsAndTimelines :
    (∀ p ∈ [((7 : Word), (0 : Word)), (7, 1), (8, 0)], let t := sr 20 p.2 tr
      let f := fi 0 20 121 p.1
      Issues true waittlShape f (st t) t ∧ decide ((t.ub f).toNat ≤ 7) = decide (p.1.toNat ≤ 7) ∧
      decide ((t.ua64 f).toNat ≤ (timelineOf (st t) t.cid (t.ub f).toNat).reached.toNat) = decide (p.2 = 0) ∧
      (∀ m ∈ co.marks, m.tl = 7 → m.uid = t.uid → (t.ua64 f).toNat < m.n.toNat)) ∧
    (let c := { co with marks := [⟨0, 0, 1, true, 0⟩] }
     let s := stWith tr c la
     Issues true waittlShape (fi 0 20 121 0) s tr ∧ s.company? tr.cid = some c ∧ c.markedBy 0 0 tr.uid = some 0) ∧
    ((∀ k ∈ [(6 : Word), 7], let t := flying group
      Issues true (uniformOf .w32 false) (fi 0 121 123 k) (st t) t ∧ CanRelease (st t) t) ∧
     Issues true (uniformOf .w32 false) (fi 0 121 123 6) (st acquiring) acquiring ∧ ¬ CanRelease (st acquiring) acquiring ∧
     Issues true (uniformOf .w32 false) (fi 0 121 123 5) (st tr) tr) := by
  refine ⟨?_, ⟨ok_issues (by decide +kernel), ?_, ?_⟩, ?_, ok_issues (by decide +kernel), cannotRelease,
    ok_issues (by decide +kernel)⟩
  · intro p hp
    simp only [List.mem_cons, List.not_mem_nil, or_false] at hp
    rcases hp with rfl | rfl | rfl <;> refine ⟨ok_issues (by decide +kernel), ?_, ?_, ?_⟩ <;> decide +kernel
  rotate_right
  · intro p hp
    simp only [List.mem_cons, List.not_mem_nil, or_false] at hp
    rcases hp with rfl | rfl <;> exact ⟨ok_issues (by decide +kernel), canRelease (by decide +kernel)⟩
  all_goals decide +kernel

/-- Fences: an acquire at core scope, a package release; each with nothing before it, with a store, with a load. -/
theorem witness_FencesAndYields :
    (∀ x ∈ [(0x5 : BitVec 19), 0x1B, 0x32], let f := fx 0 123 123 123 0 x
      Issues true (fenceOf f) f (st tr) tr ∧ tr.ops = [] ∧ (st tr).invals = [] ∧ NoneOrdered (st tr) tr ∧ (st tr).company? tr.cid = some co ∧
      co.ops.all (fun o => o.uid != tr.uid || !o.kind.isMaint) = true) ∧
    (let t := flying (opOf .storeG false (req95 64 0))
     Issues true (fenceOf (fx 0 123 123 123 0 0x9)) (fx 0 123 123 123 0 0x9) (st t) t ∧ (∀ o ∈ t.ops, o.storesOnly = true)) ∧
    (let t := flying (opOf .storeG false (req95 64 0))
     Issues true (fenceOf (fx 0 123 123 123 0 0x16)) (fx 0 123 123 123 0 0x16) (st t) t ∧ t.ops ≠ []) ∧
    (let f := fx 0 123 123 123 0 0x16
     let s : State := { st tr with invals := [⟨1, 0, 9⟩] }
     Issues true (fenceOf f) f s tr ∧ s.invals ≠ [] ∧
     Issues true (fenceOf f) f (st2 tr ahead la2) tr ∧ ¬ NoneOrdered (st2 tr ahead la2) tr) ∧
    (let t := flying group
     Issues true (fenceOf (fx 0 123 123 123 0 5)) (fx 0 123 123 123 0 5) (st t) t ∧ t.ops.any (fun o => !o.storesOnly) = true) ∧
    (Issues true (uniformOf .no false) (fl 0 123 123) (st tr) tr ∧ Issues true (uniformOf .no true) (fl 0 123 123) (st tr) tr) ∧
    (Issues true (yieldcOf (fx 0 2 123 7 0 1)) (fx 0 2 123 7 0 1) (st tr) tr ∧
     (∀ p ∈ [(last + 3, true), (last + 4, false)], let t := sr 2 (BitVec.ofNat 32 p.1) tr
       Issues true (yieldcOf (fx 0 2 123 8 0 1)) (fx 0 2 123 8 0 1) (st t) t ∧
       decide ((t.ua (fx 0 2 123 8 0 1)).toNat < spadSize (st t) t) = p.2)) := by
  refine ⟨?_, ⟨ok_issues (by decide +kernel), ?_⟩, ⟨ok_issues (by decide +kernel), ?_⟩,
    ⟨ok_issues (by decide +kernel), ?_, ok_issues (by decide +kernel), someOrdered⟩, ⟨ok_issues (by decide +kernel), ?_⟩,
    ⟨ok_issues (by decide +kernel), ok_issues (by decide +kernel)⟩, ok_issues (by decide +kernel), ?_⟩
  · intro p hp
    simp only [List.mem_cons, List.not_mem_nil, or_false] at hp
    rcases hp with rfl | rfl | rfl <;> refine ⟨ok_issues (by decide +kernel), ?_, ?_, noneOrdered ?_, ?_, ?_⟩ <;> decide +kernel
  · decide +kernel
  · decide +kernel
  · decide +kernel
  · decide +kernel
  · intro p hp
    simp only [List.mem_cons, List.not_mem_nil, or_false] at hp
    rcases hp with rfl | rfl <;> refine ⟨ok_issues (by decide +kernel), ?_⟩ <;> decide +kernel

/-- The company with barrier 1 expecting n troupes, `arrived` of them there, with their numbers in `mask`. -/
def barred (arrived n : Nat) (mask : BitVec 16) : Company :=
  { co with barriers := putAt co.barriers 1 ⟨n, arrived, mask, false⟩ ⟨0, 0, 0, false⟩ }

theorem witness_Barriers :
    (Issues true (uniformOf .w32 false) (fi 0 121 123 0x11) (st tr) tr ∧ 1 ≤ (st tr).troupesOf tr.lid ∧ (barrierOf (st tr) tr.cid 1).arrived = 0) ∧
    (let s := stWith tr (barred 1 1 2) la
     Issues true (uniformOf .w32 false) (fi 0 121 123 0x11) s tr ∧ (barrierOf s tr.cid 1).arrived ≠ 0 ∧ (barrierOf s tr.cid 1).expected = 1) ∧
    (∀ wide, ∀ p ∈ [(barred 0 2 0, 0), (barred 1 2 2, 1), (barred 1 2 1, 2), (barred 0 0 0, 2)], let s := stWith tr p.1 la
      Issues true (uniformOf .w32 wide) (fi 0 121 123 1) s tr ∧ CanRelease s tr ∧
      (let x := barrierOf s tr.cid 1
       (if x.expected = 0 ∨ x.mask.getLsbD (fieldOne s tr) = true then 2 else if x.arrived + 1 = x.expected then 1 else 0) = p.2)) ∧
    (∀ wide, let s := stWith acquiring (barred 0 2 0) la
      Issues true (uniformOf .w32 wide) (fi 0 121 123 1) s acquiring ∧ (barrierOf s co.cid 1).expected ≠ 0 ∧
      (barrierOf s co.cid 1).mask.getLsbD (fieldOne s acquiring) = false ∧ ¬ CanRelease s acquiring) ∧
    ((∀ p ∈ [(barred 0 2 0, 1, false), (barred 1 2 1, 1, true)], let s := stWith tr p.1 la
      Issues true (uniformOf .w32 false) (fi 0 121 123 1) s tr ∧ (barrierOf s tr.cid 1).mask.getLsbD (fieldOne s tr) = p.2.2) ∧
     Issues true (uniformOf .w32 false) (fi 0 121 123 16) (st tr) tr) ∧
    (Issues true (uniformOf .w32 true) (fi 0 121 123 15) (st tr) tr ∧ la.hdr.resident = true ∧ tr.ops = [] ∧ (st tr).invals = [] ∧
      NoneOrdered (st tr) tr) ∧
    (let t := flying group
     Issues true (uniformOf .w32 true) (fi 0 121 123 15) (st t) t ∧ t.ops ≠ []) ∧
    (Issues true (uniformOf .w32 true) (fi 0 121 123 15) (st2 tr ahead la2) tr ∧ ¬ NoneOrdered (st2 tr ahead la2) tr) ∧
    (let t := { tr with park := .gbar 15 false }
     (st t).troupe? t.uid = some t ∧ t.park = .gbar 15 false) := by
  refine ⟨⟨ok_issues (by decide +kernel), ?_, ?_⟩, ⟨ok_issues (by decide +kernel), ?_, ?_⟩, ?_, fun wide => ⟨?_, ?_, ?_, cannotRelease⟩,
    ⟨?_, ok_issues (by decide +kernel)⟩, ⟨ok_issues (by decide +kernel), ?_, ?_, ?_, noneOrdered ?_⟩,
    ⟨ok_issues (by decide +kernel), ?_⟩, ⟨ok_issues (by decide +kernel), someOrdered⟩, ?_, ?_⟩
  rotate_left 4
  · intro wide p hp
    simp only [List.mem_cons, List.not_mem_nil, or_false] at hp
    cases wide <;> rcases hp with rfl | rfl | rfl | rfl <;> refine ⟨ok_issues (by decide +kernel), canRelease ?_, ?_⟩ <;> decide +kernel
  · cases wide <;> exact ok_issues (by decide +kernel)
  rotate_left 2
  · intro p hp
    simp only [List.mem_cons, List.not_mem_nil, or_false] at hp
    rcases hp with rfl | rfl <;> refine ⟨ok_issues (by decide +kernel), ?_⟩ <;> decide +kernel
  all_goals decide +kernel

theorem witness_TailResults :
    (let t := { tr with stack := [entry], act := 1 }
     Issues true (uniformOf .no true) (fl 0 123 123) (st t) t ∧ t.stack = [entry] ∧ t.trap = false ∧ t.exited ||| t.act ≠ -1) ∧
    (Issues true (uniformOf .no true) (fl 0 123 123) (st tr) tr ∧ tr.stack = [] ∧ (st tr).outstanding tr = false) ∧
    (let t := flying (opOf .storeG false (req95 64 0))
     (st t).outstanding t = true ∧ ((st t).core t.core).trackers.length < 16) ∧
    (let t := flying (opOf .storeG false (req95 64 0))
     let s := (st t).updCore 0 fun c => { c with trackers := List.replicate 16 { uid := 9, cid := 9, lid := 9 } }
     Issues true (uniformOf .no true) (fl 0 123 123) s t ∧ t.stack = [] ∧ s.outstanding t = true ∧ 16 ≤ (s.core t.core).trackers.length) := by
  refine ⟨⟨ok_issues (by decide +kernel), ?_, ?_, ?_⟩, ⟨ok_issues (by decide +kernel), ?_, ?_⟩, ⟨?_, ?_⟩, ok_issues (by decide +kernel), ?_, ?_, ?_⟩ <;>
    decide +kernel

/-! ### Engines -/

def settledB (s : State) (t : Troupe) : Bool :=
  t.ops == [] && s.invals == [] && s.troupes.all fun u => u.uid == t.uid || u.ops.all fun o => o.released.isNone

theorem settled {s : State} {t : Troupe} (h : settledB s t = true) : Settled s t := by
  simp only [settledB, Bool.and_eq_true, beq_iff_eq] at h
  exact ⟨h.1.1, h.1.2, noneOrdered h.2⟩

/-- CPY to another device of 2^18; within the scratchpad and out of it, as destination and as source; an atomic request, and one of the
wrong size; one that waits. -/
theorem witness_CopyInstructions :
    (let t := sr 12 (2 ^ 18) tr
     Issues true (cpyOf (fx 30 4 6 9 12 0x20)) (fx 30 4 6 9 12 0x20) (st t) t ∧ 2 ^ 18 ≤ (t.sreg 12).toNat) ∧
    (∀ p ∈ [((4 : Word), true), (5, false)], let t := sr 4 (BitVec.ofNat 32 last) (sr 9 p.1 tr)
      let f := fx 30 4 6 9 0 0x41
      Issues true (cpyOf f) f (st t) t ∧ decide (copyTo f t + (t.uc f).toNat ≤ spadSize (st t) t) = p.2 ∧ Settled (st t) t ∧
      (st t).company? t.cid ≠ none ∧ (meetsTop f (st t) t = true → isRequest f (st t) t = true)) ∧
    (∀ p ∈ [((4 : Word), true), (5, false)], let t := sr 6 (BitVec.ofNat 32 last) (sr 9 p.1 tr)
      let f := fx 30 4 6 9 0 0x5
      Issues true (cpyOf f) f (st t) t ∧ decide (copyFrom f t + (t.uc f).toNat ≤ spadSize (st t) t) = p.2 ∧
      copyTo f t + (t.uc f).toNat ≤ spadSize (st t) t ∧ Settled (st t) t) ∧
    (∀ p ∈ [((32 : Word), true), (33, false)], let t := sr 4 0xFFFFFFE0 (sr 5 0x00FFFFFF (sr 9 p.1 tr))
     let f := fx 30 4 6 9 12 0x10
     Issues true (cpyOf f) f (st t) t ∧ meetsTop f (st t) t = true ∧ isRequest f (st t) t = p.2 ∧ Settled (st t) t) ∧
    (let t := flying group
     Issues true (cpyOf (fx 30 4 6 9 0 0x41)) (fx 30 4 6 9 0 0x41) (st t) t ∧ ¬ Settled (st t) t) := by
  refine ⟨⟨ok_issues (by decide +kernel), ?_⟩, ?_, ?_, ?_, ok_issues (by decide +kernel), fun h => absurd h.1 (by decide)⟩
  · decide +kernel
  all_goals
    intro p hp
    simp only [List.mem_cons, List.not_mem_nil, or_false] at hp
    rcases hp with rfl | rfl
  · exact ⟨ok_issues (by decide +kernel), by decide +kernel, settled (by decide +kernel), by decide +kernel, by decide +kernel⟩
  · exact ⟨ok_issues (by decide +kernel), by decide +kernel, settled (by decide +kernel), by decide +kernel, by decide +kernel⟩
  all_goals exact ⟨ok_issues (by decide +kernel), by decide +kernel, by decide +kernel, settled (by decide +kernel)⟩

/-- The bytes of a layout record of n FP32 elements at address 0. -/
def layoutBytes (n : Byte) : List Byte := (((List.replicate 192 (0 : Byte)).set 9 1).set 15 1).set 16 n
/-- Handle 0 names a record of four elements and handle 1 one of `n`, both in the record cache. -/
def stL (t : Troupe) (n : Byte) (seals : Bool) : State :=
  let s := stWith t co { la with hdr := { hdr with hcount := 2 } }
  let s : State := { s with rm := { s.rm with sealctl := if seals then 1 else 0 } }
  s.updCore 0 fun c => { c with recs := [{ lid := 3, handle := 0, va := 192, data := layoutBytes 4 },
    { lid := 3, handle := 1, va := 384, data := layoutBytes n }] }

/-- The records of handles 0 and 1 are read, sealed or not, and their shapes fit or not. -/
def recordsAre (r : RecordsRead) (t : Troupe) (isSealed fit : Bool) : Bool :=
  match r with
  | .got s1 [r1, r2] => settledB s1 t && (s1.company? t.cid).isSome && (s1.firstUnsealed [r1, r2]).isNone == isSealed &&
      (match parseLayout 0 r1.2, parseLayout 1 r2.2 with
        | some a, some b => cpylShapesOk a b false == fit
        | _, _ => !fit)
  | _ => false

/-- CPYL with a handle of 2^20; of records that fit, that do not, that cannot be read, and that are not sealed. -/
theorem witness_TransformIssue :
    (let t := sr 10 (2 ^ 20) tr
     Issues true (cpylOf (fx 30 10 11 123 0 0x10)) (fx 30 10 11 123 0 0x10) (st t) t ∧ 2 ^ 20 ≤ (t.ua (fx 30 10 11 123 0 0x10)).toNat) ∧
    (∀ p ∈ [((4 : Byte), false, true, true), (5, false, true, false), (0, false, true, false), (4, true, false, true)],
      let t := sr 11 1 tr
      let f := fx 30 10 11 123 0 0x10
      Issues true (cpylOf f) f (stL t p.1 p.2.1) t ∧ (t.ua f).toNat = 0 ∧ (t.ub f).toNat = 1 ∧
      recordsAre ((stL t p.1 p.2.1).records t [] [0, 1]) t p.2.2.1 p.2.2.2 = true) ∧
    (parseLayout 1 (layoutBytes 0)).isNone = true ∧
    (let t := sr 11 1 tr
     let s := stL t 4 false
     Issues true (cpylOf (fx 30 10 11 123 0 0x10)) (fx 30 10 11 123 0 0x10) s t ∧ RecordHeld s t 0 (layoutBytes 4) ∧
     RecordHeld s t 1 (layoutBytes 4) ∧ s.rm.sealctl.getLsbD 0 = false ∧
     (match parseLayout 0 (layoutBytes 4), parseLayout 1 (layoutBytes 4) with
      | some a, some b => cpylShapesOk a b false
      | _, _ => false) = true ∧ Settled s t ∧ s.company? t.cid ≠ none) := by
  refine ⟨⟨ok_issues (by decide +kernel), ?_⟩, ?_, ?_, ok_issues (by decide +kernel), ⟨⟨_, rfl, ?_⟩, _, rfl, rfl⟩, ⟨⟨_, rfl, ?_⟩, _, rfl, rfl⟩, ?_, ?_,
    settled ?_, ?_⟩
  rotate_left
  · intro p hp
    simp only [List.mem_cons, List.not_mem_nil, or_false] at hp
    rcases hp with rfl | rfl | rfl | rfl <;> refine ⟨ok_issues (by decide +kernel), ?_, ?_, ?_⟩ <;> decide +kernel
  all_goals decide +kernel

/-- Two scratchpad operands of 128 rows of 32 BF16 elements. -/
def trM : Troupe := sr 17 64 (sr 18 0x2000 (sr 19 64 (sr 20 32 { tr with fmt := 0x11 })))
def checkedIs (s : State) (r : MmaChecked) : Bool :=
  match r with
  | .ok s1 _ => s1 == s
  | _ => false

theorem witness_MatrixInstructions :
    (Issues true (mmaOf (fx 30 123 123 123 16 0x18)) (fx 30 123 123 123 16 0x18) (st tr) tr ∧ mmaAccepted (fx 30 123 123 123 16 0x18) tr = false) ∧
    (Issues true (mmaOf (fx 30 123 123 123 16 0x1F)) (fx 30 123 123 123 16 0x1F) (st trM) trM ∧ mmaAccepted (fx 30 123 123 123 16 0x1F) trM = true ∧
      trM.gang.toNat < 2 ^ 31 ∧ checkedIs (st trM) ((st trM).mmaChecks trM (fx 30 123 123 123 16 0x1F)) = true ∧ Settled (st trM) trM ∧
      (st trM).company? trM.cid ≠ none) ∧
    (let t := sr 41 256 tr
     let f := fx 32 123 123 123 40 0xE28
     Issues true (mdrainOf f) f (st t) t ∧ DrainPasses f (st t) t (st t) (.sp 0 256) (.sp 0 0) ∧ Settled (st t) t ∧ (st t).company? t.cid ≠ none) := by
  refine ⟨⟨ok_issues (by decide +kernel), ?_⟩, ⟨ok_issues (by decide +kernel), ?_, ?_, ?_, settled ?_, ?_⟩, ok_issues (by decide +kernel), ?_, settled ?_, ?_⟩
  case refine_7 =>
    refine ⟨by decide +kernel, by decide +kernel, ⟨[], [], [], ?_, ?_, ?_, ?_⟩, by decide +kernel, by decide +kernel, by decide +kernel, by decide +kernel⟩ <;>
      decide +kernel
  all_goals decide +kernel

def laT : Launch := { la with hdr := { hdr with troupes := 2, hcount := 1 } }

theorem witness_MatrixControl :
    (∀ p ∈ [((3 : Word), (7 : BitVec 19), true), (0, 0, true), (0, 1, false), (2, 0, false)], let t := sr 12 p.1 tr
      let f := fx 0 12 123 123 0 p.2.1
      let s := stWith t co laT
      Issues true gangShape f s t ∧ s.launch? t.lid = some laT ∧
      (let m := (t.ua f).toNat
       let g := Fields.x f 2 0
       decide (if m = 0 then g = 0
        else m < 2 ^ laT.hdr.troupes ∧ m < 2 ^ 16 ∧ 2 ≤ onesOf m ∧ onesOf m ≤ 6 ∧ m.testBit (fieldOne s t) = true) = p.2.2)) ∧
    (∀ x ∈ [(7 : Word), 8], Issues true (uniformOf .w32 false) (fi 0 121 123 x) (st tr) tr) ∧
    (∀ x ∈ [(0 : Word), 1, 2 ^ 20], Issues true (uniformOf .w32 false) (fi 0 121 123 x) (stWith tr co laT) tr) ∧
    (stWith tr co laT).launch? tr.lid = some laT ∧ laT.hdr.hcount = 1 ∧ tr.ops = [] ∧
    (let t := flying group
     Issues true (uniformOf .w32 false) (fi 0 121 123 0) (stWith t co laT) t ∧ t.ops ≠ []) := by
  refine ⟨?_, ?_, ?_, ?_, ?_, ?_, ok_issues (by decide +kernel), ?_⟩
  · intro p hp
    simp only [List.mem_cons, List.not_mem_nil, or_false] at hp
    rcases hp with rfl | rfl | rfl | rfl <;> refine ⟨ok_issues (by decide +kernel), ?_, ?_⟩ <;> decide +kernel
  · intro p hp
    simp only [List.mem_cons, List.not_mem_nil, or_false] at hp
    rcases hp with rfl | rfl <;> exact ok_issues (by decide +kernel)
  · intro p hp
    simp only [List.mem_cons, List.not_mem_nil, or_false] at hp
    rcases hp with rfl | rfl | rfl <;> exact ok_issues (by decide +kernel)
  all_goals decide +kernel

/-! ### The memory side -/

/-- A grant of rows 0 to 10 of pseudo-channel 0 of stack 0 of die 0 to queue 0. -/
def granted (s : State) : State := s.updDie 0 fun d => { d with bkgrant := d.bkgrant.set 0 (BitVec.ofNat 64 (2 ^ 63 + 10 * 32)) }

/-- BKLOAD of one entry to place 255, with and without a grant, misaligned, and of no entry; BKCMD over row 10 and over row 11. -/
theorem witness_BankIssue :
    (∀ p ∈ [((511 : Word), (0 : Word), 0), (255, 0, 1), (511, 2, 2)], let t := sr 20 1 (sr 6 p.1 (sr 8 p.2.1 tr))
      let f := fx 30 20 6 123 8 0
      let s := granted (st t)
      Issues true (bkloadOf f) f s t ∧
      (let w := (t.ub f).toNat
       (if w < 2 ^ 21 ∧ w / 2 ^ 8 % 512 ≠ 0 ∧ w % 256 + w / 2 ^ 8 % 512 ≤ 256 ∧ w / 2 ^ 17 % 4 ≠ 3 ∧ channelsOf (t.ua64 f) ≠ [] ∧
          (s.stacksOf (w / 2 ^ 19 % 4)).contains (w / 2 ^ 17 % 4) = true then
          if (t.spair 8).toNat % 2 ^ 56 % 4 = 0 then 0 else 2
        else 1) = p.2.2) ∧
      Settled s t ∧ s.company? t.cid ≠ none ∧ (∀ pc ∈ channelsOf (t.ua64 f), s.grants (s.queueOf t.lid) 0 0 pc ≠ []) ∧
      (∃ pc ∈ channelsOf (t.ua64 f), (st t).grants ((st t).queueOf t.lid) 0 0 pc = [])) ∧
    (∀ p ∈ [((10 : Word), (1 : Word), (0 : Word), 0), (11, 1, 0, 1), (10, 0, 0, 2), (10, 1, 4, 3)],
      let t := sr 40 1 (sr 42 p.1 (sr 43 p.2.1 (sr 44 1 (sr 46 p.2.2.1 tr))))
      let f := fx 30 123 123 123 40 0
      let s := granted (st t)
      Issues true (eightOf f true 0x3) f s t ∧
      (let a := commandOf f t
       (if commandListed f s t = false then 2 else if a.bv % 192 ≠ 0 then 3
        else if (channelsOf a.pcm).all (fun pc => rowsCovered (s.grants (s.queueOf t.lid) a.die a.stack pc) a.fr (a.fr + a.nr - 1 + a.offmax) 17)
          = true then 0 else 1) = p.2.2.2) ∧ Settled s t ∧ s.company? t.cid = some co) := by
  refine ⟨?_, ?_⟩ <;> intro p hp <;> simp only [List.mem_cons, List.not_mem_nil, or_false] at hp
  · rcases hp with rfl | rfl | rfl <;> refine ⟨ok_issues (by decide +kernel), ?_, settled ?_, ?_, ?_, ?_⟩ <;> decide +kernel
  · rcases hp with rfl | rfl | rfl | rfl <;> refine ⟨ok_issues (by decide +kernel), ?_, settled ?_, ?_⟩ <;> decide +kernel

theorem witness_ScanAndMaintenanceIssue :
    (∀ p ∈ [((4 : Word), (8 : Word), (0x25 : Word), 0), (2, 8, 0x25, 1), (4, 4, 0x25, 2), (4, 8, 0x28, 3)],
      let t := sr 16 p.1 (sr 22 p.2.1 (sr 19 p.2.2.1 tr))
      let f := fx 30 123 123 123 16 0
      Issues true (eightOf f false 0) f (st t) t ∧
      (let a := scanOf f t
       (if scanListed f t = false then 3 else if a.src % scanBytesOf a.ef ≠ 0 then 1 else if a.out % 8 ≠ 0 then 2 else 0) = p.2.2.2) ∧
      Settled (st t) t ∧ (st t).company? t.cid ≠ none) ∧
    (∀ p ∈ [((1 : Word), true), (2, false), (0, true)], let t := sr 8 0xFFFFFFFF (sr 9 0x00FFFFFF (sr 10 p.1 tr))
      let f := fx 30 10 123 123 8 0
      Issues true (maintOf f) f (st t) t ∧ Settled (st t) t ∧ (st t).company? t.cid ≠ none ∧
      (let n := (t.ua f).toNat
       decide (n = 0 ∨ globalAddr (t.spair 8) 0 (Fields.disp f 19) + n ≤ 2 ^ 56) = p.2)) := by
  refine ⟨?_, ?_⟩ <;> intro p hp <;> simp only [List.mem_cons, List.not_mem_nil, or_false] at hp
  · rcases hp with rfl | rfl | rfl | rfl <;> refine ⟨ok_issues (by decide +kernel), ?_, settled ?_, ?_⟩ <;> decide +kernel
  · rcases hp with rfl | rfl | rfl <;> refine ⟨ok_issues (by decide +kernel), settled ?_, ?_, ?_⟩ <;> decide +kernel

/-- WAITM of a word that holds 0, for 0 and for 1, and misaligned. -/
theorem witness_WaitOnMemory :
    (∀ p ∈ [((0 : Word), (64 : Word), 0), (1, 64, 1), (0, 66, 2)], let t := sr 4 p.2.1 (sr 6 p.1 tr)
      let f := fx 0 6 123 123 4 0x1000
      let s := mapped (st t)
      let va := globalAddr (t.spair 4) 0 (Fields.disp f 12)
      Issues true (waitmOf f) f s t ∧ s.translateFor t va .r = (s, .ok va 0x1F (2 ^ 30)) ∧ s.blocksRead t va 4 = false ∧
      s.sideHeld (s.loc va 0x1F (2 ^ 30)) 4 = false ∧ s.isPoisoned (s.loc va 0x1F (2 ^ 30)) 4 = false ∧ (s.loc va 0x1F (2 ^ 30)).host = false ∧
      (if va % 4 ≠ 0 then 2 else if conditionHolds 0 false
        (leNat ((s.countHot (s.rootOf t.lid) va va 0x1F (2 ^ 30)).homeRead (s.loc va 0x1F (2 ^ 30)) 4).2 % 2 ^ 32) (t.ua f).toNat = true then 0
       else 1) = p.2.2) := by
  intro p hp
  simp only [List.mem_cons, List.not_mem_nil, or_false] at hp
  rcases hp with rfl | rfl | rfl <;> refine ⟨ok_issues (by decide +kernel), ?_, ?_, ?_, ?_, ?_, ?_⟩ <;> decide +kernel

/-! ## Events -/

/-- A yielding troupe and one whose park is given. -/
def parked (p : Park) : Troupe := { tr with park := p }

theorem witness_Arbitration :
    (let q := ((stWith (parked (.yield [])) co la).core 0).quarters.getD 0 Quarter.reset
     let t := parked (.yield [])
     let u := { parked (.yield []) with uid := 5, slot := 1 }
     let s := st2 t u la
     q.running = none ∧ q.last < 12 ∧ s.ready t = true ∧ t.slot < 12 ∧ s.troupe? t.uid = some t ∧ s.ready u = true ∧
     s.priority u = s.priority t ∧ turnOf q.last t.slot < turnOf q.last u.slot) ∧
    (((st tr).core 0).quarters.getD 0 Quarter.reset).running = none ∧ (∀ u ∈ State.reset.troupes, State.reset.ready u = false) ∧
    ((({ st tr with cores := (st tr).cores.set 0 { Core.reset with quarters := [⟨some 1, 0, 0⟩] } } : State).core 0).quarters.getD 0
      Quarter.reset).running ≠ none := by
  refine ⟨⟨?_, ?_, ?_, ?_, ?_, ?_, ?_, ?_⟩, ?_, ?_, ?_⟩ <;> decide +kernel

/-- Each event of a core at its boundary: an empty line at 2^24 clocks, for a park and for an operation, and one clock before; a yield whose
number is reached, with and without a fault mark; a refusal for each hint and its limits; a tracker entry, a company. -/
theorem witness_CoreEvents :
    ((st tr).company? co.cid = some co ∧ 0 ∉ co.emptyLines) ∧
    (∀ lines ∈ [[], [1]],
     let t := { parked (.empty [(0, 0), (1, 192)]) with parkResume := ⟨4, false, false, false, false⟩ }
     let c := { co with emptyLines := lines }
     let s : State := { stWith t c la with clock := 2 ^ 24 }
     s.troupe? t.uid = some t ∧ s.company? t.cid = some c ∧ s.runnable t = true ∧ 2 ^ 24 ≤ s.clock.toNat - t.parkedAt ∧
     ([(0, 0), (1, 192)] : List (Nat × Nat)).filter (fun w => c.emptyLines.contains (w.2 / 192)) = if lines = [] then [] else [(1, 192)]) ∧
    (let o := opOf .loadSp true (req95 192 0)
     let t := { flying o with park := .wait 0 }
     let c := { co with emptyLines := [1] }
     let s : State := { stWith t c la with clock := 2 ^ 24 }
     s.troupe? t.uid = some t ∧ t.ops = [o] ∧ t.awaits o = true ∧ s.runnable t = true ∧ 2 ^ 24 ≤ s.clock.toNat - t.parkedAt ∧
     s.opWaits t o = [(95, 192)] ∧ t.trap = false ∧ o.raisesLd = true ∧ o.raisesSt = false) ∧
    (let t := { flying (opOf .loadSp true (req95 192 0)) with park := .wait 0 }
     let s := st t
     s.troupe? t.uid = some t ∧ (s.lineWait t).1 = [] ∧ ((s.emptyTheLines t.cid [1]).lineWait t).1 = [(95, 192)] ∧
     ((s.emptyTheLines t.cid [0]).lineWait t).1 = []) ∧
    (let s : State := { st tr with clock := 2 ^ 24 - 1 }
     s.troupe? tr.uid = some tr ∧ s.company? tr.cid = some co ∧ s.runnable tr = true ∧ s.clock.toNat - tr.parkedAt < 2 ^ 24) ∧
    (∀ fault ∈ [true, false], let t := parked (.yieldTl 0 0 64)
     let c := { co with marks := [⟨0, 0, 1, fault, 1⟩] }
     let s := stWith t c la
     s.troupe? t.uid = some t ∧ s.runnable t = true ∧ s.company? t.cid = some c ∧
     (0 : DWord).toNat ≤ (c.tls.getD 0 ⟨0, 0⟩).reached.toNat ∧ c.markedBy 0 0 t.uid = if fault then some 0 else none) ∧
    (let t := parked (.yieldFull 0 64)
     (st t).troupe? t.uid = some t ∧ (st t).runnable t = true ∧ (st t).company? t.cid = some co ∧ 0 ∉ co.emptyLines) ∧
    (∀ hint ∈ [(⟨1, 0⟩ : RefusalHint), ⟨1024, 1⟩], let r := { req95 64 0 with pa := 2 ^ 38, refusals := if hint.die = 1 then 7 else 8, rdcRefusals := if hint.die = 1 then 8 else 7 }
      let o := opOf (.loadG false) true r
      let t := flying o
      let s := st t
      s.troupe? t.uid = some t ∧ t.ops.find? (·.id == o.id) = some o ∧ o.lanes.find? (fun r => s.refusable t o r hint.die) = some r ∧ 1 ≤ hint.clocks ∧
      hint.clocks ≤ 1024 ∧ s.refusable t o r hint.die = true ∧ decide (hint.die = (placeOf s r).die) = decide (hint.die = 1)) ∧
    (let o := opOf (.loadG false) true { req95 64 0 with refusals := 8 }
     let t := flying o
     (st t).troupe? t.uid = some t ∧ t.ops.find? (·.id == o.id) = some o ∧ ∀ r ∈ o.lanes, (st t).refusable t o r 0 = false) ∧
    ((st tr).troupe? tr.uid = some tr) ∧
    (let t := { tr with retired := true }
     let k : Tracker := ⟨1, 2, 3⟩
     let s : State := (st t).updCore 0 fun c => { c with trackers := [k] }
     (s.core 0).trackers.find? (·.uid == t.uid) = some k ∧ s.troupe? t.uid = some t ∧ s.outstanding t = false) ∧
    (let t := { flying (opOf .storeG false (req95 64 5)) with retired := true }
     let k : Tracker := ⟨1, 2, 3⟩
     let s : State := (st t).updCore 0 fun c => { c with trackers := [k] }
     (s.core 0).trackers.find? (·.uid == t.uid) = some k ∧ s.troupe? t.uid = some t ∧ s.outstanding t = true) ∧
    (let c := { co with retiredF1 := [0] }
     let s := stWith { tr with retired := true } c la
     s.company? co.cid = some c ∧ c.core = some 0 ∧ s.allRetired c = true ∧ ∀ o ∈ c.ops, o.done = true ∨ o.kind.usesStore = false) := by
  refine ⟨?_, ?_, ?_, ?_, ?_, ?_, ?_, ?_, ?_, ?_, ?_, ?_, ?_⟩ <;> decide +kernel

/-! ### Engines at work -/

/-- Company 2 with one operation. -/
def coWith (o : EngOp) : Company := { co with ops := [o] }
def busy (o : EngOp) : State := tables (stWith tr (coWith o) la)
def opAs (tl : Option Nat) (k : EngKind) (todo : List (Nat × Nat)) : EngOp := newEngOp 7 tl 1 1 k todo

theorem working_busy (o : EngOp) (h : o.id = 7) (h1 : o.done = false) (h2 : o.parked = none) : Working (busy o) (coWith o) o :=
  ⟨rfl, by simp [coWith, h], h1, h2⟩

/-- Timeline 0 with operation 1 done and operation 2 not: 1 is reached; timeline 4 with an edit numbered 3 in flight: 2 is reached. -/
theorem witness_TimelinesReach :
    (let a := { opAs (some 0) (.mzero 0) [] with done := true }
     let b := { opAs (some 0) (.mzero 0) [] with id := 8, n := 2 }
     let c := { co with ops := [a, b], tls := [⟨2, 0⟩] }
     let s := stWith tr c la
     s.company? c.cid = some c ∧ Reached s c 0 1) ∧
    (let t := flying { opOf .storeG false (req95 64 5) with kind := .edit true 3 }
     let c := { co with tls := co.tls.set 4 ⟨3, 0⟩ }
     let s := stWith t c la
     s.company? c.cid = some c ∧ Reached s c 4 2) ∧
    Reached (st tr) co 0 0 := by
  refine ⟨⟨by decide +kernel, ?_, .inl (.inl ?_)⟩, ⟨by decide +kernel, ?_, .inl (.inr ?_)⟩, ?_, .inr ⟨?_, by decide +kernel⟩⟩
  · rintro m (⟨o, ho, h1, h2, h3⟩ | ⟨h, -⟩)
    · simp only [List.mem_cons, List.not_mem_nil, or_false] at ho
      rcases ho with rfl | rfl
      · exact absurd h2 (by decide)
      · exact h3 ▸ by decide
    · exact absurd h (by decide)
  · exact ⟨{ opAs (some 0) (.mzero 0) [] with id := 8, n := 2 }, by simp, rfl, rfl, by decide⟩
  · rintro m (⟨o, ho, -⟩ | ⟨-, t, ht, -, o, ho, i, x, h1, h2⟩)
    · exact absurd ho (List.not_mem_nil)
    · simp only [stWith, List.mem_singleton] at ht
      subst ht
      simp only [flying, withOp, tr, newTroupe, List.nil_append, List.mem_singleton] at ho
      subst ho
      simp only [MemKind.edit.injEq] at h1
      rw [← h2, ← h1.2]; decide
  · exact ⟨rfl, _, List.mem_singleton.2 rfl, rfl, _, List.mem_singleton.2 rfl, true, 3, rfl, by decide⟩
  · rintro m (⟨o, ho, -⟩ | ⟨h, -⟩)
    · exact absurd ho (List.not_mem_nil)
    · exact absurd h (by decide)
  · rintro m (⟨o, ho, -⟩ | ⟨h, -⟩)
    · exact absurd ho (List.not_mem_nil)
    · exact absurd h (by decide)

/-- Bytes 385 and 386 of the scratchpad to 1 and 2, of a copy of four; 385 is poisoned. -/
theorem witness_ScratchpadCopies :
    (∀ stg, let o := opAs (some 0) (.cpy true true stg 0 384 4 none false) [(0, 4)]
     let c := { coWith o with spadPoison := [385] }
     Working (stWith tr c la) c o ∧ c.core ≠ none ∧ o.badLines = [] ∧ takeRange o.todo 1 2 = (2, [(0, 1), (3, 1)]) ∧ c.spad.wf = true ∧
     (∀ i, i < 2 → ∀ j, j < 2 → (384 + 1 + i) / 192 ≠ (0 + 1 + j) / 192) ∧ ∀ r ∈ [(0, 1), (3, 1)] ++ o.sent, 0 < r.2) := by
  intro stg; cases stg <;> refine ⟨⟨?_, ?_, ?_, ?_⟩, ?_, ?_, ?_, ?_, ?_, ?_⟩ <;> decide +kernel

/-- The table of `tables` with this leaf, and the LPDDR6 memory trained. -/
def leafAt (e : List Byte) (s : State) : State :=
  { s with mem := putBytes (putBytes [] 0 [1, 0x10]) 4096 e, boot := { s.boot with bootstat := 0x1000FFFF } }

/-- How an engine's translation ends: 0 at a place, 1 without permission, 2 reported, 3 to migrate. -/
def ends (r : State × Tr) : Nat :=
  match r.2 with
  | .ok _ _ _ => 0
  | .denied => 1
  | .report => 2
  | .migrate => 3

/-- How an access of one byte ends: 0 placed, 1 without permission, 2 parked, 3 busy; with the place and what is there. -/
def placed_ (r : EngAcc) (ok : State → Loc → Bool) : Nat :=
  match r with
  | .ok s l => if ok s l then 0 else 9
  | .denied => 1
  | .park _ _ => 2
  | .busy => 3

def plainB (s : State) (l : Loc) : Bool :=
  !l.host && l.cmp.isNone && (s.die l.die).regions.isEmpty && (s.allowanceLine? l.byte 1).isNone && (s.l2Victim? l).isNone && decide (l.off < 192) &&
  s.l2.all (fun x => x.data.length == 192) && s.cores.all (fun c => c.l1.all fun x => x.data.length == 192) &&
  (s.ownedCopy l.line).all (·.dirty)

theorem plainB_home {s : State} {l : Loc} (h : plainB s l = true) : PlainHome s l := by
  simp only [plainB, Bool.and_eq_true, Bool.not_eq_true', Option.isNone_iff_eq_none, List.isEmpty_iff, decide_eq_true_eq, List.all_eq_true,
    beq_iff_eq, Option.all_eq_true] at h
  obtain ⟨⟨⟨⟨⟨⟨⟨⟨a, b⟩, c⟩, d⟩, e⟩, f⟩, g⟩, i⟩, j⟩ := h
  exact ⟨a, b, c, d, e, f, g, i, j⟩

def engineOp : EngOp := opAs (some 0) (.cpy false false false 0 0 4 none false) [(0, 4)]
def unit_ : EngCtx := ctxOf (busy engineOp) (coWith engineOp) engineOp

/-- A full line read and an empty one waited for; the four ends of a translation; a place that is free, one under an edit, poisoned, in host
memory, and owned. -/
theorem witness_EngineAccesses :
    ((busy engineOp).company? unit_.cid = some (coWith engineOp) ∧ 0 ∉ (coWith engineOp).emptyLines ∧ unit_.fetcher = false) ∧
    (let c := { coWith engineOp with emptyLines := [0] }
     (stWith tr c la).company? unit_.cid = some c ∧ ({ unit_ with fetcher := true } : EngCtx).fetcher = true ∧ 0 / 192 ∈ c.emptyLines ∧ 0 / 192 ∉ unit_.early) ∧
    (∀ p ∈ [([(0x1F : Byte)], 64, Perm.w, 0), ([0x17], 64, .w, 1), ([0x1F], 2 ^ 39, .r, 2), ([0x1F, 4, 0, 0, 0, 1], 64, .r, 3)],
      ends ((leafAt p.1 (busy engineOp)).translateDie (unit_.home / 32) unit_.root p.2.1 p.2.2.1) = p.2.2.2) ∧
    (∀ p ∈ [(false, 0), (true, 3)],
      let s := if p.1 then (busy engineOp).updDie 0 (fun d => { d with regions := [{ region with edit := some ⟨1, 0, 0, 0⟩ }] }) else busy engineOp
      placed_ (s.engPlace unit_ 0x100000 1 .w) (fun s1 l => !s1.sideHeld l 1 && (s1.engOp? unit_.cid 7).any (!·.badLines.contains l.line)) = p.2) ∧
    placed_ ((busy engineOp).engPlace unit_ 64 1 .r) (fun s1 l => !s1.isPoisoned l 1 && plainB s1 l) = 0 ∧
    placed_ ({ busy engineOp with poison := [64] }.engPlace unit_ 64 1 .r) (fun s1 l => s1.poison.contains l.byte) = 0 ∧
    placed_ ((leafAt [0x1F, 2, 0, 0, 0, 0, 8] (busy engineOp)).engPlace unit_ 64 1 .r)
      (fun s1 l => l.host && !s1.isPoisoned l 1 && s1.mem.wf) = 0 ∧
    PlainHome (owned0 (busy engineOp)) { place with line := 0 } ∧
    placed_ ((busy engineOp).engPlace unit_ 64 1 .w) (fun s1 l => (s1.engOp? unit_.cid 7).isSome && plainB s1 l) = 0 ∧
    placed_ ({ busy engineOp with poison := [64] }.engPlace unit_ 64 1 .r) (fun s1 l => s1.isPoisoned l 1 && (s1.ownedCopy l.line).isNone) = 0 ∧
    ∀ wt, PlainSide (busy engineOp) { place with wt := wt } := by
  refine ⟨⟨?_, ?_, ?_⟩, ⟨?_, ?_, ?_⟩, ?_, ?_, ?_, ?_, ?_, plainB_home ?_, ?_, ?_, fun _ _ => ⟨rfl, fun _ h => absurd h (List.not_mem_nil)⟩⟩ <;>
    decide +kernel

/-- How a byte of a copy ends: 0 moved, else what stops it: 1 a page, 2 a permission at the destination, 3, 4 at the source. -/
def byteEnds (s : State) (x : EngCtx) (id : Nat) (ssp dsp : Bool) (a b : Nat) : Nat :=
  let held (s : State) (n : Nat) : Nat := if (s.engOp? x.cid id).isSome then n else 9
  match s.srcByte x ssp a with
  | .got s1 v bad =>
    match s1.dstByte x id dsp b v bad with
    | .ok s2 => held s2 0
    | .park s2 _ => held s2 1
    | .fail s2 => held s2 2
    | .busy _ => 9
  | .stop (.park s1 _) => held s1 3
  | .stop (.fail s1) => held s1 4
  | .stop _ => 9

def marksOk (n : Nat) (r : Except Moved (State × List (Byte × Bool))) : Bool :=
  match r with
  | .ok (_, bs) => bs.length == n
  | .error _ => false

/-- A copy of no bytes; a byte of copies between the ends that are mapped, away or without permission; two bytes at once; a remote read, a
remote write and an atomic request. -/
theorem witness_CopyEvents :
    (let o := opAs (some 0) (.cpy true true false 0 4 0 none false) []
     Working (busy o) (coWith o) o ∧ (coWith o).core ≠ none) ∧
    (∀ p ∈ [(false, false, 2 ^ 21, 2 ^ 21 + 64, [(0x1F : Byte)], 0), (true, false, 0, 64, [0x1F], 0), (false, true, 64, 0, [0x1F], 0),
        (false, true, 2 ^ 39, 0, [0x1F], 1), (false, true, 64, 0, [0x17], 2), (true, false, 0, 2 ^ 39, [0x1F], 3), (true, false, 0, 64, [0x1B], 4)],
      let o := opAs (some 0) (.cpy p.1 p.2.1 false p.2.2.1 p.2.2.2.1 4 none false) [(0, 4)]
      let s := leafAt p.2.2.2.2.1 (busy o)
      Working s (coWith o) o ∧ (coWith o).core ≠ none ∧ (takeRange o.todo 3 1).1 = 1 ∧
      byteEnds s (ctxOf s (coWith o) o) o.id p.2.1 p.1 (p.2.2.2.1 + 3) (p.2.2.1 + 3) = p.2.2.2.2.2) ∧
    (let o := opAs (some 0) (.cpy false true false 64 0 2 none false) [(0, 2)]
     Working (busy o) (coWith o) o ∧ (coWith o).core ≠ none ∧ o.todo = [(0, 0 + 2)] ∧ o.sent = [] ∧
     byteEnds (busy o) (ctxOf (busy o) (coWith o) o) o.id true false 0 64 = 0) ∧
    (∀ p ∈ [(false, false), (true, false), (true, true)],
     let o := opAs (some 0) (.cpy false true false 64 0 32 (some (p.1, 9)) p.2) [(0, 32)]
     Working (busy o) (coWith o) o ∧ (coWith o).core ≠ none ∧ takeRange o.todo 0 32 = (32, []) ∧
     marksOk 32 ((busy o).srcMarked (ctxOf (busy o) (coWith o) o) true 0 [] 32) = true) := by
  refine ⟨⟨working_busy _ rfl rfl rfl, by decide⟩, ?_, ⟨working_busy _ rfl rfl rfl, ?_, ?_, ?_, ?_⟩, ?_⟩
  rotate_right
  · intro p hp
    simp only [List.mem_cons, List.not_mem_nil, or_false] at hp
    rcases hp with rfl | rfl | rfl <;> refine ⟨working_busy _ rfl rfl rfl, ?_, ?_, ?_⟩ <;> decide +kernel
  · intro p hp
    simp only [List.mem_cons, List.not_mem_nil, or_false] at hp
    rcases hp with rfl | rfl | rfl | rfl | rfl | rfl | rfl <;>
      refine ⟨⟨rfl, by simp [coWith, opAs, newEngOp], rfl, rfl⟩, ?_, ?_, ?_⟩ <;> decide +kernel
  all_goals decide +kernel

/-- A record of n elements of a format at `base`. -/
def vector (n base efmt sform : Nat) : Layout :=
  { base := base, efmt := efmt, ndim := 1, swz := 0, cs := false, sform := sform, ext := [n], str := [], sbase := 2 ^ 22, sstride := 0, cbase := 0,
    handle := 0 }
def scan1 : ScanArgs := { src := 2 ^ 21, n := 1, op := 4, ef := 2, k := 0, thr := 0, m := 1, out := 2 ^ 21 + 64 }

/-- What ends well leaves operation 7 there. -/
def goes (r : Moved) : Bool :=
  match r with
  | .ok s => (s.engOp? 2 7).isSome
  | _ => false

/-- How the reading of a scan's source ends: 0 read, 1 without permission. -/
def scanEnds (r : Except Moved (State × List Byte)) : Nat :=
  match r with
  | .ok _ => 0
  | .error (.fail s) => if (s.engOp? 2 7).isSome then 1 else 9
  | .error _ => 9
def linesAre (want : List Nat) (form : Nat) (r : Except Moved (State × List Loc)) : Bool :=
  match r with
  | .ok (s, ls) => ls.map (·.line) == want && ls.all (fun l => !s.sideHeld l 192) &&
      goes (.ok (ls.foldl (fun s l => s.maintainLine form l.line) s))
  | .error _ => false

/-- The last element of a copy of four; the second block of an MX destination; a scan with its source read, not readable, and its last
value to write; maintenance of no bytes and of the last bytes of a line. -/
theorem witness_PipeEvents :
    (let src := vector 4 (2 ^ 21) 0 0
     let dst := vector 4 (2 ^ 21 + 192) 0 0
     let o := opAs (some 0) (.cpyl src dst false 0 false 0 0) [(3, 1)]
     Working (busy o) (coWith o) o ∧ dst.isMx = false ∧ (takeRange o.todo 3 1).1 = 1 ∧
     goes ((busy o).cpylOne (ctxOf (busy o) (coWith o) o) o.id src dst false 0 false 0 0 3) = true) ∧
    (let src := vector 64 (2 ^ 21) 0 0
     let dst := vector 64 (2 ^ 21 + 384) 4 3
     let o := opAs (some 0) (.cpyl src dst false 0 false 0 0) [(32, 32)]
     Working (busy o) (coWith o) o ∧ dst.isMx = true ∧ (takeRange o.todo (32 * 1) 32).1 = 32 ∧
     goes ((busy o).cpylBlock (ctxOf (busy o) (coWith o) o) o.id src dst false 0 0 0 1) = true) ∧
    (∀ p ∈ [(2 ^ 21, 0), (2 ^ 30 + 2 ^ 21, 1)], let a := { scan1 with src := p.1 }
     let o := opAs (some 3) (.scanq a) [(0, 1)]
     let s := { busy o with mem := putBytes (busy o).mem 4104 [0x1B, 0, 0, 0x40] }
     Working s (coWith o) o ∧ o.vector = [] ∧ scanEnds (s.scanBytes (ctxOf s (coWith o) o) a.src [] 4) = p.2) ∧
    (let o := { opAs (some 3) (.scanq scan1) [(12, 4)] with vector := List.replicate 16 1 }
     Working (busy o) (coWith o) o ∧ o.vector ≠ [] ∧
     (let n := (o.vector.length - 8) / (4 + 4)
      let k := min 4 (if 12 < 8 + 4 * n then 4 else 4)
      goes ((busy o).dstBytes (ctxOf (busy o) (coWith o) o) o.id false (scan1.out + 12) false
        ((o.vector.drop (if 12 < 8 + 4 * n then 12 else 12 - 4 * scan1.m + 4 * n)).take k))) = true) ∧
    (let o := opAs (some 5) (.maint 1 0 0) []
     Working (busy o) (coWith o) o) ∧
    (let o := opAs (some 5) (.maint 2 188 4) [(0, 1)]
     Working (busy o) (coWith o) o ∧ (takeRange o.todo 0 1).1 ≠ 0 ∧
     linesAre [0] 2 ((busy o).maintLines (ctxOf (busy o) (coWith o) o) 188 [] 4) = true) := by
  refine ⟨⟨working_busy _ rfl rfl rfl, ?_, ?_, ?_⟩, ⟨working_busy _ rfl rfl rfl, ?_, ?_, ?_⟩, ?_, ⟨working_busy _ rfl rfl rfl, ?_, ?_⟩,
    working_busy _ rfl rfl rfl, working_busy _ rfl rfl rfl, ?_, ?_⟩
  rotate_left 6
  · intro p hp
    simp only [List.mem_cons, List.not_mem_nil, or_false] at hp
    rcases hp with rfl | rfl <;> refine ⟨⟨rfl, by simp [coWith, opAs, newEngOp], rfl, rfl⟩, ?_, ?_⟩ <;> decide +kernel
  all_goals decide +kernel

/-- How a bank operation's read of global memory ends: 0 read, 1 a page, 2 without permission. -/
def bytesEnd (n : Nat) (r : Except Moved (State × List Byte × Bool)) : Nat :=
  match r with
  | .ok (_, bs, _) => if bs.length = n then 0 else 9
  | .error (.park _ _) => 1
  | .error (.fail _) => 2
  | .error _ => 9

def bank1 : BankArgs := { die := 0, stack := 0, pcm := 8, fr := 0, entry := 0, nr := 1, offmax := 0, banks := 0xFFFF, bv := 0, f32 := false, dup := false }
/-- A sequencer with one operation of company 2 in its queue. -/
def queued (run : Option BankProgress) (s : State) : State :=
  { s with sequencers := [{ die := 0, stack := 0, pc := 3, store := [], queue := [(2, 7)], run := run, clock := 0 }] }
def stepAt (k : Nat) : BankProgress := { args := bank1, units := [], cur := 0, upc := k, flags := 0, written := [] }

/-- BKLOAD of an entry that keeps the rules and of one that does not; BKCMD with and without a broadcast row to read, read or not, held
back by an edit, at an entry that goes on and at one that ends it; the watchdog at its clock, one before, and switched off. -/
theorem witness_BankSequencers :
    (let o := opAs (some 2) (.bkload 64 8 0 1 0 0) []
     let s := queued none (busy o)
     Working s (coWith o) o ∧ channelsOf (8 : DWord) = [3] ∧ (s.sequencer 0 0 3).queue.head? = some ((coWith o).cid, o.id) ∧
     bytesEnd 4 (s.srcBytes (ctxOf s (coWith o) o) false 64 4) = 0 ∧ [(0 : Word)].all bankEntryOk = true ∧
     [(0x7FFFFFFF : Word)].all bankEntryOk = false) ∧
    (∀ p ∈ [(0, [(0x1F : Byte)], 0), (192, [0x1F], 0), (192, [0x1B], 2), (2 ^ 39, [0x1F], 1)], let a := { bank1 with bv := p.1 }
      let o := opAs (some 2) (.bkcmd a) []
      let s := queued none (leafAt p.2.1 (busy o))
      Working s (coWith o) o ∧ (s.sequencer 0 0 3).queue = ((coWith o).cid, o.id) :: [] ∧ (s.sequencer 0 0 3).run = none ∧
      s.bankWaits 0 0 3 a = false ∧ o.vector = [] ∧ bytesEnd 192 (s.srcBytes (ctxOf s (coWith o) o) false p.1 192) = if p.1 = 0 then 0 else p.2.2) ∧
    (let o := opAs (some 2) (.bkcmd bank1) []
     let s := queued none ((busy o).updDie 0 fun d => { d with regions := [{ region with
       edit := some job, smap := [(0x100000, 576, 2 ^ 20)] }] })
     Working s (coWith o) o ∧ (s.sequencer 0 0 3).run = none ∧ s.bankWaits 0 0 3 bank1 = true) ∧
    (∀ p ∈ [((0 : Word), 1), (0x6100, 0), (0xB001, 1)], let o := opAs (some 2) (.bkcmd bank1) []
     let s := { queued none (busy o) with
       sequencers := [{ die := 0, stack := 0, pc := 3, store := [p.1], queue := [(2, 7)], run := some (stepAt 0), clock := 0 }] }
     Working s (coWith o) o ∧ (s.sequencer 0 0 3).run = some (stepAt 0) ∧ (s.sequencer 0 0 3).store.getD 0 0 = p.1 ∧
     (match BankRun.entry ⟨s, [], 0, 0, 0, []⟩ bank1 3 [p.1] [] with
      | .goes _ => 0
      | .ended _ _ => 1) = p.2) ∧
    (∀ p ∈ [((1750 : Nat), (1 : Word), true, true), (1750, 1, true, false), (1749, 1, false, true), (1750, 0, false, true)],
      let o := opAs (some 2) (.bkcmd bank1) []
      let run := if p.2.2.2 then some (stepAt 5) else none
      let s := { queued run ((busy o).updDie 0 fun d => { d with bkwdog := p.2.1 }) with clock := BitVec.ofNat 64 p.1 }
      let us := (s.die 0).bkwdog.toNat % 2 ^ 24
      Working s (coWith o) o ∧ (s.sequencer 0 0 3).run = run ∧
      decide (us ≠ 0 ∧ 1750 * us ≤ s.clock.toNat - (s.sequencer 0 0 3).clock) = p.2.2.1) := by
  refine ⟨⟨⟨?_, ?_, ?_, ?_⟩, ?_, ?_, ?_, ?_, ?_⟩, fun p hp => ?_, ⟨⟨?_, ?_, ?_, ?_⟩, ?_, ?_⟩, fun p hp => ?_, fun p hp => ?_⟩
  case refine_10 =>
    simp only [List.mem_cons, List.not_mem_nil, or_false] at hp
    rcases hp with rfl | rfl | rfl | rfl <;> refine ⟨⟨?_, ?_, ?_, ?_⟩, ?_, ?_, ?_, ?_, ?_⟩ <;> decide +kernel
  case refine_17 =>
    simp only [List.mem_cons, List.not_mem_nil, or_false] at hp
    rcases hp with rfl | rfl | rfl <;> refine ⟨⟨?_, ?_, ?_, ?_⟩, ?_, ?_, ?_⟩ <;> decide +kernel
  case refine_18 =>
    simp only [List.mem_cons, List.not_mem_nil, or_false] at hp
    rcases hp with rfl | rfl | rfl | rfl <;> refine ⟨⟨?_, ?_, ?_, ?_⟩, ?_, ?_⟩ <;> decide +kernel
  all_goals decide +kernel

/-- Three replicas of bank 0 with these values in ACC. -/
def copies (x y z : Nat) : BankRun :=
  ⟨State.reset, [{ freshUnit 1 0 with acc := [x] }, { freshUnit 1 5 with acc := [y] }, { freshUnit 1 10 with acc := [z] }], 0, 0, 0, []⟩

/-- Entries whose offset is too large, that move values, and that step; the end of the store; a vote that the third copy settles and one that
nothing settles; the last pseudo-channel of a command and one before it; a row written. -/
theorem witness_BankMoves :
    (∀ p ∈ [((0x1001 : Word), 0), (0x6100, 1), (0xB001, 2), (0xB0016100, 2)],
      let m (k : Nat) := (bankSlots p.1).getD k ⟨0, 0, 0⟩
      let tooFar (m : BankMove) : Bool := (m.dst == 1 || m.dst == 7) && decide (bank1.offmax < m.imm)
      ([p.1] : List Word).getD 0 0 ≠ 0 ∧ bankSlots p.1 = [m 0, m 1] ∧
      (if tooFar (m 0) || tooFar (m 1) then 0 else if (m 0).dst = 11 ∨ (m 1).dst = 11 then 2 else 1) = p.2) ∧
    (∀ p ∈ [(1, 2, 2, some 2), (1, 2, 3, none), (1, 1, 2, some 1)],
      most [p.1] [p.2.1] [p.2.2.1] = p.2.2.2.map fun v => [v]) ∧
    (∀ p ∈ [(2, false), (3, true)], let a := { bank1 with banks := 1, dup := true }
      a.banks.toNat < 32 ∧ ((copies 1 2 p.1).voteAcc a).isNone = p.2) ∧
    (∀ left ∈ [[], [(4, 1)]], let o := opAs (some 2) (.bkcmd bank1) ((3, 1) :: left)
     let s := queued (some (stepAt 0)) (busy o)
     Working s (coWith o) o ∧ (s.sequencer 0 0 3).queue.head? = some ((coWith o).cid, o.id) ∧ (o.todo.filter fun x => x.1 != 3) = left) ∧
    (let s := busy engineOp
     (s.die 0).regions = [] ∧ (s.bankWrite 0 192 (List.replicate 192 1)).coded = [] ∧ s.mem.wf = true ∧ ∀ x ∈ s.msc, x.below.length = 192) := by
  refine ⟨fun p hp => ?_, fun p hp => ?_, fun p hp => ?_, fun p hp => ?_, ?_, ?_, ?_, ?_⟩
  case refine_1 =>
    simp only [List.mem_cons, List.not_mem_nil, or_false] at hp
    rcases hp with rfl | rfl | rfl | rfl <;> refine ⟨?_, ?_, ?_⟩ <;> decide +kernel
  case refine_4 =>
    simp only [List.mem_cons, List.not_mem_nil, or_false] at hp
    rcases hp with rfl | rfl <;> refine ⟨⟨?_, ?_, ?_, ?_⟩, ?_, ?_⟩ <;> decide +kernel
  all_goals first
    | decide +kernel
    | (simp only [List.mem_cons, List.not_mem_nil, or_false] at hp
       rcases hp with rfl | rfl | rfl <;> decide +kernel)

/-- An MMA of 128 rows of one BF16 element by 128, in the scratchpad; a second one takes its A from an unmapped page. -/
def mmaA : MmaArgs :=
  { tile := 0, af := 1, bf := 1, sm := 0, sat := false, a := .sp 0 64, b := .sp 8192 64, k := 1, lr := 0, lat := 0, u := none, urt := 0, ukt := 0,
    stg := 0, usesWindow := false, bcast := false, p2 := 0, p3 := 0, brec := [], members := [] }
def mmaFar : MmaArgs := { mmaA with a := .glob { vector 1 (2 ^ 39) 1 0 with ndim := 2, ext := [1, 128] } 0 0 }
/-- The same for B. -/
def mmaFarB : MmaArgs := { mmaA with b := .glob { vector 1 (2 ^ 39) 1 0 with ndim := 2, ext := [1, 128] } 0 0 }
def coTiles (o : EngOp) : Company := { coWith o with tiles := List.replicate 8 [(5, 1)] }
def tiled (o : EngOp) : State := tables (stWith tr (coTiles o) la)

theorem working_tiled (o : EngOp) (h : o.id = 7) (h1 : o.done = false) (h2 : o.parked = none) : Working (tiled o) (coTiles o) o :=
  ⟨rfl, by simp [coTiles, coWith, h], h1, h2⟩

/-- How a band ends: 0 ready, 1 parked, 2 failed. -/
def bandEnds (r : Band) : Nat :=
  match r with
  | .ready s1 _ _ bad => if !bad && (s1.company? 2).any fun c => c.ops.map (·.id) == [7] && c.tiles == List.replicate 8 [(5, 1)] then 0 else 9
  | .stop _ (.park _ _) => 1
  | .stop _ (.fail _) => 2
  | .stop _ _ => 9

/-- How the fetch for the pair ends: 0 with this many rows, 1 parked. -/
def rowsEnd (n : Nat) (r : Except Moved (State × List OpRow)) : Nat :=
  match r with
  | .ok (_, rs) => if rs.length = n then 0 else 9
  | .error (.park _ _) => 1
  | .error _ => 9
def drainA : DrainArgs :=
  { tile := 0, df := 0, tf := 0, tr := false, sr := false, sat := false, clr := false, dst := .sp 0 512, dstT := .sp 0 0, seed := 0, ctr := 0 }

/-- Companies 2 and 9 of one launch on the cores of cluster 0, each with a broadcast MMA; `o` is the first one's. -/
def pairedWith (o u : EngOp) : State :=
  let s := tables (stWith tr (coTiles o) la)
  { s with companies := [coTiles o, { coTiles u with cid := 9, core := some 1 }] }
def bcastA : MmaArgs := { mmaA with bcast := true }
def offerOp (id bus : Nat) (k : EngKind) : EngOp := { opAs (some 1) k [] with id := id, bus := bus }

/-- Bands that commit, that wait for a page and that have no permission; rows of B that are fetched for both engines, or wait for a page, or have come
already; offers alone, without a window, and to one that matches; an offer whose window is over; a pair with one engine parked and with none. -/
theorem witness_MatrixEvents :
    (∀ p ∈ [(mmaA, (0x1F : Byte), 0), (mmaFar, 0x1F, 1), ({ mmaFar with a := .glob { vector 1 64 1 0 with ndim := 2, ext := [1, 128] } 0 0 }, 0x1B, 2)],
     let o := opAs (some 1) (.mma p.1) []
     let s := leafAt [p.2.1] (tiled o)
     let x := ctxOf s (coTiles o) o
     Working s (coTiles o) o ∧ s.bandEnabled (coTiles o).cid o p.1 = true ∧ o.rows + 16 < 128 ∧ o.delivered = [] ∧
     rowsEnd 0 (s.deliverBand x o p.1) = 0 ∧ bandEnds (s.band x p.1 [(5, 1)] 0 []) = p.2.2) ∧
    (∀ p ∈ [(bcastA, 16, 0), ({ mmaFarB with bcast := true }, 0, 1)],
     let o := offerOp 7 3 (.mma p.1)
     let u := offerOp 8 3 (.mma p.1)
     let s := (pairedWith o u).updCluster 0 fun k => { k with pairs := [((2, 7), (9, 8))] }
     s.company? 2 = some (coTiles o) ∧ s.bandEnabled 2 o p.1 = true ∧ s.partner? 2 7 = some (9, 8) ∧ s.engOp? 9 8 = some u ∧ o.bus = 3 ∧
     u.done = false ∧ u.rows = o.rows ∧ rowsEnd p.2.1 (s.deliverBand (ctxOf s (coTiles o) o) o p.1) = p.2.2 ∧
     rowsEnd p.2.1 (s.bandRows (ctxOf s (coTiles o) o) p.1 0) = p.2.2) ∧
    (let got := List.replicate 16 { codes := [0], scales := [], block := 1, bad := false }
     let o := { opAs (some 1) (.mma mmaA) [] with delivered := got }
     Working (tiled o) (coTiles o) o ∧ o.delivered ≠ [] ∧ bandEnds ((tiled o).band (ctxOf (tiled o) (coTiles o) o) mmaA [(5, 1)] 0 got) = 0) ∧
    (let o := { opAs (some 1) (.mma mmaA) [] with rows := 112 }
     Working (tiled o) (coTiles o) o ∧ 128 ≤ o.rows + 16 ∧ (tiled o).partner? (coTiles o).cid o.id = none ∧
     bandEnds ((tiled o).band (ctxOf (tiled o) (coTiles o) o) mmaA [(5, 1)] (o.rows / 16) []) = 0) ∧
    (let o := { opAs (some 1) (.mma mmaA) [] with parked := some 9 }
     (tiled o).company? co.cid = some (coTiles o) ∧ (coTiles o).ops.find? (·.id == o.id) = some o ∧ (tiled o).rm.faults = [] ∧
      (tiled o).partner? co.cid o.id = none) ∧
    (let o := opAs none (.mzero 7) []
     Working (tiled o) (coTiles o) o ∧ (tiled o).atHead (coTiles o).cid o.id = true ∧ 7 < (coTiles o).tiles.length) ∧
    (let o := opAs (some 1) (.mdrain drainA) []
     Working (tiled o) (coTiles o) o ∧ (tiled o).atHead (coTiles o).cid o.id = true) ∧
    (∀ w ∈ [(0 : Word), 0x1000],
     let o := opAs (some 1) (.mma bcastA) []
     let s := (tiled o).updCluster 0 fun k => { k with clbwin := w }
     Working s (coTiles o) o ∧ bcastA.bcast = true ∧ o.bus = 0 ∧ (coTiles o).core = some 0 ∧ s.offerNext 0 o.id = true ∧ 0 < s.clusters.length ∧
      (s.cluster 0).offers = [] ∧ ((s.cluster 0).clbwin.toNat % 2 ^ 20 = 0 ↔ w = 0)) ∧
    (let o := offerOp 7 0 (.mma bcastA)
     let u := offerOp 8 1 (.mma bcastA)
     let s : State := { (pairedWith o u).updCluster 0 (fun k => { k with offers := [(1, 9, 8)] }) with clock := 0xFFF }
     Working s (coTiles o) o ∧ s.offerNext 0 7 = true ∧ (s.cluster 0).offers = [(1, 9, 8)] ∧ s.engOp? 9 8 = some u ∧
     (s.cluster 0).clbwin.toNat % 2 ^ 20 ≠ 0 ∧ s.clock.toNat - u.busClock < (s.cluster 0).clbwin.toNat % 2 ^ 20 ∧
     s.offersMatch (2, 7) (9, 8) = true ∧ s.offersMatch (9, 8) (2, 7) = true) ∧
    (let o := offerOp 7 1 (.mma bcastA)
     let s : State := { (tiled o).updCluster 0 (fun k => { k with offers := [(0, 2, 7)] }) with clock := 0x1000 }
     s.company? co.cid = some (coTiles o) ∧ (coTiles o).ops.find? (·.id == o.id) = some o ∧ (s.cluster 0).offers = [(0, co.cid, o.id)] ∧
      (s.cluster 0).clbwin.toNat % 2 ^ 20 ≤ s.clock.toNat - o.busClock) ∧
    (let o := { offerOp 7 3 (.mma bcastA) with parked := some 9 }
     let s := (tiled o).updCluster 0 fun k => { k with pairs := [((2, 7), (3, 8))] }
     s.company? co.cid = some (coTiles o) ∧ (coTiles o).ops.find? (·.id == o.id) = some o ∧ o.done = false ∧ o.parked ≠ none ∧
      (s.cluster 0).pairs = [((co.cid, o.id), (3, 8))]) ∧
    (∀ p ∈ ((tiled (offerOp 7 3 (.mma bcastA))).cluster 0).pairs, p.1 = p.2) := by
  refine ⟨fun p hp => ?_, fun p hp => ?_, ⟨working_tiled _ rfl rfl rfl, ?_, ?_⟩, ⟨working_tiled _ rfl rfl rfl, ?_, ?_, ?_⟩, ⟨?_, ?_, ?_, ?_⟩,
    ⟨working_tiled _ rfl rfl rfl, ?_, ?_⟩, ⟨working_tiled _ rfl rfl rfl, ?_⟩, fun p hp => ?_, ⟨⟨?_, ?_, ?_, ?_⟩, ?_, ?_, ?_, ?_, ?_, ?_, ?_⟩,
    ⟨?_, ?_, ?_, ?_⟩, ⟨?_, ?_, ?_, ?_, ?_⟩, ?_⟩
  · simp only [List.mem_cons, List.not_mem_nil, or_false] at hp
    rcases hp with rfl | rfl | rfl <;> refine ⟨⟨?_, ?_, ?_, ?_⟩, ?_, ?_, ?_, ?_, ?_⟩ <;> decide +kernel
  · simp only [List.mem_cons, List.not_mem_nil, or_false] at hp
    rcases hp with rfl | rfl <;> refine ⟨?_, ?_, ?_, ?_, ?_, ?_, ?_, ?_, ?_⟩ <;> decide +kernel
  rotate_left 12
  · simp only [List.mem_cons, List.not_mem_nil, or_false] at hp
    rcases hp with rfl | rfl <;> refine ⟨⟨?_, ?_, ?_, ?_⟩, ?_, ?_, ?_, ?_, ?_, ?_, ?_⟩ <;> decide +kernel
  all_goals decide +kernel

def fetched {α : Type} (r : Except Moved α) : Bool :=
  match r with
  | .ok _ => true
  | .error _ => false

/-- Latent stages in the place of A and of B, U one FP32 element at 2^21. -/
def latA (lat : Nat) : MmaArgs := { mmaA with lat := lat, lr := 1, u := some { vector 1 (2 ^ 21) 0 0 with ndim := 2, ext := [1, 1] } }

/-- Sides without a latent stage and with one; rows of B fetched and brought by the bus; a row of an operand with scales and without; a drained row. -/
theorem witness_MatrixArithmetic :
    (let o := opAs (some 1) (.mma mmaA) []
     let x := ctxOf (tiled o) (coTiles o) o
     fetched ((tiled o).sideA x mmaA) = true ∧ fetched ((tiled o).sideB x mmaA 7 []) = true ∧ mmaRule? mmaA.sm mmaA.af mmaA.bf = some .groups ∧
     mmaA.lat = 0 ∧ fetched (fetchMany (fun s i => s.operandRow x mmaA.a mmaA.af mmaA.k (scaleKindA mmaA.sm) i) (tiled o) 0 [] 128) = true ∧
     fetched ((tiled o).bandRows x mmaA 7) = true) ∧
    (let a := latA 2
     let o := opAs (some 1) (.mma a) []
     let x := ctxOf (tiled o) (coTiles o) o
     (match fetchMany (fun s i => s.operandRow x a.a a.af a.k (scaleKindA a.sm) i) (tiled o) 0 [] 128 with
      | .ok (s1, _) => fetched (s1.upProjection x a)
      | .error _ => false) = true) ∧
    (let a := latA 1
     let o := opAs (some 1) (.mma a) []
     let x := ctxOf (tiled o) (coTiles o) o
     (match fetchMany (fun s i => s.operandRow x a.b a.bf a.lr (scaleKindB a.sm) i) (tiled o) 0 [] 128 with
      | .ok (s1, _) => fetched (s1.upProjection x a)
      | .error _ => false) = true) ∧
    (let r (scales : List Nat) : OpRow := { codes := [0x38], scales := scales, block := 32, bad := false }
     (r [0x7F]).codes[0]? = some 0x38 ∧ (r []).scales = [] ∧ (r [0x7F]).scales ≠ []) ∧
    (∀ j ∈ [0, 127], let o := opAs (some 1) (.mdrain drainA) []
     let x := ctxOf (tiled o) (coTiles o) o
     (match (tiled o).dstBytes x 7 true (512 + j % 128 * 0) false [1] with
      | .ok s1 => (match s1.dstBytes x 7 true (512 + 4 * (j % 128)) false [] with
        | .ok _ => true
        | _ => false)
      | _ => false) = true) := by
  refine ⟨⟨?_, ?_, ?_, ?_, ?_, ?_⟩, ?_, ?_, ⟨?_, ?_, ?_⟩, fun j hj => ?_⟩
  case refine_12 =>
    simp only [List.mem_cons, List.not_mem_nil, or_false] at hj
    rcases hj with rfl | rfl <;> decide +kernel
  all_goals decide +kernel

/-! ### The memory side at work -/

def l2x (dirty : Bool) : L2Line := { line := 3, data := List.replicate 192 0, dirty := dirty, cls := 1, sharers := 0, cmp := none, bad := [] }

/-- Invalidations, cached lines clean and dirty, a copy in the RDC of die 1, a strait, and a block being repaired, and stale. -/
theorem witness_DieEvents :
    (let s : State := { st tr with invals := [⟨1, 3, 1⟩] }
     s.invals.find? (fun x => x.die == 1 && x.line == 3) = some ⟨1, 3, 1⟩) ∧
    (∀ dirty, let s : State := { st tr with l2 := [l2x dirty] }
     s.l2.find? (fun x => lineHolds 600 x.line) = some (l2x dirty) ∧ (l2x dirty).dirty = dirty ∧ s.allowanceLine? (192 * 3) 192 = none ∧
     s.lineDie (l2x dirty) < s.dieUnits.length) ∧
    (let s := (st tr).updDie 1 fun d => { d with rdc := [{ line := 3, data := List.replicate 192 0 }] }
     1 < s.dieUnits.length ∧ ∃ x ∈ (s.die 1).rdc, lineHolds 600 x.line = true) ∧
    (0 < 4 ∧ 0 ∉ (st tr).straitsOut ∧ 0 ∈ ({ st tr with straitsOut := [0] } : State).straitsOut) ∧
    (∀ p ∈ [(some (0, []), false), (none, true)], let g : Region := { region with repairing := p.1 }
     let s := (stR tr g).updDie 0 fun d => d
     let s : State := { s with mem := putBytes s.mem 0x20000C [1] }
     let s := if p.2 then s.markBlock g 0 else s
     (s.die 0).regions[0]? = some g ∧ g.edit = none ∧ s.regionState g = 1 ∧ s.stringHeld g = false ∧ 0 < g.r.nb ∧ g.repairing = p.1 ∧
     s.blockStale g 0 = p.2) := by
  refine ⟨?_, fun d => ?_, ⟨?_, ?_⟩, ⟨?_, ?_, ?_⟩, fun p hp => ?_⟩
  case refine_2 => cases d <;> refine ⟨?_, ?_, ?_, ?_⟩ <;> decide +kernel
  case refine_8 =>
    simp only [List.mem_cons, List.not_mem_nil, or_false] at hp
    rcases hp with rfl | rfl <;> refine ⟨?_, ?_, ?_, ?_, ?_, ?_, ?_⟩ <;> decide +kernel
  all_goals decide +kernel

/-- The directory's bytes of `region` stand at different places, and its only block may be repaired. -/
theorem witness_BlockRepair : (stR tr region).mem.wf = true ∧ 0 < region.r.nb ∧
    ∀ i j, i < region.r.dsize → j < region.r.dsize → region.dirPa i = region.dirPa j → i = j :=
  ⟨by decide +kernel, by decide, (regionApart none).1⟩

/-- Sixteen lines in one set, below the quota of class 2, and none. -/
theorem witness_DieEvents_full :
    let s : State := { st tr with l2 := List.replicate 16 (l2x false) }
    let l := { place with cls := 2 }
    let inSet := (s.l2.filter fun x => s.lineDie x == l.die).filter fun x => slotOf x.line == slotOf l.line
    inSet = List.replicate 15 (l2x false) ++ [l2x false] ∧ (inSet.filter (·.cls == l.cls)).length < s.l2Quota l.die l.cls ∧
    (([] : List L2Line).filter (·.cls == l.cls)).length < (st tr).l2Quota l.die l.cls := by
  have hm : ∀ x ∈ List.replicate 16 (l2x false), x = l2x false := fun x hx => (List.mem_replicate.1 hx).2
  refine ⟨?_, ?_, ?_⟩
  · rw [List.filter_eq_self.2, List.filter_eq_self.2]
    · rfl
    · intro x hx
      rw [hm x hx]
      decide +kernel
    · intro x hx
      rw [hm x (List.mem_of_mem_filter hx)]
      exact beq_iff_eq.2 rfl
  · rw [List.filter_eq_nil_iff.2]
    · decide +kernel
    · intro x hx
      rw [hm x (List.mem_of_mem_filter (List.mem_of_mem_filter hx))]
      decide
  · decide +kernel

/-- A quota of one line for class 1. -/
def oneWay : State := (st tr).updDie 0 fun d => { d with l2quota := 0x00084030 }
def evictState (line : Nat) : State := { oneWay with l2 := [{ l2x true with line := line }] }
def fillOf (line : Nat) : Loc := { (State.reset.rawLoc (192 * line)) with cls := 1 }

theorem evict_window (line pa : Nat) : (evictState line).window? pa = State.reset.window? pa := rfl

theorem evict_loc (line k : Nat) : { (evictState line).rawLoc (192 * k) with cls := 1 } = fillOf k := by
  simp only [fillOf, State.rawLoc, State.loc, State.homeDie, evict_window]

theorem evict_places : ∀ k < 1025, (evictState (2 ^ 15 * k)).lineDie { l2x true with line := 2 ^ 15 * k } = 0 ∧
    (fillOf (2 ^ 15 * k)).die = 0 ∧ (fillOf (2 ^ 15 * k)).line = 2 ^ 15 * k ∧ (fillOf (2 ^ 15 * k)).host = false ∧
    lineNo (2 ^ 15 * k) = 2 ^ 15 * k ∧ l2Slice (2 ^ 15 * k) = 0 := by decide +kernel

/-- Two of 1025 lines of a slice stand in one of its 1024 sets: one of them, cached, is what a fill of the other evicts. -/
theorem witness_DieEvents_eviction : ∃ (s : State) (pa x : Nat),
    let l := { s.rawLoc pa with cls := 1 }
    l.host = false ∧ s.l2Get l.line = none ∧ s.l2Victim? l = some x := by
  obtain ⟨i, j, hij, h⟩ := Fintype.exists_ne_map_eq_of_card_lt (fun k : Fin 1025 => Config.l2Set (2 ^ 15 * k.val)) (by simp)
  have a := evict_places i i.isLt
  have b := evict_places j j.isLt
  have hne : ¬ (2 ^ 15 * i.val = 2 ^ 15 * j.val) := fun e => hij (Fin.ext (by omega))
  have hc : slotOf (2 ^ 15 * i.val) = slotOf (2 ^ 15 * j.val) := by
    simp only [slotOf, a.2.2.2.2.1, b.2.2.2.2.1, a.2.2.2.2.2, b.2.2.2.2.2, h]
  have hq : oneWay.l2Quota 0 1 ≤ 1 := by decide +kernel
  have hf : (evictState (2 ^ 15 * i.val)).l2 = [{ l2x true with line := 2 ^ 15 * i.val }] := rfl
  have hl : { (evictState (2 ^ 15 * i.val)).rawLoc (192 * (2 ^ 15 * j.val)) with cls := 1 } = fillOf (2 ^ 15 * j.val) := evict_loc _ _
  refine ⟨evictState (2 ^ 15 * i.val), 192 * (2 ^ 15 * j.val), 2 ^ 15 * i.val, ?_⟩
  rw [hl]
  refine ⟨b.2.2.2.1, ?_, ?_⟩
  · rw [b.2.2.1]
    simp [State.l2Get, evictState, l2x]
    omega
  · have hq2 : (evictState (2 ^ 15 * i.val)).l2Quota 0 (fillOf (2 ^ 15 * j.val)).cls ≤ 1 := hq
    simp only [State.l2Victim?, hf, b.2.1, b.2.2.1, List.filter_cons, a.1, hc, beq_self_eq_true, if_true, List.filter_nil,
      show ((l2x true).cls == (fillOf (2 ^ 15 * j.val)).cls) = true from rfl, List.length_singleton]
    rw [if_neg (by omega), if_pos hq2]
    rfl

theorem goesOn (s : State) (h : s.boot = State.reset.boot) : ¬ recovering s := by
  unfold recovering; rw [h]; decide

theorem witness_PowerThrottling : 4801 < 2 ^ 16 ∧ 65535 < 2 ^ 16 := by decide

/-- A page table of one page of 1 GiB in the capacity tier at 2^40, and agents of a fault that wait for it. -/
def waits (starved : Bool) : PendingFault := { token := 9, root := 0, queue := 0, va := 64, migrate := true, starved := starved }
def capTables (pin : Bool) (s : State) : State :=
  { s with mem := putBytes [(0, 0x01), (2, 0x10)] 0x100000 (leBytes 8 (2 ^ 40 + 0x41F + if pin then 0x200 else 0)),
           boot := { s.boot with bootstat := 0x1000FFFF } }
def waitState (starved : Bool) (frames : List (Nat × Nat)) : State :=
  (capTables false { st tr with rm := { (st tr).rm with faults := [waits starved] } }).updDie 1 fun d => { d with frames := frames }

theorem witness_PagingEvents :
    (∀ x ∈ [([(2 ^ 38 + 2 ^ 30, 2 ^ 30)], some (1, 2 ^ 38 + 2 ^ 30)), ([], (none : Option (Nat × Nat)))], ∀ starved,
      let s := waitState starved x.1
      s.rm.faults.find? (fun f => f.token == 9 && f.migrate) = some (waits starved) ∧
      s.leaf? 0 64 = some (0x100000, BitVec.ofNat 64 (2 ^ 40 + 0x41F), 2 ^ 30) ∧
      (∀ p, x.2 = some p → s.moveWaits (2 ^ 40) p.2 (2 ^ 30) = false) ∧ s.freeFrame? 0 (2 ^ 30) = x.2) ∧
    (entryCAP (BitVec.ofNat 64 (2 ^ 40 + 0x41F)) = true ∧ entryPIN (BitVec.ofNat 64 (2 ^ 40 + 0x41F)) = false ∧
      entryFrame (BitVec.ofNat 64 (2 ^ 40 + 0x41F)) = 2 ^ 40) ∧
    (let s := tables { st tr with boot := { State.reset.boot with bootstat := 0x1000FFFF } }
     s.leaf? 0 64 = some (0x1000, 0x1F, 2 ^ 30) ∧ s.window? (entryFrame 0x1F) = some (.hbm, 0) ∧ s.window? (2 ^ 40) = some (.lpddr, 0) ∧
     s.window? (2 ^ 40 + 2 ^ 30 - 1) = some (.lpddr, 0) ∧ entryCMP 0x1F = false ∧ s.recovery = false ∧
     2 ^ 40 % 2 ^ 30 = 0 ∧ s.moveWaits (entryFrame 0x1F) (2 ^ 40) (2 ^ 30) = false) ∧
    (∀ pin, let s := (capTables pin (st tr)).updDie 0 fun d => { d with hot := [(0, 0, 64)], hpthresh := 64, frames := [(2 ^ 30, 2 ^ 30)] }
      let e := BitVec.ofNat 64 (2 ^ 40 + 0x41F + if pin then 0x200 else 0)
      (s.die 0).hot = [(0, 0, 64)] ∧ (s.die 0).hpthresh.toNat % 2 ^ 16 ≠ 0 ∧ (s.die 0).hpthresh.toNat % 2 ^ 16 ≤ 64 ∧
      s.leaf? 0 0 = some (0x100000, e, 2 ^ 30) ∧ entryPIN e = pin ∧ s.window? (entryFrame e) = some (.lpddr, 0) ∧
      s.moveWaits (entryFrame e) (2 ^ 30) (2 ^ 30) = false ∧ s.freeFrame? 0 (2 ^ 30) = some (0, 2 ^ 30)) ∧
    (let s := capTables false (st tr)
     let e := BitVec.ofNat 64 (2 ^ 40 + 0x41F)
     PlainMemory s 0x100000 ∧ 2 ^ 38 % 2 ^ 16 = 0 ∧ NoByteCommon (2 ^ 38) (2 ^ 30) (entryFrame e) (2 ^ 30) ∧
     NoByteCommon 0x100000 8 (2 ^ 38) (2 ^ 30) ∧ NoByteCommon 0x100000 8 (entryFrame e) (2 ^ 30) ∧ s.leaf? 0 64 = some (0x100000, e, 2 ^ 30)) := by
  refine ⟨?_, ⟨?_, ?_, ?_⟩, ⟨?_, ?_, ?_, ?_, ?_, ?_, ?_, ?_⟩, ?_,
    ⟨?_, ?_, ?_, fun x hx => absurd hx (List.not_mem_nil), fun x hx => absurd hx (List.not_mem_nil), ?_, ?_, ?_⟩, ?_, .inl ?_, .inl ?_, .inl ?_, ?_⟩
  · intro x hx b
    simp only [List.mem_cons, List.not_mem_nil, or_false] at hx
    rcases hx with rfl | rfl <;> cases b
    · exact ⟨by decide +kernel, by decide +kernel, fun p hp => Option.some.inj hp ▸ by decide +kernel, by decide +kernel⟩
    · exact ⟨by decide +kernel, by decide +kernel, fun p hp => Option.some.inj hp ▸ by decide +kernel, by decide +kernel⟩
    · exact ⟨by decide +kernel, by decide +kernel, fun p hp => by simp at hp, by decide +kernel⟩
    · exact ⟨by decide +kernel, by decide +kernel, fun p hp => by simp at hp, by decide +kernel⟩
  rotate_left 11
  · intro b
    cases b <;> refine ⟨?_, ?_, ?_, ?_, ?_, ?_, ?_, ?_⟩ <;> decide +kernel
  all_goals decide +kernel

/-! ### The Ringmaster at work -/

/-- Queue 0: 64 entries at 0x200000, one of them to take. -/
def queue0 : QueueRegs := { qbase := 0x200000, qsize := 6, qtail := 1, qhead := 0, qroot := 0, qctl := 1 }
def withQueue (s : State) : State := { s with rm := { s.rm with queues := s.rm.queues.set 0 queue0 } }

/-- A header at 0xC0000, and an entry that names it; `b` is the entry's reserved byte 0x1B. -/
def headerBytes : List Byte :=
  (((((((List.replicate 192 (0 : Byte)).set 1 0x10).set 9 0x10).set 0x10 1).set 0x16 1).set 0x4A 1).set 0x4B 1)
def offered (b : Byte) : State :=
  let s := withQueue (tables State.reset)
  { s with mem := putBytes (putBytes (putBytes s.mem 0xC0000 headerBytes) 0x200000 [0, 0, 0x0C]) 0x20001B [b] }

def entryRead (b : Byte) (r : State × List Byte) : Bool :=
  field r.2 0x1B 1 == b.toNat && allZeroIn r.2 0x1B 0x1C == (b == 0) && allZeroIn r.2 0x28 0x40 && field r.2 0x1A 1 == 0 &&
  field r.2 0 8 == 0xC0000 && field r.2 8 8 == 0
def headerRead (r : RmRead) : Bool :=
  match r with
  | .got s2 bs => (parseHeader bs).any fun h => !h.resident && h.dep0 == 0 && h.dep1 == 0 &&
    (match s2.checkWords 0 0 [(h.dep0, .r), (h.dep1, .r), (0, .r), (0, .w)] with
     | .ok _ => true
     | _ => false)
  | _ => false
def cand : Candidate := { queue := 0, index := 0, hdrVa := 0xC0000, hdr := { hdr with resident := false }, sig := 0, sigval := 0, flags := 0, eligible := true }
def withCand (s : State) : State := { s with rm := { s.rm with candidates := [cand] } }

/-- Queue 0 with its entries in host memory. -/
def hostQueue : State := { State.reset with rm := { Ringmaster.reset with queues := Ringmaster.reset.queues.set 0 { queue0 with qbase := 0x8000000000000 } } }

/-- The last entry of a queue in host memory, and one in device memory. -/
theorem witness_LaunchQueue :
    (∀ b ∈ [(0 : Byte), 5], (offered b).queueOpen 0 = true ∧ (offered b).rm.candidates = [] ∧
      entryRead b ((offered b).physRead ((offered b).entryPa 0 ((offered b).queue 0).qhead.toNat) 64) = true) ∧
    headerRead (((offered 0).physRead ((offered 0).entryPa 0 0) 64).1.rmRead 0 none 0 0xC0000 [] 24) = true ∧
    (let s := withCand (offered 0)
     s.rm.candidates.find? (·.queue == 0) = some cand ∧ ¬ recovering s ∧ s.startsHeld = false ∧ s.rm.launches.length < 64 ∧
      s.nextLaunch? = some cand ∧ cand.queue < s.rm.queues.length) ∧
    (HostEntry hostQueue 0 63 ∧ hostQueue.entryPa 0 63 = 2 ^ 51 + 64 * 63) ∧
    ((offered 0).entryPa 0 1 % 64 = 0 ∧ PlainHome (offered 0) ((offered 0).rawLoc ((offered 0).entryPa 0 1 + 0x18)) ∧
      (offered 0).allowanceLine? ((offered 0).entryPa 0 1 + 0x18) 2 = none) := by
  refine ⟨?_, ?_, ⟨?_, goesOn _ rfl, ?_, ?_, ?_, ?_⟩, ⟨⟨?_, ?_, ?_, ?_⟩, ?_⟩, ?_, plainB_home ?_, ?_⟩
  · intro b hb
    simp only [List.mem_cons, List.not_mem_nil, or_false] at hb
    rcases hb with rfl | rfl <;> refine ⟨?_, ?_, ?_⟩ <;> decide +kernel
  all_goals decide +kernel

/-- A launch of eight companies on cluster 0, the first to go; and one of priority 1 that waits with all its companies. -/
def hdrN (n prio : Nat) (resident : Bool) : Header := { hdr with exts := [1, n], prio := prio, resident := resident }
def laN (n prio : Nat) (resident : Bool) : Launch :=
  { newLaunch 9 0 0 0 0 (hdrN n prio resident) 0 0 0 with dist := if resident then [] else [⟨0, 0, n, false⟩] }
def roomy (ls : List Launch) (cs : List Company) : State :=
  { State.reset with rm := { Ringmaster.reset with launches := ls, ctxsize := 2 ^ 32 }, companies := cs, nextId := 10 }
def groupsAre (r : Option (State × List CoreMask) × State) (n : Nat) : Bool := r.1.any fun x => x.2.length == n
/-- A company that has been saved: its launch goes on and it has troupes left. -/
def savedCo : Company := { co with core := none }

def highWays (c : Company) : Company := { c with ways := 12 }

/-- An admission, one that a launch offered before leaves open, a placement, a steal, a victim of a launch that needs more cores than are free, a saving, a
return. -/
theorem witness_CompanyMoves :
    (let l := laN 8 0 false
     let s := roomy [l] []
     s.launch? l.lid = some l ∧ s.mayAdmit l 0 = true ∧ s.offerOrder.takeWhile (fun x => x.lid != l.lid) = [] ∧ l.offer? 0 = some 0 ∧
      groupsAre (s.readGroups l [] 8) 8 = true) ∧
    (let l := laN 8 0 false
     let x := { l with lid := 8, dist := [], hdr := { l.hdr with prio := 1 } }
     let s := roomy [x, l] []
     s.offerOrder.takeWhile (fun y => y.lid != l.lid) = [x] ∧ s.mayAdmit x 0 = false ∧ s.mayAdmit l 0 = true ∧ l.offer? 0 = some 0) ∧
    (let l := laN 2 1 true
     let s := roomy [l] []
     s.launch? l.lid = some l ∧ l.waiting = true ∧ [0, 1].length = l.hdr.companyCount ∧ l.started = 0 ∧ bound l.hdr [0, 1] = true ∧
      (∀ x ∈ s.rm.launches, x.waiting = true → x.hdr.prio ≤ l.hdr.prio ∧ (x.hdr.prio = l.hdr.prio → l.lid ≤ x.lid)) ∧
      groupsAre (s.readGroups l [] 8) 8 = true ∧ (s.admitAll l (List.replicate 8 0) [0, 1].zipIdx).isSome = true) ∧
    (∃ w, w ∈ (roomy [laN 8 0 false] []).freeWays 0 3) ∧
    (let l := laN 8 0 false
     (roomy [l] []).offerOrder = [l] ∧ ((roomy [l] []).stealFor l 1).isSome = true ∧ (roomy [] []).offerOrder = []) ∧
    (let l := { laN 129 1 true with hdr := { (laN 129 1 true).hdr with ways := 12 } }
     let s := roomy [{ la with hdr := { hdr with ways := 12 } }, l] [highWays co]
     s.launch? l.lid = some l ∧ s.needsRoom l = true ∧ (∀ x ∈ s.companies, ¬ (x.preempting = true ∧ x.core ≠ none)) ∧
      s.victimFor l = some (highWays co)) ∧
    (let c := { co with preempting := true }
     let s := stWith tr c la
     s.company? c.cid = some c ∧ c.core = some 0 ∧ s.allRetired c = false ∧ s.drained c = true) ∧
    (let l := { la with hdr := { hdr with resident := false } }
     let s := roomy [l] [savedCo]
     s.company? savedCo.cid = some savedCo ∧ s.launch? savedCo.lid = some l ∧ s.mayResume l savedCo 5 = true ∧ s.isOut savedCo = true ∧ l.live = true ∧
      s.offerOrder.takeWhile (fun x => x.lid != l.lid) = []) := by
  refine ⟨⟨?_, ?_, ?_, ?_, ?_⟩, ⟨?_, ?_, ?_, ?_⟩, ⟨?_, ?_, ?_, ?_, ?_, ?_, ?_, ?_⟩, ⟨0, ?_⟩, ⟨?_, ?_, ?_⟩, ⟨?_, ?_, ?_, ?_⟩, ⟨?_, ?_, ?_, ?_⟩,
    ?_, ?_, ?_, ?_, ?_, ?_⟩ <;> decide +kernel

/-- A launch whose distributors hold these ranges. -/
def ranged (d : List DistRange) : Launch := { laN 64 0 false with dist := d }
def wholeB (u : Nat) (r : DistRange) : Bool := decide (r.lo < r.hi) && r.hi % u == 0 && (r.begun || r.lo % u == 0)
theorem wholeB_ok {u : Nat} {r : DistRange} (h : wholeB u r = true) : WholeUnits u r := by
  simp only [wholeB, Bool.and_eq_true, decide_eq_true_eq, beq_iff_eq, Bool.or_eq_true] at h
  exact ⟨h.1.1, h.1.2, fun hb => by simpa [hb] using h.2⟩

/-- A sibling with two units left and one with one, alone and beside a poorer one; a cluster of another die; parts of a range that may move; a company of a launch
bound to dies; a victim, and none. -/
theorem witness_StealsAndVictims :
    (∀ p ∈ [((⟨0, 6, 8, false⟩ : DistRange), ([] : List DistRange), 2), (⟨0, 6, 8, true⟩, [], 1), (⟨0, 0, 8, false⟩, [⟨3, 8, 16, false⟩], 8)],
      let l := ranged (p.1 :: p.2.1)
      let s := roomy [l] []
      0 < l.hdr.unitC ∧ l.hdr.bindd = 0 ∧ l.ending = none ∧ l.statusDone = false ∧ s.clusterIn 1 = true ∧ WholeUnits l.hdr.unitC p.1 ∧
      p.2.1.length < 2 ∧ (∀ r ∈ p.2.1, WholeUnits l.hdr.unitC r ∧ r.cluster / 16 = 0 ∧ r.cluster ≠ 0 ∧ r.cluster ≠ 1 ∧
        notBegun l.hdr.unitC r ≤ p.2.2 ∧ 0 < r.cluster) ∧ notBegun l.hdr.unitC p.1 = p.2.2) ∧
    (let l := ranged [⟨0, 0, 8, false⟩]
     let s := roomy [l] []
     s.clusterIn 16 = true ∧ WholeUnits l.hdr.unitC ⟨0, 0, 8, false⟩ ∧ 2 ≤ notBegun l.hdr.unitC ⟨0, 0, 8, false⟩) ∧
    (∀ p ∈ [((4 : Nat), (8 : Nat)), (12, 16)], p ∈ (⟨0, 3, 16, true⟩ : DistRange).free 4 4 [2]) ∧
    (let l := { la with hdr := { hdr with bindd := 1 } }
     l.hdr.bindd ≠ 0 ∧ co ∈ (roomy [l] [co]).companies ∧ co.lid = l.lid) ∧
    (let l := ranged [⟨0, 20, 27, false⟩]
     l.hdr.bindc = 0 ∧ l.hdr.bindd = 0 ∧ (roomy [l] []).clusterIn 1 = true) ∧
    (let l := { laN 129 1 true with hdr := { (laN 129 1 true).hdr with ways := 12 } }
     (roomy [{ la with hdr := { hdr with ways := 12 } }, l] [highWays co]).victimFor l = some (highWays co) ∧ (roomy [l] []).victimFor l = none) := by
  refine ⟨fun p hp => ?_, ⟨?_, wholeB_ok ?_, ?_⟩, ?_, ⟨?_, .head _, ?_⟩, ⟨?_, ?_, ?_⟩, ?_, ?_⟩
  case refine_1 =>
    simp only [List.mem_cons, List.not_mem_nil, or_false] at hp
    rcases hp with rfl | rfl | rfl <;>
      refine ⟨by decide +kernel, by decide +kernel, by decide +kernel, by decide +kernel, by decide +kernel, wholeB_ok (by decide +kernel), by decide +kernel,
        fun r hr => ?_, by decide +kernel⟩
    · exact absurd hr (List.not_mem_nil)
    · exact absurd hr (List.not_mem_nil)
    · rw [List.mem_singleton.1 hr]
      exact ⟨wholeB_ok (by decide +kernel), by decide +kernel, by decide +kernel, by decide +kernel, by decide +kernel, by decide +kernel⟩
  all_goals decide +kernel

def doneLaunch (sig : Nat) (dist : List DistRange) : Launch :=
  { la with companiesRetired := 1, sig := sig, dist := dist, hdr := { hdr with resident := false } }
def doneState (sig : Nat) (dist : List DistRange) : State :=
  let s := withQueue (tables State.reset)
  { s with rm := { s.rm with launches := [doneLaunch sig dist] } }
def placeOk (r : RmAcc) : Bool :=
  match r with
  | .ok _ _ => true
  | _ => false
def ringed (tail : Word) (size : Word) : State :=
  { st tr with rm := { (st tr).rm with rmmsgbase := 0x10000, rmmsgsize := size, rmmsgtail := tail,
                                        messages := [{ kind := 5, queue := 0, a32 := 0, a64 := 0, vector := none }] } }

/-- A company of launch 3 that still has a bank command under way. -/
def busyCo : Company := { coWith (opAs (some 2) (.bkcmd bank1) []) with lid := 3, core := some 0 }

theorem witness_LaunchEnd :
    (let l := doneLaunch 0 []
     let s := doneState 0 []
     s.launch? l.lid = some l ∧ l.ending = none ∧ l.statusDone = false ∧ s.drainedLaunch l = true ∧ l.sig = 0) ∧
    (let l := doneLaunch 64 []
     let s := doneState 64 []
     s.launch? l.lid = some l ∧ s.drainedLaunch l = true ∧ l.sig ≠ 0 ∧
      placeOk ((s.reportStatus l).rmPlace l.queue (some l.lid) l.root l.sig .w) = true) ∧
    (let l := doneLaunch 0 [⟨0, 0, 1, false⟩]
     let s := doneState 0 [⟨0, 0, 1, false⟩]
     s.launch? l.lid = some l ∧ s.drainedLaunch l = false) ∧
    (let l := { doneLaunch 64 [] with statusDone := true }
     let s : State := { doneState 64 [] with rm := { (doneState 64 []).rm with launches := [l] } }
     s.launch? l.lid = some l ∧ l.ending = none ∧ placeOk (s.rmPlace l.queue (some l.lid) l.root l.sig .w) = true) ∧
    (∀ out, let l := { doneLaunch 64 [] with ending := some 5, tcause := 7, tpc := 64, dist := [⟨0, 0, 1, false⟩] }
     let s0 : State := { doneState 64 [] with companies := if out then [busyCo] else [] }
     let s : State := { s0 with rm := { s0.rm with launches := [l] } }
     s.launch? l.lid = some l ∧ l.ending ≠ none ∧ l.statusDone = false ∧
     ((s.windUp l.lid).launch? l.lid).any (fun l1 => l1.ending == l.ending && !l1.statusDone && (s.windUp l.lid).drainedLaunch l1 == !out) = true) ∧
    (let l := { la with ending := some 5 }
     HostEntry hostQueue l.queue l.index ∧ ∀ code, l.ending = some code → code < 2 ^ 16) ∧
    (∀ f ∈ [(0 : Byte), 1, 2, 3], let l := { la with flags := f }
      (ringed 0 4).rm.rmmsgsize ≠ 0 ∧ l.flags.getLsbD 0 = decide (f = 1 ∨ f = 3)) ∧
    (∀ p ∈ [((15 : Word), true), (16, false)], let s := ringed p.1 4
      s.rm.messages ≠ [] ∧ s.rm.rmmsgsize ≠ 0 ∧
      decide ((s.rm.rmmsgtail - s.rm.rmmsghead).toNat < 2 ^ s.rm.rmmsgsize.toNat) = p.2 ∧
      s.present (s.rm.rmmsgbase.toNat + 16 * (s.rm.rmmsgtail.toNat % 16)) 16 = true) ∧
    (ringed 0 0).rm.messages ≠ [] ∧ (ringed 0 0).rm.rmmsgsize = 0 := by
  refine ⟨⟨?_, ?_, ?_, ?_, ?_⟩, ⟨?_, ?_, ?_, ?_⟩, ⟨?_, ?_⟩, ⟨?_, ?_, ?_⟩, fun out => ?_, ⟨⟨?_, ?_, ?_, ?_⟩, fun code h => ?_⟩, ?_, ?_, ?_, ?_⟩
  rotate_left 14
  · cases out <;> refine ⟨?_, ?_, ?_, ?_⟩ <;> decide +kernel
  rotate_left 4
  · exact Option.some.inj h ▸ by decide
  rotate_left 1
  · intro p hp
    simp only [List.mem_cons, List.not_mem_nil, or_false] at hp
    rcases hp with rfl | rfl <;> refine ⟨?_, ?_, ?_, ?_⟩ <;> decide +kernel
  all_goals decide +kernel

/-! ### The host -/

def reported : PendingFault := { token := 9, root := 0, queue := 0, va := 64, migrate := false, starved := false }

theorem witness_HostWrites :
    (∀ p ∈ [((64 : DWord), false), (65, true)], let s := withQueue State.reset
      ¬ recovering s ∧ decide (2 ^ (s.queue 0).qsize.toNat < (BitVec.ofNat 32 p.1.toNat - (s.queue 0).qhead).toNat) = p.2) ∧
    (let l := { la with hdr := { hdr with resident := false } }
     let s := roomy [l] [co]
     s.companies = [co] ∧ s.queueOf co.lid = 0 ∧ s.victim co = true ∧ s.launch? co.lid = some l ∧ l.hdr.recordSize ≤ s.poolFree) ∧
    (let s : State := { st tr with rm := { (st tr).rm with faults := [{ reported with migrate := true }] } }
     ∀ f ∈ s.rm.faults, f.migrate = false → f.token % 2 ^ 32 ≠ (9 : DWord).toNat % 2 ^ 32) ∧
    ((st tr).boot.attReq = none) ∧
    (la ∈ (st tr).rm.launches ∧ la.queue = 0 ∧ la.ending = none ∧ la.statusDone = false) ∧
    (let s : State := { st tr with rm := { (st tr).rm with faults := [reported] } }
     s.rm.faults.find? (fun f => !f.migrate && f.token % 2 ^ 32 == 9 % 2 ^ 32) = some reported) ∧
    (let s : State := { st tr with rm := { (st tr).rm with shoots := [(0, 7, 0)] } }
     s.rm.shoots.find? (fun x => x.2.1 == 7) = some (0, 7, 0)) ∧
    (∀ p ∈ [((192 : DWord), true), (100, false)], let s : State := { st tr with boot := { (st tr).boot with attaddr := p.1 } }
      s.boot.attstat ≠ 1 ∧ decide (s.boot.attaddr.toNat % 192 = 0) = p.2 ∧ s.present s.boot.attaddr.toNat 384 = true) ∧
    (let s : State := { st tr with boot := { (st tr).boot with attReq := some (192, 0, []) } }
     s.boot.attReq = some (192, 0, [])) ∧
    (let s : State := { st tr with boot := { (st tr).boot with bootstat := 0x18000FFF } }
     s.boot.bootstat.getLsbD 27 = true) := by
  refine ⟨?_, ⟨?_, ?_, ?_, ?_, ?_⟩, ?_, ?_, ⟨?_, ?_, ?_, ?_⟩, ?_, ?_, ?_, ?_, ?_⟩
  · intro p hp
    simp only [List.mem_cons, List.not_mem_nil, or_false] at hp
    rcases hp with rfl | rfl <;> refine ⟨goesOn _ rfl, ?_⟩ <;> decide +kernel
  rotate_left 13
  · intro p hp
    simp only [List.mem_cons, List.not_mem_nil, or_false] at hp
    rcases hp with rfl | rfl <;> refine ⟨?_, ?_, ?_⟩ <;> decide +kernel
  all_goals decide +kernel

theorem witness_RegisterWrites :
    ¬ recovering (st tr) ∧ active (st tr) 0 ∧ ¬ active (st tr) 1 ∧ State.reset.rm.launches = [] ∧
    (let s : State := { State.reset with rm := { Ringmaster.reset with held := [(.qbase 0, 64)] } }
     s.rm.held.find? (fun x => x.1 == .qbase 0) = some (.qbase 0, 64) ∧ s.rm.launches = []) ∧
    (st tr).dieUnits.length = 4 ∧ (st tr).dieIn 3 = true ∧ (st tr).boot.record.form = .package ∧
    (let s : State := { st tr with boot := { (st tr).boot with record := { ConfigRecord.whole with form := .die } } }
     ¬ recovering s ∧ s.boot.record.form = .die ∧ s.dieIn 0 = true ∧ s.absent (.dnecc 1) = true) := by
  refine ⟨goesOn _ rfl, ⟨la, List.mem_singleton.2 rfl, rfl⟩, ?_, rfl, ⟨?_, rfl⟩, ?_, ?_, rfl, by unfold recovering; decide, rfl, ?_, ?_⟩
  · rintro ⟨l, hl, h⟩
    rw [List.mem_singleton.1 hl] at h
    exact absurd h (by decide)
  all_goals decide +kernel

theorem witness_HostMemory :
    ¬ recovering (st tr) ∧ (st tr).physHeld 64 4 = false ∧ (st tr).physHeld (2 ^ 51) 4 = false ∧
    ((st tr).updDie 0 fun d => { d with regions := [{ region with edit := some ⟨1, 0, 0, 0⟩ }] }).physHeld 0x100000 4 = true ∧
    (st tr).present 64 4 = true ∧ (st tr).present (2 ^ 38 - 1) 4 = false ∧ 2 ^ 51 ≤ 2 ^ 51 ∧ 2 ^ 51 % 192 + 4 ≤ 192 ∧ (st tr).mem.wf = true := by
  refine ⟨goesOn _ rfl, ?_, ?_, ?_, ?_, ?_, ?_, ?_, ?_⟩ <;> decide +kernel

/-- The reset state's flash; the journal that a start leaves when slot A did not verify; memory with a line that only its cache holds. -/
theorem witness_StartUp :
    (let s := State.reset
     s.boot.journal = [] ∧ s.boot.leftOut = [] ∧ s.boot.copy1.record.form = .package ∧ s.boot.copy1.record.stackSet = -1 ∧
     imageAccepted s.boot.slotA = false) ∧
    (let s : State := { State.reset with boot := { Boot.reset with journal := [⟨1, 0, 0, 1⟩] } }
     s.boot.journal = [⟨1, 0, 0, 1⟩] ∧ s.boot.leftOut = [] ∧ s.boot.copy1.record.form = .package ∧ s.boot.copy1.record.stackSet = -1) ∧
    (let s : State := { State.reset with msc := [{ line := 0, below := List.replicate 192 0, coded := none }], mem := [(5, 1)] }
     (∀ d ∈ s.dieUnits, ∀ g ∈ d.regions, g.edit = none) ∧ s.mem.wf = true ∧ ∀ x ∈ s.msc, x.below.length = 192) ∧
    (State.reset.msc = [] ∧ ConfigRecord.whole.lets 127 = true ∧ Boot.reset.measured = some ⟨⟨[], [], []⟩, .whole, []⟩) := by
  refine ⟨⟨?_, ?_, ?_, ?_, ?_⟩, ⟨?_, ?_, ?_, ?_⟩, ⟨?_, ?_, ?_⟩, ?_, ?_, ?_⟩ <;> decide +kernel

/-! ### The fabric -/

/-- Device 5, a port up, the tables at 0x40000000 as its root, the page pinned; fabric barrier 3 bound to queue 0 with n devices. -/
def peered (s : State) : State :=
  { s with mem := putBytes [(0x40000000, 0x01), (0x40000002, 0x10)] 0x100000 [0x1F, 0x02],
           fabric := { s.fabric with fxdevid := 5, fxport := 1, fxroot := 0x40000000 } }
def bindTo (n : Nat) (s : State) : State :=
  { s with fabric := { s.fabric with fxbar := s.fabric.fxbar.set 3 (BitVec.ofNat 64 (2 ^ 63 + 5 * 2 ^ 39 + n * 2 ^ 21)) } }
def awayLaunch : Launch := { la with gbars := listModify la.gbars 3 fun g => { g with away := true } }
def engReadIs (r : State × List Byte × Bool) : Bool := r.2.1 == [0] && !r.2.2
def addReq : AtomicRequest := { tva := 64, opnd := 1, cmpd := 0, rva := 0, opc := 0, reserved := 0 }

/-- A copy with this request or part outstanding since clock 0. -/
def sentOp : EngOp := { opAs (some 0) (.cpy false false false 0 4 4 none false) [] with sent := [(0, 4)] }
def outWith (msg : FabricOut) (o : EngOp) : State :=
  let s := peered (busy o)
  { s with fabric := { s.fabric with out := [{ seq := 1, since := 0, delivered := false, msg := msg }] } }
def requestOf (rva : BitVec 56) : State :=
  outWith (.atomic 9 2 7 { addReq with rva := rva }) { opAs (some 0) (.cpy false true false 0 0 32 (some (true, 9)) true) [] with sent := [(0, 32)] }
def piecesAre (n : Nat) (s : State) (r : Option (List (Nat × Loc × Nat))) : Bool :=
  match r with
  | some ps => ps.length == n && ps.all fun p => !s.sideHeld p.2.1 p.2.2
  | none => false

/-- Traffic or none; a root or none; a place for a peer, in one piece and in two; an atomic request, and one that is misaligned; operations with what they
sent, late, on time, and one clock before; barriers bound for one device and for two. -/
theorem witness_FabricEvents :
    (∀ s : State, s = State.reset → ¬ carries s) ∧
    (let s : State := { peered (st tr) with fabric := { (peered (st tr)).fabric with fxroot := 0 } }
     takes s 9 1 ∧ s.fabric.fxroot = 0) ∧
    (let s := peered (st tr)
     let l := s.loc 64 0x21F (2 ^ 30)
     let s0 := (s.countHot s.fabric.fxroot.toNat 64 64 0x21F (2 ^ 30)).settleAll
     takes s 9 1 ∧ s.peerPlace 64 true = some (64, 0x21F, 2 ^ 30) ∧ s.peerPlace 64 false = some (64, 0x21F, 2 ^ 30) ∧
     s.sideHeld l 1 = false ∧ s.sideHeld l 4 = false ∧ s.isPoisoned l 4 = false ∧
     engReadIs ((s.countHot s.fabric.fxroot.toNat 64 64 0x21F (2 ^ 30)).engRead l 1) = true ∧
     (((s0.recall l.line).recallAllowances l 4).homeRead l 4).2 = [0, 0, 0, 0] ∧
     addReq.opc.toNat < 9 ∧ addReq.tva.toNat % 4 = 0 ∧ addReq.reserved = 0 ∧ addReq.rva.toNat % 8 = 0 ∧ addReq.cmpd = 0 ∧
     piecesAre 1 s (s.peerPieces 64 4 true 5) = true ∧ piecesAre 2 s (s.peerPieces 190 4 true 5) = true) ∧
    (let s := peered (st tr)
     ({ addReq with tva := 66 } : AtomicRequest).tva.toNat % 4 ≠ 0 ∧ s.peerPlace (2 ^ 39) true = none) ∧
    (∀ p ∈ [((17500000 : DWord), true), (17499999, false)], let s : State := { outWith (.readRequest 9 2 7 0 4 4) sentOp with clock := p.1 }
     Working s (coWith sentOp) sentOp ∧ sentOp.sent ≠ [] ∧
     (s.fabric.out.any fun q => q.msg.ofOp 2 7 && decide (1750 * max 1 (s.fabric.fxtmo.toNat % 2 ^ 24) ≤ s.clock.toNat - q.since)) = p.2) ∧
    (let s := peered (busy sentOp)
     Working s (coWith sentOp) sentOp ∧ carries s ∧ 3 ∉ s.fabric.seen ∧ (0, 4) ∈ sentOp.sent ∧ 9 ≠ s.fabric.fxdevid.toNat) ∧
    (∀ rva ∈ [(0 : BitVec 56), 64], let s := requestOf rva
     s.sentRequest? 2 7 = some { addReq with rva := rva } ∧ rva.toNat % 8 = 0 ∧ s.peerPlace 64 true = some (64, 0x21F, 2 ^ 30) ∧
     (s.loc 64 0x21F (2 ^ 30)).off + 8 ≤ 192 ∧ 8 ≤ 2 ^ 30 - 64 % 2 ^ 30 ∧ s.sideHeld (s.loc 64 0x21F (2 ^ 30)) 8 = false ∧ carries s) ∧
    (∀ n ∈ [1, 2], let s := bindTo n (peered (st tr))
      let r := s.fabric.fxbar.getD 3 0
      (r.getLsbD 63 = true ∧ r.toNat / 2 ^ 21 % 2 ^ 18 = n ∧ r.toNat / 2 ^ 39 % 2 ^ 18 = s.fabric.fxdevid.toNat) ∧ s.fabric.arrivals = [] ∧
       2 ≠ s.fabric.fxdevid.toNat ∧ s.fabric.out = []) ∧
    (let s := bindTo 2 (peered (stWith tr co awayLaunch))
     let s : State := { s with fabric := { s.fabric with fxdevid := 6 } }
     s.rm.launches = [awayLaunch] ∧ s.fabric.out = [] ∧ carries s ∧
      (s.fabric.fxbar.getD 3 0).toNat / 2 ^ 39 % 2 ^ 18 ≠ s.fabric.fxdevid.toNat ∧ (awayLaunch.gbars.getD 3 ⟨0, false, false⟩).away = true ∧
      0 = (if (awayLaunch.gbars.getD 3 ⟨0, false, false⟩).phase then 1 else 0) ∧ s.fabricBarrier? awayLaunch.queue 3 ≠ none) ∧
    (let s := outWith (.readRequest 9 2 7 0 4 4) sentOp
     ∀ p ∈ s.fabric.out, p.seq ≠ 2) ∧
    (∀ p ∈ [((17500000 : DWord), FabricOut.arrival 6 3 0 2, true), (17499999, .arrival 6 3 0 2, false), (17500000, .readRequest 9 2 7 0 4 4, false)],
     let s : State := { outWith p.2.1 sentOp with clock := p.1 }
     let x : FabricSent := { seq := 1, since := 0, delivered := false, msg := p.2.1 }
     x ∈ s.fabric.out ∧ x.seq = 1 ∧ x.delivered = false ∧ (∀ q ∈ s.fabric.out, q.seq = 1 → q = x) ∧
     s.overdueBarriers.contains x = p.2.2 ∧ 6 ≠ s.fabric.fxdevid.toNat) ∧
    (State.reset.boot.bootstat.getLsbD 24 = false ∧ ¬ recovering State.reset) := by
  refine ⟨?_, ⟨⟨⟨?_, ?_⟩, ?_⟩, ?_⟩, ⟨⟨⟨?_, ?_⟩, ?_⟩, ?_, ?_, ?_, ?_, ?_, ?_, ?_, ?_, ?_, ?_, ?_, ?_, ?_, ?_⟩, ⟨?_, ?_⟩, fun p hp => ?_,
    ⟨⟨?_, ?_, ?_, ?_⟩, ⟨?_, ?_⟩, ?_, ?_, ?_⟩, fun p hp => ?_, fun p hp => ?_, ⟨?_, ?_, ⟨?_, ?_⟩, ?_, ?_, ?_, ?_⟩, ?_, fun p hp => ?_, ?_, goesOn _ rfl⟩
  · rintro s rfl ⟨-, h⟩
    exact h rfl
  all_goals first
    | decide +kernel
    | (simp only [List.mem_cons, List.not_mem_nil, or_false] at hp
       rcases hp with rfl | rfl | rfl <;> refine ⟨.head _, rfl, rfl, fun q hq _ => List.mem_singleton.1 hq, ?_, ?_⟩ <;> decide +kernel)
    | (simp only [List.mem_cons, List.not_mem_nil, or_false] at hp
       rcases hp with rfl | rfl <;> first
        | (refine ⟨⟨?_, ?_, ?_, ?_⟩, ?_, ?_⟩ <;> decide +kernel)
        | (refine ⟨?_, ?_, ?_, ?_, ?_, ?_, ⟨?_, ?_⟩⟩ <;> decide +kernel)
        | (refine ⟨⟨?_, ?_, ?_⟩, ?_, ?_, ?_⟩ <;> decide +kernel))

/-- Company 2 on core 127 of cluster 63. -/
theorem witness_ClusterReset :
    let s := stWith tr { co with core := some 127 } la
    63 < 64 ∧ s.clusters.length = 64 ∧ (∀ c ∈ s.companies, c.gangs = []) ∧ s.launch? co.lid = some la ∧ la.ending = none ∧ la.statusDone = false := by
  refine ⟨?_, ?_, ?_, ?_, ?_, ?_⟩ <;> decide +kernel

theorem witness_EventsGo : Instr.isEvent (.actSelect 0 0) = true := rfl

/-! ## How an instruction starts -/

/-- Fields that suit one form or another. -/
def candidates : List Fields :=
  [fl 2 2 4, fl 2 2 123, fl 0 2 4, fl 0 2 123, fl 0 123 123, fl 2 123 123, fl 61 2 4, fl 62 2 4, fi 0 121 123 0,
   fx 2 2 4 6 0 0, fx 2 2 4 123 0 0, fx 2 2 123 123 0 0, fx 2 123 123 123 0 0, fx 0 2 123 123 0 0, fx 0 123 123 123 0 0, fx 0 2 4 123 0 0]
  ++ [fx 61 2 123 123 0 1, fx 2 123 2 123 0 0, fx 0 2 2 123 0 0, fx 2 2 123 123 0 0x10, fx 30 123 123 123 16 0, fx 32 123 123 123 40 0,
   fx 2 4 6 9 0 0, fx 30 20 6 123 8 0, fx 0 2 123 123 8 0, fx 2 2 123 123 4 0, fx 0 2 4 123 4 0, fx 2 2 4 6 4 0, fx 2 123 123 123 4 0]
  ++ [fx 1 2 123 123 0 0x001, fx 1 2 123 123 0 0x3030, fx 1 2 3 123 0 0x003, fx 0 2 123 123 0 7, fx 0 2 123 7 0 1, fx 0 123 123 123 0 5,
   fx 0 6 123 123 4 0x1000]

theorem every_form_issues : (forms.all fun p => candidates.any fun f => ok p.1 (p.2.1 f) f (st tr) tr) = true := by decide +kernel

/-- Every form issues on some fields. -/
theorem witness_forms : ∀ p ∈ forms, ∃ f, Issues p.1 (p.2.1 f) f (st tr) tr := by
  intro p hp
  obtain ⟨f, -, h⟩ := List.any_eq_true.1 (List.all_eq_true.1 every_form_issues p hp)
  exact ⟨f, ok_issues h⟩

/-- A shape whose instruction traps, and one whose waits: R44's X.imm, an odd pair, an empty latch, and a result in flight. -/
theorem witness_IllegalFormsTrap :
    decodeTrap false lane2 (fx 1 2 3 123 0 1) tr = some 1 ∧ decodeTrap true scalarPair2 (fl 62 1 0) tr = some 2 ∧
    decodeTrap false lane1 (fl 1 124 123) tr = some 3 ∧
    (let t := flying (opOf (.loadG false) true (req95 64 0))
     (st t).current = some t ∧ decodeTrap false lane1 (fl 1 15 123) t = none ∧ (st t).interlock? t false lane1 (fl 1 15 123) ≠ none ∧
      decodeTrap false (xchgShape (fx 3 15 123 123 20 0)) (fx 3 15 123 123 20 0) t = none ∧
      (st t).interlock? t false (xchgShape (fx 3 15 123 123 20 0)) (fx 3 15 123 123 20 0) ≠ none) ∧
    decodeTrap false (xchgShape (fx 3 3 123 123 20 0x40000)) (fx 3 3 123 123 20 0x40000) tr ≠ none := by
  refine ⟨?_, ?_, ?_, ⟨?_, ?_, ?_, ?_, ?_⟩, ?_⟩ <;> decide +kernel

/-- For every plain form: a bit of X.imm that it does not use, the unused source not 123, and an accepted instruction; the limits of D and of
the sources of each kind; act-closing instructions with E = 0. -/
theorem witness_OperandForms :
    (∀ p ∈ plainForms, ∃ f : Fields, unusedBit p.1 f) ∧
    (∀ p ∈ plainForms, ∃ f : Fields, ¬ unusedBit p.1 f ∧ badCode p.1 tr.v.length f) ∧
    (∀ p ∈ plainForms, ∃ f : Fields, decodeTrap p.1.uniform p.2 f tr = none) ∧
    (decodeTrap false lane2 (fl 15 15 0) tr = none ∧ decodeTrap false lane2 (fl 16 15 0) tr = some 2 ∧ decodeTrap false lane2 (fl 15 16 0) tr = some 2 ∧
     decodeTrap false pair2 (fl 14 14 0) tr = none ∧ decodeTrap false pair2 (fl 15 14 0) tr = some 2 ∧
     decodeTrap true scalar2 (fl 63 63 0) tr = none ∧ decodeTrap true scalar2 (fl 64 63 0) tr = some 2 ∧
     decodeTrap true scalarPair2 (fl 62 62 0) tr = none ∧ decodeTrap true scalarPair2 (fl 63 62 0) tr = some 2 ∧
     decodeTrap false lane2 (fx 1 120 121 123 5 0) tr = some 2 ∧ decodeTrap false lane3 (fx 1 120 121 0 5 9) tr = none) ∧
    (uniformOf .no true).closing = true ∧
    (let t := { tr with pos := (tr.pos.advance false (.lane [5])).advance true (.uni 6) }
     t.pos.laneLatch.getD 0 none = some [5] ∧ t.pos.uniLatch.getD 0 none = some 6) := by
  refine ⟨?_, ?_, ?_, ⟨?_, ?_, ?_, ?_, ?_, ?_, ?_, ?_, ?_, ?_, ?_⟩, ?_, ?_, ?_⟩
  · intro p hp
    refine ⟨fx 0 123 123 123 1 0, _, _, _, rfl, .inl ⟨by decide, ?_⟩⟩
    simp only [plainForms, List.mem_cons, List.not_mem_nil, or_false] at hp
    rcases hp with rfl | rfl | rfl | rfl | rfl | rfl | rfl | rfl | rfl <;> decide
  · intro p hp
    refine ⟨⟨true, true, 1, 123, 123, .none⟩, ?_, .inr (.inr (.inr (by simp)))⟩
    rintro ⟨_, _, _, h, -⟩
    exact absurd h (by simp)
  · intro p hp
    have h : (plainForms.all fun p => candidates.any fun f => decodeTrap p.1.uniform p.2 f tr == none) = true := by decide +kernel
    obtain ⟨f, -, h⟩ := List.any_eq_true.1 (List.all_eq_true.1 h p hp)
    exact ⟨f, by simpa using h⟩
  all_goals decide +kernel

/-! ## Fetch, encodings, memory -/

/-- One instruction at the pc of a running troupe. -/
def placed (i : Instr) : State :=
  let ws := encode i
  State.reset.withFetchWord (32 * ws.length) (ws.zipIdx.foldl (fun n x => n + x.1.toNat * 2 ^ (32 * x.2)) 0)
def placedTroupe (i : Instr) : Troupe := (placed i).troupes.headD tr
def nopI : Instr := .nop ⟨false, false, 0, 123, 123, .none⟩
def bfiI : Instr := .bfi (fx 1 2 3 4 0 32)

/-- What a turn of quarter 0 of core 0 starts from. -/
def turned (s : State) : State := { ticked s with clock := s.clock + 1, focus := focusAfter 0 0, turn := s.turn + 1 }
def fetchIs (r : State × Except Tr Word) (w : Word) : Bool :=
  match r.2 with
  | .ok x => x == w
  | .error _ => false
def deniedIs (r : State × Except Tr Word) : Bool :=
  match r.2 with
  | .error .denied => true
  | _ => false

/-- A fetch micro-TLB with one page of this entry, and line 0 of die 1's memory in die 0's RDC. -/
def fetches (e : DWord) : State :=
  let s := (st tr).updCore 0 fun c => { c with ftlb := [{ root := 0, vbase := 0, size := 2 ^ 30, entry := e }] }
  s.updDie 0 fun d => { d with rdc := [{ line := (2 ^ 38 + 64) / 192, data := List.replicate 192 7 }] }

/-- Where a fetch goes: 0 its own die, 1 host memory, 2 a copy in the RDC; 3 nowhere. -/
def fetchPlace (r : State × Tr) : Nat :=
  match r.2 with
  | .ok pa e psize =>
    let l := r.1.loc pa e psize
    if !(!entryCMP e && (r.1.ownedCopy (pa / 192)).isNone && (r.1.l2Get (pa / 192)).isNone && decide (pa % 192 + 4 ≤ 192)) then 9
    else if l.host then 1
    else if l.die == 0 && (r.1.l2Victim? l).isNone then 0
    else if ((r.1.die 0).rdc.find? (·.line == l.line)).isSome then 2 else 9
  | _ => 3

theorem witness_StepRunsDecoded :
    (∀ i ∈ [nopI, bfiI], let s := placed i
      let t := placedTroupe i
      s.agenda = [] ∧ s.turn % 2 = 0 ∧ (ticked s).nextQuarter? = some (0, 0) ∧
      (((turned s).core 0).quarters.getD 0 Quarter.reset).running = some t.uid ∧ (turned s).troupe? t.uid = some t ∧ t.exited ≠ -1 ∧ t.stack = [] ∧
      fetchIs (((turned s).setTroupe t).fetchWord t (t.pc.toNat % 2 ^ 56)) ((encode i).headD 0) = true) ∧
    wordLength ((encode nopI).headD 0) = 4 ∧ wordLength ((encode bfiI).headD 0) = 8 ∧
    decode (encode nopI) = .ok (nopI, []) ∧ decode (encode bfiI) = .ok (bfiI, []) ∧
    (let s := placed bfiI
     let t := placedTroupe bfiI
     fetchIs ((((turned s).setTroupe t).fetchWord t (t.pc.toNat % 2 ^ 56)).1.fetchWord t ((t.pc.toNat % 2 ^ 56 + 4) % 2 ^ 56)) ((encode bfiI).getD 1 0) = true) ∧
    (let s := (placed nopI).updCore 0 fun c => { c with ftlb := [{ root := (placed nopI).rootOf (placedTroupe nopI).lid, vbase := 0, size := 2 ^ 30, entry := 0xF }] }
     deniedIs (((turned s).setTroupe (placedTroupe nopI)).fetchWord (placedTroupe nopI) ((placedTroupe nopI).pc.toNat % 2 ^ 56)) = true) ∧
    (∃ rest, ({ placed nopI with agenda := [.issue 0 0, .tick 1] } : State).agenda = .issue 0 0 :: rest) ∧
    (({ placed nopI with cores := List.replicate 128 Core.reset } : State).core 0).quarters.getD 0 Quarter.reset = Quarter.reset ∧
    (∀ p ∈ [((0x1F : DWord), 0), (0x800000000001F, 1), (0x400000001F, 2), (0x0F, 3)],
      fetchPlace ((fetches p.1).translate .fetch 0 ((fetches p.1).rootOf tr.lid) 64 .x) = p.2) := by
  refine ⟨?_, ?_, ?_, ?_, ?_, ?_, ?_, ⟨_, rfl⟩, ?_, ?_⟩
  · intro i hi
    simp only [List.mem_cons, List.not_mem_nil, or_false] at hi
    rcases hi with rfl | rfl <;> refine ⟨?_, ?_, ?_, ?_, ?_, ?_, ?_, ?_⟩ <;> decide +kernel
  all_goals decide +kernel

/-- Well-formed instructions of one and of two words; words that decode; and any state that has the canonical form steps to one. -/
theorem witness_DecodeOfEncode : (∀ p ∈ wordsWritten, p.2.wf = true ∧ encode p.2 ≠ []) ∧ nopI.wf = true := by decide +kernel

theorem witness_StepsKeepCanonicalForm : Canonical State.reset ∧ Canonical (placed nopI) := by
  refine ⟨⟨by decide +kernel, ?_⟩, ⟨by decide +kernel, ?_⟩⟩ <;> decide +kernel

/-! ## Ill-formed terms, one for each check -/

theorem test_wf_extension : (Instr.iadd ⟨false, false, 1, 2, 3, .x1 0⟩).wf = false ∧ (Instr.iadd ⟨false, false, 1, 2, 121, .none⟩).wf = false ∧
    (Instr.imad ⟨false, false, 1, 2, 3, .none⟩).wf = false ∧ (Instr.sadd (fl 1 2 121)).wf = false := by decide
theorem test_wf_unassigned : (Instr.unassignedOpcode 0).wf = false := by decide
theorem test_wf_cores : (Instr.actSelect 128 0).wf = false ∧ (Instr.actSelect 0 4).wf = false ∧ (Instr.trackerRelease 128 1).wf = false ∧
    (Instr.busWindowExpiry 128).wf = false ∧ (Instr.busPairSplit 64).wf = false ∧ (Instr.allResidentPlace 1 [128]).wf = false ∧
    (Instr.companyAdmit 128 1).wf = false ∧ (Instr.companyResume 1 128).wf = false := by decide
theorem test_wf_clusters : (Instr.rangeStealing 64).wf = false ∧ (Instr.clusterReset 64 .hung).wf = false := by decide
theorem test_wf_dies : (Instr.rdcInvalidation 4 0).wf = false ∧ (Instr.backgroundRepair 4 0 0).wf = false ∧ (Instr.editInterrupt 4 0).wf = false ∧
    (Instr.pageMigration 0 4).wf = false ∧ (Instr.hotPagePromotion 4).wf = false ∧ (Instr.correctedError 4 .core).wf = false ∧
    (Instr.straitRetirement 4).wf = false ∧ (Instr.l2Eviction 0 4).wf = false := by decide
theorem test_wf_bank : (Instr.bankCommandRun 4 0 0).wf = false ∧ (Instr.bankCommandRun 0 3 0).wf = false ∧ (Instr.bankCommandRun 0 0 64).wf = false ∧
    (Instr.bankWatchdog 4 0 0).wf = false ∧ (Instr.bankWatchdog 0 3 0).wf = false ∧ (Instr.bankWatchdog 0 0 64).wf = false := by decide
theorem test_wf_lanes_timelines : (Instr.bcMissRequest 1 0 96).wf = false ∧ (Instr.engineComplete 1 6).wf = false := by decide
theorem test_wf_queues : (Instr.entryCheck 64).wf = false ∧ (Instr.dependencePoll 64).wf = false ∧ (Instr.qtailWrite 64 0).wf = false ∧
    (Instr.abort 64).wf = false ∧ (Instr.preempt 64).wf = false := by decide
theorem test_wf_fabric : (Instr.fabricBarrierArrival 0 16 0 1).wf = false ∧ (Instr.fabricBarrierRelease 16 0).wf = false ∧
    (Instr.portDown 18).wf = false ∧ (Instr.portUp 18).wf = false := by decide

/-! ## Results of single steps, from the spec's own examples -/

/-- What a test reads of the troupe after an instruction; the default where there is none. -/
def after {α : Type} (i : Instr) (s : State) (g : Troupe → α) (d : α) : α :=
  match exec i s with
  | .next s' => match s'.troupe? 1 with
    | some t => g t
    | none => d
  | _ => d

/-- Every lane of v(r) holding x. -/
def vr (r : Nat) (x : Word) (t : Troupe) : Troupe := { t with v := t.v.set r (List.replicate 96 x) }

/-- A lane addition wraps, in lane 95 too; its own source may be its destination (R97). -/
theorem test_iadd_wraps : after (.iadd (fl 2 2 2)) (st (vr 2 0x80000001 tr)) (fun t => (t.lane32 (fl 0 2 2) 2 95, t.ul)) (0, 9) = (2, 0) := by
  decide +kernel

/-- The worked value of R17 and R110: CVTPK.bf16.f32.sr of 0x3F808000 twice gives 0x3F813F80 in lane 0, NX, and advances srctr. -/
theorem test_cvtpk_sr : after (.cvtpk (fx 6 1 2 123 0 0x401)) (st (vr 1 0x3F808000 (vr 2 0x3F808000 tr)))
    (fun t => (rowGet (t.vrow 6) 0, t.fflags, t.srctr)) (0, 0, 0) = (0x3F813F80, 0x10, 1) := by decide +kernel

/-- The table of R117: lanes 0 to 47 active, v2 = 1, v6 = 7, every lane a member. -/
def halved : Troupe := sr 40 (-1) (sr 41 (-1) (sr 42 (-1) (vr 2 1 (vr 6 7 { tr with act := BitVec.ofNat 96 (2 ^ 48 - 1) }))))
theorem test_pollEvery : after (.pollEvery (fx 30 2 123 123 40 0)) (st halved) (fun t => t.sreg 30) 9 = 0 := by decide +kernel
theorem test_pollSome : after (.pollSome (fx 31 2 123 123 40 0)) (st halved) (fun t => t.sreg 31) 9 = 48 := by decide +kernel
theorem test_pollMap : after (.pollMap (fx 32 2 123 123 40 0)) (st halved) (fun t => (t.sreg 32, t.sreg 33, t.sreg 34)) (9, 9, 9) =
    (0xFFFFFFFF, 0x0000FFFF, 0) := by decide +kernel
theorem test_lgetAt : after (.lgetAt (fx 4 6 121 123 40 50)) (st halved) (fun t => (rowGet (t.vrow 4) 47, rowGet (t.vrow 4) 48)) (9, 9) = (7, 0) := by
  decide +kernel

/-- An all-absent FP add gives -0.0; an integer sum of 48 ones wraps nothing (R31, R118). -/
theorem test_redf_identity : after (.redf (fx 5 2 123 123 0 0)) (st { tr with act := 0 }) (fun t => t.sreg 5) 9 = 0x80000000 := by decide +kernel
theorem test_redi_add : after (.redi (fx 5 2 123 123 0 0)) (st halved) (fun t => t.sreg 5) 9 = 48 := by decide +kernel

/-- The BRD of R57's example: `then` 8 words on, `join` 200 words on (D = 1, C = 72); lanes 0 to 47 taken (R125). -/
theorem test_brd : after (.brd (fx 1 12 123 72 0 8)) (st (sr 12 (-1) (sr 13 0xFFFF tr)))
    (fun t => (t.pc - tr.pc, t.act, t.stack.map fun e => (e.rpc - tr.pc, e.ft - tr.pc, e.nt))) (0, 0, []) =
    (32, BitVec.ofNat 96 (2 ^ 48 - 1), [(800, 8, BitVec.ofNat 96 (2 ^ 96 - 2 ^ 48))]) := by decide +kernel

/-- TRAP saves its number, its pc and the state of the act, and goes on at the handler (R92, R129). -/
theorem test_trap : after (.trap (fi 0 121 123 7)) (st { tr with act := 5 })
    (fun t => (t.tcause, t.tpc == tr.pc, t.pc == hdr.handler, t.trap, t.act, t.saved.map (·.act))) (0, false, false, false, 0, none) =
    (0x80000007, true, true, true, 5, some 5) := by decide +kernel

/-- An odd pair code traps ILLEGAL-OPERAND and writes nothing (R36, R88). -/
theorem test_iadd64_odd_pair : after (.iadd64 (fl 2 3 4)) (st (vr 4 1 tr)) (fun t => (t.tcause, rowGet (t.vrow 2) 0)) (0, 9) = (2, 0) := by
  decide +kernel

/-- The example of RGRP: 40 lanes of troupe 0 and lanes 10 to 39 of troupe 1 come to 70 lanes of troupe 0 (R184). -/
def forty : Troupe := { tr with act := BitVec.ofNat 96 (2 ^ 40 - 1), park := .rgrp, v := [List.replicate 96 1] }
def thirty : Troupe := { tr2 with act := BitVec.ofNat 96 (2 ^ 40 - 2 ^ 10), park := .rgrp, v := [(List.range 96).map fun i => BitVec.ofNat 32 (100 + i)] }
def regrouped {α : Type} (uid : Nat) (g : Troupe → α) (d : α) : α :=
  match ((st2 forty thirty la2).regroupTest 2).troupe? uid with
  | some t => g t
  | none => d
theorem test_rgrp : regrouped 1 (fun t => (t.act, rowGet (t.vrow 0) 39, rowGet (t.vrow 0) 40, rowGet (t.vrow 0) 69)) (0, 0, 0, 0) =
    (BitVec.ofNat 96 (2 ^ 70 - 1), 1, 110, 139) ∧ regrouped 5 (·.act) 1 = 0 := by decide +kernel

/-- The scans of R317's table, over 3.0, NaN, 7.0, 7.0, -1.0 and 5.0. -/
def scanned (op : Nat) (thr : Word) (k : Nat) : List Nat :=
  scanSelect { scan1 with ef := 1, op := op, thr := thr, k := k, n := 6, m := 4 } [0x40400000, 0x7FC00000, 0x40E00000, 0x40E00000, 0xBF800000, 0x40A00000]
theorem test_scan : scanned 0 0x40800000 0 = [2, 3, 5] ∧ scanned 5 0x40E00000 0 = [0, 1, 4, 5] ∧ scanned 6 0 2 = [2, 3] := by decide +kernel

/-- The worked block of R26 to R28: acc = 385.000732421875. -/
def e4m3Row (scale : Nat) : EngRow :=
  ⟨(0x58 :: List.replicate 127 1).map fun c => decodeElem 3 c, [scale]⟩
theorem test_worked_block : (accum .fp8 128 0x3F800000 (e4m3Row 0x3F000000) (e4m3Row 0x40400000)).code = 0x43C08018 := by decide +kernel

/-- The first step of a program: the word of `IADD v3, v1, v2` at the pc runs, and the pc moves on by 4. -/
theorem test_step_iadd :
    (match step (State.reset.withFetchWord 32 0x0000C082) with
     | .next s => s.troupes.map fun t => (t.pc == placeLaunchHeader.entry + 4, rowGet (t.vrow 3) 95)
     | _ => []) = [(true, 0)] := by decide +kernel

/-- The base point of RFC 8032 is on the curve (R356). -/
theorem test_ed448_base : edBase.onCurve = true := by decide +kernel

end Sys2Proof.Tests
end

section
/-!
SUPPORT. What an operation of the memory system leaves: everything but the memory side, the caches, the lines of the L1s
with the allowances, the parks of the troupes that a monitor wakes, and what the dies count of it.
-/
namespace Sys2Proof.Machine

/-- A troupe but for its park, which a write that meets its monitor changes (R258). -/
def Troupe.unparked (t : Troupe) : Troupe := { t with park := .run }

/-- A core but for its L1 and its allowances on counter lines. -/
def Core.besideL1 (c : Core) : Core := { c with l1 := [], allowances := [] }

/-- A die but for its RDC, its monitors, the repairs under way in its regions, and its counts of accesses. -/
def Die.besideCaches (d : Die) : Die :=
  { d with rdc := [], monitors := [], regions := d.regions.map fun g => { g with repairing := none },
           dnbcrecall := 0, bkdirign := 0, cmpmispred := 0 }

/-- A state but for what operations of the memory system may change. -/
def State.besideMemory (s : State) : State :=
  { s with
    mem := [], msc := [], poison := [], coded := [], l2 := [], invals := [], freeCtr := 0
    troupes := s.troupes.map Troupe.unparked
    cores := s.cores.map Core.besideL1
    dieUnits := s.dieUnits.map Die.besideCaches }

theorem map_listModify {α β : Type} {f : α → β} {g : α → α} (h : ∀ x, f (g x) = f x) :
    ∀ (xs : List α) (i : Nat), (listModify xs i g).map f = xs.map f
  | [], _ => rfl
  | x :: xs, 0 => by simp [listModify, h]
  | x :: xs, i + 1 => by simp [listModify, map_listModify h xs i]

theorem foldl_besideMemory {α : Type} {f : State → α → State} (h : ∀ s x, (f s x).besideMemory = s.besideMemory) :
    ∀ (xs : List α) (s : State), (xs.foldl f s).besideMemory = s.besideMemory
  | [], _ => rfl
  | x :: xs, s => (foldl_besideMemory h xs (f s x)).trans (h s x)

theorem updDie_besideMemory (s : State) (d : Nat) {g : Die → Die} (h : ∀ x, (g x).besideCaches = x.besideCaches) :
    (s.updDie d g).besideMemory = s.besideMemory := by
  simp [State.besideMemory, State.updDie, map_listModify h]

theorem updCore_besideMemory (s : State) (c : Nat) {g : Core → Core} (h : ∀ x, (g x).besideL1 = x.besideL1) :
    (s.updCore c g).besideMemory = s.besideMemory := by
  simp [State.besideMemory, State.updCore, map_listModify h]

/-! ## The memory side -/

@[simp] theorem sideDirty_besideMemory (s : State) (pa n : Nat) : (s.sideDirty pa n).besideMemory = s.besideMemory :=
  foldl_besideMemory (fun s i => by dsimp only; split <;> rfl) _ s

@[simp] theorem dramPut_besideMemory (s : State) (pa : Nat) (bs : List Byte) :
    (s.dramPut pa bs).besideMemory = s.besideMemory := rfl

@[simp] theorem sidePut_besideMemory (s : State) (pa : Nat) (bs : List Byte) :
    (s.sidePut pa bs).besideMemory = s.besideMemory := by
  rw [← sideDirty_besideMemory s pa bs.length]
  simp [State.sidePut, State.besideMemory, Function.comp_def, Die.besideCaches]

@[simp] theorem dirPut_besideMemory (s : State) (g : Region) (off n v : Nat) :
    (s.dirPut g off n v).besideMemory = s.besideMemory :=
  foldl_besideMemory (fun s _ => sidePut_besideMemory s _ _) _ s

@[simp] theorem markBlock_besideMemory (s : State) (g : Region) (b : Nat) :
    (s.markBlock g b).besideMemory = s.besideMemory := by
  simp only [State.markBlock, dirPut_besideMemory]
  refine updDie_besideMemory s _ fun d => ?_
  simp only [Die.besideCaches, List.map_map, Die.mk.injEq, true_and, and_true]
  exact List.map_congr_left fun g' _ => by simp only [Function.comp_apply]; split <;> rfl

@[simp] theorem markWrite_besideMemory (s : State) (die pa n : Nat) :
    (s.markWrite die pa n).besideMemory = s.besideMemory :=
  foldl_besideMemory (fun s g => foldl_besideMemory (fun s b => markBlock_besideMemory s g b) _ s) _ s

@[simp] theorem codedPut_besideMemory (s : State) (slot0 psize : Nat) (data : List Byte) :
    (s.codedPut slot0 psize data).besideMemory = s.besideMemory := by
  simp only [State.codedPut, dramPut_besideMemory, sidePut_besideMemory]
  split <;> rfl

@[simp] theorem sideClean_besideMemory (s : State) (keep : SideLine → Bool) :
    (s.sideClean keep).besideMemory = s.besideMemory :=
  foldl_besideMemory (fun s x => by split <;> simp) _ _

@[simp] theorem sideRoom_besideMemory (s : State) (line : Nat) : (s.sideRoom line).besideMemory = s.besideMemory := by
  unfold State.sideRoom
  split
  · rfl
  · dsimp only
    split
    · split <;> simp
    · rfl

@[simp] theorem poisonBelow_besideMemory (s : State) (l : Loc) (n : Nat) (bad : List Nat) :
    (s.poisonBelow l n bad).besideMemory = s.besideMemory := rfl

@[simp] theorem l2Put_besideMemory (s : State) (x : L2Line) : (s.l2Put x).besideMemory = s.besideMemory := rfl

@[simp] theorem putBelow_besideMemory (s : State) (l : Loc) (bs whole : List Byte) :
    (s.putBelow l bs whole).besideMemory = s.besideMemory := by
  unfold State.putBelow
  split
  · exact sideRoom_besideMemory s l.line
  · exact (sideDirty_besideMemory _ _ _).trans ((markWrite_besideMemory _ _ _ _).trans (sideRoom_besideMemory s l.line))

@[simp] theorem writeDown_besideMemory (s : State) (line : Nat) : (s.writeDown line).besideMemory = s.besideMemory := by
  unfold State.writeDown
  split
  · split <;> simp
  · rfl

/-! ## The home slice -/

@[simp] theorem recall_besideMemory (s : State) (line : Nat) : (s.recall line).besideMemory = s.besideMemory := by
  unfold State.recall
  split
  · rfl
  · have h (s : State) (g : L1Line → L1Line) :
        ({ s with cores := s.cores.map fun c => { c with l1 := c.l1.map g } } : State).besideMemory = s.besideMemory := by
      simp [State.besideMemory, Function.comp_def, Core.besideL1]
    dsimp only
    split
    · split <;> exact h s _
    · exact h s _

@[simp] theorem dropRdc_besideMemory (s : State) (die line : Nat) : (s.dropRdc die line).besideMemory = s.besideMemory :=
  updDie_besideMemory s die fun _ => rfl

@[simp] theorem settleInval_besideMemory (s : State) (die line : Nat) :
    (s.settleInval die line).besideMemory = s.besideMemory := by
  unfold State.settleInval
  split
  · exact dropRdc_besideMemory s die line
  · rfl

@[simp] theorem settleAll_besideMemory (s : State) : s.settleAll.besideMemory = s.besideMemory :=
  foldl_besideMemory (fun s (x : Inval) => settleInval_besideMemory s x.die x.line) _ s

@[simp] theorem evictLine_besideMemory (s : State) (line : Nat) : (s.evictLine line).besideMemory = s.besideMemory := by
  unfold State.evictLine
  dsimp only
  split
  · exact recall_besideMemory s line
  · exact (foldl_besideMemory (fun s d => dropRdc_besideMemory s d line) _ _).trans
      ((writeDown_besideMemory _ line).trans
        ((foldl_besideMemory (fun s d => settleInval_besideMemory s d line) _ _).trans (recall_besideMemory s line)))

@[simp] theorem predict_besideMemory (s : State) (l : Loc) : (s.predict l).besideMemory = s.besideMemory := by
  unfold State.predict
  split
  · rfl
  · exact updDie_besideMemory s l.die fun _ => rfl

@[simp] theorem fill_besideMemory (s : State) (l : Loc) : (s.fill l).besideMemory = s.besideMemory := by
  unfold State.fill
  split
  · rfl
  · dsimp only
    split <;> simp

@[simp] theorem homeRead_besideMemory (s : State) (l : Loc) (n : Nat) :
    (s.homeRead l n).1.besideMemory = s.besideMemory := by
  unfold State.homeRead
  split
  · rfl
  · dsimp only
    split <;> simp

@[simp] theorem invalidateSharers_besideMemory (s : State) (line die uid : Nat) :
    (s.invalidateSharers line die uid).besideMemory = s.besideMemory := by
  unfold State.invalidateSharers
  split <;> rfl

@[simp] theorem acquireAt_besideMemory (s : State) (core scope : Nat) :
    (s.acquireAt core scope).besideMemory = s.besideMemory := by
  unfold State.acquireAt
  split
  · exact updCore_besideMemory s core fun _ => rfl
  · rfl

@[simp] theorem wakeMonitor_besideMemory (s : State) (uid : Nat) : (s.wakeMonitor uid).besideMemory = s.besideMemory := by
  have h : (s.updTroupe uid fun t => { t with park := .run }).besideMemory = s.besideMemory := by
    simp only [State.besideMemory, State.updTroupe_troupes, List.map_map]
    congr 1
    exact List.map_congr_left fun t _ => by simp only [Function.comp_apply]; split <;> rfl
  unfold State.wakeMonitor
  split
  · split
    · dsimp only
      split <;> simp [h]
    · rfl
  · rfl

@[simp] theorem dropOlder_besideMemory (s : State) (core line : Nat) :
    (s.dropOlder core line).besideMemory = s.besideMemory := by
  rw [State.dropOlder, updCore_besideMemory]
  · simp
  · exact fun _ => rfl

@[simp] theorem evalMonitors_besideMemory (s : State) (l : Loc) (n : Nat) :
    (s.evalMonitors l n).besideMemory = s.besideMemory :=
  (foldl_besideMemory (fun s m => by dsimp only; split <;> simp) _ _).trans (updDie_besideMemory s l.die fun _ => rfl)

@[simp] theorem linePut_besideMemory (s : State) (l : Loc) (bs : List Byte) :
    (s.linePut l bs).besideMemory = s.besideMemory := by
  unfold State.linePut
  dsimp only
  split
  · split <;> simp
  · simp

@[simp] theorem ctrPut_besideMemory (s : State) (l : Loc) (off n v : Nat) :
    (s.ctrPut l off n v).besideMemory = s.besideMemory :=
  foldl_besideMemory (fun s _ => linePut_besideMemory s _ _) _ s

@[simp] theorem recallHolder_besideMemory (s : State) (l : Loc) (h : Nat) :
    (s.recallHolder l h).besideMemory = s.besideMemory := by
  have h1 : (s.dropAllowance h l).besideMemory = s.besideMemory := by
    rw [State.dropAllowance, updCore_besideMemory]
    exact fun _ => rfl
  rw [State.recallHolder, updDie_besideMemory]
  · simp [h1]
  · exact fun _ => rfl

theorem recallWhile_besideMemory (l : Loc) (more : Nat → Bool) :
    ∀ (fuel : Nat) (s : State), (s.recallWhile l more fuel).besideMemory = s.besideMemory
  | 0, _ => rfl
  | fuel + 1, s => by
    unfold State.recallWhile
    split
    · split
      · exact (recallWhile_besideMemory l more fuel _).trans (recallHolder_besideMemory s l _)
      · rfl
    · rfl

@[simp] theorem recallAllowances_besideMemory (s : State) (l : Loc) (n : Nat) :
    (s.recallAllowances l n).besideMemory = s.besideMemory := by
  unfold State.recallAllowances
  split
  · exact recallWhile_besideMemory _ _ _ s
  · rfl

@[simp] theorem homeWrite_besideMemory (s : State) (l : Loc) (bs : List Byte) (die uid : Nat) :
    (s.homeWrite l bs die uid).besideMemory = s.besideMemory := by
  unfold State.homeWrite
  dsimp only
  split
  · rfl
  · simp only [evalMonitors_besideMemory, invalidateSharers_besideMemory, linePut_besideMemory]
    split
    · rw [updDie_besideMemory]
      · simp
      · exact fun _ => rfl
    · simp

@[simp] theorem physWrite_besideMemory (s : State) (pa : Nat) (bs : List Byte) :
    (s.physWrite pa bs).besideMemory = s.besideMemory :=
  (foldl_besideMemory (fun s _ => homeWrite_besideMemory s _ _ _ _) _ _).trans (settleAll_besideMemory s)

/-- A write by physical address leaves start-up as it is. -/
@[simp] theorem physWrite_boot (s : State) (pa : Nat) (bs : List Byte) : (s.physWrite pa bs).boot = s.boot := by
  change (s.physWrite pa bs).besideMemory.boot = s.besideMemory.boot
  rw [physWrite_besideMemory]

end Sys2Proof.Machine
end

section
/-!
SUPPORT. What the host's writes do: launches that end or go out, answers to faults, shoot-downs, messages, reports (R326-R341, R359,
R361).
-/
namespace Sys2Proof.Claim

open Sys2Proof.Machine

theorem recovery_iff (s : State) : s.recovery = true ↔ recovering s := by
  simp [State.recovery, recovering]

theorem recovery_eq_false {s : State} (h : ¬ recovering s) : s.recovery = false :=
  Bool.eq_false_iff.2 (mt (recovery_iff s).1 h)

/-! ## Launches that the host ends (R332) -/

/-- A launch that is ended with a code; the first code stands. -/
def endedWith (code : Nat) (tcause : Word) (tpc : DWord) (l : Launch) : Launch :=
  if l.ending.isSome || l.statusDone then l else { l with ending := some code, tcause := tcause, tpc := tpc }

theorem endLaunch_launches (s : State) (lid code : Nat) (tcause : Word) (tpc : DWord) :
    (s.endLaunch lid code tcause tpc).rm.launches =
      s.rm.launches.map fun x => if x.lid = lid then endedWith code tcause tpc x else x := by
  simp [State.endLaunch, State.updLaunch, endedWith]

theorem endedWith_lid (code : Nat) (tcause : Word) (tpc : DWord) (l : Launch) :
    (endedWith code tcause tpc l).lid = l.lid := by
  unfold endedWith; split <;> rfl

theorem endedWith_idem (code : Nat) (tcause : Word) (tpc : DWord) (l : Launch) :
    endedWith code tcause tpc (endedWith code tcause tpc l) = endedWith code tcause tpc l := by
  unfold endedWith; split <;> simp_all

theorem endedWith_running {l : Launch} (h : l.ending = none) (hd : l.statusDone = false) (code : Nat) (tcause : Word)
    (tpc : DWord) : endedWith code tcause tpc l = { l with ending := some code, tcause := tcause, tpc := tpc } := by
  simp [endedWith, h, hd]

theorem endedWith_done {l : Launch} (hd : l.statusDone = true) (code : Nat) (tcause : Word) (tpc : DWord) :
    endedWith code tcause tpc l = l := by
  simp [endedWith, hd]

/-- Ending several launches ends each launch that one of them names, once. -/
theorem foldl_endLaunch_launches (code : Nat) (tcause : Word) (tpc : DWord) : ∀ (ls : List Launch) (s : State),
    (ls.foldl (fun s l => s.endLaunch l.lid code tcause tpc) s).rm.launches =
      s.rm.launches.map fun x => if ∃ l ∈ ls, l.lid = x.lid then endedWith code tcause tpc x else x
  | [], s => by simp
  | l :: ls, s => by
    rw [List.foldl_cons, foldl_endLaunch_launches code tcause tpc ls, endLaunch_launches, List.map_map]
    refine List.map_congr_left fun x _ => ?_
    by_cases h : x.lid = l.lid
    · have e : ∃ k ∈ l :: ls, k.lid = x.lid := ⟨l, by simp, h.symm⟩
      simp only [Function.comp_apply, if_pos h, endedWith_lid, if_pos e, endedWith_idem, ite_self]
    · have e : (∃ k ∈ l :: ls, k.lid = x.lid) ↔ ∃ k ∈ ls, k.lid = x.lid := by simp [Ne.symm h]
      simp only [Function.comp_apply, if_neg h, e]

/-! ## Messages (R339) -/

theorem foldl_raise_rm {f : State → Message → State}
    (hf : ∀ s m, (f s m).rm.messages = s.rm.messages ∧ (f s m).rm.rmmsgsize = s.rm.rmmsgsize) :
    ∀ (ms : List Message) (s : State), (ms.foldl f s).rm.messages = s.rm.messages ∧
      (ms.foldl f s).rm.rmmsgsize = s.rm.rmmsgsize
  | [], _ => ⟨rfl, rfl⟩
  | m :: ms, s => by
    obtain ⟨h1, h2⟩ := foldl_raise_rm hf ms (f s m)
    obtain ⟨h3, h4⟩ := hf s m
    exact ⟨h1.trans h3, h2.trans h4⟩

theorem dropCompletions_of_on {s : State} (h : s.rm.rmmsgsize ≠ 0) : s.dropCompletions = s := by
  have hon : s.messagesOff = false := by simpa [State.messagesOff] using h
  simp [State.dropCompletions, hon]

/-- While messages are disabled the completions are dropped, and nothing else of the messages and their register. -/
theorem dropCompletions_of_off {s : State} (h : s.rm.rmmsgsize = 0) :
    s.dropCompletions.rm.messages = s.rm.messages.filter (·.kind != 1) ∧
    s.dropCompletions.rm.rmmsgsize = s.rm.rmmsgsize := by
  have hoff : s.messagesOff = true := by simpa [State.messagesOff] using h
  simp only [State.dropCompletions, hoff, Bool.not_true, Bool.false_eq_true, if_false]
  exact foldl_raise_rm (fun s m => by split <;> exact ⟨rfl, rfl⟩) _ _

theorem msgSize_lt (v : DWord) : msgSize v < 2 ^ 32 := by
  simp only [msgSize]; split <;> omega

theorem msgSize_eq_zero (v : DWord) : msgSize v = 0 ↔ v.toNat % 32 = 0 := by
  simp only [msgSize]; split <;> omega

/-- R339: the exponent of the ring's size, as it is stored. -/
theorem msgSize_eq (v : DWord) :
    msgSize v = let n := v.toNat % 32; if n = 0 then 0 else if n < 4 then 4 else if 20 < n then 20 else n := by
  simp only [msgSize]
  repeat' split
  all_goals omega

/-! ## Translations dropped (R248) -/

theorem mem_dropTlbs {s : State} {gone : TlbEntry → Bool} :
    (∀ c ∈ (s.dropTlbs gone).cores, ∀ x ∈ c.tlb ++ c.ftlb ++ c.otlb, gone x = false) ∧
    ∀ d ∈ (s.dropTlbs gone).dieUnits, ∀ x ∈ d.tlb, gone x = false := by
  constructor
  · intro c hc x hx
    obtain ⟨c', -, rfl⟩ := List.mem_map.1 hc
    simp only [Core.dropTlb, List.mem_append, List.mem_filter, Bool.not_eq_true'] at hx
    rcases hx with (⟨-, h⟩ | ⟨-, h⟩) | ⟨-, h⟩ <;> exact h
  · intro d hd x hx
    obtain ⟨d', -, rfl⟩ := List.mem_map.1 hd
    simpa using (List.mem_filter.1 hx).2

/-! ## What the host's writes do -/

theorem exec_qtailWrite {s : State} (q : Nat) (v : DWord) (hr : ¬ recovering s) :
    let tail : Word := BitVec.ofNat 32 v.toNat
    (2 ^ (s.queue q).qsize.toNat < (tail - (s.queue q).qhead).toNat → exec (.qtailWrite q v) s = .next s) ∧
    ((tail - (s.queue q).qhead).toNat ≤ 2 ^ (s.queue q).qsize.toNat →
      exec (.qtailWrite q v) s = .next (s.updQueue q fun r => { r with qtail := tail })) := by
  have e : v.setWidth 32 = BitVec.ofNat 32 v.toNat := rfl
  refine ⟨fun h => ?_, fun h => ?_⟩ <;> change execQtailWrite q v s = _ <;>
    simp only [execQtailWrite, recovery_eq_false hr, Bool.false_or, decide_eq_true_eq, e]
  · rw [if_pos h]
  · rw [if_neg (Nat.not_lt.2 h)]

theorem exec_abort {s : State} (q : Nat) (hr : ¬ recovering s) : ∃ s', exec (.abort q) s = .next s' ∧
    s'.rm.launches = s.rm.launches.map fun (x : Launch) =>
      if ∃ l ∈ s.rm.launches.filter (fun (l : Launch) => l.queue == q), l.lid = x.lid then endedWith 7 0 0 x else x :=
  ⟨_, if_neg (by simp [recovery_eq_false hr]), foldl_endLaunch_launches 7 0 0 _ s⟩

/-- A running launch of the queue ends with code 7; one that has reached its status is left (R332). -/
theorem abort_launches {s : State} (q : Nat) (hr : ¬ recovering s) : ∃ s', exec (.abort q) s = .next s' ∧
    (∀ l ∈ s.rm.launches, l.queue = q → l.ending = none → l.statusDone = false →
      ∃ l' ∈ s'.rm.launches, l' = { l with ending := some 7, tcause := 0, tpc := 0 }) ∧
    (∀ l ∈ s.rm.launches, l.queue = q → l.statusDone = true → l ∈ s'.rm.launches) := by
  obtain ⟨s', he, hl⟩ := exec_abort q hr
  refine ⟨s', he, fun l h hq hend hd => ⟨_, ?_, rfl⟩, fun l h hq hd => ?_⟩ <;> rw [hl, List.mem_map]
  · exact ⟨l, h, by rw [if_pos ⟨l, by simp [h, hq], rfl⟩, endedWith_running hend hd]⟩
  · exact ⟨l, h, by rw [endedWith_done hd, ite_self]⟩

/-- The one company of a queue goes out, where the pool holds its record (R337). -/
theorem exec_preempt_single {s : State} {q : Nat} {c : Company} {l : Launch} (hr : ¬ recovering s)
    (hc : s.companies = [c]) (hq : s.queueOf c.lid = q) (hv : s.victim c = true) (hl : s.launch? c.lid = some l)
    (hres : l.hdr.resident = false) (hp : l.hdr.recordSize ≤ s.poolFree) :
    exec (.preempt q) s = .next { s with companies := [{ c with preempting := true }] } := by
  have hfind : s.company? c.cid = some c := by simp [State.company?, hc]
  have hpool : s.poolHolds c = true := by simp [State.poolHolds, State.withVictim, hl, hres, hp]
  have hout : s.takeOut c = { s with companies := [{ c with preempting := true }] } := by
    simp [State.takeOut, hl, hpool, hres, State.withVictim, State.request, hp, State.updCompany, hc]
  change execPreempt q s = _
  simp [execPreempt, recovery_eq_false hr, State.victimOrder, hc, sortBy, insertSorted, hfind, hq, hv, hout]

/-- The answer to a reported fault replays what waits for it, or declines it (R340). -/
theorem exec_rmfrespWrite {s : State} {v : DWord} {f : PendingFault} (hr : ¬ recovering s)
    (hf : s.rm.faults.find? (fun f => !f.migrate && f.token % 2 ^ 32 == v.toNat % 2 ^ 32) = some f) :
    (v.getLsbD 32 = true → exec (.rmfrespWrite v) s = .next (s.updRm fun r =>
      { r with faults := r.faults.filter (· != f), waits := r.waits.filter fun w => w.token != f.token })) ∧
    (v.getLsbD 32 = false → exec (.rmfrespWrite v) s = .next
      ((s.updRm fun r => { r with faults := r.faults.filter (· != f) }).decline f)) := by
  refine ⟨fun h => ?_, fun h => ?_⟩ <;> change execRmfrespWrite v s = _ <;>
    simp only [execRmfrespWrite, recovery_eq_false hr, Bool.false_eq_true, if_false, hf, h, if_true]
  rfl

theorem exec_rmfrespWrite_unknown {s : State} {v : DWord}
    (h : ∀ f ∈ s.rm.faults, f.migrate = false → f.token % 2 ^ 32 ≠ v.toNat % 2 ^ 32) :
    exec (.rmfrespWrite v) s = .next s := by
  have hf : s.rm.faults.find? (fun f => !f.migrate && f.token % 2 ^ 32 == v.toNat % 2 ^ 32) = none := by
    rw [List.find?_eq_none]
    intro f hm hp
    simp only [Bool.and_eq_true, Bool.not_eq_true', beq_iff_eq] at hp
    exact h f hm hp.1 hp.2
  change execRmfrespWrite v s = _
  unfold execRmfrespWrite
  rw [hf]
  split <;> rfl

theorem exec_rmshootWrite {s : State} (v : DWord) (hr : ¬ recovering s) :
    exec (.rmshootWrite v) s = .next (s.updRm fun r =>
      { r with shoots := r.shoots ++ [(v.toNat % 64, v.toNat / 2 ^ 16 % 2 ^ 16, (s.queue (v.toNat % 64)).qroot.toNat)] }) := by
  change execRmshootWrite v s = _
  simp [execRmshootWrite, recovery_eq_false hr, bitsOf]

theorem exec_shootDownDone {s : State} {q k root : Nat}
    (h : s.rm.shoots.find? (fun x => x.2.1 == k) = some (q, k, root)) :
    ∃ s', exec (.shootDownDone k) s = .next s' ∧ (∀ c ∈ s'.cores, ∀ x ∈ c.tlb ++ c.ftlb ++ c.otlb, x.root ≠ root) ∧
      (∀ d ∈ s'.dieUnits, ∀ x ∈ d.tlb, x.root ≠ root) ∧
      s'.rm.messages = s.rm.messages ++ [{ kind := 5, queue := q, a32 := BitVec.ofNat 32 k, a64 := 0, vector := none }] := by
  refine ⟨_, by change execShootDownDone k s = _; simp only [execShootDownDone, h]; rfl, ?_, ?_, rfl⟩
  · intro c hc x hx
    simpa using mem_dropTlbs.1 c hc x hx
  · intro d hd x hx
    simpa using mem_dropTlbs.2 d hd x hx

theorem exec_rmmsgsizeWrite {s : State} (v : DWord) (hr : ¬ recovering s) :
    ∃ s', exec (.rmmsgsizeWrite v) s = .next s' ∧
    s'.rm.rmmsgsize.toNat = (let n := v.toNat % 32; if n = 0 then 0 else if n < 4 then 4 else if 20 < n then 20 else n) ∧
    (v.toNat % 32 ≠ 0 → s'.rm.messages = s.rm.messages) ∧ (v.toNat % 32 = 0 → ∀ m ∈ s'.rm.messages, m.kind ≠ 1) := by
  have hsize : (BitVec.ofNat 32 (msgSize v)).toNat = msgSize v := by
    rw [BitVec.toNat_ofNat, Nat.mod_eq_of_lt (msgSize_lt v)]
  have hzero : BitVec.ofNat 32 (msgSize v) = 0 ↔ v.toNat % 32 = 0 := by
    rw [← BitVec.toNat_inj, hsize]
    exact msgSize_eq_zero v
  have he : exec (.rmmsgsizeWrite v) s =
      .next (s.updRm fun r => { r with rmmsgsize := BitVec.ofNat 32 (msgSize v) }).dropCompletions :=
    if_neg (by simp [recovery_eq_false hr])
  refine ⟨_, he, ?_⟩
  rw [← msgSize_eq]
  by_cases h : v.toNat % 32 = 0
  · obtain ⟨hm, hs⟩ := dropCompletions_of_off (s := s.updRm fun r => { r with rmmsgsize := BitVec.ofNat 32 (msgSize v) })
      (hzero.2 h)
    refine ⟨hs ▸ hsize, fun h' => absurd h h', fun _ m hm' => ?_⟩
    rw [hm] at hm'
    simpa using (List.mem_filter.1 hm').2
  · rw [dropCompletions_of_on (mt hzero.1 h)]
    exact ⟨hsize, fun _ => rfl, fun h' => absurd h' h⟩

/-- A request for a report is refused at an address that is misaligned or in no window, and else taken (R361). -/
theorem exec_attctlWrite {s : State} {v : DWord} (hr : ¬ recovering s) (hv : v.getLsbD 0 = true)
    (ha : s.boot.attstat ≠ 1) :
    let a := s.boot.attaddr.toNat
    (a % 192 ≠ 0 ∨ s.present a 384 = false → exec (.attctlWrite v) s = .next { s with boot := { s.boot with attstat := 3 } }) ∧
    (a % 192 = 0 → s.present a 384 = true → exec (.attctlWrite v) s = .next
      { s with boot := { s.boot with attstat := 1, attReq := some (a, s.fabric.fxdevid, s.boot.attnonce) } }) := by
  refine ⟨fun h => ?_, fun h1 h2 => ?_⟩ <;> change execAttctlWrite v s = _ <;>
    simp only [execAttctlWrite, recovery_eq_false hr, hv, ha, Bool.not_true, Bool.false_or, decide_false,
      Bool.false_eq_true, if_false]
  · rw [if_pos (by simpa using h)]
  · rw [if_neg (by simp [h1, h2])]

theorem exec_attestationReportWritten {s : State} {a : Nat} {dev : Word} {nonce : List DWord}
    (h : s.boot.attReq = some (a, dev, nonce)) : exec .attestationReportWritten s = .next
      { s.physWrite a (s.boot.report dev nonce) with boot := { s.boot with attstat := 2, attReq := none } } := by
  change execAttestationReportWritten s = _
  simp only [execAttestationReportWritten, h, physWrite_boot]

theorem exec_registerWrite_recovering {s : State} (r : Reg) (v : DWord) (h : recovering s) :
    exec (.registerWrite r v) s = .next s :=
  if_pos (by simp [(recovery_iff s).2 h])

theorem hostWrites : HostWrites := by
  refine ⟨fun s q v hr => exec_qtailWrite q v hr, fun s q hr => abort_launches q hr,
    fun s q c l hr hc hq hv hl hres hp => exec_preempt_single hr hc hq hv hl hres hp,
    fun s v f hr hf => exec_rmfrespWrite hr hf, fun s v h => exec_rmfrespWrite_unknown h,
    fun s v hr => exec_rmshootWrite v hr, fun s q k root h => exec_shootDownDone h,
    fun s v hr => if_neg (by simp [recovery_eq_false hr]), fun s v hr => exec_rmmsgsizeWrite v hr,
    fun s v hr hv ha => exec_attctlWrite hr hv ha, fun s h => ?_, fun s a dev nonce h => exec_attestationReportWritten h,
    fun s r v h => exec_registerWrite_recovering r v h, fun s r h hb => ?_, fun s => ?_⟩
  · change execAttestationReportWritten s = _
    simp only [execAttestationReportWritten, h]
  · exact if_pos (by simp [(recovery_iff s).2 h, hb])
  · exact if_neg (by simp [State.absent])

end Sys2Proof.Claim
end

section
/-!
SUPPORT. The registers of the window that a write sets, holds or leaves, what a read of them gives, and accesses to memory over
the link (R226, R241, R287, R326, R327, R341, R359, R363).
-/
namespace Sys2Proof.Claim

open Sys2Proof.Machine

/-! ## Registers that launches hold (R327, R346) -/

theorem mustHold_queue {s : State} {q : Nat} {r : Reg} (hr : heldQueue? r = some q) : s.mustHold r = true ↔ active s q := by
  simp [State.mustHold, hr, active]

theorem mustHold_of_idle {s : State} (h : s.rm.launches = []) (r : Reg) : s.mustHold r = false := by
  unfold State.mustHold
  split <;> simp [h]

theorem writeHeld_of_hold {s : State} {r : Reg} (v : DWord) (h : s.mustHold r = true) :
    s.writeHeld r v = s.updRm fun x => { x with held := x.held.filter (·.1 != r) ++ [(r, v)] } :=
  if_pos h

theorem writeHeld_of_free {s : State} {r : Reg} (v : DWord) (h : s.mustHold r = false) :
    s.writeHeld r v = (s.updRm fun x => { x with held := x.held.filter (·.1 != r) }).setHeldReg r v :=
  if_neg (by rw [Bool.not_eq_true]; exact h)

/-- A register that launches hold, written outside the recovery state. -/
theorem exec_registerWrite_held {s : State} {r : Reg} (v : DWord) (hr : ¬ recovering s)
    (hreg : r ∈ [Reg.sealctl, .sealminv] ∨ ∃ q, r ∈ [Reg.qbase q, .qsize q, .qroot q]) :
    exec (.registerWrite r v) s = .next (s.writeHeld r v) := by
  have hgo (r : Reg) (ha : s.absent r = false) : ¬ (s.recovery || s.absent r) = true := by simp [recovery_eq_false hr, ha]
  change execRegisterWrite r v s = _
  simp only [List.mem_cons, List.not_mem_nil, or_false] at hreg
  obtain (rfl | rfl) | ⟨q, rfl | rfl | rfl⟩ := hreg <;> exact if_neg (hgo _ rfl)

theorem exec_heldWriteApply {s : State} {r : Reg} {w : DWord} (h : s.rm.held.find? (fun x => x.1 == r) = some (r, w))
    (hl : s.rm.launches = []) : exec (.heldWriteApply r) s =
      .next ((s.updRm fun x => { x with held := x.held.filter (·.1 != r) }).setHeldReg r w) := by
  change execHeldWriteApply r s = _
  simp [execHeldWriteApply, h, mustHold_of_idle hl r]

/-! ## Values that a write stores (R241, R363) -/

/-- R241: the quota of class `k` that a write to L2QUOTA stores. -/
def quotaField (v : DWord) (k : Nat) : Nat :=
  let x := v.toNat / 2 ^ (5 * k) % 32
  if x = 0 ∨ 16 < x then 16 else x

theorem quotaField_lt (v : DWord) (k : Nat) : quotaField v k < 32 := by
  simp only [quotaField]; split <;> omega

theorem quotaValue_eq (v : DWord) : quotaValue v = BitVec.ofNat 32
    (quotaField v 0 * 2 ^ 0 + quotaField v 1 * 2 ^ 5 + quotaField v 2 * 2 ^ 10 + quotaField v 3 * 2 ^ 15) := by
  have hc (x : Nat) : (if (x = 0 || x > 16) = true then 16 else x) = if x = 0 ∨ 16 < x then 16 else x := by simp
  simp only [quotaValue, hc]
  rfl

/-- The fields of L2QUOTA after a write. -/
theorem quotaValue_field (v : DWord) {k : Nat} (hk : k < 4) :
    (quotaValue v).toNat / 2 ^ (5 * k) % 32 = quotaField v k := by
  have h0 := quotaField_lt v 0
  have h1 := quotaField_lt v 1
  have h2 := quotaField_lt v 2
  have h3 := quotaField_lt v 3
  rw [quotaValue_eq, BitVec.toNat_ofNat]
  obtain rfl | rfl | rfl | rfl : k = 0 ∨ k = 1 ∨ k = 2 ∨ k = 3 := by omega
  all_goals omega

theorem powerValue_package (v : DWord) : (powerValue .package v).toNat =
    let x := v.toNat % 2 ^ 16; if x < 1200 then 1200 else if 4800 < x then 4800 else x := by
  have e : powerValue .package v = BitVec.ofNat 32 (max 1200 (min 4800 (v.toNat % 65536))) := rfl
  rw [e, BitVec.toNat_ofNat]
  dsimp only
  repeat' split
  all_goals omega

/-! ## Reads of the window (R326, R359) -/

theorem readReg_of_absent {s : State} {r : Reg} (h : s.absent r = true) : s.readReg r = 0 :=
  if_pos (by simp [h])

theorem readReg_of_present {s : State} {r : Reg} (hr : ¬ recovering s) (h : s.absent r = false) :
    s.readReg r = s.regValue r :=
  if_neg (by simp [recovery_eq_false hr, h])

theorem registerWrites : RegisterWrites := by
  intro s hr
  have hgo {r : Reg} (ha : s.absent r = false) : ¬ (s.recovery || s.absent r) = true := by simp [recovery_eq_false hr, ha]
  have hdie {d : Nat} {r : Reg} (hd : s.dieIn d = true) (h : s.absent r = !s.dieIn d) : s.absent r = false := by
    simp [h, hd]
  have hzero {r : Reg} (h : s.regValue r = 0) : s.readReg r = 0 := ite_eq_left_iff.2 fun _ => h
  refine ⟨fun q v hq => ?_, fun q v hq r h => ?_, fun r v hl h => ?_, fun r w h hl => exec_heldWriteApply h hl,
    fun r h v => ?_, fun r v h => ⟨if_pos (by simp [h]), readReg_of_absent h⟩, fun d v hd hlen hin => ?_,
    fun d v hin => ⟨if_neg (hgo (hdie hin rfl)), if_neg (hgo (hdie hin rfl)), if_neg (hgo (hdie hin rfl))⟩,
    fun v => ⟨_, if_neg (hgo rfl), fun hf => ?_⟩, fun d hf hd => ?_,
    fun d hin => ⟨readReg_of_present hr (hdie hin rfl), ?_⟩, fun q => ⟨readReg_of_present hr rfl, ?_⟩,
    fun k => ⟨hzero rfl, hzero rfl, hzero rfl⟩⟩
  · have hfree (r : Reg) (h : heldQueue? r = some q) : s.mustHold r = false :=
      Bool.eq_false_iff.2 (mt (mustHold_queue h).1 hq)
    constructor <;> rw [exec_registerWrite_held v hr (.inr ⟨q, by simp⟩), writeHeld_of_free v (hfree _ rfl)] <;> rfl
  · rw [exec_registerWrite_held v hr (.inr ⟨q, h⟩), writeHeld_of_hold v ((mustHold_queue ?_).2 hq)]
    simp only [List.mem_cons, List.not_mem_nil, or_false] at h
    obtain rfl | rfl | rfl := h <;> rfl
  · refine ⟨_, exec_registerWrite_held v hr (.inl h), ?_⟩
    rw [writeHeld_of_free v (mustHold_of_idle hl r)]
    exact ⟨by rintro rfl; simp [State.setHeldReg]; omega, by rintro rfl; rfl⟩
  · simp only [List.mem_cons, List.not_mem_nil, or_false] at h
    obtain rfl | rfl | rfl | rfl | rfl | rfl := h <;> exact if_neg (hgo rfl)
  · refine ⟨_, if_neg (hgo (hdie hin rfl)), fun k hk => ?_⟩
    refine Eq.trans ?_ (quotaValue_field v hk)
    rw [State.die, State.updDie_dieUnits, getD_listModify_same _ _ _ _ (by omega)]
  · change (powerValue s.boot.record.form v).toNat = _
    rw [hf, powerValue_package]
  · have hout : s.dieIn d = false := by simp [State.dieIn, hf, hd]
    exact ⟨by simp [State.absent, hout], by simp [State.absent, hout]⟩
  · rw [readReg_of_present hr (hdie hin rfl)]
    simp [State.regValue]; omega
  · rw [readReg_of_present hr rfl]
    simp [State.regValue]; omega

/-! ## Memory over the link (R287, R341, R359) -/

/-- Whether an access of `n` bytes is not performed now. -/
def hostIdle (s : State) (pa n : Nat) : Prop := s.present pa n = false ∨ recovering s ∨ s.physHeld pa n = true

theorem hostIdle_check {s : State} {pa n : Nat} (h : hostIdle s pa n) :
    (s.recovery || decide (n = 0) || !s.present pa n || s.physHeld pa n) = true := by
  obtain h | h | h := h
  · simp [h]
  · simp [(recovery_iff s).2 h]
  · simp [h]

theorem settleInval_invals (s : State) (die line : Nat) :
    (s.settleInval die line).invals = s.invals.filter fun x => !(x.die == die && x.line == line) := by
  unfold State.settleInval
  split
  · rfl
  · rename_i h
    refine (List.filter_eq_self.2 fun x hx => ?_).symm
    rw [Bool.not_eq_true']
    exact Bool.eq_false_iff.2 (List.any_eq_false.1 (Bool.eq_false_iff.2 h) x hx)

theorem foldl_settleInval_invals : ∀ (xs : List Inval) (s : State), (∀ x ∈ s.invals, x ∈ xs) →
    (xs.foldl (fun s x => s.settleInval x.die x.line) s).invals = []
  | [], s, h => List.eq_nil_iff_forall_not_mem.2 fun x hx => by simpa using h x hx
  | y :: xs, s, h => by
    refine foldl_settleInval_invals xs _ fun x hx => ?_
    rw [settleInval_invals, List.mem_filter] at hx
    obtain rfl | hx' := List.mem_cons.1 (h x hx.1)
    · simp at hx
    · exact hx'

/-- Once they are settled, no invalidation is under way (R331). -/
theorem settleAll_invals (s : State) : s.settleAll.invals = [] := foldl_settleInval_invals _ s fun _ h => h

theorem settleInval_rest (s : State) (die line : Nat) : (s.settleInval die line).mem = s.mem ∧
    (s.settleInval die line).l2 = s.l2 ∧ (s.settleInval die line).troupes = s.troupes := by
  unfold State.settleInval
  split <;> exact ⟨rfl, rfl, rfl⟩

theorem settleAll_rest (s : State) : s.settleAll.mem = s.mem ∧ s.settleAll.l2 = s.l2 ∧ s.settleAll.troupes = s.troupes := by
  unfold State.settleAll
  generalize s.invals = xs
  induction xs generalizing s with
  | nil => exact ⟨rfl, rfl, rfl⟩
  | cons x xs ih =>
    obtain ⟨h1, h2, h3⟩ := ih (s.settleInval x.die x.line)
    obtain ⟨k1, k2, k3⟩ := settleInval_rest s x.die x.line
    exact ⟨h1.trans k1, h2.trans k2, h3.trans k3⟩

/-- Bytes of one line are one piece. -/
theorem linePieces_one {pa n : Nat} (hn : n ≠ 0) (h : pa % 192 + n ≤ 192) : linePieces pa n (n / 192 + 2) = [(pa, n)] := by
  have hk : min n (192 - pa % 192) = n := by omega
  simp [linePieces, hn, hk]

theorem window_host (s : State) {pa : Nat} (h1 : 2 ^ 51 ≤ pa) (h2 : pa < 2 ^ 52) : s.window? pa = some (.host, 0) := by
  unfold State.window?
  rw [if_neg (by omega), if_neg (by omega), if_pos ⟨h1, h2⟩]

theorem physLoc_host (s : State) {pa : Nat} (h1 : 2 ^ 51 ≤ pa) (h2 : pa < 2 ^ 52) :
    (s.physLoc pa).host = true ∧ (s.physLoc pa).byte = pa := by
  have hc : entryCMP 0#64 = false := rfl
  simp [State.physLoc, State.rawLoc, State.loc, hc, window_host s h1 h2, Loc.byte]
  omega

theorem homeWrite_host (s : State) {l : Loc} (h : l.host = true) (bs : List Byte) (die uid : Nat) :
    s.homeWrite l bs die uid = { s.poisonBelow l bs.length [] with mem := putBytes s.mem l.byte bs } :=
  if_pos h

/-- A write to one line of host memory puts its bytes there, after every earlier write has reached every die. -/
theorem physWrite_hostLine (s : State) {pa : Nat} {bs : List Byte} (h1 : 2 ^ 51 ≤ pa) (h2 : pa + bs.length ≤ 2 ^ 52)
    (h3 : pa % 192 + bs.length ≤ 192) (hbs : bs ≠ []) : (s.physWrite pa bs).mem = putBytes s.mem pa bs ∧
      (s.physWrite pa bs).l2 = s.l2 ∧ (s.physWrite pa bs).troupes = s.troupes ∧ (s.physWrite pa bs).invals = [] := by
  have hn : bs.length ≠ 0 := by simpa using hbs
  obtain ⟨hhost, hbyte⟩ := physLoc_host s.settleAll h1 (by omega : pa < 2 ^ 52)
  obtain ⟨hmem, hl2, htr⟩ := settleAll_rest s
  have e : s.physWrite pa bs = { s.settleAll.poisonBelow (s.settleAll.physLoc pa) bs.length [] with
      mem := putBytes s.settleAll.mem pa bs } := by
    simp [State.physWrite, linePieces_one hn h3, homeWrite_host _ hhost, hbyte]
  rw [e]
  exact ⟨congrArg (putBytes · pa bs) hmem, hl2, htr, settleAll_invals s⟩

theorem cellGet_putBytes (bs : List Byte) {m : Memory} (a x : Nat) (hm : m.wf = true) :
    cellGet (putBytes m a bs) x = if a ≤ x ∧ x < a + bs.length then bs.getD (x - a) 0 else cellGet m x := by
  split
  · rename_i h
    have hi : x - a < bs.length := by omega
    rw [show x = a + (x - a) by omega, cellGet_putBytes_same bs a _ hm hi]
    simp [List.getD_eq_getElem?_getD, hi]
  · exact cellGet_putBytes_other bs a x (by omega)

theorem hostMemory : HostMemory := by
  have hwrite {s : State} {pa : Nat} {bs : List Byte} (hr : ¬ recovering s) (hbs : bs ≠ [])
      (hp : s.present pa bs.length = true) (hh : s.physHeld pa bs.length = false) :
      exec (.hostAccess pa (.write bs)) s = .next (s.physWrite pa bs) :=
    if_neg (by simp [recovery_eq_false hr, hbs, hp, hh])
  refine ⟨fun s pa n s1 bs hr hn hp hh hread => ?_, fun s pa bs hr hbs hp hh => hwrite hr hbs hp hh,
    fun s pa n h => if_pos (hostIdle_check h), fun s pa bs h => if_pos (hostIdle_check h),
    fun s pa bs hr hh h1 h2 h3 hbs hm => ?_⟩
  · have hgo : ¬ (s.recovery || decide (n = 0) || !s.present pa n || s.physHeld pa n) = true := by
      simp [recovery_eq_false hr, hp, hh]; omega
    refine (if_neg hgo).trans ?_
    change Host.Outcome.next { (s.physRead pa n).1 with hostRead := (s.physRead pa n).2 } = _
    rw [hread]
  · have hlen : bs.length ≠ 0 := by simpa using hbs
    have hp : s.present pa bs.length = true := by
      simp [State.present, window_host s h1 (by omega : pa < 2 ^ 52),
        window_host s (by omega : 2 ^ 51 ≤ pa + bs.length - 1) (by omega : pa + bs.length - 1 < 2 ^ 52)]
    obtain ⟨hmem, hrest⟩ := physWrite_hostLine s h1 h2 h3 hbs
    exact ⟨_, hwrite hr hbs hp hh, fun a => by rw [hmem, cellGet_putBytes bs pa a hm], hrest⟩

/-- Settles O47: what the host's writes do, the registers that they set, hold or leave, and its accesses to memory. -/
theorem hostEvents : Obligations.HostEvents := ⟨hostWrites, registerWrites, hostMemory⟩

end Sys2Proof.Claim
end

section
/-!
SUPPORT. Start-up: what a reset keeps of memory, how a start runs when every step is in its first mode, and the
attestation report (R299, R302, R356-R361).
-/
namespace Sys2Proof.Claim

open Sys2Proof.Machine

/-! ## Memory over a reset (R299, R302) -/

theorem stopEdit_of_none (s : State) {g : Region} (h : g.edit = none) : s.stopEdit g = s := by
  unfold State.stopEdit
  split
  · rfl
  · rename_i heq
    exact absurd (h.symm.trans heq) nofun

theorem foldl_stopEdit_of_none : ∀ (gs : List Region) (s : State), (∀ g ∈ gs, g.edit = none) → gs.foldl State.stopEdit s = s
  | [], _, _ => rfl
  | g :: gs, s, h => by
    rw [List.foldl_cons, stopEdit_of_none s (h g (by simp))]
    exact foldl_stopEdit_of_none gs s fun g' hg => h g' (by simp [hg])

/-- After several bytes are put at offsets of `base`, each cell holds what it held or one of them. -/
theorem cellGet_foldl_cellPut (base a : Nat) : ∀ (ps : List (Byte × Nat)) (m : Memory), m.wf = true →
    cellGet (ps.foldl (fun m (b, i) => cellPut m (base + i) b) m) a = cellGet m a ∨
      ∃ p ∈ ps, base + p.2 = a ∧ cellGet (ps.foldl (fun m (b, i) => cellPut m (base + i) b) m) a = p.1
  | [], _, _ => .inl rfl
  | p :: ps, m, hm => by
    rw [List.foldl_cons]
    obtain h | ⟨q, hq, h1, h2⟩ := cellGet_foldl_cellPut base a ps _ (cellPut_wf (base + p.2) p.1 hm)
    · by_cases ha : base + p.2 = a
      · refine .inr ⟨p, by simp, ha, ?_⟩
        rw [h, ← ha, cellGet_cellPut_same _ _ hm]
      · exact .inl (h.trans (cellGet_cellPut_other _ (Ne.symm ha)))
    · exact .inr ⟨q, by simp [hq], h1, h2⟩

/-- The bytes beneath a dirty line that show again when a reset takes the line. -/
def lostBytes (ctr : Nat) (x : SideLine) : List (Byte × Nat) :=
  x.below.zipIdx.filter fun (_, i) => !Config.sectorWritten (ctr + i / 48)

theorem mem_lostBytes {ctr : Nat} {x : SideLine} {p : Byte × Nat} (h : p ∈ lostBytes ctr x) :
    p.2 < x.below.length ∧ x.below.getD p.2 0 = p.1 := by
  obtain ⟨hlt, hget⟩ := List.mem_zipIdx' (List.mem_filter.1 h).1
  simp [List.getD_eq_getElem?_getD, hlt, hget]

/-- A reset takes one dirty line. -/
def loseLine (s : State) (x : SideLine) : State :=
  { s with mem := (lostBytes s.freeCtr x).foldl (fun m (b, i) => cellPut m (192 * x.line + i) b) s.mem
           freeCtr := s.freeCtr + 4 }

theorem loseSide_mem (s : State) : s.loseSide.mem = (s.msc.foldl loseLine s).mem := rfl

theorem foldl_loseLine (a : Nat) : ∀ (xs : List SideLine) (s : State), s.mem.wf = true → (∀ x ∈ xs, x.below.length = 192) →
    cellGet (xs.foldl loseLine s).mem a = cellGet s.mem a ∨
      ∃ x ∈ xs, x.line = a / 192 ∧ cellGet (xs.foldl loseLine s).mem a = x.below.getD (a % 192) 0
  | [], _, _, _ => .inl rfl
  | x :: xs, s, hm, hlen => by
    have hx := hlen x (by simp)
    have hm1 : (loseLine s x).mem.wf = true := foldl_cellPut_wf (fun _ _ h => cellPut_wf _ _ h) _ _ hm
    rw [List.foldl_cons]
    obtain h | ⟨y, hy, h1, h2⟩ := foldl_loseLine a xs (loseLine s x) hm1 fun y hy => hlen y (by simp [hy])
    · obtain h' | ⟨p, hp, ha, hv⟩ := cellGet_foldl_cellPut (192 * x.line) a (lostBytes s.freeCtr x) s.mem hm
      · exact .inl (h.trans h')
      · obtain ⟨hlt, hget⟩ := mem_lostBytes hp
        refine .inr ⟨x, by simp, by omega, (h.trans hv).trans ?_⟩
        rw [show a % 192 = p.2 by omega, hget]
    · exact .inr ⟨y, by simp [hy], h1, h2⟩

/-! ## A start in its first modes (R358) -/

/-- A start under way in which nothing has failed: the record in use, the steps taken in another mode, the slot that runs,
the stacks in service and the journal. -/
def underWay (r : ConfigRecord) (moved : BitVec 8) (slotB : Bool) (up : BitVec 12) (journal : List JournalEntry) : Start :=
  { journal := journal, record := r, stackSet := up, lpddr := 0, moved := moved, skipped := false, slotB := slotB,
    copy2 := false, measured := none, recovery := false, stopped := false }

section Steps
variable {f : Boot} {r : ConfigRecord} {m : BitVec 8} {sb : Bool} {st : BitVec 12} (j : List JournalEntry)

theorem step_record (hm : f.modeOf 2 0 = 0) (hv : f.copy1.verifies = true) (i : Nat) :
    (underWay r m sb st j).step f none 2 0 i = underWay f.copy1.record m sb st (j ++ [⟨2, 0, 0, 1⟩] ++ [⟨2, 0, 0, 2⟩]) := by
  simp [Start.step, underWay, hm, Boot.verifies, hv, Start.done]

theorem step_stack {u : Nat} (hm : f.modeOf 3 u = 0) (i : Nat) :
    (underWay r m sb st j).step f none 3 u i =
      underWay r m sb (st ||| BitVec.ofNat 12 (2 ^ u)) (j ++ [⟨3, u, 0, 1⟩] ++ [⟨3, u, 0, 2⟩]) := by
  simp [Start.step, underWay, hm, Boot.verifies, Start.done]

/-- With every stack in service no die of a package has two out. -/
theorem twoOut_full (hr : r.form = .package) : (underWay r m sb 0xFFF j).twoOut = false := by
  change ((formDies r.form).any fun d => decide (([0, 1, 2].filter fun k =>
    !(0xFFF : BitVec 12).getLsbD (3 * d + k)).length ≥ 2)) = false
  rw [hr]
  decide

theorem step_plain {step : Nat} (hs : step ∈ [5, 6, 7]) (hr : r.form = .package) (hm : f.modeOf step 0 = 0) (i : Nat) :
    (underWay r m sb 0xFFF j).step f none step 0 i =
      underWay r m sb 0xFFF (j ++ [⟨step, 0, 0, 1⟩] ++ [⟨step, 0, 0, 2⟩]) := by
  have ht := twoOut_full (m := m) (sb := sb) j hr
  simp only [List.mem_cons, List.not_mem_nil, or_false] at hs
  unfold Start.step
  rw [ht]
  obtain rfl | rfl | rfl := hs <;> simp [underWay, hm, Boot.verifies, Start.done]

theorem step_measure (hr : r.form = .package) (hm : f.modeOf 8 0 = 0) (i : Nat) :
    (underWay r m sb 0xFFF j).step f none 8 0 i =
      { underWay r m sb 0xFFF (j ++ [⟨8, 0, 0, 1⟩] ++ [⟨8, 0, 0, 2⟩]) with
        measured := some ⟨if sb then f.slotB else f.slotA, r, j ++ [⟨8, 0, 0, 1⟩]⟩ } := by
  have ht := twoOut_full (m := m) (sb := sb) j hr
  unfold Start.step
  rw [ht]
  simp [underWay, hm, Boot.verifies, Start.done]

end Steps

/-- A run of unit steps, the first of them the `k`-th of the start (R358). -/
def runSteps (f : Boot) (b : Start) (steps : List (Nat × Nat)) (k : Nat) : Start :=
  (steps.zipIdx k).foldl (fun b ((step, unit), i) => b.step f none step unit i) b

theorem runSteps_cons (f : Boot) (b : Start) (step unit : Nat) (steps : List (Nat × Nat)) (k : Nat) :
    runSteps f b ((step, unit) :: steps) k = runSteps f (b.step f none step unit k) steps (k + 1) := rfl

theorem runSteps_append (f : Boot) (b : Start) (xs ys : List (Nat × Nat)) (k : Nat) :
    runSteps f b (xs ++ ys) k = runSteps f (runSteps f b xs k) ys (k + xs.length) := by
  simp [runSteps, List.zipIdx_append]

theorem run_eq (f : Boot) : f.run none =
    let b := runSteps f f.start [(1, 0), (2, 0)] 0
    runSteps f b (bootSteps b.record) 2 := rfl

/-- A start that has stopped takes no further step. -/
theorem runSteps_stopped (f : Boot) {b : Start} (h : b.stopped = true) : ∀ (steps : List (Nat × Nat)) (k : Nat),
    runSteps f b steps k = b
  | [], _ => rfl
  | (step, unit) :: steps, k => by
    have hb : b.step f none step unit k = b := by simp [Start.step, h]
    rw [runSteps_cons, hb]
    exact runSteps_stopped f h steps (k + 1)

/-- The stacks come into service one by one. -/
theorem runSteps_stacks {f : Boot} {r : ConfigRecord} {m : BitVec 8} {sb : Bool} (hm : ∀ u, f.modeOf 3 u = 0) :
    ∀ (us : List Nat) (st : BitVec 12) (j : List JournalEntry) (k : Nat), ∃ j',
      runSteps f (underWay r m sb st j) (us.map (3, ·)) k =
        underWay r m sb (us.foldl (fun st u => st ||| BitVec.ofNat 12 (2 ^ u)) st) j'
  | [], _, j, _ => ⟨j, rfl⟩
  | u :: us, st, j, k => by
    rw [List.map_cons, runSteps_cons, step_stack j (hm u)]
    exact runSteps_stacks hm us _ _ (k + 1)

theorem bootSteps_package {r : ConfigRecord} (hr : r.form = .package) (hs : r.stackSet = -1) :
    bootSteps r = (List.range 12).map (3, ·) ++ [(5, 0), (6, 0), (7, 0), (8, 0)] := by
  simp only [bootSteps, hr, hs]
  decide

/-- A package's start that has its record completes, with every stack of it. -/
theorem run_of_first {f : Boot} {m : BitVec 8} {sb : Bool} {j : List JournalEntry}
    (hmode : ∀ step unit, step ≠ 1 → f.modeOf step unit = 0)
    (h1 : f.start.step f none 1 0 0 = underWay f.record m sb 0 j) (hv : f.copy1.verifies = true)
    (hr : f.copy1.record.form = .package) (hs : f.copy1.record.stackSet = -1) :
    ∃ j1 j2, f.run none = { underWay f.copy1.record m sb 0xFFF j1 with
      measured := some ⟨if sb then f.slotB else f.slotA, f.copy1.record, j2⟩ } := by
  let j0 : List JournalEntry := j ++ [⟨2, 0, 0, 1⟩] ++ [⟨2, 0, 0, 2⟩]
  have hfirst : runSteps f f.start [(1, 0), (2, 0)] 0 = underWay f.copy1.record m sb 0 j0 := by
    rw [runSteps_cons, runSteps_cons, h1, step_record j (hmode 2 0 (by decide)) hv]
    rfl
  obtain ⟨j', hstacks⟩ := runSteps_stacks (r := f.copy1.record) (m := m) (sb := sb)
    (fun u => hmode 3 u (by decide)) (List.range 12) 0 j0 2
  have hfull : (List.range 12).foldl (fun st u => st ||| BitVec.ofNat 12 (2 ^ u)) (0 : BitVec 12) = 0xFFF := by decide
  rw [run_eq]
  dsimp only
  rw [hfirst, show (underWay f.copy1.record m sb 0 j0).record = f.copy1.record from rfl, bootSteps_package hr hs,
    runSteps_append, hstacks, hfull, runSteps_cons, step_plain _ (by decide) hr (hmode 5 0 (by decide)), runSteps_cons,
    step_plain _ (by decide) hr (hmode 6 0 (by decide)), runSteps_cons,
    step_plain _ (by decide) hr (hmode 7 0 (by decide)), runSteps_cons, step_measure _ hr (hmode 8 0 (by decide))]
  exact ⟨_, _, rfl⟩

theorem modeOf_fresh {f : Boot} (hj : f.journal = []) (hl : f.leftOut = []) (step unit : Nat) : f.modeOf step unit = 0 := by
  simp [Boot.modeOf, hj, hl]

/-- After a start that slot A failed, the first step alone is run in its other mode. -/
theorem modeOf_retry {f : Boot} (hj : f.journal = [⟨1, 0, 0, 1⟩]) (hl : f.leftOut = []) :
    f.modeOf 1 0 = 1 ∧ ∀ step unit, step ≠ 1 → f.modeOf step unit = 0 := by
  refine ⟨by simp [Boot.modeOf, hj, hl], fun step unit h => ?_⟩
  simp [Boot.modeOf, hj, hl, Ne.symm h]

theorem step_slotA {f : Boot} (hm : f.modeOf 1 0 = 0) (hv : imageAccepted f.slotA = true) :
    f.start.step f none 1 0 0 = underWay f.record 0 false 0 [⟨1, 0, 0, 1⟩, ⟨1, 0, 0, 2⟩] := by
  simp [Start.step, Boot.start, underWay, hm, Boot.verifies, hv, Start.done]

theorem step_slotA_fails {f : Boot} (hm : f.modeOf 1 0 = 0) (hv : imageAccepted f.slotA = false) :
    f.start.step f none 1 0 0 = { f.start with journal := [⟨1, 0, 0, 1⟩], stopped := true } := by
  simp [Start.step, Boot.start, hm, Boot.verifies, hv]

theorem step_slotB {f : Boot} (hm : f.modeOf 1 0 = 1) (hv : imageAccepted f.slotB = true) :
    f.start.step f none 1 0 0 = underWay f.record 1 true 0 [⟨1, 0, 1, 1⟩, ⟨1, 0, 1, 2⟩] := by
  simp [Start.step, Boot.start, underWay, hm, Boot.verifies, hv, Start.done]

theorem run_of_stopped {f : Boot} {b : Start} (h1 : f.start.step f none 1 0 0 = b) (h : b.stopped = true) :
    f.run none = b := by
  rw [run_eq, runSteps_cons, h1]
  simp only [runSteps_stopped f h]

/-! ## Verification (R356, R357) -/

theorem signedByMaker_iff (key message sig : List Byte) : signedByMaker key message sig = true ↔ MakerSigned key message sig := by
  simp [signedByMaker, MakerSigned, and_assoc]

/-- A core that the record lets into service is in its sets, and on a die of its form. -/
theorem lets_iff (r : ConfigRecord) (core : Nat) : r.lets core = true ↔
    core / 32 ∈ formDies r.form ∧ r.coreSet.getLsbD core = true ∧ r.clusterSet.getLsbD (core / 2) = true := by
  simp [ConfigRecord.lets, dieOf, and_assoc]

/-! ## The report (R360, R361) -/

theorem leBytes_length (n v : Nat) : (leBytes n v).length = n := by simp [leBytes]

theorem leBytes_succ (n v : Nat) : leBytes (n + 1) v = BitVec.ofNat 8 v :: leBytes n (v / 256) := by
  simp [leBytes, List.range_succ_eq_map, Nat.pow_succ', Nat.div_div_eq_div_mul, Function.comp_def]

theorem leNat_leBytes : ∀ n v : Nat, leNat (leBytes n v) = v % 256 ^ n
  | 0, v => by simp [leBytes, leNat, Nat.mod_one]
  | n + 1, v => by
    rw [leBytes_succ, leNat, leNat_leBytes n, BitVec.toNat_ofNat, pow_succ' 256 n, Nat.mod_mul]

theorem leNat_leBytes_toNat {w : Nat} (n : Nat) (v : BitVec w) (h : 2 ^ w ≤ 256 ^ n) : leNat (leBytes n v.toNat) = v.toNat := by
  rw [leNat_leBytes, Nat.mod_eq_of_lt (Nat.lt_of_lt_of_le v.isLt h)]

theorem measured_length (m : Measured) : m.bytes.length = 192 := by
  simp [Measured.bytes, shake256_length]

theorem ed448Sign_length (key message : List Byte) : (ed448Sign key message).length = 114 := by
  simp only [ed448Sign, EdPoint.bytes, List.length_append, leBytes_length]

/-- One part of a concatenation. -/
theorem flatten_part {α : Type} (L : List (List α)) (i : Nat) (h : i < L.length) {a n : Nat}
    (ha : ((L.map List.length).take i).sum = a) (hn : ((L.map List.length).take (i + 1)).sum = a + n) :
    (L.flatten.drop a).take n = L[i] := by
  have hpart := List.drop_take_succ_flatten_eq_getElem L i h
  rw [ha, hn, List.drop_take, Nat.add_sub_cancel_left] at hpart
  exact hpart

/-- The three measurements in a report; zeros when the start took none. -/
def measuredBytes (b : Boot) : List Byte :=
  match b.measured with
  | some m => m.bytes
  | none => List.replicate 192 0

theorem measuredBytes_length (b : Boot) : (measuredBytes b).length = 192 := by
  unfold measuredBytes
  split
  · exact measured_length _
  · exact List.length_replicate

/-- The parts of a report that the identity key signs. -/
def signedParts (b : Boot) (dev : Word) (nonce : List DWord) : List (List Byte) :=
  [leBytes 4 1, leBytes 4 dev.toNat, leBytes 8 b.bootstat.toNat, measuredBytes b] ++
    (List.range 4).map (fun k => leBytes 8 (nonce.getD k 0).toNat) ++ [List.replicate 16 0]

/-- The parts of a report. -/
def reportParts (b : Boot) (dev : Word) (nonce : List DWord) : List (List Byte) :=
  signedParts b dev nonce ++ [ed448Sign b.identityKey (signedParts b dev nonce).flatten, List.replicate 14 0]

theorem report_eq (b : Boot) (dev : Word) (nonce : List DWord) : b.report dev nonce = (reportParts b dev nonce).flatten := by
  have head : (signedParts b dev nonce).flatten = leBytes 4 1 ++ leBytes 4 dev.toNat ++ leBytes 8 b.bootstat.toNat ++
      measuredBytes b ++ (List.range 4).flatMap (fun k => leBytes 8 (nonce.getD k 0).toNat) ++ List.replicate 16 0 := by
    simp [signedParts, List.flatMap]
  have hrep : b.report dev nonce = (signedParts b dev nonce).flatten ++
      ed448Sign b.identityKey (signedParts b dev nonce).flatten ++ List.replicate 14 0 := by rw [head]; rfl
  rw [hrep, reportParts, List.flatten_append]
  simp only [List.flatten_cons, List.flatten_nil, List.append_nil, List.append_assoc]

theorem reportParts_lengths (b : Boot) (dev : Word) (nonce : List DWord) :
    (reportParts b dev nonce).map List.length = [4, 4, 8, 192, 8, 8, 8, 8, 16, 114, 14] := by
  simp [reportParts, signedParts, leBytes_length, measuredBytes_length, ed448Sign_length, List.range_succ]

/-- A part of a report, by its place. -/
theorem report_part (b : Boot) (dev : Word) (nonce : List DWord) (i a n : Nat) (h : i < 11)
    (ha : (([4, 4, 8, 192, 8, 8, 8, 8, 16, 114, 14] : List Nat).take i).sum = a)
    (hn : (([4, 4, 8, 192, 8, 8, 8, 8, 16, 114, 14] : List Nat).take (i + 1)).sum = a + n) :
    ((b.report dev nonce).drop a).take n = (reportParts b dev nonce)[i]'h := by
  rw [← reportParts_lengths b dev nonce] at ha hn
  rw [report_eq]
  exact flatten_part (reportParts b dev nonce) i h ha hn

theorem report_length (b : Boot) (dev : Word) (nonce : List DWord) : (b.report dev nonce).length = 384 := by
  rw [report_eq, List.length_flatten, reportParts_lengths]
  rfl

/-- What the identity key signs are the bytes before its signature. -/
theorem report_signed (b : Boot) (dev : Word) (nonce : List DWord) :
    (b.report dev nonce).take 256 = (signedParts b dev nonce).flatten := by
  have h := List.take_sum_flatten (reportParts b dev nonce) 9
  rw [reportParts_lengths, ← report_eq] at h
  exact h

theorem report_nonce (b : Boot) (dev : Word) (nonce : List DWord) {k : Nat} (hk : k < 4) :
    leNat (((b.report dev nonce).drop (208 + 8 * k)).take 8) = (nonce.getD k 0).toNat := by
  have e : ((b.report dev nonce).drop (208 + 8 * k)).take 8 = leBytes 8 (nonce.getD k 0).toNat := by
    obtain rfl | rfl | rfl | rfl : k = 0 ∨ k = 1 ∨ k = 2 ∨ k = 3 := by omega
    · exact report_part b dev nonce 4 208 8 (by decide) rfl rfl
    · exact report_part b dev nonce 5 216 8 (by decide) rfl rfl
    · exact report_part b dev nonce 6 224 8 (by decide) rfl rfl
    · exact report_part b dev nonce 7 232 8 (by decide) rfl rfl
  rw [e, leNat_leBytes_toNat 8 _ (by decide)]

/-! ## Start-up -/

/-- A reset clears the package and keeps memory beneath the caches. -/
theorem packageReset_memory {s : State} (hedit : ∀ d ∈ s.dieUnits, ∀ g ∈ d.regions, g.edit = none) :
    let m := (((s.dieUnits.flatMap (·.regions)).foldl State.stopEdit s).loseSide).mem
    (s.msc = [] → m = s.mem) ∧
    (s.mem.wf = true → (∀ x ∈ s.msc, x.below.length = 192) → ∀ a, cellGet m a = cellGet s.mem a ∨
      ∃ x ∈ s.msc, x.line = a / 192 ∧ cellGet m a = x.below.getD (a % 192) 0) := by
  have hstop : (s.dieUnits.flatMap (·.regions)).foldl State.stopEdit s = s := by
    refine foldl_stopEdit_of_none _ s fun g hg => ?_
    obtain ⟨d, hd, hg⟩ := List.mem_flatMap.1 hg
    exact hedit d hd g hg
  rw [hstop, loseSide_mem]
  exact ⟨fun h => by rw [h]; rfl, fun hm hlen a => foldl_loseLine a s.msc s hm hlen⟩

/-- BOOTSTAT after a package's start with every stack: in primary mode, and with slot B (R359). -/
theorem stat_full (r : ConfigRecord) (j : List JournalEntry) (x : Option Measured) :
    ({ underWay r 0 false 0xFFF j with measured := x } : Start).stat = 0x10000FFF ∧
    ({ underWay r 1 true 0xFFF j with measured := x } : Start).stat = 0x12010FFF := by
  constructor <;> simp [Start.stat, underWay]

theorem startUp : StartUp := by
  refine ⟨fun s o => ⟨_, rfl, rfl, rfl, rfl, rfl, rfl, rfl, rfl, rfl, rfl, rfl, rfl, fun c hc => ?_, packageReset_memory⟩,
    fun i => signedByMaker_iff i.key i.body i.sig, fun r => signedByMaker_iff r.key r.record.bytes r.sig,
    fun r core hcore h => ?_, fun s ports hj hl hr hs => ⟨_, rfl, fun hA hv => ?_, fun hA => ?_⟩,
    fun s ports hj hl hr hs => ⟨_, rfl, fun hB hv => ?_⟩, fun s slot image => rfl, fun b dev nonce => ?_⟩
  · simp [State.core, Config.cores, List.getD_eq_getElem?_getD, hc]
  · obtain ⟨hform, hset⟩ := (lets_iff r core).1 h
    refine ⟨hset.1, hset.2, fun hf => ?_⟩
    rw [hf] at hform
    simp [formDies] at hform
    omega
  · obtain ⟨j1, j2, hrun⟩ := run_of_first (fun step unit _ => modeOf_fresh hj hl step unit)
      (step_slotA (modeOf_fresh hj hl 1 0) hA) hv hr hs
    dsimp only
    rw [hrun]
    exact ⟨(stat_full _ _ _).1, rfl, congrArg formLimit hr, rfl, j2, rfl⟩
  · have hrun := run_of_stopped (step_slotA_fails (modeOf_fresh hj hl 1 0) hA) rfl
    dsimp only
    rw [hrun]
    exact ⟨rfl, rfl, rfl⟩
  · obtain ⟨h1, hrest⟩ := modeOf_retry hj hl
    obtain ⟨j1, j2, hrun⟩ := run_of_first hrest (step_slotB h1 hB) hv hr hs
    dsimp only
    rw [hrun]
    exact (stat_full _ _ _).2
  · refine ⟨?_, ?_, ?_, fun m hm => ⟨?_, fun k hk => report_nonce b dev nonce hk, report_length b dev nonce, ?_⟩⟩
    · rw [← List.drop_zero (l := b.report dev nonce), report_part b dev nonce 0 0 4 (by decide) rfl rfl]
      exact leNat_leBytes 4 1
    · rw [report_part b dev nonce 1 4 4 (by decide) rfl rfl]
      exact leNat_leBytes_toNat 4 dev (by decide)
    · rw [report_part b dev nonce 2 8 8 (by decide) rfl rfl]
      exact leNat_leBytes_toNat 8 b.bootstat (by decide)
    · rw [report_part b dev nonce 3 16 192 (by decide) rfl rfl]
      change measuredBytes b = _
      rw [measuredBytes, hm]
    · rw [report_signed, report_part b dev nonce 9 256 114 (by decide) rfl rfl]
      rfl

end Sys2Proof.Claim
end

section
/-!
SUPPORT. The reset of a cluster can miss a launch where two companies bear one number (R235, R362).
-/
namespace Sys2Proof.Claim

open Sys2Proof.Machine

/-- Two companies that bear the number 1: one of launch 3 on core 0, whose last troupe has retired, and one of launch 4 on core 1. The
machine gives each company a number of its own (`State.fresh`), but the statement asks nothing of them. -/
def sharedNumber : State :=
  { State.reset with
    companies := [{ newCompany 1 3 0 0 0 placeLaunchHeader [] with retiredF1 := [0] }, newCompany 1 4 0 1 0 placeLaunchHeader []]
    rm := { Ringmaster.reset with launches :=
      [newLaunch 3 0 0 0 0 placeLaunchHeader 0 0 0, newLaunch 4 0 0 0 0 placeLaunchHeader 0 0 0] } }

/-- How a launch ends in the next state of a step. -/
def endingAfter (lid : Nat) (r : Host.Outcome State Fault Refusal) : Option Nat :=
  match r with
  | .next s => (s.launch? lid).bind (·.ending)
  | _ => none

/-- The reset of core 0 retires the company there by its number, with which the one on core 1 leaves its core too. The reset of core 1
then finds no company there, and launch 4 goes on. -/
theorem clusterReset_sharedNumber : endingAfter 4 (exec (.clusterReset 0 .hung) sharedNumber) = none := by
  decide +kernel

/-- The launch of a company that stood on the cluster goes on, where another company of its number retires first. -/
theorem not_clusterReset : ¬ ClusterReset := by
  intro h
  obtain ⟨s', hexec, -, -, -, -, hends, -⟩ := h sharedNumber 0 .hung (by decide) rfl
  obtain ⟨l', hl', hend⟩ := hends (by decide) (newCompany 1 4 0 1 0 placeLaunchHeader []) (by decide) (.inr rfl)
    (newLaunch 4 0 0 0 0 placeLaunchHeader 0 0 0) rfl rfl rfl
  have hnone : endingAfter 4 (exec (.clusterReset 0 .hung) sharedNumber) = some 6 := by
    rw [hexec]
    change (s'.launch? 4).bind _ = _
    rw [show s'.launch? 4 = some l' from hl']
    exact hend
  rw [clusterReset_sharedNumber] at hnone
  exact absurd hnone (by decide)

/-- Refutes O49: in `sharedNumber`, where two companies on one cluster bear the same number, the reset of the cluster leaves the launch
of one of them running. The part about start-up holds (`startUp`). -/
theorem not_resetEvents : ¬ Obligations.ResetEvents := fun h => not_clusterReset h.1

end Sys2Proof.Claim
end

section
/-!
SUPPORT. The number formats: what a code's fields are, what it decodes to, and that a format's own values round to
themselves (R8, R10, R11, R13, R20).
-/
namespace Sys2Proof.Claim

open Sys2Proof.Machine

/-! ## The fields of a code (R8) -/

/-- The fields of exponent and fraction of a code. -/
def expField (F : FloatFmt) (c : Nat) : Nat := c / 2 ^ F.mbits % 2 ^ F.ebits
def fracField (F : FloatFmt) (c : Nat) : Nat := c % 2 ^ F.mbits
def signField (F : FloatFmt) (c : Nat) : Bool := c / 2 ^ (F.ebits + F.mbits) % 2 == 1

theorem fracField_lt (F : FloatFmt) (c : Nat) : fracField F c < 2 ^ F.mbits := Nat.mod_lt _ (by positivity)

theorem expField_lt (F : FloatFmt) (c : Nat) : expField F c < 2 ^ F.ebits := Nat.mod_lt _ (by positivity)

theorem magnitude_eq (F : FloatFmt) (c : Nat) :
    c % 2 ^ (F.ebits + F.mbits) = expField F c * 2 ^ F.mbits + fracField F c := by
  rw [Nat.add_comm F.ebits, pow_add, Nat.mod_mul, expField, fracField]
  ring

theorem code_eq (F : FloatFmt) {c : Nat} (h : c < 2 ^ F.width) :
    F.signBit (signField F c) + (expField F c * 2 ^ F.mbits + fracField F c) = c := by
  have hlt : c / 2 ^ (F.ebits + F.mbits) < 2 := by
    rw [Nat.div_lt_iff_lt_mul (by positivity), ← pow_succ']
    simpa [FloatFmt.width, add_comm, add_left_comm, add_assoc] using h
  have hsplit := Nat.div_add_mod c (2 ^ (F.ebits + F.mbits))
  rw [magnitude_eq] at hsplit
  obtain h0 | h1 : c / 2 ^ (F.ebits + F.mbits) = 0 ∨ c / 2 ^ (F.ebits + F.mbits) = 1 := by
    generalize c / 2 ^ (F.ebits + F.mbits) = q at hlt
    omega
  · rw [h0] at hsplit; simpa [signField, FloatFmt.signBit, h0] using hsplit
  · rw [h1] at hsplit; simpa [signField, FloatFmt.signBit, h1] using hsplit

/-- The value of a code below the top exponent. -/
def finiteOf (F : FloatFmt) (c : Nat) : Val :=
  if expField F c = 0 then .fin (signField F c) (fracField F c) (F.emin - F.mbits)
  else .fin (signField F c) (2 ^ F.mbits + fracField F c) ((expField F c : Int) - F.bias - F.mbits)

theorem decode_ieee {F : FloatFmt} (hF : F.top = .ieee) (c : Nat) :
    F.decode c = if expField F c = 2 ^ F.ebits - 1 then
      if fracField F c = 0 then .inf (signField F c) else .nan (fracField F c < 2 ^ (F.mbits - 1))
    else finiteOf F c := by
  simp only [FloatFmt.decode, hF]; rfl

theorem decode_e4m3 {F : FloatFmt} (hF : F.top = .e4m3) (c : Nat) :
    F.decode c = if expField F c = 2 ^ F.ebits - 1 ∧ fracField F c = 2 ^ F.mbits - 1 then .nan false else finiteOf F c := by
  simp only [FloatFmt.decode, hF]; rfl

theorem decode_finite {F : FloatFmt} (hF : F.top = .finite) (c : Nat) : F.decode c = finiteOf F c := by
  simp only [FloatFmt.decode, hF]; rfl

/-! ## NaNs, infinities and finite codes of the IEEE formats (R9, R11) -/

theorem isNan_iff (F : FloatFmt) (c : Nat) :
    isNan F.ebits F.mbits c = true ↔ expField F c = 2 ^ F.ebits - 1 ∧ fracField F c ≠ 0 := by
  have hf := fracField_lt F c
  have he : expField F c ≤ 2 ^ F.ebits - 1 := Nat.le_sub_one_of_lt (expField_lt F c)
  rw [isNan, decide_eq_true_iff, magnitude_eq]
  constructor
  · intro h
    have : expField F c = 2 ^ F.ebits - 1 := by
      by_contra hne
      have : (expField F c + 1) * 2 ^ F.mbits ≤ (2 ^ F.ebits - 1) * 2 ^ F.mbits := Nat.mul_le_mul_right _ (by omega)
      rw [add_mul] at this
      omega
    exact ⟨this, by rintro h0; rw [this, h0] at h; omega⟩
  · rintro ⟨h, h0⟩
    rw [h]; omega

theorem isFinite_iff (F : FloatFmt) (c : Nat) :
    isFinite F.ebits F.mbits c = true ↔ expField F c ≠ 2 ^ F.ebits - 1 := by
  have hf := fracField_lt F c
  have he : expField F c ≤ 2 ^ F.ebits - 1 := Nat.le_sub_one_of_lt (expField_lt F c)
  rw [isFinite, decide_eq_true_iff, magnitude_eq]
  constructor
  · rintro h heq
    rw [heq] at h; omega
  · intro h
    have : (expField F c + 1) * 2 ^ F.mbits ≤ (2 ^ F.ebits - 1) * 2 ^ F.mbits := Nat.mul_le_mul_right _ (by omega)
    rw [add_mul] at this
    omega

theorem topFractionBit_eq_zero_iff {F : FloatFmt} (hM : 0 < F.mbits) (c : Nat) :
    c / 2 ^ (F.mbits - 1) % 2 = 0 ↔ fracField F c < 2 ^ (F.mbits - 1) := by
  obtain ⟨m, hm⟩ : ∃ m, F.mbits = m + 1 := ⟨F.mbits - 1, by omega⟩
  have hlow := Nat.mod_lt c (show 0 < 2 ^ m by positivity)
  rw [fracField, hm, pow_succ, Nat.mod_mul, Nat.add_sub_cancel]
  obtain h | h : c / 2 ^ m % 2 = 0 ∨ c / 2 ^ m % 2 = 1 := by omega
  all_goals simp [h, hlow]

theorem decode_of_isNan {F : FloatFmt} (hF : F.top = .ieee) (hM : 0 < F.mbits) {c : Nat} (h : isNan F.ebits F.mbits c = true) :
    F.decode c = .nan (isSignalling F.ebits F.mbits c) := by
  obtain ⟨he, hf⟩ := (isNan_iff F c).mp h
  simp [decode_ieee hF, he, hf, isSignalling, h, topFractionBit_eq_zero_iff hM]

theorem isNaN_decode {F : FloatFmt} (hF : F.top = .ieee) (c : Nat) :
    (F.decode c).isNaN = isNan F.ebits F.mbits c := by
  rw [Bool.eq_iff_iff, isNan_iff, decode_ieee hF, finiteOf]
  split_ifs <;> simp_all [Val.isNaN]

theorem isSig_decode {F : FloatFmt} (hF : F.top = .ieee) (hM : 0 < F.mbits) (c : Nat) :
    (F.decode c).isSig = isSignalling F.ebits F.mbits c := by
  by_cases h : isNan F.ebits F.mbits c = true
  · rw [decode_of_isNan hF hM h]; rfl
  · have hn := isNaN_decode hF c
    rw [Bool.eq_false_iff.mpr h] at hn
    have hs : (F.decode c).isSig = false := by
      generalize F.decode c = v at hn
      cases v <;> simp_all [Val.isNaN, Val.isSig]
    simp [hs, isSignalling, Bool.eq_false_iff.mpr h]

theorem decode_infinity {F : FloatFmt} (hF : F.top = .ieee) (neg : Bool) :
    F.decode (infinity F.ebits F.mbits neg) = .inf neg := by
  have hE : 0 < 2 ^ F.ebits := by positivity
  have hM : 0 < 2 ^ F.mbits := by positivity
  have hsum : infinity F.ebits F.mbits neg
      = 2 ^ F.mbits * ((2 ^ F.ebits - 1) + 2 ^ F.ebits * neg.toNat) := by
    cases neg <;> simp [infinity, pow_add] <;> ring
  have hfrac : fracField F (infinity F.ebits F.mbits neg) = 0 := by simp [fracField, hsum]
  have hexp : expField F (infinity F.ebits F.mbits neg) = 2 ^ F.ebits - 1 := by
    rw [expField, hsum, Nat.mul_div_cancel_left _ hM, Nat.add_mul_mod_self_left, Nat.mod_eq_of_lt (by omega)]
  have hsign : signField F (infinity F.ebits F.mbits neg) = neg := by
    have : infinity F.ebits F.mbits neg / 2 ^ (F.ebits + F.mbits) = neg.toNat := by
      rw [add_comm, pow_add, ← Nat.div_div_eq_div_mul, hsum, Nat.mul_div_cancel_left _ hM,
        Nat.add_mul_div_left _ _ hE, Nat.div_eq_of_lt (by omega), zero_add]
    rw [signField, this]; cases neg <;> rfl
  simp [decode_ieee hF, hfrac, hexp, hsign]

theorem canonicalNan_eq {F : FloatFmt} (hF : F.top = .ieee) (hM : 0 < F.mbits) : canonicalNan F.ebits F.mbits = F.nanCode := by
  obtain ⟨m, hm⟩ : ∃ m, F.mbits = m + 1 := ⟨F.mbits - 1, by omega⟩
  have hE : 0 < 2 ^ F.ebits := by positivity
  simp only [canonicalNan, FloatFmt.nanCode, hF, hm, Nat.add_sub_cancel, pow_succ]
  obtain ⟨k, hk⟩ : ∃ k, 2 ^ F.ebits = k + 1 := ⟨2 ^ F.ebits - 1, by omega⟩
  rw [hk, show (k + 1) * 2 - 1 = 2 * k + 1 by omega, Nat.add_sub_cancel]
  ring

theorem finiteOf_zero (F : FloatFmt) : finiteOf F 0 = .fin false 0 (F.emin - F.mbits) := by
  simp [finiteOf, expField, fracField, signField]

theorem finiteOf_negZero (F : FloatFmt) : finiteOf F (2 ^ (F.ebits + F.mbits)) = .fin true 0 (F.emin - F.mbits) := by
  have h1 : expField F (2 ^ (F.ebits + F.mbits)) = 0 := by simp [expField, pow_add]
  have h2 : fracField F (2 ^ (F.ebits + F.mbits)) = 0 := by simp [fracField, pow_add]
  have h3 : signField F (2 ^ (F.ebits + F.mbits)) = true := by simp [signField, Nat.div_self]
  simp [finiteOf, h1, h2, h3]

theorem decode_of_isFinite {F : FloatFmt} (hF : F.top = .ieee) {c : Nat} (h : isFinite F.ebits F.mbits c = true) :
    F.decode c = finiteOf F c := by
  rw [decode_ieee hF, if_neg ((isFinite_iff F c).mp h)]

/-! ## A value of a format is its own rounding (R10) -/

/-- A code's fields are those of a finite value: its magnitude is no more than the largest one's. -/
def FiniteFields (F : FloatFmt) (ex frac : Nat) : Prop :=
  ex < 2 ^ F.ebits ∧ frac < 2 ^ F.mbits ∧ match F.top with
    | .ieee => ex ≠ 2 ^ F.ebits - 1
    | .e4m3 => ¬ (ex = 2 ^ F.ebits - 1 ∧ frac = 2 ^ F.mbits - 1)
    | .finite => True

/-- Rounding to a quantum that is the value's own unit changes nothing. -/
theorem roundQuantum_self (mode : Mode) (r : Nat) (neg : Bool) (m : Nat) (e : Int) :
    roundQuantum mode r neg m e false e = (m, false) := by simp [roundQuantum]

theorem log2_mantissa {M frac : Nat} (h : frac < 2 ^ M) : (2 ^ M + frac).log2 = M := by
  rw [Nat.log2_eq_iff (by positivity), pow_succ]
  omega

theorem roundFin_of_quantum {F : FloatFmt} {m : Nat} {e : Int} (mode : Mode) (r : Nat) (sat neg : Bool) (hm : m ≠ 0)
    (hq : max ((m.log2 : Int) + e) F.emin - F.mbits = e) (hle : magLe m e F.largest.1 F.largest.2 = true) :
    F.roundFin mode r sat neg m e = ⟨F.signBit neg + F.encodeMag m e, 0⟩ := by
  simp [FloatFmt.roundFin, hm, hq, roundQuantum_self, hle]

theorem two_pow_ge_four {n : Nat} (h : 2 ≤ n) : 4 ≤ 2 ^ n := by
  simpa using Nat.pow_le_pow_right (show 0 < 2 by decide) h

theorem two_pow_ge_two {n : Nat} (h : 1 ≤ n) : 2 ≤ 2 ^ n := by
  simpa using Nat.pow_le_pow_right (show 0 < 2 by decide) h

/-- Of magnitudes with one unit each, the one with the larger unit is larger if its mantissa has its top bit. -/
theorem magLe_of_exp_lt {m m' : Nat} {e e' : Int} (he : e < e') (hm : m ≤ 2 * m') : magLe m e m' e' = true := by
  obtain ⟨k, hk⟩ : ∃ k, (e' - e).toNat = k + 1 := ⟨(e' - e).toNat - 1, by omega⟩
  have hp : 1 ≤ 2 ^ k := Nat.one_le_two_pow
  have : m ≤ m' * 2 ^ (k + 1) := by
    calc m ≤ 2 * m' := hm
      _ = 2 * m' * 1 := by ring
      _ ≤ 2 * m' * 2 ^ k := Nat.mul_le_mul_left _ hp
      _ = m' * 2 ^ (k + 1) := by ring
  simp [magLe, he.le, hk, this]

theorem magLe_self_exp (m m' : Nat) (e : Int) : magLe m e m' e = decide (m ≤ m') := by simp [magLe]

theorem magLe_largest {F : FloatFmt} {ex frac : Nat} (hE : 2 ≤ F.ebits) (hM : 1 ≤ F.mbits) (h : FiniteFields F ex frac) :
    magLe frac (F.emin - F.mbits) F.largest.1 F.largest.2 = true ∧
    (ex ≠ 0 → magLe (2 ^ F.mbits + frac) ((ex : Int) - F.bias - F.mbits) F.largest.1 F.largest.2 = true) := by
  obtain ⟨hex, hfrac, htop⟩ := h
  have hE4 := two_pow_ge_four hE
  have hM2 := two_pow_ge_two hM
  constructor
  · by_cases hlt : F.emin - F.mbits < F.largest.2
    · refine magLe_of_exp_lt hlt ?_
      cases ht : F.top <;> simp only [FloatFmt.largest, ht, pow_succ] <;> omega
    · cases ht : F.top <;> simp only [FloatFmt.largest, ht, FloatFmt.emin] at hlt <;> omega
  · intro h0
    by_cases hlt : (ex : Int) - F.bias - F.mbits < F.largest.2
    · refine magLe_of_exp_lt hlt ?_
      cases ht : F.top <;> simp only [FloatFmt.largest, ht, pow_succ] <;> omega
    · have heq : (ex : Int) - F.bias - F.mbits = F.largest.2 := by
        cases ht : F.top <;> simp only [FloatFmt.largest, ht] at hlt htop ⊢ <;> omega
      rw [heq, magLe_self_exp, decide_eq_true_iff]
      cases ht : F.top <;> simp only [FloatFmt.largest, ht, pow_succ] at heq htop ⊢ <;> omega

theorem encodeMag_subnormal {F : FloatFmt} {frac : Nat} (hf : frac < 2 ^ F.mbits) :
    F.encodeMag frac (F.emin - F.mbits) = frac := by
  by_cases h0 : frac = 0
  · simp [FloatFmt.encodeMag, h0]
  · have hlg : frac.log2 < F.mbits := (Nat.log2_lt h0).mpr hf
    have : (frac.log2 : Int) + (F.emin - F.mbits) < F.emin := by omega
    simp [FloatFmt.encodeMag, h0, this]

theorem encodeMag_normal {F : FloatFmt} {ex frac : Nat} (h0 : ex ≠ 0) (hf : frac < 2 ^ F.mbits) :
    F.encodeMag (2 ^ F.mbits + frac) ((ex : Int) - F.bias - F.mbits) = ex * 2 ^ F.mbits + frac := by
  have hne : 2 ^ F.mbits + frac ≠ 0 := by positivity
  have hex : ((F.mbits : Nat) : Int) + ((ex : Int) - F.bias - F.mbits) = ex - F.bias := by ring
  have hmin : ¬ (ex : Int) - F.bias < F.emin := by simp only [FloatFmt.emin]; omega
  simp [FloatFmt.encodeMag, log2_mantissa hf, hex, hmin]

theorem round_finiteOf {F : FloatFmt} (hE : 2 ≤ F.ebits) (hM : 1 ≤ F.mbits) (mode : Mode) (r : Nat) (sat : Bool) {c : Nat}
    (hc : c < 2 ^ F.width) (h : FiniteFields F (expField F c) (fracField F c)) :
    F.round mode r sat (finiteOf F c) = ⟨c, 0⟩ := by
  have hf := fracField_lt F c
  obtain ⟨hsub, hnorm⟩ := magLe_largest hE hM h
  conv => rhs; rw [← code_eq F hc]
  by_cases hex : expField F c = 0
  · simp only [finiteOf, hex, if_true, FloatFmt.round, Nat.zero_mul, Nat.zero_add]
    by_cases h0 : fracField F c = 0
    · simp [FloatFmt.roundFin, h0]
    · have hlg : (fracField F c).log2 < F.mbits := (Nat.log2_lt h0).mpr hf
      rw [roundFin_of_quantum mode r sat _ h0 (by omega) hsub, encodeMag_subnormal hf]
  · simp only [finiteOf, hex, if_false, FloatFmt.round]
    have hq : max (((2 ^ F.mbits + fracField F c).log2 : Int) + ((expField F c : Int) - F.bias - F.mbits)) F.emin - F.mbits
        = (expField F c : Int) - F.bias - F.mbits := by
      rw [log2_mantissa hf]; simp only [FloatFmt.emin]; omega
    rw [roundFin_of_quantum mode r sat _ (by positivity) hq (hnorm hex), encodeMag_normal hex hf]

end Sys2Proof.Claim
end

section
/-!
The obligation on the values of the number formats: the special values of their arithmetic, and exact rounding (R10, R11,
R101, R105).
-/
namespace Sys2Proof.Claim

open Sys2Proof.Machine

/-! ## NaN operands (R11, R101) -/

theorem add_of_isNaN {a b : Val} (h : a.isNaN = true ∨ b.isNaN = true) : a.add b = ⟨.nan false, a.isSig || b.isSig⟩ := by
  cases a <;> cases b <;> simp_all [Val.isNaN, Val.add]

theorem mul_of_isNaN {a b : Val} (h : a.isNaN = true ∨ b.isNaN = true) : a.mul b = ⟨.nan false, a.isSig || b.isSig⟩ := by
  cases a <;> cases b <;> simp_all [Val.isNaN, Val.mul]

theorem finish_nan {F : FloatFmt} (hF : F.top = .ieee) (hM : 0 < F.mbits) (nv : Bool) :
    F.finish ⟨.nan false, nv⟩ = ⟨canonicalNan F.ebits F.mbits, invalidIf nv⟩ := by
  simp only [FloatFmt.finish, FloatFmt.round, hF, canonicalNan_eq hF hM]
  cases nv <;> rfl

theorem finish_zero (F : FloatFmt) (neg : Bool) (e : Int) : F.finish ⟨.fin neg 0 e, false⟩ = ⟨F.signBit neg, 0⟩ := by
  simp [FloatFmt.finish, FloatFmt.round, FloatFmt.roundFin, nvFlag]

/-! ## Sums that are exactly zero -/

theorem add_neg_self (n : Bool) (m : Nat) (e : Int) : (Val.fin n m e).add (Val.fin n m e).neg = ⟨.fin false 0 e, false⟩ := by
  cases n <;> simp [Val.add, Val.neg, scaledInt]

section ieee
variable {F : FloatFmt} (hF : F.top = .ieee)
include hF

theorem decode_zero_ieee (hE : 0 < F.ebits) : F.decode 0 = .fin false 0 (F.emin - F.mbits) := by
  have : 2 ≤ 2 ^ F.ebits := two_pow_ge_two hE
  rw [decode_of_isFinite hF (by rw [isFinite_iff]; simp only [expField, Nat.zero_div, Nat.zero_mod]; omega), finiteOf_zero]

theorem decode_negZero_ieee (hE : 0 < F.ebits) : F.decode (2 ^ (F.ebits + F.mbits)) = .fin true 0 (F.emin - F.mbits) := by
  have h2 : 2 ≤ 2 ^ F.ebits := two_pow_ge_two hE
  have h0 : expField F (2 ^ (F.ebits + F.mbits)) = 0 := by simp [expField, pow_add]
  rw [decode_of_isFinite hF (by rw [isFinite_iff, h0]; omega), finiteOf_negZero]

theorem float_add_nan (hM : 0 < F.mbits) {a b : Nat} (h : (isNan F.ebits F.mbits a || isNan F.ebits F.mbits b) = true) :
    F.add a b = ⟨canonicalNan F.ebits F.mbits, invalidIf (isSignalling F.ebits F.mbits a || isSignalling F.ebits F.mbits b)⟩ := by
  simp only [Bool.or_eq_true, ← isNaN_decode hF] at h
  rw [FloatFmt.add, add_of_isNaN h, finish_nan hF hM, isSig_decode hF hM, isSig_decode hF hM]

theorem float_mul_nan (hM : 0 < F.mbits) {a b : Nat} (h : (isNan F.ebits F.mbits a || isNan F.ebits F.mbits b) = true) :
    F.mul a b = ⟨canonicalNan F.ebits F.mbits, invalidIf (isSignalling F.ebits F.mbits a || isSignalling F.ebits F.mbits b)⟩ := by
  simp only [Bool.or_eq_true, ← isNaN_decode hF] at h
  rw [FloatFmt.mul, mul_of_isNaN h, finish_nan hF hM, isSig_decode hF hM, isSig_decode hF hM]

/-! ## inf - inf and 0 * inf -/

theorem float_add_inf_negInf (hM : 0 < F.mbits) :
    F.add (infinity F.ebits F.mbits false) (infinity F.ebits F.mbits true) = ⟨canonicalNan F.ebits F.mbits, 1⟩ := by
  rw [FloatFmt.add, decode_infinity hF, decode_infinity hF]
  exact finish_nan hF hM true

theorem float_sub_inf_inf (hM : 0 < F.mbits) :
    F.sub (infinity F.ebits F.mbits false) (infinity F.ebits F.mbits false) = ⟨canonicalNan F.ebits F.mbits, 1⟩ := by
  rw [FloatFmt.sub, decode_infinity hF]
  exact finish_nan hF hM true

theorem mul_zero_inf (hE : 0 < F.ebits) (neg : Bool) : (F.decode 0).mul (F.decode (infinity F.ebits F.mbits neg)) = ⟨.nan false, true⟩ := by
  rw [decode_zero_ieee hF hE, decode_infinity hF]; rfl

theorem float_mul_zero_inf (hE : 0 < F.ebits) (hM : 0 < F.mbits) (neg : Bool) :
    F.mul 0 (infinity F.ebits F.mbits neg) = ⟨canonicalNan F.ebits F.mbits, 1⟩ := by
  rw [FloatFmt.mul, mul_zero_inf hF hE]
  exact finish_nan hF hM true

/-- 0 * inf is invalid whatever is added, a NaN among them. -/
theorem float_fma_zero_inf (hE : 0 < F.ebits) (hM : 0 < F.mbits) (neg : Bool) (c : Nat) :
    F.fma 0 (infinity F.ebits F.mbits neg) c = ⟨canonicalNan F.ebits F.mbits, 1⟩ := by
  simp only [FloatFmt.fma, mul_zero_inf hF hE, add_of_isNaN (Or.inl (rfl : (Val.nan false).isNaN = true)), Bool.true_or]
  exact finish_nan hF hM true

theorem float_sub_self {a : Nat} (h : isFinite F.ebits F.mbits a = true) : F.sub a a = ⟨0, 0⟩ := by
  obtain ⟨n, m, e, hd⟩ : ∃ n m e, F.decode a = .fin n m e := by
    rw [decode_of_isFinite hF h, finiteOf]; split <;> exact ⟨_, _, _, rfl⟩
  rw [FloatFmt.sub, hd, add_neg_self, finish_zero]; rfl

theorem float_add_negZero_negZero (hE : 0 < F.ebits) :
    F.add (2 ^ (F.ebits + F.mbits)) (2 ^ (F.ebits + F.mbits)) = ⟨2 ^ (F.ebits + F.mbits), 0⟩ := by
  have : (Val.fin true 0 (F.emin - F.mbits)).add (.fin true 0 (F.emin - F.mbits)) = ⟨.fin true 0 (F.emin - F.mbits), false⟩ := by
    simp [Val.add, scaledInt]
  rw [FloatFmt.add, decode_negZero_ieee hF hE, this, finish_zero]; rfl

theorem float_sub_negZero_zero (hE : 0 < F.ebits) : F.sub (2 ^ (F.ebits + F.mbits)) 0 = ⟨2 ^ (F.ebits + F.mbits), 0⟩ := by
  have : (Val.fin true 0 (F.emin - F.mbits)).add (Val.fin false 0 (F.emin - F.mbits)).neg
      = ⟨.fin true 0 (F.emin - F.mbits), false⟩ := by
    simp [Val.add, Val.neg, scaledInt]
  rw [FloatFmt.sub, decode_negZero_ieee hF hE, decode_zero_ieee hF hE, this, finish_zero]; rfl

end ieee

/-! ## The formats of the machine -/

theorem ieeeFormats_fields {F : FloatFmt} {E M : Nat} (h : (F, E, M) ∈ ieeeFormats) :
    F.top = .ieee ∧ E = F.ebits ∧ M = F.mbits ∧ 2 ≤ F.ebits ∧ 1 ≤ F.mbits :=
  (by decide : ∀ p ∈ ieeeFormats, p.1.top = .ieee ∧ p.2.1 = p.1.ebits ∧ p.2.2 = p.1.mbits ∧ 2 ≤ p.1.ebits ∧ 1 ≤ p.1.mbits) _ h

theorem noInfFormats_fields {F : FloatFmt} {w : Nat} (h : (F, w) ∈ [(e4m3, 8), (e2m3, 6), (e3m2, 6), (e2m1, 4)]) :
    F.top ≠ .ieee ∧ w = F.width ∧ 2 ≤ F.ebits ∧ 1 ≤ F.mbits :=
  (by decide : ∀ p ∈ [(e4m3, 8), (e2m3, 6), (e3m2, 6), (e2m1, 4)],
    p.1.top ≠ .ieee ∧ p.2 = p.1.width ∧ 2 ≤ p.1.ebits ∧ 1 ≤ p.1.mbits) _ h

theorem floatSpecialValues : FloatSpecialValues := by
  rintro ⟨F, E, M⟩ hp
  obtain ⟨hF, rfl, rfl, hE, hM⟩ := ieeeFormats_fields hp
  have hE' : 0 < F.ebits := by omega
  refine ⟨fun a b _ _ h => ?_, float_add_inf_negInf hF hM, float_sub_inf_inf hF hM,
    fun neg c _ => ⟨float_mul_zero_inf hF hE' hM neg, float_fma_zero_inf hF hE' hM neg c⟩,
    fun a _ h => float_sub_self hF h, float_add_negZero_negZero hF hE', float_sub_negZero_zero hF hE'⟩
  have h' := (Bool.or_eq_true _ _).mpr h
  exact ⟨float_add_nan hF hM h', float_mul_nan hF hM h'⟩

theorem round_decode_ieee {F : FloatFmt} (hF : F.top = .ieee) (hE : 2 ≤ F.ebits) (hM : 1 ≤ F.mbits) (mode : Mode) (r : Nat)
    (sat : Bool) {c : Nat} (hc : c < 2 ^ F.width) (h : isFinite F.ebits F.mbits c = true) :
    F.round mode r sat (F.decode c) = ⟨c, 0⟩ := by
  rw [decode_of_isFinite hF h]
  refine round_finiteOf hE hM mode r sat hc ⟨expField_lt F c, fracField_lt F c, ?_⟩
  rw [hF]
  exact (isFinite_iff F c).mp h

/-- The formats without infinities: a code that is no NaN. -/
theorem round_decode_of_noInf {F : FloatFmt} (hF : F.top ≠ .ieee) (hE : 2 ≤ F.ebits) (hM : 1 ≤ F.mbits) (mode : Mode) (r : Nat)
    (sat : Bool) {c : Nat} (hc : c < 2 ^ F.width) (h : (F.decode c).isNaN = false) :
    F.round mode r sat (F.decode c) = ⟨c, 0⟩ := by
  cases ht : F.top with
  | ieee => exact absurd ht hF
  | finite =>
    rw [decode_finite ht]
    exact round_finiteOf hE hM mode r sat hc ⟨expField_lt F c, fracField_lt F c, by rw [ht]; trivial⟩
  | e4m3 =>
    rw [decode_e4m3 ht] at h ⊢
    split at h
    · cases h
    · next hfin =>
      rw [if_neg hfin]
      exact round_finiteOf hE hM mode r sat hc ⟨expField_lt F c, fracField_lt F c, by rw [ht]; exact hfin⟩

theorem formatsAreExact : FormatsAreExact := by
  constructor
  · rintro ⟨F, E, M⟩ hp c mode r hc h
    obtain ⟨hF, rfl, rfl, hE, hM⟩ := ieeeFormats_fields hp
    exact round_decode_ieee hF hE hM mode r false hc h
  · rintro ⟨F, w⟩ hp c mode r sat hc h
    obtain ⟨hF, rfl, hE, hM⟩ := noInfFormats_fields hp
    exact round_decode_of_noInf hF hE hM mode r sat hc h

/-- Settles O4: the special values of the formats' arithmetic, and that what a format holds is its own rounding. -/
theorem formatValues : Obligations.FormatValues := ⟨floatSpecialValues, formatsAreExact⟩

end Sys2Proof.Claim
end

section
/-!
SUPPORT. The order of the values of an IEEE format is the order of their codes (R33), so that MINNUM and MAXNUM of the
machine are those of the claims.
-/
namespace Sys2Proof.Claim

open Sys2Proof.Machine

/-! ## Values in units of the smallest subnormal -/

/-- A code's magnitude in units of the smallest subnormal. -/
def unitsOf (F : FloatFmt) (c : Nat) : Nat :=
  if expField F c = 0 then fracField F c else (2 ^ F.mbits + fracField F c) * 2 ^ (expField F c - 1)

/-- A magnitude with its sign. -/
def signed (neg : Bool) (n : Nat) : Int := if neg then -(n : Int) else n

theorem unitsOf_lt_of_expField_lt {F : FloatFmt} {a b : Nat} (h : expField F a < expField F b) : unitsOf F a < unitsOf F b := by
  have ha := fracField_lt F a
  have hb : unitsOf F b = (2 ^ F.mbits + fracField F b) * 2 ^ (expField F b - 1) := if_neg (by omega)
  have hlow : 2 ^ F.mbits * 2 ^ expField F a ≤ unitsOf F b := by
    rw [hb]
    exact Nat.mul_le_mul (Nat.le_add_right _ _) (Nat.pow_le_pow_right (by decide) (by omega))
  refine lt_of_lt_of_le ?_ hlow
  by_cases h0 : expField F a = 0
  · simpa [unitsOf, h0] using ha
  · obtain ⟨k, hk⟩ : ∃ k, expField F a = k + 1 := ⟨expField F a - 1, by omega⟩
    calc unitsOf F a = (2 ^ F.mbits + fracField F a) * 2 ^ k := by simp [unitsOf, hk]
      _ < (2 ^ F.mbits + 2 ^ F.mbits) * 2 ^ k := Nat.mul_lt_mul_of_pos_right (by omega) (by positivity)
      _ = 2 ^ F.mbits * 2 ^ expField F a := by rw [hk]; ring

theorem unitsOf_lt_of_fracField_lt {F : FloatFmt} {a b : Nat} (he : expField F a = expField F b)
    (h : fracField F a < fracField F b) : unitsOf F a < unitsOf F b := by
  by_cases h0 : expField F b = 0
  · simpa [unitsOf, he, h0] using h
  · simp only [unitsOf, he, h0, if_false]
    exact Nat.mul_lt_mul_of_pos_right (by omega) (by positivity)

theorem unitsOf_lt_of_magnitude_lt {F : FloatFmt} {a b : Nat}
    (h : a % 2 ^ (F.ebits + F.mbits) < b % 2 ^ (F.ebits + F.mbits)) : unitsOf F a < unitsOf F b := by
  rw [magnitude_eq, magnitude_eq] at h
  have hb := fracField_lt F b
  obtain hlt | heq | hgt := lt_trichotomy (expField F a) (expField F b)
  · exact unitsOf_lt_of_expField_lt hlt
  · rw [heq] at h
    exact unitsOf_lt_of_fracField_lt heq (by omega)
  · have : (expField F b + 1) * 2 ^ F.mbits ≤ expField F a * 2 ^ F.mbits := Nat.mul_le_mul_right _ hgt
    rw [add_mul] at this
    omega

theorem unitsOf_congr {F : FloatFmt} {a b : Nat}
    (h : a % 2 ^ (F.ebits + F.mbits) = b % 2 ^ (F.ebits + F.mbits)) : unitsOf F a = unitsOf F b := by
  have hf : fracField F a = fracField F b := by
    have hdvd : 2 ^ F.mbits ∣ 2 ^ (F.ebits + F.mbits) := pow_dvd_pow 2 (Nat.le_add_left _ _)
    rw [fracField, fracField, ← Nat.mod_mod_of_dvd a hdvd, h, Nat.mod_mod_of_dvd b hdvd]
  have he : expField F a = expField F b := by
    rw [magnitude_eq, magnitude_eq, hf] at h
    exact Nat.eq_of_mul_eq_mul_right (by positivity) (Nat.add_right_cancel h)
  simp [unitsOf, he, hf]

theorem unitsOf_lt_iff (F : FloatFmt) (a b : Nat) :
    unitsOf F a < unitsOf F b ↔ a % 2 ^ (F.ebits + F.mbits) < b % 2 ^ (F.ebits + F.mbits) := by
  refine ⟨fun h => ?_, unitsOf_lt_of_magnitude_lt⟩
  by_contra hle
  obtain heq | hlt := (not_lt.mp hle).eq_or_lt
  · exact absurd (unitsOf_congr heq) h.ne'
  · exact absurd (unitsOf_lt_of_magnitude_lt hlt) h.le.not_gt

/-- A finite value has its magnitude in units, at an exponent no less than the unit's. -/
theorem finiteOf_units (F : FloatFmt) (c : Nat) : ∃ m e, finiteOf F c = .fin (signField F c) m e ∧
    F.emin - F.mbits ≤ e ∧ m * 2 ^ (e - (F.emin - F.mbits)).toNat = unitsOf F c := by
  by_cases h0 : expField F c = 0
  · exact ⟨fracField F c, F.emin - F.mbits, by simp [finiteOf, h0], le_rfl, by simp [unitsOf, h0]⟩
  · have hexp : ((expField F c : Int) - F.bias - F.mbits - (F.emin - F.mbits)).toNat = expField F c - 1 := by
      simp only [FloatFmt.emin]; omega
    exact ⟨2 ^ F.mbits + fracField F c, (expField F c : Int) - F.bias - F.mbits, by simp [finiteOf, h0],
      by simp only [FloatFmt.emin]; omega, by rw [hexp]; simp [unitsOf, h0]⟩

/-- A scaled integer in finer units. -/
theorem scaledInt_mul_pow (neg : Bool) (m : Nat) {e lo L : Int} (hlo : lo ≤ e) (hL : L ≤ lo) :
    scaledInt neg m e lo * 2 ^ (lo - L).toNat = signed neg (m * 2 ^ (e - L).toNat) := by
  have hsum : (e - L).toNat = (e - lo).toNat + (lo - L).toNat := by omega
  cases neg <;> simp [scaledInt, signed, hsum, pow_add, mul_assoc]

/-! ## The order of codes (R33) -/

theorem lt_fin_iff (F : FloatFmt) (a b : Nat) :
    (finiteOf F a).lt true (finiteOf F b) = true ↔
      signed (signField F a) (unitsOf F a) < signed (signField F b) (unitsOf F b) ∨
        (unitsOf F a = 0 ∧ unitsOf F b = 0 ∧ signField F a = true ∧ signField F b = false) := by
  obtain ⟨m, e, ha, he, hma⟩ := finiteOf_units F a
  obtain ⟨n, f, hb, hf, hnb⟩ := finiteOf_units F b
  have hlo : F.emin - F.mbits ≤ min e f := le_min he hf
  have hpos : (0 : Int) < 2 ^ (min e f - (F.emin - F.mbits)).toNat := by positivity
  have hm0 : m = 0 ↔ unitsOf F a = 0 := by rw [← hma]; simp
  have hn0 : n = 0 ↔ unitsOf F b = 0 := by rw [← hnb]; simp
  rw [ha, hb, ← hma, ← hnb, ← scaledInt_mul_pow _ m (min_le_left e f) hlo, ← scaledInt_mul_pow _ n (min_le_right e f) hlo,
    mul_lt_mul_iff_left₀ hpos, hma, hnb, ← hm0, ← hn0]
  simp [Val.lt, and_assoc]

theorem order_eq (F : FloatFmt) (c : Nat) : order F.ebits F.mbits c =
    if signField F c = true then -((c % 2 ^ (F.ebits + F.mbits) : Nat) : Int) - 1 else (c % 2 ^ (F.ebits + F.mbits) : Nat) := by
  simp [order, signField]

theorem lt_finite_iff_order (F : FloatFmt) (a b : Nat) :
    (finiteOf F a).lt true (finiteOf F b) = true ↔ order F.ebits F.mbits a < order F.ebits F.mbits b := by
  have hab := unitsOf_lt_iff F a b
  have hba := unitsOf_lt_iff F b a
  rw [lt_fin_iff, order_eq, order_eq]
  generalize a % 2 ^ (F.ebits + F.mbits) = ma, b % 2 ^ (F.ebits + F.mbits) = mb at hab hba ⊢
  cases signField F a <;> cases signField F b <;> simp [signed] <;> omega

/-- What a code that is no NaN is: an infinity, or a finite value of a smaller magnitude. -/
theorem decode_of_not_isNan {F : FloatFmt} (hF : F.top = .ieee) {c : Nat} (h : isNan F.ebits F.mbits c = false) :
    (F.decode c = .inf (signField F c) ∧ c % 2 ^ (F.ebits + F.mbits) = (2 ^ F.ebits - 1) * 2 ^ F.mbits) ∨
    (F.decode c = finiteOf F c ∧ c % 2 ^ (F.ebits + F.mbits) < (2 ^ F.ebits - 1) * 2 ^ F.mbits) := by
  by_cases hfin : isFinite F.ebits F.mbits c = true
  · exact .inr ⟨decode_of_isFinite hF hfin, of_decide_eq_true hfin⟩
  · have hex : expField F c = 2 ^ F.ebits - 1 := by
      by_contra hne
      exact hfin ((isFinite_iff F c).mpr hne)
    have hfrac : fracField F c = 0 := by
      by_contra hne
      rw [(isNan_iff F c).mpr ⟨hex, hne⟩] at h
      cases h
    exact .inl ⟨by simp [decode_ieee hF, hex, hfrac], by rw [magnitude_eq, hex, hfrac, add_zero]⟩

theorem lt_decode_iff_order {F : FloatFmt} (hF : F.top = .ieee) {a b : Nat} (ha : isNan F.ebits F.mbits a = false)
    (hb : isNan F.ebits F.mbits b = false) :
    (F.decode a).lt true (F.decode b) = true ↔ order F.ebits F.mbits a < order F.ebits F.mbits b := by
  obtain ⟨da, ma⟩ | ⟨da, ma⟩ := decode_of_not_isNan hF ha <;>
    obtain ⟨db, mb⟩ | ⟨db, mb⟩ := decode_of_not_isNan hF hb
  · rw [da, db, order_eq, order_eq, ma, mb]
    generalize (2 ^ F.ebits - 1) * 2 ^ F.mbits = top
    cases signField F a <;> cases signField F b <;> simp [Val.lt]
    omega
  · obtain ⟨n, f, hfb, -⟩ := finiteOf_units F b
    rw [da, db, hfb, order_eq, order_eq, ma]
    generalize b % 2 ^ (F.ebits + F.mbits) = x, (2 ^ F.ebits - 1) * 2 ^ F.mbits = top at mb ⊢
    cases signField F a <;> cases signField F b <;> simp [Val.lt] <;> omega
  · obtain ⟨m, e, hfa, -⟩ := finiteOf_units F a
    rw [da, db, hfa, order_eq, order_eq, mb]
    generalize a % 2 ^ (F.ebits + F.mbits) = x, (2 ^ F.ebits - 1) * 2 ^ F.mbits = top at ma ⊢
    cases signField F a <;> cases signField F b <;> simp [Val.lt] <;> omega
  · rw [da, db, lt_finite_iff_order]

theorem minmax_eq {F : FloatFmt} (hF : F.top = .ieee) (hM : 0 < F.mbits) (isMax : Bool) (a b : Nat) :
    F.minmax isMax a b = minmaxOf F.ebits F.mbits isMax a b := by
  simp only [FloatFmt.minmax, minmaxOf, minnum, isNaN_decode hF, isSig_decode hF hM, canonicalNan_eq hF hM]
  cases ha : isNan F.ebits F.mbits a <;> cases hb : isNan F.ebits F.mbits b
  · have hab := lt_decode_iff_order hF ha hb
    have hba := lt_decode_iff_order hF hb ha
    cases isMax <;> simp [hab, hba, nvFlag, invalidIf, flagNV]
  all_goals simp [nvFlag, invalidIf, flagNV]

end Sys2Proof.Claim
end

section
/-!
The obligation on reductions and prefixes: lists folded by levels are the fixed tree and the fixed scan (R31, R32, R118,
R119).
-/
namespace Sys2Proof.Claim

open Sys2Proof.Machine

/-! ## The fixed tree (R32) -/

theorem treeLevel_range' {α : Type} (op : α → α → α) (x : Nat → α) :
    ∀ n b, treeLevel op ((List.range' b (2 * n)).map x) = (List.range n).map fun i => op (x (b + 2 * i)) (x (b + 2 * i + 1))
  | 0, _ => rfl
  | n + 1, b => by
    rw [show 2 * (n + 1) = 2 * n + 1 + 1 by ring, List.range'_succ, List.range'_succ, List.range_succ_eq_map]
    simp only [List.map_cons, treeLevel, treeLevel_range' op x n (b + 1 + 1), List.map_map]
    congr 1
    apply List.map_congr_left
    intro i _
    simp only [Function.comp]
    congr 2 <;> omega

/-- One level of the tree beneath: pairs of neighbours first. -/
theorem tree_pairs {α : Type} (op : α → α → α) (x : Nat → α) :
    ∀ k i, tree op (fun i => op (x (2 * i)) (x (2 * i + 1))) k i = tree op x (k + 1) (2 * i)
  | 0, _ => rfl
  | k + 1, i => by
    rw [tree, tree_pairs op x k i, tree_pairs op x k (i + 2 ^ k), tree.eq_2 op x (2 * i) (k + 1)]
    congr 2
    ring

theorem treeFold_range {α : Type} (op : α → α → α) :
    ∀ k (x : Nat → α), treeFold op k ((List.range (2 ^ k)).map x) = [tree op x k 0]
  | 0, _ => rfl
  | k + 1, x => by
    have hlevel := treeLevel_range' op x (2 ^ k) 0
    simp only [← List.range_eq_range', Nat.zero_add, ← pow_succ'] at hlevel
    rw [treeFold, hlevel, treeFold_range op k, tree_pairs]

theorem tree_offset {α : Type} (op : α → α → α) (x : Nat → α) (b : Nat) :
    ∀ k i, tree op (fun m => x (b + m)) k i = tree op x k (b + i)
  | 0, _ => rfl
  | k + 1, i => by simp only [tree, tree_offset op x b k, Nat.add_assoc]

/-- A beat of the 96 elements. -/
theorem beat_of_range {α : Type} (x : Nat → α) {j : Nat} (hj : j < 3) :
    (((List.range Config.lanes).map x).drop (32 * j)).take 32 = (List.range 32).map fun m => x (32 * j + m) := by
  apply List.ext_getElem
  · simp [Config.lanes]; omega
  · intro i _ _; simp

theorem tree96_range {α : Type} (op : α → α → α) (z : α) (x : Nat → α) :
    tree96 op z ((List.range Config.lanes).map x) = tree96Of op x := by
  have hbeat {j : Nat} (hj : j < 3) :
      (treeFold op 5 ((((List.range Config.lanes).map x).drop (32 * j)).take 32)).headD z = tree op x 5 (32 * j) := by
    rw [beat_of_range x hj]
    rw [show (32 : Nat) = 2 ^ 5 by rfl, treeFold_range, tree_offset]
    rfl
  simp only [tree96, hbeat (show 0 < 3 by decide), hbeat (show 1 < 3 by decide), hbeat (show 2 < 3 by decide)]
  rfl

/-! ## The fixed scan (R119) -/

/-- One level of KS32 at distance `w`. -/
theorem ks32_cons_range {α : Type} (op : α → α → α) (y : Nat → α) (n w : Nat) (ws : List Nat) :
    ks32 op (w :: ws) ((List.range n).map y) =
      ks32 op ws ((List.range n).map fun i => if w ≤ i then op (y (i - w)) (y i) else y i) := by
  rw [ks32]
  congr 1
  apply List.ext_getElem
  · simp
  · intro i h1 _
    have hi : i < n := by simpa using h1
    by_cases hw : i < w
    · simp [hw]
    · simp [hw, show w ≤ i by omega, List.getElem?_range (show i - w < n by omega)]

theorem ks32_scan {α : Type} (op : α → α → α) (y : Nat → α) (n : Nat) :
    ∀ m k, ks32 op ((List.range' k m).map (2 ^ ·)) ((List.range n).map (scan op y k)) = (List.range n).map (scan op y (k + m))
  | 0, _ => rfl
  | m + 1, k => by
    rw [List.range'_succ, List.map_cons, ks32_cons_range, show k + (m + 1) = k + 1 + m by omega, ← ks32_scan op y n m (k + 1)]
    rfl

theorem ks32_range {α : Type} (op : α → α → α) (y : Nat → α) :
    ks32 op [1, 2, 4, 8, 16] ((List.range 32).map y) = (List.range 32).map (scan op y 5) := ks32_scan op y 32 5 0

theorem prefix96_range {α : Type} (op : α → α → α) (z : α) (x : Nat → α) {i : Nat} (hi : i < 96) (d : α) :
    (prefix96 op z ((List.range Config.lanes).map x)).getD i d = prefixOf op x i := by
  have hbeat {j : Nat} (hj : j < 3) :
      ks32 op [1, 2, 4, 8, 16] ((((List.range Config.lanes).map x).drop (32 * j)).take 32) =
        (List.range 32).map (scan op (fun m => x (32 * j + m)) 5) := by rw [beat_of_range x hj, ks32_range]
  simp only [prefix96, hbeat (show 0 < 3 by decide), hbeat (show 1 < 3 by decide), hbeat (show 2 < 3 by decide)]
  obtain ⟨m, hm, rfl | rfl | rfl⟩ : ∃ m, m < 32 ∧ (i = m ∨ i = 32 + m ∨ i = 64 + m) := ⟨i % 32, by omega, by omega⟩
  · simp [prefixOf, List.getD_eq_getElem?_getD, List.getElem?_append, hm, Nat.mod_eq_of_lt hm, Nat.div_eq_of_lt hm]
  · simp [prefixOf, List.getD_eq_getElem?_getD, List.getElem?_append, hm, Nat.mod_eq_of_lt hm, Nat.div_eq_of_lt hm,
      show 32 + m < 64 by omega]
  · simp [prefixOf, List.getD_eq_getElem?_getD, List.getElem?_append, hm, show (64 + m) % 32 = m by omega,
      show (64 + m) / 32 = 2 by omega, show ¬ 64 + m < 32 by omega, show ¬ 64 + m - 32 < 32 by omega,
      show 64 + m - 32 - 32 = m by omega]

/-! ## The steps of a reduction (R31, R33, R118) -/

theorem bits_getLsbD (w : Word) : bits w.getLsbD = w := by
  apply BitVec.eq_of_getLsbD_eq
  intro i hi
  have := foldr_bits_testBit w.getLsbD 32 0 i hi
  rw [bits, BitVec.getLsbD_ofNat, List.range_eq_range', this]
  simp [hi]

theorem sminW_eq (a b : Word) : sminW a b = if a.toInt ≤ b.toInt then a else b := by
  simp only [sminW, BitVec.slt, decide_eq_true_iff]
  obtain h | h | h := lt_trichotomy a.toInt b.toInt
  · simp [h, h.le]
  · simp [BitVec.toInt_inj.mp h]
  · simp [h.not_gt, h.not_ge]

theorem smaxW_eq (a b : Word) : smaxW a b = if a.toInt ≤ b.toInt then b else a := by
  simp only [smaxW, BitVec.slt, decide_eq_true_iff]
  obtain h | h | h := lt_trichotomy a.toInt b.toInt
  · simp [h, h.le]
  · simp [BitVec.toInt_inj.mp h]
  · simp [h.not_gt, h.not_ge]

theorem uminW_eq (a b : Word) : uminW a b = if a.toNat ≤ b.toNat then a else b := by
  simp only [uminW, BitVec.ult, decide_eq_true_iff]
  obtain h | h | h := lt_trichotomy a.toNat b.toNat
  · simp [h, h.le]
  · simp [BitVec.toNat_inj.mp h]
  · simp [h.not_gt, h.not_ge]

theorem umaxW_eq (a b : Word) : umaxW a b = if a.toNat ≤ b.toNat then b else a := by
  simp only [umaxW, BitVec.ult, decide_eq_true_iff]
  obtain h | h | h := lt_trichotomy a.toNat b.toNat
  · simp [h, h.le]
  · simp [BitVec.toNat_inj.mp h]
  · simp [h.not_gt, h.not_ge]

theorem intOp_eq (op : Nat) : intOp op = intStep op := by
  funext a b
  unfold intOp intStep
  split
  · exact BitVec.eq_of_toNat_eq (by simp)
  · exact sminW_eq a b
  · exact smaxW_eq a b
  · exact uminW_eq a b
  · exact umaxW_eq a b
  · simpa only [funext fun i => BitVec.getLsbD_and (x := a) (y := b) (i := i)] using (bits_getLsbD (a &&& b)).symm
  · simpa only [funext fun i => BitVec.getLsbD_or (x := a) (y := b) (i := i)] using (bits_getLsbD (a ||| b)).symm

theorem fpIdentity_eq (op : Nat) : fpIdentity op = fpNeutral op := by
  match op with
  | 0 | 1 | _ + 2 => simp [fpIdentity, fpNeutral]

theorem flaggedAdd_eq : flaggedAdd = fpStep 0 := rfl

theorem flaggedMin_eq : flaggedMinMax false = fpStep 1 := by
  funext a b
  simp only [flaggedMinMax, minmax_eq (F := fp32) rfl (by decide)]
  rfl

theorem flaggedMax_eq (op : Nat) : flaggedMinMax true = fpStep (op + 2) := by
  funext a b
  simp only [flaggedMinMax, minmax_eq (F := fp32) rfl (by decide)]
  rfl

/-! ## The instructions -/

theorem raise_zero (t : Troupe) : t.raise 0 = t := by simp [raise_shape]

theorem activeFlags_congr {t : Troupe} {g h : Nat → Flags} (hgh : ∀ i, i < 96 → g i = h i) : activeFlags t g = flagsOf t h := by
  unfold activeFlags flagsOf
  refine List.foldl_ext _ _ _ fun fl i hi => ?_
  rw [hgh i (List.mem_range.mp hi)]

/-- Only the values of the 96 lanes matter to a lane result. -/
theorem LaneResult.congr {f : Fields} {s : State} {t : Troupe} {fl : Flags} {g h : Nat → Word}
    {out : Host.Outcome State Fault Refusal} (hgh : ∀ i, i < 96 → g i = h i) (hr : LaneResult f s t fl g out) :
    LaneResult f s t fl h out := by
  obtain ⟨s', t', hout, htr, hq, hreg, hadv, hsc, hfl, hrow⟩ := hr
  refine ⟨s', t', hout, htr, hq, hreg, ?_, hsc, hfl, fun r i hi => by rw [hrow r i hi, hgh i hi]⟩
  have hlatch : ((List.range 96).map fun i => if t.active i then (g i).setWidth 64 else 0) =
      (List.range 96).map fun i => if t.active i then (h i).setWidth 64 else 0 :=
    List.map_congr_left fun i hi => by rw [hgh i (List.mem_range.mp hi)]
  rwa [hlatch] at hadv

/-- The elements of a floating-point reduction, each with no flag yet. -/
def fpElems (t : Troupe) (f : Fields) (op i : Nat) : Flagged := ⟨reduced t f (fpNeutral op) i, 0⟩

theorem fpElems_eq (t : Troupe) (f : Fields) (op i : Nat) :
    (if t.active i then (⟨t.a32 f i, 0⟩ : Flagged) else ⟨fpIdentity op, 0⟩) = fpElems t f op i := by
  rw [fpElems, reduced, fpIdentity_eq]
  split <;> rfl

theorem exec_redf (f : Fields) (s : State) :
    exec (.redf f) s = issue false (reductionOf f 2) f s fun t =>
      let r := tree96Of (fpStep (Fields.x f 2 0)) (fpElems t f (Fields.x f 2 0))
      laneScalarOut s (t.raise r.flags) f r.w := by
  have harm : exec (.redf f) s = execRedf f s := rfl
  rw [harm, execRedf]
  refine congrArg (issue false (reductionOf f 2) f s) (funext fun t => ?_)
  dsimp only
  simp only [fpElems_eq]
  generalize Fields.x f 2 0 = op
  match op with
  | 0 => simp only [flaggedAdd_eq, tree96_range]
  | 1 => simp only [flaggedMin_eq, tree96_range]
  | op + 2 => simp only [flaggedMax_eq op, tree96_range]

theorem exec_redi (f : Fields) (s : State) :
    exec (.redi f) s = issue false (reductionOf f 6) f s fun t =>
      laneScalarOut s t f (tree96Of (intStep (Fields.x f 2 0)) (reduced t f (intNeutral (Fields.x f 2 0)))) := by
  have harm : exec (.redi f) s = execRedi f s := rfl
  rw [harm, execRedi]
  refine congrArg (issue false (reductionOf f 6) f s) (funext fun t => ?_)
  dsimp only
  rw [tree96_range, intOp_eq]
  rfl

theorem exec_pfxfAdd (f : Fields) (s : State) :
    exec (.pfxfAdd f) s = issue false lane1 f s fun t =>
      let ys := prefix96 (fpStep 0) ⟨0, 0⟩ ((List.range Config.lanes).map (fpElems t f 0))
      fpOut s t f fun i => ⟨(ys.getD i ⟨0, 0⟩).w.toNat, (ys.getD i ⟨0, 0⟩).flags⟩ := by
  have harm : exec (.pfxfAdd f) s = execPfxfAdd f s := rfl
  rw [harm, execPfxfAdd]
  refine congrArg (issue false lane1 f s) (funext fun t => ?_)
  dsimp only
  simp only [fpElems_eq, flaggedAdd_eq]

theorem exec_pfxiAdd (f : Fields) (s : State) :
    exec (.pfxiAdd f) s = issue false lane1 f s fun t =>
      laneOut s t f fun i => (prefix96 (intStep 0) 0 ((List.range Config.lanes).map (reduced t f 0))).getD i 0 := by
  have harm : exec (.pfxiAdd f) s = execPfxiAdd f s := rfl
  rw [harm, execPfxiAdd, ← intOp_eq]
  rfl

theorem redf_result (f : Fields) (s : State) (t : Troupe) (h : Issues false (reductionOf f 2) f s t) :
    let r := tree96Of (fpStep (Fields.x f 2 0)) (fpElems t f (Fields.x f 2 0))
    ScalarResult false f s t r.flags (everyLane r.w) (one f.d r.w) (exec (.redf f) s) := by
  rw [exec_redf, issue_own h.1 h.2.1 h.2.2]
  exact scalarOut_result h rfl

theorem redi_result (f : Fields) (s : State) (t : Troupe) (h : Issues false (reductionOf f 6) f s t) :
    let r := tree96Of (intStep (Fields.x f 2 0)) (reduced t f (intNeutral (Fields.x f 2 0)))
    ScalarResult false f s t 0 (everyLane r) (one f.d r) (exec (.redi f) s) := by
  have hr (x : Word) := scalarOut_result (l := everyLane x) (x := x) (fl := 0) h rfl
  simp only [raise_zero] at hr
  rw [exec_redi, issue_own h.1 h.2.1 h.2.2]
  exact hr _

theorem pfxfAdd_result (f : Fields) (s : State) (t : Troupe) (h : Issues false lane1 f s t) :
    let d (i : Nat) := prefixOf (fpStep 0) (fpElems t f 0) i
    LaneResult f s t (flagsOf t fun i => (d i).flags) (fun i => (d i).w) (exec (.pfxfAdd f) s) := by
  have hp (i : Nat) (hi : i < 96) := prefix96_range (fpStep 0) ⟨0, 0⟩ (fpElems t f 0) hi ⟨0, 0⟩
  rw [exec_pfxfAdd, issue_own h.1 h.2.1 h.2.2]
  dsimp only [fpOut]
  rw [activeFlags_congr fun i hi => congrArg Flagged.flags (hp i hi)]
  refine LaneResult.congr (fun i hi => ?_) (laneOut_result h rfl)
  simp only [hp i hi, BitVec.ofNat_toNat, BitVec.setWidth_eq]

theorem pfxiAdd_result (f : Fields) (s : State) (t : Troupe) (h : Issues false lane1 f s t) :
    LaneResult f s t 0 (prefixOf (intStep 0) (reduced t f 0)) (exec (.pfxiAdd f) s) := by
  have hr (g : Nat → Word) := laneOut_result (g := g) (fl := 0) h rfl
  simp only [raise_zero] at hr
  rw [exec_pfxiAdd, issue_own h.1 h.2.1 h.2.2]
  exact LaneResult.congr (fun i hi => prefix96_range (intStep 0) 0 _ hi 0) (hr _)

/-- Settles O8: the four instructions' results, from the lists' levels as tree and scan. -/
theorem reductionResults : Obligations.ReductionResults :=
  ⟨redf_result, redi_result, pfxfAdd_result, pfxiAdd_result⟩

end Sys2Proof.Claim
end

section
/-!
SUPPORT. Companies, their operations and the clusters: what is found after one of them is changed, and what staging,
mrp and the bus leave unchanged.
-/
namespace Sys2Proof.Machine

/-! ## Finding by a number -/

section keyed
variable {α : Type} {key : α → Nat} {k : Nat} {g : α → α} (hg : ∀ x, key x = k → key (g x) = k)
include hg

theorem find?_mapAt_same : ∀ xs : List α,
    (xs.map fun x => if key x == k then g x else x).find? (key · == k) = (xs.find? (key · == k)).map g
  | [] => rfl
  | x :: rest => by
    rw [List.map_cons, List.find?_cons, List.find?_cons, find?_mapAt_same rest]
    by_cases h : key x = k
    · simp [h, hg x h]
    · simp [beq_eq_false_iff_ne.mpr h]

theorem find?_mapAt_other {j : Nat} (hj : j ≠ k) : ∀ xs : List α,
    (xs.map fun x => if key x == k then g x else x).find? (key · == j) = xs.find? (key · == j)
  | [] => rfl
  | x :: rest => by
    rw [List.map_cons, List.find?_cons, List.find?_cons, find?_mapAt_other hj rest]
    by_cases h : key x = k
    · simp [h, hg x h, beq_eq_false_iff_ne.mpr hj.symm]
    · simp [beq_eq_false_iff_ne.mpr h]

end keyed

/-- A map that keeps the numbers commutes with finding. -/
theorem find?_map_keeps {α : Type} {key : α → Nat} {k : Nat} {g : α → α} (hg : ∀ x, key (g x) = key x) (xs : List α) :
    (xs.map g).find? (key · == k) = (xs.find? (key · == k)).map g := by
  rw [List.find?_map]
  exact congrArg (Option.map g) (congrArg (List.find? · xs) (funext fun x => by simp [hg x]))

/-! ## Companies -/

theorem State.company?_updCompany_same {s : State} {cid : Nat} {g : Company → Company} (hg : ∀ c, (g c).cid = c.cid) :
    (s.updCompany cid g).company? cid = (s.company? cid).map g :=
  find?_mapAt_same (key := Company.cid) (fun c h => (hg c).trans h) s.companies

theorem State.company?_updCompany_some {s : State} {cid : Nat} {c : Company} (g : Company → Company) (hg : ∀ c, (g c).cid = c.cid)
    (h : s.company? cid = some c) : (s.updCompany cid g).company? cid = some (g c) := by
  rw [State.company?_updCompany_same hg, h]; rfl

theorem State.company?_updCompany_other {s : State} {cid i : Nat} {g : Company → Company} (hg : ∀ c, (g c).cid = c.cid)
    (hi : i ≠ cid) : (s.updCompany cid g).company? i = s.company? i :=
  find?_mapAt_other (key := Company.cid) (fun c h => (hg c).trans h) hi s.companies

theorem State.updCompany_updCompany (s : State) (cid : Nat) {g h : Company → Company} (hg : ∀ c, (g c).cid = c.cid) :
    (s.updCompany cid g).updCompany cid h = s.updCompany cid fun c => h (g c) := by
  simp only [State.updCompany, List.map_map]
  congr 1
  refine List.map_congr_left fun c _ => ?_
  by_cases hc : c.cid = cid <;> simp [hc, hg c]

/-! ## Operations of a company -/

theorem Company.op?_id {c : Company} {id : Nat} {o : EngOp} (h : c.op? id = some o) : o.id = id := by
  simpa using List.find?_some h

theorem Company.op?_setOp_same (c : Company) (o : EngOp) : (c.setOp o).op? o.id = (c.op? o.id).map fun _ => o :=
  find?_mapAt_same (key := EngOp.id) (fun _ _ => rfl) c.ops

theorem Company.setOp_setOp (c : Company) {o p : EngOp} (h : o.id = p.id) : (c.setOp o).setOp p = c.setOp p := by
  simp only [Company.setOp, List.map_map]
  congr 1
  refine List.map_congr_left fun x _ => ?_
  by_cases hx : x.id = p.id <;> simp [h, hx]

theorem State.engOp?_eq {s : State} {cid id : Nat} {c : Company} (h : s.company? cid = some c) : s.engOp? cid id = c.op? id := by
  rw [State.engOp?, h]; rfl

theorem State.company?_setOp_same (s : State) (cid : Nat) (o : EngOp) :
    (s.setOp cid o).company? cid = (s.company? cid).map (·.setOp o) := State.company?_updCompany_same fun _ => rfl

theorem State.company?_setOp_other (s : State) {cid i : Nat} (o : EngOp) (hi : i ≠ cid) :
    (s.setOp cid o).company? i = s.company? i := State.company?_updCompany_other (fun _ => rfl) hi

theorem State.engOp?_setOp_same {s : State} {cid : Nat} {o p : EngOp} (h : s.engOp? cid p.id = some o) :
    (s.setOp cid p).engOp? cid p.id = some p := by
  obtain ⟨c, hc, ho⟩ := Option.bind_eq_some_iff.mp h
  rw [State.engOp?_eq (by rw [State.company?_setOp_same, hc]; rfl), Company.op?_setOp_same, ho]; rfl

theorem State.engOp?_setOp_other (s : State) {cid i j : Nat} (o : EngOp) (hi : i ≠ cid) :
    (s.setOp cid o).engOp? i j = s.engOp? i j := by
  rw [State.engOp?, State.company?_setOp_other s o hi]; rfl

theorem State.setOp_setOp (s : State) (cid : Nat) {o p : EngOp} (h : o.id = p.id) :
    (s.setOp cid o).setOp cid p = s.setOp cid p :=
  (State.updCompany_updCompany s cid (g := (·.setOp o)) fun _ => rfl).trans
    (congrArg (s.updCompany cid) (funext fun c => c.setOp_setOp h))

/-! ## mrp -/

theorem foldl_keeps {α β : Type} {f : State → α → State} (π : State → β) (h : ∀ s x, π (f s x) = π s) :
    ∀ (xs : List α) (s : State), π (xs.foldl f s) = π s
  | [], _ => rfl
  | x :: xs, s => (foldl_keeps π h xs (f s x)).trans (h s x)

/-- mrp is the troupes' alone (R216). -/
theorem State.putMrp_keeps {β : Type} (π : State → β) (h : ∀ (s : State) u g, π (s.updTroupe u g) = π s) (s : State) (cid : Nat)
    (o : EngOp) : π (s.putMrp cid o) = π s := by
  unfold State.putMrp
  split
  · rfl
  · refine foldl_keeps π (fun s u => ?_) _ s
    dsimp only
    split
    · exact h _ _ _
    · rfl

theorem State.putMrp_company? (s : State) (cid : Nat) (o : EngOp) (i : Nat) : (s.putMrp cid o).company? i = s.company? i :=
  State.putMrp_keeps (·.company? i) (fun _ _ _ => rfl) s cid o

theorem State.putMrp_partner? (s : State) (cid : Nat) (o : EngOp) (c i : Nat) :
    (s.putMrp cid o).partner? c i = s.partner? c i :=
  State.putMrp_keeps (·.partner? c i) (fun _ _ _ => rfl) s cid o

/-! ## Staging -/

/-- What staging leaves of a company: its tiles, and its operations but for what is stored into the windows of those that
are not done (R203). -/
def Company.StagedFrom (c c' : Company) : Prop :=
  c'.tiles = c.tiles ∧ ∃ g : EngOp → EngOp, c'.ops = c.ops.map g ∧ ∀ x, (g x).id = x.id ∧ (x.done = true → g x = x)

theorem Company.StagedFrom.refl (c : Company) : c.StagedFrom c := ⟨rfl, id, by simp, fun _ => ⟨rfl, fun _ => rfl⟩⟩

theorem Company.StagedFrom.trans {a b c : Company} (h : a.StagedFrom b) (h' : b.StagedFrom c) : a.StagedFrom c := by
  obtain ⟨htiles, g, hops, hg⟩ := h
  obtain ⟨htiles', g', hops', hg'⟩ := h'
  refine ⟨htiles'.trans htiles, g' ∘ g, by rw [hops', hops, List.map_map], fun x => ⟨(hg' _).1.trans (hg x).1, fun hx => ?_⟩⟩
  have hgx := (hg x).2 hx
  simp only [Function.comp, hgx, (hg' x).2 hx]

theorem Company.StagedFrom.op? {c c' : Company} (h : c.StagedFrom c') {id : Nat} {o : EngOp} (ho : c.op? id = some o) :
    ∃ o', c'.op? id = some o' ∧ (o.done = true → o' = o) := by
  obtain ⟨-, g, hops, hg⟩ := h
  have hfind := find?_map_keeps (key := EngOp.id) (k := id) (fun x => (hg x).1) c.ops
  rw [← hops] at hfind
  exact ⟨g o, hfind.trans (congrArg (Option.map g) ho), (hg o).2⟩

theorem EngOp.storeWindow_keeps (x : EngOp) (a : Nat) (bs : List Byte) :
    (x.storeWindow a bs).id = x.id ∧ (x.done = true → x.storeWindow a bs = x) := by
  unfold EngOp.storeWindow
  split
  · split
    · next h => exact ⟨rfl, fun hd => by simp [hd] at h⟩
    · exact ⟨rfl, fun _ => rfl⟩
  · exact ⟨rfl, fun _ => rfl⟩

theorem Company.write_stagedFrom (c : Company) (a : Nat) (bs : List Byte) : c.StagedFrom (c.write a bs) :=
  ⟨rfl, fun x => x.storeWindow a bs, rfl, fun x => x.storeWindow_keeps a bs⟩

theorem State.wakeLine_company? (s : State) (cid line i : Nat) : (s.wakeLine cid line).company? i = s.company? i := by
  unfold State.wakeLine; split <;> rfl

theorem State.stage_company? {s : State} {cid : Nat} {c : Company} (a : MmaArgs) (lines : List Nat)
    (h : s.company? cid = some c) : ∃ c', (s.stage cid a lines).company? cid = some c' ∧ c.StagedFrom c' := by
  unfold State.stage
  split
  · induction lines generalizing s c with
    | nil => exact ⟨c, h, .refl c⟩
    | cons l lines ih =>
      rw [List.foldl_cons]
      dsimp only
      generalize (List.range 192).map (fun i => Config.freeByte (s.freeCtr + i)) = bs
      obtain ⟨c', hc', hst⟩ := ih
        (s := (({ s with freeCtr := s.freeCtr + 192 } : State).updCompany cid fun c => c.write (192 * l) bs).fillLine cid l)
        ((State.wakeLine_company? _ _ _ _).trans (State.company?_updCompany_some _ (fun _ => rfl)
          (State.company?_updCompany_some _ (fun _ => rfl) h)))
      exact ⟨c', hc', .trans (c.write_stagedFrom _ _) hst⟩
  · exact ⟨c, h, .refl c⟩

/-! ## Clusters -/

theorem listModify_listModify {α : Type} (g h : α → α) : ∀ (xs : List α) (i : Nat),
    listModify (listModify xs i g) i h = listModify xs i fun x => h (g x)
  | [], _ => rfl
  | _ :: _, 0 => rfl
  | _ :: rest, i + 1 => congrArg (_ :: ·) (listModify_listModify g h rest i)

theorem listModify_congr {α : Type} {g h : α → α} (d : α) : ∀ (xs : List α) (i : Nat), g (xs.getD i d) = h (xs.getD i d) →
    listModify xs i g = listModify xs i h
  | [], _, _ => rfl
  | _ :: _, 0, hd => by simpa [listModify] using hd
  | _ :: rest, i + 1, hd => by
    have := listModify_congr d rest i (by simpa using hd)
    simp [listModify, this]

theorem State.cluster_updCluster {s : State} {k : Nat} (g : Cluster → Cluster) (hk : k < s.clusters.length) :
    (s.updCluster k g).cluster k = g (s.cluster k) := getD_listModify_same g _ s.clusters k hk

theorem State.updCluster_updCluster (s : State) (k : Nat) (g h : Cluster → Cluster) :
    (s.updCluster k g).updCluster k h = s.updCluster k fun x => h (g x) := by
  simp [State.updCluster, listModify_listModify]

theorem State.updCluster_congr {s : State} {k : Nat} {g h : Cluster → Cluster} (hgh : g (s.cluster k) = h (s.cluster k)) :
    s.updCluster k g = s.updCluster k h := by
  rw [State.updCluster, State.updCluster, listModify_congr _ _ _ hgh]

/-- A cluster with an offer is one of the package's. -/
theorem State.cluster_lt_of_offers {s : State} {k : Nat} (h : (s.cluster k).offers ≠ []) : k < s.clusters.length := by
  by_contra hk
  refine h ?_
  rw [State.cluster, List.getD_eq_getElem?_getD, List.getElem?_eq_none (by omega)]
  rfl

end Sys2Proof.Machine
end

section
/-!
SUPPORT. An engine's accesses that go through leave the Ringmaster as it is, so that the unit works for the same launch
through all of a drain (R204, R221).
-/
namespace Sys2Proof.Machine

theorem rm_of_besideMemory {s s' : State} (h : s'.besideMemory = s.besideMemory) : s'.rm = s.rm := by
  change s'.besideMemory.rm = s.besideMemory.rm
  rw [h]

theorem State.keepDieTlb_rm (s : State) (die : Nat) (x : TlbEntry) : (s.keepDieTlb die x).rm = s.rm := by
  unfold State.keepDieTlb; split <;> rfl

theorem State.translateDie_rm (s : State) (die root va : Nat) (p : Perm) : (s.translateDie die root va p).1.rm = s.rm := by
  unfold State.translateDie
  split
  · rfl
  · split
    · exact s.keepDieTlb_rm _ _
    · rfl

theorem State.translate_rm (s : State) (unit : TlbUnit) (core root va : Nat) (p : Perm) :
    (s.translate unit core root va p).1.rm = s.rm := by
  unfold State.translate
  split
  · rfl
  · split
    · rfl
    · split
      · exact s.keepDieTlb_rm _ _
      · rfl

theorem State.countHot_rm (s : State) (root va pa : Nat) (e : DWord) (psize : Nat) : (s.countHot root va pa e psize).rm = s.rm := by
  unfold State.countHot
  split
  · rfl
  · rfl
  · split <;> rfl

theorem State.engPlace_rm {s s' : State} {x : EngCtx} {va n : Nat} {p : Perm} {l : Loc} (h : s.engPlace x va n p = .ok s' l) :
    s'.rm = s.rm := by
  have ht : (s.translateEng x va p).1.rm = s.rm := by
    unfold State.translateEng
    split
    · exact s.translate_rm _ _ _ _ _
    · exact s.translateDie_rm _ _ _ _
  unfold State.engPlace at h
  split at h
  · next s1 pa e psize heq =>
    rw [heq] at ht
    dsimp only at h
    split at h
    · cases h
    · cases h
      exact (State.countHot_rm _ _ _ _ _ _).trans ht
  · cases h
  · cases h

theorem State.engRead_rm (s : State) (l : Loc) (n : Nat) : (s.engRead l n).1.rm = s.rm :=
  rm_of_besideMemory (homeRead_besideMemory s l n)

theorem State.engWrite_rm (s : State) (core : Option Nat) (l : Loc) (bs : List Byte) (uid : Nat) :
    (s.engWrite core l bs uid).rm = s.rm := by
  unfold State.engWrite
  extract_lets die s1
  clear_value die
  refine (rm_of_besideMemory (homeWrite_besideMemory _ _ _ _ _)).trans ?_
  simp only [s1]
  split
  · rfl
  · exact rm_of_besideMemory (dropRdc_besideMemory _ _ _)

theorem State.poisonLine_rm (s : State) (l : Loc) : (s.poisonLine l).rm = s.rm := by
  have hbelow (s : State) (l : Loc) (n : Nat) (bad : List Nat) : (s.poisonBelow l n bad).rm = s.rm :=
    rm_of_besideMemory (poisonBelow_besideMemory s l n bad)
  unfold State.poisonLine
  extract_lets fresh kept all below s1
  have h1 : s1.rm = s.rm := by
    simp only [s1, below]
    split
    · split
      · exact hbelow _ _ _ _
      · rfl
    · exact hbelow _ _ _ _
  split
  · exact h1
  · exact h1

theorem State.poisonSpad_rm (s : State) (x : EngCtx) (line : Nat) : (s.poisonSpad x line).rm = s.rm := by
  unfold State.poisonSpad
  dsimp only
  split <;> rfl

/-- A movement that goes through leaves the Ringmaster as it is. -/
def Moved.KeepsRm (m : Moved) (s : State) : Prop := ∀ s', m = .ok s' → s'.rm = s.rm

theorem State.dstByte_keepsRm (s : State) (x : EngCtx) (id : Nat) (sp : Bool) (a : Nat) (b : Byte) (bad : Bool) :
    (s.dstByte x id sp a b bad).KeepsRm s := by
  intro s' h
  unfold State.dstByte at h
  extract_lets mark at h
  have hmark (s : State) (key : Nat) : (mark s key).1.rm = s.rm := by
    simp only [mark]
    split
    · split
      · rfl
      · split <;> rfl
    · rfl
  clear_value mark
  split at h
  · cases h
    split
    · exact (State.poisonSpad_rm _ _ _).trans (hmark s _)
    · exact hmark s _
  · split at h
    · next s1 l heq =>
      cases h
      split
      · exact (State.poisonLine_rm _ _).trans ((State.engWrite_rm _ _ _ _ _).trans ((hmark s1 _).trans (State.engPlace_rm heq)))
      · exact (State.engWrite_rm _ _ _ _ _).trans ((hmark s1 _).trans (State.engPlace_rm heq))
    all_goals cases h

theorem State.dstBytes_keepsRm (x : EngCtx) (id : Nat) (sp : Bool) (bad : Bool) : ∀ (bs : List Byte) (s : State) (a : Nat),
    (s.dstBytes x id sp a bad bs).KeepsRm s
  | [], s, _, s', h => by cases h; rfl
  | b :: bs, s, a, s', h => by
    rw [State.dstBytes] at h
    split at h
    · next s1 heq => exact (dstBytes_keepsRm x id sp bad bs s1 (a + 1) s' h).trans (s.dstByte_keepsRm _ _ _ _ _ _ s1 heq)
    · next hne => exact absurd h (hne s')

theorem State.writeElem_keepsRm (s : State) (x : EngCtx) (id efmt a k code : Nat) (bad : Bool) :
    (s.writeElem x id efmt a k code bad).KeepsRm s := by
  intro s' h
  unfold State.writeElem at h
  split at h
  · split at h
    · next s1 l heq =>
      exact (State.dstByte_keepsRm _ _ _ _ _ _ _ s' h).trans ((State.engRead_rm s1 l 1).trans (State.engPlace_rm heq))
    all_goals cases h
  · exact State.dstBytes_keepsRm _ _ _ _ _ _ _ s' h

theorem State.drainElems_keepsRm (x : EngCtx) (id : Nat) (r : Layout) (q : Nat) : ∀ (cs : List Nat) (s : State) (k : Nat),
    (s.drainElems x id r q k cs).KeepsRm s
  | [], s, _, s', h => by cases h; rfl
  | c :: cs, s, k, s', h => by
    rw [State.drainElems] at h
    split at h
    · cases h; rfl
    · split at h
      · next s1 heq =>
        exact (drainElems_keepsRm x id r q cs s1 (k + 1) s' h).trans (s.writeElem_keepsRm _ _ _ _ _ _ _ s1 heq)
      · next hne => exact absurd h (hne s')

theorem State.drainScales_keepsRm (x : EngCtx) (id : Nat) (r : Layout) (q blk w : Nat) :
    ∀ (n : Nat) (s : State) (k : Nat) (sc : List Byte), (s.drainScales x id r q k blk w sc n).KeepsRm s
  | 0, s, _, _, s', h => by cases h; rfl
  | n + 1, s, k, sc, s', h => by
    rw [State.drainScales] at h
    split at h
    · cases h; rfl
    · split at h
      · next s1 heq =>
        exact (drainScales_keepsRm x id r q blk w n s1 _ _ s' h).trans (State.dstBytes_keepsRm _ _ _ _ _ _ _ s1 heq)
      · next hne => exact absurd h (hne s')

theorem State.opFlags_rm (s : State) (cid id : Nat) (fl : Flags) : (s.opFlags cid id fl).rm = s.rm := by
  unfold State.opFlags; split <;> rfl

theorem State.drainOne_keepsRm (s : State) (x : EngCtx) (id : Nat) (a : DrainArgs) (tile : Cells 32) (j : Nat) :
    (s.drainOne x id a tile j).KeepsRm s := by
  intro s' h
  unfold State.drainOne at h
  dsimp only at h
  generalize (if decide (j ≥ 128) = true then a.tf else a.df) = fmt,
    (if decide (j ≥ 128) = true then a.dstT else a.dst) = dst at h
  split at h
  · next s1 heq =>
    cases h
    refine (State.opFlags_rm _ _ _ _).trans ?_
    split at heq
    · split at heq
      · next s2 heq2 =>
        exact (State.dstBytes_keepsRm _ _ _ _ _ _ _ s1 heq).trans (State.dstBytes_keepsRm _ _ _ _ _ _ _ s2 heq2)
      · next hne => exact absurd heq (hne s1)
    · split at heq
      · next s2 heq2 =>
        have h2 := State.drainElems_keepsRm _ _ _ _ _ _ _ s2 heq2
        split at heq
        · exact (State.drainScales_keepsRm _ _ _ _ _ _ _ _ _ _ s1 heq).trans h2
        · exact (State.drainScales_keepsRm _ _ _ _ _ _ _ _ _ _ s1 heq).trans h2
      · next hne => exact absurd heq (hne s1)
  · next hne => exact absurd h (hne s')

/-- A loop whose steps agree while the Ringmaster stands as at first. -/
theorem moveLoop_congr {step step' : State → Nat → Moved} {s0 : State} (hkeep : ∀ s j, (step s j).KeepsRm s)
    (heq : ∀ s j, s.rm = s0.rm → step' s j = step s j) : ∀ (n : Nat) (s : State) (j done : Nat), s.rm = s0.rm →
      moveLoop step' s j done n = moveLoop step s j done n
  | 0, _, _, _, _ => rfl
  | n + 1, s, j, done, hs => by
    simp only [moveLoop, heq s j hs]
    split
    · next s1 h1 => exact moveLoop_congr hkeep heq n s1 _ _ ((hkeep s j s1 h1).trans hs)
    · rfl

end Sys2Proof.Machine
end

section
/-!
SUPPORT. The matrix engine's events (R208, R217, R219, R221): a band committed, parked or failed; a page that is there
again; a tile zeroed; rows drained.
-/
namespace Sys2Proof.Claim

open Sys2Proof.Machine

/-! ## An operation of a company -/

theorem putEng_eq_setOp (s : State) (cid : Nat) (o : EngOp) : putEng s cid o = s.setOp cid o := by
  simp [putEng, State.setOp, Company.setOp]

theorem finish_eq_finished (failed : Bool) (o : EngOp) : o.finish failed = finished failed o := rfl

theorem engCtx?_eq {s : State} {c : Company} (o : EngOp) (h : s.company? c.cid = some c) :
    s.engCtx? c.cid o = some (ctxOf s c o) := by
  rw [State.engCtx?, h]; rfl

/-- The unit that works on an operation depends on the launch alone. -/
theorem ctxOf_congr {s s' : State} (h : s'.rm = s.rm) (c : Company) (o : EngOp) : ctxOf s' c o = ctxOf s c o := by
  simp [ctxOf, State.rootOf, State.queueOf, State.launch?, h]

theorem engOp?_of_find {s : State} {c : Company} {o : EngOp} (h : s.company? c.cid = some c)
    (ho : c.ops.find? (·.id == o.id) = some o) : s.engOp? c.cid o.id = some o := (State.engOp?_eq h).trans ho

theorem not_waiting {s : State} {o : EngOp} (h : o.parked = none) : EngOp.waiting s o = false := by
  rw [EngOp.waiting, h]

/-! ## Work on the next band -/

section band
variable {s : State} {c : Company} {o : EngOp} {a : MmaArgs} (hw : Working s c o) (hk : o.kind = .mma a)
  (hb : s.bandEnabled c.cid o a = true)
include hw hk hb

theorem workBand_of_deliverPark {s0 : State} {token : Nat} (hdel : o.delivered = [])
    (hd : s.deliverBand (ctxOf s c o) o a = .error (.park s0 token)) (only : Bool) :
    s.workBand c.cid o.id only = s0.parkMma c.cid o true token := by
  obtain ⟨hc, ho, -, -⟩ := hw
  simp [State.workBand, hc, engOp?_of_find hc ho, engCtx?_eq o hc, hk, hb, hdel, hd]

/-- The rows of B that stand ready for the next band: the bus's, or those that are fetched for a pair now. -/
def Delivers (s : State) (x : EngCtx) (o : EngOp) (a : MmaArgs) (s0 : State) (got : List OpRow) : Prop :=
  (o.delivered = [] ∧ s.deliverBand x o a = .ok (s0, got)) ∨ (o.delivered ≠ [] ∧ s0 = s ∧ got = o.delivered)

theorem workBand_of_delivers {s0 : State} {got : List OpRow} (hd : Delivers s (ctxOf s c o) o a s0 got) (only : Bool) :
    (∀ s1 words fl bad, s0.band (ctxOf s c o) a (c.tiles.getD a.tile []) (o.rows / 16) got = .ready s1 words fl bad →
      s.workBand c.cid o.id false = s1.commitBand c.cid o a words fl bad) ∧
    (∀ shared s1 token, s0.band (ctxOf s c o) a (c.tiles.getD a.tile []) (o.rows / 16) got = .stop shared (.park s1 token) →
      s.workBand c.cid o.id only = s1.parkMma c.cid o shared token) ∧
    (∀ shared s1, s0.band (ctxOf s c o) a (c.tiles.getD a.tile []) (o.rows / 16) got = .stop shared (.fail s1) →
      s.workBand c.cid o.id false = s1.finishMma c.cid o a true) := by
  obtain ⟨hc, ho, -, -⟩ := hw
  have hrows : (if o.delivered.isEmpty then s.deliverBand (ctxOf s c o) o a else .ok (s, o.delivered)) = .ok (s0, got) := by
    obtain ⟨hdel, hok⟩ | ⟨hdel, rfl, rfl⟩ := hd
    · simp [hdel, hok]
    · simp [hdel]
  refine ⟨fun s1 words fl bad hband => ?_, fun shared s1 token hband => ?_, fun shared s1 hband => ?_⟩ <;>
    simp only [State.workBand, hc, engOp?_of_find hc ho, engCtx?_eq o hc, hk, hb, hrows, hband] <;> rfl

end band

/-! ## A band that commits (R208) -/

/-- The words of a band in their tile. -/
def tilesAfter (c : Company) (a : MmaArgs) (words : List (Nat × Word)) : List (Cells 32) :=
  listModify c.tiles a.tile fun m => words.foldl (fun m w => cellPut m w.1 w.2) m

theorem tilesAfter_getD (c : Company) (a : MmaArgs) (words : List (Nat × Word)) :
    (a.tile < c.tiles.length →
      (tilesAfter c a words).getD a.tile [] = words.foldl (fun m w => cellPut m w.1 w.2) (c.tiles.getD a.tile [])) ∧
    ∀ k, k ≠ a.tile → (tilesAfter c a words).getD k [] = c.tiles.getD k [] :=
  ⟨getD_listModify_same _ _ _ _, fun k hk => getD_listModify_other _ _ _ _ k hk⟩

theorem SameWork.op? {s : State} {c : Company} (h : SameWork s c) {o : EngOp} (ho : c.op? o.id = some o) :
    ∃ c1 o1, s.company? c.cid = some c1 ∧ c1.tiles = c.tiles ∧ c1.op? o.id = some o1 := by
  obtain ⟨c1, hc1, htiles, hops⟩ := h
  have hkeep (c : Company) : (c.ops.map fun (e : EngOp) => { e with delivered := [] }).find? (·.id == o.id) =
      (c.op? o.id).map fun (e : EngOp) => { e with delivered := [] } :=
    find?_map_keeps (key := EngOp.id) (g := fun e => { e with delivered := [] }) (fun _ => rfl) c.ops
  have hsome : (c1.op? o.id).map (fun (e : EngOp) => { e with delivered := [] }) = some { o with delivered := [] } := by
    rw [← hkeep, hops, hkeep, ho]; rfl
  obtain ⟨o1, ho1, -⟩ := Option.map_eq_some_iff.mp hsome
  exact ⟨c1, o1, hc1, htiles, ho1⟩

theorem stage_partner? (s : State) (cid : Nat) (a : MmaArgs) (lines : List Nat) (i j : Nat) :
    (s.stage cid a lines).partner? i j = s.partner? i j := by
  unfold State.stage
  split
  · refine foldl_keeps (·.partner? i j) (fun s l => ?_) lines s
    dsimp only [State.fillLine, State.wakeLine]
    split <;> rfl
  · rfl

theorem op?_setOp_of_some {c : Company} {o p : EngOp} (h : c.op? p.id = some o) : (c.setOp p).op? p.id = some p := by
  rw [Company.op?_setOp_same, h]; rfl

/-- The operation of a band that has committed. -/
def committedOp (o : EngOp) (fl : Flags) : EngOp :=
  { o with rows := o.rows + 16, flags := o.flags ||| fl, held := false, delivered := [] }

theorem finishMma_ends {s : State} {cid : Nat} {c : Company} {o o1 : EngOp} (a : MmaArgs) (hc : s.company? cid = some c)
    (ho : c.op? o.id = some o1) (hp : s.partner? cid o.id = none) :
    ∃ c', (s.finishMma cid o a false).company? cid = some c' ∧ c'.op? o.id = some (finished false o) ∧ c'.tiles = c.tiles := by
  have hp' : ((s.setOp cid (finished false o)).putMrp cid (finished false o)).partner? cid o.id = none :=
    (State.putMrp_partner? _ _ _ _ _).trans hp
  have hstate : s.finishMma cid o a false = ((s.setOp cid (finished false o)).putMrp cid (finished false o)).stage cid a
      (linesOf a.stg Config.stagingBytes) := by
    simp only [State.finishMma, finish_eq_finished, show (finished false o).id = o.id from rfl, hp']
  rw [hstate]
  obtain ⟨c', hc', hst⟩ := State.stage_company? a (linesOf a.stg Config.stagingBytes)
    ((State.putMrp_company? (s.setOp cid (finished false o)) cid (finished false o) cid).trans
      ((State.company?_setOp_same s cid (finished false o)).trans (congrArg (Option.map _) hc)))
  obtain ⟨o', ho', hsame⟩ := hst.op? (op?_setOp_of_some (p := finished false o) ho)
  exact ⟨c', hc', ho'.trans (congrArg some (hsame rfl)), hst.1⟩

section commit
variable {s : State} {c : Company} {o : EngOp} {a : MmaArgs} {words : List (Nat × Word)} {fl : Flags}
  (h : SameWork s c) (ho : c.op? o.id = some o)
include h ho

/-- The tile and the operation once the band's words are written and its lines staged. -/
theorem bandWritten (lines : List Nat) :
    ∃ c2 o2, ((s.updCompany c.cid fun c => { c with tiles := tilesAfter c a words }).stage c.cid a lines).company? c.cid = some c2 ∧
      c2.tiles = tilesAfter c a words ∧ c2.op? o.id = some o2 := by
  obtain ⟨c1, o1, hc1, htiles, ho1⟩ := h.op? ho
  obtain ⟨c2, hc2, hst⟩ := State.stage_company? a lines
    (State.company?_updCompany_some (fun c => { c with tiles := tilesAfter c a words }) (fun _ => rfl) hc1)
  obtain ⟨o2, ho2, -⟩ := hst.op? (id := o.id) (o := o1) ho1
  exact ⟨c2, o2, hc2, hst.1.trans (by simp only [tilesAfter, htiles]), ho2⟩

theorem commitBand_goesOn (hrows : o.rows + 16 < 128) :
    ∃ c', (s.commitBand c.cid o a words fl false).company? c.cid = some c' ∧ c'.op? o.id = some (committedOp o fl) ∧
      c'.tiles = tilesAfter c a words := by
  obtain ⟨c2, o2, hc2, htiles, ho2⟩ := bandWritten (words := words) (a := a) h ho (bandLines a (o.rows / 16))
  have hstate : s.commitBand c.cid o a words fl false =
      ((((s.updCompany c.cid fun c => { c with tiles := tilesAfter c a words }).stage c.cid a
        (bandLines a (o.rows / 16))).setOp c.cid (committedOp o fl)).putMrp c.cid (committedOp o fl)) :=
    if_neg (by simp only [ge_iff_le]; omega)
  refine ⟨c2.setOp (committedOp o fl), ?_, op?_setOp_of_some (p := committedOp o fl) ho2, htiles⟩
  rw [hstate, State.putMrp_company?, State.company?_setOp_same, hc2]; rfl

theorem commitBand_last (hrows : 128 ≤ o.rows + 16) (hp : s.partner? c.cid o.id = none) :
    ∃ c', (s.commitBand c.cid o a words fl false).company? c.cid = some c' ∧
      c'.op? o.id = some (finished false { o with rows := o.rows + 16, flags := o.flags ||| fl, delivered := [] }) ∧
      c'.tiles = tilesAfter c a words := by
  obtain ⟨c2, o2, hc2, htiles, ho2⟩ := bandWritten (words := words) (a := a) h ho (bandLines a (o.rows / 16))
  have hstate : s.commitBand c.cid o a words fl false =
      (((s.updCompany c.cid fun c => { c with tiles := tilesAfter c a words }).stage c.cid a
        (bandLines a (o.rows / 16))).finishMma c.cid (committedOp o fl) a false) := if_pos hrows
  rw [hstate]
  obtain ⟨c', hc', ho', htiles'⟩ := finishMma_ends (o := committedOp o fl) a hc2 ho2 ((stage_partner? _ _ _ _ _ _).trans hp)
  exact ⟨c', hc', ho', htiles'.trans htiles⟩

end commit

/-! ## The other events of the engine -/

theorem operandFetchResume_goesOn {s : State} {c : Company} {o : EngOp} {a : MmaArgs} {token : Nat}
    (hc : s.company? c.cid = some c) (ho : c.ops.find? (·.id == o.id) = some o) (hk : o.kind = .mma a)
    (hpark : o.parked = some token) (hf : ∀ f ∈ s.rm.faults, f.token ≠ token) (hp : s.partner? c.cid o.id = none) :
    exec (.operandFetchResume c.cid o.id) s = .next
      ((putEng s c.cid { o with parked := none }).putMrp c.cid { o with parked := none }) := by
  have hwait : EngOp.waiting s o = false := by simpa [EngOp.waiting, hpark] using hf
  change execOperandFetchResume c.cid o.id s = _
  simp [execOperandFetchResume, engOp?_of_find hc ho, hk, hpark, hwait, EngKind.isMma, State.isPaired, hp, putEng_eq_setOp]

theorem mzeroExecute_zeroes {s : State} {c : Company} {o : EngOp} {k : Nat} (hw : Working s c o) (hk : o.kind = .mzero k)
    (hh : s.atHead c.cid o.id = true) (hlt : k < c.tiles.length) :
    ∃ s' c', exec (.mzeroExecute c.cid o.id) s = .next s' ∧ s'.company? c.cid = some c' ∧
      s' = { s with companies := s'.companies } ∧ c'.tiles.getD k [] = [] ∧
      (∀ j, j ≠ k → c'.tiles.getD j [] = c.tiles.getD j []) ∧ (∀ i, i ≠ c.cid → s'.company? i = s.company? i) := by
  obtain ⟨hc, ho, -, -⟩ := hw
  refine ⟨s.updCompany c.cid fun c => { c with tiles := c.tiles.set k [], ops := c.ops.filter (·.id != o.id) }, _, ?_,
    State.company?_updCompany_some _ (fun _ => rfl) hc, rfl, ?_, fun j hj => ?_,
    fun i hi => State.company?_updCompany_other (fun _ => rfl) hi⟩
  · change execMzeroExecute c.cid o.id s = _
    simp [execMzeroExecute, engOp?_of_find hc ho, hk, hh]
  · simp [List.getD_eq_getElem?_getD, hlt]
  · simp [List.getD_eq_getElem?_getD, hj.symm]

theorem mdrainExecute_moves {s : State} {c : Company} {o : EngOp} {a : DrainArgs} (rows : Nat) (hw : Working s c o)
    (hk : o.kind = .mdrain a) (hh : s.atHead c.cid o.id = true) :
    exec (.mdrainExecute c.cid o.id rows) s = .next (afterDrain c.cid o.id a
      (moveLoop (fun s j => s.drainOne (ctxOf s c o) o.id a (c.tiles.getD a.tile []) j) s o.rows 0
        (min rows ((if a.tr then 256 else 128) - o.rows)))) := by
  obtain ⟨hc, ho, hd, hpark⟩ := hw
  change execMdrainExecute c.cid o.id rows s = _
  simp only [execMdrainExecute, hc, engOp?_of_find hc ho, engCtx?_eq o hc, hk]
  have hgo : ¬ (!s.atHead c.cid o.id || o.done || EngOp.waiting s o) = true := by simp [hh, hd, not_waiting hpark]
  rw [if_neg hgo, moveLoop_congr (s0 := s) (fun s j => s.drainOne_keepsRm (ctxOf _ c o) o.id a _ j)
    (fun s1 j h1 => by rw [ctxOf_congr h1]) _ s _ _ rfl]

end Sys2Proof.Claim
end

section
/-!
SUPPORT. The broadcast bus (R227-R229): offers, pairs, windows and splits.
-/
namespace Sys2Proof.Claim

open Sys2Proof.Machine

/-! ## Counters of the cluster (R226) -/

theorem counted_toNat (n : DWord) : (counted n).toNat = min (n.toNat + 1) (2 ^ 64 - 1) := by
  have := n.isLt
  unfold counted
  split
  · simp [BitVec.toNat_add]; omega
  · omega

theorem stick_toNat (n : DWord) (k : Nat) : (stick n k).toNat = min (n.toNat + k) (2 ^ 64 - 1) := by
  unfold stick
  split
  · simp [BitVec.toNat_add]; omega
  · simp; omega

theorem stick_one (n : DWord) : stick n 1 = counted n :=
  BitVec.eq_of_toNat_eq (by rw [stick_toNat, counted_toNat])

theorem stick_two (n : DWord) : stick n 2 = counted (counted n) :=
  BitVec.eq_of_toNat_eq (by rw [stick_toNat, counted_toNat, counted_toNat]; omega)

/-! ## Offers -/

theorem setBus_eq {s : State} {p : Nat × Nat} {o : EngOp} (v : Nat) (h : s.engOp? p.1 p.2 = some o) :
    s.setBus p v = s.setOp p.1 { o with bus := v } := by rw [State.setBus, h]

theorem engOp?_id {s : State} {cid id : Nat} {o : EngOp} (h : s.engOp? cid id = some o) : o.id = id := by
  obtain ⟨c, -, ho⟩ := Option.bind_eq_some_iff.mp h
  exact Company.op?_id ho

theorem setBus_engOp?_same {s : State} {p : Nat × Nat} {o : EngOp} (v : Nat) (h : s.engOp? p.1 p.2 = some o) :
    (s.setBus p v).engOp? p.1 p.2 = some { o with bus := v } := by
  have hid : o.id = p.2 := engOp?_id h
  rw [setBus_eq v h]
  rw [← hid] at h ⊢
  exact State.engOp?_setOp_same (p := { o with bus := v }) h

theorem setBus_engOp?_other (s : State) {p : Nat × Nat} (v : Nat) {i : Nat} (j : Nat) (hi : i ≠ p.1) :
    (s.setBus p v).engOp? i j = s.engOp? i j := by
  unfold State.setBus
  split
  · exact State.engOp?_setOp_other s _ hi
  · rfl

theorem setBus_cluster (s : State) (p : Nat × Nat) (v k : Nat) : (s.setBus p v).cluster k = s.cluster k := by
  unfold State.setBus; split <;> rfl

/-- With no offer of one of its cores, a cluster's bus resolves nothing. -/
theorem resolveBus_of_none {s : State} {k : Nat} (h : s.pendingOffer? (2 * k) = none ∨ s.pendingOffer? (2 * k + 1) = none) :
    ∀ n, s.resolveBus k n = s
  | 0 => rfl
  | n + 1 => by
    unfold State.resolveBus
    obtain h | h := h
    · simp [h]
    · cases hp : s.pendingOffer? (2 * k) <;> simp [h]

theorem pendingOffer?_eq {s : State} {core k : Nat} (hk : core / 2 = k) :
    s.pendingOffer? core = (s.cluster k).offers.find? (·.1 == core) := by
  rw [State.pendingOffer?, clusterOf, hk]

theorem resolveBus_of_single {s : State} {k core : Nat} {x : Nat × Nat} (h : (s.cluster k).offers = [(core, x)]) (n : Nat) :
    s.resolveBus k n = s := by
  refine resolveBus_of_none ?_ n
  rw [pendingOffer?_eq (k := k) (by omega), pendingOffer?_eq (k := k) (by omega), h]
  by_cases hc : core = 2 * k
  · exact .inr (by simp [hc])
  · exact .inl (by simp [hc])

theorem resolveBus_of_noOffers {s : State} {k : Nat} (h : (s.cluster k).offers = []) (n : Nat) : s.resolveBus k n = s :=
  resolveBus_of_none (.inl (by rw [pendingOffer?_eq (k := k) (by omega), h]; rfl)) n

/-- The offers that match pair, and leave the bus. -/
def paired (s : State) (k : Nat) (p q : Nat × Nat × Nat) : State :=
  ((s.updCluster k fun c => { c with
    offers := c.offers.filter (fun o => o != p && o != q), pairs := c.pairs ++ [(p.2, q.2)],
    clbpair := stick c.clbpair 2 }).setBus p.2 3).setBus q.2 3

theorem resolveBus_of_match {s : State} {k : Nat} {p q : Nat × Nat × Nat} (hp : s.pendingOffer? (2 * k) = some p)
    (hq : s.pendingOffer? (2 * k + 1) = some q) (op : s.offerOver k p = false) (oq : s.offerOver k q = false)
    (hm : s.offersMatch p.2 q.2 = true) (n : Nat) : s.resolveBus k (n + 1) = (paired s k p q).resolveBus k n := by
  rw [State.resolveBus]
  simp [hp, hq, op, oq, hm, paired]

theorem paired_cluster {s : State} {k : Nat} (p q : Nat × Nat × Nat) (hk : k < s.clusters.length) :
    (paired s k p q).cluster k = { s.cluster k with
      offers := (s.cluster k).offers.filter (fun o => o != p && o != q), pairs := (s.cluster k).pairs ++ [(p.2, q.2)],
      clbpair := counted (counted (s.cluster k).clbpair) } := by
  rw [paired, setBus_cluster, setBus_cluster, State.cluster_updCluster _ hk, stick_two]

theorem paired_engOp? {s : State} {k : Nat} {p q : Nat × Nat × Nat} {o u : EngOp} (hpq : p.2.1 ≠ q.2.1)
    (ho : s.engOp? p.2.1 p.2.2 = some o) (hu : s.engOp? q.2.1 q.2.2 = some u) :
    (paired s k p q).engOp? p.2.1 p.2.2 = some { o with bus := 3 } ∧
    (paired s k p q).engOp? q.2.1 q.2.2 = some { u with bus := 3 } := by
  refine ⟨?_, setBus_engOp?_same 3 ?_⟩
  · rw [paired, setBus_engOp?_other _ _ _ hpq]
    exact setBus_engOp?_same 3 ho
  · rw [setBus_engOp?_other _ _ _ hpq.symm]
    exact hu

/-- Two offers that match resolve the bus of their cluster. -/
theorem resolveBus_pairs {s : State} {k : Nat} {p q : Nat × Nat × Nat} (hk : k < s.clusters.length)
    (hoff : (s.cluster k).offers = [p, q] ∨ (s.cluster k).offers = [q, p])
    (hp : p.1 = 2 * k) (hq : q.1 = 2 * k + 1) (op : s.offerOver k p = false) (oq : s.offerOver k q = false)
    (hm : s.offersMatch p.2 q.2 = true) :
    s.resolveBus k 2 = paired s k p q ∧ ((paired s k p q).cluster k).offers = [] := by
  have hpend : s.pendingOffer? (2 * k) = some p ∧ s.pendingOffer? (2 * k + 1) = some q := by
    rw [pendingOffer?_eq (k := k) (by omega), pendingOffer?_eq (k := k) (by omega)]
    obtain h | h := hoff <;> simp [h, hp, hq]
  have hnone : ((paired s k p q).cluster k).offers = [] := by
    rw [paired_cluster p q hk]
    obtain h | h := hoff <;> simp [h]
  exact ⟨(resolveBus_of_match hpend.1 hpend.2 op oq hm 1).trans (resolveBus_of_noOffers hnone 1), hnone⟩

/-- Matching looks at the launches and the operations' kinds alone (R227). -/
theorem offersMatch_congr {s s' : State} {p q : Nat × Nat} {c c' d d' : Company} {o o' u u' : EngOp}
    (hc : s.company? p.1 = some c) (hd : s.company? q.1 = some d) (ho : s.engOp? p.1 p.2 = some o) (hu : s.engOp? q.1 q.2 = some u)
    (hc' : s'.company? p.1 = some c') (hd' : s'.company? q.1 = some d') (ho' : s'.engOp? p.1 p.2 = some o')
    (hu' : s'.engOp? q.1 q.2 = some u') (hcl : c'.lid = c.lid) (hdl : d'.lid = d.lid) (hok : o'.kind = o.kind)
    (huk : u'.kind = u.kind) : s'.offersMatch p q = s.offersMatch p q := by
  simp only [State.offersMatch, hc, hd, ho, hu, hc', hd', ho', hu', hcl, hdl, hok, huk]

/-! ## An offer joins the bus (R227, R228) -/

/-- An operation whose state on the bus is set now. -/
def onBus (s : State) (o : EngOp) (v : Nat) : EngOp := { o with bus := v, busClock := s.clock.toNat }

/-- The state as an operation's offer joins the bus. -/
def offered (s : State) (cid k core : Nat) (o : EngOp) : State :=
  (s.setOp cid (onBus s o 1)).updCluster k fun c =>
    { c with offers := c.offers ++ [(core, cid, o.id)] }

section offer
variable {s : State} {c : Company} {o : EngOp} {a : MmaArgs} {core : Nat} (hw : Working s c o) (hk : o.kind = .mma a)
  (hb : a.bcast = true) (hbus : o.bus = 0) (hcore : c.core = some core) (hn : s.offerNext core o.id = true)
  (hlt : core / 2 < s.clusters.length)

include hw hk hb hbus hcore hn in
theorem exec_busOffer {s' : State}
    (hs' : (offered s c.cid (core / 2) core o).resolveBus (core / 2) ((offered s c.cid (core / 2) core o).cluster (core / 2)).offers.length = s') :
    exec (.busOffer c.cid o.id) s = .next
      (if (s'.cluster (core / 2)).offers.contains (core, c.cid, o.id) = true ∧ (s'.cluster (core / 2)).clbwin.toNat % 2 ^ 20 = 0 then
        s'.offerAlone (core / 2) (core, c.cid, o.id) else s') := by
  obtain ⟨hc, ho, hd, -⟩ := hw
  subst hs'
  change execBusOffer c.cid o.id s = _
  simp only [execBusOffer, hc, engOp?_of_find hc ho, hk, hcore, clusterOf]
  have hgo : ¬ (!a.bcast || o.bus != 0 || o.done || !s.offerNext core o.id) = true := by simp [hb, hbus, hd, hn]
  rw [if_neg hgo]
  simp [offered, onBus, hk]

include hlt in
theorem offered_cluster : (offered s c.cid (core / 2) core o).cluster (core / 2) =
    { s.cluster (core / 2) with offers := (s.cluster (core / 2)).offers ++ [(core, c.cid, o.id)] } :=
  State.cluster_updCluster (s := s.setOp c.cid (onBus s o 1)) _ hlt

theorem offerAlone_eq {k : Nat} {p : Nat × Nat × Nat} {u : EngOp} (hu : s.engOp? p.2.1 p.2.2 = some u) :
    s.offerAlone k p = (s.setOp p.2.1 { u with bus := 2 }).updCluster k fun c =>
      { c with offers := c.offers.filter (· != p), clbmiss := counted c.clbmiss } := by
  simp only [State.offerAlone, stick_one]
  exact setBus_eq (o := u) 2 hu

include hw in
theorem offered_engOp? : (offered s c.cid (core / 2) core o).engOp? c.cid o.id =
    some (onBus s o 1) :=
  State.engOp?_setOp_same (o := o) (p := onBus s o 1) (engOp?_of_find hw.1 hw.2.1)

include hw hk hb hbus hcore hn hlt

theorem busOffer_waits (hoff : (s.cluster (core / 2)).offers = []) (hwin : (s.cluster (core / 2)).clbwin.toNat % 2 ^ 20 ≠ 0) :
    exec (.busOffer c.cid o.id) s = .next ((putEng s c.cid (onBus s o 1)).updCluster (core / 2)
      fun k => { k with offers := k.offers ++ [(core, c.cid, o.id)] }) := by
  have hcl := offered_cluster (c := c) (o := o) hlt
  rw [exec_busOffer hw hk hb hbus hcore hn (resolveBus_of_single (by rw [hcl, hoff]; rfl) _), if_neg (fun h => hwin (by rw [hcl] at h; exact h.2)),
    putEng_eq_setOp]
  rfl

theorem busOffer_alone (hoff : (s.cluster (core / 2)).offers = []) (hwin : (s.cluster (core / 2)).clbwin.toNat % 2 ^ 20 = 0) :
    exec (.busOffer c.cid o.id) s = .next ((putEng s c.cid (onBus s o 2)).updCluster (core / 2)
      fun k => { k with clbmiss := counted k.clbmiss }) := by
  have hcl := offered_cluster (c := c) (o := o) hlt
  have hu := offered_engOp? (core := core) hw
  rw [exec_busOffer hw hk hb hbus hcore hn (resolveBus_of_single (by rw [hcl, hoff]; rfl) _), if_pos (by rw [hcl, hoff]; exact ⟨by simp, hwin⟩),
    offerAlone_eq (p := (core, c.cid, o.id)) hu, putEng_eq_setOp]
  congr 1
  calc _ = (((s.setOp c.cid (onBus s o 1)).setOp c.cid
          (onBus s o 2)).updCluster (core / 2) fun k =>
            { k with offers := k.offers ++ [(core, c.cid, o.id)] }).updCluster (core / 2) fun k =>
            { k with offers := k.offers.filter (· != (core, c.cid, o.id)), clbmiss := counted k.clbmiss } := rfl
    _ = _ := by
      rw [State.setOp_setOp s c.cid (show (onBus s o 1).id = (onBus s o 2).id from rfl), State.updCluster_updCluster]
      refine State.updCluster_congr (s := s.setOp c.cid (onBus s o 2)) ?_
      change ({ s.cluster (core / 2) with
        offers := ((s.cluster (core / 2)).offers ++ [(core, c.cid, o.id)]).filter (· != (core, c.cid, o.id))
        clbmiss := counted (s.cluster (core / 2)).clbmiss } : Cluster) =
        { s.cluster (core / 2) with clbmiss := counted (s.cluster (core / 2)).clbmiss }
      rw [hoff, ← hoff]
      simp [hoff]

theorem busOffer_pairs {core2 c2 i2 : Nat} {o2 : EngOp} (hoff : (s.cluster (core / 2)).offers = [(core2, c2, i2)])
    (hne : core2 ≠ core) (hsame : core2 / 2 = core / 2) (ho2 : s.engOp? c2 i2 = some o2) (hc2 : c2 ≠ c.cid)
    (hwin : (s.cluster (core / 2)).clbwin.toNat % 2 ^ 20 ≠ 0)
    (hclk : s.clock.toNat - o2.busClock < (s.cluster (core / 2)).clbwin.toNat % 2 ^ 20)
    (hm : s.offersMatch (c.cid, o.id) (c2, i2) = true) (hm' : s.offersMatch (c2, i2) (c.cid, o.id) = true) :
    ∃ s', exec (.busOffer c.cid o.id) s = .next s' ∧ (s'.cluster (core / 2)).offers = [] ∧
      (s'.cluster (core / 2)).clbpair = counted (counted (s.cluster (core / 2)).clbpair) ∧
      ((s'.cluster (core / 2)).pairs = (s.cluster (core / 2)).pairs ++ [((c.cid, o.id), (c2, i2))] ∨
        (s'.cluster (core / 2)).pairs = (s.cluster (core / 2)).pairs ++ [((c2, i2), (c.cid, o.id))]) ∧
      s'.engOp? c.cid o.id = some (onBus s o 3) ∧ s'.engOp? c2 i2 = some { o2 with bus := 3 } := by
  have hcl := offered_cluster (c := c) (o := o) hlt
  obtain ⟨hc, ho, -, -⟩ := id hw
  obtain ⟨d, hd, -⟩ := Option.bind_eq_some_iff.mp ho2
  have hu1 := offered_engOp? (core := core) hw
  have hu2 : (offered s c.cid (core / 2) core o).engOp? c2 i2 = some o2 := (State.engOp?_setOp_other s _ hc2).trans ho2
  have hc1 : (offered s c.cid (core / 2) core o).company? c.cid = some (c.setOp (onBus s o 1)) :=
    (State.company?_setOp_same s c.cid _).trans (congrArg (Option.map _) hc)
  have hd1 : (offered s c.cid (core / 2) core o).company? c2 = some d := (State.company?_setOp_other s _ hc2).trans hd
  have hm1 := (offersMatch_congr (p := (c.cid, o.id)) (q := (c2, i2)) hc hd (engOp?_of_find hc ho) ho2 hc1 hd1 hu1 hu2
    rfl rfl rfl rfl).trans hm
  have hm2 := (offersMatch_congr (p := (c2, i2)) (q := (c.cid, o.id)) hd hc ho2 (engOp?_of_find hc ho) hd1 hc1 hu2 hu1
    rfl rfl rfl rfl).trans hm'
  have hclock : (offered s c.cid (core / 2) core o).clock = s.clock := rfl
  have hover1 : (offered s c.cid (core / 2) core o).offerOver (core / 2) (core, c.cid, o.id) = false := by
    have hnow : ¬ s.clock.toNat - (onBus s o 1).busClock ≥ (s.cluster (core / 2)).clbwin.toNat % 2 ^ 20 := by
      simp only [onBus, Nat.sub_self]; omega
    simp only [State.offerOver, hu1, hcl, hclock, Option.any_some, decide_eq_false hnow, Bool.and_false]
  have hover2 : (offered s c.cid (core / 2) core o).offerOver (core / 2) (core2, c2, i2) = false := by
    simp only [State.offerOver, hu2, hcl, hclock, Option.any_some, decide_eq_false hclk.not_ge, Bool.and_false]
  have hoffs : ((offered s c.cid (core / 2) core o).cluster (core / 2)).offers = [(core2, c2, i2), (core, c.cid, o.id)] := by
    rw [hcl, hoff]; rfl
  have hlt' : core / 2 < (offered s c.cid (core / 2) core o).clusters.length := by
    rw [offered, State.updCluster_clusters, listModify_length]; exact hlt
  by_cases heven : core = 2 * (core / 2)
  · obtain ⟨hres, hnone⟩ := resolveBus_pairs (p := (core, c.cid, o.id)) (q := (core2, c2, i2)) hlt' (.inr hoffs) heven
      (by simp only; omega) hover1 hover2 hm1
    obtain ⟨he1, he2⟩ := paired_engOp? (k := core / 2) (p := (core, c.cid, o.id)) (q := (core2, c2, i2)) hc2.symm hu1 hu2
    have hpc := paired_cluster (core, c.cid, o.id) (core2, c2, i2) hlt'
    refine ⟨_, (exec_busOffer hw hk hb hbus hcore hn (by rw [hoffs]; exact hres)).trans (congrArg _ (if_neg (by simp [hnone]))),
      hnone, ?_, .inl ?_, he1, he2⟩
    · rw [hpc, hcl]
    · rw [hpc, hcl]
  · obtain ⟨hres, hnone⟩ := resolveBus_pairs (p := (core2, c2, i2)) (q := (core, c.cid, o.id)) hlt' (.inl hoffs) (by simp only; omega)
      (by simp only; omega) hover2 hover1 hm2
    obtain ⟨he2, he1⟩ := paired_engOp? (k := core / 2) (p := (core2, c2, i2)) (q := (core, c.cid, o.id)) hc2 hu2 hu1
    have hpc := paired_cluster (core2, c2, i2) (core, c.cid, o.id) hlt'
    refine ⟨_, (exec_busOffer hw hk hb hbus hcore hn (by rw [hoffs]; exact hres)).trans (congrArg _ (if_neg (by simp [hnone]))),
      hnone, ?_, .inr ?_, he1, he2⟩
    · rw [hpc, hcl]
    · rw [hpc, hcl]


end offer

/-! ## Windows and splits (R228, R229) -/

theorem busWindowExpiry_alone {s : State} {c : Company} {o : EngOp} {core : Nat} (hc : s.company? c.cid = some c)
    (ho : c.ops.find? (·.id == o.id) = some o) (hoff : (s.cluster (core / 2)).offers = [(core, c.cid, o.id)])
    (hclk : (s.cluster (core / 2)).clbwin.toNat % 2 ^ 20 ≤ s.clock.toNat - o.busClock) :
    exec (.busWindowExpiry core) s = .next (putEng (s.updCluster (core / 2) fun k =>
      { k with offers := k.offers.filter (· != (core, c.cid, o.id)), clbmiss := counted k.clbmiss }) c.cid { o with bus := 2 }) := by
  have hp : s.pendingOffer? core = some (core, c.cid, o.id) := by rw [pendingOffer?_eq rfl, hoff]; simp
  have hu := engOp?_of_find hc ho
  have halone := offerAlone_eq (k := core / 2) (p := (core, c.cid, o.id)) hu
  have hlt : core / 2 < s.clusters.length := State.cluster_lt_of_offers (by simp [hoff])
  have hnone : ((s.offerAlone (core / 2) (core, c.cid, o.id)).cluster (core / 2)).offers = [] := by
    rw [halone, State.cluster_updCluster (s := s.setOp c.cid { o with bus := 2 }) _ hlt]
    change List.filter _ (s.cluster (core / 2)).offers = []
    simp [hoff]
  change execBusWindowExpiry core s = _
  simp only [execBusWindowExpiry, hp, hu]
  refine (if_neg hclk.not_gt).trans (congrArg Host.Outcome.next ?_)
  change (s.offerAlone (core / 2) (core, c.cid, o.id)).resolveBus (core / 2) _ = _
  rw [resolveBus_of_noOffers hnone, halone, putEng_eq_setOp]
  rfl

/-- What makes a pair dissolve: one of its operations is parked, or its company is out or going. -/
def stops (s : State) (p : Nat × Nat) : Bool :=
  match s.engOp? p.1 p.2 with
  | some o => !o.done && (o.parked.isSome || o.held || (s.company? p.1).any fun c => c.core.isNone || c.preempting)
  | none => false

theorem stops_of_parked {s : State} {p : Nat × Nat} {o : EngOp} (ho : s.engOp? p.1 p.2 = some o) (hd : o.done = false)
    (hpark : o.parked ≠ none) : stops s p = true := by
  simp [stops, ho, hd, Option.isSome_iff_ne_none.mpr hpark]

theorem stops_eq_false {s : State} {p : Nat × Nat} (h : ∀ o, s.engOp? p.1 p.2 = some o → o.done = true ∨
    (o.parked = none ∧ o.held = false ∧ ∀ c, s.company? p.1 = some c → c.core ≠ none ∧ c.preempting = false)) :
    stops s p = false := by
  unfold stops
  split
  · next o ho =>
    obtain hd | ⟨hpark, hheld, hc⟩ := h o ho
    · simp [hd]
    · have : (s.company? p.1).any (fun c => c.core.isNone || c.preempting) = false := by
        rw [Option.any_eq_false]
        intro c hcc
        obtain ⟨hcore, hpre⟩ := hc c hcc
        simp [hpre, Option.isNone_eq_false_iff, Option.isSome_iff_ne_none.mpr hcore]
      simp [hpark, hheld, this]
  · rfl

theorem exec_busPairSplit (s : State) (cluster : Nat) : exec (.busPairSplit cluster) s =
    .next (((s.cluster cluster).pairs.find? fun pair => stops s pair.1 || stops s pair.2).elim s fun pair =>
      (s.unpair pair.1.1 pair.1.2).updCluster cluster fun k => { k with clbsplit := counted k.clbsplit }) := by
  change execBusPairSplit cluster s = _
  simp only [← stick_one]
  unfold execBusPairSplit
  dsimp only
  change (match (s.cluster cluster).pairs.find? fun pair => stops s pair.1 || stops s pair.2 with
    | none => _
    | some (p, _) => _) = _
  split <;> rename_i h <;> rw [h] <;> rfl

end Sys2Proof.Claim
end

section
/-!
The first part of the obligation on the matrix engine: its events and the cluster bus (R208, R217, R219, R221, R227-R229).
-/
namespace Sys2Proof.Claim

open Sys2Proof.Machine

theorem deliverBand_alone (s : State) (x : EngCtx) (o : EngOp) (a : MmaArgs) (h : s.partner? x.cid o.id = none) :
    s.deliverBand x o a = .ok (s, []) := by simp only [State.deliverBand, h]

theorem deliverBand_shared {s : State} {x : EngCtx} {o p : EngOp} {a : MmaArgs} {k i : Nat} {s1 : State} {rs : List OpRow}
    (hpart : s.partner? x.cid o.id = some (k, i)) (hp : s.engOp? k i = some p) (hbus : o.bus = 3) (hd : p.done = false)
    (hrows : p.rows = o.rows) (hb : s.bandRows x a (o.rows / 16) = .ok (s1, rs)) :
    s.deliverBand x o a = .ok ((s1.setOp k { p with delivered := rs }).setOp x.cid { o with delivered := rs }, rs) := by
  have hgo : ¬ (o.bus != 3 || p.done || p.rows != o.rows) = true := by simp [hbus, hd, hrows]
  simp only [State.deliverBand, hpart, hp]
  rw [if_neg hgo, hb]

/-- The next band of an accepted MMA: it commits, alone or as the last one, or parks, or fails. -/
theorem bandEvents (s : State) (c : Company) (o : EngOp) (a : MmaArgs) (hw : Working s c o) (hk : o.kind = .mma a)
    (hb : s.bandEnabled c.cid o a = true) {s0 : State} {got : List OpRow} (hd : Delivers s (ctxOf s c o) o a s0 got) :
    let band := s0.band (ctxOf s c o) a (c.tiles.getD a.tile []) (o.rows / 16) got
    (∀ s1 words fl, band = .ready s1 words fl false → o.rows + 16 < 128 → SameWork s1 c →
      ∃ s' c', exec (.mmaExecute c.cid o.id) s = .next s' ∧ s'.company? c.cid = some c' ∧
        c'.op? o.id = some (committedOp o fl) ∧
        (a.tile < c.tiles.length → c'.tiles.getD a.tile [] = words.foldl (fun m w => cellPut m w.1 w.2) (c.tiles.getD a.tile [])) ∧
        ∀ k, k ≠ a.tile → c'.tiles.getD k [] = c.tiles.getD k []) ∧
    (∀ s1 words fl, band = .ready s1 words fl false → 128 ≤ o.rows + 16 → SameWork s1 c → s1.partner? c.cid o.id = none →
      ∃ s' c', exec (.mmaExecute c.cid o.id) s = .next s' ∧ s'.company? c.cid = some c' ∧
        c'.op? o.id = some (finished false { o with rows := o.rows + 16, flags := o.flags ||| fl, delivered := [] }) ∧
        (a.tile < c.tiles.length → c'.tiles.getD a.tile [] = words.foldl (fun m w => cellPut m w.1 w.2) (c.tiles.getD a.tile []))) ∧
    (∀ s1 shared token, band = .stop shared (.park s1 token) →
      exec (.mmaExecute c.cid o.id) s = .next (s1.parkMma c.cid o shared token) ∧
      exec (.operandFetchPark c.cid o.id) s = .next (s1.parkMma c.cid o shared token)) ∧
    (∀ s1 shared, band = .stop shared (.fail s1) → exec (.mmaExecute c.cid o.id) s = .next (s1.finishMma c.cid o a true)) := by
  obtain ⟨hready, hpark, hfail⟩ := workBand_of_delivers hw hk hb hd false
  obtain ⟨-, hpark', -⟩ := workBand_of_delivers hw hk hb hd true
  refine ⟨fun s1 words fl hband hrows hsame => ?_, fun s1 words fl hband hrows hsame hp => ?_, fun s1 shared token hband => ?_,
    fun s1 shared hband => congrArg Host.Outcome.next (hfail shared s1 hband)⟩
  · obtain ⟨c', hc', ho', ht⟩ := commitBand_goesOn (a := a) (words := words) (fl := fl) hsame hw.2.1 hrows
    obtain ⟨hsame, hother⟩ := tilesAfter_getD c a words
    exact ⟨_, c', congrArg Host.Outcome.next (hready s1 words fl false hband), hc', ho', ht ▸ hsame, ht ▸ hother⟩
  · obtain ⟨c', hc', ho', ht⟩ := commitBand_last (a := a) (words := words) (fl := fl) hsame hw.2.1 hrows hp
    exact ⟨_, c', congrArg Host.Outcome.next (hready s1 words fl false hband), hc', ho', ht ▸ (tilesAfter_getD c a words).1⟩
  · exact ⟨congrArg Host.Outcome.next (hpark shared s1 token hband), congrArg Host.Outcome.next (hpark' shared s1 token hband)⟩

theorem busPairSplit_dissolves {s : State} {c : Company} {o : EngOp} {q : Nat × Nat} {cluster : Nat}
    (hc : s.company? c.cid = some c) (ho : c.ops.find? (·.id == o.id) = some o) (hd : o.done = false) (hpark : o.parked ≠ none)
    (hpairs : (s.cluster cluster).pairs = [((c.cid, o.id), q)]) :
    exec (.busPairSplit cluster) s =
      .next ((s.unpair c.cid o.id).updCluster cluster fun k => { k with clbsplit := counted k.clbsplit }) := by
  have hstop : stops s (c.cid, o.id) = true := stops_of_parked (engOp?_of_find hc ho) hd hpark
  rw [exec_busPairSplit, hpairs, List.find?_cons_of_pos (by simp [hstop])]
  rfl

theorem busPairSplit_keeps {s : State} {cluster : Nat}
    (h : ∀ pair ∈ (s.cluster cluster).pairs, ∀ p ∈ [pair.1, pair.2], ∀ o, s.engOp? p.1 p.2 = some o → o.done = true ∨
      (o.parked = none ∧ o.held = false ∧ ∀ c, s.company? p.1 = some c → c.core ≠ none ∧ c.preempting = false)) :
    exec (.busPairSplit cluster) s = .next s := by
  have hnone : ((s.cluster cluster).pairs.find? fun pair => stops s pair.1 || stops s pair.2) = none := by
    refine List.find?_eq_none.mpr fun pair hpair => ?_
    simp [stops_eq_false (h pair hpair pair.1 (by simp)), stops_eq_false (h pair hpair pair.2 (by simp))]
  rw [exec_busPairSplit, hnone]
  rfl

theorem matrixEngine : MatrixEngine := by
  refine ⟨fun s c o a hw hk hb => ⟨fun s0 token hdel hd => congrArg Host.Outcome.next (workBand_of_deliverPark hw hk hb hdel hd false),
      fun s0 got hd => bandEvents s c o a hw hk hb hd⟩,
    fun s x o a hp => deliverBand_alone s x o a hp,
    fun s x o a k i p s1 rs hpart hp hbus hd hrows hb => deliverBand_shared hpart hp hbus hd hrows hb,
    fun s c o a token hc ho hk hpark hf hp => operandFetchResume_goesOn hc ho hk hpark hf hp,
    fun s c o k hw hk hh hlt => mzeroExecute_zeroes hw hk hh hlt,
    fun s c o a rows hw hk hh => mdrainExecute_moves rows hw hk hh,
    fun s c o a core hw hk hb hbus hcore hn hlt => ⟨busOffer_waits hw hk hb hbus hcore hn hlt, busOffer_alone hw hk hb hbus hcore hn hlt,
      fun core2 c2 i2 o2 hoff hne hsame ho2 hc2 hwin hclk hm hm' =>
        busOffer_pairs hw hk hb hbus hcore hn hlt hoff hne hsame ho2 hc2 hwin hclk hm hm'⟩,
    fun s c o core hc ho hoff hclk => busWindowExpiry_alone hc ho hoff hclk,
    fun s c o q cluster hc ho hd hpark hpairs => busPairSplit_dissolves hc ho hd hpark hpairs,
    fun s cluster h => busPairSplit_keeps h⟩

end Sys2Proof.Claim
end

section
/-!
SUPPORT. ACCUM and LATSUM of the matrix engine (R25-R30, R194, R211): which rule the formats choose, and each rule as steps over the groups or blocks
in increasing K.
-/
namespace Sys2Proof.Claim

open Sys2Proof.Machine

/-! ## Which rule (R194) -/

theorem isFp8_iff (c : Nat) : isFp8 c = true ↔ c = 3 ∨ c = 4 := by simp [isFp8, cE4M3, cE5M2]

theorem isMxFmt_iff (c : Nat) : isMxFmt c = true ↔ 3 ≤ c ∧ c ≤ 8 := by simp [isMxFmt]

theorem mmaRule_of_sm0 (af bf : Nat) : mmaRule? 0 af bf =
    if af = bf ∧ (af = 1 ∨ af = 2) then some .groups else if af = bf ∧ af = 0 then some .synthesised
    else if af = bf ∧ af = 9 then some .int8 else if (af = 3 ∨ af = 4) ∧ (bf = 3 ∨ bf = 4) then some .fp8 else none := by
  simp only [mmaRule?, isFp8, cBF16, cFP16, cFP32, cINT8, cE4M3, cE5M2, Bool.and_eq_true, Bool.or_eq_true, beq_iff_eq, if_true]

theorem mmaRule_of_sm1 (af bf : Nat) : mmaRule? 1 af bf = if (af = 3 ∨ af = 4) ∧ (bf = 3 ∨ bf = 4) then some .fp8 else none := by
  simp [mmaRule?, isFp8_iff]

theorem mmaRule_of_sm2 (af bf : Nat) :
    mmaRule? 2 af bf = if (3 ≤ af ∧ af ≤ 8) ∧ 3 ≤ bf ∧ bf ≤ 8 then some .mx else none := by simp [mmaRule?, isMxFmt_iff]

theorem mmaRule_of_reserved (n af bf : Nat) : mmaRule? (n + 3) af bf = none := by simp [mmaRule?]

theorem mmaRule_iff (sm af bf : Nat) : let float (c : Nat) : Prop := c = 1 ∨ c = 2
    let fp8 (c : Nat) : Prop := c = 3 ∨ c = 4
    (mmaRule? sm af bf = some .groups ↔ sm = 0 ∧ af = bf ∧ float af) ∧ (mmaRule? sm af bf = some .synthesised ↔ sm = 0 ∧ af = 0 ∧ bf = 0) ∧
    (mmaRule? sm af bf = some .int8 ↔ sm = 0 ∧ af = 9 ∧ bf = 9) ∧ (mmaRule? sm af bf = some .fp8 ↔ (sm = 0 ∨ sm = 1) ∧ fp8 af ∧ fp8 bf) ∧
    (mmaRule? sm af bf = some .mx ↔ sm = 2 ∧ 3 ≤ af ∧ af ≤ 8 ∧ 3 ≤ bf ∧ bf ≤ 8) := by
  match sm with
  | 0 =>
    rw [mmaRule_of_sm0]
    split_ifs <;> simp <;> omega
  | 1 =>
    rw [mmaRule_of_sm1]
    split_ifs <;> simp <;> omega
  | 2 =>
    rw [mmaRule_of_sm2]
    split_ifs <;> simp <;> omega
  | n + 3 =>
    rw [mmaRule_of_reserved]
    simp

/-! ## Groups and steps -/

theorem groupsOf_eq {α : Type} (k : Nat) : ∀ (n : Nat) (xs : List α), groupsOf k xs n = (List.range n).map fun g => (xs.drop (k * g)).take k
  | 0, _ => rfl
  | n + 1, xs => by
    rw [groupsOf, groupsOf_eq k n, List.range_succ_eq_map]
    simp [Function.comp_def, Nat.mul_add, Nat.add_comm]

theorem stepsOf_eq_foldl (step : Rounded → Nat → Rounded) (acc : Rounded) : ∀ n, stepsOf step acc n = (List.range n).foldl step acc
  | 0 => rfl
  | n + 1 => by rw [stepsOf, stepsOf_eq_foldl step acc n, List.range_succ, List.foldl_append]; rfl

theorem zipIdx_map_range {α : Type} (f : Nat → α) (n : Nat) : ((List.range n).map f).zipIdx = (List.range n).map fun g => (f g, g) := by
  apply List.ext_getElem <;> simp

/-- The groups of two rows, in pairs. -/
theorem zip_groupsOf {α : Type} (k n : Nat) (xs ys : List α) : (groupsOf k xs n).zip (groupsOf k ys n) =
    (List.range n).map fun g => ((xs.drop (k * g)).take k, (ys.drop (k * g)).take k) := by rw [groupsOf_eq, groupsOf_eq, List.zip_map']

theorem accGroups_eq (xs ys : List Val) (acc : Rounded) (n : Nat) :
    accGroups acc ((groupsOf 32 xs n).zip (groupsOf 32 ys n)) = groupSums xs ys acc n := by
  rw [zip_groupsOf, groupSums, stepsOf_eq_foldl, accGroups, List.foldl_map]
  rfl

/-- One of the three passes of R30: the parts of every element, group by group. -/
theorem accGroups_map (f g : Val → Val) (xs ys : List Val) (acc : Rounded) (n : Nat) :
    accGroups acc (((groupsOf 32 xs n).zip (groupsOf 32 ys n)).map fun (x, y) => (x.map f, y.map g)) =
      groupSums (xs.map f) (ys.map g) acc n := by
  rw [← accGroups_eq, zip_groupsOf, zip_groupsOf, List.map_map]
  simp [Function.comp_def, List.map_take, List.map_drop]

theorem latSum_eq (xs ys : List Val) : latSum xs ys = groupSums xs ys ⟨2 ^ 31, 0⟩ (xs.length / 32) := accGroups_eq xs ys _ _

theorem latent_eq (xs ys : List Val) : fp32.decode (latSum xs ys).code = latent xs ys := by rw [latSum_eq]; rfl

/-! ## The rules (R25, R27-R30) -/

theorem splitFp32_eq (x : Val) : splitFp32 x = (highPart x, lowPart x) := by cases x <;> rfl

theorem signedOf_eq_toInt (n : Nat) : signedOf 32 n = (BitVec.ofNat 32 n).toInt := by
  rw [signedOf, BitVec.toInt_eq_toNat_cond, BitVec.toNat_ofNat]
  split_ifs <;> omega

theorem codeOf_eq_toNat (i : Int) : codeOf 32 i = (BitVec.ofInt 32 i).toNat := by rw [codeOf, BitVec.toNat_ofInt]

theorem accMx_eq (acc : Rounded) (x y : List Val) (xa xb : Nat) : accMx acc x y xa xb =
    if xa = 0xFF ∨ xb = 0xFF then plus acc ⟨fp32.nanCode, 0⟩
    else plus acc (fp32.finish ⟨(sumProducts x y).v.scale ((xa : Int) - 127 + ((xb : Int) - 127)), (sumProducts x y).nv⟩) := by
  have he : (xa : Int) + xb - 254 = (xa : Int) - 127 + ((xb : Int) - 127) := by omega
  simp only [accMx, he, Bool.or_eq_true, decide_eq_true_eq]
  rfl

theorem accum_groups (kc acc : Nat) (a b : EngRow) : accum .groups kc acc a b = accumulated .groups kc acc a b :=
  accGroups_eq a.vals b.vals ⟨acc, 0⟩ (kc / 32)

theorem accum_synthesised (kc acc : Nat) (a b : EngRow) : accum .synthesised kc acc a b = accumulated .synthesised kc acc a b := by
  simp only [accum, splitFp32_eq, accumulated, ← accGroups_map]
  rfl

theorem accum_int8 (kc acc : Nat) (a b : EngRow) : accum .int8 kc acc a b = accumulated .int8 kc acc a b := by
  simp only [accum, accumulated, zip_groupsOf, stepsOf_eq_foldl, List.foldl_map, accInt8, signedOf_eq_toInt, codeOf_eq_toNat, clampInt]
  rfl

theorem accum_fp8 (kc acc : Nat) (a b : EngRow) : accum .fp8 kc acc a b = accumulated .fp8 kc acc a b := by
  simp only [accum, accumulated, zip_groupsOf, zipIdx_map_range, stepsOf_eq_foldl, List.foldl_map]
  rfl

theorem accum_mx (kc acc : Nat) (a b : EngRow) : accum .mx kc acc a b = accumulated .mx kc acc a b := by
  simp only [accum, accumulated, zip_groupsOf, zipIdx_map_range, stepsOf_eq_foldl, List.foldl_map, accMx_eq]
  rfl

theorem accum_eq (rule : MmaRule) (kc acc : Nat) (a b : EngRow) : accum rule kc acc a b = accumulated rule kc acc a b := by
  cases rule with
  | groups => exact accum_groups kc acc a b
  | synthesised => exact accum_synthesised kc acc a b
  | int8 => exact accum_int8 kc acc a b
  | fp8 => exact accum_fp8 kc acc a b
  | mx => exact accum_mx kc acc a b

end Sys2Proof.Claim
end

section
/-!
SUPPORT. The sides of a band and their rows (R203, R208, R211, R212), the words of a band, and the rows of a drain (R221); then the second part
of the obligation on the matrix engine, and the obligation.
-/
namespace Sys2Proof.Claim

open Sys2Proof.Machine

/-! ## Bands (R208) -/

theorem band_of_sides {s : State} {x : EngCtx} {a : MmaArgs} {tile : Cells 32} {band : Nat} {got : List OpRow} {s1 s2 : State} {A B : Side}
    {rule : MmaRule} (hA : s.sideA x a = .ok (s1, A)) (hB : s1.sideB x a band got = .ok (s2, B)) (hr : mmaRule? a.sm a.af a.bf = some rule) :
    let kc := if a.lat = 2 then a.lr else a.k
    let new (i j : Nat) (ra rb : EngRow) : Rounded := accumulated rule kc (cellGet tile (128 * i + 16 * band + j)).toNat ra rb
    ∃ words fl, s.band x a tile band got = .ready s2 words fl (A.bad || B.bad) ∧
      ∀ w, w ∈ words ↔ ∃ i j ra rb, A.rows[i]? = some ra ∧ B.rows[j]? = some rb ∧
        w = (128 * i + 16 * band + j, BitVec.ofNat 32 (new i j ra rb).code) := by
  intro kc new
  simp only [State.band, hA, hB, hr, accum_eq]
  refine ⟨_, _, rfl, fun w => ?_⟩
  simp only [List.mem_map, List.mem_flatMap, Prod.exists, List.mem_zipIdx_iff_getElem?]
  constructor
  · rintro ⟨k, r, ⟨ra, i, hi, rb, j, hj, hk⟩, rfl⟩
    obtain ⟨rfl, rfl⟩ := Prod.mk.inj hk
    exact ⟨i, j, ra, rb, hi, hj, rfl⟩
  · rintro ⟨i, j, ra, rb, hi, hj, rfl⟩
    exact ⟨_, _, ⟨ra, i, hi, rb, j, hj, rfl⟩, rfl⟩

/-! ## The sides (R203, R211, R212) -/

theorem latSums_fst (xs ys : List (List Val)) : (latSums xs ys).1 = xs.map fun x => ys.map fun y => latent x y := by
  simp only [latSums, List.map_map, Function.comp_def, latent_eq]

theorem sideA_exact {s : State} {x : EngCtx} {a : MmaArgs} {s1 : State} {rs : List OpRow}
    (h : fetchMany (fun s i => s.operandRow x a.a a.af a.k (scaleKindA a.sm) i) s 0 [] 128 = .ok (s1, rs)) (hl : a.lat ≠ 2) :
    s.sideA x a = .ok (s1, ⟨rs.map fun r => ⟨r.codes.map (decodeElem a.af), r.scales⟩, 0, rs.any (·.bad)⟩) := by
  simp only [State.sideA, h, bind, Except.bind, if_neg hl]
  rfl

theorem sideA_latent {s : State} {x : EngCtx} {a : MmaArgs} {s1 : State} {rs : List OpRow}
    (h : fetchMany (fun s i => s.operandRow x a.a a.af a.k (scaleKindA a.sm) i) s 0 [] 128 = .ok (s1, rs)) {s2 : State} {us : List (List Val)}
    {bad : Bool} (hl : a.lat = 2) (hu : s1.upProjection x a = .ok (s2, us, bad)) : ∃ side, s.sideA x a = .ok (s2, side) ∧
      side.rows = (quantRows a.af a.sm a.sat false (rs.map fun r => us.map fun u => latent (r.stageRow (a.a.fmt a.af)).1 u)).1 := by
  simp only [State.sideA, h, bind, Except.bind, if_pos hl, hu]
  refine ⟨_, rfl, ?_⟩
  simp only [latSums_fst, List.map_map, Function.comp_def]

theorem sideB_exact {s : State} {x : EngCtx} {a : MmaArgs} {band : Nat} {got : List OpRow} {s1 : State} {rs : List OpRow} (hl : a.lat ≠ 1)
    (h : if got = [] then s.bandRows x a band = .ok (s1, rs) else s1 = s ∧ rs = got) :
    s.sideB x a band got = .ok (s1, ⟨rs.map fun r => ⟨r.codes.map (decodeElem a.bf), r.scales⟩, 0, rs.any (·.bad)⟩) := by
  have hrows : (if got.isEmpty then s.bandRows x a band else .ok (s, got)) = .ok (s1, rs) := by
    cases got with
    | nil => simpa using h
    | cons r got =>
      obtain ⟨rfl, rfl⟩ : s1 = s ∧ rs = r :: got := by simpa using h
      rfl
  simp only [State.sideB, bind, Except.bind, if_neg hl, hrows]
  rfl

theorem sideB_latent {s : State} {x : EngCtx} {a : MmaArgs} {band : Nat} {got : List OpRow} {s1 : State} {rs : List OpRow} {s2 : State}
    {us : List (List Val)} {bad : Bool} (hl : a.lat = 1)
    (h : fetchMany (fun s i => s.operandRow x a.b a.bf a.lr (scaleKindB a.sm) i) s 0 [] 128 = .ok (s1, rs))
    (hu : s1.upProjection x a = .ok (s2, us, bad)) : ∃ side, s.sideB x a band got = .ok (s2, side) ∧
      side.rows = (((quantRows a.bf a.sm a.sat true (rs.map fun r => (List.range a.k).map fun k =>
        latent (r.stageRow (a.b.fmt a.bf)).1 (us.map fun u => u.getD k (.fin false 0 0)))).1).drop (16 * band)).take 16 := by
  have hn : (if a.lat = 0 then a.k else a.lr) = a.lr := if_neg (by omega)
  simp only [State.sideB, bind, Except.bind, if_pos hl, hn, h, hu]
  refine ⟨_, rfl, ?_⟩
  simp only [latSums_fst, columnsOf, List.map_map, Function.comp_def]

theorem stageRow_getElem? {r : OpRow} {k c : Nat} (F : Nat) (h : r.codes[k]? = some c) :
    (r.scales = [] → (r.stageRow F).1[k]? = some (decodeElem F c)) ∧
    (r.scales ≠ [] → let sc := r.scales.getD (k / r.block) 0
      (r.stageRow F).1[k]? = some (fp32.decode (if r.block = 32 then rne32 (mxDecode F sc c)
        else fp32.finish ((decodeElem F c).mul (fp32.decode sc))).code)) := by
  constructor <;> intro hs
  · simp [OpRow.stageRow, hs, h]
  · simp [OpRow.stageRow, hs, h]

/-! ## The quantised rows (R212) -/

section
variable {rows : List (List Val)} {i : Nat} {row : List Val} (F : Nat) (sat shared : Bool) (h : rows[i]? = some row)
include h

theorem quantRows_unscaled :
    (quantRows F 0 sat shared rows).1[i]? = some ⟨row.map fun v => decodeElem F (roundTo F .rn 0 sat false v).code, []⟩ := by
  simp [quantRows, h]

theorem quantRows_fp8 : let part (w g : Nat) (xs : List Val) : List Val := (xs.drop (w * g)).take w
    let scale (g : Nat) : Nat := fp8Scale F (if shared then rows.flatMap (part 128 g) else part 128 g row)
    (quantRows F 1 sat shared rows).1[i]? = some ⟨(List.range (row.length / 128)).flatMap fun g =>
        (part 128 g row).map fun v => decodeElem F (fp8Encode F .rn 0 sat v (fp32.decode (scale g))).code,
      (List.range (row.length / 128)).map scale⟩ := by
  simp [quantRows, h, groupsOf_eq, zipIdx_map_range, List.flatMap_map, Function.comp_def]

theorem quantRows_mx : let part (w g : Nat) (xs : List Val) : List Val := (xs.drop (w * g)).take w
    (quantRows F 2 sat shared rows).1[i]? = some ⟨(List.range (row.length / 32)).flatMap fun g =>
        (mxBlock F .rn (fun _ => 0) (part 32 g row)).2.1.map (decodeElem F),
      (List.range (row.length / 32)).map fun g => (mxBlock F .rn (fun _ => 0) (part 32 g row)).1⟩ := by
  simp [quantRows, h, groupsOf_eq, List.flatMap_map, Function.comp_def]

end

/-! ## Drained rows (R221) -/

theorem drainRow_eq (F : Nat) (mode : Mode) (sat : Bool) (r : Nat → Nat) (words : List Word) :
    ((drainRow F mode sat r words).1, (drainRow F mode sat r words).2.1) = drained F mode sat r words := by
  by_cases h32 : F = 10
  · simp only [drainRow, drained, cINT32, if_pos h32]
  · by_cases h8 : F = 3 ∨ F = 4
    · simp only [drainRow, drained, cINT32, if_neg h32, if_pos h8, if_pos ((isFp8_iff F).2 h8), List.map_map]
      rfl
    · by_cases hmx : 5 ≤ F ∧ F ≤ 8
      · have hm : isMxFmt F = true := (isMxFmt_iff F).2 (by omega)
        simp only [drainRow, drained, cINT32, if_neg h32, if_neg h8, if_neg (mt (isFp8_iff F).1 h8), if_pos hmx, if_pos hm, groupsOf_eq,
          zipIdx_map_range, List.flatMap_map, List.map_map]
        rfl
      · have hm : ¬ isMxFmt F = true := fun h => hmx (by have := (isMxFmt_iff F).1 h; omega)
        simp only [drainRow, drained, cINT32, if_neg h32, if_neg h8, if_neg (mt (isFp8_iff F).1 h8), if_neg hmx, if_neg hm, List.map_map]
        rfl

theorem drainOne_scratchpad (s : State) (x : EngCtx) (id : Nat) (a : DrainArgs) (tile : Cells 32) (j off stride : Nat) (s1 s2 : State)
    (hd : (if 128 ≤ j then a.dstT else a.dst) = .sp off stride) :
    let w := j % 128
    let F := if 128 ≤ j then a.tf else a.df
    let at_ (c : Nat) : Nat := if 128 ≤ j then 128 * c + w else 128 * w + c
    let row := drainRow F (if a.sr then .sr else .rn) a.sat
      (fun c => srr a.seed a.ctr (BitVec.ofNat 64 (at_ c)) (if 128 ≤ j then 1 else 0)) ((List.range 128).map fun c => cellGet tile (at_ c))
    s.dstBytes x id true (off + w * stride) false (packRow F row.1) = .ok s1 →
    s1.dstBytes x id true (off + 128 * stride + 4 * w) false row.2.1 = .ok s2 →
    s.drainOne x id a tile j = .ok (s2.opFlags x.cid id row.2.2) := by
  intro w F at_ row h1 h2
  simp only [w, F, at_, row] at h1 h2
  simp only [State.drainOne, ge_iff_le, decide_eq_true_eq, hd, h1, h2]
  rfl

theorem matrixArithmetic : MatrixArithmetic :=
  ⟨mmaRule_iff, accum_eq, fun _ _ _ _ _ _ _ _ _ _ _ hA hB hr => band_of_sides hA hB hr,
    fun _ _ _ _ _ h => ⟨fun hl => sideA_exact h hl, fun _ _ _ hl hu => sideA_latent h hl hu⟩,
    fun _ _ _ _ _ _ _ hl h => sideB_exact hl h, fun _ _ _ _ _ _ _ _ _ _ hl h hu => sideB_latent hl h hu,
    fun _ F _ _ h => stageRow_getElem? F h,
    fun F sat shared _ _ _ h => ⟨quantRows_unscaled F sat shared h, quantRows_fp8 F sat shared h, quantRows_mx F sat shared h⟩,
    drainRow_eq, drainOne_scratchpad⟩

/-- Settles O42: the events of the engine and the bus one by one, and the arithmetic definition by definition, each rule of accumulation as steps over
its groups in increasing K. -/
theorem matrixEvents : Obligations.MatrixEvents := ⟨matrixEngine, matrixArithmetic⟩

end Sys2Proof.Claim
end
